-- ==== Sys2Proof/Word.lean ====
section
/-! DEFINITION. The word types of the machine: 64-bit registers and addresses, bytes, 32-bit instruction words
(10_state.md R16, 30_encoding.md R120). -/

namespace Sys2Proof

/-- A 64-bit value: a general register, a System register, an address. -/
abbrev Word := BitVec 64

/-- The unit of memory (20_memory.md R58: memory is byte addressed). -/
abbrev Byte := BitVec 8

/-- A 32-bit value: an instruction word, a W register, an AArch32 register. -/
abbrev Half := BitVec 32

/-- A vector register of the largest length, MAX_VL = 2048 bits (70_reset_and_hazards.md R328). -/
abbrev VReg := BitVec 2048

/-- A predicate register, MAX_PL = MAX_VL / 8 bits (70_reset_and_hazards.md R329). -/
abbrev PReg := BitVec 256

end Sys2Proof
end

