-- ==== Sys2Proof/Syntax.lean ====
section
/-! DEFINITION. The instructions: one constructor for each row of spec/opcode_table.json, in the table's order, its
operands the row's fields from the most significant down. No meaning here (Machine/) and no bit positions (Decode). -/

namespace Sys2Proof

/-- The instruction sets (30_encoding.md R119, R120). -/
inductive ISA where
  | a64 | a32 | t32
  deriving DecidableEq, Repr

/-- One constructor for each row of the opcode table. -/
inductive Instr where
  /-- NOP (rule R122). -/
  | nop
  /-- WFE (rule R214). -/
  | wfe
  /-- WFI (rule R190). -/
  | wfi
  /-- PACIA1716 (rule R132). -/
  | pacia1716
  /-- PACIB1716 (rule R132). -/
  | pacib1716
  /-- AUTIA1716 (rule R132). -/
  | autia1716
  /-- AUTIB1716 (rule R132). -/
  | autib1716
  /-- CSDB (rule R86). -/
  | csdb
  /-- PACIAZ (rule R132). -/
  | paciaz
  /-- PACIASP (rule R138). -/
  | paciasp
  /-- PACIBZ (rule R132). -/
  | pacibz
  /-- PACIBSP (rule R138). -/
  | pacibsp
  /-- AUTIAZ (rule R132). -/
  | autiaz
  /-- AUTIASP (rule R132). -/
  | autiasp
  /-- AUTIBZ (rule R132). -/
  | autibz
  /-- AUTIBSP (rule R132). -/
  | autibsp
  /-- BTI (rule R136). -/
  | bti
  /-- BTI c (rule R136). -/
  | btiC
  /-- BTI j (rule R136). -/
  | btiJ
  /-- BTI jc (rule R136). -/
  | btiJC
  /-- WFET (rule R214). -/
  | wfet (rd : BitVec 5)
  /-- WFIT (rule R229). -/
  | wfit (rd : BitVec 5)
  /-- SB (rule R97). -/
  | sb
  /-- ISB (rule R189). -/
  | isb
  /-- DSB (rule R189). -/
  | dsb (crm : BitVec 4)
  /-- DMB (rule R66). -/
  | dmb (crm : BitVec 4)
  /-- DSB nXS (rule R95). -/
  | dsbNXS (imm2 : BitVec 2)
  /-- CLREX (rule R66). -/
  | clrex (crm : BitVec 4)
  /-- MSR DAIFSet imm (rule R140). -/
  | msrDaifSetImm (crm : BitVec 4)
  /-- MSR DAIFClr imm (rule R140). -/
  | msrDaifClrImm (crm : BitVec 4)
  /-- MSR SSBS imm (rule R140). -/
  | msrSsbsImm (crm : BitVec 4)
  /-- MSR DIT imm (rule R140). -/
  | msrDitImm (crm : BitVec 4)
  /-- MSR TCO imm (rule R140). -/
  | msrTcoImm (crm : BitVec 4)
  /-- MSR SPSel imm (rule R54). -/
  | msrSpselImm (crm : BitVec 4)
  /-- MRS Xt sysreg (rule R188). -/
  | mrs (o0 : BitVec 1) (op1 : BitVec 3) (crn : BitVec 4) (crm : BitVec 4) (op2 : BitVec 3) (rt : BitVec 5)
  /-- MSR sysreg Xt (rule R188). -/
  | msr (o0 : BitVec 1) (op1 : BitVec 3) (crn : BitVec 4) (crm : BitVec 4) (op2 : BitVec 3) (rt : BitVec 5)
  /-- SYS op1 Cn Cm op2 Xt (rule R58). -/
  | sys (op1 : BitVec 3) (crn : BitVec 4) (crm : BitVec 4) (op2 : BitVec 3) (rt : BitVec 5)
  /-- SYSL Xt op1 Cn Cm op2 (rule R58). -/
  | sysl (op1 : BitVec 3) (crn : BitVec 4) (crm : BitVec 4) (op2 : BitVec 3) (rt : BitVec 5)
  /-- DC ZVA Xt (rule R145). -/
  | dcZva (rt : BitVec 5)
  /-- DC GVA Xt (rule R153). -/
  | dcGva (rt : BitVec 5)
  /-- DC GZVA Xt (rule R145). -/
  | dcGzva (rt : BitVec 5)
  /-- DC CIVAC Xt (rule R150). -/
  | dcCivac (rt : BitVec 5)
  /-- DC CIGVAC Xt (rule R150). -/
  | dcCigvac (rt : BitVec 5)
  /-- DC CIGDVAC Xt (rule R150). -/
  | dcCigdvac (rt : BitVec 5)
  /-- IC IVAU Xt (rule R150). -/
  | icIvau (rt : BitVec 5)
  /-- DC CIPAE Xt (rule R147). -/
  | dcCipae (rt : BitVec 5)
  /-- DC CIGDPAE Xt (rule R147). -/
  | dcCigdpae (rt : BitVec 5)
  /-- TLBI ALLE1 (rule R154). -/
  | tlbiAlle1
  /-- TLBI ALLE1NXS (rule R154). -/
  | tlbiAlle1nxs
  /-- TLBI RVAE1 Xt (rule R141). -/
  | tlbiRvae1 (rt : BitVec 5)
  /-- TLBI RVAAE1 Xt (rule R141). -/
  | tlbiRvaae1 (rt : BitVec 5)
  /-- TLBI RIPAS2E1 Xt (rule R141). -/
  | tlbiRipas2e1 (rt : BitVec 5)
  /-- TLBI RPAOS Xt (rule R141). -/
  | tlbiRpaos (rt : BitVec 5)
  /-- CFP RCTX Xt (rule R143). -/
  | cfpRctx (rt : BitVec 5)
  /-- DVP RCTX Xt (rule R143). -/
  | dvpRctx (rt : BitVec 5)
  /-- CPP RCTX Xt (rule R143). -/
  | cppRctx (rt : BitVec 5)
  /-- AT S1E1R Xt (rule R149). -/
  | atS1e1r (rt : BitVec 5)
  /-- MRS Xt RNDR (rule R151). -/
  | mrsRndr (rt : BitVec 5)
  /-- MRS Xt RNDRRS (rule R151). -/
  | mrsRndrrs (rt : BitVec 5)
  /-- MRS Xt CNTPCT EL0 (rule R244). -/
  | mrsCntpctEl0 (rt : BitVec 5)
  /-- MRS Xt CNTVCT EL0 (rule R248). -/
  | mrsCntvctEl0 (rt : BitVec 5)
  /-- MRS Xt CNTPCTSS EL0 (rule R243). -/
  | mrsCntpctssEl0 (rt : BitVec 5)
  /-- MRS Xt CNTVCTSS EL0 (rule R248). -/
  | mrsCntvctssEl0 (rt : BitVec 5)
  /-- MRS Xt ID AA64SMFR0 EL1 (rule R146). -/
  | mrsIdAa64smfr0El1 (rt : BitVec 5)
  /-- MRS Xt CCSIDR EL1 (rule R152). -/
  | mrsCcsidrEl1 (rt : BitVec 5)
  /-- MRS Xt ISR EL1 (rule R233). -/
  | mrsIsrEl1 (rt : BitVec 5)
  /-- MRS Xt NZCV (rule R34). -/
  | mrsNzcv (rt : BitVec 5)
  /-- MSR NZCV Xt (rule R34). -/
  | msrNzcv (rt : BitVec 5)
  /-- MRS Xt DAIF (rule R55). -/
  | mrsDaif (rt : BitVec 5)
  /-- MSR DAIF Xt (rule R55). -/
  | msrDaif (rt : BitVec 5)
  /-- MRS Xt DIT (rule R55). -/
  | mrsDit (rt : BitVec 5)
  /-- MSR DIT Xt (rule R55). -/
  | msrDit (rt : BitVec 5)
  /-- MRS Xt RMR EL1 (rule R326). -/
  | mrsRmrEl1 (rt : BitVec 5)
  /-- MSR RMR EL1 Xt (rule R326). -/
  | msrRmrEl1 (rt : BitVec 5)
  /-- MRS Xt RMR EL2 (rule R326). -/
  | mrsRmrEl2 (rt : BitVec 5)
  /-- MSR RMR EL2 Xt (rule R326). -/
  | msrRmrEl2 (rt : BitVec 5)
  /-- MRS Xt RMR EL3 (rule R326). -/
  | mrsRmrEl3 (rt : BitVec 5)
  /-- MSR RMR EL3 Xt (rule R326). -/
  | msrRmrEl3 (rt : BitVec 5)
  /-- PACGA Xd Xn Xm SP (rule R130). -/
  | pacga (rm : BitVec 5) (rn : BitVec 5) (rd : BitVec 5)
  /-- PACIA Xd Xn SP (rule R132). -/
  | pacia (rn : BitVec 5) (rd : BitVec 5)
  /-- PACIB Xd Xn SP (rule R132). -/
  | pacib (rn : BitVec 5) (rd : BitVec 5)
  /-- PACDA Xd Xn SP (rule R132). -/
  | pacda (rn : BitVec 5) (rd : BitVec 5)
  /-- PACDB Xd Xn SP (rule R132). -/
  | pacdb (rn : BitVec 5) (rd : BitVec 5)
  /-- AUTIA Xd Xn SP (rule R132). -/
  | autia (rn : BitVec 5) (rd : BitVec 5)
  /-- AUTIB Xd Xn SP (rule R132). -/
  | autib (rn : BitVec 5) (rd : BitVec 5)
  /-- AUTDA Xd Xn SP (rule R132). -/
  | autda (rn : BitVec 5) (rd : BitVec 5)
  /-- AUTDB Xd Xn SP (rule R132). -/
  | autdb (rn : BitVec 5) (rd : BitVec 5)
  /-- PACIZA Xd (rule R132). -/
  | paciza (rd : BitVec 5)
  /-- PACIZB Xd (rule R132). -/
  | pacizb (rd : BitVec 5)
  /-- PACDZA Xd (rule R132). -/
  | pacdza (rd : BitVec 5)
  /-- PACDZB Xd (rule R132). -/
  | pacdzb (rd : BitVec 5)
  /-- AUTIZA Xd (rule R132). -/
  | autiza (rd : BitVec 5)
  /-- AUTIZB Xd (rule R132). -/
  | autizb (rd : BitVec 5)
  /-- AUTDZA Xd (rule R132). -/
  | autdza (rd : BitVec 5)
  /-- AUTDZB Xd (rule R132). -/
  | autdzb (rd : BitVec 5)
  /-- RET Xn (rule R192). -/
  | ret (rn : BitVec 5)
  /-- RETAA (rule R137). -/
  | retaa
  /-- RETAB (rule R137). -/
  | retab
  /-- BRAAZ Xn (rule R128). -/
  | braaz (rn : BitVec 5)
  /-- BRABZ Xn (rule R128). -/
  | brabz (rn : BitVec 5)
  /-- BLRAAZ Xn (rule R128). -/
  | blraaz (rn : BitVec 5)
  /-- BLRABZ Xn (rule R128). -/
  | blrabz (rn : BitVec 5)
  /-- BRAA Xn Xm SP (rule R128). -/
  | braa (rn : BitVec 5) (rm : BitVec 5)
  /-- BRAB Xn Xm SP (rule R128). -/
  | brab (rn : BitVec 5) (rm : BitVec 5)
  /-- BLRAA Xn Xm SP (rule R128). -/
  | blraa (rn : BitVec 5) (rm : BitVec 5)
  /-- BLRAB Xn Xm SP (rule R128). -/
  | blrab (rn : BitVec 5) (rm : BitVec 5)
  /-- ERET (rule R201). -/
  | eret
  /-- ERETAA (rule R218). -/
  | eretaa
  /-- ERETAB (rule R218). -/
  | eretab
  /-- DRPS (rule R139). -/
  | drps
  /-- LDRAA LDRAB Xt Xn SP  simm (rule R131). -/
  | ldra (m : BitVec 1) (sbit : BitVec 1) (imm9 : BitVec 9) (w : BitVec 1) (rn : BitVec 5) (rt : BitVec 5)
  /-- SVC imm16 (rule R240). -/
  | svc (imm16 : BitVec 16)
  /-- HVC imm16 (rule R240). -/
  | hvc (imm16 : BitVec 16)
  /-- SMC imm16 (rule R240). -/
  | smc (imm16 : BitVec 16)
  /-- BRK imm16 (rule R216). -/
  | brk (imm16 : BitVec 16)
  /-- HLT imm16 (rule R217). -/
  | hlt (imm16 : BitVec 16)
  /-- STG Xt SP Xn SP simm (rule R70). -/
  | stgOffset (imm9 : BitVec 9) (rn : BitVec 5) (rt : BitVec 5)
  /-- STG Xt SP Xn SP  simm (rule R70). -/
  | stgPost (imm9 : BitVec 9) (rn : BitVec 5) (rt : BitVec 5)
  /-- STG Xt SP Xn SP simm 2 (rule R70). -/
  | stgPre (imm9 : BitVec 9) (rn : BitVec 5) (rt : BitVec 5)
  /-- STZGM Xt Xn SP (rule R161). -/
  | stzgm (rn : BitVec 5) (rt : BitVec 5)
  /-- STGM Xt Xn SP (rule R89). -/
  | stgm (rn : BitVec 5) (rt : BitVec 5)
  /-- LDGM Xt Xn SP (rule R89). -/
  | ldgm (rn : BitVec 5) (rt : BitVec 5)
  /-- LD64B Xt Xn SP (rule R155). -/
  | ld64b (rn : BitVec 5) (rt : BitVec 5)
  /-- ST64B Xt Xn SP (rule R155). -/
  | st64b (rn : BitVec 5) (rt : BitVec 5)
  /-- ST64BV Xs Xt Xn SP (rule R155). -/
  | st64bv (rs : BitVec 5) (rn : BitVec 5) (rt : BitVec 5)
  /-- ST64BV0 Xs Xt Xn SP (rule R155). -/
  | st64bv0 (rs : BitVec 5) (rn : BitVec 5) (rt : BitVec 5)
  /-- LDXR Xt Xn SP (rule R195). -/
  | ldxr (rn : BitVec 5) (rt : BitVec 5)
  /-- LDAXR Xt Xn SP (rule R195). -/
  | ldaxr (rn : BitVec 5) (rt : BitVec 5)
  /-- STXRB Ws Wt Xn SP (rule R160). -/
  | stxrb (rs : BitVec 5) (rn : BitVec 5) (rt : BitVec 5)
  /-- STLXRB Ws Wt Xn SP (rule R160). -/
  | stlxrb (rs : BitVec 5) (rn : BitVec 5) (rt : BitVec 5)
  /-- STXRH Ws Wt Xn SP (rule R160). -/
  | stxrh (rs : BitVec 5) (rn : BitVec 5) (rt : BitVec 5)
  /-- STLXRH Ws Wt Xn SP (rule R160). -/
  | stlxrh (rs : BitVec 5) (rn : BitVec 5) (rt : BitVec 5)
  /-- STXR Ws Wt Xn SP (rule R160). -/
  | stxrW (rs : BitVec 5) (rn : BitVec 5) (rt : BitVec 5)
  /-- STLXR Ws Wt Xn SP (rule R160). -/
  | stlxrW (rs : BitVec 5) (rn : BitVec 5) (rt : BitVec 5)
  /-- STXR Ws Xt Xn SP (rule R160). -/
  | stxrX (rs : BitVec 5) (rn : BitVec 5) (rt : BitVec 5)
  /-- STLXR Ws Xt Xn SP (rule R160). -/
  | stlxrX (rs : BitVec 5) (rn : BitVec 5) (rt : BitVec 5)
  /-- STXP Ws Wt1 Wt2 Xn SP (rule R160). -/
  | stxpW (rs : BitVec 5) (rt2 : BitVec 5) (rn : BitVec 5) (rt : BitVec 5)
  /-- STLXP Ws Wt1 Wt2 Xn SP (rule R160). -/
  | stlxpW (rs : BitVec 5) (rt2 : BitVec 5) (rn : BitVec 5) (rt : BitVec 5)
  /-- STXP Ws Xt1 Xt2 Xn SP (rule R160). -/
  | stxpX (rs : BitVec 5) (rt2 : BitVec 5) (rn : BitVec 5) (rt : BitVec 5)
  /-- STLXP Ws Xt1 Xt2 Xn SP (rule R160). -/
  | stlxpX (rs : BitVec 5) (rt2 : BitVec 5) (rn : BitVec 5) (rt : BitVec 5)
  /-- MOVZ Xd imm16 LSL shift MOV Xd imm (rule R187). -/
  | movzX (hw : BitVec 2) (imm16 : BitVec 16) (rd : BitVec 5)
  /-- MOVZ Wd imm16 LSL shift MOV Wd imm (rule R187). -/
  | movzW (hw : BitVec 1) (imm16 : BitVec 16) (rd : BitVec 5)
  /-- ADD Xd SP Xn SP imm12 (rule R194). -/
  | addX (sh : BitVec 1) (imm12 : BitVec 12) (rn : BitVec 5) (rd : BitVec 5)
  /-- SUB Xd SP Xn SP imm12 (rule R194). -/
  | subX (sh : BitVec 1) (imm12 : BitVec 12) (rn : BitVec 5) (rd : BitVec 5)
  /-- SUBS Xd Xn SP imm12 (rule R194). -/
  | subsX (sh : BitVec 1) (imm12 : BitVec 12) (rn : BitVec 5) (rd : BitVec 5)
  /-- ADD Wd WSP Wn WSP imm12 (rule R194). -/
  | addW (sh : BitVec 1) (imm12 : BitVec 12) (rn : BitVec 5) (rd : BitVec 5)
  /-- SUB Wd WSP Wn WSP imm12 (rule R194). -/
  | subW (sh : BitVec 1) (imm12 : BitVec 12) (rn : BitVec 5) (rd : BitVec 5)
  /-- SUBS Wd Wn WSP imm12 (rule R194). -/
  | subsW (sh : BitVec 1) (imm12 : BitVec 12) (rn : BitVec 5) (rd : BitVec 5)
  /-- ORR Xd Xn Xm shift amount (rule R194). -/
  | orrX (shift : BitVec 2) (rm : BitVec 5) (imm6 : BitVec 6) (rn : BitVec 5) (rd : BitVec 5)
  /-- CBZ Xt label (rule R194). -/
  | cbzX (imm19 : BitVec 19) (rt : BitVec 5)
  /-- CBNZ Xt label (rule R194). -/
  | cbnzX (imm19 : BitVec 19) (rt : BitVec 5)
  /-- CBZ Wt label (rule R194). -/
  | cbzW (imm19 : BitVec 19) (rt : BitVec 5)
  /-- CBNZ Wt label (rule R194). -/
  | cbnzW (imm19 : BitVec 19) (rt : BitVec 5)
  /-- B.cond label (rule R194). -/
  | bCond (imm19 : BitVec 19) (cond : BitVec 4)
  /-- B label (rule R191). -/
  | b (imm26 : BitVec 26)
  /-- STR Xt Xn SP pimm (rule R193). -/
  | strX (imm12 : BitVec 12) (rn : BitVec 5) (rt : BitVec 5)
  /-- LDR Xt Xn SP pimm (rule R193). -/
  | ldrX (imm12 : BitVec 12) (rn : BitVec 5) (rt : BitVec 5)
  /-- LDR Xt Xn SP simm (rule R193). -/
  | ldrXPre (imm9 : BitVec 9) (rn : BitVec 5) (rt : BitVec 5)
  /-- MOVPRFX Zd Zn (rule R173). -/
  | movprfx (zn : BitVec 5) (zd : BitVec 5)
  /-- MOVPRFX Zd.T Pg ZM Zn.T (rule R173). -/
  | movprfxPred (size : BitVec 2) (m : BitVec 1) (pg : BitVec 3) (zn : BitVec 5) (zd : BitVec 5)
  /-- FMMLA Zda.S Zn.S Zm.S (rule R174). -/
  | fmmlaS (zm : BitVec 5) (zn : BitVec 5) (zda : BitVec 5)
  /-- FMMLA Zda.D Zn.D Zm.D (rule R174). -/
  | fmmlaD (zm : BitVec 5) (zn : BitVec 5) (zda : BitVec 5)
  /-- FMAX Sd Sn Sm (rule R177). -/
  | fmaxS (rm : BitVec 5) (rn : BitVec 5) (rd : BitVec 5)
  /-- FMAX Dd Dn Dm (rule R177). -/
  | fmaxD (rm : BitVec 5) (rn : BitVec 5) (rd : BitVec 5)
  /-- FMIN Sd Sn Sm (rule R177). -/
  | fminS (rm : BitVec 5) (rn : BitVec 5) (rd : BitVec 5)
  /-- FMIN Dd Dn Dm (rule R177). -/
  | fminD (rm : BitVec 5) (rn : BitVec 5) (rd : BitVec 5)
  /-- FMAXNM Sd Sn Sm (rule R179). -/
  | fmaxnmS (rm : BitVec 5) (rn : BitVec 5) (rd : BitVec 5)
  /-- FMAXNM Dd Dn Dm (rule R179). -/
  | fmaxnmD (rm : BitVec 5) (rn : BitVec 5) (rd : BitVec 5)
  /-- FMINNM Sd Sn Sm (rule R179). -/
  | fminnmS (rm : BitVec 5) (rn : BitVec 5) (rd : BitVec 5)
  /-- FMINNM Dd Dn Dm (rule R179). -/
  | fminnmD (rm : BitVec 5) (rn : BitVec 5) (rd : BitVec 5)
  /-- VMOVL. dt Qd Dm A32 (rule R183). -/
  | vmovlA32 (u : BitVec 1) (d : BitVec 1) (imm3H : BitVec 3) (vd : BitVec 4) (m : BitVec 1) (vm : BitVec 4)
  /-- VMOVL. dt Qd Dm T32 (rule R183). -/
  | vmovlT32 (u : BitVec 1) (d : BitVec 1) (imm3H : BitVec 3) (vd : BitVec 4) (m : BitVec 1) (vm : BitVec 4)
  /-- CSDB A32 (rule R87). -/
  | csdbA32 (cond : BitVec 4)
  /-- CSDB T32 (rule R87). -/
  | csdbT32
  /-- SB A32 (rule R97). -/
  | sbA32
  /-- SB T32 (rule R97). -/
  | sbT32
  /-- MRC p14 0 Rt c0 c1 0 DBGDSCRint (rule R184). -/
  | mrcDbgdscrint (cond : BitVec 4) (rt : BitVec 4)
  /-- MCR p15 0 Rt c7 c4 0 PAR (rule R185). -/
  | mcrPar (cond : BitVec 4) (rt : BitVec 4)
  deriving DecidableEq, Repr

/-- The instruction set an instruction belongs to. -/
def Instr.isa : Instr → ISA
  | .nop => .a64
  | .wfe => .a64
  | .wfi => .a64
  | .pacia1716 => .a64
  | .pacib1716 => .a64
  | .autia1716 => .a64
  | .autib1716 => .a64
  | .csdb => .a64
  | .paciaz => .a64
  | .paciasp => .a64
  | .pacibz => .a64
  | .pacibsp => .a64
  | .autiaz => .a64
  | .autiasp => .a64
  | .autibz => .a64
  | .autibsp => .a64
  | .bti => .a64
  | .btiC => .a64
  | .btiJ => .a64
  | .btiJC => .a64
  | .wfet _ => .a64
  | .wfit _ => .a64
  | .sb => .a64
  | .isb => .a64
  | .dsb _ => .a64
  | .dmb _ => .a64
  | .dsbNXS _ => .a64
  | .clrex _ => .a64
  | .msrDaifSetImm _ => .a64
  | .msrDaifClrImm _ => .a64
  | .msrSsbsImm _ => .a64
  | .msrDitImm _ => .a64
  | .msrTcoImm _ => .a64
  | .msrSpselImm _ => .a64
  | .mrs _ _ _ _ _ _ => .a64
  | .msr _ _ _ _ _ _ => .a64
  | .sys _ _ _ _ _ => .a64
  | .sysl _ _ _ _ _ => .a64
  | .dcZva _ => .a64
  | .dcGva _ => .a64
  | .dcGzva _ => .a64
  | .dcCivac _ => .a64
  | .dcCigvac _ => .a64
  | .dcCigdvac _ => .a64
  | .icIvau _ => .a64
  | .dcCipae _ => .a64
  | .dcCigdpae _ => .a64
  | .tlbiAlle1 => .a64
  | .tlbiAlle1nxs => .a64
  | .tlbiRvae1 _ => .a64
  | .tlbiRvaae1 _ => .a64
  | .tlbiRipas2e1 _ => .a64
  | .tlbiRpaos _ => .a64
  | .cfpRctx _ => .a64
  | .dvpRctx _ => .a64
  | .cppRctx _ => .a64
  | .atS1e1r _ => .a64
  | .mrsRndr _ => .a64
  | .mrsRndrrs _ => .a64
  | .mrsCntpctEl0 _ => .a64
  | .mrsCntvctEl0 _ => .a64
  | .mrsCntpctssEl0 _ => .a64
  | .mrsCntvctssEl0 _ => .a64
  | .mrsIdAa64smfr0El1 _ => .a64
  | .mrsCcsidrEl1 _ => .a64
  | .mrsIsrEl1 _ => .a64
  | .mrsNzcv _ => .a64
  | .msrNzcv _ => .a64
  | .mrsDaif _ => .a64
  | .msrDaif _ => .a64
  | .mrsDit _ => .a64
  | .msrDit _ => .a64
  | .mrsRmrEl1 _ => .a64
  | .msrRmrEl1 _ => .a64
  | .mrsRmrEl2 _ => .a64
  | .msrRmrEl2 _ => .a64
  | .mrsRmrEl3 _ => .a64
  | .msrRmrEl3 _ => .a64
  | .pacga _ _ _ => .a64
  | .pacia _ _ => .a64
  | .pacib _ _ => .a64
  | .pacda _ _ => .a64
  | .pacdb _ _ => .a64
  | .autia _ _ => .a64
  | .autib _ _ => .a64
  | .autda _ _ => .a64
  | .autdb _ _ => .a64
  | .paciza _ => .a64
  | .pacizb _ => .a64
  | .pacdza _ => .a64
  | .pacdzb _ => .a64
  | .autiza _ => .a64
  | .autizb _ => .a64
  | .autdza _ => .a64
  | .autdzb _ => .a64
  | .ret _ => .a64
  | .retaa => .a64
  | .retab => .a64
  | .braaz _ => .a64
  | .brabz _ => .a64
  | .blraaz _ => .a64
  | .blrabz _ => .a64
  | .braa _ _ => .a64
  | .brab _ _ => .a64
  | .blraa _ _ => .a64
  | .blrab _ _ => .a64
  | .eret => .a64
  | .eretaa => .a64
  | .eretab => .a64
  | .drps => .a64
  | .ldra _ _ _ _ _ _ => .a64
  | .svc _ => .a64
  | .hvc _ => .a64
  | .smc _ => .a64
  | .brk _ => .a64
  | .hlt _ => .a64
  | .stgOffset _ _ _ => .a64
  | .stgPost _ _ _ => .a64
  | .stgPre _ _ _ => .a64
  | .stzgm _ _ => .a64
  | .stgm _ _ => .a64
  | .ldgm _ _ => .a64
  | .ld64b _ _ => .a64
  | .st64b _ _ => .a64
  | .st64bv _ _ _ => .a64
  | .st64bv0 _ _ _ => .a64
  | .ldxr _ _ => .a64
  | .ldaxr _ _ => .a64
  | .stxrb _ _ _ => .a64
  | .stlxrb _ _ _ => .a64
  | .stxrh _ _ _ => .a64
  | .stlxrh _ _ _ => .a64
  | .stxrW _ _ _ => .a64
  | .stlxrW _ _ _ => .a64
  | .stxrX _ _ _ => .a64
  | .stlxrX _ _ _ => .a64
  | .stxpW _ _ _ _ => .a64
  | .stlxpW _ _ _ _ => .a64
  | .stxpX _ _ _ _ => .a64
  | .stlxpX _ _ _ _ => .a64
  | .movzX _ _ _ => .a64
  | .movzW _ _ _ => .a64
  | .addX _ _ _ _ => .a64
  | .subX _ _ _ _ => .a64
  | .subsX _ _ _ _ => .a64
  | .addW _ _ _ _ => .a64
  | .subW _ _ _ _ => .a64
  | .subsW _ _ _ _ => .a64
  | .orrX _ _ _ _ _ => .a64
  | .cbzX _ _ => .a64
  | .cbnzX _ _ => .a64
  | .cbzW _ _ => .a64
  | .cbnzW _ _ => .a64
  | .bCond _ _ => .a64
  | .b _ => .a64
  | .strX _ _ _ => .a64
  | .ldrX _ _ _ => .a64
  | .ldrXPre _ _ _ => .a64
  | .movprfx _ _ => .a64
  | .movprfxPred _ _ _ _ _ => .a64
  | .fmmlaS _ _ _ => .a64
  | .fmmlaD _ _ _ => .a64
  | .fmaxS _ _ _ => .a64
  | .fmaxD _ _ _ => .a64
  | .fminS _ _ _ => .a64
  | .fminD _ _ _ => .a64
  | .fmaxnmS _ _ _ => .a64
  | .fmaxnmD _ _ _ => .a64
  | .fminnmS _ _ _ => .a64
  | .fminnmD _ _ _ => .a64
  | .vmovlA32 _ _ _ _ _ _ => .a32
  | .vmovlT32 _ _ _ _ _ _ => .t32
  | .csdbA32 _ => .a32
  | .csdbT32 => .t32
  | .sbA32 => .a32
  | .sbT32 => .t32
  | .mrcDbgdscrint _ _ => .a32
  | .mcrPar _ _ => .a32

end Sys2Proof
end

