-- ==== Sys2Proof/WellFormed.lean ====
section
/-! DEFINITION. Which terms of `Instr` are instructions: the generic System register rows do not name a register or
an operation that has a row of its own (30_encoding.md R119: the decoder takes the named row), VMOVL has a nonzero
imm3H (44_aarch32.md R183), and a conditional AArch32 instruction does not use the condition 0b1111, which begins
another encoding space. -/

namespace Sys2Proof

/-- The (o0, op1, CRn, CRm, op2) of the System registers that `MRS` rows of their own name. -/
def namedMrs : List (BitVec 15) :=
  [0x5920, 0x5921, 0x5f01, 0x5f02, 0x5f05, 0x5f06,
   0x4025, 0x4800, 0x4608, 0x5a10, 0x5a11, 0x5a15,
   0x4602, 0x6602, 0x7602]

/-- The (o0, op1, CRn, CRm, op2) of the System registers that `MSR` rows of their own name. -/
def namedMsr : List (BitVec 15) :=
  [0x5a10, 0x5a11, 0x5a15, 0x4602, 0x6602, 0x7602]

/-- The (op1, CRn, CRm, op2) of the System instructions with a row of their own that takes Xt. -/
def namedSys : List (BitVec 14) :=
  [0x1ba1, 0x1ba3, 0x1ba4, 0x1bf1, 0x1bf3, 0x1bf5,
   0x1ba9, 0x23f0, 0x23f7, 0x431, 0x433, 0x2422,
   0x3423, 0x1b9c, 0x1b9d, 0x1b9f, 0x3c0]

/-- The (op1, CRn, CRm, op2) of the System instructions with a row of their own whose Rt field is 31. -/
def namedSysNoReg : List (BitVec 14) :=
  [0x243c, 0x24bc]

/-- The register a generic `MRS` or `MSR` names, as (o0, op1, CRn, CRm, op2). -/
def selReg (o0 : BitVec 1) (op1 : BitVec 3) (crn crm : BitVec 4) (op2 : BitVec 3) : BitVec 15 :=
  o0 ++ (op1 ++ (crn ++ (crm ++ op2)))

/-- The operation a generic `SYS` names, as (op1, CRn, CRm, op2). -/
def selSys (op1 : BitVec 3) (crn crm : BitVec 4) (op2 : BitVec 3) : BitVec 14 :=
  op1 ++ (crn ++ (crm ++ op2))

/-- Well-formed instructions. -/
def Instr.wf : Instr → Bool
  | .nop => true
  | .wfe => true
  | .wfi => true
  | .pacia1716 => true
  | .pacib1716 => true
  | .autia1716 => true
  | .autib1716 => true
  | .csdb => true
  | .paciaz => true
  | .paciasp => true
  | .pacibz => true
  | .pacibsp => true
  | .autiaz => true
  | .autiasp => true
  | .autibz => true
  | .autibsp => true
  | .bti => true
  | .btiC => true
  | .btiJ => true
  | .btiJC => true
  | .wfet _ => true
  | .wfit _ => true
  | .sb => true
  | .isb => true
  | .dsb _ => true
  | .dmb _ => true
  | .dsbNXS _ => true
  | .clrex _ => true
  | .msrDaifSetImm _ => true
  | .msrDaifClrImm _ => true
  | .msrSsbsImm _ => true
  | .msrDitImm _ => true
  | .msrTcoImm _ => true
  | .msrSpselImm _ => true
  | .mrs o0 op1 crn crm op2 _ => !namedMrs.contains (selReg o0 op1 crn crm op2)
  | .msr o0 op1 crn crm op2 _ => !namedMsr.contains (selReg o0 op1 crn crm op2)
  | .sys op1 crn crm op2 rt =>
    !namedSys.contains (selSys op1 crn crm op2) &&
      !(namedSysNoReg.contains (selSys op1 crn crm op2) && rt == 31)
  | .sysl _ _ _ _ _ => true
  | .dcZva _ => true
  | .dcGva _ => true
  | .dcGzva _ => true
  | .dcCivac _ => true
  | .dcCigvac _ => true
  | .dcCigdvac _ => true
  | .icIvau _ => true
  | .dcCipae _ => true
  | .dcCigdpae _ => true
  | .tlbiAlle1 => true
  | .tlbiAlle1nxs => true
  | .tlbiRvae1 _ => true
  | .tlbiRvaae1 _ => true
  | .tlbiRipas2e1 _ => true
  | .tlbiRpaos _ => true
  | .cfpRctx _ => true
  | .dvpRctx _ => true
  | .cppRctx _ => true
  | .atS1e1r _ => true
  | .mrsRndr _ => true
  | .mrsRndrrs _ => true
  | .mrsCntpctEl0 _ => true
  | .mrsCntvctEl0 _ => true
  | .mrsCntpctssEl0 _ => true
  | .mrsCntvctssEl0 _ => true
  | .mrsIdAa64smfr0El1 _ => true
  | .mrsCcsidrEl1 _ => true
  | .mrsIsrEl1 _ => true
  | .mrsNzcv _ => true
  | .msrNzcv _ => true
  | .mrsDaif _ => true
  | .msrDaif _ => true
  | .mrsDit _ => true
  | .msrDit _ => true
  | .mrsRmrEl1 _ => true
  | .msrRmrEl1 _ => true
  | .mrsRmrEl2 _ => true
  | .msrRmrEl2 _ => true
  | .mrsRmrEl3 _ => true
  | .msrRmrEl3 _ => true
  | .pacga _ _ _ => true
  | .pacia _ _ => true
  | .pacib _ _ => true
  | .pacda _ _ => true
  | .pacdb _ _ => true
  | .autia _ _ => true
  | .autib _ _ => true
  | .autda _ _ => true
  | .autdb _ _ => true
  | .paciza _ => true
  | .pacizb _ => true
  | .pacdza _ => true
  | .pacdzb _ => true
  | .autiza _ => true
  | .autizb _ => true
  | .autdza _ => true
  | .autdzb _ => true
  | .ret _ => true
  | .retaa => true
  | .retab => true
  | .braaz _ => true
  | .brabz _ => true
  | .blraaz _ => true
  | .blrabz _ => true
  | .braa _ _ => true
  | .brab _ _ => true
  | .blraa _ _ => true
  | .blrab _ _ => true
  | .eret => true
  | .eretaa => true
  | .eretab => true
  | .drps => true
  | .ldra _ _ _ _ _ _ => true
  | .svc _ => true
  | .hvc _ => true
  | .smc _ => true
  | .brk _ => true
  | .hlt _ => true
  | .stgOffset _ _ _ => true
  | .stgPost _ _ _ => true
  | .stgPre _ _ _ => true
  | .stzgm _ _ => true
  | .stgm _ _ => true
  | .ldgm _ _ => true
  | .ld64b _ _ => true
  | .st64b _ _ => true
  | .st64bv _ _ _ => true
  | .st64bv0 _ _ _ => true
  | .ldxr _ _ => true
  | .ldaxr _ _ => true
  | .stxrb _ _ _ => true
  | .stlxrb _ _ _ => true
  | .stxrh _ _ _ => true
  | .stlxrh _ _ _ => true
  | .stxrW _ _ _ => true
  | .stlxrW _ _ _ => true
  | .stxrX _ _ _ => true
  | .stlxrX _ _ _ => true
  | .stxpW _ _ _ _ => true
  | .stlxpW _ _ _ _ => true
  | .stxpX _ _ _ _ => true
  | .stlxpX _ _ _ _ => true
  | .movzX _ _ _ => true
  | .movzW _ _ _ => true
  | .addX _ _ _ _ => true
  | .subX _ _ _ _ => true
  | .subsX _ _ _ _ => true
  | .addW _ _ _ _ => true
  | .subW _ _ _ _ => true
  | .subsW _ _ _ _ => true
  | .orrX _ _ _ _ _ => true
  | .cbzX _ _ => true
  | .cbnzX _ _ => true
  | .cbzW _ _ => true
  | .cbnzW _ _ => true
  | .bCond _ _ => true
  | .b _ => true
  | .strX _ _ _ => true
  | .ldrX _ _ _ => true
  | .ldrXPre _ _ _ => true
  | .movprfx _ _ => true
  | .movprfxPred _ _ _ _ _ => true
  | .fmmlaS _ _ _ => true
  | .fmmlaD _ _ _ => true
  | .fmaxS _ _ _ => true
  | .fmaxD _ _ _ => true
  | .fminS _ _ _ => true
  | .fminD _ _ _ => true
  | .fmaxnmS _ _ _ => true
  | .fmaxnmD _ _ _ => true
  | .fminnmS _ _ _ => true
  | .fminnmD _ _ _ => true
  | .vmovlA32 _ _ imm3H _ _ _ => imm3H != 0
  | .vmovlT32 _ _ imm3H _ _ _ => imm3H != 0
  | .csdbA32 cond => cond != 15
  | .csdbT32 => true
  | .sbA32 => true
  | .sbT32 => true
  | .mrcDbgdscrint cond _ => cond != 15
  | .mcrPar cond _ => cond != 15

end Sys2Proof
end

