-- ==== Sys2Proof/Decode.lean ====
section
/-! DEFINITION. The decoder, total on any bytes, and after it the encoder, both from the rows of spec/opcode_table.json
(30_encoding.md R119 to R124). A row is a mask, a value and the fields; the generic System register rows stand last, so
that a named row wins. -/

namespace Sys2Proof

/-- Why the decoder gives no instruction. -/
inductive DecodeRefusal where
  /-- Fewer bytes than an instruction has. -/
  | truncated
  /-- The permanently undefined A64 encodings, bits [31:16] zero. -/
  | udf
  /-- A 16-bit T32 instruction: the table has none. -/
  | narrowT32
  /-- No row of the opcode table matches (92_eei_decisions.md D18). -/
  | notInTable
  deriving DecidableEq, Repr

/-- A row of the opcode table: which words it matches, and the instruction it reads from one. -/
structure Row where
  mask : Half
  value : Half
  build : Half → Instr

/-- The word has the row's fixed bits. -/
def Row.matches (r : Row) (w : Half) : Bool := w &&& r.mask == r.value

/-- The `len` bits of `w` from bit `lo` up. -/
def slice (w : Half) (lo len : Nat) : BitVec len := w.extractLsb' lo len

/-- A field put at bit `lo` of an instruction word. -/
def place {n : Nat} (f : BitVec n) (lo : Nat) : Half := f.setWidth 32 <<< lo

/-- Rows of the A64 table, part 1. -/
def rowsA64_a : List Row := [
  ⟨0xFFFFFFFF, 0xD503201F, fun _ => .nop⟩,
  ⟨0xFFFFFFFF, 0xD503205F, fun _ => .wfe⟩,
  ⟨0xFFFFFFFF, 0xD503207F, fun _ => .wfi⟩,
  ⟨0xFFFFFFFF, 0xD503211F, fun _ => .pacia1716⟩,
  ⟨0xFFFFFFFF, 0xD503215F, fun _ => .pacib1716⟩,
  ⟨0xFFFFFFFF, 0xD503219F, fun _ => .autia1716⟩,
  ⟨0xFFFFFFFF, 0xD50321DF, fun _ => .autib1716⟩,
  ⟨0xFFFFFFFF, 0xD503229F, fun _ => .csdb⟩,
  ⟨0xFFFFFFFF, 0xD503231F, fun _ => .paciaz⟩,
  ⟨0xFFFFFFFF, 0xD503233F, fun _ => .paciasp⟩,
  ⟨0xFFFFFFFF, 0xD503235F, fun _ => .pacibz⟩,
  ⟨0xFFFFFFFF, 0xD503237F, fun _ => .pacibsp⟩,
  ⟨0xFFFFFFFF, 0xD503239F, fun _ => .autiaz⟩,
  ⟨0xFFFFFFFF, 0xD50323BF, fun _ => .autiasp⟩,
  ⟨0xFFFFFFFF, 0xD50323DF, fun _ => .autibz⟩,
  ⟨0xFFFFFFFF, 0xD50323FF, fun _ => .autibsp⟩,
  ⟨0xFFFFFFFF, 0xD503241F, fun _ => .bti⟩,
  ⟨0xFFFFFFFF, 0xD503245F, fun _ => .btiC⟩,
  ⟨0xFFFFFFFF, 0xD503249F, fun _ => .btiJ⟩,
  ⟨0xFFFFFFFF, 0xD50324DF, fun _ => .btiJC⟩,
  ⟨0xFFFFFFE0, 0xD5031000, fun w => .wfet (slice w 0 5)⟩]

/-- Rows of the A64 table, part 2. -/
def rowsA64_b : List Row := [
  ⟨0xFFFFFFE0, 0xD5031020, fun w => .wfit (slice w 0 5)⟩,
  ⟨0xFFFFFFFF, 0xD50330FF, fun _ => .sb⟩,
  ⟨0xFFFFFFFF, 0xD5033FDF, fun _ => .isb⟩,
  ⟨0xFFFFF0FF, 0xD503309F, fun w => .dsb (slice w 8 4)⟩,
  ⟨0xFFFFF0FF, 0xD50330BF, fun w => .dmb (slice w 8 4)⟩,
  ⟨0xFFFFF3FF, 0xD503323F, fun w => .dsbNXS (slice w 10 2)⟩,
  ⟨0xFFFFF0FF, 0xD503305F, fun w => .clrex (slice w 8 4)⟩,
  ⟨0xFFFFF0FF, 0xD50340DF, fun w => .msrDaifSetImm (slice w 8 4)⟩,
  ⟨0xFFFFF0FF, 0xD50340FF, fun w => .msrDaifClrImm (slice w 8 4)⟩,
  ⟨0xFFFFF0FF, 0xD503403F, fun w => .msrSsbsImm (slice w 8 4)⟩,
  ⟨0xFFFFF0FF, 0xD503405F, fun w => .msrDitImm (slice w 8 4)⟩,
  ⟨0xFFFFF0FF, 0xD503409F, fun w => .msrTcoImm (slice w 8 4)⟩,
  ⟨0xFFFFF0FF, 0xD50040BF, fun w => .msrSpselImm (slice w 8 4)⟩,
  ⟨0xFFFFFFE0, 0xD50B7420, fun w => .dcZva (slice w 0 5)⟩,
  ⟨0xFFFFFFE0, 0xD50B7460, fun w => .dcGva (slice w 0 5)⟩,
  ⟨0xFFFFFFE0, 0xD50B7480, fun w => .dcGzva (slice w 0 5)⟩,
  ⟨0xFFFFFFE0, 0xD50B7E20, fun w => .dcCivac (slice w 0 5)⟩,
  ⟨0xFFFFFFE0, 0xD50B7E60, fun w => .dcCigvac (slice w 0 5)⟩,
  ⟨0xFFFFFFE0, 0xD50B7EA0, fun w => .dcCigdvac (slice w 0 5)⟩,
  ⟨0xFFFFFFE0, 0xD50B7520, fun w => .icIvau (slice w 0 5)⟩,
  ⟨0xFFFFFFE0, 0xD50C7E00, fun w => .dcCipae (slice w 0 5)⟩]

/-- Rows of the A64 table, part 3. -/
def rowsA64_c : List Row := [
  ⟨0xFFFFFFE0, 0xD50C7EE0, fun w => .dcCigdpae (slice w 0 5)⟩,
  ⟨0xFFFFFFFF, 0xD50C879F, fun _ => .tlbiAlle1⟩,
  ⟨0xFFFFFFFF, 0xD50C979F, fun _ => .tlbiAlle1nxs⟩,
  ⟨0xFFFFFFE0, 0xD5088620, fun w => .tlbiRvae1 (slice w 0 5)⟩,
  ⟨0xFFFFFFE0, 0xD5088660, fun w => .tlbiRvaae1 (slice w 0 5)⟩,
  ⟨0xFFFFFFE0, 0xD50C8440, fun w => .tlbiRipas2e1 (slice w 0 5)⟩,
  ⟨0xFFFFFFE0, 0xD50E8460, fun w => .tlbiRpaos (slice w 0 5)⟩,
  ⟨0xFFFFFFE0, 0xD50B7380, fun w => .cfpRctx (slice w 0 5)⟩,
  ⟨0xFFFFFFE0, 0xD50B73A0, fun w => .dvpRctx (slice w 0 5)⟩,
  ⟨0xFFFFFFE0, 0xD50B73E0, fun w => .cppRctx (slice w 0 5)⟩,
  ⟨0xFFFFFFE0, 0xD5087800, fun w => .atS1e1r (slice w 0 5)⟩,
  ⟨0xFFFFFFE0, 0xD53B2400, fun w => .mrsRndr (slice w 0 5)⟩,
  ⟨0xFFFFFFE0, 0xD53B2420, fun w => .mrsRndrrs (slice w 0 5)⟩,
  ⟨0xFFFFFFE0, 0xD53BE020, fun w => .mrsCntpctEl0 (slice w 0 5)⟩,
  ⟨0xFFFFFFE0, 0xD53BE040, fun w => .mrsCntvctEl0 (slice w 0 5)⟩,
  ⟨0xFFFFFFE0, 0xD53BE0A0, fun w => .mrsCntpctssEl0 (slice w 0 5)⟩,
  ⟨0xFFFFFFE0, 0xD53BE0C0, fun w => .mrsCntvctssEl0 (slice w 0 5)⟩,
  ⟨0xFFFFFFE0, 0xD53804A0, fun w => .mrsIdAa64smfr0El1 (slice w 0 5)⟩,
  ⟨0xFFFFFFE0, 0xD5390000, fun w => .mrsCcsidrEl1 (slice w 0 5)⟩,
  ⟨0xFFFFFFE0, 0xD538C100, fun w => .mrsIsrEl1 (slice w 0 5)⟩,
  ⟨0xFFFFFFE0, 0xD53B4200, fun w => .mrsNzcv (slice w 0 5)⟩]

/-- Rows of the A64 table, part 4. -/
def rowsA64_d : List Row := [
  ⟨0xFFFFFFE0, 0xD51B4200, fun w => .msrNzcv (slice w 0 5)⟩,
  ⟨0xFFFFFFE0, 0xD53B4220, fun w => .mrsDaif (slice w 0 5)⟩,
  ⟨0xFFFFFFE0, 0xD51B4220, fun w => .msrDaif (slice w 0 5)⟩,
  ⟨0xFFFFFFE0, 0xD53B42A0, fun w => .mrsDit (slice w 0 5)⟩,
  ⟨0xFFFFFFE0, 0xD51B42A0, fun w => .msrDit (slice w 0 5)⟩,
  ⟨0xFFFFFFE0, 0xD538C040, fun w => .mrsRmrEl1 (slice w 0 5)⟩,
  ⟨0xFFFFFFE0, 0xD518C040, fun w => .msrRmrEl1 (slice w 0 5)⟩,
  ⟨0xFFFFFFE0, 0xD53CC040, fun w => .mrsRmrEl2 (slice w 0 5)⟩,
  ⟨0xFFFFFFE0, 0xD51CC040, fun w => .msrRmrEl2 (slice w 0 5)⟩,
  ⟨0xFFFFFFE0, 0xD53EC040, fun w => .mrsRmrEl3 (slice w 0 5)⟩,
  ⟨0xFFFFFFE0, 0xD51EC040, fun w => .msrRmrEl3 (slice w 0 5)⟩,
  ⟨0xFFE0FC00, 0x9AC03000, fun w => .pacga (slice w 16 5) (slice w 5 5) (slice w 0 5)⟩,
  ⟨0xFFFFFC00, 0xDAC10000, fun w => .pacia (slice w 5 5) (slice w 0 5)⟩,
  ⟨0xFFFFFC00, 0xDAC10400, fun w => .pacib (slice w 5 5) (slice w 0 5)⟩,
  ⟨0xFFFFFC00, 0xDAC10800, fun w => .pacda (slice w 5 5) (slice w 0 5)⟩,
  ⟨0xFFFFFC00, 0xDAC10C00, fun w => .pacdb (slice w 5 5) (slice w 0 5)⟩,
  ⟨0xFFFFFC00, 0xDAC11000, fun w => .autia (slice w 5 5) (slice w 0 5)⟩,
  ⟨0xFFFFFC00, 0xDAC11400, fun w => .autib (slice w 5 5) (slice w 0 5)⟩,
  ⟨0xFFFFFC00, 0xDAC11800, fun w => .autda (slice w 5 5) (slice w 0 5)⟩,
  ⟨0xFFFFFC00, 0xDAC11C00, fun w => .autdb (slice w 5 5) (slice w 0 5)⟩,
  ⟨0xFFFFFFE0, 0xDAC123E0, fun w => .paciza (slice w 0 5)⟩]

/-- Rows of the A64 table, part 5. -/
def rowsA64_e : List Row := [
  ⟨0xFFFFFFE0, 0xDAC127E0, fun w => .pacizb (slice w 0 5)⟩,
  ⟨0xFFFFFFE0, 0xDAC12BE0, fun w => .pacdza (slice w 0 5)⟩,
  ⟨0xFFFFFFE0, 0xDAC12FE0, fun w => .pacdzb (slice w 0 5)⟩,
  ⟨0xFFFFFFE0, 0xDAC133E0, fun w => .autiza (slice w 0 5)⟩,
  ⟨0xFFFFFFE0, 0xDAC137E0, fun w => .autizb (slice w 0 5)⟩,
  ⟨0xFFFFFFE0, 0xDAC13BE0, fun w => .autdza (slice w 0 5)⟩,
  ⟨0xFFFFFFE0, 0xDAC13FE0, fun w => .autdzb (slice w 0 5)⟩,
  ⟨0xFFFFFC1F, 0xD65F0000, fun w => .ret (slice w 5 5)⟩,
  ⟨0xFFFFFFFF, 0xD65F0BFF, fun _ => .retaa⟩,
  ⟨0xFFFFFFFF, 0xD65F0FFF, fun _ => .retab⟩,
  ⟨0xFFFFFC1F, 0xD61F081F, fun w => .braaz (slice w 5 5)⟩,
  ⟨0xFFFFFC1F, 0xD61F0C1F, fun w => .brabz (slice w 5 5)⟩,
  ⟨0xFFFFFC1F, 0xD63F081F, fun w => .blraaz (slice w 5 5)⟩,
  ⟨0xFFFFFC1F, 0xD63F0C1F, fun w => .blrabz (slice w 5 5)⟩,
  ⟨0xFFFFFC00, 0xD71F0800, fun w => .braa (slice w 5 5) (slice w 0 5)⟩,
  ⟨0xFFFFFC00, 0xD71F0C00, fun w => .brab (slice w 5 5) (slice w 0 5)⟩,
  ⟨0xFFFFFC00, 0xD73F0800, fun w => .blraa (slice w 5 5) (slice w 0 5)⟩,
  ⟨0xFFFFFC00, 0xD73F0C00, fun w => .blrab (slice w 5 5) (slice w 0 5)⟩,
  ⟨0xFFFFFFFF, 0xD69F03E0, fun _ => .eret⟩,
  ⟨0xFFFFFFFF, 0xD69F0BFF, fun _ => .eretaa⟩,
  ⟨0xFFFFFFFF, 0xD69F0FFF, fun _ => .eretab⟩]

/-- Rows of the A64 table, part 6. -/
def rowsA64_f : List Row := [
  ⟨0xFFFFFFFF, 0xD6BF03E0, fun _ => .drps⟩,
  ⟨0xFF200400, 0xF8200400, fun w => .ldra (slice w 23 1) (slice w 22 1) (slice w 12 9) (slice w 11 1) (slice w 5 5) (slice w 0 5)⟩,
  ⟨0xFFE0001F, 0xD4000001, fun w => .svc (slice w 5 16)⟩,
  ⟨0xFFE0001F, 0xD4000002, fun w => .hvc (slice w 5 16)⟩,
  ⟨0xFFE0001F, 0xD4000003, fun w => .smc (slice w 5 16)⟩,
  ⟨0xFFE0001F, 0xD4200000, fun w => .brk (slice w 5 16)⟩,
  ⟨0xFFE0001F, 0xD4400000, fun w => .hlt (slice w 5 16)⟩,
  ⟨0xFFE00C00, 0xD9200800, fun w => .stgOffset (slice w 12 9) (slice w 5 5) (slice w 0 5)⟩,
  ⟨0xFFE00C00, 0xD9200400, fun w => .stgPost (slice w 12 9) (slice w 5 5) (slice w 0 5)⟩,
  ⟨0xFFE00C00, 0xD9200C00, fun w => .stgPre (slice w 12 9) (slice w 5 5) (slice w 0 5)⟩,
  ⟨0xFFFFFC00, 0xD9200000, fun w => .stzgm (slice w 5 5) (slice w 0 5)⟩,
  ⟨0xFFFFFC00, 0xD9A00000, fun w => .stgm (slice w 5 5) (slice w 0 5)⟩,
  ⟨0xFFFFFC00, 0xD9E00000, fun w => .ldgm (slice w 5 5) (slice w 0 5)⟩,
  ⟨0xFFFFFC00, 0xF83FD000, fun w => .ld64b (slice w 5 5) (slice w 0 5)⟩,
  ⟨0xFFFFFC00, 0xF83F9000, fun w => .st64b (slice w 5 5) (slice w 0 5)⟩,
  ⟨0xFFE0FC00, 0xF820B000, fun w => .st64bv (slice w 16 5) (slice w 5 5) (slice w 0 5)⟩,
  ⟨0xFFE0FC00, 0xF820A000, fun w => .st64bv0 (slice w 16 5) (slice w 5 5) (slice w 0 5)⟩,
  ⟨0xFFFFFC00, 0xC85F7C00, fun w => .ldxr (slice w 5 5) (slice w 0 5)⟩,
  ⟨0xFFFFFC00, 0xC85FFC00, fun w => .ldaxr (slice w 5 5) (slice w 0 5)⟩,
  ⟨0xFFE0FC00, 0x08007C00, fun w => .stxrb (slice w 16 5) (slice w 5 5) (slice w 0 5)⟩,
  ⟨0xFFE0FC00, 0x0800FC00, fun w => .stlxrb (slice w 16 5) (slice w 5 5) (slice w 0 5)⟩]

/-- Rows of the A64 table, part 7. -/
def rowsA64_g : List Row := [
  ⟨0xFFE0FC00, 0x48007C00, fun w => .stxrh (slice w 16 5) (slice w 5 5) (slice w 0 5)⟩,
  ⟨0xFFE0FC00, 0x4800FC00, fun w => .stlxrh (slice w 16 5) (slice w 5 5) (slice w 0 5)⟩,
  ⟨0xFFE0FC00, 0x88007C00, fun w => .stxrW (slice w 16 5) (slice w 5 5) (slice w 0 5)⟩,
  ⟨0xFFE0FC00, 0x8800FC00, fun w => .stlxrW (slice w 16 5) (slice w 5 5) (slice w 0 5)⟩,
  ⟨0xFFE0FC00, 0xC8007C00, fun w => .stxrX (slice w 16 5) (slice w 5 5) (slice w 0 5)⟩,
  ⟨0xFFE0FC00, 0xC800FC00, fun w => .stlxrX (slice w 16 5) (slice w 5 5) (slice w 0 5)⟩,
  ⟨0xFFE08000, 0x88200000, fun w => .stxpW (slice w 16 5) (slice w 10 5) (slice w 5 5) (slice w 0 5)⟩,
  ⟨0xFFE08000, 0x88208000, fun w => .stlxpW (slice w 16 5) (slice w 10 5) (slice w 5 5) (slice w 0 5)⟩,
  ⟨0xFFE08000, 0xC8200000, fun w => .stxpX (slice w 16 5) (slice w 10 5) (slice w 5 5) (slice w 0 5)⟩,
  ⟨0xFFE08000, 0xC8208000, fun w => .stlxpX (slice w 16 5) (slice w 10 5) (slice w 5 5) (slice w 0 5)⟩,
  ⟨0xFF800000, 0xD2800000, fun w => .movzX (slice w 21 2) (slice w 5 16) (slice w 0 5)⟩,
  ⟨0xFFC00000, 0x52800000, fun w => .movzW (slice w 21 1) (slice w 5 16) (slice w 0 5)⟩,
  ⟨0xFF800000, 0x91000000, fun w => .addX (slice w 22 1) (slice w 10 12) (slice w 5 5) (slice w 0 5)⟩,
  ⟨0xFF800000, 0xD1000000, fun w => .subX (slice w 22 1) (slice w 10 12) (slice w 5 5) (slice w 0 5)⟩,
  ⟨0xFF800000, 0xF1000000, fun w => .subsX (slice w 22 1) (slice w 10 12) (slice w 5 5) (slice w 0 5)⟩,
  ⟨0xFF800000, 0x11000000, fun w => .addW (slice w 22 1) (slice w 10 12) (slice w 5 5) (slice w 0 5)⟩,
  ⟨0xFF800000, 0x51000000, fun w => .subW (slice w 22 1) (slice w 10 12) (slice w 5 5) (slice w 0 5)⟩,
  ⟨0xFF800000, 0x71000000, fun w => .subsW (slice w 22 1) (slice w 10 12) (slice w 5 5) (slice w 0 5)⟩,
  ⟨0xFF200000, 0xAA000000, fun w => .orrX (slice w 22 2) (slice w 16 5) (slice w 10 6) (slice w 5 5) (slice w 0 5)⟩,
  ⟨0xFF000000, 0xB4000000, fun w => .cbzX (slice w 5 19) (slice w 0 5)⟩,
  ⟨0xFF000000, 0xB5000000, fun w => .cbnzX (slice w 5 19) (slice w 0 5)⟩]

/-- Rows of the A64 table, part 8. -/
def rowsA64_h : List Row := [
  ⟨0xFF000000, 0x34000000, fun w => .cbzW (slice w 5 19) (slice w 0 5)⟩,
  ⟨0xFF000000, 0x35000000, fun w => .cbnzW (slice w 5 19) (slice w 0 5)⟩,
  ⟨0xFF000010, 0x54000000, fun w => .bCond (slice w 5 19) (slice w 0 4)⟩,
  ⟨0xFC000000, 0x14000000, fun w => .b (slice w 0 26)⟩,
  ⟨0xFFC00000, 0xF9000000, fun w => .strX (slice w 10 12) (slice w 5 5) (slice w 0 5)⟩,
  ⟨0xFFC00000, 0xF9400000, fun w => .ldrX (slice w 10 12) (slice w 5 5) (slice w 0 5)⟩,
  ⟨0xFFE00C00, 0xF8400C00, fun w => .ldrXPre (slice w 12 9) (slice w 5 5) (slice w 0 5)⟩,
  ⟨0xFFFFFC00, 0x0420BC00, fun w => .movprfx (slice w 5 5) (slice w 0 5)⟩,
  ⟨0xFF3EE000, 0x04102000, fun w => .movprfxPred (slice w 22 2) (slice w 16 1) (slice w 10 3) (slice w 5 5) (slice w 0 5)⟩,
  ⟨0xFFE0FC00, 0x64A0E400, fun w => .fmmlaS (slice w 16 5) (slice w 5 5) (slice w 0 5)⟩,
  ⟨0xFFE0FC00, 0x64E0E400, fun w => .fmmlaD (slice w 16 5) (slice w 5 5) (slice w 0 5)⟩,
  ⟨0xFFE0FC00, 0x1E204800, fun w => .fmaxS (slice w 16 5) (slice w 5 5) (slice w 0 5)⟩,
  ⟨0xFFE0FC00, 0x1E604800, fun w => .fmaxD (slice w 16 5) (slice w 5 5) (slice w 0 5)⟩,
  ⟨0xFFE0FC00, 0x1E205800, fun w => .fminS (slice w 16 5) (slice w 5 5) (slice w 0 5)⟩,
  ⟨0xFFE0FC00, 0x1E605800, fun w => .fminD (slice w 16 5) (slice w 5 5) (slice w 0 5)⟩,
  ⟨0xFFE0FC00, 0x1E206800, fun w => .fmaxnmS (slice w 16 5) (slice w 5 5) (slice w 0 5)⟩,
  ⟨0xFFE0FC00, 0x1E606800, fun w => .fmaxnmD (slice w 16 5) (slice w 5 5) (slice w 0 5)⟩,
  ⟨0xFFE0FC00, 0x1E207800, fun w => .fminnmS (slice w 16 5) (slice w 5 5) (slice w 0 5)⟩,
  ⟨0xFFE0FC00, 0x1E607800, fun w => .fminnmD (slice w 16 5) (slice w 5 5) (slice w 0 5)⟩]

/-- The generic rows MRS, MSR, SYS and SYSL, after every named row. -/
def rowsA64_generic : List Row := [
  ⟨0xFFF00000, 0xD5300000, fun w => .mrs (slice w 19 1) (slice w 16 3) (slice w 12 4) (slice w 8 4) (slice w 5 3) (slice w 0 5)⟩,
  ⟨0xFFF00000, 0xD5100000, fun w => .msr (slice w 19 1) (slice w 16 3) (slice w 12 4) (slice w 8 4) (slice w 5 3) (slice w 0 5)⟩,
  ⟨0xFFF80000, 0xD5080000, fun w => .sys (slice w 16 3) (slice w 12 4) (slice w 8 4) (slice w 5 3) (slice w 0 5)⟩,
  ⟨0xFFF80000, 0xD5280000, fun w => .sysl (slice w 16 3) (slice w 12 4) (slice w 8 4) (slice w 5 3) (slice w 0 5)⟩]

/-- The A64 rows, the named ones first. -/
def rowsA64 : List Row :=
  rowsA64_a ++ rowsA64_b ++ rowsA64_c ++ rowsA64_d ++ rowsA64_e ++ rowsA64_f ++ rowsA64_g ++ rowsA64_h ++
    rowsA64_generic

/-- The A32 rows. -/
def rowsA32 : List Row := [
  ⟨0xFE870FD0, 0xF2800A10, fun w => .vmovlA32 (slice w 24 1) (slice w 22 1) (slice w 19 3) (slice w 12 4) (slice w 5 1) (slice w 0 4)⟩,
  ⟨0x0FFFFFFF, 0x0320F014, fun w => .csdbA32 (slice w 28 4)⟩,
  ⟨0xFFFFFFFF, 0xF57FF070, fun _ => .sbA32⟩,
  ⟨0x0FFF0FFF, 0x0E100E11, fun w => .mrcDbgdscrint (slice w 28 4) (slice w 12 4)⟩,
  ⟨0x0FFF0FFF, 0x0E070F14, fun w => .mcrPar (slice w 28 4) (slice w 12 4)⟩]

/-- The T32 rows. -/
def rowsT32 : List Row := [
  ⟨0xEF870FD0, 0xEF800A10, fun w => .vmovlT32 (slice w 28 1) (slice w 22 1) (slice w 19 3) (slice w 12 4) (slice w 5 1) (slice w 0 4)⟩,
  ⟨0xFFFFFFFF, 0xF3AF8014, fun _ => .csdbT32⟩,
  ⟨0xFFFFFFFF, 0xF3BF8F70, fun _ => .sbT32⟩]

/-- The rows of an instruction set (30_encoding.md R119: A32 and T32 rows are matched only in AArch32 state). -/
def rowsOf : ISA → List Row
  | .a64 => rowsA64
  | .a32 => rowsA32
  | .t32 => rowsT32

/-- The instruction of a word: the first row that matches, if what it reads is well formed. -/
def decodeWord (isa : ISA) (w : Half) : Option Instr :=
  match (rowsOf isa).find? (fun r => r.matches w) with
  | some r => if (r.build w).wf then some (r.build w) else none
  | none => none

/-- A 32-bit word from four bytes, the least significant first (30_encoding.md R120). -/
def wordOfBytes (b0 b1 b2 b3 : Byte) : Half := b3 ++ (b2 ++ (b1 ++ b0))

/-- A 32-bit T32 word: the first halfword, at the lower address, is bits [31:16] (30_encoding.md R119). -/
def wordOfHalves (b0 b1 b2 b3 : Byte) : Half := b1 ++ (b0 ++ (b3 ++ b2))

/-- A first halfword that begins a 32-bit T32 instruction (30_encoding.md R120). -/
def wideT32 (b1 : Byte) : Bool := b1.extractLsb' 3 5 == 0b11101#5 || b1.extractLsb' 3 5 == 0b11110#5 || b1.extractLsb' 3 5 == 0b11111#5

/-- The decoder: the instruction at the front of the bytes and the bytes after it, or the name of the refusal. -/
def decode (isa : ISA) : List Byte → Except DecodeRefusal (Instr × List Byte)
  | b0 :: b1 :: b2 :: b3 :: rest =>
    match isa with
    | .t32 =>
      if wideT32 b1 then
        match decodeWord .t32 (wordOfHalves b0 b1 b2 b3) with
        | some i => .ok (i, rest)
        | none => .error .notInTable
      else .error .narrowT32
    | isa =>
      match decodeWord isa (wordOfBytes b0 b1 b2 b3) with
      | some i => .ok (i, rest)
      | none => .error (if isa = .a64 ∧ slice (wordOfBytes b0 b1 b2 b3) 16 16 = 0 then .udf else .notInTable)
  | _ :: b1 :: _ => .error (if isa = .t32 ∧ ¬wideT32 b1 then .narrowT32 else .truncated)
  | _ => .error .truncated

/-- The word of an instruction, from the same rows. -/
def encodeWord : Instr → Half
  | .nop => 0xD503201F
  | .wfe => 0xD503205F
  | .wfi => 0xD503207F
  | .pacia1716 => 0xD503211F
  | .pacib1716 => 0xD503215F
  | .autia1716 => 0xD503219F
  | .autib1716 => 0xD50321DF
  | .csdb => 0xD503229F
  | .paciaz => 0xD503231F
  | .paciasp => 0xD503233F
  | .pacibz => 0xD503235F
  | .pacibsp => 0xD503237F
  | .autiaz => 0xD503239F
  | .autiasp => 0xD50323BF
  | .autibz => 0xD50323DF
  | .autibsp => 0xD50323FF
  | .bti => 0xD503241F
  | .btiC => 0xD503245F
  | .btiJ => 0xD503249F
  | .btiJC => 0xD50324DF
  | .wfet rd => 0xD5031000 ||| place rd 0
  | .wfit rd => 0xD5031020 ||| place rd 0
  | .sb => 0xD50330FF
  | .isb => 0xD5033FDF
  | .dsb crm => 0xD503309F ||| place crm 8
  | .dmb crm => 0xD50330BF ||| place crm 8
  | .dsbNXS imm2 => 0xD503323F ||| place imm2 10
  | .clrex crm => 0xD503305F ||| place crm 8
  | .msrDaifSetImm crm => 0xD50340DF ||| place crm 8
  | .msrDaifClrImm crm => 0xD50340FF ||| place crm 8
  | .msrSsbsImm crm => 0xD503403F ||| place crm 8
  | .msrDitImm crm => 0xD503405F ||| place crm 8
  | .msrTcoImm crm => 0xD503409F ||| place crm 8
  | .msrSpselImm crm => 0xD50040BF ||| place crm 8
  | .mrs o0 op1 crn crm op2 rt => 0xD5300000 ||| place o0 19 ||| place op1 16 ||| place crn 12 ||| place crm 8 ||| place op2 5 ||| place rt 0
  | .msr o0 op1 crn crm op2 rt => 0xD5100000 ||| place o0 19 ||| place op1 16 ||| place crn 12 ||| place crm 8 ||| place op2 5 ||| place rt 0
  | .sys op1 crn crm op2 rt => 0xD5080000 ||| place op1 16 ||| place crn 12 ||| place crm 8 ||| place op2 5 ||| place rt 0
  | .sysl op1 crn crm op2 rt => 0xD5280000 ||| place op1 16 ||| place crn 12 ||| place crm 8 ||| place op2 5 ||| place rt 0
  | .dcZva rt => 0xD50B7420 ||| place rt 0
  | .dcGva rt => 0xD50B7460 ||| place rt 0
  | .dcGzva rt => 0xD50B7480 ||| place rt 0
  | .dcCivac rt => 0xD50B7E20 ||| place rt 0
  | .dcCigvac rt => 0xD50B7E60 ||| place rt 0
  | .dcCigdvac rt => 0xD50B7EA0 ||| place rt 0
  | .icIvau rt => 0xD50B7520 ||| place rt 0
  | .dcCipae rt => 0xD50C7E00 ||| place rt 0
  | .dcCigdpae rt => 0xD50C7EE0 ||| place rt 0
  | .tlbiAlle1 => 0xD50C879F
  | .tlbiAlle1nxs => 0xD50C979F
  | .tlbiRvae1 rt => 0xD5088620 ||| place rt 0
  | .tlbiRvaae1 rt => 0xD5088660 ||| place rt 0
  | .tlbiRipas2e1 rt => 0xD50C8440 ||| place rt 0
  | .tlbiRpaos rt => 0xD50E8460 ||| place rt 0
  | .cfpRctx rt => 0xD50B7380 ||| place rt 0
  | .dvpRctx rt => 0xD50B73A0 ||| place rt 0
  | .cppRctx rt => 0xD50B73E0 ||| place rt 0
  | .atS1e1r rt => 0xD5087800 ||| place rt 0
  | .mrsRndr rt => 0xD53B2400 ||| place rt 0
  | .mrsRndrrs rt => 0xD53B2420 ||| place rt 0
  | .mrsCntpctEl0 rt => 0xD53BE020 ||| place rt 0
  | .mrsCntvctEl0 rt => 0xD53BE040 ||| place rt 0
  | .mrsCntpctssEl0 rt => 0xD53BE0A0 ||| place rt 0
  | .mrsCntvctssEl0 rt => 0xD53BE0C0 ||| place rt 0
  | .mrsIdAa64smfr0El1 rt => 0xD53804A0 ||| place rt 0
  | .mrsCcsidrEl1 rt => 0xD5390000 ||| place rt 0
  | .mrsIsrEl1 rt => 0xD538C100 ||| place rt 0
  | .mrsNzcv rt => 0xD53B4200 ||| place rt 0
  | .msrNzcv rt => 0xD51B4200 ||| place rt 0
  | .mrsDaif rt => 0xD53B4220 ||| place rt 0
  | .msrDaif rt => 0xD51B4220 ||| place rt 0
  | .mrsDit rt => 0xD53B42A0 ||| place rt 0
  | .msrDit rt => 0xD51B42A0 ||| place rt 0
  | .mrsRmrEl1 rt => 0xD538C040 ||| place rt 0
  | .msrRmrEl1 rt => 0xD518C040 ||| place rt 0
  | .mrsRmrEl2 rt => 0xD53CC040 ||| place rt 0
  | .msrRmrEl2 rt => 0xD51CC040 ||| place rt 0
  | .mrsRmrEl3 rt => 0xD53EC040 ||| place rt 0
  | .msrRmrEl3 rt => 0xD51EC040 ||| place rt 0
  | .pacga rm rn rd => 0x9AC03000 ||| place rm 16 ||| place rn 5 ||| place rd 0
  | .pacia rn rd => 0xDAC10000 ||| place rn 5 ||| place rd 0
  | .pacib rn rd => 0xDAC10400 ||| place rn 5 ||| place rd 0
  | .pacda rn rd => 0xDAC10800 ||| place rn 5 ||| place rd 0
  | .pacdb rn rd => 0xDAC10C00 ||| place rn 5 ||| place rd 0
  | .autia rn rd => 0xDAC11000 ||| place rn 5 ||| place rd 0
  | .autib rn rd => 0xDAC11400 ||| place rn 5 ||| place rd 0
  | .autda rn rd => 0xDAC11800 ||| place rn 5 ||| place rd 0
  | .autdb rn rd => 0xDAC11C00 ||| place rn 5 ||| place rd 0
  | .paciza rd => 0xDAC123E0 ||| place rd 0
  | .pacizb rd => 0xDAC127E0 ||| place rd 0
  | .pacdza rd => 0xDAC12BE0 ||| place rd 0
  | .pacdzb rd => 0xDAC12FE0 ||| place rd 0
  | .autiza rd => 0xDAC133E0 ||| place rd 0
  | .autizb rd => 0xDAC137E0 ||| place rd 0
  | .autdza rd => 0xDAC13BE0 ||| place rd 0
  | .autdzb rd => 0xDAC13FE0 ||| place rd 0
  | .ret rn => 0xD65F0000 ||| place rn 5
  | .retaa => 0xD65F0BFF
  | .retab => 0xD65F0FFF
  | .braaz rn => 0xD61F081F ||| place rn 5
  | .brabz rn => 0xD61F0C1F ||| place rn 5
  | .blraaz rn => 0xD63F081F ||| place rn 5
  | .blrabz rn => 0xD63F0C1F ||| place rn 5
  | .braa rn rm => 0xD71F0800 ||| place rn 5 ||| place rm 0
  | .brab rn rm => 0xD71F0C00 ||| place rn 5 ||| place rm 0
  | .blraa rn rm => 0xD73F0800 ||| place rn 5 ||| place rm 0
  | .blrab rn rm => 0xD73F0C00 ||| place rn 5 ||| place rm 0
  | .eret => 0xD69F03E0
  | .eretaa => 0xD69F0BFF
  | .eretab => 0xD69F0FFF
  | .drps => 0xD6BF03E0
  | .ldra m sbit imm9 w rn rt => 0xF8200400 ||| place m 23 ||| place sbit 22 ||| place imm9 12 ||| place w 11 ||| place rn 5 ||| place rt 0
  | .svc imm16 => 0xD4000001 ||| place imm16 5
  | .hvc imm16 => 0xD4000002 ||| place imm16 5
  | .smc imm16 => 0xD4000003 ||| place imm16 5
  | .brk imm16 => 0xD4200000 ||| place imm16 5
  | .hlt imm16 => 0xD4400000 ||| place imm16 5
  | .stgOffset imm9 rn rt => 0xD9200800 ||| place imm9 12 ||| place rn 5 ||| place rt 0
  | .stgPost imm9 rn rt => 0xD9200400 ||| place imm9 12 ||| place rn 5 ||| place rt 0
  | .stgPre imm9 rn rt => 0xD9200C00 ||| place imm9 12 ||| place rn 5 ||| place rt 0
  | .stzgm rn rt => 0xD9200000 ||| place rn 5 ||| place rt 0
  | .stgm rn rt => 0xD9A00000 ||| place rn 5 ||| place rt 0
  | .ldgm rn rt => 0xD9E00000 ||| place rn 5 ||| place rt 0
  | .ld64b rn rt => 0xF83FD000 ||| place rn 5 ||| place rt 0
  | .st64b rn rt => 0xF83F9000 ||| place rn 5 ||| place rt 0
  | .st64bv rs rn rt => 0xF820B000 ||| place rs 16 ||| place rn 5 ||| place rt 0
  | .st64bv0 rs rn rt => 0xF820A000 ||| place rs 16 ||| place rn 5 ||| place rt 0
  | .ldxr rn rt => 0xC85F7C00 ||| place rn 5 ||| place rt 0
  | .ldaxr rn rt => 0xC85FFC00 ||| place rn 5 ||| place rt 0
  | .stxrb rs rn rt => 0x08007C00 ||| place rs 16 ||| place rn 5 ||| place rt 0
  | .stlxrb rs rn rt => 0x0800FC00 ||| place rs 16 ||| place rn 5 ||| place rt 0
  | .stxrh rs rn rt => 0x48007C00 ||| place rs 16 ||| place rn 5 ||| place rt 0
  | .stlxrh rs rn rt => 0x4800FC00 ||| place rs 16 ||| place rn 5 ||| place rt 0
  | .stxrW rs rn rt => 0x88007C00 ||| place rs 16 ||| place rn 5 ||| place rt 0
  | .stlxrW rs rn rt => 0x8800FC00 ||| place rs 16 ||| place rn 5 ||| place rt 0
  | .stxrX rs rn rt => 0xC8007C00 ||| place rs 16 ||| place rn 5 ||| place rt 0
  | .stlxrX rs rn rt => 0xC800FC00 ||| place rs 16 ||| place rn 5 ||| place rt 0
  | .stxpW rs rt2 rn rt => 0x88200000 ||| place rs 16 ||| place rt2 10 ||| place rn 5 ||| place rt 0
  | .stlxpW rs rt2 rn rt => 0x88208000 ||| place rs 16 ||| place rt2 10 ||| place rn 5 ||| place rt 0
  | .stxpX rs rt2 rn rt => 0xC8200000 ||| place rs 16 ||| place rt2 10 ||| place rn 5 ||| place rt 0
  | .stlxpX rs rt2 rn rt => 0xC8208000 ||| place rs 16 ||| place rt2 10 ||| place rn 5 ||| place rt 0
  | .movzX hw imm16 rd => 0xD2800000 ||| place hw 21 ||| place imm16 5 ||| place rd 0
  | .movzW hw imm16 rd => 0x52800000 ||| place hw 21 ||| place imm16 5 ||| place rd 0
  | .addX sh imm12 rn rd => 0x91000000 ||| place sh 22 ||| place imm12 10 ||| place rn 5 ||| place rd 0
  | .subX sh imm12 rn rd => 0xD1000000 ||| place sh 22 ||| place imm12 10 ||| place rn 5 ||| place rd 0
  | .subsX sh imm12 rn rd => 0xF1000000 ||| place sh 22 ||| place imm12 10 ||| place rn 5 ||| place rd 0
  | .addW sh imm12 rn rd => 0x11000000 ||| place sh 22 ||| place imm12 10 ||| place rn 5 ||| place rd 0
  | .subW sh imm12 rn rd => 0x51000000 ||| place sh 22 ||| place imm12 10 ||| place rn 5 ||| place rd 0
  | .subsW sh imm12 rn rd => 0x71000000 ||| place sh 22 ||| place imm12 10 ||| place rn 5 ||| place rd 0
  | .orrX shift rm imm6 rn rd => 0xAA000000 ||| place shift 22 ||| place rm 16 ||| place imm6 10 ||| place rn 5 ||| place rd 0
  | .cbzX imm19 rt => 0xB4000000 ||| place imm19 5 ||| place rt 0
  | .cbnzX imm19 rt => 0xB5000000 ||| place imm19 5 ||| place rt 0
  | .cbzW imm19 rt => 0x34000000 ||| place imm19 5 ||| place rt 0
  | .cbnzW imm19 rt => 0x35000000 ||| place imm19 5 ||| place rt 0
  | .bCond imm19 cond => 0x54000000 ||| place imm19 5 ||| place cond 0
  | .b imm26 => 0x14000000 ||| place imm26 0
  | .strX imm12 rn rt => 0xF9000000 ||| place imm12 10 ||| place rn 5 ||| place rt 0
  | .ldrX imm12 rn rt => 0xF9400000 ||| place imm12 10 ||| place rn 5 ||| place rt 0
  | .ldrXPre imm9 rn rt => 0xF8400C00 ||| place imm9 12 ||| place rn 5 ||| place rt 0
  | .movprfx zn zd => 0x0420BC00 ||| place zn 5 ||| place zd 0
  | .movprfxPred size m pg zn zd => 0x04102000 ||| place size 22 ||| place m 16 ||| place pg 10 ||| place zn 5 ||| place zd 0
  | .fmmlaS zm zn zda => 0x64A0E400 ||| place zm 16 ||| place zn 5 ||| place zda 0
  | .fmmlaD zm zn zda => 0x64E0E400 ||| place zm 16 ||| place zn 5 ||| place zda 0
  | .fmaxS rm rn rd => 0x1E204800 ||| place rm 16 ||| place rn 5 ||| place rd 0
  | .fmaxD rm rn rd => 0x1E604800 ||| place rm 16 ||| place rn 5 ||| place rd 0
  | .fminS rm rn rd => 0x1E205800 ||| place rm 16 ||| place rn 5 ||| place rd 0
  | .fminD rm rn rd => 0x1E605800 ||| place rm 16 ||| place rn 5 ||| place rd 0
  | .fmaxnmS rm rn rd => 0x1E206800 ||| place rm 16 ||| place rn 5 ||| place rd 0
  | .fmaxnmD rm rn rd => 0x1E606800 ||| place rm 16 ||| place rn 5 ||| place rd 0
  | .fminnmS rm rn rd => 0x1E207800 ||| place rm 16 ||| place rn 5 ||| place rd 0
  | .fminnmD rm rn rd => 0x1E607800 ||| place rm 16 ||| place rn 5 ||| place rd 0
  | .vmovlA32 u d imm3H vd m vm => 0xF2800A10 ||| place u 24 ||| place d 22 ||| place imm3H 19 ||| place vd 12 ||| place m 5 ||| place vm 0
  | .vmovlT32 u d imm3H vd m vm => 0xEF800A10 ||| place u 28 ||| place d 22 ||| place imm3H 19 ||| place vd 12 ||| place m 5 ||| place vm 0
  | .csdbA32 cond => 0x0320F014 ||| place cond 28
  | .csdbT32 => 0xF3AF8014
  | .sbA32 => 0xF57FF070
  | .sbT32 => 0xF3BF8F70
  | .mrcDbgdscrint cond rt => 0x0E100E11 ||| place cond 28 ||| place rt 12
  | .mcrPar cond rt => 0x0E070F14 ||| place cond 28 ||| place rt 12

/-- The bytes of a word as the hardware stores it: least significant byte first, a T32 word halfword by halfword. -/
def layoutWord (isa : ISA) (w : Half) : List Byte :=
  match isa with
  | .t32 => [slice w 16 8, slice w 24 8, slice w 0 8, slice w 8 8]
  | _ => [slice w 0 8, slice w 8 8, slice w 16 8, slice w 24 8]

/-- The bytes of an instruction. -/
def encode (i : Instr) : List Byte := layoutWord i.isa (encodeWord i)

/-- The instruction set of a word of the table: the one that has a row for it (the rows of the three sets share no
word; 30_encoding.md R119). -/
def tableIsa (w : Half) : ISA :=
  if (decodeWord .a64 w).isSome then .a64 else if (decodeWord .a32 w).isSome then .a32 else
  if (decodeWord .t32 w).isSome then .t32 else .a64

/-- The instruction the decoder reads from a word numbered as spec/opcode_table.json numbers it. -/
def decodeTableWord (nbits w : Nat) : Option Instr :=
  let v : Half := BitVec.ofNat 32 (w % 2 ^ nbits)
  match decode (tableIsa v) (layoutWord (tableIsa v) v) with
  | .ok (i, _) => some i
  | .error _ => none

/-! ### Instructions with a rule and no row

The classes that 30_encoding.md R119 lists: the spec gives them an effect and no bit pattern, so their decode is a
parameter. -/

/-- FMAX, FMIN, FMAXNM, FMINNM (43_fp_sve_sme.md R177 to R180). -/
inductive FpOp where
  | max | min | maxnm | minnm
  deriving DecidableEq, Repr

/-- Predicated SVE loads: regular, First-fault, Non-fault (43_fp_sve_sme.md R172, R175). -/
inductive SveLoadKind where
  | regular | firstFault | nonFault
  deriving DecidableEq, Repr

/-- How the elements of a vector of offsets give addresses: all 64 bits, or 32 bits extended. -/
inductive VecExtend where
  | all | uxtw | sxtw
  deriving DecidableEq, Repr

/-- The offset of a predicated SVE access: a multiple of the access's size, or a scaled register; in the gather and scatter forms a
vector of offsets, scaled by the size of an element in memory or not, or a vector base with an immediate. -/
inductive SveOffset where
  | imm (n : BitVec 4)
  | reg (rm : BitVec 5)
  | vec (zm : BitVec 5) (extend : VecExtend) (scaled : Bool)
  | vecImm (imm5 : BitVec 5)
  deriving DecidableEq, Repr

/-- TRN1, TRN2, UZP1, UZP2, ZIP1, ZIP2 on 128-bit elements (43_fp_sve_sme.md R174). -/
inductive PermuteOp where
  | trn1 | trn2 | uzp1 | uzp2 | zip1 | zip2
  deriving DecidableEq, Repr

/-- The atomic memory operations: CAS, SWP and LD<op> (30_encoding.md R119). -/
inductive AtomicOp where
  | cas | swp | add | clr | eor | set | smax | smin | umax | umin
  deriving DecidableEq, Repr

/-- The prediction restriction instructions (41_system_instructions.md R143). -/
inductive RctxKind where
  | cfp | cpp | dvp
  deriving DecidableEq, Repr

/-- The AArch32 System registers that MRC and MCR, VMRS and VMSR reach and that no other class is about (10_state.md R21). -/
inductive A32Name where
  | mpidr | idMmfr5 | ctr | cntkctl | fpexc | cpacr | nsacr | hcr | hcptr | hstr | scr | sdcr
  | ttbr0 | ttbr1 | contextidr | pmccntr
  deriving DecidableEq, Repr

/-- One constructor for each class. Element sizes are B, H, S, D by number; `q` says that a vector has 128 bits. -/
inductive ExtraInstr where
  /-- LD1*, LDFF1*, LDNF1*: elements of `msize` in memory, extended to `esize`. -/
  | sveLoad (kind : SveLoadKind) (msize esize : BitVec 2) (signed : Bool) (off : SveOffset) (pg : BitVec 3)
      (rn zt : BitVec 5)
  /-- ST1*. -/
  | sveStore (msize esize : BitVec 2) (off : SveOffset) (pg : BitVec 3) (rn zt : BitVec 5)
  /-- LD1ROB, LD1ROH, LD1ROW, LD1ROD. -/
  | ld1ro (esize : BitVec 2) (off : SveOffset) (pg : BitVec 3) (rn zt : BitVec 5)
  | permuteQ (op : PermuteOp) (zm zn zd : BitVec 5)
  /-- SVE FMAX, FMIN, FMAXNM, FMINNM (vectors). -/
  | svePred (op : FpOp) (size : BitVec 2) (pg : BitVec 3) (zm zdn : BitVec 5)
  /-- The same with an immediate, 1.0 or 0.0. -/
  | sveImm (op : FpOp) (size : BitVec 2) (pg : BitVec 3) (one : Bool) (zdn : BitVec 5)
  /-- SVE2 FMAXP, FMINP, FMAXNMP, FMINNMP. -/
  | svePair (op : FpOp) (size : BitVec 2) (pg : BitVec 3) (zm zdn : BitVec 5)
  /-- Any SME instruction. -/
  | sme
  /-- Scalar, half-precision. -/
  | scalarH (op : FpOp) (rm rn rd : BitVec 5)
  | vector (op : FpOp) (size : BitVec 2) (q : Bool) (rm rn rd : BitVec 5)
  | pairVector (op : FpOp) (size : BitVec 2) (q : Bool) (rm rn rd : BitVec 5)
  | pairScalar (op : FpOp) (size : BitVec 2) (rn rd : BitVec 5)
  | across (op : FpOp) (size : BitVec 2) (q : Bool) (rn rd : BitVec 5)
  /-- FABS and FNEG, scalar, and vector if `q` is given. -/
  | fsign (neg : Bool) (size : BitVec 2) (q : Option Bool) (rn rd : BitVec 5)
  /-- FCVTAS and FCVTAU (scalar) to an X or a W register, and FRINTA. -/
  | fcvta (unsigned : Bool) (size : BitVec 2) (x : Bool) (rn rd : BitVec 5)
  | frinta (size : BitVec 2) (rn rd : BitVec 5)
  | orrW (shift : BitVec 2) (rm : BitVec 5) (imm5 : BitVec 5) (rn rd : BitVec 5)
  | atomic (op : AtomicOp) (size : BitVec 2) (acquire release : Bool) (rs rn rt : BitVec 5)
  | prfm
  | ldg (imm9 : BitVec 9) (rn rt : BitVec 5)
  /-- CFPRCTX, CPPRCTX, DVPRCTX. -/
  | rctxA32 (kind : RctxKind) (cond rt : BitVec 4)
  /-- MCRR of TTBR0 or TTBR1 (61_debug_pmu_trace.md R267). -/
  | mcrrTtbr (one : Bool) (cond rt rt2 : BitVec 4)
  /-- A read of the 64-bit CNTVCT (60_exceptions.md R206). -/
  | mrrcCntvct (cond rt rt2 : BitVec 4)
  /-- A read and a write of the 64-bit CNTVOFF (60_exceptions.md R247). -/
  | mrrcCntvoff (cond rt rt2 : BitVec 4)
  | mcrrCntvoff (cond rt rt2 : BitVec 4)
  | mrcIsr (cond rt : BitVec 4)
  | mrcPmcr (cond rt : BitVec 4)
  | mcrPmcr (cond rt : BitVec 4)
  /-- A read and a write of another register: of TTBR0, TTBR1 and PMCCNTR a write is one of bits [31:0] (44_aarch32.md R186). -/
  | mrcNamed (r : A32Name) (cond rt : BitVec 4)
  | mcrNamed (r : A32Name) (cond rt : BitVec 4)
  /-- VCVTB and VCVTT from single precision to BF16, `top` half of Sd. -/
  | vcvtBf16 (top : Bool) (cond : BitVec 4) (sm sd : BitVec 5)
  /-- VCVT from single precision to BF16, Advanced SIMD: the four elements of Qm to Dd. -/
  | vcvtBf16Vec (dm dd : BitVec 5)
  /-- WFE and WFI, A32 and T32; `narrow` says that it is a 16-bit T32 instruction. -/
  | wfeA32 (narrow : Bool) (cond : BitVec 4)
  | wfiA32 (narrow : Bool) (cond : BitVec 4)
  /-- ERET, A32 and T32. -/
  | eretA32 (cond : BitVec 4)
  deriving DecidableEq, Repr

/-- The decode of the words that no row gives (30_encoding.md R119: a model takes it as a parameter). -/
opaque Config.decodeExtra : ISA → List Byte → Option ExtraInstr

/-- The class is one of AArch32 state: of the A32 and T32 instructions. -/
def ExtraInstr.isA32 : ExtraInstr → Bool
  | .rctxA32 _ _ _ => true
  | .mcrrTtbr _ _ _ _ => true
  | .mrrcCntvct _ _ _ => true
  | .mrrcCntvoff _ _ _ => true
  | .mcrrCntvoff _ _ _ => true
  | .mrcIsr _ _ => true
  | .mrcPmcr _ _ => true
  | .mcrPmcr _ _ => true
  | .mrcNamed _ _ _ => true
  | .mcrNamed _ _ _ => true
  | .vcvtBf16 _ _ _ _ => true
  | .vcvtBf16Vec _ _ => true
  | .wfeA32 _ _ => true
  | .wfiA32 _ _ => true
  | .eretA32 _ => true
  | _ => false

/-- How many bytes an instruction of the class has: 4, but for the 16-bit forms of T32 (30_encoding.md R120). -/
def ExtraInstr.size : ExtraInstr → Nat
  | .wfeA32 true _ => 2
  | .wfiA32 true _ => 2
  | _ => 4

/-- The instruction without a row that some bytes are, if any: of the instruction set and of the length they have. -/
def decodeRowless (isa : ISA) (bs : List Byte) : Option ExtraInstr :=
  (Config.decodeExtra isa bs).filter fun e =>
    (e.isA32 == decide (isa ≠ .a64)) && bs.length == e.size && (e.size == 4 || isa == .t32)

/-- What the decoder gives: an instruction of the opcode table, or one of the classes without a row. -/
inductive Code where
  | base (i : Instr)
  | extra (e : ExtraInstr)
  deriving DecidableEq, Repr

/-- An encoding is not allocated (30_encoding.md R122, 93_implementation_defined.md U51). -/
opaque Config.unallocated : ISA → List Byte → Bool

end Sys2Proof
end

