-- ==== Sys2Proof/Machine/Bits.lean ====
section
/-! DEFINITION. Bit fields, byte order and sparse storage: the plain helpers of the machine (00_scope.md R10, R11). -/

namespace Sys2Proof.Machine

/-- Bit `n` of a value as a Boolean. -/
def bitAt {w : Nat} (v : BitVec w) (n : Nat) : Bool := v.getLsbD n

/-- The value with bit `n` made `b`. -/
def setBit {w : Nat} (v : BitVec w) (n : Nat) (b : Bool) : BitVec w :=
  if b then v ||| (1#w <<< n) else v &&& ~~~(1#w <<< n)

/-- A Boolean as a 64-bit number at bit `n`. -/
def bitTo (n : Nat) (b : Bool) : Word := if b then 1#64 <<< n else 0

/-- `v[lo + len - 1 : lo]`. -/
def field {w : Nat} (v : BitVec w) (lo len : Nat) : BitVec len := v.extractLsb' lo len

/-- A field put at bit `lo` of a 64-bit value. -/
def fieldTo {n : Nat} (lo : Nat) (f : BitVec n) : Word := f.setWidth 64 <<< lo

/-- The bits `lo` to `hi - 1`. -/
def maskOf (w lo hi : Nat) : BitVec w := (BitVec.allOnes w <<< lo) &&& ~~~(BitVec.allOnes w <<< hi)

/-- `old` with the bits `lo` to `hi - 1` taken from `new`. -/
def copyBits {w : Nat} (old new : BitVec w) (lo hi : Nat) : BitVec w :=
  (old &&& ~~~(maskOf w lo hi)) ||| (new &&& maskOf w lo hi)

/-- `old` with bits [31:0] replaced (44_aarch32.md R185). -/
def withLow32 (old : Word) (v : Half) : Word := copyBits old (v.setWidth 64) 0 32

/-- A value as `n` bytes, least significant first. -/
def bytesOf {w : Nat} (n : Nat) (v : BitVec w) : List Byte :=
  (List.range n).map fun k => v.extractLsb' (8 * k) 8

/-- The value of bytes, the least significant first. -/
def ofBytes (w : Nat) : List Byte → BitVec w
  | [] => 0
  | b :: bs => b.setWidth w ||| (ofBytes w bs <<< 8)

/-- Bytes in the order memory holds them (20_memory.md R60). -/
def byteOrder (big : Bool) (bs : List Byte) : List Byte := if big then bs.reverse else bs

/-- What a sparse store holds at a key: an unlisted key holds `d`. -/
def sparseGet {α : Type} (d : α) : List (Nat × α) → Nat → α
  | [], _ => d
  | (k, v) :: rest, a => if a = k then v else if a < k then d else sparseGet d rest a

/-- Write a key, keeping the canonical form: keys strictly rising, no entry equal to `d`. -/
def sparseSet {α : Type} [DecidableEq α] (d : α) : List (Nat × α) → Nat → α → List (Nat × α)
  | [], a, v => if v = d then [] else [(a, v)]
  | (k, u) :: rest, a, v =>
    if a = k then (if v = d then rest else (a, v) :: rest)
    else if a < k then (if v = d then (k, u) :: rest else (a, v) :: (k, u) :: rest)
    else (k, u) :: sparseSet d rest a v

/-- The canonical form: every key above `lo`, keys strictly rising, no entry equal to `d`. -/
def sparseWfFrom {α : Type} [DecidableEq α] (d : α) : Option Nat → List (Nat × α) → Bool
  | _, [] => true
  | lo, (k, v) :: rest =>
    (match lo with | none => true | some l => decide (l < k)) && decide (v ≠ d) && sparseWfFrom d (some k) rest

/-- The canonical form of a sparse store. -/
def sparseWf {α : Type} [DecidableEq α] (d : α) (l : List (Nat × α)) : Bool := sparseWfFrom d none l

end Sys2Proof.Machine
end

