-- ==== Sys2Proof/Config.lean ====
section
/-! DEFINITION. The implementation parameters (00_scope.md R9), the names of the features and System registers, and
the free values: constants with no body, so that nothing can be proved of a particular value. -/

namespace Sys2Proof

/-- `FEAT_x`, one Boolean parameter each (00_scope.md R2, R9). -/
inductive Feature where
  | AES | AMU_EXT32 | AMU_EXT64 | AMUv1 | BBM | CONSTPACFIELD | CSV2 | CSV2_1p1 | CSV2_2 | CSV2_3 | Debugv8p2
  | DoPD | ECV | EDHSR | ETEv1p1 | ETS2 | ExS | F64MM | FGT | FPAC | FPACCOMBINE | IDST | LPA | LVA | MEC
  | MOPS | MTE | MTE2 | MTPMU | NMI | NV | NV2 | PAN3 | PAuth | PAuth_LR | PCSRv8 | PCSRv8p2 | PMULL | PMUv3
  | PMUv3_EXT | PMUv3p5 | PMUv3p7 | RAS | RASv1p1 | RME | RNG | RNG_TRAP | S2FWB | SHA3 | SME | SME2 | SPE
  | SPEv1p1 | SPEv1p2 | SPEv1p3 | SVE | SVE2 | SVE_AES | SVE_PMULL128 | SVE_SHA3 | VHE | WFxT | IESB
  | DoubleFault
  deriving DecidableEq, Repr

/-- Exception levels (60_exceptions.md R196). -/
inductive EL where
  | el0 | el1 | el2 | el3
  deriving DecidableEq, Repr

/-- Security states, and the physical address spaces of the same names (60_exceptions.md R196, 20_memory.md R58). -/
inductive Space where
  | secure | nonSecure | root | realm
  deriving DecidableEq, Repr, Inhabited

/-- Memory types (20_memory.md R79, 42_loadstore_mte_atomics.md R155). -/
inductive MemType where
  /-- Normal, Write-back, Non-transient, Read-Allocate, Write-Allocate, inner and outer. -/
  | normalWB
  /-- Normal, Write-back with another allocation hint, inner and outer. -/
  | normalWBOther
  /-- Normal, any other cacheability but Non-cacheable: Write-through, or mixed inner and outer. -/
  | normalOther
  /-- Normal, Inner Non-cacheable, Outer Non-cacheable. -/
  | normalNC
  | deviceGRE | devicenGRE | devicenGnRE | devicenGnRnE
  deriving DecidableEq, Repr, Inhabited

/-- The tag attribute of a location (20_memory.md R79, R91). -/
inductive TagAttr where
  | untagged | allocationTagged | canonicallyTagged
  deriving DecidableEq, Repr, Inhabited

/-- The cache allocation hint of a cacheable location (10_state.md R25). -/
structure Alloc where
  read : Bool
  write : Bool
  transient : Bool
  deriving DecidableEq, Repr, Inhabited

/-- The register frames of the memory map (20_memory.md R58, R63; 60_exceptions.md R236 to R238). -/
inductive RegFrame where
  | debug | ete | pmu | amu | cntControl | cntRead | cntCtl
  | cntBase (n : Fin 8) | cntEl0Base (n : Fin 8)
  deriving DecidableEq, Repr

/-- The registers of timer frame N, CNTBaseN and its EL0 view CNTEL0BaseN (60_exceptions.md R238). -/
inductive CntReg where
  | cntel0acr | cntfrq | pCtl | pCval | pTval | pct | vCtl | vCval | vTval | vct | voff
  | counterId (n : Fin 12)
  deriving DecidableEq, Repr

/-- The registers an external agent reaches (61_debug_pmu_trace.md R255, 44_aarch32.md R184). -/
inductive ExtReg where
  | eddfr | eddfr1 | edpfr | edaa32pfr | edwar | edscr | edprsr | edacr | eddevid1 | edhsr | amdevarch | pmcr | dscrint
  | trcidr0 | trcconfigr | trcacvr (n : Fin 16)
  /-- ERR<n>FR and ERR<n>STATUS of an error record (61_debug_pmu_trace.md R261, R282). -/
  | errfr (n : Nat) | errstatus (n : Nat)
  /-- The PMU registers that share their value with a System register. -/
  | pmevcntr (n : Fin 31) | pmevtyper (n : Fin 31) | pmccntr | pmcntenset | pmcntenclr | pmovsset | pmovsclr
  /-- An unimplemented or Reserved location of the trace unit, by its offset (61_debug_pmu_trace.md R322). -/
  | traceReserved (offset : Nat)
  deriving DecidableEq, Repr

/-- A register of a register frame. -/
inductive FrameReg where
  /-- CNTControlBase (60_exceptions.md R236). -/
  | cntcr | cntsr | cntid | cntscr | cntcv
  /-- CNTFID0 and CNTFID<n>, n = 1 to 1003. -/
  | cntfid (n : Fin 1004)
  | controlId (n : Fin 12)
  /-- CNTCTLBase (60_exceptions.md R237, R238). -/
  | cntnsar | cnttidr | ctlFrq
  | cntacr (n : Fin 8)
  | cntvoff (n : Fin 8)
  /-- CNTBaseN and CNTEL0BaseN. -/
  | timer (n : Fin 8) (r : CntReg)
  /-- The debug, PMU, activity monitor and trace frames. -/
  | ext (r : ExtReg)
  deriving DecidableEq, Repr

/-- An access in a case that the table of 61_debug_pmu_trace.md R298 does not fix (93_implementation_defined.md U36). -/
inductive ImpDefAccess where
  | error | readOnly | readWrite
  deriving DecidableEq, Repr

/-- One region of the parameter MemoryMap (92_eei_decisions.md D16): the addresses `base` to `base + size - 1` of
every physical address space; a Device region says of what type, whether it supports unaligned accesses
(20_memory.md R110), and which register frame it is, if any. -/
structure Region where
  base : Nat
  size : Nat
  type : MemType
  unaligned : Bool
  frame : Option RegFrame
  deriving DecidableEq, Repr

/-- The System registers that hold a value of their own (10_state.md R21). -/
inductive SysReg where
  | SCTLR_EL1 | SCTLR_EL2 | SCTLR_EL3 | SCTLR2_EL2 | SCTLR2_EL3 | HCR_EL2 | HCRX_EL2 | HFGRTR_EL2
  | HFGITR_EL2 | HSTR_EL2 | SCR_EL3 | CPACR_EL1 | CPTR_EL2 | CPTR_EL3 | ZCR_EL1 | SMCR_EL1 | ZCR_EL2
  | SMCR_EL2 | ZCR_EL3 | SMCR_EL3 | TCR_EL1 | TCR_EL2 | TCR_EL3 | TCR2_EL1 | TCR2_EL2 | TTBR0_EL1 | TTBR1_EL1
  | TTBR0_EL2 | TTBR1_EL2 | TTBR0_EL3 | VTCR_EL2 | VTTBR_EL2 | VNCR_EL2 | MECIDR_EL2 | MECID_P0_EL2
  | MECID_A0_EL2 | MECID_P1_EL2 | MECID_A1_EL2 | VMECID_P_EL2 | VMECID_A_EL2 | GPCCR_EL3 | MDCR_EL2
  | MDCR_EL3 | SPSR_EL1 | ELR_EL1 | ESR_EL1 | FAR_EL1 | VBAR_EL1 | RVBAR_EL1 | RMR_EL1 | SPSR_EL2 | ELR_EL2
  | ESR_EL2 | FAR_EL2 | VBAR_EL2 | RVBAR_EL2 | RMR_EL2 | SPSR_EL3 | ELR_EL3 | ESR_EL3 | FAR_EL3 | VBAR_EL3
  | RVBAR_EL3 | RMR_EL3 | HPFAR_EL2 | CONTEXTIDR_EL1 | CONTEXTIDR_EL2 | FPEXC32_EL2 | FPCR | FPSR | PAR_EL1
  | MPIDR_EL1 | CTR_EL0 | DCZID_EL0 | CCSIDR_EL1 | CCSIDR2_EL1 | CSSELR_EL1 | CLIDR_EL1 | GMID_EL1
  | ID_PFR0_EL1 | ID_PFR1_EL1 | ID_DFR0_EL1 | ID_AFR0_EL1 | ID_MMFR0_EL1 | ID_MMFR1_EL1 | ID_MMFR2_EL1
  | ID_MMFR3_EL1 | ID_ISAR0_EL1 | ID_ISAR1_EL1 | ID_ISAR2_EL1 | ID_ISAR3_EL1 | ID_ISAR4_EL1 | ID_ISAR5_EL1
  | ID_MMFR4_EL1 | ID_ISAR6_EL1 | MVFR0_EL1 | MVFR1_EL1 | MVFR2_EL1 | ID_PFR2_EL1 | ID_DFR1_EL1
  | ID_MMFR5_EL1 | ID_AA64PFR0_EL1 | ID_AA64PFR1_EL1 | ID_AA64PFR2_EL1 | ID_AA64ZFR0_EL1 | ID_AA64SMFR0_EL1
  | ID_AA64DFR0_EL1 | ID_AA64DFR1_EL1 | ID_AA64AFR0_EL1 | ID_AA64AFR1_EL1 | ID_AA64ISAR0_EL1
  | ID_AA64ISAR1_EL1 | ID_AA64ISAR2_EL1 | ID_AA64MMFR0_EL1 | ID_AA64MMFR1_EL1 | ID_AA64MMFR2_EL1
  | ID_AA64MMFR3_EL1 | ID_AA64MMFR4_EL1 | CNTFRQ_EL0 | CNTKCTL_EL1 | CNTHCTL_EL2 | CNTPOFF_EL2 | CNTVOFF_EL2
  | CNTP_CTL_EL0 | CNTP_CVAL_EL0 | CNTV_CTL_EL0 | CNTV_CVAL_EL0 | CNTHP_CTL_EL2 | CNTHP_CVAL_EL2
  | CNTHV_CTL_EL2 | CNTHV_CVAL_EL2 | CNTPS_CTL_EL1 | CNTPS_CVAL_EL1 | GCR_EL1 | RGSR_EL1 | TFSR_EL1
  | TFSRE0_EL1 | TFSR_EL2 | TFSR_EL3 | SCXTNUM_EL0 | SCXTNUM_EL1 | APIAKeyLo_EL1 | APIAKeyHi_EL1
  | APIBKeyLo_EL1 | APIBKeyHi_EL1 | APDAKeyLo_EL1 | APDAKeyHi_EL1 | APDBKeyLo_EL1 | APDBKeyHi_EL1
  | APGAKeyLo_EL1 | APGAKeyHi_EL1 | ACCDATA_EL1 | DSPSR_EL0 | DLR_EL0 | OSLSR_EL1 | PMCR_EL0 | PMCNTENSET_EL0
  | PMOVSSET_EL0 | PMSELR_EL0 | PMCCNTR_EL0 | PMUSERENR_EL0 | PMBPTR_EL1 | PMBIDR_EL1 | TRBPTR_EL1
  | TRBIDR_EL1 | BRBCR_EL1 | BRBCR_EL2 | BRBINFINJ_EL1 | BRBSRCINJ_EL1 | BRBTGTINJ_EL1 | TRCCONFIGR | TRCIDR0
  | ERXPFGF_EL1
  deriving DecidableEq, Repr

/-- How many System registers there are. -/
abbrev sysRegCount : Nat := 173

/-- Register names that are views of other state (10_state.md R34; 60_exceptions.md R233, R242 to R248). -/
inductive View where
  | NZCV | DAIF | SVCR | DIT | SSBS | TCO | SPSel | CurrentEL | PAN | ALLINT | SP_EL0 | SP_EL1 | SP_EL2
  | CNTPCT_EL0 | CNTVCT_EL0 | CNTPCTSS_EL0 | CNTVCTSS_EL0 | CNTP_TVAL_EL0 | CNTV_TVAL_EL0 | CNTHP_TVAL_EL2
  | CNTHV_TVAL_EL2 | CNTPS_TVAL_EL1 | ISR_EL1 | RNDR | RNDRRS | PMCNTENCLR_EL0 | PMOVSCLR_EL0
  | PMXEVTYPER_EL0 | PMXEVCNTR_EL0
  deriving DecidableEq, Repr

/-- What a System register name names. -/
inductive RegName where
  | stored (r : SysReg)
  | view (v : View)
  | pmevcntr (n : Fin 31)
  | pmevtyper (n : Fin 31)
  | brbsrc (n : Fin 32)
  | brbtgt (n : Fin 32)
  | brbinf (n : Fin 32)
  | trcacvr (n : Fin 16)
  deriving DecidableEq, Repr

/-- Translation regimes (60_exceptions.md R196). -/
inductive Regime where
  | el10 | el20 | el2 | el3
  deriving DecidableEq, Repr, Inhabited

/-- What an access is for (20_memory.md R84). -/
inductive Access where
  | fetch | load | store | tagLoad
  /-- STG and STGM: Allocation Tags and no data (20_memory.md R70). -/
  | tagStore
  | dcZero
  /-- DC GVA: Allocation Tags. -/
  | dcTag
  | cacheOp | translate | translate12
  /-- A register redirected to memory at VNCR_EL2 (20_memory.md R84 item 8). -/
  | vncr
  /-- The Profiling Buffer and the trace buffer (20_memory.md R84 item 9, 61_debug_pmu_trace.md R302). -/
  | profile | trace
  deriving DecidableEq, Repr

/-- A cached translation (41_system_instructions.md R141 gives the fields the invalidation looks at, 20_memory.md R68,
R98 to R108 the descriptor fields). -/
structure TLBEntry where
  regime : Regime
  /-- The Security state it was made in. -/
  ss : Space
  includesS1 : Bool
  includesS2 : Bool
  includesGpt : Bool
  /-- The input address, of the first stage the entry includes. -/
  ia : Word
  /-- log2 of the size of the block. -/
  blocksize : Nat
  /-- The output base address (`walkstate.baseaddress`). -/
  oa : BitVec 52
  space : Space
  type : MemType
  /-- The memory type and allocation hint of stage 1, and bits [5:2] of the stage 2 descriptor (10_state.md R25,
  20_memory.md R115, R116). -/
  s1Type : MemType
  /-- The memory type that stage 2 provides (42_loadstore_mte_atomics.md R155). -/
  s2Type : MemType
  alloc : Alloc
  s2Attr : BitVec 4
  tags : TagAttr
  shareable : Bool
  guarded : Bool
  contiguous : Bool
  /-- Descriptor bits [54], [53], AP[1] (bit [6]) and AP[2] (20_memory.md R68). -/
  xn54 : Bool
  xn53 : Bool
  ap1 : Bool
  ap2 : Bool
  s2r : Bool
  s2w : Bool
  s2x : Bool
  /-- The Access flag, and "writeable-clean" (20_memory.md R70, R117). -/
  af : Bool
  writeableClean : Bool
  /-- Where the descriptor stands, for its hardware update. -/
  descAddr : Nat
  /-- The intermediate physical address of the block, the Access flag of the stage 2 descriptor and where it stands. -/
  ipa : BitVec 52
  af2 : Bool
  desc2Addr : Nat
  amec : Bool
  /-- TCR_ELx and TCR2_EL2 as they were when the entry was made (20_memory.md R106). -/
  tcr : Word
  tcr2 : Word
  global : Bool
  asid : BitVec 16
  vmid : BitVec 16
  finalLevel : Bool
  level : Nat
  deriving DecidableEq, Repr, Inhabited

/-- A cached entry of the Granule Protection Table (41_system_instructions.md R142). -/
structure GptEntry where
  pa : BitVec 52
  size : Nat
  level : Nat
  deriving DecidableEq, Repr, Inhabited

/-- The kinds of fault a translation can report (60_exceptions.md R198, R209). -/
inductive WalkFault where
  | addressSize | translation | accessFlag | permission | externalOnWalk
  /-- A Granule Protection Fault and a GPC exception, on a walk or an update of a descriptor. -/
  | granuleProtection | gpc
  /-- The same on the final physical address access (60_exceptions.md R209). -/
  | finalGranuleProtection | finalGpc
  | tlbConflict
  deriving DecidableEq, Repr, Inhabited

/-- What a translation table walk is asked. -/
structure WalkReq where
  va : Word
  regime : Regime
  space : Space
  access : Access
  write : Bool
  el0 : Bool
  asid : BitVec 16
  vmid : BitVec 16
  deriving DecidableEq, Repr

/-- A fault that comes after stage 1 has given its output. -/
structure LateFault where
  fault : WalkFault
  level : Nat
  stage2 : Bool
  ipa : BitVec 52
  deriving DecidableEq, Repr, Inhabited

/-- What a walk answers (20_memory.md R64: the walk is a parameter of the model). -/
inductive WalkResult where
  | entry (e : TLBEntry)
  /-- It faults before stage 1 gives its output. -/
  | fault (f : WalkFault) (level : Nat) (stage2 : Bool) (ipa : BitVec 52)
  /-- Stage 1 gives the entry, as far as it is known, and then the walk or the final access of the translation faults
  (20_memory.md R117, 60_exceptions.md R209). -/
  | stopped (e : TLBEntry) (late : LateFault)
  deriving DecidableEq, Repr, Inhabited

/-- The mnemonics of the lists of 61_debug_pmu_trace.md R318. -/
inductive ReduceName where
  | faddp | fmaxnmp | fmaxp | fminnmp | fminp | faddv | fmaxnmv | fmaxv | fminnmv | fminv
  | addp | addv | sadalp | saddlp | saddlv | smaxp | smaxv | sminp | sminv
  | uadalp | uaddlp | uaddlv | umaxp | umaxv | uminp | uminv | andv | eorv | orv | saddv | uaddv
  deriving DecidableEq, Repr

/-- The registers beside `SysReg` that control something, so that they are read indirectly (70_reset_and_hazards.md R323). -/
inductive CtlReg where
  /-- The AArch32 ones. -/
  | cpacr | nsacr | hcr | hcptr | hstr | scr | sdcr
  /-- PMEVTYPER<n>_EL0. -/
  | pmevtyper (n : Fin 31)
  deriving DecidableEq, Repr

/-- The places where the spec leaves a value or a choice open: each free value is drawn for one of them. -/
inductive Site where
  /-- Which value an indirect read of a register written and not yet synchronised sees (70_reset_and_hazards.md R324). -/
  | indirect (r : SysReg)
  | indirectCtl (r : CtlReg)
  /-- RNDR and RNDRRS: the number, and whether one is available (41_system_instructions.md R151). -/
  | random | randomFails
  /-- The result of a SYSL. -/
  | sysl
  /-- CCSIDR_EL1 of an unimplemented cache level (41_system_instructions.md R152). -/
  | ccsidrNop | ccsidrUndefined | ccsidrEc18 | ccsidrValue
  /-- The status ST64BV and ST64BV0 return. -/
  | st64bStatus
  /-- A byte read from a Device. -/
  | deviceByte (k : Nat)
  /-- Whether an interrupt that may be taken is taken now (92_eei_decisions.md D17). -/
  | takeSError | takeFiq | takeIrq | takeVSError | takeVFiq | takeVIrq
  /-- The syndrome of an SError. -/
  | serrorSyndrome
  /-- Whether and when a requested Warm reset happens (70_reset_and_hazards.md R326). -/
  | warmReset
  /-- UNKNOWN register contents after a Warm reset inside the machine. -/
  | resetX (n : Nat) | resetZ (n : Nat) | resetP (n : Nat) | resetMisc (n : Nat)
  /-- Several TLB entries match: a conflict abort, or which one (20_memory.md R75, R99, R100). -/
  | tlbConflict | tlbAmalgam | tlbArbitrary | tlbPick
  /-- Which entry a part of an amalgamation comes from (20_memory.md R75). -/
  | tlbPart (n : Nat)
  /-- Whether an access uses the bits of TCR_ELx that a TLB entry holds (20_memory.md R106). -/
  | tlbTcr
  /-- Whether a cached GPT entry covers a contiguous region (20_memory.md R103). -/
  | gptContiguous
  /-- The alignment requirement of synchronising accesses with stage 2 forced Write-Back (20_memory.md R116). -/
  | forcedWriteBack
  /-- Whether an interrupt is taken before access `k` of an instruction, and what is done of it
  (42_loadstore_mte_atomics.md R156, R157). -/
  | midInterrupt (k : Nat) | partialAccess | partialByte (k : Nat) | partialTag (k : Nat)
  | partialRegister
  /-- Which granule's fault is reported (20_memory.md R89). -/
  | granuleFault
  /-- Whether a control traps an instruction that is CONSTRAINED UNPREDICTABLE (60_exceptions.md R213). -/
  | trapOfUnpredictable
  /-- Whether MOVPRFX and the instruction it prefixes run as one unit (60_exceptions.md R216, R217). -/
  | movprfxUnit
  /-- The elements of First-fault and Non-fault loads: whether an access is performed, whether a failed asynchronous tag check is
  reported, the value of an element whose FFR element is FALSE (20_memory.md R115, 42_loadstore_mte_atomics.md R163,
  43_fp_sve_sme.md R175). -/
  | ffPerformed (e : Nat) | ffReported (e : Nat) | ffElement (e : Nat)
  /-- The destination of a vector load that is stopped between its accesses (42_loadstore_mte_atomics.md R156). -/
  | partialVector
  /-- The rounding of a conversion to BF16 that is not exact, and the result for a NaN, by the value converted
  (43_fp_sve_sme.md R164 states neither). -/
  | bf16Rounding (x : BitVec 32) | bf16Nan (x : BitVec 32)
  /-- Whether an External abort on a table walk of a buffer write is an MMU fault (61_debug_pmu_trace.md R302). -/
  | walkAbortAsMmu
  /-- Whether the prediction resources learn of an instruction (20_memory.md R59). -/
  | trainPrediction (kind : Nat)
  /-- FnV, FnP and WPF of a Watchpoint exception (60_exceptions.md R228), and the LST field (R215). -/
  | watchFlags | lst
  /-- Whether a walk result is cached (20_memory.md R59). -/
  | tlbFill
  /-- Hardware updates of descriptors, each Access flag its own (20_memory.md R70, R117). -/
  | accessFlagUpdate (n : Nat) | dirtyUpdate
  /-- Whether a read of an Allocation Tag from an Untagged location gives the External abort of a read of data there
  (20_memory.md R82). -/
  | tagReadAbort
  /-- An access that has both a Tag Check Fault and an External abort (60_exceptions.md R209). -/
  | tagOrAbort
  /-- A Tagged location while SCTLR_ELx.C is 0 (20_memory.md R80). -/
  | taggedCacheOff
  /-- LDRAA or LDRAB that fails authentication on Device memory (40_pauth_bti.md R131). -/
  | ldraDeviceRead
  /-- Error synchronisation by DRPS (41_system_instructions.md R139). -/
  | iesbInDebug
  /-- The Exclusives monitors after a TLB invalidation (20_memory.md R105) and by other observers. -/
  | monitorAfterTlbi | monitorLost
  /-- DC GVA and STZGM on Device memory (41_system_instructions.md R153, 42_loadstore_mte_atomics.md R161). -/
  | gvaDevice | stzgmDevice
  /-- The upper halves of the X registers at an exception from AArch32 (60_exceptions.md R204). -/
  | upperHalf (n : Nat)
  /-- The Invalid Operation flag after a signaling NaN (43_fp_sve_sme.md R181). -/
  | invalidOperation
  /-- Cumulative exception flags of FMMLA. -/
  | fmmlaFlags
  /-- The value of a register an instruction leaves UNKNOWN or the source does not print. -/
  | unknown (n : Nat)
  /-- Whether a DC to another address space than Realm acts (30_encoding.md R127). -/
  | paeActs
  /-- Whether the first of two unsynchronised writes is counted (61_debug_pmu_trace.md R266, R267). -/
  | firstWriteCounted
  /-- The elided conditions of PMU counting (61_debug_pmu_trace.md R268 to R270, R321). -/
  | pmuElided (n : Nat)
  /-- BRBE prohibited at source: before or after synchronisation (61_debug_pmu_trace.md R293). -/
  | brbeSource
  /-- Fields outside Debug state and reserved fields that read as UNKNOWN (61_debug_pmu_trace.md R278, R284, R301). -/
  | edscrNs | epmad | edpfrReserved
  /-- PMSELR_EL0.SEL out of range (61_debug_pmu_trace.md R299). -/
  | pmselr
  /-- Bits [63:P] of an address field (61_debug_pmu_trace.md R271, R272). -/
  | addressTop
  /-- What an access to a register frame that is not permitted reads (60_exceptions.md R236 to R238). -/
  | frameDenied
  /-- What an access to a MECID register meets without its premise (41_system_instructions.md R148). -/
  | mecidAccess
  /-- The response to an external trace access (61_debug_pmu_trace.md R322). -/
  | traceResponse
  /-- Where a watchpoint or fault address lies (60_exceptions.md R225, R251). -/
  | faultAddress
  /-- The error code of a failed authentication (40_pauth_bti.md R128). -/
  | authCode
  /-- The MECID of an EL3 access to the Realm physical address space while SCTLR2_EL3.EMEC is 1 (20_memory.md R107). -/
  | el3Mecid
  /-- What an external write in a case that no rule fixes is answered (61_debug_pmu_trace.md R298). -/
  | extResponse
  /-- State a Warm reset leaves UNKNOWN, by its group and place (70_reset_and_hazards.md R330). -/
  | resetState (group place : Nat)
  /-- EDPRSR.SPD without FEAT_DoPD while the Core is off (61_debug_pmu_trace.md R303). -/
  | edprsrSpd
  /-- EDACR after the Core was off, and PMU counting that the Statistical Profiling freeze stops (61_debug_pmu_trace.md R265,
  R270). -/
  | edacrLost | fzsFreeze
  /-- Whether an UNDEFINED in Debug state comes before the other checks of a trap to EL3 (61_debug_pmu_trace.md R315). -/
  | el3SddPriority
  /-- Whether a WFE or WFI that does not complete at once waits, and whether the wake-up of a WFE takes the event from the Event
  Register (93_implementation_defined.md U52). -/
  | waits | wakeConsumes
  /-- ERR<n>FR.CFI where it is not defined, and ERR<n>STATUS after a write (61_debug_pmu_trace.md R282, R261). -/
  | errCfi | errStatus (n : Nat)
  deriving DecidableEq, Repr

/-- The implementation parameters (00_scope.md R9; 93_implementation_defined.md). Plain data that no instruction
writes. -/
structure Config where
  /-- The features that are implemented. -/
  feats : List Feature
  hasEL2 : Bool
  hasEL3 : Bool
  /-- EL3 uses AArch32 (`HaveAArch64` per Exception level). -/
  el3AArch32 : Bool
  /-- Implemented physical address size in bits, at most 52. -/
  paSize : Nat
  /-- The Exception levels that support AArch32 and AArch64: `HaveAArch32`, `HaveAArch64` (00_scope.md R9). -/
  aarch32 : List EL
  aarch64 : List EL
  /-- The parameter ResetAddress (92_eei_decisions.md D10). -/
  resetAddress : Word
  /-- The parameter MemoryMap (92_eei_decisions.md D16). -/
  memMap : List Region
  /-- log2 of the Exclusives reservation granule, 4 to 11 (92_eei_decisions.md D6). -/
  ergLog2 : Nat
  /-- The Exception levels whose data accesses are big-endian (92_eei_decisions.md D13). -/
  bigEndian : List EL
  /-- Exception return synchronises context: `none` takes the default rule of 92_eei_decisions.md D4. -/
  exceptionReturnSynchronizes : Option Bool
  /-- FinalPAAbortPriority is 32 rather than 34 (60_exceptions.md R209). -/
  finalPAAbort32 : Bool
  /-- The premise MECID_EL2_access_J_a (92_eei_decisions.md D8). -/
  mecidEl2AccessJa : Bool
  /-- An unaligned acquire or release access to Write-Back memory that is no exclusive one is performed where SCTLR_ELx.A
  allows it: the list of 'Alignment of data accesses' is not in the source (91_not_in_source.md N5). -/
  unalignedSyncWB : Bool
  /-- The LD64B memory type check is per stage rather than final (42_loadstore_mte_atomics.md R155). -/
  ls64PerStage : Bool
  /-- Without FEAT_FGT, which reads HCR_EL2.TID3 traps (60_exceptions.md R221, R222). -/
  tid3TrapsRaz : List SysReg
  tid3TrapsUnallocated : Bool
  /-- FAR_ELx of a fault of STZGM is the lowest faulting address rather than the register argument (60_exceptions.md R224). -/
  stzgmFarLowest : Bool
  /-- Cache maintenance is implemented as a NOP, and CMOW faults are generated even so (41_system_instructions.md R150). -/
  cmoNop : Bool
  cmowFaultWhenNop : Bool
  /-- WPTV when the watchpoint address is exact (60_exceptions.md R228). -/
  wptvWhenExact : Bool
  /-- An unaligned Device access faults even where the location supports it (20_memory.md R110). -/
  deviceUnalignedFaults : Bool
  /-- A location both Tagged and Non-shareable is treated as Tagged (20_memory.md R80). -/
  nonShareableTagged : Bool
  /-- Root accesses to Secure-only timer registers, Root and Realm accesses to Non-secure ones (60_exceptions.md R237). -/
  timerRootSecureOnly : Bool
  timerRootRealmNS : Bool
  /-- PRED of a zeroing-predicated load without FEAT_SPEv1p2 (61_debug_pmu_trace.md R257). -/
  spePredZeroing : Bool
  /-- The largest implemented SVE and streaming vector lengths in bits. -/
  maxVL : Nat
  maxSVL : Nat
  /-- CCSIDR_EL1 for the implemented cache levels, by CSSELR_EL1[4:0] (41_system_instructions.md R152). -/
  ccsidr : List (BitVec 5 × Word)
  /-- How many PMU event counters are implemented (00_scope.md R9). -/
  pmuCounters : Nat
  /-- PMBPTR_RES0_bits and TRBPTR_RES0_bits (61_debug_pmu_trace.md R280). -/
  pmbptrRes0 : Nat
  trbptrRes0 : Nat
  /-- The events the PMU implements (00_scope.md R9). -/
  pmuEvents : List (BitVec 16)
  /-- Reduction operations in AArch32 state are counted by the events of 61_debug_pmu_trace.md R318
  (93_implementation_defined.md U38). -/
  pmuReduceA32 : List (BitVec 16 × ReduceName)
  /-- Events of other PEs are counted where MT does not decide, while the Effective value of MT is 0 and while it is 1
(61_debug_pmu_trace.md R294, 93_implementation_defined.md U35). -/
  pmuOtherPEs : Bool
  pmuOtherPEsMT : Bool
  /-- The PE is one of a multithreaded processor (61_debug_pmu_trace.md R294). -/
  multithreaded : Bool
  /-- STALL_BACKEND and its Slot form also count where nothing is available and the backend accepts nothing
  (61_debug_pmu_trace.md R263, R264; 93_implementation_defined.md U31). -/
  stallBackendAlways : Bool
  /-- A cycle or Slot that the backend event counts although nothing is available is counted by the frontend event too
  (61_debug_pmu_trace.md R263, R264; 93_implementation_defined.md U31). -/
  stallBothCounted : Bool
  /-- EDACR has control bits that must be preserved over power down (61_debug_pmu_trace.md R265). -/
  edacrPreserved : Bool
  /-- Without FEAT_DoPD, EDACR is implemented in the Core power domain rather than in the Debug power domain
  (61_debug_pmu_trace.md R265, 93_implementation_defined.md U32). -/
  edacrCoreDomain : Bool
  /-- The exception classes that a branch record shows as an IMPLEMENTATION DEFINED exception to EL3 (61_debug_pmu_trace.md R288,
  93_implementation_defined.md U34). -/
  brbImpDef : List (BitVec 6)
  /-- External debug register accesses that no rule fixes (61_debug_pmu_trace.md R285, R298). -/
  extImpDef : ImpDefAccess
  /-- Break-before-make support level is 0 (20_memory.md R99). -/
  bbmLevel0 : Bool
  deriving DecidableEq, Repr

/-- A free 64-bit value for one place, at one value of the counter `free` of the state. -/
opaque Config.freeWord : Site → Nat → Word

/-- A free choice. -/
opaque Config.freeBool : Site → Nat → Bool

/-- A free vector register. -/
opaque Config.freeVector : Site → Nat → VReg

/-- By how much the system counter has advanced at a step (60_exceptions.md R242). -/
opaque Config.ticks : Nat → Word

/-- ComputePAC of a value, a modifier and the two halves of a key: one function of its arguments alone
(40_pauth_bti.md R130, R135). -/
opaque Config.computePAC : (value modifier keyHi keyLo : Word) → Word

/-- The function CNTHCTL_EL2_VHE (60_exceptions.md R232). -/
opaque Config.cnthctlVhe : Word → Word

/-- Where in the page at VNCR_EL2 a register redirected under FEAT_NV2 lies, by (o0, op1, CRn, CRm, op2); `none` if
it is not redirected (10_state.md R57; the table is not in the source). -/
opaque Config.vncrOffset : BitVec 15 → Option (BitVec 12)

/-- The translation table walk, a function of the request, the System registers and memory (20_memory.md R64). -/
opaque Config.walk : WalkReq → Vector Word sysRegCount → List (Nat × Byte) → WalkResult

/-- What stands at an offset of a register frame: the register and which byte of it; the offsets are not in the source but
for EDDFR's (20_memory.md R63, 91_not_in_source.md N47). -/
opaque Config.frameLayout : RegFrame → Nat → Option (FrameReg × Nat)

/-- The elided conditions of TLBIMatch for an operation, its operand and an entry (41_system_instructions.md R141). -/
opaque Config.tlbiElided : (operation : Nat) → (operand : Word) → TLBEntry → Bool

/-- An OA, permissions and attributes inconsistent with every entry, which a lookup with the Contiguous bit misprogrammed
may give where break-before-make support is level 0 (20_memory.md R99). -/
opaque Config.amalgam : List TLBEntry → Nat → TLBEntry

/-- S2FWBAttr: the memory type and Cacheability that bits [5:2] of a stage 2 descriptor and the stage 1 type give while
HCR_EL2.FWB is 1 (10_state.md R25); `normalWB` stands for Write-Back with any allocation hint. -/
opaque Config.s2fwbAttr : BitVec 4 → MemType → MemType

/-- The range a TLBI range operand names: first address and the address after the last
(41_system_instructions.md R141; the operand's format is not in the source). -/
opaque Config.tlbiRange : (operation : Nat) → (operand : Word) → (tcr : Word) → Word × Word

/-- The Security state that the operand of CFP, CPP and DVP RCTX names (41_system_instructions.md R143; the fields are not in
the source). -/
opaque Config.rctxSpace : (operand : Word) → Space

/-- The other context fields of that operand but for EL match a prediction of this Security state and
address (41_system_instructions.md R143; the fields are not in the source). -/
opaque Config.rctxContext : (operand : Word) → Space → (addr : Word) → Bool

/-- The encodings that are not allocated: System instructions by (op1, CRn, CRm, op2), System registers by (o0, op1, CRn, CRm,
op2) (30_encoding.md R122, 93_implementation_defined.md U51). The tables are not in the source (91_not_in_source.md N36). -/
opaque Config.unallocatedSys : BitVec 14 → Bool

/-- The same of System registers. -/
opaque Config.unallocatedReg : BitVec 15 → Bool

/-- Branch recording is allowed at an Exception level in a Security state, by the System registers: `BranchRecordAllowed()`
(61_debug_pmu_trace.md R293; its body is not printed). -/
opaque Config.branchRecordAllowed : Vector Word sysRegCount → EL → Space → Bool

/-- The filter of branch records lets a record of this TYPE be made (61_debug_pmu_trace.md R293; not printed). -/
opaque Config.branchFilter : Vector Word sysRegCount → (type : BitVec 6) → Bool

/-- The TYPE of the branch record of an exception to a level, with its class if it is synchronous, or of an exception return
(61_debug_pmu_trace.md R288: the other values are not printed). -/
opaque Config.brbOtherType : (target : Option EL) → (ec : Option (BitVec 6)) → BitVec 6

/-- A time that a timestamp can be captured in (61_debug_pmu_trace.md R273, R297). -/
inductive Timestamp where
  | virtual | physical | offsetPhysical
  deriving DecidableEq, Repr, Inhabited

/-- The time that a branch record's timestamp is captured in, by the Effective value of BRBCR_EL2.TS and by BRBCR_EL1.TS: the
table is not in the source (61_debug_pmu_trace.md R273, 91_not_in_source.md N19). -/
opaque Config.brbTimestampKind : (ts2 ts1 : BitVec 2) → Timestamp

/-- The packets of a Statistical Profiling record that the rules of 61_debug_pmu_trace.md speak of. -/
inductive SpeKind where
  /-- An Address packet, with INDEX in a Short or an Extended header (R290). -/
  | address (extended : Bool)
  /-- An Operation Type packet of each class (R286, R309). -/
  | loadStore | other | branch
  /-- An Events packet, by its SZ field (R307). -/
  | events (sz : BitVec 2)
  | timestamp | end_
  /-- Packets that no rule is about (PRESUMED, log entry 101). -/
  | counter (index : BitVec 5) | context (index : BitVec 2) | dataSource
  deriving DecidableEq, Repr

/-- The header bytes of a packet, by number, but for the INDEX bits of an Address packet: the packet grammar is not in the source
(61_debug_pmu_trace.md R255). -/
opaque Config.speHeader : SpeKind → Nat → Byte

/-- `CollectPhysicalAddress()`, by the System registers, the Exception level and the Security state: sampling of physical addresses
is not prohibited (61_debug_pmu_trace.md R290; not printed). -/
opaque Config.speCollectPhysical : Vector Word sysRegCount → EL → Space → Bool

/-- `CollectTimeStamp()`: the time a sample's timestamp is taken in, or none (61_debug_pmu_trace.md R297; not printed). -/
opaque Config.speTimestampKind : Vector Word sysRegCount → EL → Space → Option Timestamp

/-- The encoding of a vector length in the EVL field of the Operation Type packet (61_debug_pmu_trace.md R287: not printed). -/
opaque Config.speEvl : (bits : Nat) → BitVec 3

/-- A single-precision FMMLA on one 128-bit segment: FPCR, addend, first and second source
(43_fp_sve_sme.md R174 gives no arithmetic). -/
opaque Config.fmmlaS : (fpcr : Word) → (acc a b : BitVec 128) → BitVec 128

/-- A double-precision FMMLA on one 256-bit segment. -/
opaque Config.fmmlaD : (fpcr : Word) → (acc a b : BitVec 256) → BitVec 256

end Sys2Proof
end

