-- ==== Sys2Proof/Machine/State.lean ====
section
/-! DEFINITION. The state of the machine as plain data, the reasons a step can stop, and the state after reset.
INVENTORY.md lists every field with the rule that names it. -/

namespace Sys2Proof.Machine

/-- PSTATE (00_scope.md R14; 10_state.md R20). `spsel` is PSTATE.SP, `m32` the AArch32 mode. -/
structure PState where
  n : Bool
  z : Bool
  c : Bool
  v : Bool
  d : Bool
  a : Bool
  i : Bool
  f : Bool
  ss : Bool
  il : Bool
  pan : Bool
  uao : Bool
  ssbs : Bool
  dit : Bool
  tco : Bool
  allint : Bool
  sm : Bool
  za : Bool
  pacm : Bool
  btype : BitVec 2
  el : EL
  spsel : Bool
  nRW : Bool
  t : Bool
  m32 : BitVec 4
  deriving DecidableEq, Repr

/-- Pending interrupts and their Superpriority (60_exceptions.md R233, R235). -/
structure Interrupts where
  irq : Bool
  fiq : Bool
  serror : Bool
  vIrq : Bool
  vFiq : Bool
  vSError : Bool
  irqSuper : Bool
  fiqSuper : Bool
  vIrqSuper : Bool
  vFiqSuper : Bool
  deriving DecidableEq, Repr

/-- A watchpoint that is enabled now: the addresses it watches, and whether for loads and stores. The registers that program
it are not in the source (log entry 56). -/
structure Watchpoint where
  lo : Word
  hi : Word
  load : Bool
  store : Bool
  deriving DecidableEq, Repr

/-- What a prediction resource predicts (41_system_instructions.md R143). -/
inductive PredKind where
  | controlFlow | dataValue | cachePrefetch
  deriving DecidableEq, Repr

/-- A trained prediction: its kind, the Exception level it was trained at, and the address of the instruction
(20_memory.md R59, R94). -/
structure Prediction where
  kind : PredKind
  el : EL
  space : Space
  addr : Word
  deriving DecidableEq, Repr

/-- The registers of the external debug interface (61_debug_pmu_trace.md R255) and the inputs they depend on. -/
structure Debug where
  edscr : Half
  edprsr : Half
  edacr : Half
  eddfr : Word
  eddfr1 : Word
  edpfr : Word
  edaa32pfr : Word
  edwar : Word
  eddevid1 : Half
  edhsr : Word
  amdevarch : Half
  corePowered : Bool
  doubleLock : Bool
  rootDebug : Bool
  traceAccess : Bool
  /-- Bits [31:11] of the external PMCR_EL0, which are not mapped to the System register (61_debug_pmu_trace.md R262). -/
  extPmcr : Word
  /-- What the last external access was answered: `none` is an error response, a write that is accepted gives 0. -/
  response : Option Word
  /-- Instructions the debugger has given the PE, the next one first. -/
  itr : List Half
  watchpoints : List Watchpoint
  /-- The addresses of the breakpoints that are enabled now, and of the vectors that are caught. -/
  breakpoints : List Word
  vectorCatch : List Word
  /-- Software step is enabled. -/
  softwareStep : Bool
  deriving DecidableEq, Repr

/-- The AArch32 System registers the spec names that are not mapped to an AArch64 one. -/
structure A32Regs where
  dbgdscrint : Half
  parS : Word
  parNS : Word
  /-- TTBR0 and TTBR1, Secure copies then Non-secure ones. -/
  ttbr : Vector Word 4
  cpacr : Half
  nsacr : Half
  hcr : Half
  hcptr : Half
  hstr : Half
  scr : Half
  sdcr : Half
  deriving DecidableEq, Repr

/-- The memory-mapped Generic Timer registers that have no System register view (60_exceptions.md R236 to R238). -/
structure TimerFrames where
  cntcr : Half
  cntsr : Half
  cntid : Half
  cntscr : Half
  cnttidr : Half
  cntnsar : Half
  /-- CNTFID<n> by number, the ones that are not zero; in canonical form. -/
  cntfid : List (Nat × Half)
  /-- CounterID<n> of CNTControlBase and of CNTBaseN. -/
  controlId : Vector Half 12
  baseId : Vector Half 12
  cntfrq : Half
  cntacr : Vector Half 8
  cntel0acr : Vector Half 8
  cntvoff : Vector Word 8
  /-- The physical and the virtual timer of each frame: ENABLE and IMASK, and CompareValue. -/
  pctl : Vector Half 8
  pcval : Vector Word 8
  vctl : Vector Half 8
  vcval : Vector Word 8
  deriving DecidableEq, Repr

/-- An error record (61_debug_pmu_trace.md R261, R282). -/
structure ErrRecord where
  fr : Word
  status : Word
  deriving DecidableEq, Repr

/-- How far a written code location is from being visible to instruction fetch: the steps of the sequence that
92_eei_decisions.md D7 requires. -/
inductive Stage where
  /-- Written; the data cache clean has not been done. -/
  | written
  /-- Cleaned to the Point of unification; that clean is not yet complete. -/
  | cleaned
  /-- The clean is complete. -/
  | cleanComplete
  /-- Instruction cache invalidation done; not yet complete. -/
  | invalidated
  /-- The invalidation is complete; an ISB is still needed. -/
  | invalidComplete
  deriving DecidableEq, Repr

/-- The Warm reset request of RMR_ELx.RR (70_reset_and_hazards.md R326). -/
inductive WarmReset where
  | none | requested | synchronised
  deriving DecidableEq, Repr

/-- How far the code sequence that guarantees the Warm reset has been followed, instruction after instruction
(70_reset_and_hazards.md R326): the DSB or the MSR was the step of this number, or the ISB stood before this address. -/
inductive ResetSeq where
  | none
  | dsb (step : Nat)
  | msr (step : Nat)
  | isb (wfi : Word)
  deriving DecidableEq, Repr

/-- The MOVPRFX whose prefixed instruction is next: destination, and the predicate and element size of a
predicated one (43_fp_sve_sme.md R173). -/
structure Prefix where
  zd : BitVec 5
  pred : Option (BitVec 3 × BitVec 2)
  /-- What a pair that runs as one unit goes back to when it takes an exception: the destination before the MOVPRFX, its address
  and PSTATE.BTYPE (60_exceptions.md R216). -/
  old : VReg
  addr : Word
  btype : BitVec 2
  deriving DecidableEq, Repr

/-- An access to Device memory: what the outside sees (20_memory.md R71). -/
structure DeviceAccess where
  write : Bool
  addr : Nat
  byte : Byte
  deriving DecidableEq, Repr

/-- The registers an error can be detected in (61_debug_pmu_trace.md R261). -/
inductive ErrSource where
  | generalPurpose | stackPointer | simdFp | sve
  /-- ZA and ZT0. -/
  | sme
  /-- Any other register, such as a System register. -/
  | other
  deriving DecidableEq, Repr

/-- A reduction: its mnemonic, and whether it is the SVE or SVE2 instruction of that name or the Advanced SIMD one. -/
structure ReduceInstr where
  name : ReduceName
  sve : Bool
  deriving DecidableEq, Repr

/-- How a write to the Profiling Buffer or the trace buffer failed (61_debug_pmu_trace.md R302). -/
inductive BufferFault where
  | mmuFault | externalAbort
  deriving DecidableEq, Repr

/-- The operation of a sample, as the Operation Type packet tells it (61_debug_pmu_trace.md R257, R286, R287, R309). -/
inductive SpeOp where
  /-- A load, store, swap or atomic operation but an SVE one: whether it returns a value to the PE, and the bits of the payload that no
  rule gives. -/
  | access (returnsValue : Bool) (rest : Byte)
  /-- An SVE load or store: whether a load is one with zeroing predication, whether it is predicated and has an Active element, and bit
  [7] of the payload, which no rule gives. -/
  | sveAccess (load zeroing predicated anyActive rest : Bool)
  /-- An operation of the class Other: its bit [0], which is left open. -/
  | other (low : Bool)
  /-- Another SVE operation: which, whether it is predicated, and has an Active element. -/
  | sve (c : Code) (predicated anyActive : Bool)
  /-- A branch or exception return, of whose payload no rule speaks. -/
  | branch (payload : Byte)
  deriving DecidableEq, Repr

/-- A packet of a sample that no rule is about, but that an Address packet has its INDEX: kinds and fields are PRESUMED (log entry
101). -/
inductive SpeExtra where
  | address (extended : Bool) (index : BitVec 5) (v : Word)
  | counter (index : BitVec 5) (v : BitVec 16)
  | context (index : BitVec 2) (v : Half)
  | dataSource (v : Byte)
  deriving DecidableEq, Repr

/-- A sample that the Statistical Profiling unit has taken: the operation, and what the rules leave to the unit. -/
structure SpeSample where
  op : SpeOp
  /-- The sampled data virtual address, if that packet is output. -/
  dataVirtual : Option Word
  /-- The operation operates on a virtual address, the PE translates it, and the physical address (61_debug_pmu_trace.md R290). -/
  onVirtual : Bool
  translated : Bool
  physical : Word
  /-- Address packets have Extended headers. -/
  extended : Bool
  /-- The Events packet, if there is one: SZ, and its bits but for Empty predicate (61_debug_pmu_trace.md R307). -/
  events : Option (BitVec 2 × Word)
  others : List SpeExtra
  deriving DecidableEq, Repr

/-- What an agent other than the PE does (00_scope.md R15): each is a step of its own. -/
inductive AgentEvent where
  /-- No other agent acts: the PE makes its step, and the events after this one come later. -/
  | pe
  /-- The debugger: an External debug request, the restart, an instruction for the ITR, a read and a write of a register. -/
  | haltRequest
  | restart
  | itr (w : Half)
  | extRead (r : ExtReg)
  | extWrite (r : ExtReg) (v : Word)
  /-- An agent of a Security state reads or writes a register of a register frame (60_exceptions.md R236 to R238). -/
  | frameRead (r : FrameReg) (by_ : Space)
  | frameWrite (r : FrameReg) (by_ : Space) (v : Word)
  /-- The debugger or the power controller: the Core power domain, the debug inputs. -/
  | corePower (on : Bool)
  | debugInputs (doubleLock rootDebug traceAccess : Bool)
  /-- What the watchpoints, breakpoints, Vector Catch and Software Step are programmed to. -/
  | debugEvents (watchpoints : List Watchpoint) (breakpoints vectorCatch : List Word) (softwareStep : Bool)
  /-- The interrupt sources. -/
  | interrupts (i : Interrupts)
  /-- A wake-up event that the spec does not list, which ends a wait; it may set the Event Register (91_not_in_source.md N28). -/
  | wakeUp (setsEvent : Bool)
  /-- Another observer writes a byte, or reads or writes memory so that a monitor is lost. -/
  | observerWrite (key : Nat) (b : Byte)
  /-- The branch record buffer, the Statistical Profiling unit, the trace buffer unit. -/
  | branch (n : Fin 32) (src tgt inf : Word)
  /-- The record of the last exception or exception return. -/
  | exception (n : Fin 32) (src tgt inf : Word)
  | inject (n : Fin 32)
  /-- The timestamp of the branch record buffer is captured (61_debug_pmu_trace.md R273). -/
  | captureTimestamp
  | profile (sample : SpeSample)
  | trace (bytes : List Byte)
  /-- An error is detected. -/
  | error (record : Nat) (src : ErrSource)
  /-- Microarchitectural events: an access to the level 2 data TLB, a reduction speculatively executed. -/
  | l2dTlb (write : Bool)
  | speculated (k : ReduceInstr)
  /-- An SVE operation speculatively executed: whether it is predicated, and has an Active element. -/
  | speculatedSve (predicated anyActive : Bool)
  /-- A cycle, or a Slot, in which no operation is sent: whether the frontend has one available, whether the backend accepts one. -/
  | stall (slot available accepts : Bool)
  /-- A snoop that the PE generates for a demand read of data or a demand fetch: whether it hits outside its caches, and whether
  data comes back. -/
  | snoop (data hit returns : Bool)
  /-- Another microarchitectural event, by its number. -/
  | microarchitectural (event : BitVec 16)
  /-- An event of another PE that shares a component with this one: whether the component is a cache, whether the PEs that share it are
  more than those of the multithreaded processor, and whether the other PE is one of the processor (61_debug_pmu_trace.md R294). -/
  | otherPE (event : BitVec 16) (cache beyond sameProcessor : Bool)
  deriving DecidableEq, Repr

/-- A wait that has suspended execution: whether it is one for an event, and the virtual count that ends a wait with a timeout
(45_base_subset.md R190, 60_exceptions.md R214; 93_implementation_defined.md U52). -/
structure Wait where
  event : Bool
  timeout : Option Word
  deriving DecidableEq, Repr

/-- The whole machine. -/
structure State where
  cfg : Config
  x : Vector Word 31
  sp : Vector Word 4
  pc : Word
  ps : PState
  sys : Vector Word sysRegCount
  pmevcntr : Vector Word 31
  pmevtyper : Vector Word 31
  brbsrc : Vector Word 32
  brbtgt : Vector Word 32
  brbinf : Vector Word 32
  /-- The TYPE of the branch record that the last exception or exception return makes and that is not yet written
  (61_debug_pmu_trace.md R293). -/
  brbEntry : Option (BitVec 6)
  /-- The timestamp that the branch record buffer has captured (61_debug_pmu_trace.md R273). -/
  brbTimestamp : Word
  trcacvr : Vector Word 16
  z : Vector VReg 32
  p : Vector PReg 16
  ffr : PReg
  za : Vector VReg 256
  zt0 : BitVec 512
  /-- Bytes by 2^52 times the number of the address space plus the address; in canonical form. -/
  mem : List Host.Cell
  /-- Allocation Tags by the number of their 16-byte granule; in canonical form. -/
  tags : List (Nat × BitVec 4)
  tlb : List TLBEntry
  gptTlb : List GptEntry
  /-- The block the local and the global Exclusives monitor hold, by block number. -/
  exLocal : Option Nat
  exGlobal : Option Nat
  /-- A TLB invalidation stood between the Load-Exclusive and now (20_memory.md R105). -/
  exTlbi : Bool
  /-- The trained predictions (20_memory.md R59). -/
  predictions : List Prediction
  eventReg : Bool
  /-- The wait that has suspended execution, if one has; the model's own (93_implementation_defined.md U52). -/
  waiting : Option Wait
  intr : Interrupts
  stale : List (Nat × Stage)
  warmReset : WarmReset
  resetSeq : ResetSeq
  movprfx : Option Prefix
  pend : List (SysReg × Word)
  pendCtl : List (CtlReg × Word)
  /-- The registers whose writes were counted since the last Context synchronization event, by name and banked copy
  (61_debug_pmu_trace.md R266, R267). -/
  counted : List (SysReg × Nat)
  dbg : Debug
  a32 : A32Regs
  frames : TimerFrames
  err : List ErrRecord
  /-- A write to the Profiling Buffer or the trace buffer that failed, until software deals with it (61_debug_pmu_trace.md
  R302). -/
  profileFault : Option BufferFault
  traceFault : Option BufferFault
  /-- What other agents do, the next event first (00_scope.md R15). -/
  agents : List AgentEvent
  count : Word
  devLog : List DeviceAccess
  /-- The pc has run off the top of the address space (92_eei_decisions.md D3); the model's own. -/
  offTop : Bool
  /-- Reads the free values: advanced by every step. -/
  free : Nat
  deriving DecidableEq, Repr

/-- What stops the machine. -/
inductive Fault where
  /-- Raised by the step when the pc has run off the top of the address space (92_eei_decisions.md D3). Safe: the
  hardware goes on in a way the spec leaves open. -/
  | pcOffTop
  deriving DecidableEq, Repr

/-- Why a step gives no meaning. Every one is safe: the model stops where the hardware goes on. -/
inductive Refusal where
  /-- An instruction without a meaning. -/
  | notModelled (mnemonic : String)
  /-- Raised by the step: a word that no row of the opcode table gives (92_eei_decisions.md D18). -/
  | encodingNotInSpec
  /-- Raised by the step: a 16-bit T32 instruction. -/
  | narrowT32
  /-- Raised by MRS and MSR: a register encoding the spec does not name (91_not_in_source.md N36). -/
  | sysRegNotInSpec
  /-- Raised by SYS: an operation the spec does not name (30_encoding.md R119). -/
  | sysInstrNotInSpec
  /-- Raised by the step: a byte of the instruction was written and the sequence of 92_eei_decisions.md D7 omitted. -/
  | fetchOfUnsynchronizedCode
  /-- Raised by taking an exception to an Exception level that uses AArch32, whose entry the spec does not give. -/
  | aarch32ExceptionEntry
  /-- Raised by the A32 and T32 ERET in a mode whose SPSR the spec does not name (30_encoding.md R119; 60_exceptions.md R201). -/
  | aarch32Return
  /-- Raised by instructions that read or write PC or PSTATE directly, in Debug state (61_debug_pmu_trace.md R308). -/
  | pcOrPstateInDebugState
  /-- Raised by MRC with destination 15 in Debug state (44_aarch32.md R184; 93_implementation_defined.md U5). -/
  | mrcApsrInDebugState
  /-- Raised by the step: MOVPRFX and the next instruction do not pair legally (43_fp_sve_sme.md R173). -/
  | movprfxIllegalPair
  /-- Raised by a Warm reset into AArch32 state, which the spec does not give (70_reset_and_hazards.md R326, R327). -/
  | aarch32Reset
  /-- Raised by an SME instruction that its check lets run: the spec gives none an effect (43_fp_sve_sme.md R167). -/
  | smeNotInSpec
  /-- Raised by the writeback and exclusive forms whose registers coincide, which the spec calls CONSTRAINED
  UNPREDICTABLE without listing outcomes (45_base_subset.md R193, R195; 93_implementation_defined.md U1). -/
  | unpredictable
  deriving DecidableEq, Repr

/-- How a step or a meaning ends. -/
abbrev Result := Host.Outcome State Fault Refusal

/-- A computation inside a meaning: it goes on with a value and a state, or the instruction ends there (an exception
taken, a stop). -/
inductive Acc (α : Type) where
  | ok (a : α) (s : State)
  | stop (r : Result)

/-- Which of the four entries of a vector group an exception uses (60_exceptions.md R200). -/
inductive VectorKind where
  | sync | irq | fiq | serror
  deriving DecidableEq, Repr

/-- An exception to take: where to, the syndrome, the preferred return address, the fault addresses
(60_exceptions.md R200). -/
structure ExcReq where
  target : EL
  kind : VectorKind
  ec : BitVec 6
  iss : BitVec 25
  ret : Word
  far : Option Word
  hpfar : Option Word
  /-- The exception is of a 16-bit instruction. -/
  narrow : Bool := false
  deriving DecidableEq, Repr

/-- The implementation that `State.reset` is a machine of (DESIGN CHOICE: the spec fixes none; log entry 1). -/
def config : Config where
  feats := [
    .AES, .AMU_EXT64, .AMUv1, .BBM, .CONSTPACFIELD, .CSV2, .CSV2_1p1, .CSV2_2, .CSV2_3, .Debugv8p2, .DoPD,
    .ECV, .EDHSR, .ETEv1p1, .ETS2, .ExS, .F64MM, .FGT, .FPAC, .FPACCOMBINE, .IDST, .LPA, .LVA, .MEC, .MOPS,
    .MTE, .MTE2, .MTPMU, .NMI, .NV, .NV2, .PAN3, .PAuth, .PAuth_LR, .PCSRv8p2, .PMULL, .PMUv3, .PMUv3_EXT,
    .PMUv3p5, .PMUv3p7, .RAS, .RASv1p1, .RME, .RNG, .RNG_TRAP, .S2FWB, .SHA3, .SME, .SME2, .SPE, .SPEv1p1,
    .SPEv1p2, .SPEv1p3, .SVE, .SVE2, .SVE_AES, .SVE_PMULL128, .SVE_SHA3, .VHE, .WFxT, .IESB, .DoubleFault]
  hasEL2 := true
  hasEL3 := true
  el3AArch32 := false
  paSize := 52
  resetAddress := 0
  aarch32 := [.el0, .el1, .el2, .el3]
  aarch64 := [.el0, .el1, .el2, .el3]
  memMap := [⟨0, 2 ^ 52, .normalWB, true, none⟩]
  ergLog2 := 6
  bigEndian := []
  exceptionReturnSynchronizes := none
  finalPAAbort32 := true
  mecidEl2AccessJa := true
  unalignedSyncWB := false
  ls64PerStage := false
  tid3TrapsRaz := []
  tid3TrapsUnallocated := false
  stzgmFarLowest := false
  cmoNop := false
  cmowFaultWhenNop := false
  wptvWhenExact := false
  deviceUnalignedFaults := false
  nonShareableTagged := false
  timerRootSecureOnly := false
  timerRootRealmNS := false
  spePredZeroing := false
  maxVL := 2048
  maxSVL := 2048
  ccsidr := [(0, 0x700fe03a), (1, 0x200fe01a), (2, 0x707fe03a)]
  pmuCounters := 6
  pmuEvents := [0x000B, 0x001C, 0x0023, 0x0024, 0x002F, 0x003D, 0x003E, 0x005E, 0x005F, 0x0081,
    0x0082, 0x0083, 0x0084, 0x0086, 0x0087, 0x0088, 0x008A, 0x008B, 0x008C, 0x008D, 0x008E, 0x008F,
    0x803D, 0x803E, 0x803F, 0x805D, 0x805E, 0x805F, 0x8075, 0x8174, 0x8190, 0x8194]
  pmuReduceA32 := []
  pmuOtherPEs := false
  pmuOtherPEsMT := false
  multithreaded := false
  stallBackendAlways := false
  stallBothCounted := true
  edacrPreserved := false
  edacrCoreDomain := true
  brbImpDef := []
  extImpDef := .error
  pmbptrRes0 := 0
  trbptrRes0 := 0
  bbmLevel0 := false

/-- The System registers after reset: zero where the spec gives no value (log entry 2), the family's and the chosen
implementation's values for the ones written here (log entries 1 and 3). -/
def resetSys : Vector Word sysRegCount :=
  (Vector.replicate sysRegCount 0)
    |>.set (SysReg.MECIDR_EL2.ctorIdx) 0xf (by decide)
    |>.set (SysReg.RMR_EL3.ctorIdx) 0x1 (by decide)
    |>.set (SysReg.MPIDR_EL1.ctorIdx) 0x80000000 (by decide)
    |>.set (SysReg.CTR_EL0.ctorIdx) 0x8444c004 (by decide)
    |>.set (SysReg.DCZID_EL0.ctorIdx) 0x4 (by decide)
    |>.set (SysReg.CLIDR_EL1.ctorIdx) 0x9200003 (by decide)
    |>.set (SysReg.GMID_EL1.ctorIdx) 0x4 (by decide)
    |>.set (SysReg.ID_MMFR5_EL1.ctorIdx) 0x2 (by decide)
    |>.set (SysReg.ID_AA64MMFR1_EL1.ctorIdx) 0x2000000000 (by decide)
    |>.set (SysReg.ID_AA64MMFR2_EL1.ctorIdx) 0x2000000 (by decide)

/-- The machine right after reset (70_reset_and_hazards.md R327 to R330, 92_eei_decisions.md D10). -/
def State.reset : State where
  cfg := config
  x := .replicate 31 0
  sp := .replicate 4 0
  pc := config.resetAddress
  ps := { n := false, z := false, c := false, v := false, d := true, a := true, i := true, f := true, ss := false,
          il := false, pan := false, uao := false, ssbs := false, dit := false, tco := false, allint := false,
          sm := false, za := false, pacm := false, btype := 0, el := .el3, spsel := true, nRW := false, t := false,
          m32 := 0 }
  sys := resetSys
  pmevcntr := .replicate 31 0
  pmevtyper := .replicate 31 0
  brbsrc := .replicate 32 0
  brbtgt := .replicate 32 0
  brbinf := .replicate 32 0
  brbEntry := none
  brbTimestamp := 0
  trcacvr := .replicate 16 0
  z := .replicate 32 0
  p := .replicate 16 0
  ffr := 0
  za := .replicate 256 0
  zt0 := 0
  mem := []
  tags := []
  tlb := []
  gptTlb := []
  exLocal := none
  exGlobal := none
  exTlbi := false
  predictions := []
  eventReg := false
  waiting := none
  intr := ⟨false, false, false, false, false, false, false, false, false, false⟩
  stale := []
  warmReset := .none
  resetSeq := .none
  movprfx := none
  pend := []
  pendCtl := []
  counted := []
  dbg := { edscr := 0x3C02, edprsr := 0, edacr := 0, eddfr := 0, eddfr1 := 0, edpfr := 0, edaa32pfr := 0, edwar := 0,
           eddevid1 := 0x10, edhsr := 0, amdevarch := 0x47700A67, extPmcr := 0, response := none,
           corePowered := true, doubleLock := false, rootDebug := false, traceAccess := false, itr := [],
           watchpoints := [], breakpoints := [], vectorCatch := [], softwareStep := false }
  a32 := ⟨0, 0, 0, .replicate 4 0, 0, 0, 0, 0, 0, 0, 0⟩
  frames := { cntcr := 0, cntsr := 0, cntid := 0, cntscr := 0, cnttidr := 0, cntnsar := 0, cntfid := [],
              controlId := .replicate 12 0, baseId := .replicate 12 0, cntfrq := 0, cntacr := .replicate 8 0,
              cntel0acr := .replicate 8 0, cntvoff := .replicate 8 0, pctl := .replicate 8 0, pcval := .replicate 8 0,
              vctl := .replicate 8 0, vcval := .replicate 8 0 }
  err := [⟨0, 0⟩]
  profileFault := none
  traceFault := none
  agents := []
  count := 0
  devLog := []
  offTop := false
  free := 0

end Sys2Proof.Machine
end

