-- ==== Sys2Proof/Machine/Context.lean ====
section
/-! DEFINITION. What the PE is: features, Exception levels, Security states, the registers and the Effective values
of the fields that control execution (60_exceptions.md R196, 10_state.md R53). Bit positions that the source does not
print are PRESUMED (log entry 8). -/

namespace Sys2Proof.Machine

/-- `IsFeatureImplemented(FEAT_x)` (00_scope.md R9). -/
def has (f : Feature) (s : State) : Bool := s.cfg.feats.contains f

/-- `HaveAArch64(el)` and `HaveAArch32(el)` (00_scope.md R9). -/
def haveA64 (el : EL) (s : State) : Bool := s.cfg.aarch64.contains el

/-- `HaveAArch32(el)`. -/
def haveA32 (el : EL) (s : State) : Bool := s.cfg.aarch32.contains el

/-- EL3 uses AArch32: by the parameter, or because it supports nothing else. -/
def el3A32 (s : State) : Bool := haveA32 .el3 s && (s.cfg.el3AArch32 || !haveA64 .el3 s)

/-- The number of an Exception level. -/
def elNum : EL → Nat
  | .el0 => 0
  | .el1 => 1
  | .el2 => 2
  | .el3 => 3

/-- `HaveEL(el)`. -/
def haveEL (el : EL) (s : State) : Bool :=
  match el with
  | .el2 => s.cfg.hasEL2
  | .el3 => s.cfg.hasEL3
  | _ => true

/-- `HighestEL` (92_eei_decisions.md D10). -/
def highestEL (s : State) : EL := if s.cfg.hasEL3 then .el3 else if s.cfg.hasEL2 then .el2 else .el1

/-- The place of a System register. -/
def sysIdx (r : SysReg) : Nat := r.ctorIdx

/-- The value a System register holds: what a direct read gives. -/
def sreg (s : State) (r : SysReg) : Word := s.sys.getD (sysIdx r) 0

/-- The old values of writes to a register that are not yet synchronised. -/
def pendingOf {α : Type} [DecidableEq α] (r : α) : List (α × Word) → List Word
  | [] => []
  | (q, v) :: rest => if q = r then v :: pendingOf r rest else pendingOf r rest

/-- What an indirect read sees of a register that holds `now`: that, or, while a write to it is not synchronised, that or a value
from before (70_reset_and_hazards.md R323, R324). -/
def seenIndirectly (old : List Word) (now : Word) (site : Site) (s : State) : Word :=
  match old with
  | [] => now
  | v :: vs =>
    if Config.freeBool site s.free then now
    else (v :: vs).getD ((Config.freeWord site s.free).toNat % (vs.length + 1)) v

/-- What an indirect read of a System register sees. -/
def ireg (s : State) (r : SysReg) : Word := seenIndirectly (pendingOf r s.pend) (sreg s r) (.indirect r) s

/-- The value that a control register beside the System registers holds. -/
def ctlReg (s : State) (r : CtlReg) : Word :=
  match r with
  | .cpacr => s.a32.cpacr.setWidth 64
  | .nsacr => s.a32.nsacr.setWidth 64
  | .hcr => s.a32.hcr.setWidth 64
  | .hcptr => s.a32.hcptr.setWidth 64
  | .hstr => s.a32.hstr.setWidth 64
  | .scr => s.a32.scr.setWidth 64
  | .sdcr => s.a32.sdcr.setWidth 64
  | .pmevtyper n => s.pmevtyper[n]

/-- What an indirect read of it sees. -/
def ictl (s : State) (r : CtlReg) : Word := seenIndirectly (pendingOf r s.pendCtl) (ctlReg s r) (.indirectCtl r) s

/-- One bit of it. -/
def ictlBit (s : State) (r : CtlReg) (n : Nat) : Bool := bitAt (ictl s r) n

/-- The System registers as indirect reads see them now. -/
def viewSys (s : State) : Vector Word sysRegCount :=
  s.pend.foldl (fun v e => v.setIfInBounds (sysIdx e.1) (ireg s e.1)) s.sys

/-- One bit of a register, read indirectly. -/
def ibit (s : State) (r : SysReg) (n : Nat) : Bool := bitAt (ireg s r) n

/-- EL2 is enabled in the current Security state: `SCR_EL3.{NS, EEL2} != {0, 0}` (60_exceptions.md R244). -/
def el2Enabled (s : State) : Bool :=
  s.cfg.hasEL2 && (!s.cfg.hasEL3 || ibit s .SCR_EL3 0 || ibit s .SCR_EL3 18)

/-- A bit of HCR_EL2 that is implemented: E2H, bit [34], with FEAT_VHE; NV [42], NV1 [43] and AT [44] with FEAT_NV, NV2 [45]
with FEAT_NV2 (10_state.md R56, R57). -/
def hcrImplemented (n : Nat) (s : State) : Bool :=
  if n = 34 then has .VHE s
  else if n = 42 ∨ n = 43 ∨ n = 44 then has .NV s
  else if n = 45 then has .NV2 s
  else true

/-- The Effective value of a bit of HCR_EL2: 0 when it is not implemented or EL2 is not enabled, but for ATA, bit [56], which
is then 1 (10_state.md R53). -/
def hcr (s : State) (n : Nat) : Bool :=
  if el2Enabled s then hcrImplemented n s && ibit s .HCR_EL2 n else n == 56

/-- `HCR_EL2.{E2H, TGE} == {1, 1}`, Effective (10_state.md R56: only with FEAT_VHE). -/
def e2hTge (s : State) : Bool := hcr s 34 && hcr s 27

/-- The Execution state of an Exception level: the current one by PSTATE.nRW, others by the parameters and RW bits. -/
def elUsesA32 (el : EL) (s : State) : Bool :=
  if el = s.ps.el then s.ps.nRW
  else
    let by3 := el3A32 s || (s.cfg.hasEL3 && !ibit s .SCR_EL3 10)
    haveA32 el s && (!haveA64 el s ||
      (match el with
       | .el3 => el3A32 s
       | .el2 => by3
       | .el1 => by3 || (el2Enabled s && !ibit s .HCR_EL2 31 && !e2hTge s)
       | .el0 => s.ps.nRW))

/-- The Security state of the levels below EL3, by SCR_EL3.{NSE, NS} (20_memory.md R58). DESIGN CHOICE (log entry 57): a
PE without EL3 is in Non-secure state, and the reserved value {1, 0} reads as Secure; the spec states neither. -/
def lowerSpace (s : State) : Space :=
  if !s.cfg.hasEL3 then .nonSecure
  else match has .RME s && ibit s .SCR_EL3 62, ibit s .SCR_EL3 0 with
    | true, true => .realm
    | _, true => .nonSecure
    | _, false => .secure

/-- `ValidSecurityStateAtEL(ELx)` below EL3: {NSE, NS} == {1, 0} is reserved (41_system_instructions.md R154). -/
def validLowerState (s : State) : Bool := !(has .RME s && ibit s .SCR_EL3 62 && !ibit s .SCR_EL3 0)

/-- `SecurityStateAtEL(el)`: EL3 is in Root state with FEAT_RME, else in Secure state. -/
def spaceAt (el : EL) (s : State) : Space :=
  if el = .el3 then (if has .RME s then .root else .secure) else lowerSpace s

/-- `CurrentSecurityState()`. -/
def curSpace (s : State) : Space := spaceAt s.ps.el s

/-- `Halted()`: EDSCR.STATUS is neither restarting nor Non-debug (61_debug_pmu_trace.md R296). -/
def halted (s : State) : Bool :=
  !(field s.dbg.edscr 0 6 == 0b000001#6 || field s.dbg.edscr 0 6 == 0b000010#6)

/-- `EL3SDDUndef()` (61_debug_pmu_trace.md R315): EDSCR.SDD is bit [16]. -/
def el3SddUndef (s : State) : Bool := halted s && bitAt s.dbg.edscr 16

/-- `EL3SDDUndefPriority()` (61_debug_pmu_trace.md R315): the same condition, where the UNDEFINED exception comes before the
other checks of a trap; which of them has priority is free (log entry 86: the body is not printed). -/
def el3SddUndefPriority (s : State) : Bool := el3SddUndef s && Config.freeBool .el3SddPriority s.free

/-- `IsInHost()`: EL2&0 is the regime of the current level. -/
def inHost (s : State) : Bool :=
  match s.ps.el with
  | .el0 => e2hTge s
  | .el2 => hcr s 34
  | _ => false

/-- The translation regime of an Exception level. -/
def regimeOf (el : EL) (s : State) : Regime :=
  match el with
  | .el3 => .el3
  | .el2 => if hcr s 34 then .el20 else .el2
  | .el1 => .el10
  | .el0 => if e2hTge s then .el20 else .el10

/-- The current translation regime. -/
def regime (s : State) : Regime := regimeOf s.ps.el s

/-- A regime with two VA ranges, which is one that has unprivileged accesses. -/
def twoRanges : Regime → Bool
  | .el10 => true
  | .el20 => true
  | _ => false

/-- The SCTLR_ELx of a regime (10_state.md R24). -/
def sctlrOf : Regime → SysReg
  | .el10 => .SCTLR_EL1
  | .el20 => .SCTLR_EL2
  | .el2 => .SCTLR_EL2
  | .el3 => .SCTLR_EL3

/-- A bit of the SCTLR_ELx of the current regime. -/
def sctlr (s : State) (n : Nat) : Bool := ibit s (sctlrOf (regime s)) n

/-- The TCR_ELx of a regime. -/
def tcrOf : Regime → SysReg
  | .el10 => .TCR_EL1
  | .el20 => .TCR_EL2
  | .el2 => .TCR_EL2
  | .el3 => .TCR_EL3

/-- TCR2_ELx of a regime. -/
def tcr2Of : Regime → SysReg
  | .el10 => .TCR2_EL1
  | _ => .TCR2_EL2

/-- The machine as an access sees it that uses this value of TCR_ELx (20_memory.md R106). -/
def withTcr (v : Word) (s : State) : State :=
  { s with
    sys := s.sys.setIfInBounds (sysIdx (tcrOf (regime s))) v
    pend := s.pend.filter fun e => e.1 != tcrOf (regime s) }

/-- The SCTLR_ELx of an Exception level that an exception is taken to. -/
def sctlrAt : EL → SysReg
  | .el2 => .SCTLR_EL2
  | .el3 => .SCTLR_EL3
  | _ => .SCTLR_EL1

/-- Bits of TCR_ELx by VA range: (two ranges and upper, two ranges and lower, one range). -/
def tcrBit (s : State) (r : Regime) (upper : Bool) (hi lo one : Nat) : Bool :=
  ibit s (tcrOf r) (if twoRanges r then (if upper then hi else lo) else one)

/-- "Address tagging is used": TCR_ELx.TBI for the VA range (40_pauth_bti.md R132). Which TBI bit decides is not in the source: that
address bit [55] chooses TBI1 or TBI0, where bit [63] chooses n too, and alike for instruction and data keys, is a DESIGN CHOICE (log
entry 99). -/
def tbi (s : State) (r : Regime) (va : Word) : Bool := tcrBit s r (bitAt va 55) 38 37 20

/-- TCR_ELx.MTX for the VA range (20_memory.md R91). -/
def mtx (s : State) (r : Regime) (va : Word) : Bool := tcrBit s r (bitAt va 55) 61 60 33

/-- TCR_ELx.TCMA for the VA range (20_memory.md R84). -/
def tcma (s : State) (r : Regime) (va : Word) : Bool := tcrBit s r (bitAt va 55) 58 57 30

/-- Allocation Tag access is enabled: SCR_EL3.ATA, the Effective HCR_EL2.ATA at EL0 and EL1, SCTLR_ELx.ATA or ATA0
(20_memory.md R79, R70; 60_exceptions.md R227; 10_state.md R53). -/
def tagAccess (s : State) : Bool :=
  has .MTE2 s &&
  (s.ps.el == .el3 || !s.cfg.hasEL3 || ibit s .SCR_EL3 26) &&
  (!(s.ps.el == .el0 || s.ps.el == .el1) || hcr s 56) &&
  sctlr s (if s.ps.el = .el0 then 42 else 43)

/-- The selected stack pointer: SP_EL0, or the one of the current level (10_state.md R47). -/
def spIdx (s : State) : Fin 4 :=
  if s.ps.spsel then (match s.ps.el with | .el0 => 0 | .el1 => 1 | .el2 => 2 | .el3 => 3) else 0

/-- M[3:0] of an SPSR for the current state: Exception level and stack pointer (10_state.md R46), or the AArch32 mode. -/
def modeBits (s : State) : BitVec 4 :=
  if s.ps.nRW then s.ps.m32
  else match s.ps.el, s.ps.spsel with
    | .el0, _ => 0b0000
    | .el1, false => 0b0100
    | .el1, true => 0b0101
    | .el2, false => 0b1000
    | .el2, true => 0b1001
    | .el3, false => 0b1100
    | .el3, true => 0b1101

/-- The Effective SVE vector length in bits, by ZCR_ELx.LEN of the level and the levels above (60_exceptions.md R254):
the largest multiple of 128 the implementation has that no control excludes. -/
def vl (s : State) : Nat :=
  let lenOf (r : SysReg) : Nat := 128 * ((field (ireg s r) 0 4).toNat + 1)
  let sLen (r1 r2 r3 : SysReg) (most : Nat) : Nat :=
    let a := if (s.ps.el = .el0 || s.ps.el = .el1) && !inHost s then min most (lenOf r1) else most
    let b := if s.ps.el = .el3 then a
             else if inHost s || s.ps.el = .el2 || el2Enabled s then min a (lenOf r2) else a
    if s.cfg.hasEL3 then min b (lenOf r3) else b
  if s.ps.sm then sLen .SMCR_EL1 .SMCR_EL2 .SMCR_EL3 s.cfg.maxSVL
  else sLen .ZCR_EL1 .ZCR_EL2 .ZCR_EL3 s.cfg.maxVL

end Sys2Proof.Machine
end

