-- ==== Sys2Proof/Machine/Ops.lean ====
section
/-! DEFINITION. The named operations over registers and memory, taking an exception and returning from one
(10_state.md R16 to R18, R47, R54; 60_exceptions.md R200, R201). -/

namespace Sys2Proof.Machine

/-! ### Sequencing -/

/-- Go on with the value and the state of a computation, or end where it ended. -/
def Acc.andThen {α : Type} (m : Acc α) (k : α → State → Result) : Result :=
  match m with
  | .ok a s => k a s
  | .stop r => r

/-- The same, staying inside a computation. -/
def Acc.bind {α β : Type} (m : Acc α) (k : α → State → Acc β) : Acc β :=
  match m with
  | .ok a s => k a s
  | .stop r => .stop r

/-! ### General registers -/

/-- `x[n]`, register 31 read as zero (92_eei_decisions.md D2). -/
def readX (n : BitVec 5) (s : State) : Word := if n = 31 then 0 else s.x.getD n.toNat 0

/-- `x[n] <- v`, a write of register 31 discarded. -/
def writeX (n : BitVec 5) (v : Word) (s : State) : State :=
  if n = 31 then s else { s with x := s.x.setIfInBounds n.toNat v }

/-- The current stack pointer (10_state.md R47). -/
def readSP (s : State) : Word := s.sp[spIdx s]

/-- Write the current stack pointer. -/
def writeSP (v : Word) (s : State) : State := { s with sp := s.sp.set (spIdx s) v }

/-- `x[n]`, register 31 being the stack pointer. -/
def readXSP (n : BitVec 5) (s : State) : Word := if n = 31 then readSP s else readX n s

/-- `x[n] <- v`, register 31 being the stack pointer. -/
def writeXSP (n : BitVec 5) (v : Word) (s : State) : State := if n = 31 then writeSP v s else writeX n v s

/-- The W view of a register: its low 32 bits. -/
def readW (n : BitVec 5) (s : State) : Half := (readX n s).setWidth 32

/-- A W write: bits [63:32] become zero. -/
def writeW (n : BitVec 5) (v : Half) (s : State) : State := writeX n (v.setWidth 64) s

/-- The X register that holds AArch32 `R[n]` in the current mode. -/
def a32Index (n : BitVec 4) (s : State) : BitVec 5 :=
  let m := s.ps.m32
  if n = 13 then
    if m = 0b0011 then 19 else if m = 0b0111 then 21 else if m = 0b1011 then 23 else if m = 0b0010 then 17
    else if m = 0b0001 then 29 else if m = 0b1010 then 15 else 13
  else if n = 14 then
    if m = 0b0011 then 18 else if m = 0b0111 then 20 else if m = 0b1011 then 22 else if m = 0b0010 then 16
    else if m = 0b0001 then 30 else 14
  else if m = 0b0001 ∧ 8 ≤ n.toNat ∧ n.toNat ≤ 12 then n.setWidth 5 + 16
  else n.setWidth 5

/-- `R[n]`: 32 bits; register 15 reads as the address of the instruction plus 8. -/
def readR (n : BitVec 4) (s : State) : Half :=
  if n = 15 then s.pc.setWidth 32 + 8 else (readX (a32Index n s) s).setWidth 32

/-- `R[n] <- v`: the low half of the X register; the upper half is unchanged. -/
def writeR (n : BitVec 4) (v : Half) (s : State) : State :=
  if n = 15 then s else writeX (a32Index n s) (withLow32 (readX (a32Index n s) s) v) s

/-! ### The program counter -/

/-- The end of an instruction that does not branch: pc moves on by 4 (not in Debug state), PSTATE.BTYPE becomes 0
(92_eei_decisions.md D3, 40_pauth_bti.md R136). -/
def advance (s : State) : State :=
  if halted s then { s with ps := { s.ps with btype := 0 } }
  else if s.ps.nRW then
    { s with pc := ((s.pc + 4).setWidth 32).setWidth 64, ps := { s.ps with btype := 0 },
             offTop := s.offTop || s.pc.setWidth 32 == 0xFFFFFFFC#32 }
  else { s with pc := s.pc + 4, ps := { s.ps with btype := 0 }, offTop := s.offTop || s.pc == 0xFFFFFFFFFFFFFFFC#64 }

/-- The end of a 16-bit T32 instruction that does not branch: pc moves on by 2. -/
def advanceNarrow (s : State) : State :=
  if halted s then { s with ps := { s.ps with btype := 0 } }
  else { s with pc := ((s.pc + 2).setWidth 32).setWidth 64, ps := { s.ps with btype := 0 },
                offTop := s.offTop || s.pc.setWidth 32 == 0xFFFFFFFE#32 }

/-- The end of an instruction of either length. -/
def advanceOf (narrow : Bool) (s : State) : State := if narrow then advanceNarrow s else advance s

/-- A branch: the pc and the BTYPE it leaves. -/
def branchTo (target : Word) (btype : BitVec 2) (s : State) : State :=
  { s with pc := target, ps := { s.ps with btype := btype } }

/-! ### System registers -/

/-- Registers whose writes are seen in program order: they need no Context synchronization event (log entry 20). -/
def selfSynchronising : SysReg → Bool
  | .SPSR_EL1 => true
  | .SPSR_EL2 => true
  | .SPSR_EL3 => true
  | .ELR_EL1 => true
  | .ELR_EL2 => true
  | .ELR_EL3 => true
  | .ESR_EL1 => true
  | .ESR_EL2 => true
  | .ESR_EL3 => true
  | .FAR_EL1 => true
  | .FAR_EL2 => true
  | .FAR_EL3 => true
  | .HPFAR_EL2 => true
  | .PAR_EL1 => true
  | .FPCR => true
  | .FPSR => true
  | .DLR_EL0 => true
  | .DSPSR_EL0 => true
  | .RMR_EL1 => true
  | .RMR_EL2 => true
  | .RMR_EL3 => true
  | _ => false

/-- A System register made to hold a value. -/
def setReg (r : SysReg) (v : Word) (s : State) : State := { s with sys := s.sys.setIfInBounds (sysIdx r) v }

/-- A write by MSR: indirect reads may still see the old value (70_reset_and_hazards.md R324). -/
def writeReg (r : SysReg) (v : Word) (s : State) : State :=
  let t := setReg r v s
  if selfSynchronising r then t else { t with pend := (r, sreg s r) :: s.pend }

/-- Set a control register beside the System registers. -/
def setCtl (r : CtlReg) (v : Word) (s : State) : State :=
  match r with
  | .cpacr => { s with a32 := { s.a32 with cpacr := v.setWidth 32 } }
  | .nsacr => { s with a32 := { s.a32 with nsacr := v.setWidth 32 } }
  | .hcr => { s with a32 := { s.a32 with hcr := v.setWidth 32 } }
  | .hcptr => { s with a32 := { s.a32 with hcptr := v.setWidth 32 } }
  | .hstr => { s with a32 := { s.a32 with hstr := v.setWidth 32 } }
  | .scr => { s with a32 := { s.a32 with scr := v.setWidth 32 } }
  | .sdcr => { s with a32 := { s.a32 with sdcr := v.setWidth 32 } }
  | .pmevtyper n => { s with pmevtyper := s.pmevtyper.set n v }

/-- A write of one by an instruction: indirect reads may still see the old value (70_reset_and_hazards.md R324). -/
def writeCtl (r : CtlReg) (v : Word) (s : State) : State := { setCtl r v s with pendCtl := (r, ctlReg s r) :: s.pendCtl }

/-- `SynchronizeContext()`: all writes to System registers are seen (70_reset_and_hazards.md R323); code whose
maintenance is complete can be fetched (92_eei_decisions.md D7); a requested Warm reset is synchronised (R326); the writes
that were counted are over (61_debug_pmu_trace.md R266, R267). -/
def syncContext (s : State) : State :=
  { s with
    pend := []
    pendCtl := []
    counted := []
    stale := s.stale.filter fun e => e.2 != .invalidComplete
    warmReset := if s.warmReset = .requested then .synchronised else s.warmReset }

/-- The value of CTR_EL0: where DIC, bit [29], is 1 the value of IDC, bit [28], is 1 too (10_state.md R38). -/
def ctrValue (s : State) : Word :=
  setBit (sreg s .CTR_EL0) 28 (bitAt (sreg s .CTR_EL0) 28 || bitAt (sreg s .CTR_EL0) 29)

/-- The pointer registers' bits [M-1:0] that are RES0 (61_debug_pmu_trace.md R280). -/
def pointerValue (m : Nat) (v : Word) : Word := v &&& ~~~(maskOf 64 0 m)

/-! ### Performance monitor counts -/

/-- The number of event counters accessible at EL1: MDCR_EL2.HPMN, bits [4:0], when EL2 is enabled. -/
def pmn (s : State) : Nat :=
  if el2Enabled s then (field (ireg s .MDCR_EL2) 0 5).toNat else s.cfg.pmuCounters

/-- What a read of PMCR_EL0 gives: P, bit [1], and C, bit [2], read as zero; N, bits [15:11], is the number of counters. -/
def pmcrValue (s : State) : Word :=
  copyBits (sreg s .PMCR_EL0 &&& ~~~0b110) (BitVec.ofNat 64 (s.cfg.pmuCounters <<< 11)) 11 16

/-- The resets that a write of any view of PMCR_EL0 makes: P clears the event counters, C the cycle counter. -/
def pmcrResets (v : Word) (s : State) : State :=
  let s1 := if bitAt v 1 then { s with pmevcntr := .replicate 31 0 } else s
  if bitAt v 2 then setReg .PMCCNTR_EL0 0 s1 else s1

/-- A write of PMCR_EL0: its resets, and the bits that hold a value. -/
def writePmcr (v : Word) (s : State) : State := writeReg .PMCR_EL0 (v &&& ~~~0b110) (pmcrResets v s)

/-- `PMCR_EL0.FZO == 1 && PMOVSCLR_EL0[(PMN-1):0] != 0` (61_debug_pmu_trace.md R269). -/
def frozenFZO (s : State) : Bool :=
  ibit s .PMCR_EL0 9 && (ireg s .PMOVSSET_EL0) &&& maskOf 64 0 (pmn s) != 0

/-- The counters accessible to EL1 are frozen by PMCR_EL0.FZS, bit [32]; when a Statistical Profiling management event does so is
free (61_debug_pmu_trace.md R270). -/
def frozenFZS (s : State) : Bool := ibit s .PMCR_EL0 32 && Config.freeBool .fzsFreeze s.free

/-- ID_AA64DFR1_EL1.DPFZS, bits [55:52]: 0 without FEAT_PMUv3p7 or FEAT_SPEv1p2 (61_debug_pmu_trace.md R270). -/
def dpfzs (s : State) : BitVec 4 :=
  if has .PMUv3p7 s && has .SPEv1p2 s then field (sreg s .ID_AA64DFR1_EL1) 52 4 else 0

/-- The printed part of `CountPMUEvents`: prohibited in Secure state and at EL3 (61_debug_pmu_trace.md R321, R320). `cycle`
asks about the cycle counter, which stops with the event counters when PMCR_EL0.DP, bit [5], is 1 (R268). -/
def pmuProhibited (cycle : Bool) (s : State) : Bool :=
  let el3Like := s.cfg.hasEL3 && (curSpace s == .secure || s.ps.el == .el3)
  let spme := el3Like &&
    (if !el3A32 s then !ibit s .MDCR_EL3 17 && has .PMUv3p7 s && !ibit s .MDCR_EL3 35
     else !ictlBit s .sdcr 17)
  let sccd := has .PMUv3p5 s && cycle && el3Like &&
    (if !s.cfg.aarch64.isEmpty then ibit s .MDCR_EL3 23 else ictlBit s .sdcr 23)
  let mccd := has .PMUv3p7 s && cycle && s.cfg.hasEL3 && s.ps.el == .el3 && !el3A32 s &&
    (ibit s .MDCR_EL3 23 || ibit s .MDCR_EL3 34)
  (spme && (!cycle || ibit s .PMCR_EL0 5)) || sccd || mccd

/-- Event counter `n` counts an event now: enabled, not frozen, not prohibited (61_debug_pmu_trace.md R269, R270, R321);
what the source elides is free. -/
def counterCounts (n : Nat) (s : State) : Bool :=
  decide (n < s.cfg.pmuCounters) && ibit s .PMCR_EL0 0 && ibit s .PMCNTENSET_EL0 n &&
    !((frozenFZO s || frozenFZS s) && decide (n < pmn s)) && !pmuProhibited false s &&
    Config.freeBool (.pmuElided n) s.free

/-- PMCCNTR_EL0 counts now (61_debug_pmu_trace.md R268 to R270, R320). -/
def cycleCounterCounts (s : State) : Bool :=
  let dp := ibit s .PMCR_EL0 5
  ibit s .PMCR_EL0 0 && ibit s .PMCNTENSET_EL0 31 &&
    !(frozenFZO s && dp) && !pmuProhibited true s && !(dp && dpfzs s == 0b0001#4 && frozenFZS s) &&
    Config.freeBool (.pmuElided 31) s.free

/-- PMEVTYPER<n>_EL0 as an indirect read sees it. -/
def eventType (n : Nat) (s : State) : Word := if h : n < 31 then ictl s (.pmevtyper ⟨n, h⟩) else 0

/-- Count an event in every event counter that selects it, of those that `here` says. -/
def countEventWhere (here : Nat → Bool) (event : BitVec 16) (s : State) : State :=
  if ibit s .PMCR_EL0 0 && s.cfg.pmuEvents.contains event then
    { s with pmevcntr := s.pmevcntr.mapIdx fun n v =>
        if here n && field (eventType n s) 0 16 == event && counterCounts n s then v + 1 else v }
  else s

/-- Count an event of the PE in every event counter that selects it (61_debug_pmu_trace.md R259, R260). -/
def countEvent (event : BitVec 16) (s : State) : State := countEventWhere (fun _ => true) event s

/-! ### Taking an exception -/

/-- PSTATE as an SPSR holds it (10_state.md R46; the other places are PRESUMED, log entry 8). -/
def spsrOf (s : State) : Word :=
  let p := s.ps
  bitTo 31 p.n ||| bitTo 30 p.z ||| bitTo 29 p.c ||| bitTo 28 p.v |||
    bitTo 21 p.ss ||| bitTo 20 p.il ||| bitTo 22 p.pan ||| bitTo 12 p.ssbs |||
    bitTo 8 p.a ||| bitTo 7 p.i ||| bitTo 6 p.f ||| fieldTo 0 (modeBits s) |||
    (if p.nRW then bitTo 24 p.dit ||| bitTo 5 p.t ||| bitTo 4 true
     else bitTo 35 p.pacm ||| bitTo 25 p.tco ||| bitTo 24 p.dit ||| bitTo 23 p.uao ||| bitTo 13 p.allint |||
       fieldTo 10 p.btype ||| bitTo 9 p.d)

/-- SPSR_ELx, ELR_ELx, ESR_ELx, FAR_ELx and VBAR_ELx of the level an exception is taken to. -/
def spsrReg : EL → SysReg
  | .el2 => .SPSR_EL2
  | .el3 => .SPSR_EL3
  | _ => .SPSR_EL1

/-- ELR_ELx. -/
def elrReg : EL → SysReg
  | .el2 => .ELR_EL2
  | .el3 => .ELR_EL3
  | _ => .ELR_EL1

/-- ESR_ELx. -/
def esrReg : EL → SysReg
  | .el2 => .ESR_EL2
  | .el3 => .ESR_EL3
  | _ => .ESR_EL1

/-- FAR_ELx. -/
def farReg : EL → SysReg
  | .el2 => .FAR_EL2
  | .el3 => .FAR_EL3
  | _ => .FAR_EL1

/-- VBAR_ELx. -/
def vbarReg : EL → SysReg
  | .el2 => .VBAR_EL2
  | .el3 => .VBAR_EL3
  | _ => .VBAR_EL1

/-- The vector offset: by where the exception comes from, then by its kind (60_exceptions.md R200). -/
def vectorOffset (target : EL) (kind : VectorKind) (s : State) : Word :=
  (if target = s.ps.el then (if s.ps.spsel then 0x200 else 0x000)
   else if s.ps.nRW then 0x600 else 0x400) +
  (match kind with
   | .sync => 0x000
   | .irq => 0x080
   | .fiq => 0x100
   | .serror => 0x180)

/-- Exception entry to `target` is a Context synchronization event (60_exceptions.md R204): SCTLR_ELx.EIS, bit [22], an
indirect read that comes before the event (70_reset_and_hazards.md R324). -/
def entrySynchronises (target : EL) (s : State) : Bool := !has .ExS s || ibit s (sctlrAt target) 22

/-- The registers as the indirect reads see them that build the target context of an exception entry: after the event, where it
is one (70_reset_and_hazards.md R323). -/
def entryContext (target : EL) (s : State) : State := if entrySynchronises target s then syncContext s else s

/-- The vector base of an exception entry, VBAR_ELx as the entry sees it (70_reset_and_hazards.md R323, R332). -/
def vectorBase (target : EL) (s : State) : Word := ireg (entryContext target s) (vbarReg target)

/-- PSTATE.PAN is set on entry to `target`, by SPAN, bit [23], as the entry sees it (60_exceptions.md R250). -/
def panOnEntry (target : EL) (s : State) : Bool :=
  s.ps.pan || (target == .el1 && !ibit (entryContext target s) .SCTLR_EL1 23) ||
    (s.ps.el == .el0 && target == .el2 && e2hTge (entryContext target s) && !ibit (entryContext target s) .SCTLR_EL2 23)

/-- The syndrome of a request: EC, IL (not a 16-bit instruction) and ISS. -/
def syndrome (r : ExcReq) : Word := fieldTo 26 r.ec ||| bitTo 25 (!r.narrow) ||| fieldTo 0 r.iss

/-- The event an exception counts as (61_debug_pmu_trace.md R260). The rule gives the numbers and names alone. DESIGN CHOICE (log
entry 92): an exception is taken locally where it is taken to EL1 or to the level it comes from; SVC, HVC and SMC count by their
class wherever they go; EXC_UNDEF and EXC_TRAP_OTHER count every synchronous exception of no other event; an SError counts none. -/
def exceptionEvent (r : ExcReq) (s : State) : Option (BitVec 16) :=
  let local_ := r.target == s.ps.el || r.target == .el1
  match r.kind with
  | .irq => some (if local_ then 0x86 else 0x8E)
  | .fiq => some (if local_ then 0x87 else 0x8F)
  | .serror => none
  | .sync =>
    if r.ec = 0x15 then some 0x82 else if r.ec = 0x16 then some 0x8A else if r.ec = 0x17 then some 0x88
    else if r.ec = 0x20 ∨ r.ec = 0x21 then some (if local_ then 0x83 else 0x8B)
    else if r.ec = 0x24 ∨ r.ec = 0x25 then some (if local_ then 0x84 else 0x8C)
    else if local_ then some 0x81 else some 0x8D

/-- The architectural events of 61_debug_pmu_trace.md R260: only an exception that is taken counts as one of them. -/
def exceptionEvents : List (BitVec 16) :=
  [0x0081, 0x0082, 0x0083, 0x0084, 0x0086, 0x0087, 0x0088, 0x008A, 0x008B, 0x008C, 0x008D, 0x008E, 0x008F]

/-- The saved registers of an exception entry. -/
def saveForException (r : ExcReq) (s : State) : State :=
  let s1 := setReg (spsrReg r.target) (spsrOf s) s
  let s2 := setReg (elrReg r.target) r.ret s1
  let s3 := if r.kind = .irq ∨ r.kind = .fiq then s2 else setReg (esrReg r.target) (syndrome r) s2
  let s4 := match r.far with
    | some a => setReg (farReg r.target) a s3
    | none => s3
  match r.hpfar with
  | some a => if r.target = .el2 then setReg .HPFAR_EL2 a s4 else s4
  | none => s4

/-- PSTATE after an exception entry (60_exceptions.md R200, R250). -/
def entryPState (target : EL) (s : State) : PState :=
  { s.ps with
    d := true, a := true, i := true, f := true, ss := false, il := false, btype := 0, nRW := false, t := false,
    el := target, spsel := true, pan := panOnEntry target s }

/-- From AArch32 state the upper halves of the X registers might become zero (60_exceptions.md R204). -/
def entryUpperHalves (s : State) : Vector Word 31 :=
  if s.ps.nRW then s.x.mapIdx fun n v => if Config.freeBool (.upperHalf n) s.free then (v.setWidth 32).setWidth 64 else v
  else s.x

/-! ### The branch record of an exception or an exception return -/

/-- The TYPE of an IMPLEMENTATION DEFINED exception to EL3 (61_debug_pmu_trace.md R288). -/
def brbTypeImpDef : BitVec 6 := 0b110000

/-- The TYPE of a branch record of an exception to EL3 or another level: the arms 61_debug_pmu_trace.md R310 prints, and R288's. -/
def brbExceptionType (target : EL) (ec : BitVec 6) (iss : BitVec 25) (s : State) : Option (BitVec 6) :=
  if target = .el3 ∧ s.cfg.brbImpDef.contains ec then some brbTypeImpDef
  else if ec = 0x0A then some 0b100011
  else if ec = 0x1E then some (if bitAt iss 20 then 0b101011 else 0b101100)
  else none

/-- The TYPE of the record of an exception: the one the spec prints for its class, else a parameter (61_debug_pmu_trace.md R288,
R310). -/
def brbTypeOf (r : ExcReq) (s : State) : BitVec 6 :=
  if r.kind = .sync then
    (brbExceptionType r.target r.ec r.iss s).getD (Config.brbOtherType (some r.target) (some r.ec))
  else Config.brbOtherType (some r.target) none

/-- Whether the source of a record is prohibited may use the registers of before or after the synchronisation
(61_debug_pmu_trace.md R293). -/
def brbSourceState (before after : State) : State := if Config.freeBool .brbeSource before.free then before else after

/-- A branch record is made of an exception or an exception return: the source is in no prohibited region by the registers of
before or after it, the target in none and the filter lets it be by the registers of after it (61_debug_pmu_trace.md R293). -/
def brbGenerates (type : BitVec 6) (before after : State) : Bool :=
  Config.branchRecordAllowed (viewSys (brbSourceState before after)) before.ps.el (curSpace before) &&
    Config.branchRecordAllowed (viewSys after) after.ps.el (curSpace after) && Config.branchFilter (viewSys after) type

/-- An exception or an exception return has taken the machine from `before` to `after`: the record it makes, if any, is due, with
its TYPE; the branch record buffer writes it at its next event (61_debug_pmu_trace.md R293; log entry 91). -/
def brbEntered (type : BitVec 6) (before after : State) : State :=
  { after with brbEntry := if brbGenerates type before after then some type else none }

/-- Taking an exception to an Exception level that uses AArch64 (60_exceptions.md R200, R204, R250;
92_eei_decisions.md D12). The SVE register bits above the vector length stay: R149 of 41_system_instructions.md names
`MaybeZeroSVEUppers`, whose code is not printed (DESIGN CHOICE, log entry 35). -/
def takeException (r : ExcReq) (s : State) : State :=
  let saved := saveForException r s
  let t := { saved with
    x := entryUpperHalves s
    pc := vectorBase r.target s + vectorOffset r.target r.kind s
    ps := entryPState r.target s
    movprfx := none }
  let u := brbEntered (brbTypeOf r s) s (if entrySynchronises r.target s then syncContext t else t)
  match exceptionEvent r s with
  | some e => countEvent e u
  | none => u

/-- An instruction or an event takes an exception. In Debug state the entry is the same and the PE stays in Debug state
(DESIGN CHOICE, log entry 64; 93_implementation_defined.md U50). To a level that uses AArch32 the spec does not give the
entry. -/
def raise (r : ExcReq) (s : State) : Result :=
  if elUsesA32 r.target s then .refused .aarch32ExceptionEntry else .next (takeException r s)

/-- An instruction whose behaviour is CONSTRAINED UNPREDICTABLE and that the model refuses under a name: where a trap or an
enable applies to it, it is a draw whether that fires (60_exceptions.md R213, 93_implementation_defined.md U28). -/
def unpredictable (trap : Option Result) (own : Refusal) (s : State) : Result :=
  match trap with
  | some r => if Config.freeBool .trapOfUnpredictable s.free then r else .refused own
  | none => .refused own

/-- Where an exception that an instruction causes at the current level goes: EL0 has none of its own; from EL0 to EL1,
or to EL2 when HCR_EL2.TGE is 1. -/
def ownTarget (s : State) : EL :=
  match s.ps.el with
  | .el0 => if hcr s 27 then .el2 else .el1
  | el => el

/-- A synchronous exception of the current instruction, its address the return address. -/
def syncExc (target : EL) (ec : BitVec 6) (iss : BitVec 25) (s : State) : ExcReq :=
  { target, kind := .sync, ec, iss, ret := s.pc, far := none, hpfar := none }

/-- `UNDEFINED`: an Undefined Instruction exception, EC 0x00 (60_exceptions.md R198). -/
def undefined (s : State) : Result := raise (syncExc (ownTarget s) 0x00 0 s) s

/-- The ISS of a trapped MSR or MRS: the register's name, Rt and the direction. -/
def sysTrapIss (op0 : BitVec 2) (op1 : BitVec 3) (crn crm : BitVec 4) (op2 : BitVec 3) (rt : BitVec 5) (read : Bool) :
    BitVec 25 :=
  ((fieldTo 20 op0 ||| fieldTo 17 op2 ||| fieldTo 14 op1 ||| fieldTo 10 crn ||| fieldTo 5 rt ||| fieldTo 1 crm |||
    bitTo 0 read : Word)).setWidth 25

/-! ### Exception return -/

/-- The Exception level and stack pointer that M[3:0] names, for an SPSR of `by` (10_state.md R46); `none` if it is
reserved there. -/
def modeTarget (m : BitVec 4) : Option (EL × Bool) :=
  if m = 0b0000 then some (.el0, false)
  else if m = 0b0100 then some (.el1, false)
  else if m = 0b0101 then some (.el1, true)
  else if m = 0b1000 then some (.el2, false)
  else if m = 0b1001 then some (.el2, true)
  else if m = 0b1100 then some (.el3, false)
  else if m = 0b1101 then some (.el3, true)
  else none

/-- The Exception level of an AArch32 mode that the spec can be returned to: User is EL0, Hyp EL2, the others EL1. -/
def modeTarget32 (m : BitVec 4) : EL := if m = 0b0000 then .el0 else if m = 0b1010 then .el2 else .el1

/-- An exception return with this SPSR is illegal: M reserved (10_state.md R46), a higher level, EL2 not enabled, a
level that is not implemented, a reserved Security state, an Execution state that the level does not use or support
(60_exceptions.md R201, 00_scope.md R9), or, from AArch32 state, AArch64 state (PRESUMED, log entry 102). -/
def illegalReturn (spsr : Word) (s : State) : Bool :=
  let below (t : EL) : Bool :=
    decide (elNum s.ps.el < elNum t) || !haveEL t s || (t == .el2 && !el2Enabled s) ||
      (s.ps.el == .el3 && t != .el3 && !validLowerState s) || (t == .el1 && hcr s 27)
  if bitAt spsr 4 then
    let t := modeTarget32 (field spsr 0 4)
    below t || !haveA32 t s || !(t == .el0 || elUsesA32 t s) || el3A32 s
  else match modeTarget (field spsr 0 4) with
    | none => true
    | some (t, _) => s.ps.nRW || below t || !haveA64 t s || (t != .el0 && t != s.ps.el && elUsesA32 t s)

/-- The fields an SPSR restores that do not depend on where it returns. -/
def restoreFlags (spsr : Word) (p : PState) : PState :=
  { p with
    n := bitAt spsr 31, z := bitAt spsr 30, c := bitAt spsr 29, v := bitAt spsr 28,
    a := bitAt spsr 8, i := bitAt spsr 7, f := bitAt spsr 6,
    dit := bitAt spsr 24, pan := bitAt spsr 22, ssbs := bitAt spsr 12 }

/-- The fields of AArch64 state it restores besides: D, TCO, UAO and ALLINT (60_exceptions.md R201). -/
def restoreFlags64 (spsr : Word) (s : State) (p : PState) : PState :=
  if p.nRW then p
  else { p with
    d := bitAt spsr 9, tco := bitAt spsr 25, uao := bitAt spsr 23
    allint := if has .NMI s then bitAt spsr 13 else p.allint }

/-- PSTATE after a return with an SPSR: on an illegal return PSTATE.IL is set and the level, stack pointer and Execution
state stay (60_exceptions.md R201). -/
def pstateFromSpsr (spsr : Word) (s : State) : PState :=
  let p := restoreFlags spsr s.ps
  if illegalReturn spsr s then { restoreFlags64 spsr s p with il := true, ss := false, btype := 0 }
  else if bitAt spsr 4 then
    { p with il := bitAt spsr 20, ss := bitAt spsr 21, nRW := true, t := bitAt spsr 5, m32 := field spsr 0 4,
             el := modeTarget32 (field spsr 0 4), spsel := false, btype := 0 }
  else match modeTarget (field spsr 0 4) with
    | none => { p with il := true, ss := false, btype := 0 }
    | some (t, sp) =>
      { restoreFlags64 spsr s { p with nRW := false } with
        il := bitAt spsr 20, ss := bitAt spsr 21, t := false, el := t, spsel := sp, btype := field spsr 10 2
        pacm := if has .PAuth_LR s then bitAt spsr 35 else p.pacm }

/-- Exception return is a Context synchronization event (60_exceptions.md R205, 92_eei_decisions.md D4):
SCTLR_ELx.EOS, bit [11]. -/
def returnSynchronises (s : State) : Bool :=
  match s.cfg.exceptionReturnSynchronizes with
  | some b => b
  | none => !has .ExS s || sctlr s 11

/-- `AArch64.ExceptionReturn()` to an address with an SPSR: synchronise, restore PSTATE by the registers as the return sees them
(70_reset_and_hazards.md R323, R332), branch; the local monitor is cleared (60_exceptions.md R201). To AArch32 the address is 32
bits. -/
def exceptionReturn (target spsr : Word) (s : State) : State :=
  let t := if returnSynchronises s then syncContext s else s
  let p := pstateFromSpsr spsr t
  brbEntered (Config.brbOtherType none none) s { t with
    pc := if p.nRW then (target.setWidth 32).setWidth 64 else target
    ps := p
    exLocal := none
    movprfx := none }

/-! ### Bytes of memory -/

/-- The number of an address space. -/
def spaceNum : Space → Nat
  | .secure => 0
  | .nonSecure => 1
  | .root => 2
  | .realm => 3

/-- The key of a physical address in a space. -/
def physKey (sp : Space) (pa : Nat) : Nat := spaceNum sp * 2 ^ 52 + pa

/-- What a byte that nothing has written reads as (DESIGN CHOICE, unsafe: log entry 5). -/
def unwritten : Byte := 0

/-- One byte of memory. -/
def readByte (key : Nat) (s : State) : Byte := sparseGet unwritten s.mem key

/-- The stages of a location that was just written (92_eei_decisions.md D7). -/
def markStale (key : Nat) (l : List (Nat × Stage)) : List (Nat × Stage) := (key, .written) :: l.filter fun e => e.1 != key

/-- Write one byte; instruction fetch does not see it before the required maintenance. -/
def writeByte (key : Nat) (b : Byte) (s : State) : State :=
  { s with mem := sparseSet unwritten s.mem key b, stale := markStale key s.stale }

/-- `n` bytes from a key up. -/
def readBytes : Nat → Nat → State → List Byte
  | 0, _, _ => []
  | n + 1, key, s => readByte key s :: readBytes n (key + 1) s

/-- Write bytes from a key up. -/
def writeBytes : List Byte → Nat → State → State
  | [], _, s => s
  | b :: bs, key, s => writeBytes bs (key + 1) (writeByte key b s)

/-- Memory is in its canonical form. -/
def Memory.wf (m : List Host.Cell) : Bool := sparseWf unwritten m

/-- The Allocation Tag of the granule of a key (20_memory.md R58). -/
def readTag (key : Nat) (s : State) : BitVec 4 := sparseGet 0 s.tags (key / 16)

/-- Write the Allocation Tag of the granule of a key. -/
def writeTag (key : Nat) (t : BitVec 4) (s : State) : State := { s with tags := sparseSet 0 s.tags (key / 16) t }

/-- The region a physical address is in, of the memory map (92_eei_decisions.md D16). -/
def regionAt (pa : Nat) : List Region → Option Region
  | [] => none
  | r :: rs => if r.base ≤ pa ∧ pa < r.base + r.size then some r else regionAt pa rs

end Sys2Proof.Machine
end

