-- ==== Sys2Proof/Machine/Debug.lean ====
section
/-! DEFINITION. Entry to Debug state and exit from it (61_debug_pmu_trace.md R277, R278, R291, R296, R314; 60_exceptions.md
R217). Field places of EDSCR and EDPRSR are PRESUMED (log entry 8). -/

namespace Sys2Proof.Machine

/-- EDSCR of the machine made a value. -/
def setEdscr (v : Half) (s : State) : State := { s with dbg := { s.dbg with edscr := v } }

/-- EDPRSR of the machine made a value. -/
def setEdprsr (v : Half) (s : State) : State := { s with dbg := { s.dbg with edprsr := v } }

/-- A field of a 32-bit register replaced. -/
def withField {n : Nat} (v : Half) (lo : Nat) (f : BitVec n) : Half := copyBits v (f.setWidth 32 <<< lo) lo (lo + n)

/-- EDSCR.A: the virtual SError at EL0 and EL1 with EL2 enabled and HCR_EL2.{AMO, TGE} == {1, 0}, else the physical one
(61_debug_pmu_trace.md R291). -/
def edscrA (s : State) : Bool :=
  if el2Enabled s && hcr s 5 && !hcr s 27 && (s.ps.el == .el0 || s.ps.el == .el1) then s.intr.vSError else s.intr.serror

/-- EDSCR.RW, bits [13:10]: a bit for each Exception level that uses AArch64. -/
def edscrRw (s : State) : BitVec 4 :=
  BitVec.ofBool (!elUsesA32 .el3 s) ++ (BitVec.ofBool (!elUsesA32 .el2 s) ++
    (BitVec.ofBool (!elUsesA32 .el1 s) ++ BitVec.ofBool (!elUsesA32 .el0 s)))

/-- `UpdateEDSCRFields()`: in Debug state EL, A, the Security state (NS [18], NSE [15]) and RW; outside it EL is 0, the
Security fields are UNKNOWN, RW is all ones (61_debug_pmu_trace.md R278, R291). -/
def updateEDSCRFields (s : State) : State :=
  let v := s.dbg.edscr
  if halted s then
    let v1 := withField v 8 (BitVec.ofNat 2 (elNum s.ps.el))
    let v2 := setBit v1 7 (edscrA s)
    let v3 := setBit v2 18 (curSpace s == .nonSecure || curSpace s == .realm)
    let v4 := if has .RME s then setBit v3 15 (curSpace s == .root || curSpace s == .realm) else v3
    setEdscr (withField v4 10 (edscrRw s)) s
  else
    let v1 := withField v 8 (0#2)
    let v2 := setBit v1 18 (bitAt (Config.freeWord .edscrNs s.free) 0)
    let v3 := if has .RME s then setBit v2 15 (bitAt (Config.freeWord .edscrNs s.free) 1) else v2
    let v4 := setBit v3 16 (!s.dbg.rootDebug)
    setEdscr (withField v4 10 (0b1111#4)) s

/-- EDSCR.SDD on entry to Debug state (61_debug_pmu_trace.md R277): with FEAT_RME 0 at EL3, else 0 if external Root
invasive debug is enabled; without it 0 in Secure state, else by the same input. -/
def entrySdd (s : State) : Bool :=
  if has .RME s then (s.ps.el != .el3 && !s.dbg.rootDebug)
  else if curSpace s = .secure then false else !s.dbg.rootDebug

/-- Halting is allowed: not under the OS Double Lock, and not in Root or Secure state unless the debugger may. -/
def haltingAllowed (s : State) : Bool :=
  !halted s && !s.dbg.doubleLock && ((curSpace s != .root && curSpace s != .secure) || s.dbg.rootDebug)

/-- `Halt(reason)` (61_debug_pmu_trace.md R277, R296): DLR_EL0 and DSPSR_EL0 hold the address and PSTATE, EDSCR.ITO [28]
and SDD [16] are set, STATUS and EDPRSR.HALTED [4] at once. Entry is a Context synchronization event. -/
def halt (reason : BitVec 6) (ret : Word) (s : State) : State :=
  let s1 := setReg .DSPSR_EL0 (spsrOf s) (setReg .DLR_EL0 ret s)
  let v1 := setBit (setBit s.dbg.edscr 28 false) 16 (entrySdd s)
  let s2 := setEdprsr (setBit s.dbg.edprsr 4 true) (setEdscr (withField v1 0 reason) s1)
  updateEDSCRFields (syncContext { s2 with ps := { s2.ps with il := false, btype := 0 }, movprfx := none, waiting := none })

/-- `ExitDebugState()` (61_debug_pmu_trace.md R296): STATUS becomes 0b000010 and EDPRSR.SDR [11] 1 at once, then HALTED
0; execution goes on at DLR_EL0 with the PSTATE of DSPSR_EL0, built with the synchronised registers (70_reset_and_hazards.md
R323). -/
def exitDebugState (s : State) : State :=
  let p := pstateFromSpsr (sreg s .DSPSR_EL0) (syncContext s)
  let s1 := setEdprsr (setBit (setBit s.dbg.edprsr 11 true) 4 false) (setEdscr (withField s.dbg.edscr 0 (0b000010#6)) s)
  updateEDSCRFields (syncContext { s1 with ps := p, pc := sreg s .DLR_EL0 })

end Sys2Proof.Machine
end

