-- ==== Sys2Proof/Machine/Timers.lean ====
section
/-! DEFINITION. The Generic Timer: counts, offsets, timer conditions and the two views of a timer (60_exceptions.md R206
to R208, R236 to R238, R242 to R249). -/

namespace Sys2Proof.Machine

/-- The timers (60_exceptions.md R244). -/
inductive Timer where
  | el1Phys | el1Virt | el2Phys | el2Virt | el3Phys
  deriving DecidableEq, Repr

/-- The control register of a timer. -/
def timerCtl : Timer → SysReg
  | .el1Phys => .CNTP_CTL_EL0
  | .el1Virt => .CNTV_CTL_EL0
  | .el2Phys => .CNTHP_CTL_EL2
  | .el2Virt => .CNTHV_CTL_EL2
  | .el3Phys => .CNTPS_CTL_EL1

/-- The CompareValue register of a timer. -/
def timerCval : Timer → SysReg
  | .el1Phys => .CNTP_CVAL_EL0
  | .el1Virt => .CNTV_CVAL_EL0
  | .el2Phys => .CNTHP_CVAL_EL2
  | .el2Virt => .CNTHV_CVAL_EL2
  | .el3Phys => .CNTPS_CVAL_EL1

/-- The physical offset applies: EL2 enabled, SCR_EL3.ECVEn and CNTHCTL_EL2.ECV are 1, {E2H, TGE} is not {1, 1}
(60_exceptions.md R243, R244). The rules give no case for a PE without EL3, which has no SCR_EL3.ECVEn: the condition on it is taken
as met, and CNTPOFF_EL2 is not 0 for want of it (DESIGN CHOICE, log entry 93; R273 of 61_debug_pmu_trace.md says so for BRBE). -/
def physOffsetApplies (s : State) : Bool :=
  has .ECV s && el2Enabled s && (!s.cfg.hasEL3 || ibit s .SCR_EL3 28) && ibit s .CNTHCTL_EL2 12 && !e2hTge s

/-- CNTPOFF_EL2 is 0 to everything but a direct access from EL3 while SCR_EL3.ECVEn is 0 (60_exceptions.md R243); without EL3 it is
not (DESIGN CHOICE, log entry 93). -/
def cntpoffZero (s : State) : Bool := s.cfg.hasEL3 && !ibit s .SCR_EL3 28

/-- CNTPOFF_EL2 as an indirect read sees it. -/
def cntpoff (s : State) : Word := if cntpoffZero s then 0 else ireg s .CNTPOFF_EL2

/-- The offset of each timer (60_exceptions.md R244, R249). -/
def timerOffset (t : Timer) (s : State) : Word :=
  match t with
  | .el1Phys => if physOffsetApplies s then cntpoff s else 0
  | .el1Virt => ireg s .CNTVOFF_EL2
  | _ => 0

/-- `TimerConditionMet`, with CTL.ENABLE (60_exceptions.md R245), by the registers as indirect reads see them
(70_reset_and_hazards.md R331, R332). -/
def timerCondition (t : Timer) (s : State) : Bool :=
  ibit s (timerCtl t) 0 && decide ((ireg s (timerCval t)).toNat ≤ (s.count - timerOffset t s).toNat)

/-- The interrupt line of a timer: the condition, not masked by CTL.IMASK (60_exceptions.md R245). -/
def timerLine (t : Timer) (s : State) : Bool := timerCondition t s && !ibit s (timerCtl t) 1

/-- A read of CNTx_CTL: ENABLE, IMASK and ISTATUS. -/
def readTimerCtl (t : Timer) (s : State) : Word :=
  setBit (sreg s (timerCtl t) &&& 0b11) 2 (timerCondition t s)

/-- A read of CNTx_TVAL: the low 32 bits of CompareValue - (count - Offset) (60_exceptions.md R246). -/
def readTval (t : Timer) (s : State) : Word :=
  ((sreg s (timerCval t) - (s.count - timerOffset t s)).setWidth 32).setWidth 64

/-- What a write of CNTx_TVAL makes of CompareValue (60_exceptions.md R246). -/
def tvalToCval (t : Timer) (v : Word) (s : State) : Word :=
  (s.count - timerOffset t s) + (v.setWidth 32).signExtend 64

/-- A read of CNTPCT_EL0 or CNTPCTSS_EL0 (60_exceptions.md R243, R244). -/
def readCntpct (s : State) : Word :=
  if (s.ps.el == .el0 || s.ps.el == .el1) && physOffsetApplies s then s.count - cntpoff s else s.count

/-- A read of CNTVCT_EL0 or CNTVCTSS_EL0 uses the virtual offset (60_exceptions.md R248). -/
def virtOffsetApplies (s : State) : Bool :=
  s.cfg.hasEL2 && (match s.ps.el with
    | .el0 => !e2hTge s
    | .el2 => !hcr s 34
    | _ => true)

/-- A read of CNTVCT_EL0 or CNTVCTSS_EL0. -/
def readCntvct (s : State) : Word := s.count - (if virtOffsetApplies s then ireg s .CNTVOFF_EL2 else 0)

/-- A counter read at EL0 is trapped by CNTKCTL_EL1, or CNTHCTL_EL2 when {E2H, TGE} is {1, 1}: EL0VCTEN, bit [1], or
EL0PCTEN, bit [0] (60_exceptions.md R208). That AArch32 CNTKCTL with its PL0VCTEN and PL0PCTEN is CNTKCTL_EL1 with these bits is
PRESUMED (log entry 90). -/
def el0CounterTrap (virt : Bool) (s : State) : Bool :=
  s.ps.el == .el0 && !ibit s (if e2hTge s then .CNTHCTL_EL2 else .CNTKCTL_EL1) (if virt then 1 else 0)

/-- The trap of a counter read to EL2: EL1TVCT, bit [14], for the virtual counter (60_exceptions.md R206, R207);
EL1PCTEN, bit [0], or [10] with E2H, for the physical one. -/
def el2CounterTrap (virt : Bool) (s : State) : Bool :=
  (s.ps.el == .el0 || s.ps.el == .el1) && el2Enabled s && !e2hTge s &&
    (if virt then ibit s .CNTHCTL_EL2 14 else !ibit s .CNTHCTL_EL2 (if hcr s 34 then 10 else 0))

/-- An access to an EL1 timer register is trapped: EL0 by EL0VTEN, bit [8], or EL0PTEN, bit [9]; to EL2 by EL1TVT,
bit [13], or EL1PCEN, bit [1], or [11] with E2H. -/
def timerAccessTrap (virt : Bool) (s : State) : Option EL :=
  if s.ps.el == .el0 && !ibit s (if e2hTge s then .CNTHCTL_EL2 else .CNTKCTL_EL1) (if virt then 8 else 9) then
    some (if hcr s 27 then .el2 else .el1)
  else if (s.ps.el == .el0 || s.ps.el == .el1) && el2Enabled s && !e2hTge s &&
      (if virt then ibit s .CNTHCTL_EL2 13 else !ibit s .CNTHCTL_EL2 (if hcr s 34 then 11 else 1)) then some .el2
  else none

/-- `TestEventCNTP()`: the event stream of the physical counter, on the count the EL1 physical timer sees
(60_exceptions.md R249): CNTHCTL_EL2.EVNTEN [2], EVNTDIR [3] and EVNTI [7:4] (PRESUMED, log entry 8). `before` and `after` are
the counts of two moments. -/
def testEventCntp (before after : Word) (s : State) : Bool :=
  let n := (field (ireg s .CNTHCTL_EL2) 4 4).toNat
  let bit (c : Word) : Bool := bitAt (c - timerOffset .el1Phys s) n
  let dir := ibit s .CNTHCTL_EL2 3
  ibit s .CNTHCTL_EL2 2 && bit before == dir && bit after == !dir

/-! ### Memory-mapped frames -/

/-- What an access to a timer frame register meets (60_exceptions.md R236 to R238). -/
inductive FrameAccess where
  | permitted | res0 | notPermitted
  deriving DecidableEq, Repr

/-- CNTControlBase in a system with FEAT_RME: Root accesses only (60_exceptions.md R236). -/
def controlBaseAccess (by_ : Space) (s : State) : FrameAccess :=
  if has .RME s then (if by_ = .root then .permitted else .notPermitted) else .permitted

/-- A Secure-only register, or frame n with CNTNSAR.NS<n> 0: R_LJZFN (60_exceptions.md R237). -/
def secureOnlyAccess (by_ : Space) (s : State) : FrameAccess :=
  match by_ with
  | .secure => .permitted
  | .nonSecure => .notPermitted
  | .root => if s.cfg.timerRootSecureOnly then .permitted else .res0
  | .realm => .res0

/-- A register that permits Non-secure access, or frame n with CNTNSAR.NS<n> 1: R_LTXDR (60_exceptions.md R237). -/
def nonSecureAccess (by_ : Space) (s : State) : FrameAccess :=
  match by_ with
  | .secure => .permitted
  | .nonSecure => .permitted
  | _ => if s.cfg.timerRootRealmNS then .permitted else .res0

/-- A register of timer frame `n`: by CNTNSAR.NS<n> (60_exceptions.md R238). -/
def frameAccess (n : Fin 8) (by_ : Space) (s : State) : FrameAccess :=
  if bitAt s.frames.cntnsar n.val then nonSecureAccess by_ s else secureOnlyAccess by_ s

/-- The physical offset of BRBE timestamps (61_debug_pmu_trace.md R273). -/
def brbePhysOffset (s : State) : Word :=
  if !has .ECV s || !s.cfg.hasEL2 || (s.cfg.hasEL3 && !ibit s .SCR_EL3 28) || !ibit s .CNTHCTL_EL2 12 then 0
  else ireg s .CNTPOFF_EL2

end Sys2Proof.Machine
end

