-- ==== Sys2Proof/Machine/Frames.lean ====
section
/-! DEFINITION. The registers that external agents and memory accesses reach: the external debug interface and the frames of
the Generic Timer (20_memory.md R58, R63; 60_exceptions.md R236 to R238; 61_debug_pmu_trace.md R255, R258, R262, R265, R276,
R284, R285, R298, R301, R322). -/

namespace Sys2Proof.Machine

/-! ### External registers -/

/-- How the external debug interface can access a register. -/
inductive ExtAccess where
  | readOnly | errorResponse | impDef
  deriving DecidableEq, Repr

/-- The OS Lock: OSLSR_EL1.OSLK, bit [1]. -/
def osLock (s : State) : Bool := bitAt (sreg s .OSLSR_EL1) 1

/-- EDDFR, EDDFR1, EDPFR, EDAA32PFR (61_debug_pmu_trace.md R298). -/
def featureRegAccess (value : Word) (s : State) : ExtAccess :=
  if s.dbg.corePowered && !s.dbg.doubleLock && (value != 0 || !osLock s) then .readOnly
  else if has .DoPD s && !s.dbg.corePowered then .errorResponse
  else .impDef

/-- EDWAR (61_debug_pmu_trace.md R285). -/
def edwarAccess (s : State) : ExtAccess := if s.dbg.corePowered && !s.dbg.doubleLock then .readOnly else .impDef

/-- EDPRSR.{DLK, SPD, PU}, bits [6], [1] and [0], say whether the registers of the Core power domain can be accessed, and whether
their state has been lost since the register was last read; SPD is IMPLEMENTATION DEFINED without FEAT_DoPD while the Core is
off (61_debug_pmu_trace.md R303; the values for each state are PRESUMED, log entry 89). -/
def edprsrPower (s : State) : Half :=
  let v := setBit (setBit s.dbg.edprsr 6 (s.dbg.corePowered && s.dbg.doubleLock)) 0 s.dbg.corePowered
  if !has .DoPD s && !s.dbg.corePowered then setBit v 1 (Config.freeBool .edprsrSpd s.free) else v

/-- A read of EDPRSR: EPMAD, bit [9], is UNKNOWN with FEAT_PMUv3 and without FEAT_PMUv3_EXT, RES0 without FEAT_PMUv3
(61_debug_pmu_trace.md R284). -/
def readEdprsr (s : State) : Half :=
  let v := edprsrPower s
  if has .PMUv3 s && has .PMUv3_EXT s then v
  else if has .PMUv3 s then setBit v 9 (Config.freeBool .epmad s.free)
  else setBit v 9 false

/-- EDHSR is present with FEAT_EDHSR, which EDDEVID1.HSR, bits [7:4], identifies (61_debug_pmu_trace.md R276). -/
def edhsrPresent (s : State) : Bool := has .EDHSR s && field s.dbg.eddevid1 4 4 == 0b0001#4

/-- EDACR must be accessible with the OS Lock locked and the Core off: without FEAT_DoPD, where it has bits to preserve
(61_debug_pmu_trace.md R265). -/
def edacrMustBeAccessible (s : State) : Bool := !has .DoPD s && s.cfg.edacrPreserved

/-- EDACR is in the Core power domain: with FEAT_DoPD, else by the parameter (61_debug_pmu_trace.md R265,
93_implementation_defined.md U32). -/
def edacrInCore (s : State) : Bool := has .DoPD s || s.cfg.edacrCoreDomain

/-- EDACR can be accessed now. -/
def edacrAccessible (s : State) : Bool := s.dbg.corePowered || !edacrInCore s || edacrMustBeAccessible s

/-- AMDEVARCH: ARCHID, bits [15:0], is 0x0A66 with FEAT_AMU_EXT32 and 0x0A67 with FEAT_AMU_EXT64 (61_debug_pmu_trace.md R258,
93_implementation_defined.md U30). -/
def readAmdevarch (s : State) : Half :=
  if has .AMU_EXT32 s then copyBits s.dbg.amdevarch 0x0A66 0 16
  else if has .AMU_EXT64 s then copyBits s.dbg.amdevarch 0x0A67 0 16
  else s.dbg.amdevarch

/-- The external view of PMCR_EL0: bits [63:32] and [10:0] are the System register's (61_debug_pmu_trace.md R262). -/
def externalPmcr (s : State) : Word := copyBits (copyBits s.dbg.extPmcr (pmcrValue s) 32 64) (pmcrValue s) 0 11

/-- A write of the external PMCR_EL0: its mapped bits are a write of the System register, with its resets; bits [31:11] are the
external register's own. -/
def writeExternalPmcr (v : Word) (s : State) : State :=
  let mapped := copyBits (copyBits (sreg s .PMCR_EL0) v 32 64) v 0 11
  let t := setReg .PMCR_EL0 (mapped &&& ~~~0b110) (pmcrResets v s)
  { t with dbg := { t.dbg with extPmcr := copyBits t.dbg.extPmcr v 11 32 } }

/-- The AArch32 register PMCR: the same value (61_debug_pmu_trace.md R262). -/
def a32Pmcr (s : State) : Half := (pmcrValue s).setWidth 32

/-- A write of the AArch32 register PMCR: bits [10:0]. -/
def writeA32Pmcr (v : Half) (s : State) : State := writePmcr (copyBits (sreg s .PMCR_EL0) (v.setWidth 64) 0 11) s

/-- The response to an external access to an unimplemented or Reserved trace unit register
(61_debug_pmu_trace.md R322): `none` is an error, a value is RES0H. -/
def traceReservedAccess (offset : Nat) (s : State) : Option Word :=
  if !s.dbg.corePowered then none
  else if 0xF00 ≤ offset then some 0
  else if osLock s || !s.dbg.traceAccess then (if Config.freeBool .traceResponse s.free then none else some 0)
  else some 0

/-- A value where the access is allowed, or the IMPLEMENTATION DEFINED response. -/
def accessed (a : ExtAccess) (v : Word) (s : State) : Option Word :=
  match a with
  | .readOnly => some v
  | .errorResponse => none
  | .impDef => if s.cfg.extImpDef = .error then none else some v

/-- How a register is accessed now. An access to EDACR while it is not accessible is one that no rule fixes: it follows the parameter
`extImpDef` (log entry 89), since the table of 61_debug_pmu_trace.md R298 is for the feature registers only. -/
def extAccess (r : ExtReg) (s : State) : ExtAccess :=
  match r with
  | .eddfr => featureRegAccess s.dbg.eddfr s
  | .eddfr1 => featureRegAccess s.dbg.eddfr1 s
  | .edpfr => featureRegAccess s.dbg.edpfr s
  | .edaa32pfr => featureRegAccess s.dbg.edaa32pfr s
  | .edwar => edwarAccess s
  | .edacr => if edacrAccessible s then .readOnly else .impDef
  | _ => .readOnly

/-- P of an address field: 52 with FEAT_LVA, else 48 (61_debug_pmu_trace.md R271). -/
def addressP (s : State) : Nat := if has .LVA s then 52 else 48

/-- Bits [63:P] are all zeros or all ones. -/
def canonicalTop (v : Word) (s : State) : Bool :=
  v >>> addressP s == 0 || v >>> addressP s == BitVec.allOnes 64 >>> addressP s

/-- An address of an Exception or Target Address element of the trace is invalid (61_debug_pmu_trace.md R272). -/
def invalidAddress (v : Word) (s : State) : Bool := !canonicalTop v s

/-- The value of TRCACVR<n> that holds a value that was written: bits [63:P] that are neither all zeros nor all ones are UNKNOWN
(61_debug_pmu_trace.md R272). The register keeps what was written, byte by byte where it is written so. -/
def trcacvrValue (v : Word) (s : State) : Word :=
  if canonicalTop v s then v else copyBits v (Config.freeWord .addressTop s.free) (addressP s) 64

/-- ERR<n>FR.CFI, bits [11:10], is defined when FI is 0b10 or 0b11 (61_debug_pmu_trace.md R282, which gives CFI's place alone: that FI
is bits [7:6] is PRESUMED, log entry 8). -/
def errCfi (r : ErrRecord) : Option (BitVec 2) := if bitAt r.fr 7 then some (field r.fr 10 2) else none

/-- What a read of ERR<n>FR gives: CFI, where it is not defined, is any value. -/
def errFrValue (r : ErrRecord) (s : State) : Word :=
  match errCfi r with
  | some _ => r.fr
  | none => copyBits r.fr (Config.freeWord .errCfi s.free) 10 12

/-- A read by an external agent: `none` is an error response. EDPFR[55:52] reads as UNKNOWN (61_debug_pmu_trace.md R301). -/
def extRead (r : ExtReg) (s : State) : Option Word :=
  match r with
  | .eddfr => accessed (extAccess r s) s.dbg.eddfr s
  | .eddfr1 => accessed (extAccess r s) s.dbg.eddfr1 s
  | .edpfr => accessed (extAccess r s) (copyBits s.dbg.edpfr (Config.freeWord .edpfrReserved s.free) 52 56) s
  | .edaa32pfr => accessed (extAccess r s) s.dbg.edaa32pfr s
  | .edwar => accessed (extAccess r s) s.dbg.edwar s
  | .edscr => some (s.dbg.edscr.setWidth 64)
  | .edprsr => some ((readEdprsr s).setWidth 64)
  | .edacr => accessed (extAccess r s) (s.dbg.edacr.setWidth 64) s
  | .eddevid1 => some (s.dbg.eddevid1.setWidth 64)
  | .edhsr => if edhsrPresent s then some s.dbg.edhsr else none
  | .amdevarch => some ((readAmdevarch s).setWidth 64)
  | .pmcr => some (externalPmcr s)
  | .dscrint => some (s.a32.dbgdscrint.setWidth 64)
  | .trcidr0 => some (sreg s .TRCIDR0)
  | .trcconfigr => some (sreg s .TRCCONFIGR)
  | .trcacvr n => some (trcacvrValue s.trcacvr[n] s)
  | .pmevcntr n => some s.pmevcntr[n]
  | .pmevtyper n => some s.pmevtyper[n]
  | .pmccntr => some (sreg s .PMCCNTR_EL0)
  | .pmcntenset => some (sreg s .PMCNTENSET_EL0)
  | .pmcntenclr => some (sreg s .PMCNTENSET_EL0)
  | .pmovsset => some (sreg s .PMOVSSET_EL0)
  | .pmovsclr => some (sreg s .PMOVSSET_EL0)
  | .errfr n => (s.err[n]?).map fun r => errFrValue r s
  | .errstatus n => (s.err[n]?).map (·.status)
  | .traceReserved o => traceReservedAccess o s

/-- What a read leaves: EDPRSR.SPD is 0 again once the register was read with the Core on (61_debug_pmu_trace.md R303). -/
def afterExtRead (r : ExtReg) (s : State) : State :=
  if r = .edprsr ∧ s.dbg.corePowered then setEdprsr (setBit s.dbg.edprsr 1 false) s else s

/-- The bits of EDSCR a debugger writes: HDE, bit [14], alone; the status fields are the PE's (61_debug_pmu_trace.md R277,
R278, R291, R296). -/
def writeEdscr (v : Half) (s : State) : State := setEdscr (setBit s.dbg.edscr 14 (bitAt v 14)) s

/-- In a case that no rule fixes a write has its effect where the parameter says so (93_implementation_defined.md U36). -/
def impDefWrites (r : ExtReg) (s : State) : Bool := extAccess r s == .impDef && s.cfg.extImpDef == .readWrite

/-- A write of a register of the external debug interface that the table makes read-only: only where no rule fixes the access. -/
def writeFeatureReg (r : ExtReg) (v : Word) (d : Debug) : Debug :=
  match r with
  | .eddfr => { d with eddfr := v }
  | .eddfr1 => { d with eddfr1 := v }
  | .edpfr => { d with edpfr := v }
  | .edaa32pfr => { d with edaa32pfr := v }
  | .edwar => { d with edwar := v }
  | .edacr => { d with edacr := v.setWidth 32 }
  | _ => d

/-- A write by an external agent; read-only registers keep their value. What a write makes of ERR<n>STATUS the source does not say: a free
value (61_debug_pmu_trace.md R261). -/
def extWrite (r : ExtReg) (v : Word) (s : State) : State :=
  match r with
  | .edscr => writeEdscr (v.setWidth 32) s
  | .edacr => if edacrAccessible s || impDefWrites r s then { s with dbg := writeFeatureReg r v s.dbg } else s
  | .pmcr => writeExternalPmcr v s
  | .trcconfigr => setReg .TRCCONFIGR v s
  | .trcacvr n => { s with trcacvr := s.trcacvr.set n v }
  | .pmevcntr n => { s with pmevcntr := s.pmevcntr.set n v }
  | .pmevtyper n => setCtl (.pmevtyper n) v s
  | .pmccntr => setReg .PMCCNTR_EL0 v s
  | .pmcntenset => setReg .PMCNTENSET_EL0 (sreg s .PMCNTENSET_EL0 ||| v) s
  | .pmcntenclr => setReg .PMCNTENSET_EL0 (sreg s .PMCNTENSET_EL0 &&& ~~~v) s
  | .pmovsset => setReg .PMOVSSET_EL0 (sreg s .PMOVSSET_EL0 ||| v) s
  | .pmovsclr => setReg .PMOVSSET_EL0 (sreg s .PMOVSSET_EL0 &&& ~~~v) s
  | .errstatus n => { s with err := s.err.modify n fun r => { r with status := Config.freeWord (.errStatus n) s.free } }
  | r => if impDefWrites r s then { s with dbg := writeFeatureReg r v s.dbg } else s

/-- What a write is answered: `none` is an error response. A write of a read-only register is ignored and accepted (DESIGN
CHOICE, log entry 89: the source does not say); where the table fixes nothing the parameter answers (61_debug_pmu_trace.md R298,
R322). -/
def extWriteResponse (r : ExtReg) (s : State) : Option Word :=
  match r with
  | .traceReserved o => (traceReservedAccess o s).map fun _ => 0
  | .errfr n => (s.err[n]?).map fun _ => 0
  | .errstatus n => (s.err[n]?).map fun _ => 0
  | r =>
    match extAccess r s with
    | .readOnly => some 0
    | .errorResponse => none
    | .impDef => if s.cfg.extImpDef = .error then none else some 0

/-! ### Timer frames -/

/-- What an access to a register of a frame meets: for the timer frames by the Security state of the access. CNTCV is one register, in
whichever frame it is seen: with FEAT_RME it is for Root accesses alone in CNTReadBase too (DESIGN CHOICE, log entry 74; 60_exceptions.md
R236 names CNTControlBase only). -/
def frameRegAccess (r : FrameReg) (by_ : Space) (s : State) : FrameAccess :=
  match r with
  | .cntnsar => secureOnlyAccess by_ s
  | .ctlFrq => secureOnlyAccess by_ s
  | .cnttidr => nonSecureAccess by_ s
  | .cntacr n => frameAccess n by_ s
  | .cntvoff n => frameAccess n by_ s
  | .timer n _ => frameAccess n by_ s
  | .ext _ => .permitted
  | _ => controlBaseAccess by_ s

/-- The count a timer of frame n compares: the physical one, or that minus CNTVOFF<n>. -/
def frameCount (n : Fin 8) (virt : Bool) (s : State) : Word := if virt then s.count - s.frames.cntvoff[n] else s.count

/-- CTL of a timer of frame n: ENABLE, IMASK, and ISTATUS (60_exceptions.md R245). -/
def frameCtl (n : Fin 8) (virt : Bool) (s : State) : Half :=
  let ctl := if virt then s.frames.vctl[n] else s.frames.pctl[n]
  let cval := if virt then s.frames.vcval[n] else s.frames.pcval[n]
  setBit (ctl &&& 0b11) 2 (bitAt ctl 0 && decide (cval.toNat ≤ (frameCount n virt s).toNat))

/-- What a register of timer frame n holds (60_exceptions.md R238, R245, R246). -/
def timerRegValue (n : Fin 8) (r : CntReg) (s : State) : Word :=
  match r with
  | .cntel0acr => s.frames.cntel0acr[n].setWidth 64
  | .cntfrq => s.frames.cntfrq.setWidth 64
  | .pCtl => (frameCtl n false s).setWidth 64
  | .pCval => s.frames.pcval[n]
  | .pTval => ((s.frames.pcval[n] - frameCount n false s).setWidth 32).setWidth 64
  | .pct => s.count
  | .vCtl => (frameCtl n true s).setWidth 64
  | .vCval => s.frames.vcval[n]
  | .vTval => ((s.frames.vcval[n] - frameCount n true s).setWidth 32).setWidth 64
  | .vct => frameCount n true s
  | .voff => s.frames.cntvoff[n]
  | .counterId k => s.frames.baseId[k].setWidth 64

/-- The timer frames made these. -/
def setFrames (f : TimerFrames) (s : State) : State := { s with frames := f }

/-- A write of a register of timer frame n. -/
def writeTimerReg (n : Fin 8) (r : CntReg) (v : Word) (s : State) : State :=
  let f := s.frames
  match r with
  | .cntel0acr => setFrames { f with cntel0acr := f.cntel0acr.set n (v.setWidth 32) } s
  | .pCtl => setFrames { f with pctl := f.pctl.set n (v.setWidth 32 &&& 0b11) } s
  | .pCval => setFrames { f with pcval := f.pcval.set n v } s
  | .pTval => setFrames { f with pcval := f.pcval.set n (frameCount n false s + (v.setWidth 32).signExtend 64) } s
  | .vCtl => setFrames { f with vctl := f.vctl.set n (v.setWidth 32 &&& 0b11) } s
  | .vCval => setFrames { f with vcval := f.vcval.set n v } s
  | .vTval => setFrames { f with vcval := f.vcval.set n (frameCount n true s + (v.setWidth 32).signExtend 64) } s
  | .cntfrq => s
  | .pct => s
  | .vct => s
  | .voff => s
  | .counterId _ => s

/-- What a frame register holds. -/
def frameRegValue (r : FrameReg) (s : State) : Word :=
  match r with
  | .cntcr => s.frames.cntcr.setWidth 64
  | .cntsr => s.frames.cntsr.setWidth 64
  | .cntid => s.frames.cntid.setWidth 64
  | .cntscr => s.frames.cntscr.setWidth 64
  | .cntcv => s.count
  | .cntfid n => (sparseGet 0 s.frames.cntfid n.val).setWidth 64
  | .controlId n => s.frames.controlId[n].setWidth 64
  | .cntnsar => s.frames.cntnsar.setWidth 64
  | .cnttidr => s.frames.cnttidr.setWidth 64
  | .ctlFrq => s.frames.cntfrq.setWidth 64
  | .cntacr n => s.frames.cntacr[n].setWidth 64
  | .cntvoff n => s.frames.cntvoff[n]
  | .timer n r => timerRegValue n r s
  | .ext r => (extRead r s).getD (Config.freeWord .frameDenied s.free)

/-- A write of a frame register; identification and status registers keep their value. -/
def writeFrameReg (r : FrameReg) (v : Word) (s : State) : State :=
  let f := s.frames
  match r with
  | .cntcr => setFrames { f with cntcr := v.setWidth 32 } s
  | .cntscr => setFrames { f with cntscr := v.setWidth 32 } s
  | .cntcv => { s with count := v }
  | .cntfid n => setFrames { f with cntfid := sparseSet 0 f.cntfid n.val (v.setWidth 32) } s
  | .cntnsar => setFrames { f with cntnsar := v.setWidth 32 } s
  | .ctlFrq => setFrames { f with cntfrq := v.setWidth 32 } s
  | .cntacr n => setFrames { f with cntacr := f.cntacr.set n (v.setWidth 32) } s
  | .cntvoff n => setFrames { f with cntvoff := f.cntvoff.set n v } s
  | .timer n r => writeTimerReg n r v s
  | .ext r => extWrite r v s
  | .cntsr => s
  | .cntid => s
  | .controlId _ => s
  | .cnttidr => s

/-- What stands at an offset of a frame: EDDFR is at 0xD28 of the Debug component (61_debug_pmu_trace.md R285), an ETE offset
without a register is a Reserved location (R322). -/
def frameAt (f : RegFrame) (off : Nat) : Option (FrameReg × Nat) :=
  match f, Config.frameLayout f off with
  | .debug, r => if 0xD28 ≤ off ∧ off < 0xD30 then some (.ext .eddfr, off - 0xD28) else r
  | .ete, none => some (.ext (.traceReserved (off / 4 * 4)), off % 4)
  | _, r => r

/-- A read of a frame register by an agent of a Security state: `none` where it is not permitted and no value is given. -/
def readFrameReg (r : FrameReg) (by_ : Space) (s : State) : Option Word :=
  match frameRegAccess r by_ s with
  | .permitted => (match r with | .ext e => extRead e s | r => some (frameRegValue r s))
  | .res0 => some 0
  | .notPermitted => none

/-- What an agent's write of a frame register is answered. -/
def frameWriteResponse (r : FrameReg) (by_ : Space) (s : State) : Option Word :=
  match frameRegAccess r by_ s with
  | .permitted => (match r with | .ext e => extWriteResponse e s | _ => some 0)
  | .res0 => some 0
  | .notPermitted => none

/-- What an agent's read of a frame register leaves. -/
def afterAgentRead (r : FrameReg) (by_ : Space) (s : State) : State :=
  match r with
  | .ext e => if frameRegAccess r by_ s = .permitted then afterExtRead e s else s
  | _ => s

/-- An agent's write of a frame register: nothing where it is not permitted or behaves as RES0. -/
def agentFrameWrite (r : FrameReg) (by_ : Space) (v : Word) (s : State) : State :=
  if frameRegAccess r by_ s = .permitted then writeFrameReg r v s else s

/-- One byte of a value. -/
def byteOf (v : Word) (k : Nat) : Byte := field v (8 * k) 8

/-- A memory read of one byte of a frame: a register that behaves as RES0 for the access reads as zero; where the access is
not permitted the spec gives no value. -/
def readFrameByte (f : RegFrame) (off : Nat) (by_ : Space) (s : State) : Byte :=
  match frameAt f off with
  | none => 0
  | some (r, k) =>
    match frameRegAccess r by_ s with
    | .permitted => byteOf (frameRegValue r s) k
    | .res0 => 0
    | .notPermitted => byteOf (Config.freeWord .frameDenied s.free) k

/-- What such a read leaves. -/
def afterFrameRead (f : RegFrame) (off : Nat) (by_ : Space) (s : State) : State :=
  match frameAt f off with
  | some (.ext r, 0) => if frameRegAccess (.ext r) by_ s = .permitted then afterExtRead r s else s
  | _ => s

/-- A memory write of one byte of a frame. -/
def writeFrameByte (f : RegFrame) (off : Nat) (by_ : Space) (b : Byte) (s : State) : State :=
  match frameAt f off with
  | none => s
  | some (r, k) =>
    if frameRegAccess r by_ s = .permitted then
      writeFrameReg r (copyBits (storeBase r s) (b.setWidth 64 <<< (8 * k)) (8 * k) (8 * k + 8)) s
    else s
where
  /-- What stands in the bytes of the register that are not written: of TRCACVR<n> what was written before, not the value it reads
  as; nothing in a register whose ones clear bits. -/
  storeBase (r : FrameReg) (s : State) : Word :=
    match r with
    | .ext (.trcacvr n) => s.trcacvr[n]
    | .ext .pmcntenclr => 0
    | .ext .pmovsclr => 0
    | r => frameRegValue r s

end Sys2Proof.Machine
end

