-- ==== Sys2Proof/Machine/Interrupts.lean ====
section
/-! DEFINITION. Interrupts: which are masked, and the step that takes one (60_exceptions.md R199, R231, R235;
92_eei_decisions.md D17). Routing is PRESUMED (log entry 21). -/

namespace Sys2Proof.Machine

/-- The kinds of interrupt. -/
inductive Interrupt where
  | serror | fiq | irq | vSError | vFiq | vIrq
  deriving DecidableEq, Repr

/-- Pending now. -/
def intPending (k : Interrupt) (s : State) : Bool :=
  match k with
  | .serror => s.intr.serror
  | .fiq => s.intr.fiq
  | .irq => s.intr.irq
  | .vSError => s.intr.vSError
  | .vFiq => s.intr.vFiq
  | .vIrq => s.intr.vIrq

/-- With Superpriority. -/
def intSuper (k : Interrupt) (s : State) : Bool :=
  match k with
  | .fiq => s.intr.fiqSuper
  | .irq => s.intr.irqSuper
  | .vFiq => s.intr.vFiqSuper
  | .vIrq => s.intr.vIrqSuper
  | _ => false

/-- The PSTATE mask of a kind. -/
def intMaskBit (k : Interrupt) (s : State) : Bool :=
  match k with
  | .serror => s.ps.a
  | .vSError => s.ps.a
  | .fiq => s.ps.f
  | .vFiq => s.ps.f
  | .irq => s.ps.i
  | .vIrq => s.ps.i

/-- Physical interrupts go to EL3 by SCR_EL3.{IRQ, FIQ, EA}, to EL2 by HCR_EL2.{IMO, FMO, AMO} or TGE, else to EL1. In Debug state
with EDSCR.SDD set none goes to EL3 (61_debug_pmu_trace.md R314). -/
def physTarget (scrBit hcrBit : Nat) (s : State) : EL :=
  if s.cfg.hasEL3 && ibit s .SCR_EL3 scrBit && !el3SddUndef s then .el3 else if hcr s hcrBit || hcr s 27 then .el2 else .el1

/-- Where a kind is taken. -/
def intTarget (k : Interrupt) (s : State) : EL :=
  match k with
  | .serror => physTarget 3 5 s
  | .fiq => physTarget 2 3 s
  | .irq => physTarget 1 4 s
  | _ => .el1

/-- A virtual interrupt exists only at EL0 and EL1, with its HCR_EL2 bit set and TGE clear. -/
def virtualEnabled (k : Interrupt) (s : State) : Bool :=
  let at10 := (s.ps.el == .el0 || s.ps.el == .el1) && !hcr s 27
  match k with
  | .vSError => at10 && hcr s 5
  | .vFiq => at10 && hcr s 3
  | .vIrq => at10 && hcr s 4
  | _ => true

/-- Masked: an interrupt to a lower level is; PSTATE masks count for one to the current level, and at EL0 for one to EL2
when HCR_EL2.{E2H, TGE} is {1, 1} (60_exceptions.md R231); Superpriority escapes the mask, and ALLINT counts, where
SCTLR_ELx.NMI of the target is 1 (R235). -/
def intMasked (k : Interrupt) (s : State) : Bool :=
  let t := intTarget k s
  let nmi := has .NMI s && ibit s (sctlrAt t) 61
  let counts := t == s.ps.el || (t == .el2 && s.ps.el == .el0 && e2hTge s)
  decide (elNum t < elNum s.ps.el) ||
    (counts && ((intMaskBit k s && !(intSuper k s && nmi)) ||
      (nmi && s.ps.allint && (k != .serror && k != .vSError))))

/-- The vector entry of a kind. -/
def intKind : Interrupt → VectorKind
  | .serror => .serror
  | .vSError => .serror
  | .fiq => .fiq
  | .vFiq => .fiq
  | .irq => .irq
  | .vIrq => .irq

/-- The choice to take a kind now (92_eei_decisions.md D17). -/
def intSite : Interrupt → Site
  | .serror => .takeSError
  | .fiq => .takeFiq
  | .irq => .takeIrq
  | .vSError => .takeVSError
  | .vFiq => .takeVFiq
  | .vIrq => .takeVIrq

/-- Can be taken now. -/
def intReady (k : Interrupt) (s : State) : Bool := intPending k s && virtualEnabled k s && !intMasked k s

/-- An SError, once taken, is no longer pending. -/
def intTaken (k : Interrupt) (s : State) : State :=
  match k with
  | .serror => { s with intr := { s.intr with serror := false } }
  | .vSError => { s with intr := { s.intr with vSError := false } }
  | _ => s

/-- Take an interrupt: the return address is the instruction not yet executed (60_exceptions.md R200). -/
def takeInterrupt (k : Interrupt) (s : State) : Result :=
  raise { target := intTarget k s, kind := intKind k,
          ec := if intKind k = .serror then 0x2F else 0,
          iss := if intKind k = .serror then (Config.freeWord .serrorSyndrome s.free).setWidth 25 else 0,
          ret := s.pc, far := none, hpfar := none } (intTaken k s)

/-- The interrupt the step takes now, if any: one that is ready and chosen. -/
def chosenInterrupt (s : State) : Option Interrupt :=
  [Interrupt.serror, .fiq, .irq, .vSError, .vFiq, .vIrq].find? fun k => intReady k s && Config.freeBool (intSite k) s.free

/-- `TakeUnmaskedPhysicalSErrorInterrupts`: an implicit error synchronisation takes a pending unmasked SError. -/
def takeUnmaskedSError (s : State) (k : State → Result) : Result :=
  if intReady .serror s then takeInterrupt .serror s else k s

end Sys2Proof.Machine
end

