-- ==== Sys2Proof/Machine/Translate.lean ====
section
/-! DEFINITION. Address translation, its faults, and the checks of an access (20_memory.md R64, R68, R74, R75, R79 to
R85, R91, R98 to R118; 60_exceptions.md R209; 92_eei_decisions.md D15). -/

namespace Sys2Proof.Machine

/-- What an access is, as the access descriptor of the pseudocode says it (42_loadstore_mte_atomics.md R158, R160). -/
structure AccDesc where
  access : Access
  write : Bool
  /-- A Load-Exclusive or Store-Exclusive: alignment is always checked (42_loadstore_mte_atomics.md R160). -/
  exclusive : Bool
  /-- Tag Unchecked for a reason of the instruction: base register SP with no or an immediate offset, or a literal
  (20_memory.md R84 item 13), DC GZVA (41_system_instructions.md R144), STZGM. -/
  unchecked : Bool
  /-- An atomic access, Load-Acquire or Store-Release that is not exclusive (20_memory.md R116). -/
  acqRel : Bool := false
  /-- An element of a Non-fault load, or not the first of a First-fault load: a fault suppresses it (20_memory.md R118). -/
  nonFault : Bool := false
  /-- Cache maintenance that HCRX_EL2.CMOW and SCTLR_ELx.CMOW act on (41_system_instructions.md R150). -/
  cmow : Bool := false
  deriving DecidableEq, Repr

/-- A hardware update of a descriptor: where it stands, whether its Access flag is set, whether its dirty state is. -/
structure DescUpdate where
  addr : Nat
  af : Bool
  dirty : Bool
  deriving DecidableEq, Repr

/-- Where an access goes. -/
structure Xlat where
  va : Word
  pa : Nat
  space : Space
  type : MemType
  /-- The memory type of stage 1 (42_loadstore_mte_atomics.md R155). -/
  s1Type : MemType
  /-- The memory type that stage 2 provides: the one it forces under HCR_EL2.FWB. -/
  s2Type : MemType
  /-- The intermediate physical address. -/
  ipa : BitVec 52
  alloc : Alloc
  tags : TagAttr
  shareable : Bool
  guarded : Bool
  /-- The location supports unaligned accesses (20_memory.md R110). -/
  unaligned : Bool
  /-- No region of the memory map is there. -/
  absent : Bool
  /-- The register frame it is in, and the offset there. -/
  frame : Option (RegFrame × Nat)
  /-- Stage 2 forced a stage 1 type that is not Write-Back to Write-Back (20_memory.md R116). -/
  forcedWB : Bool
  /-- The value of TCR_ELx the access uses (20_memory.md R106). -/
  tcr : Word
  /-- The MECID of the access (20_memory.md R107, R109). -/
  mecid : Word
  /-- The updates of descriptors that the access makes when it is performed. -/
  updates : List DescUpdate
  /-- A Granule Protection Fault or GPC exception that the granule protection check of the final access gives
  (60_exceptions.md R209). -/
  finalFault : Option LateFault
  deriving DecidableEq, Repr

/-- The key of the byte an access goes to. -/
def Xlat.key (x : Xlat) : Nat := physKey x.space x.pa

/-- Any Device memory type. -/
def isDevice : MemType → Bool
  | .normalWB => false
  | .normalWBOther => false
  | .normalOther => false
  | .normalNC => false
  | _ => true

/-! ### Aborts -/

/-- The fault status codes (PRESUMED, log entry 8). -/
inductive AbortKind where
  | walk (f : WalkFault) (level : Nat) (stage2 : Bool) (ipa : BitVec 52)
  | alignment
  | external
  | tagCheck
  | unsupportedAtomic (stage2 : Bool) (ipa : BitVec 52)
  /-- A match of a watchpoint, by its number (60_exceptions.md R198, R225). -/
  | watchpoint (number : Nat)
  /-- An element access suppressed without an exception, to be reported in the FFR (20_memory.md R118). -/
  | suppressed
  /-- An interrupt taken between the accesses of the instruction (42_loadstore_mte_atomics.md R157). -/
  | interrupted (k : Interrupt)
  deriving DecidableEq, Repr

/-- The abort of a late fault. -/
def lateKind (l : LateFault) : AbortKind := .walk l.fault l.level l.stage2 l.ipa

/-- DFSC or IFSC. -/
def faultStatus : AbortKind → BitVec 6
  | .walk .addressSize l _ _ => 0b000000#6 ||| BitVec.ofNat 6 (l % 4)
  | .walk .translation l _ _ => 0b000100#6 ||| BitVec.ofNat 6 (l % 4)
  | .walk .accessFlag l _ _ => 0b001000#6 ||| BitVec.ofNat 6 (l % 4)
  | .walk .permission l _ _ => 0b001100#6 ||| BitVec.ofNat 6 (l % 4)
  | .walk .externalOnWalk l _ _ => 0b010100#6 ||| BitVec.ofNat 6 (l % 4)
  | .walk .granuleProtection l _ _ => 0b100100#6 ||| BitVec.ofNat 6 (l % 4)
  | .walk .gpc l _ _ => 0b100100#6 ||| BitVec.ofNat 6 (l % 4)
  | .walk .finalGranuleProtection _ _ _ => 0b101000
  | .walk .finalGpc _ _ _ => 0b101000
  | .walk .tlbConflict _ _ _ => 0b110000
  | .alignment => 0b100001
  | .external => 0b010000
  | .tagCheck => 0b010001
  | .unsupportedAtomic _ _ => 0b110101
  | .watchpoint _ => 0b100010
  | .suppressed => 0
  | .interrupted _ => 0

/-- The fault is one of stage 2. -/
def faultStage2 : AbortKind → Bool
  | .walk _ _ b _ => b
  | .unsupportedAtomic b _ => b
  | _ => false

/-- A GPC exception. -/
def isGpc : AbortKind → Bool
  | .walk .gpc _ _ _ => true
  | .walk .finalGpc _ _ _ => true
  | _ => false

/-- A fault of the final physical address access that has priority 32 or 34 (60_exceptions.md R209). -/
def isFinalPA : AbortKind → Bool
  | .walk .finalGranuleProtection _ _ _ => true
  | .walk .finalGpc _ _ _ => true
  | .external => true
  | .tagCheck => true
  | _ => false

/-- External aborts are routed to EL3: SCR_EL3.EA, bit [3]; not in Debug state with EDSCR.SDD set (61_debug_pmu_trace.md
R314). -/
def eaToEL3 (s : State) : Bool := s.cfg.hasEL3 && ibit s .SCR_EL3 3 && !el3SddUndef s

/-- Where an abort is taken: stage 2 faults to EL2, GPC exceptions and External abort routed by SCR_EL3.EA to EL3, the
others, and every one at EL3, to the level's own target (60_exceptions.md R196). In Debug state with EDSCR.SDD set none is
taken to EL3: a GPC exception then goes to the own target as a Granule Protection Fault (61_debug_pmu_trace.md R314;
log entry 86). -/
def abortTarget (k : AbortKind) (s : State) : EL :=
  if s.ps.el = .el3 then .el3
  else if isGpc k && !el3SddUndef s then .el3
  else if faultStage2 k then .el2
  else match k with
    | .external => if eaToEL3 s then .el3 else ownTarget s
    | .walk .externalOnWalk _ _ _ => if eaToEL3 s then .el3 else ownTarget s
    | _ => ownTarget s

/-- The intermediate physical address of a stage 2 fault. -/
def faultIpa : AbortKind → Option (BitVec 52)
  | .walk _ _ true ipa => some ipa
  | .unsupportedAtomic true ipa => some ipa
  | _ => none

/-- HPFAR_EL2.FIPA, bits [47:4], of a stage 2 fault (60_exceptions.md R251). -/
def hpfarOf (k : AbortKind) (s : State) : Option Word :=
  match faultIpa k with
  | some ipa => some (((ipa.setWidth 64 >>> 12) <<< 4) &&& (if has .LPA s then maskOf 64 4 48 else maskOf 64 4 40))
  | none => none

/-- Bits [12:11] of a Data Abort's ISS are LST (60_exceptions.md R215). -/
def lstPresent (dfsc : BitVec 6) : Bool :=
  (field dfsc 4 2 == 0b00#2 || field dfsc 1 5 == 0b10101#5) && field dfsc 2 4 != 0b0000#4

/-- The ISS of a Data Abort or of a GPC exception: CM [8], WnR [6], InD [20] for a fetch, VNCR [13], LST [12:11], whose value
the source does not give, and the fault status (60_exceptions.md R198, R215, R226). -/
def abortIss (d : AccDesc) (k : AbortKind) (vncr : Bool) (s : State) : BitVec 25 :=
  let fetch := d.access == .fetch
  let cm := d.access == .cacheOp
  ((bitTo 8 (!fetch && cm) ||| bitTo 6 (!fetch && (d.write || cm)) ||| bitTo 20 (fetch && isGpc k) ||| bitTo 13 vncr |||
    (if !fetch && !isGpc k && lstPresent (faultStatus k) then
      fieldTo 11 ((Config.freeWord .lst s.free).setWidth 2) else 0) : Word)).setWidth 25 |||
    (faultStatus k).setWidth 25

/-- Where a debug exception is taken: EL2 by MDCR_EL2.TDE, bit [8], or HCR_EL2.TGE, else EL1; at EL2 only by those, at EL3
never (PRESUMED, log entry 56). -/
def debugTarget (s : State) : Option EL :=
  let to2 := el2Enabled s && (ibit s .MDCR_EL2 8 || hcr s 27)
  match s.ps.el with
  | .el3 => none
  | .el2 => if to2 then some .el2 else none
  | _ => if to2 then some .el2 else some .el1

/-- Debug exceptions are enabled: PSTATE.D masks one that is taken to the current level. -/
def debugEnabled (s : State) : Bool :=
  match debugTarget s with
  | some t => !(t == s.ps.el && s.ps.d)
  | none => false

/-- WPTV, bit [17], of a Watchpoint exception (60_exceptions.md R228). -/
def wptv (fnv fnp wpf : Bool) (s : State) : Bool := fnv || fnp || wpf || s.cfg.wptvWhenExact

/-- The ISS of a Watchpoint exception: WPT [23:18], WPTV [17], WPF [16], FnP [15], FnV [10], CM [8], WnR [6] and the status
(60_exceptions.md R228). -/
def watchIss (d : AccDesc) (number : Nat) (s : State) : BitVec 25 :=
  let flags := Config.freeWord .watchFlags s.free
  let v := wptv (bitAt flags 0) (bitAt flags 1) (bitAt flags 2) s
  ((fieldTo 18 (BitVec.ofNat 6 (if v then number else 0)) ||| bitTo 17 v ||| bitTo 16 (bitAt flags 2) |||
    bitTo 15 (bitAt flags 1) ||| bitTo 10 (bitAt flags 0) ||| bitTo 8 (d.access == .cacheOp) ||| bitTo 6 d.write :
    Word)).setWidth 25 ||| (faultStatus (.watchpoint number)).setWidth 25

/-- A watchpoint match: entry to Debug state where EDSCR.HDE, bit [14], is set and halting is allowed (61_debug_pmu_trace.md
R255), else a Watchpoint exception, EC 0x34 or 0x35, with the address (60_exceptions.md R198, R225, R228); with FnV the
recorded address is UNKNOWN. -/
def watchpointEvent (d : AccDesc) (number : Nat) (va : Word) (s : State) : Result :=
  if bitAt s.dbg.edscr 14 && haltingAllowed s then
    let t := halt 0b101011 s.pc s
    .next { t with dbg := { t.dbg with edwar := va } }
  else
    let target := (debugTarget s).getD .el1
    let far := if bitAt (Config.freeWord .watchFlags s.free) 0 then Config.freeWord .faultAddress s.free else va
    raise { target, kind := .sync, ec := if target = s.ps.el then 0x35 else 0x34, iss := watchIss d number s,
            ret := s.pc, far := some far, hpfar := none } s

/-- The exception class of an abort: GPC exception, Instruction Abort or Data Abort, from a lower level or the same one. -/
def abortEc (d : AccDesc) (k : AbortKind) (s : State) : BitVec 6 :=
  let lower := abortTarget k s != s.ps.el
  if isGpc k && abortTarget k s == .el3 then 0x1E
  else if d.access == .fetch then (if lower then 0x20 else 0x21) else (if lower then 0x24 else 0x25)

/-- The exception of an abort: Instruction Abort, Data Abort or GPC exception, from a lower level or the same one, with
the fault address (60_exceptions.md R198, R224); a watchpoint match and an interrupt between two accesses take theirs. -/
def abort {α : Type} (d : AccDesc) (k : AbortKind) (va : Word) (s : State) : Acc α :=
  match k with
  | .watchpoint n => .stop (watchpointEvent d n va s)
  | .interrupted i => .stop (takeInterrupt i s)
  | _ =>
    .stop (raise { target := abortTarget k s, kind := .sync, ec := abortEc d k s, iss := abortIss d k false s,
                   ret := s.pc, far := some va, hpfar := hpfarOf k s } s)

/-- The outcome of translating and checking: a location, or a fault at an address. -/
inductive Loc (α : Type) where
  | ok (a : α) (s : State)
  | fault (k : AbortKind) (va : Word) (s : State)

/-- Go on from a location. -/
def Loc.bind {α β : Type} (m : Loc α) (k : α → State → Loc β) : Loc β :=
  match m with
  | .ok a s => k a s
  | .fault f va s => .fault f va s

/-- A fault of an access ends the instruction with its exception. -/
def Loc.toAcc {α : Type} (d : AccDesc) (m : Loc α) : Acc α :=
  match m with
  | .ok a s => .ok a s
  | .fault k va s => abort d k va s

/-! ### Stage 1 disabled -/

/-- Granule Protection Checks are on (GPCCR_EL3.GPC, bit [16]). -/
def gpcOn (s : State) : Bool := has .RME s && ibit s .GPCCR_EL3 16

/-- Stage 1 translation is enabled: SCTLR_ELx.M (20_memory.md R91); not in the EL1&0 regime with HCR_EL2.DC or TGE, which no rule says
(PRESUMED, log entry 104). -/
def stage1On (s : State) : Bool :=
  sctlr s 0 && !(regime s == .el10 && (hcr s 12 || hcr s 27))

/-- Stage 2 translation is enabled: HCR_EL2.VM, in the EL1&0 regime. -/
def stage2On (s : State) : Bool := regime s == .el10 && hcr s 0

/-- Stage 2 takes part in an access: not in an address translation of stage 1 alone. -/
def stage2For (d : AccDesc) (s : State) : Bool := stage2On s && d.access != .translate

/-- Addresses are flat: the virtual address is the physical one. -/
def flat (d : AccDesc) (s : State) : Bool := !stage1On s && !stage2For d s && !gpcOn s

/-- The tag attribute when stage 1 is disabled (20_memory.md R91). -/
def s1DisabledTags (d : AccDesc) (va : Word) (s : State) : TagAttr :=
  if regime s == .el10 && hcr s 12 then
    if hcr s 57 then .allocationTagged else if mtx s (regime s) va then .canonicallyTagged else .untagged
  else if d.access == .fetch then (if mtx s (regime s) va then .canonicallyTagged else .untagged)
  else if mtx s (regime s) va then .canonicallyTagged else .untagged

/-- The address the range check sees when stage 1 is disabled (20_memory.md R91): the top byte does not count when
address tagging is used, and with MTX the tag bits become copies of bit 55 or zero. -/
def s1DisabledAddr (d : AccDesc) (va : Word) (s : State) : Word :=
  let r := regime s
  if tbi s r va then va &&& maskOf 64 0 56
  else if mtx s r va && d.access != .fetch then
    copyBits va (if twoRanges r && bitAt va 55 then BitVec.allOnes 64 else 0) 56 60
  else va

/-- The location a physical address is, by the memory map. -/
def flatXlat (d : AccDesc) (va : Word) (pa : Nat) (s : State) : Xlat :=
  let base : Xlat := { va, pa, space := curSpace s, type := .normalWB, s1Type := .normalWB, s2Type := .normalWB, ipa := 0,
                       alloc := ⟨true, true, false⟩,
                       tags := s1DisabledTags d va s, shareable := true, guarded := false, unaligned := true,
                       absent := false, frame := none, forcedWB := false, tcr := ireg s (tcrOf (regime s)), mecid := 0,
                       updates := [], finalFault := none }
  match regionAt pa s.cfg.memMap with
  | none => { base with absent := true }
  | some r => { base with type := r.type, s1Type := r.type, s2Type := r.type, unaligned := r.unaligned,
                          frame := r.frame.map fun f => (f, pa - r.base) }

/-! ### Translation with a TLB and a walk -/

/-- The current ASID: TTBR0 or TTBR1 by TCR_ELx.A1, bit [22], bits [63:48]. -/
def curAsid (s : State) : BitVec 16 :=
  match regime s with
  | .el10 => field (ireg s (if ibit s .TCR_EL1 22 then .TTBR1_EL1 else .TTBR0_EL1)) 48 16
  | .el20 => field (ireg s (if ibit s .TCR_EL2 22 then .TTBR1_EL2 else .TTBR0_EL2)) 48 16
  | _ => 0

/-- The current VMID: VTTBR_EL2[63:48], in the EL1&0 regime with EL2 enabled. -/
def curVmid (s : State) : BitVec 16 :=
  if regime s == .el10 && el2Enabled s then field (ireg s .VTTBR_EL2) 48 16 else 0

/-- The value of TCR_ELx an access through an entry uses: the register's, or the copy the entry holds, but for A1, bit [22],
and EPD0 [7] and EPD1 [23] when they are 1, with E2H 1 (20_memory.md R106). The copy of TCR_EL3 is never used. -/
def accessTcr (e : TLBEntry) (s : State) : Word :=
  let live := ireg s (tcrOf (regime s))
  let kept := if hcr s 34 then
      copyBits (copyBits (copyBits e.tcr live 22 23) (e.tcr &&& live) 7 8) (e.tcr &&& live) 23 24
    else e.tcr
  if regime s != .el3 && Config.freeBool .tlbTcr s.free then kept else live

/-- An entry maps an address: the same block, regime, Security state, ASID and VMID, and the same stages
(20_memory.md R75, R91). -/
def tlbHits (d : AccDesc) (va : Word) (s : State) (e : TLBEntry) : Bool :=
  let m : Word := maskOf 64 e.blocksize 56
  e.regime == regime s && e.ss == curSpace s && (va &&& m) == (e.ia &&& m) &&
    (e.global || e.asid == curAsid (withTcr (accessTcr e s) s)) && e.vmid == curVmid s &&
    e.includesS1 == stage1On s && e.includesS2 == stage2For d s

/-- The E0PD check: EL0 accesses to the half of TTBRn fail with a level 0 Translation fault (20_memory.md R114). -/
def e0pd (va : Word) (s : State) : Bool :=
  stage1On s && s.ps.el == .el0 && twoRanges (regime s) &&
    ibit s (tcrOf (regime s)) (if bitAt va 55 then 56 else 55)

/-- The bits of an address that must be copies of bit [55], or zeros with one range, for stage 1 to translate it: from
64 - TnSZ up, and from P up, the lowest bit that is not significant (20_memory.md R58), without the top byte when address tagging is used, and without [59:56] under MTX (40_pauth_bti.md R134;
20_memory.md R91). -/
def translatedBits (va : Word) (s : State) : Word :=
  let r := regime s
  let size := (field (ireg s (tcrOf r)) (if twoRanges r && bitAt va 55 then 16 else 0) 6).toNat
  let top : Word := if tbi s r va then 0 else if mtx s r va then maskOf 64 60 64 else maskOf 64 56 64
  maskOf 64 (min (64 - size) (addressP s)) 56 ||| top

/-- Stage 1 can translate the address. -/
def vaCanonical (va : Word) (s : State) : Bool :=
  let m := translatedBits va s
  va &&& m == (if twoRanges (regime s) && bitAt va 55 then m else 0)

/-- The physical address space that a stage may give in the current Security state (20_memory.md R75). -/
def boundSpace (sp : Space) (s : State) : Space :=
  match curSpace s, sp with
  | .nonSecure, _ => .nonSecure
  | .realm, .root => .realm
  | .realm, .secure => .realm
  | .secure, .root => .secure
  | .secure, .realm => .secure
  | _, sp => sp

/-- The address space of a number. -/
def spaceOfNum (n : Nat) : Space :=
  if n = 0 then .secure else if n = 1 then .nonSecure else if n = 2 then .root else .realm

/-- A descriptor's place, in an address space the current Security state may use. -/
def boundKey (key : Nat) (s : State) : Nat :=
  physKey (boundSpace (spaceOfNum (key / 2 ^ 52 % 4)) s) (key % 2 ^ 52)

/-- What every entry used in the current context is bound to: the regime, Security state, ASID, VMID and stages of the
context, an address space it may reach (20_memory.md R75). -/
def bindEntry (d : AccDesc) (va : Word) (e : TLBEntry) (s : State) : TLBEntry :=
  { e with
    regime := regime s, ss := curSpace s, includesS1 := stage1On s, includesS2 := stage2For d s, includesGpt := gpcOn s
    ia := va, asid := curAsid s, vmid := curVmid s, space := boundSpace e.space s
    descAddr := boundKey e.descAddr s, desc2Addr := boundKey e.desc2Addr s }

/-- The request of a walk. -/
def walkReq (d : AccDesc) (va : Word) (s : State) : WalkReq :=
  { va, regime := regime s, space := curSpace s, access := d.access, write := d.write, el0 := s.ps.el == .el0,
    asid := curAsid s, vmid := curVmid s }

/-- An entry a walk answers, as it is cached: with the TCR values it was made under. -/
def walkedEntry (d : AccDesc) (va : Word) (e : TLBEntry) (s : State) : TLBEntry :=
  { bindEntry d va e s with tcr := ireg s (tcrOf (regime s)), tcr2 := ireg s (tcr2Of (regime s)) }

/-- Everything that stage 2 gives an entry, and the output address with it, as another entry has it: the address, its space and
size, the stage 2 permissions, attributes and descriptor, and the memory type, which stage 2 takes part in. -/
def withStage2Of (o e : TLBEntry) : TLBEntry :=
  { e with
    oa := o.oa, blocksize := o.blocksize, space := o.space, ipa := o.ipa, level := o.level
    s2r := o.s2r, s2w := o.s2w, s2x := o.s2x, af2 := o.af2, desc2Addr := o.desc2Addr
    s2Attr := o.s2Attr, s2Type := o.s2Type, type := o.type, s1Type := o.s1Type, alloc := o.alloc, tags := o.tags
    shareable := o.shareable }

/-- The entry, of some that hit, that a part of an amalgamation comes from. -/
def partOf (n : Nat) (l : List TLBEntry) (e : TLBEntry) (s : State) : TLBEntry :=
  l.getD ((Config.freeWord (.tlbPart n) s.free).toNat % l.length) e

/-- Stage 1 of an amalgamation: each permission bit, each attribute and the Access flag from any of the entries. The dirty state comes
with the descriptor that its update writes, the memory type with the hints of the same attribute (20_memory.md R75; log entry 17). -/
def amalgamateStage1 (hits : List TLBEntry) (e : TLBEntry) (s : State) : TLBEntry :=
  let part (n : Nat) : TLBEntry := partOf n hits e s
  let attr := part 1
  let dirty := part 2
  { e with
    type := attr.type, s1Type := attr.s1Type, alloc := attr.alloc, tags := attr.tags
    writeableClean := dirty.writeableClean, descAddr := dirty.descAddr
    shareable := (part 3).shareable, guarded := (part 4).guarded, amec := (part 5).amec, af := (part 6).af
    xn54 := (part 7).xn54, xn53 := (part 8).xn53, ap1 := (part 9).ap1, ap2 := (part 10).ap2
    tcr := (part 11).tcr, tcr2 := (part 12).tcr2, level := (part 13).level }

/-- Stage 2 of an amalgamation, with the intermediate physical address of `o`: each part from an entry for that address, and of stage 1
only a memory type that was combined with the same stage 2 type, and the Shareability of the same stage 2 descriptor: stage 1 never
bypasses stage 2 (20_memory.md R75). -/
def amalgamateStage2 (hits : List TLBEntry) (o e : TLBEntry) (s : State) : TLBEntry :=
  let same := hits.filter fun h => h.ipa == o.ipa
  let part (n : Nat) : TLBEntry := partOf n same o s
  let out := part 20
  let flag := part 21
  let mem := part 22
  let attr := partOf 1 (hits.filter fun h => h.s2Attr == mem.s2Attr && h.s2Type == mem.s2Type) mem s
  let share := partOf 3 (same.filter fun h => h.desc2Addr == mem.desc2Addr) mem s
  { e with
    ipa := o.ipa, oa := out.oa, blocksize := out.blocksize, space := out.space
    af2 := flag.af2, desc2Addr := flag.desc2Addr
    s2r := (part 23).s2r, s2w := (part 24).s2w, s2x := (part 25).s2x
    s2Attr := mem.s2Attr, s2Type := mem.s2Type
    type := attr.type, s1Type := attr.s1Type, alloc := attr.alloc, tags := attr.tags, shareable := share.shareable }

/-- An amalgamation of several entries, within the bound of 20_memory.md R75: every part comes from one of them. The output address is
one entry's; its space comes with it where a Granule Protection Check has allowed the two together. -/
def amalgamate (hits : List TLBEntry) (e : TLBEntry) (s : State) : TLBEntry :=
  let out := partOf 0 hits e s
  let e1 := amalgamateStage1 hits e s
  if out.includesS2 then amalgamateStage2 hits out e1 s
  else { e1 with
    oa := out.oa, blocksize := out.blocksize, ipa := out.ipa
    space := if out.includesGpt then out.space else (partOf 14 hits e s).space }

/-- The bound on an arbitrary result: where stage 2 takes part, the output address and what stage 2 gives are those of one of the
entries, so that nothing is reached that stage 2 does not allow (20_memory.md R75, R99). -/
def boundEntry (hits : List TLBEntry) (e : TLBEntry) (s : State) : TLBEntry :=
  let out := partOf 0 hits e s
  if out.includesS2 then withStage2Of out e else e

/-- Misprogramming of the Contiguous bit: some of the entries have it and some do not (20_memory.md R98). -/
def contiguousMixed (hits : List TLBEntry) : Bool := hits.any (·.contiguous) && hits.any (!·.contiguous)

/-- Two entries differ at most in what a TLB may hold of TCR_ELx, in the ASID of a global entry, and in the Access flags and the
dirty state that hardware updates. -/
def sameDescriptor (e w : TLBEntry) : Bool :=
  let dirty := e.writeableClean || w.writeableClean
  { e with tcr := w.tcr, tcr2 := w.tcr2, asid := if e.global then w.asid else e.asid, af := w.af, af2 := w.af2
           writeableClean := w.writeableClean, ap2 := if dirty then w.ap2 else e.ap2 } == w

/-- What the translation tables now give the address an entry was made for. -/
def nowGiven (d : AccDesc) (s : State) (e : TLBEntry) : Option TLBEntry :=
  match Config.walk (walkReq d e.ia s) (viewSys s) s.mem with
  | .entry w => some (walkedEntry d e.ia w s)
  | _ => none

/-- An entry is what the translation tables now give the address it was made for: it is no copy of an entry that has been changed
since. -/
def programmed (d : AccDesc) (e : TLBEntry) (s : State) : Bool := (nowGiven d s e).any (sameDescriptor e ·)

/-- Several entries hit: one of them when they are entries of the tables as they stand that differ in content under a consistent
Contiguous bit (R100); else a conflict abort or one of them, and with copies of changed entries among them an amalgamation
(20_memory.md R75), with the Contiguous bit misprogrammed in the tables as they stand and support level 0 an arbitrary result
within the bound (R99). -/
def resolveHits (d : AccDesc) (va : Word) (hits : List TLBEntry) (e : TLBEntry) (s : State) : Option TLBEntry :=
  let pick := hits.getD ((Config.freeWord .tlbPick s.free).toNat % hits.length) e
  let changed := hits.any fun h => !programmed d h s
  let misprogrammed := contiguousMixed (hits.filterMap (nowGiven d s))
  if !changed && hits.all (·.contiguous) then some pick
  else if Config.freeBool .tlbConflict s.free then none
  else if !Config.freeBool .tlbAmalgam s.free then some pick
  else if misprogrammed && s.cfg.bbmLevel0 && (!changed || Config.freeBool .tlbArbitrary s.free) then
    some (bindEntry d va (boundEntry hits (Config.amalgam hits s.free) s) s)
  else if misprogrammed && !changed then some pick
  else some (amalgamate hits e s)

/-- Stage 1 read, write and execute permissions of an entry for privileged or unprivileged accesses; under
HCR_EL2.{NV, NV1} == {1, 1} bit [54] is PXN, UXN is 0 and AP[1] is 0 (20_memory.md R68). That a location which EL0 can write is not
executable at the privileged level no rule says (PRESUMED, log entry 104). -/
def s1Perms (e : TLBEntry) (unpriv : Bool) (s : State) : Bool × Bool × Bool :=
  let two := twoRanges e.regime
  let nv := e.regime == .el10 && hcr s 42 && hcr s 43
  let ap1 := two && e.ap1 && !nv
  let w := !e.ap2 || e.writeableClean
  let uxn := !nv && e.xn54
  let pxn := if nv then e.xn54 else if two then e.xn53 else e.xn54
  if !e.includesS1 then (true, true, true)
  else if unpriv then (ap1, ap1 && w, !uxn)
  else (true, w, !pxn && !(ap1 && w))

/-- Privileged Access Never forbids a privileged data access to a location that EL0 can access, or with EPAN execute
(20_memory.md R74, 10_state.md R44). It has no effect on fetches and on data cache instructions other than DC ZVA, DC
GZVA and DC GVA. -/
def panForbids (d : AccDesc) (e : TLBEntry) (s : State) : Bool :=
  let counts := match d.access with
    | .fetch => false
    | .cacheOp => false
    | _ => true
  let nv := e.regime == .el10 && hcr s 42 && hcr s 43
  let epan := has .PAN3 s && ibit s (sctlrOf e.regime) 57 && twoRanges e.regime
  counts && s.ps.pan && s.ps.el != .el0 && twoRanges e.regime && e.includesS1 &&
    ((e.ap1 && !nv) || (epan && !(!nv && e.xn54)))

/-- The permission an access lacks: at stage 1, at stage 2, or none. Cache maintenance at EL0 needs read permission at stage 1 and
none at stage 2 (DESIGN CHOICE, log entry 79: R150 of 41_system_instructions.md covers read without write permission alone); IC IVAU,
DC CIVAC, DC CIGVAC and DC CIGDVAC need write permission too under CMOW. Where cache maintenance is a NOP none of these
faults need be generated (R150). With {E2H, TGE} {1, 1} the control at EL0 is bit [32] of SCTLR_EL2
(DESIGN CHOICE, log entry 79: the rule names SCTLR_EL1.CMOW). -/
def permissionFault (d : AccDesc) (e : TLBEntry) (s : State) : Option Bool :=
  let unpriv := s.ps.el == .el0
  let (r, w, x) := s1Perms e unpriv s
  let cmow1 := d.cmow && unpriv && ibit s (if e2hTge s then .SCTLR_EL2 else .SCTLR_EL1) 32
  let cmow2 := d.cmow && (s.ps.el == .el0 || s.ps.el == .el1) && el2Enabled s && ibit s .HCRX_EL2 9
  let cmoFaults := !s.cfg.cmoNop || s.cfg.cmowFaultWhenNop
  let s1Bad := match d.access with
    | .fetch => !x
    | .cacheOp => cmoFaults && unpriv && (!r || (cmow1 && !w))
    | _ => if d.write then !w else !r
  let s2Bad := e.includesS2 && (match d.access with
    | .fetch => !e.s2x
    | .cacheOp => cmoFaults && cmow2 && e.s2r && !e.s2w
    | _ => if d.write then !e.s2w else !e.s2r)
  if s1Bad || panForbids d e s then some false else if s2Bad then some true else none

/-- Hardware update of a descriptor: the Access flag and the dirty state, AP[2] (20_memory.md R70, R117). No rule says that they are
bits [10] and [7] (PRESUMED, log entry 104), nor what the byte order of an update is: it is little-endian, whatever
`cfg.bigEndian` says of data (DESIGN CHOICE, log entry 107). -/
def updateDescriptor (u : DescUpdate) (s : State) : State :=
  let s1 := if u.af then writeByte (u.addr + 1) (readByte (u.addr + 1) s ||| 0x04) s else s
  if u.dirty then writeByte u.addr (readByte u.addr s1 &&& 0x7F) s1 else s1

/-- The updates of some descriptors. -/
def updateDescriptors (us : List DescUpdate) (s : State) : State := us.foldl (fun acc u => updateDescriptor u acc) s

/-- An access is performed: its descriptors are updated. -/
def commit (x : Xlat) (s : State) : State := updateDescriptors x.updates s

/-- Those of some updates that are drawn, from number `n` on, without the dirty state. -/
def drawnUpdates (s : State) : Nat → List DescUpdate → List DescUpdate
  | _, [] => []
  | n, u :: us =>
    if Config.freeBool (.accessFlagUpdate n) s.free then { u with dirty := false } :: drawnUpdates s (n + 1) us
    else drawnUpdates s (n + 1) us

/-- An access faults after descriptors were read whose Access flags hardware manages: it is free of each whether its flag is
set (20_memory.md R117). -/
def faultUpdates (us : List DescUpdate) (s : State) : State := updateDescriptors (drawnUpdates s 0 us) s

/-- Hardware management of the Access flag and of the dirty state (TCR_ELx.HA and HD, bits [39] and [40], or [21] and
[22] with one VA range). -/
def hwAf (s : State) : Bool := ibit s (tcrOf (regime s)) (if twoRanges (regime s) then 39 else 21)

/-- TCR_ELx.HD. -/
def hwDirty (s : State) : Bool := hwAf s && ibit s (tcrOf (regime s)) (if twoRanges (regime s) then 40 else 22)

/-- Hardware management of the Access flag at stage 2: VTCR_EL2.HA, bit [21]. -/
def hwAf2 (s : State) : Bool := ibit s .VTCR_EL2 21

/-- The allocation hint under HCR_EL2.FWB: the one of stage 1 where its type is cacheable, else Read-Allocate and
Write-Allocate (10_state.md R25). -/
def fwbAlloc (e : TLBEntry) : Alloc :=
  if isDevice e.s1Type ∨ e.s1Type = .normalNC then ⟨true, true, false⟩ else e.alloc

/-- HCR_EL2.FWB, bit [46], forces the type of an access through stage 2. -/
def forcesWB (e : TLBEntry) (s : State) : Bool := has .S2FWB s && e.includesS2 && hcr s 46

/-- The memory type that a stage 2 attribute forces: MemAttr[2:0] 0b110 forces Normal Write-Back (20_memory.md R116). -/
def forcedType (e : TLBEntry) : MemType :=
  if field e.s2Attr 0 3 = 0b110#3 then .normalWB else Config.s2fwbAttr e.s2Attr e.s1Type

/-- The memory type of an entry: under HCR_EL2.FWB the one its stage 2 attribute gives, Write-Back with the allocation hint
of `fwbAlloc` (10_state.md R25). -/
def entryType (e : TLBEntry) (s : State) : MemType :=
  if forcesWB e s then
    let t := forcedType e
    if t = .normalWB ∧ fwbAlloc e ≠ ⟨true, true, false⟩ then .normalWBOther else t
  else e.type

/-- The memory type that stage 2 provides. -/
def stage2Type (e : TLBEntry) (s : State) : MemType := if forcesWB e s then entryType e s else e.s2Type

/-- A stage 1 type of Normal memory other than Write-Back, and MemAttr[2:0] is 0b110 (20_memory.md R116). -/
def forcedFromOther (e : TLBEntry) (s : State) : Bool :=
  forcesWB e s && field e.s2Attr 0 3 == 0b110#3 && (e.s1Type == .normalOther || e.s1Type == .normalNC)

/-- SCTLR2_EL2.EMEC, bit [1]: outside Realm state there is no alternate MECID (10_state.md R49). -/
def emec2 (s : State) : Bool := has .MEC s && ibit s .SCTLR2_EL2 1 && curSpace s == .realm

/-- The AMEC bit of an entry: RES0 while SCTLR2_EL2.EMEC is 0 (10_state.md R49). -/
def entryAmec (e : TLBEntry) (s : State) : Bool :=
  e.amec && emec2 s && (e.regime == .el2 || e.regime == .el20)

/-- TCR2_EL2.AMEC0, bit [12], or AMEC1, bit [13], for the half of the address; a TLB may hold a 1 (20_memory.md R106). That AMEC0
controls the lower half, TTBR0_EL2's, in the EL2&0 regime is a DESIGN CHOICE (log entry 78): R40 of 10_state.md prints its text for
the EL2 regime alone. -/
def amecEnabled (va : Word) (e : TLBEntry) (s : State) : Bool :=
  let n := if twoRanges e.regime && bitAt va 55 then 13 else 12
  ibit s .TCR2_EL2 n || (bitAt e.tcr2 n && Config.freeBool .tlbTcr s.free)

/-- Access by AMEC == 1 descriptors is disabled (10_state.md R40). -/
def amecDisabled (va : Word) (e : TLBEntry) (s : State) : Bool := entryAmec e s && !amecEnabled va e s

/-- The MECID of an access to the Realm physical address space (20_memory.md R107, R109; 10_state.md R40, R49): at EL3, and at
EL2, while EMEC is 0 the default of zero; at EL2 by the AMEC bit of the entry and the half of the VA range; at EL1&0
VMECID_A or VMECID_P. The rule gives the MECID of EL3 for EMEC 0 alone: with SCTLR2_EL3.EMEC 1 it is a free value (log entry 80). -/
def realmMecid (va : Word) (e : TLBEntry) (s : State) : Word :=
  if e.space != .realm || !has .MEC s then 0
  else match e.regime with
    | .el3 => if ibit s .SCTLR2_EL3 1 then Config.freeWord .el3Mecid s.free else 0
    | .el10 => if !ibit s .SCTLR2_EL2 1 then 0 else if e.amec then ireg s .VMECID_A_EL2 else ireg s .VMECID_P_EL2
    | r =>
      if !ibit s .SCTLR2_EL2 1 then 0
      else match entryAmec e s, twoRanges r && bitAt va 55 with
        | false, false => ireg s .MECID_P0_EL2
        | false, true => ireg s .MECID_P1_EL2
        | true, false => ireg s .MECID_A0_EL2
        | true, true => ireg s .MECID_A1_EL2

/-- The intermediate physical address of an address in the block of an entry. -/
def entryIpa (va : Word) (e : TLBEntry) : BitVec 52 :=
  (e.ipa &&& ~~~(maskOf 52 0 e.blocksize)) ||| (va.setWidth 52 &&& maskOf 52 0 e.blocksize)

/-- The update of the stage 1 descriptor that an access by an entry makes: the Access flag where hardware manages it (R117), and the
dirty state of a writeable-clean descriptor; where the tag write of an STG is ignored the last is free (20_memory.md R70). -/
def s1Updates (d : AccDesc) (e : TLBEntry) (s : State) : List DescUpdate :=
  let dirty := d.write && e.writeableClean && e.ap2 && hwDirty s &&
    !(d.access == .tagStore && (!tagAccess s || e.tags != .allocationTagged) && !Config.freeBool .dirtyUpdate s.free)
  let flag := !e.af && hwAf s
  if e.includesS1 && (flag || dirty) then [⟨e.descAddr, flag, dirty⟩] else []

/-- The update of the stage 2 descriptor: its Access flag where hardware manages it. -/
def s2Updates (e : TLBEntry) (s : State) : List DescUpdate := if e.includesS2 && !e.af2 && hwAf2 s then [⟨e.desc2Addr, true, false⟩] else []

/-- The updates of descriptors an access by an entry makes. -/
def entryUpdates (d : AccDesc) (e : TLBEntry) (s : State) : List DescUpdate := s1Updates d e s ++ s2Updates e s

/-- The location an entry gives an address: `va` as the access names it, `a` as it is translated. With stage 1 disabled the
tag attribute is the one of R91. -/
def entryXlat (d : AccDesc) (va a : Word) (e : TLBEntry) (s : State) : Xlat :=
  let pa := ((e.oa &&& ~~~(maskOf 52 0 e.blocksize)) ||| (a.setWidth 52 &&& maskOf 52 0 e.blocksize)).toNat
  let base : Xlat := { va, pa, space := e.space, type := entryType e s, s1Type := e.s1Type, s2Type := stage2Type e s,
                       ipa := entryIpa a e,
                       alloc := fwbAlloc e,
                       tags := if stage1On s then e.tags else s1DisabledTags d va s,
                       shareable := e.shareable, guarded := e.guarded, unaligned := true, absent := false, frame := none,
                       forcedWB := forcedFromOther e s, tcr := accessTcr e s, mecid := realmMecid va e s,
                       updates := entryUpdates d e s, finalFault := none }
  match regionAt pa s.cfg.memMap with
  | none => { base with absent := true }
  | some r => { base with unaligned := r.unaligned, type := if isDevice r.type then r.type else base.type,
                          frame := r.frame.map fun f => (f, pa - r.base) }

/-- A fault of the granule protection check of the final access. -/
def lateIsFinal (l : LateFault) : Bool := isFinalPA (lateKind l)

/-- A fault on a table walk, of a kind that comes before every MMU fault that is not on one (60_exceptions.md R209). -/
def lateOnWalk (l : LateFault) : Bool :=
  match l.fault with
  | .externalOnWalk => true
  | .granuleProtection => true
  | .gpc => true
  | _ => false

/-- Use an entry: the alternate MECID enable, the Access flags and the permissions of stage 1, then of stage 2
(20_memory.md R70). A fault leaves it free of each Access flag of the descriptors that were used before it whether it is set: after
a stage 1 Permission fault and any fault of stage 2 up to its Access flag fault stage 1's, after a stage 2 Permission fault of
both (R117). `late` is the fault the walk met after stage 1: on a table walk it comes before the checks, of stage 2 after those
of stage 1, and of the final access after all of them, so that the location carries it (60_exceptions.md R209). A disabled
AMEC descriptor is reported as a Translation fault (DESIGN CHOICE, log entry 58). -/
def useEntry (late : Option LateFault) (d : AccDesc) (va a : Word) (e : TLBEntry) (s : State) : Loc Xlat :=
  let v := withTcr (accessTcr e s) s
  let ipa := entryIpa a e
  let perm := permissionFault d e v
  let walkFault := late.filter (!lateIsFinal ·)
  if late.any lateOnWalk then lateFault walkFault va (faultUpdates (s1Updates d e v) s)
  else if amecDisabled va e v then .fault (.walk .translation e.level false 0) va s
  else if e.includesS1 && !e.af && !hwAf v then .fault (.walk .accessFlag e.level false 0) va s
  else if perm = some false then
    .fault (.walk .permission e.level false 0) va (faultUpdates (s1Updates d e v) s)
  else if walkFault.isSome then lateFault walkFault va (faultUpdates (s1Updates d e v) s)
  else if e.includesS2 && !e.af2 && !hwAf2 v then
    .fault (.walk .accessFlag e.level true ipa) va (faultUpdates (s1Updates d e v) s)
  else if perm = some true then
    .fault (.walk .permission e.level true ipa) va (faultUpdates (entryUpdates d e v) s)
  else .ok { entryXlat d va a e v with finalFault := late } s
where
  /-- Report a late fault. -/
  lateFault (l : Option LateFault) (va : Word) (t : State) : Loc Xlat := .fault (lateKind (l.getD default)) va t

/-- log2 of the granule GPCCR_EL3.PGS, bits [13:12], selects (20_memory.md R103). -/
def pgsLog2 (s : State) : Nat :=
  match (field (ireg s .GPCCR_EL3) 12 2).toNat with
  | 0 => 12
  | 1 => 16
  | _ => 14

/-- The size of a block a GPT Granules descriptor gives, as log2: with 4KB granules never a 64KB contiguous one
(20_memory.md R103). -/
def gptBlockLog2 (contiguous64k : Bool) (s : State) : Nat :=
  if contiguous64k && pgsLog2 s != 12 then max 16 (pgsLog2 s) else pgsLog2 s

/-- The GPT entry that a granule protection check of an entry's output may leave cached. -/
def gptFill (e : TLBEntry) (s : State) : List GptEntry :=
  if gpcOn s then ⟨e.oa, gptBlockLog2 (Config.freeBool .gptContiguous s.free) s, 1⟩ :: s.gptTlb else s.gptTlb

/-- A walk's result may be cached, in place of the entries `old` (20_memory.md R59). -/
def fillTlb (old : List TLBEntry) (e : TLBEntry) (s : State) : State :=
  if Config.freeBool .tlbFill s.free then
    { s with tlb := e :: s.tlb.filter (!old.contains ·), gptTlb := gptFill e s }
  else s

/-- A fault before stage 1 gives its output is one on a table walk, not of the final access. -/
def onWalk : WalkFault → WalkFault
  | .finalGranuleProtection => .granuleProtection
  | .finalGpc => .gpc
  | f => f

/-- Translate by a walk, which reads memory as every earlier access left it (20_memory.md R72) and the System registers as indirect
reads see them (70_reset_and_hazards.md R324, R331). A walk that faults leaves nothing in the TLB. -/
def walkAccess (d : AccDesc) (va a : Word) (old : List TLBEntry) (s : State) : Loc Xlat :=
  match Config.walk (walkReq d a s) (viewSys s) s.mem with
  | .fault f level stage2 ipa => .fault (.walk (onWalk f) level (stage2 && stage2For d s) ipa) va s
  | .stopped e l => useEntry (some { l with stage2 := l.stage2 && stage2For d s }) d va a (walkedEntry d a e s) s
  | .entry e => useEntry none d va a (walkedEntry d a e s) (fillTlb old (walkedEntry d a e s) s)

/-- Use a cached entry; with FEAT_ETS2 a fault comes only from descriptors read after every earlier access
(20_memory.md R72, R73). -/
def useCached (d : AccDesc) (va a : Word) (old : List TLBEntry) (e : TLBEntry) (s : State) : Loc Xlat :=
  match useEntry none d va a e s with
  | .ok x s1 => .ok x s1
  | .fault k va' s1 => if has .ETS2 s then walkAccess d va a old s else .fault k va' s1

/-- NFD0 [53] or NFD1 [54] of TCR_ELx: a suppressible access that misses in the TLB fails without a walk
(20_memory.md R118). -/
def nfd (va : Word) (s : State) : Bool :=
  twoRanges (regime s) && ibit s (tcrOf (regime s)) (if bitAt va 55 then 54 else 53)

/-- The address carries the error code of a failed authentication: bits [54] and [53] differ, which no address does that
stage 1 translates or that is a physical address (40_pauth_bti.md R128; the place is the model's, log entry 82). -/
def errorCoded (va : Word) : Bool := bitAt va 54 != bitAt va 53

/-- The fault of a physical address that is out of range while stage 1 is disabled: an address with an error code gives a
Translation fault (40_pauth_bti.md R128), another an Address size fault (DESIGN CHOICE, log entry 82: R91 of 20_memory.md says
only that the function makes range checks). -/
def rangeFault (va : Word) : WalkFault := if errorCoded va then .translation else .addressSize

/-- The checks on an address before it is looked up: its range, E0PD (20_memory.md R91, R114; 40_pauth_bti.md R128, R134). That a
non-canonical address gives a Translation fault, and the faults of this check are of stage 1, level 0, is a DESIGN CHOICE (log
entry 82): R134 says only that it generates a fault. -/
def addressFault (a va : Word) (s : State) : Option WalkFault :=
  if !stage1On s then (if decide (2 ^ s.cfg.paSize ≤ a.toNat) then some (rangeFault va) else none)
  else if e0pd va s || !vaCanonical va s || errorCoded va then some .translation
  else none

/-- The machine with the value of TCR_ELx that an access uses which these entries match. -/
def hitView (hits : List TLBEntry) (s : State) : State :=
  match hits with
  | e :: _ => withTcr (accessTcr e s) s
  | [] => s

/-- Translate an address by the entries that match it, or by a walk. -/
def lookupIn (hits : List TLBEntry) (d : AccDesc) (va a : Word) (s : State) : Loc Xlat :=
  match addressFault a va (hitView hits s) with
  | some f => .fault (.walk f 0 false 0) va s
  | none =>
    match hits with
    | [e] => useCached d va a [e] e s
    | e :: es =>
      match resolveHits d a (e :: es) e s with
      | none => .fault (.walk .tlbConflict 0 false 0) va s
      | some e' => useCached d va a (e :: es) e' s
    | [] => if d.nonFault && stage1On s && nfd va s then .fault .suppressed va s else walkAccess d va a [] s

/-- The address as translation sees it. -/
def lookupAddr (d : AccDesc) (va : Word) (s : State) : Word := if stage1On s then va else s1DisabledAddr d va s

/-- The entries of a TLB that map an address. -/
def hitsOf (tlb : List TLBEntry) (d : AccDesc) (va : Word) (s : State) : List TLBEntry :=
  tlb.filter (tlbHits d (lookupAddr d va s) s)

/-- Translation, the descriptors not yet updated: flat when nothing is enabled, else by the TLB or a walk, whose result may be
cached; the location carries a fault of the final access. A TLB conflict abort is reported as one of stage 1, level 0, at the
level's own target (DESIGN CHOICE, log entry 59). -/
def findWith (tlb : List TLBEntry) (d : AccDesc) (va : Word) (s : State) : Loc Xlat :=
  if flat d s then
    if s.cfg.paSize ≤ 52 ∧ (s1DisabledAddr d va s).toNat < 2 ^ s.cfg.paSize then
      .ok (flatXlat d va (s1DisabledAddr d va s).toNat s) s
    else .fault (.walk (rangeFault va) 0 false 0) va s
  else lookupIn (hitsOf tlb d va s) d va (lookupAddr d va s) s

/-- The same with the TLB as it is. -/
def find (d : AccDesc) (va : Word) (s : State) : Loc Xlat := findWith s.tlb d va s

/-- A translation ends with the fault of the final access if there is one; it is free of each Access flag whether it is set
(20_memory.md R117). -/
def Loc.settled (va : Word) (m : Loc Xlat) : Loc Xlat :=
  m.bind fun x s =>
    match x.finalFault with
    | some l => .fault (lateKind l) va (faultUpdates x.updates s)
    | none => .ok x s

/-- `Translate`, the descriptors not yet updated. -/
def lookupWith (tlb : List TLBEntry) (d : AccDesc) (va : Word) (s : State) : Loc Xlat := (findWith tlb d va s).settled va

/-- The same with the TLB as it is. -/
def lookup (d : AccDesc) (va : Word) (s : State) : Loc Xlat := lookupWith s.tlb d va s

/-- `Translate`, with the updates of descriptors. -/
def translate (d : AccDesc) (va : Word) (s : State) : Loc Xlat :=
  (lookup d va s).bind fun x s1 => .ok x (commit x s1)

/-- The current instruction is in a guarded page (40_pauth_bti.md R136). -/
def guardedHere (s : State) : Bool :=
  match translate { access := .fetch, write := false, exclusive := false, unchecked := false } s.pc s with
  | .ok x _ => x.guarded
  | .fault _ _ _ => false

/-! ### Tags -/

/-- The location is Tagged (20_memory.md R79, R80). -/
def tagged (x : Xlat) (s : State) : Bool :=
  x.tags == .allocationTagged && x.type == .normalWB && tagAccess s &&
    (x.shareable || s.cfg.nonShareableTagged) && (sctlr s 2 || Config.freeBool .taggedCacheOff s.free)

/-- The access is Tag Checked (20_memory.md R82 to R85, R90): a read or write of data, DC ZVA, or a write of the trace buffer,
to a Tagged location, with address tagging. The Profiling Buffer's writes are Tag Unchecked (R84 item 9). -/
def tagChecked (d : AccDesc) (x : Xlat) (s : State) : Bool :=
  let r := regime s
  let logical := field x.va 56 4
  let kind := match d.access with
    | .load => true
    | .store => true
    | .dcZero => true
    | .trace => true
    | _ => false
  kind && tagged x s && !s.ps.tco && tbi s r x.va &&
    !(logical == 0b0000#4 && !(twoRanges r && bitAt x.va 55) && tcma s r x.va) &&
    !(logical == 0b1111#4 && twoRanges r && bitAt x.va 55 && tcma s r x.va) && !d.unchecked

/-- The tag check fails: the Logical Address Tag is not the Allocation Tag. -/
def tagMismatch (x : Xlat) (s : State) : Bool := field x.va 56 4 != readTag x.key s

/-- The Tag Check Fault mode: SCTLR_ELx.TCF0 at EL0, TCF else (42_loadstore_mte_atomics.md R162). -/
def tcf (s : State) : BitVec 2 := field (ireg s (sctlrOf (regime s))) (if s.ps.el = .el0 then 38 else 40) 2

/-- The register that collects asynchronous Tag Check Faults. -/
def tfsrReg (s : State) : SysReg :=
  match s.ps.el with
  | .el0 => .TFSRE0_EL1
  | .el1 => .TFSR_EL1
  | .el2 => .TFSR_EL2
  | .el3 => .TFSR_EL3

/-- An asynchronous Tag Check Fault: TF0 or TF1 of the TFSR by address bit 55. -/
def recordTagFault (va : Word) (s : State) : State :=
  setReg (tfsrReg s) (setBit (sreg s (tfsrReg s)) (if bitAt va 55 then 1 else 0) true) s

/-! ### The checks of an access -/

/-- Watchpoints can match now: halting on debug events is enabled, or the debug exception is not masked. -/
def watchEnabled (s : State) : Bool := !halted s && ((bitAt s.dbg.edscr 14 && haltingAllowed s) || debugEnabled s)

/-- The kinds of access that watchpoints watch: loads, stores, and instructions that zero data or store tags. -/
def watchable : Access → Bool
  | .load => true
  | .store => true
  | .dcZero => true
  | .dcTag => true
  | .tagStore => true
  | _ => false

/-- A watchpoint watches some of `n` bytes. -/
def watches (d : AccDesc) (n : Nat) (va : Word) (w : Watchpoint) : Bool :=
  decide (w.lo.toNat < va.toNat + n) && decide (va.toNat ≤ w.hi.toNat) && (if d.write then w.store else w.load)

/-- The first watchpoint that an access of `n` bytes matches, and its number. -/
def watchHit (d : AccDesc) (n : Nat) (va : Word) (s : State) : Option (Nat × Watchpoint) :=
  if watchable d.access && watchEnabled s then
    match s.dbg.watchpoints.findIdx? (watches d n va) with
    | some k => (s.dbg.watchpoints[k]?).map fun w => (k, w)
    | none => none
  else none

/-- The address a watchpoint match records: of a DC ZVA, DC GVA, DC GZVA or STZGM one of the addresses accessed that match,
whichever (60_exceptions.md R225); of another access its own. -/
def watchAddress (d : AccDesc) (n : Nat) (va : Word) (w : Watchpoint) (s : State) : Word :=
  if d.access = .dcZero ∨ d.access = .dcTag then
    let lo := max w.lo.toNat va.toNat
    let hi := min w.hi.toNat (va.toNat + n - 1)
    BitVec.ofNat 64 (lo + (Config.freeWord .faultAddress s.free).toNat % (hi - lo + 1))
  else va

/-- A match of a watchpoint comes first of a fault of the final access of `n` bytes, where FinalPAAbortPriority says so
(60_exceptions.md R209). -/
def Loc.watched {α : Type} (d : AccDesc) (n : Nat) (va : Word) (m : Loc α) : Loc α :=
  match m with
  | .ok a s => .ok a s
  | .fault k va' s =>
    match watchHit d n va s with
    | some (i, w) =>
      if isFinalPA k && !s.cfg.finalPAAbort32 then .fault (.watchpoint i) (watchAddress d n va w s) s else .fault k va' s
    | none => .fault k va' s

/-- An access to a location where nothing is gives an External abort; a read of an Allocation Tag from an Untagged one is only
permitted to, so that it is free whether it does (20_memory.md R82). -/
def externalAbort (d : AccDesc) (x : Xlat) (s : State) : Bool :=
  x.absent && !(d.access == .tagLoad && !tagged x s && !Config.freeBool .tagReadAbort s.free)

/-- The abort of the final access: a fault of its granule protection check; then an External abort, or a failed tag check by mode;
which of these two is reported is free (60_exceptions.md R209). -/
def finalAbort (d : AccDesc) (x : Xlat) (sync : Bool) (s : State) : Option AbortKind :=
  match x.finalFault with
  | some l => some (lateKind l)
  | none =>
    if externalAbort d x s && sync then some (if Config.freeBool .tagOrAbort s.free then .tagCheck else .external)
    else if externalAbort d x s then some .external
    else if sync then some .tagCheck
    else none

/-- The checks on the final address of an access of `n` bytes: its aborts and the watchpoints, in the order
FinalPAAbortPriority gives (60_exceptions.md R209). An asynchronous Tag Check Fault is recorded and the access goes on. The arms on TCF
are elided (42_loadstore_mte_atomics.md R162): that TCF 0b11 is synchronous for reads and asynchronous for writes, and that an
atomic operation, which is both, counts as a write, is PRESUMED (log entry 48). -/
def finalChecks (d : AccDesc) (n : Nat) (x : Xlat) (s : State) : Loc Xlat :=
  let v := withTcr x.tcr s
  let bad := x.finalFault.isNone && tagChecked d x v && tagMismatch x v
  let sync := bad && (tcf s == 1 || (tcf s == 3 && !d.write))
  let async := bad && (tcf s == 2 || (tcf s == 3 && d.write))
  let s' := if async then recordTagFault x.va s else s
  match watchHit d n x.va s, finalAbort d x sync s with
  | some (i, w), none => .fault (.watchpoint i) (watchAddress d n x.va w s) s
  | some (i, w), some k =>
    if s.cfg.finalPAAbort32 then .fault k x.va s' else .fault (.watchpoint i) (watchAddress d n x.va w s) s
  | none, some k => .fault k x.va s'
  | none, none => .ok x s'

/-- An access of `n` bytes is unaligned. -/
def unaligned (va : Word) (n : Nat) : Bool := va.toNat % n != 0

/-- SCTLR_ELx.A, bit [1]: with HCR_EL2.{E2H, TGE} {1, 1} SCTLR_EL1.A counts as 0 for all purposes (10_state.md R56). -/
def alignmentChecked (s : State) : Bool := sctlr s 1 && !(regime s == .el10 && e2hTge s)

/-- An unaligned access faults before translation: an exclusive one (42_loadstore_mte_atomics.md R160, 45_base_subset.md R195), a
synchronising one by the parameter, or SCTLR_ELx.A (10_state.md R22, R56; 92_eei_decisions.md D15). -/
def alignmentFaults (d : AccDesc) (va : Word) (n : Nat) (s : State) : Bool :=
  unaligned va n && (d.exclusive || (d.acqRel && !s.cfg.unalignedSyncWB) || alignmentChecked s)

/-- Normal Write-Back memory, with any allocation hint. -/
def isWriteBack (t : MemType) : Bool := t == .normalWB || t == .normalWBOther

/-- An unaligned access faults by memory type: Device (20_memory.md R110), or a synchronising access to a type that is not
Write-Back. Where stage 2 forced Write-Back it is free which requirement the access follows (20_memory.md R116). -/
def typeAlignmentFaults (d : AccDesc) (x : Xlat) (s : State) : Bool :=
  (isDevice x.type && (!x.unaligned || s.cfg.deviceUnalignedFaults)) ||
    ((d.exclusive || d.acqRel) && (!isWriteBack x.type || (x.forcedWB && Config.freeBool .forcedWriteBack s.free)))

/-- An access that is translated and allowed by its type is checked, and its descriptors are updated, or on a fault perhaps
their Access flags (20_memory.md R117). -/
def checked (d : AccDesc) (n : Nat) (x : Xlat) (s : State) : Loc Xlat :=
  match finalChecks d n x s with
  | .ok y s1 => .ok y (commit y s1)
  | .fault k va s1 => .fault k va (faultUpdates x.updates s1)

/-- Translate and check one single-copy atomic access of `n` bytes with the TLB as it is; `bad` is a fault the memory type
gives. -/
def attempt (d : AccDesc) (n : Nat) (bad : Xlat → State → Option AbortKind) (va : Word) (s : State) : Loc Xlat :=
  (find d va s).bind fun x s1 =>
    match bad x s1 with
    | some k => .fault k va (faultUpdates x.updates s1)
    | none => checked d n x s1

/-- A fault that rests on what a translation gave: every Fault Effect but a conflict of entries and the events that are no fault
of the access (20_memory.md R72, R73). -/
def fromTranslation : AbortKind → Bool
  | .walk .tlbConflict _ _ _ => false
  | .watchpoint _ => false
  | .suppressed => false
  | .interrupted _ => false
  | _ => true

/-- The machine without the cached entries that map an address. -/
def dropHits (d : AccDesc) (va : Word) (s : State) : State :=
  { s with tlb := s.tlb.filter fun e => !tlbHits d (lookupAddr d va s) s e }

/-- A fault of an access is not taken from a cached entry: with FEAT_ETS2 it comes only from descriptors read after every earlier
access (20_memory.md R72, R73). The fault of the E0PD check comes from no descriptor: nothing of the machine changes with it that
tells whether the TLB holds the address (R114). -/
def rereads (k : AbortKind) (d : AccDesc) (va : Word) (s : State) : Bool :=
  has .ETS2 s && fromTranslation k && !flat d s && !(hitsOf s.tlb d va s).isEmpty &&
    !e0pd va (hitView (hitsOf s.tlb d va s) s)

/-- Translate and check one single-copy atomic access of `n` bytes; `bad` is a fault the memory type gives. Where a fault rests on a
cached entry and may not, the access is made again with what a walk reads. -/
def locateBy (d : AccDesc) (n : Nat) (bad : Xlat → State → Option AbortKind) (va : Word) (s : State) : Loc Xlat :=
  match attempt d n bad va s with
  | .ok x t => .ok x t
  | .fault k va' t => if rereads k d va s then attempt d n bad va (dropHits d va s) else .fault k va' t

/-- Translate and check one byte of an unaligned access, or the `n` bytes of an aligned one. -/
def locate (d : AccDesc) (n : Nat) (va : Word) (misaligned : Bool) (s : State) : Loc Xlat :=
  locateBy d n (fun x t => if misaligned && typeAlignmentFaults d x t then some .alignment else none) va s

/-- The location `k` bytes further on in the same block. -/
def Xlat.plus (x : Xlat) (k : Nat) : Xlat :=
  { x with va := x.va + BitVec.ofNat 64 k, pa := x.pa + k, frame := x.frame.map fun f => (f.1, f.2 + k) }

/-- An interrupt that is taken before the next of the accesses of one instruction (42_loadstore_mte_atomics.md R157), where `n` is a
number of its own for each place between two accesses: each kind has a choice of its own, so that none has priority (60_exceptions.md R199, 92_eei_decisions.md D17). -/
def midInterrupt (n : Nat) (s : State) : Option Interrupt :=
  if halted s then none
  else [Interrupt.serror, .fiq, .irq, .vSError, .vFiq, .vIrq].find? fun k =>
    intReady k s && Config.freeBool (.midInterrupt (6 * n + k.ctorIdx)) s.free

/-- The number of a place between two accesses: in the group `g` of accesses, with `left` accesses of the group to come. -/
def betweenAccesses (g left : Nat) : Nat := 64 * g + left

/-- The locations of several single-copy atomic accesses of a group, made one after another at addresses `stride` apart, each
located by `f`; between two of them an interrupt may be taken. -/
def locateSeq (f : Word → State → Loc Xlat) (stride : Word) (g : Nat) (first : Bool) :
    Nat → Word → State → Loc (List Xlat)
  | 0, _, s => .ok [] s
  | n + 1, va, s =>
    match (if first then none else midInterrupt (betweenAccesses g (n + 1)) s) with
    | some k => .fault (.interrupted k) va s
    | none => (f va s).bind fun x s1 => (locateSeq f stride g false n (va + stride) s1).bind fun xs s2 => .ok (x :: xs) s2

/-- The locations that such accesses reach before a fault or an interrupt stops them. -/
def reachedSeq (f : Word → State → Loc Xlat) (stride : Word) (g : Nat) (first : Bool) : Nat → Word → State → List Xlat
  | 0, _, _ => []
  | n + 1, va, s =>
    match (if first then none else midInterrupt (betweenAccesses g (n + 1)) s) with
    | some _ => []
    | none =>
      match f va s with
      | .ok x s1 => x :: reachedSeq f stride g false n (va + stride) s1
      | .fault _ _ _ => []

/-- The locations of such accesses, each on its own: all that the instruction would affect and that can be accessed. -/
def targetSeq (f : Word → State → Loc Xlat) (stride : Word) (n : Nat) (va : Word) (s : State) : List Xlat :=
  (List.range n).flatMap fun k =>
    match f (va + BitVec.ofNat 64 k * stride) s with
    | .ok x _ => [x]
    | .fault _ _ _ => []

/-- The locations of the bytes of an unaligned access, each translated on its own (92_eei_decisions.md D15). -/
def locateEach (d : AccDesc) (n g : Nat) (va : Word) (s : State) : Loc (List Xlat) :=
  locateSeq (fun a t => locate d 1 a true t) 1 g true n va s

/-- The locations of the `n` bytes of an access that is number `g` of its instruction, all checked before any is read or
written. -/
def locateNth (d : AccDesc) (n g : Nat) (va : Word) (s : State) : Loc (List Xlat) :=
  if alignmentFaults d va n s then .fault .alignment va s
  else if unaligned va n then locateEach d n g va s
  else (locate d n va false s).bind fun x s1 => .ok ((List.range n).map x.plus) s1

/-- The locations of the `n` bytes of the one access of an instruction. -/
def locateAll (d : AccDesc) (n : Nat) (va : Word) (s : State) : Loc (List Xlat) := locateNth d n 0 va s

/-- An access is made of several single-copy atomic ones: it is unaligned, and allowed to be. -/
def isMultiple (d : AccDesc) (n : Nat) (va : Word) (s : State) : Bool := unaligned va n && !alignmentFaults d va n s

/-- The locations that the bytes of an access, number `g` of its instruction, reach before a fault: an aligned access is one
single-copy atomic access. -/
def reachedLocs (d : AccDesc) (n g : Nat) (va : Word) (s : State) : List Xlat :=
  if isMultiple d n va s then reachedSeq (fun a t => locate d 1 a true t) 1 g true n va s else []

/-- The locations that the bytes of an access of several parts affect. -/
def targetLocs (d : AccDesc) (n : Nat) (va : Word) (s : State) : List Xlat :=
  if isMultiple d n va s then targetSeq (fun a t => locate d 1 a true t) 1 n va s else []

/-- Read one located byte: memory, a register frame, or a Device that answers freely (20_memory.md R58, R71). -/
def readLoc (x : Xlat) (k : Nat) (s : State) : Byte × State :=
  match x.frame with
  | some f => (readFrameByte f.1 f.2 x.space s, afterFrameRead f.1 f.2 x.space s)
  | none =>
    if isDevice x.type then
      let b := (Config.freeWord (.deviceByte k) s.free).setWidth 8
      (b, { s with devLog := ⟨false, x.key, b⟩ :: s.devLog })
    else (readByte x.key s, s)

/-- Read located bytes. -/
def readLocs : List Xlat → Nat → State → List Byte × State
  | [], _, s => ([], s)
  | x :: xs, k, s =>
    let (b, s1) := readLoc x k s
    let (bs, s2) := readLocs xs (k + 1) s1
    (b :: bs, s2)

/-- Write one located byte: memory, a register frame, or the log of a Device. -/
def writeLoc (x : Xlat) (b : Byte) (s : State) : State :=
  match x.frame with
  | some f => writeFrameByte f.1 f.2 x.space b s
  | none => if isDevice x.type then { s with devLog := ⟨true, x.key, b⟩ :: s.devLog } else writeByte x.key b s

/-- Write located bytes. -/
def writeLocs : List Xlat → List Byte → State → State
  | x :: xs, b :: bs, s => writeLocs xs bs (writeLoc x b s)
  | _, _, s => s

/-- Locations of Normal memory that an instruction affects hold any value when an exception is taken in the middle of it
(42_loadstore_mte_atomics.md R156, 93_implementation_defined.md U43). -/
def spoilLocs : List Xlat → Nat → State → State
  | [], _, s => s
  | x :: xs, k, s =>
    spoilLocs xs (k + 1)
      (if !isDevice x.type && x.frame.isNone && Config.freeBool (.partialByte k) s.free then
        writeLoc x ((Config.freeWord (.partialByte k) s.free).setWidth 8) s else s)

/-- What a store that a fault or an interrupt stops between its accesses has done: nothing, or the accesses before, to `xs`; every
location it affects, `ts`, may then hold any value (93_implementation_defined.md U43). -/
def partialWrite (xs ts : List Xlat) (bs : List Byte) (s : State) : State :=
  if Config.freeBool .partialAccess s.free then spoilLocs ts 0 (writeLocs xs bs s) else s

/-- The same of a load: Device memory may have been read. -/
def partialRead (xs : List Xlat) (s : State) : State :=
  if Config.freeBool .partialAccess s.free then (readLocs xs 0 s).2 else s

/-- The destination register of a load that is stopped between its accesses may hold any value, but for one the address
comes from, which the restart needs. -/
def spoilReg (rt base : BitVec 5) (s : State) : State :=
  if rt != base && Config.freeBool .partialRegister s.free then writeX rt (Config.freeWord .partialRegister s.free) s else s

/-- Data accesses of the current level are big-endian (92_eei_decisions.md D13). -/
def bigEndian (s : State) : Bool := s.cfg.bigEndian.contains s.ps.el

/-- `MemRead(va, n)`: the value of `n` bytes. `spoil` acts on the registers where a multiple access is stopped. -/
def memRead (d : AccDesc) (n w : Nat) (va : Word) (spoil : State → State) (s : State) : Acc (BitVec w) :=
  match locateAll d n va s with
  | .ok xs s1 => .ok (ofBytes w (byteOrder (bigEndian s1) (readLocs xs 0 s1).1)) (readLocs xs 0 s1).2
  | .fault k va' s1 =>
    abort d k va' (if isMultiple d n va s then spoil (partialRead (reachedLocs d n 0 va s) s1) else s1)

/-- `MemWrite(va, n, v)`. -/
def memWrite {w : Nat} (d : AccDesc) (n : Nat) (va : Word) (v : BitVec w) (s : State) : Acc Unit :=
  match locateAll d n va s with
  | .ok xs s1 => .ok () (writeLocs xs (byteOrder (bigEndian s1) (bytesOf n v)) s1)
  | .fault k va' s1 =>
    abort d k va' (partialWrite (reachedLocs d n 0 va s) (targetLocs d n va s) (byteOrder (bigEndian s1) (bytesOf n v)) s1)

end Sys2Proof.Machine
end

