-- ==== Sys2Proof/Machine/Operands.lean ====
section
/-! DEFINITION. The operand forms: immediates, shifted registers, branch offsets and addresses (30_encoding.md R121;
45_base_subset.md R187 to R195). -/

namespace Sys2Proof.Machine

/-- `#imm12` or `#imm12, LSL #12`. -/
def addImm (w : Nat) (sh : BitVec 1) (imm12 : BitVec 12) : BitVec w :=
  if sh = 1 then imm12.setWidth w <<< 12 else imm12.setWidth w

/-- `#imm16, LSL #(16 * hw)`. -/
def movImm (w : Nat) {k : Nat} (hw : BitVec k) (imm16 : BitVec 16) : BitVec w := imm16.setWidth w <<< (16 * hw.toNat)

/-- `Xm, LSL|LSR|ASR|ROR #amount`. -/
def shiftReg (v : Word) (kind : BitVec 2) (amount : BitVec 6) : Word :=
  if kind = 0 then v <<< amount.toNat
  else if kind = 1 then v >>> amount.toNat
  else if kind = 2 then v.sshiftRight amount.toNat
  else v.rotateRight amount.toNat

/-- The target of a PC-relative branch: `pc + sext(imm : 0b00)`. -/
def branchOffset {k : Nat} (imm : BitVec k) (pc : Word) : Word := pc + (imm.signExtend 64 <<< 2)

/-- A scaled unsigned offset: `imm12 * 8`. -/
def pimm8 (imm12 : BitVec 12) : Word := imm12.setWidth 64 <<< 3

/-- An unscaled signed offset. -/
def simm9 (imm9 : BitVec 9) : Word := imm9.signExtend 64

/-- A tag offset: `imm9 * 16`. -/
def simmTag (imm9 : BitVec 9) : Word := imm9.signExtend 64 <<< 4

/-- The offset of LDRAA: `S:imm9 * 8` (30_encoding.md R121). -/
def simm10 (sbit : BitVec 1) (imm9 : BitVec 9) : Word := (sbit ++ imm9).signExtend 64 <<< 3

/-- Checking of the stack pointer's alignment is on: SCTLR_ELx.SA, bit [3], or SA0, bit [4], at EL0. -/
def spChecked (s : State) : Bool := sctlr s (if s.ps.el = .el0 then 4 else 3)

/-- A base register: register 31 is the stack pointer, which must be 16-byte aligned when that is checked
(45_base_subset.md R193); else an SP alignment fault, EC 0x26. -/
def baseReg (n : BitVec 5) (s : State) : Acc Word :=
  if n = 31 ∧ spChecked s ∧ field (readSP s) 0 4 ≠ 0 then .stop (raise (syncExc (ownTarget s) 0x26 0 s) s)
  else .ok (readXSP n s) s

/-- What the stack pointer alignment check raises for a base register, if it fails: the control that applies to a load or store
that is CONSTRAINED UNPREDICTABLE (60_exceptions.md R213). -/
def baseException (n : BitVec 5) (s : State) : Option Result :=
  match baseReg n s with
  | .stop r => some r
  | .ok _ _ => none

/-- The descriptor of an ordinary load or store, by base register and whether the offset is absent or immediate. -/
def dataDesc (write : Bool) (n : BitVec 5) : AccDesc :=
  { access := if write then .store else .load, write, exclusive := false, unchecked := n == 31 }

/-- The descriptor of a writeback form: the base is not a plain base with an immediate offset. -/
def writebackDesc (write : Bool) : AccDesc :=
  { access := if write then .store else .load, write, exclusive := false, unchecked := false }

/-- The descriptor of a Load-Exclusive or Store-Exclusive; Acquire and Release change none of the checks of an exclusive
access (42_loadstore_mte_atomics.md R160, 20_memory.md R116). -/
def exclusiveDesc (write : Bool) (n : BitVec 5) : AccDesc :=
  { access := if write then .store else .load, write, exclusive := true, unchecked := n == 31 }

/-- The descriptor of an instruction that loads or stores Allocation Tags. -/
def tagDesc (write : Bool) : AccDesc :=
  { access := if write then .tagStore else .tagLoad, write, exclusive := false, unchecked := false }

end Sys2Proof.Machine
end

