-- ==== Sys2Proof/Machine/Vector.lean ====
section
/-! DEFINITION. Vector registers and the checks that access to them is enabled (43_fp_sve_sme.md R167; 60_exceptions.md
R254). The enables' bit places are PRESUMED (log entry 8). -/

namespace Sys2Proof.Machine

/-- Floating-point and Advanced SIMD, SVE, SME. -/
inductive VecUnit where
  | fp | sve | sme
  deriving DecidableEq, Repr

/-- The place of FPEN, ZEN or SMEN in CPACR_EL1 and, with E2H, in CPTR_EL2. -/
def VecUnit.enLo : VecUnit → Nat
  | .fp => 20
  | .sve => 16
  | .sme => 24

/-- The place of TFP, TZ or TSM in CPTR_EL2, and of TFP, EZ or ESM in CPTR_EL3. -/
def VecUnit.trapBit : VecUnit → Nat
  | .fp => 10
  | .sve => 8
  | .sme => 12

/-- The exception class of the trap. -/
def VecUnit.ec : VecUnit → BitVec 6
  | .fp => 0x07
  | .sve => 0x19
  | .sme => 0x1D

/-- The ISS of the trap. -/
def VecUnit.iss : VecUnit → BitVec 25
  | .fp => 0x1E00000
  | _ => 0

/-- A two-bit enable forbids: x0 EL0 and the level above, 01 EL0 (`low`). -/
def enForbids (en : BitVec 2) (low : Bool) : Bool := !bitAt en 0 || (en == 0b01#2 && low)

/-- Disabled by CPACR_EL1, at EL0 and EL1 not in Host. -/
def cpacrTraps (u : VecUnit) (s : State) : Bool :=
  (s.ps.el == .el0 || s.ps.el == .el1) && !inHost s &&
    enForbids (field (ireg s .CPACR_EL1) u.enLo 2) (s.ps.el == .el0)

/-- Disabled by CPTR_EL2, below EL3 with EL2 enabled. -/
def cptr2Traps (u : VecUnit) (s : State) : Bool :=
  s.ps.el != .el3 && el2Enabled s &&
    (if hcr s 34 then enForbids (field (ireg s .CPTR_EL2) u.enLo 2) (s.ps.el == .el0 && hcr s 27)
     else ibit s .CPTR_EL2 u.trapBit)

/-- Disabled by CPTR_EL3: TFP is 1, EZ or ESM is 0. -/
def cptr3Traps (u : VecUnit) (s : State) : Bool :=
  s.cfg.hasEL3 && (if u = .fp then ibit s .CPTR_EL3 10 else !ibit s .CPTR_EL3 u.trapBit)

/-- The first check that fails, for the units an instruction uses: CPACR_EL1, then CPTR_EL2, then CPTR_EL3
(43_fp_sve_sme.md R167). -/
def vecTrap (us : List VecUnit) (s : State) : Option (EL × VecUnit) :=
  match us.find? (cpacrTraps · s) with
  | some u => some (if s.ps.el = .el0 && hcr s 27 then .el2 else .el1, u)
  | none =>
    match us.find? (cptr2Traps · s) with
    | some u => some (.el2, u)
    | none => (us.find? (cptr3Traps · s)).map fun u => (.el3, u)

/-- The exception of a failed check; a trap to EL3 in Debug state with EDSCR.SDD set is UNDEFINED. -/
def vecTrapResult (t : EL) (u : VecUnit) (s : State) : Result :=
  if t = .el3 ∧ el3SddUndef s then undefined s else raise (syncExc t u.ec u.iss s) s

/-- What the checks raise, if they fail; in Debug state with EDSCR.SDD set the UNDEFINED of a trap to EL3 may come before the other
checks (61_debug_pmu_trace.md R315). -/
def vecException (us : List VecUnit) (s : State) : Option Result :=
  if el3SddUndefPriority s && us.any (cptr3Traps · s) then some (undefined s)
  else (vecTrap us s).map fun tu => vecTrapResult tu.1 tu.2 s

/-- Run an instruction if the units it uses are enabled. -/
def vecGate (us : List VecUnit) (s : State) (k : Result) : Result := (vecException us s).getD k

/-- The units an SVE instruction checks: in Streaming mode SME, else SVE; then floating-point. -/
def sveUnits (s : State) : List VecUnit := if s.ps.sm then [.sme, .fp] else [.sve, .fp]

/-- The length a vector register write covers, at least 128 bits. -/
def vecLen (s : State) : Nat := if has .SVE s || s.ps.sm then max 128 (vl s) else 128

/-- A vector register. -/
def readZ (n : BitVec 5) (s : State) : VReg := s.z.getD n.toNat 0

/-- A write of a vector register: bits from the vector length up become zero or stay (log entry 35). -/
def writeZ (n : BitVec 5) (v : VReg) (s : State) : State :=
  let m : VReg := maskOf 2048 0 (vecLen s)
  let rest : VReg := if Config.freeBool (.unknown 7) s.free then 0 else readZ n s &&& ~~~m
  { s with z := s.z.setIfInBounds n.toNat ((v &&& m) ||| rest) }

end Sys2Proof.Machine
end

