-- ==== Sys2Proof/Machine/FpMinMax.lean ====
section
/-! DEFINITION. FMAX, FMIN, FMAXNM, FMINNM: their value for half, single and double precision, and the scalar single and double
instructions (43_fp_sve_sme.md R176, R177, R179, R181). -/

namespace Sys2Proof.Machine

/-- The number of fraction bits of a format of `w` bits: 10, 23 or 52. -/
def fracBits (w : Nat) : Nat := if w = 16 then 10 else if w = 32 then 23 else 52

/-- The exponent and fraction of a value. -/
def magnitude {w : Nat} (x : BitVec w) : Nat := x.toNat % 2 ^ (w - 1)

/-- The magnitude of infinity. -/
def infMagnitude (w : Nat) : Nat := 2 ^ (w - 1) - 2 ^ fracBits w

/-- Not a Number. -/
def isNaN {w : Nat} (x : BitVec w) : Bool := decide (infMagnitude w < magnitude x)

/-- A quiet NaN has the top fraction bit set. -/
def isQuiet {w : Nat} (x : BitVec w) : Bool := isNaN x && bitAt x (fracBits w - 1)

/-- A signaling NaN. -/
def isSignaling {w : Nat} (x : BitVec w) : Bool := isNaN x && !bitAt x (fracBits w - 1)

/-- A zero of either sign. -/
def isZeroFp {w : Nat} (x : BitVec w) : Bool := magnitude x == 0

/-- A denormal: exponent zero, fraction not. -/
def isDenormal {w : Nat} (x : BitVec w) : Bool := magnitude x != 0 && decide (magnitude x < 2 ^ fracBits w)

/-- A number for the order of the values that are not NaN, with -0 below +0. -/
def orderKey {w : Nat} (x : BitVec w) : Int := if x.msb then -(magnitude x : Int) - 1 else magnitude x

/-- The quieted form of a NaN. -/
def quieted {w : Nat} (x : BitVec w) : BitVec w := setBit x (fracBits w - 1) true

/-- The first signaling NaN, else the first NaN, quieted (43_fp_sve_sme.md R181). -/
def chosenNaN {w : Nat} (a b : BitVec w) : BitVec w :=
  if isSignaling a then quieted a else if isSignaling b then quieted b
  else if isNaN a then quieted a else quieted b

/-- The Default NaN of a format: exponent ones, the top fraction bit; the sign is an argument. -/
def defaultNaN (w : Nat) (ah : Bool) : BitVec w :=
  BitVec.ofNat w (infMagnitude w + 2 ^ (fracBits w - 1)) ||| (if ah then 1#w <<< (w - 1) else 0)

/-- The NaN result: the Default NaN under FPCR.DN. -/
def nanResult {w : Nat} (ah dn : Bool) (a b : BitVec w) : BitVec w := if dn then defaultNaN w ah else chosenNaN a b

/-- The larger or the smaller of two values that are not NaN. -/
def orderedPick {w : Nat} (largest : Bool) (a b : BitVec w) : BitVec w :=
  if largest then (if orderKey b < orderKey a then a else b) else (if orderKey a < orderKey b then a else b)

/-- FMAX and FMIN (43_fp_sve_sme.md R181). -/
def fpMinMax {w : Nat} (largest ah dn : Bool) (a b : BitVec w) : BitVec w :=
  if ah then
    if isNaN a || isNaN b then b
    else if isZeroFp a && isZeroFp b then b
    else orderedPick largest a b
  else if isNaN a || isNaN b then nanResult ah dn a b
  else orderedPick largest a b

/-- FMAXNM and FMINNM: a quiet NaN gives the other, numeric, input; the Default NaN is the one of AH 0, whatever FPCR.AH is
(43_fp_sve_sme.md R179, R181). -/
def fpMinMaxNum {w : Nat} (largest _ah dn : Bool) (a b : BitVec w) : BitVec w :=
  if isSignaling a || isSignaling b || (isNaN a && isNaN b) then nanResult false dn a b
  else if isQuiet a then b
  else if isQuiet b then a
  else orderedPick largest a b

/-- Flushing is on for a format: FPCR.FZ16, bit [19], for half precision, FZ, bit [24], for the others. -/
def flushOn (w : Nat) (fpcr : Word) : Bool := bitAt fpcr (if w = 16 then 19 else 24)

/-- A zero of the sign of a value. -/
def signedZero {w : Nat} (x : BitVec w) : BitVec w := if x.msb then 1#w <<< (w - 1) else 0

/-- A denormal input where flushing is on, or FPCR.FIZ, bit [0], is 1: the source does not say whether it is flushed to zero; the
choice is free (log entry 37). -/
def flushInput {w : Nat} (fpcr : Word) (x : BitVec w) (s : State) : BitVec w :=
  if (flushOn w fpcr || bitAt fpcr 0) && isDenormal x && Config.freeBool (.unknown 1) s.free then signedZero x else x

/-- A denormal result of an instruction that is subject to output flushing (43_fp_sve_sme.md R176): the controls that decide are
not printed; where flushing is on the choice is free. -/
def flushOutput {w : Nat} (fpcr : Word) (x : BitVec w) (s : State) : BitVec w :=
  if flushOn w fpcr && isDenormal x && Config.freeBool (.unknown 2) s.free then signedZero x else x

/-- The value of an operation on two inputs, under FPCR.AH, bit [1], and DN, bit [25]. FMAXNM and FMINNM are subject to output
flushing, FMAX and FMIN are not (43_fp_sve_sme.md R176). -/
def fpValue {w : Nat} (op : FpOp) (fpcr : Word) (a b : BitVec w) (s : State) : BitVec w :=
  let x := flushInput fpcr a s
  let y := flushInput fpcr b s
  match op with
  | .max => fpMinMax true (bitAt fpcr 1) (bitAt fpcr 25) x y
  | .min => fpMinMax false (bitAt fpcr 1) (bitAt fpcr 25) x y
  | .maxnm => flushOutput fpcr (fpMinMaxNum true (bitAt fpcr 1) (bitAt fpcr 25) x y) s
  | .minnm => flushOutput fpcr (fpMinMaxNum false (bitAt fpcr 1) (bitAt fpcr 25) x y) s

/-- FPSR: Invalid Operation, IOC [0], may be set on a NaN input and Input Denormal, IDC [7], on a denormal one; the
source does not address the flags (43_fp_sve_sme.md R181). -/
def fpFlags {w : Nat} (a b : BitVec w) (s : State) : State :=
  let ioc := (isNaN a || isNaN b) && Config.freeBool .invalidOperation s.free
  let idc := (isDenormal a || isDenormal b) && Config.freeBool (.unknown 9) s.free
  setReg .FPSR (sreg s .FPSR ||| bitTo 0 ioc ||| bitTo 7 idc) s

/-- The effect of a scalar instruction with two sources: the destination's other bits become zero. -/
def fpScalarEffect (w : Nat) (op : FpOp) (rm rn rd : BitVec 5) (s : State) : State :=
  let a : BitVec w := (readZ rn s).setWidth w
  let b : BitVec w := (readZ rm s).setWidth w
  advance (fpFlags a b (writeZ rd ((fpValue op (ireg s .FPCR) a b s).setWidth 2048) s))

/-- A scalar instruction with two sources. -/
def fpScalar (w : Nat) (op : FpOp) (rm rn rd : BitVec 5) (s : State) : Result :=
  vecGate [.fp] s (.next (fpScalarEffect w op rm rn rd s))

/-- FMAX, single. -/
def execFmaxS (rm rn rd : BitVec 5) (s : State) : Result := fpScalar 32 .max rm rn rd s

/-- FMAX, double. -/
def execFmaxD (rm rn rd : BitVec 5) (s : State) : Result := fpScalar 64 .max rm rn rd s

/-- FMIN, single. -/
def execFminS (rm rn rd : BitVec 5) (s : State) : Result := fpScalar 32 .min rm rn rd s

/-- FMIN, double. -/
def execFminD (rm rn rd : BitVec 5) (s : State) : Result := fpScalar 64 .min rm rn rd s

/-- FMAXNM, single. -/
def execFmaxnmS (rm rn rd : BitVec 5) (s : State) : Result := fpScalar 32 .maxnm rm rn rd s

/-- FMAXNM, double. -/
def execFmaxnmD (rm rn rd : BitVec 5) (s : State) : Result := fpScalar 64 .maxnm rm rn rd s

/-- FMINNM, single. -/
def execFminnmS (rm rn rd : BitVec 5) (s : State) : Result := fpScalar 32 .minnm rm rn rd s

/-- FMINNM, double. -/
def execFminnmD (rm rn rd : BitVec 5) (s : State) : Result := fpScalar 64 .minnm rm rn rd s

end Sys2Proof.Machine
end

