-- ==== Sys2Proof/Machine/Pauth.lean ====
section
/-! DEFINITION. Pointer authentication: adding, checking and the generic code (40_pauth_bti.md R128 to R135, R137;
60_exceptions.md R239, R253). ComputePAC is a constant of Config. Bit positions of the keys' enables are PRESUMED (log
entry 8). -/

namespace Sys2Proof.Machine

/-- The address keys. -/
inductive PacKey where
  | ia | ib | da | db
  deriving DecidableEq, Repr

/-- SCTLR_ELx.EnIA [31], EnIB [30], EnDA [27], EnDB [13]. -/
def PacKey.enable : PacKey → Nat
  | .ia => 31
  | .ib => 30
  | .da => 27
  | .db => 13

/-- The high and low half of a key: each key is 128 bits in two registers, one set for every Exception level (PRESUMED, log entry
97: the key registers are not in the source, 91_not_in_source.md N13). -/
def PacKey.value (k : PacKey) (s : State) : Word × Word :=
  match k with
  | .ia => (ireg s .APIAKeyHi_EL1, ireg s .APIAKeyLo_EL1)
  | .ib => (ireg s .APIBKeyHi_EL1, ireg s .APIBKeyLo_EL1)
  | .da => (ireg s .APDAKeyHi_EL1, ireg s .APDAKeyLo_EL1)
  | .db => (ireg s .APDBKeyHi_EL1, ireg s .APDBKeyLo_EL1)

/-- A B key. -/
def PacKey.isB : PacKey → Bool
  | .ib => true
  | .db => true
  | _ => false

/-- A data key. -/
def PacKey.isData : PacKey → Bool
  | .da => true
  | .db => true
  | _ => false

/-- The bit that chooses T0SZ or T1SZ: bit [63] when a PAC is inserted, address tagging is not used and
FEAT_CONSTPACFIELD is not implemented, else bit [55] (40_pauth_bti.md R132, R133). -/
def pacSelect (inserting : Bool) (ptr : Word) (s : State) : Bool :=
  if !has .CONSTPACFIELD s && inserting && !tbi s (regime s) ptr then bitAt ptr 63 else bitAt ptr 55

/-- bottom_PAC_bit: `64 - TCR_ELx.TnSZ`; a regime with one range has T0SZ only. -/
def pacBottom (inserting : Bool) (ptr : Word) (s : State) : Nat :=
  64 - (field (ireg s (tcrOf (regime s))) (if twoRanges (regime s) && pacSelect inserting ptr s then 16 else 0) 6).toNat

/-- The PAC field: Xd[54:bottom], and Xd[63:56] when address tagging is not used (40_pauth_bti.md R132, R133). -/
def pacField (inserting : Bool) (ptr : Word) (s : State) : Word :=
  maskOf 64 (pacBottom inserting ptr s) 55 ||| (if tbi s (regime s) ptr then 0 else maskOf 64 56 64)

/-- The pointer with its PAC stripped: the PAC field made copies of bit [55]. 45_base_subset.md R193 says only that it is stripped; what
the field then holds is the model's choice (DESIGN CHOICE, log entry 105). -/
def pacStrip (mask ptr : Word) : Word := (ptr &&& ~~~mask) ||| (if bitAt ptr 55 then mask else 0)

/-- Adding a PAC: the bits of the result of ComputePAC at the places of the PAC field go there (DESIGN CHOICE, log entry 30: which
bits do is not in the source, 91_not_in_source.md N13). The source gives no result for a pointer whose PAC field is not copies of bit
[55]: the field is then a free value (log entry 30). What ComputePAC is given is a choice too (log entry 105). -/
def addPac (k : PacKey) (ptr modifier : Word) (s : State) : Word :=
  let mask := pacField true ptr s
  let pac := if pacStrip mask ptr = ptr then Config.computePAC ptr modifier (k.value s).1 (k.value s).2
    else Config.freeWord (.unknown 4) s.free
  (ptr &&& ~~~mask) ||| (pac &&& mask)

/-- Authentication: whether the PAC is correct (40_pauth_bti.md R135). The argument list of ComputePAC is not in the source
(91_not_in_source.md N13): the pointer with its PAC stripped, its top byte kept under address tagging, the modifier and the two
halves of the key (DESIGN CHOICE, log entry 105). -/
def pacCorrect (k : PacKey) (ptr modifier : Word) (s : State) : Bool :=
  let mask := pacField false ptr s
  Config.computePAC (pacStrip mask ptr) modifier (k.value s).1 (k.value s).2 &&& mask == ptr &&& mask

/-- The error code of a failed authentication: two bits that differ, which of the two values is free (DESIGN CHOICE, log entry
87: the source says only what the changed address gives, 91_not_in_source.md N13). -/
def errorCode (s : State) : BitVec 2 := if Config.freeBool .authCode s.free then 0b10 else 0b01

/-- The address after authentication: the PAC stripped; after a failure it is changed in a way that gives a Translation fault
when it is accessed (40_pauth_bti.md R128): bits [54:53] hold the error code (DESIGN CHOICE, log entry 87), which no address
that can be translated has (`errorCoded`). -/
def authResult (k : PacKey) (ptr modifier : Word) (s : State) : Word :=
  let plain := pacStrip (pacField false ptr s) ptr
  if pacCorrect k ptr modifier s then plain
  else copyBits plain (fieldTo 53 (errorCode s)) 53 55

/-- HCR_EL2.API traps an enabled instruction, and PACGA, at EL1 and at EL0 outside the Host (60_exceptions.md R253). -/
def apiTraps (s : State) : Bool :=
  el2Enabled s && !ibit s .HCR_EL2 41 && (s.ps.el == .el1 || (s.ps.el == .el0 && !e2hTge s))

/-- That trap: EC 0x09 to EL2. -/
def apiTrap (s : State) : Result := raise (syncExc .el2 0x09 0 s) s

/-- The trap that applies to an instruction that authenticates as part of something else. -/
def pacTrap (k : PacKey) (s : State) : Option Result :=
  if has .PAuth s && sctlr s k.enable && apiTraps s then some (apiTrap s) else none

/-- A PAC Fail exception, EC 0x1C (60_exceptions.md R239). Its ISS is not printed: that bit [1] is 1 for a data key and bit [0]
for a B key is PRESUMED (log entry 98). -/
def pacFail (k : PacKey) (s : State) : Result :=
  raise (syncExc (ownTarget s) 0x1C ((bitTo 1 k.isData ||| bitTo 0 k.isB : Word).setWidth 25) s) s

/-- What comes before the effect: without FEAT_PAuth a hint is a NOP and the others are UNDEFINED (PRESUMED, log entry 106: no rule says
what they do then); disabled by SCTLR_ELx.En* it is a NOP, and not trapped; then the trap. -/
def pacGate (k : PacKey) (hint : Bool) (s : State) (r : Result) : Result :=
  if !has .PAuth s then (if hint then .next (advance s) else undefined s)
  else if !sctlr s k.enable then .next (advance s)
  else if apiTraps s then apiTrap s
  else r

/-- Insert a PAC into a register. -/
def pacInsert (k : PacKey) (hint : Bool) (rd : BitVec 5) (modifier : Word) (s : State) : Result :=
  pacGate k hint s (.next (advance (writeX rd (addPac k (readX rd s) modifier s) s)))

/-- Authenticate a register: a failure gives a PAC Fail exception with FEAT_FPAC, else the error code. -/
def pacCheck (k : PacKey) (hint : Bool) (rd : BitVec 5) (modifier : Word) (s : State) : Result :=
  pacGate k hint s
    (if !pacCorrect k (readX rd s) modifier s && has .FPAC s then pacFail k s
     else .next (advance (writeX rd (authResult k (readX rd s) modifier s) s)))

/-- Authentication is enabled for the key, and the PAC is not correct. -/
def authFails (k : PacKey) (ptr modifier : Word) (s : State) : Bool := sctlr s k.enable && !pacCorrect k ptr modifier s

/-- Authentication inside another instruction: disabled, the address as it is (40_pauth_bti.md R137); a failure gives
a PAC Fail exception, after `onFail`, with FEAT_FPACCOMBINE, else the error code (R128). Without FEAT_PAuth UNDEFINED (PRESUMED, log
entry 106). -/
def authCombined (k : PacKey) (ptr modifier : Word) (s : State) (onFail : State → State) (cont : Word → Result) :
    Result :=
  if !has .PAuth s then undefined s
  else if !sctlr s k.enable then cont ptr
  else if apiTraps s then apiTrap s
  else if !pacCorrect k ptr modifier s && has .FPACCOMBINE s then pacFail k (onFail s)
  else cont (authResult k ptr modifier s)

/-- An instruction of FEAT_PAuth that is UNDEFINED without it, in either state: the lists of 61_debug_pmu_trace.md R283 count it among
those that Debug state refuses only with FEAT_PAuth; that they are UNDEFINED is PRESUMED (log entry 106). -/
def needsPAuth (s : State) (k : Result) : Result := if has .PAuth s then k else undefined s

/-- The trap of PACGA. -/
def pacgaTrap (s : State) : Option Result := if has .PAuth s && apiTraps s then some (apiTrap s) else none

/-- PACGA: the upper half of the code, the lower half zero (40_pauth_bti.md R130). Without FEAT_PAuth UNDEFINED (PRESUMED, log entry
106). -/
def execPacga (rm rn rd : BitVec 5) (s : State) : Result :=
  if !has .PAuth s then undefined s
  else if apiTraps s then apiTrap s
  else .next (advance (writeX rd
    (Config.computePAC (readX rn s) (readXSP rm s) (ireg s .APGAKeyHi_EL1) (ireg s .APGAKeyLo_EL1) &&& maskOf 64 32 64) s))

/-- PACIA: insert a PAC with key IA, the modifier a register or SP. -/
def execPacia (rn rd : BitVec 5) (s : State) : Result := pacInsert .ia false rd (readXSP rn s) s

/-- PACIZA: insert a PAC with key IA, modifier zero. -/
def execPaciza (rd : BitVec 5) (s : State) : Result := pacInsert .ia false rd 0 s

/-- PACIB: insert a PAC with key IB, the modifier a register or SP. -/
def execPacib (rn rd : BitVec 5) (s : State) : Result := pacInsert .ib false rd (readXSP rn s) s

/-- PACIZB: insert a PAC with key IB, modifier zero. -/
def execPacizb (rd : BitVec 5) (s : State) : Result := pacInsert .ib false rd 0 s

/-- PACDA: insert a PAC with key DA, the modifier a register or SP. -/
def execPacda (rn rd : BitVec 5) (s : State) : Result := pacInsert .da false rd (readXSP rn s) s

/-- PACDZA: insert a PAC with key DA, modifier zero. -/
def execPacdza (rd : BitVec 5) (s : State) : Result := pacInsert .da false rd 0 s

/-- PACDB: insert a PAC with key DB, the modifier a register or SP. -/
def execPacdb (rn rd : BitVec 5) (s : State) : Result := pacInsert .db false rd (readXSP rn s) s

/-- PACDZB: insert a PAC with key DB, modifier zero. -/
def execPacdzb (rd : BitVec 5) (s : State) : Result := pacInsert .db false rd 0 s

/-- PACIA1716: X17 with modifier X16. -/
def execPacia1716 (s : State) : Result := pacInsert .ia true 17 (readX 16 s) s

/-- PACIASP: X30 with modifier SP. -/
def execPaciasp (s : State) : Result := pacInsert .ia true 30 (readSP s) s

/-- PACIAZ: X30 with modifier zero. -/
def execPaciaz (s : State) : Result := pacInsert .ia true 30 0 s

/-- PACIB1716: X17 with modifier X16. -/
def execPacib1716 (s : State) : Result := pacInsert .ib true 17 (readX 16 s) s

/-- PACIBSP: X30 with modifier SP. -/
def execPacibsp (s : State) : Result := pacInsert .ib true 30 (readSP s) s

/-- PACIBZ: X30 with modifier zero. -/
def execPacibz (s : State) : Result := pacInsert .ib true 30 0 s

/-- AUTIA: check a PAC with key IA, the modifier a register or SP. -/
def execAutia (rn rd : BitVec 5) (s : State) : Result := pacCheck .ia false rd (readXSP rn s) s

/-- AUTIZA: check a PAC with key IA, modifier zero. -/
def execAutiza (rd : BitVec 5) (s : State) : Result := pacCheck .ia false rd 0 s

/-- AUTIB: check a PAC with key IB, the modifier a register or SP. -/
def execAutib (rn rd : BitVec 5) (s : State) : Result := pacCheck .ib false rd (readXSP rn s) s

/-- AUTIZB: check a PAC with key IB, modifier zero. -/
def execAutizb (rd : BitVec 5) (s : State) : Result := pacCheck .ib false rd 0 s

/-- AUTDA: check a PAC with key DA, the modifier a register or SP. -/
def execAutda (rn rd : BitVec 5) (s : State) : Result := pacCheck .da false rd (readXSP rn s) s

/-- AUTDZA: check a PAC with key DA, modifier zero. -/
def execAutdza (rd : BitVec 5) (s : State) : Result := pacCheck .da false rd 0 s

/-- AUTDB: check a PAC with key DB, the modifier a register or SP. -/
def execAutdb (rn rd : BitVec 5) (s : State) : Result := pacCheck .db false rd (readXSP rn s) s

/-- AUTDZB: check a PAC with key DB, modifier zero. -/
def execAutdzb (rd : BitVec 5) (s : State) : Result := pacCheck .db false rd 0 s

/-- AUTIA1716: X17 with modifier X16. -/
def execAutia1716 (s : State) : Result := pacCheck .ia true 17 (readX 16 s) s

/-- AUTIASP: X30 with modifier SP. -/
def execAutiasp (s : State) : Result := pacCheck .ia true 30 (readSP s) s

/-- AUTIAZ: X30 with modifier zero. -/
def execAutiaz (s : State) : Result := pacCheck .ia true 30 0 s

/-- AUTIB1716: X17 with modifier X16. -/
def execAutib1716 (s : State) : Result := pacCheck .ib true 17 (readX 16 s) s

/-- AUTIBSP: X30 with modifier SP. -/
def execAutibsp (s : State) : Result := pacCheck .ib true 30 (readSP s) s

/-- AUTIBZ: X30 with modifier zero. -/
def execAutibz (s : State) : Result := pacCheck .ib true 30 0 s

end Sys2Proof.Machine
end

