-- ==== Sys2Proof/Machine/LoadStore.lean ====
section
/-! DEFINITION. Loads and stores of one register (45_base_subset.md R193; 40_pauth_bti.md R131, R137). -/

namespace Sys2Proof.Machine

/-- `STR Xt, [Xn|SP, #imm]`. -/
def execStrX (imm12 : BitVec 12) (rn rt : BitVec 5) (s : State) : Result :=
  (baseReg rn s).andThen fun base s1 =>
    (memWrite (dataDesc true rn) 8 (base + pimm8 imm12) (readX rt s1) s1).andThen fun _ s2 => .next (advance s2)

/-- `LDR Xt, [Xn|SP, #imm]`. -/
def execLdrX (imm12 : BitVec 12) (rn rt : BitVec 5) (s : State) : Result :=
  (baseReg rn s).andThen fun base s1 =>
    (memRead (dataDesc false rn) 8 64 (base + pimm8 imm12) (spoilReg rt rn) s1).andThen fun v s2 =>
      .next (advance (writeX rt v s2))

/-- Load a register from an address and write the address back, or not. -/
def loadAt (d : AccDesc) (addr : Word) (writeback : Bool) (rn rt : BitVec 5) (s : State) : Result :=
  (memRead d 8 64 addr (spoilReg rt rn) s).andThen fun v s1 =>
    let t := writeX rt v s1
    .next (advance (if writeback then writeXSP rn addr t else t))

/-- `LDR Xt, [Xn|SP, #simm]!`: the same register as base and destination is CONSTRAINED UNPREDICTABLE; no control that the
spec gives traps a load (60_exceptions.md R213). -/
def execLdrXPre (imm9 : BitVec 9) (rn rt : BitVec 5) (s : State) : Result :=
  if rn = rt ∧ rn ≠ 31 then unpredictable none .unpredictable s
  else (baseReg rn s).andThen fun base s1 =>
    loadAt (writebackDesc false) (base + simm9 imm9) true rn rt s1

/-- A failed LDRAA or LDRAB on Device memory may read the location once, if it could be read (40_pauth_bti.md R131). -/
def failedLoad (d : AccDesc) (addr : Word) (s : State) : State :=
  if Config.freeBool .ldraDeviceRead s.free then
    match locateAll d 8 addr s with
    | .ok xs s1 => if xs.all (isDevice ·.type) then (readLocs xs 0 s1).2 else s
    | .fault _ _ _ => s
  else s

/-- The location a failed LDRAA or LDRAB may read: the base with its PAC stripped, plus the offset (DESIGN CHOICE, log entry
60: the source does not say how the unauthenticated target is formed). -/
def ldraTarget (base offset : Word) (s : State) : Word := pacStrip (pacField false base s) base + offset

/-- `LDRAA|LDRAB Xt, [Xn|SP, #simm]{!}`: the base authenticated with key DA or DB, modifier zero; the writeback is of
the authenticated address. A failure may read the target whichever way it is reported (40_pauth_bti.md R128, R131). An SP base that
is not aligned gives its fault first, then the trap by HCR_EL2.API, then PAC Fail (DESIGN CHOICE, log entry 94: the rows of the
priority table are not in the source, 91_not_in_source.md N11). -/
def execLdra (m sbit : BitVec 1) (imm9 : BitVec 9) (w : BitVec 1) (rn rt : BitVec 5) (s : State) : Result :=
  if !has .PAuth s then undefined s
  else (baseReg rn s).andThen fun base s1 =>
    let k : PacKey := if m = 1 then .db else .da
    let d := if w = 1 then writebackDesc false else dataDesc false rn
    let failed := failedLoad d (ldraTarget base (simm10 sbit imm9) s1)
    authCombined k base 0 s1 failed fun a =>
      loadAt d (a + simm10 sbit imm9) (w == 1) rn rt (if authFails k base 0 s1 then failed s1 else s1)

end Sys2Proof.Machine
end

