-- ==== Sys2Proof/Machine/Sve.lean ====
section
/-! DEFINITION. MOVPRFX and FMMLA (43_fp_sve_sme.md R167, R173, R174; 60_exceptions.md R216, R254). -/

namespace Sys2Proof.Machine

/-- An SVE instruction exists: FEAT_SVE, or FEAT_SME in Streaming mode. -/
def sveExists (s : State) : Bool := if s.ps.sm then has .SME s else has .SVE s

/-- Bytes-per-bit predicate: element `e` of `bytes` bytes is active. -/
def active (p : PReg) (bytes e : Nat) : Bool := bitAt p (e * bytes)

/-- The bits of the active elements. -/
def activeMask (p : PReg) (size : BitVec 2) : VReg :=
  let bytes := 2 ^ size.toNat
  (List.range (256 / bytes)).foldl (fun acc e =>
    if active p bytes e then acc ||| maskOf 2048 (8 * bytes * e) (8 * bytes * (e + 1)) else acc) 0

/-- What a MOVPRFX leaves for the instruction that follows (60_exceptions.md R216). -/
def prefixOf (zd : BitVec 5) (pred : Option (BitVec 3 × BitVec 2)) (s : State) : Prefix :=
  { zd, pred, old := readZ zd s, addr := s.pc, btype := s.ps.btype }

/-- MOVPRFX, unpredicated: the destination, and the prefix of the next instruction. -/
def execMovprfx (zn zd : BitVec 5) (s : State) : Result :=
  if !sveExists s then undefined s
  else vecGate (sveUnits s) s
    (.next { advance (writeZ zd (readZ zn s) s) with movprfx := some (prefixOf zd none s) })

/-- MOVPRFX, predicated: active elements are copied, the others zeroed or kept (`m`). -/
def execMovprfxPred (size : BitVec 2) (m : BitVec 1) (pg : BitVec 3) (zn zd : BitVec 5) (s : State) : Result :=
  if !sveExists s then undefined s
  else vecGate (sveUnits s) s
    (let act := activeMask (s.p.getD pg.toNat 0) size
     let keep : VReg := if m = 1 then readZ zd s &&& ~~~act else 0
     .next { advance (writeZ zd ((readZ zn s &&& act) ||| keep) s) with movprfx := some (prefixOf zd (some (pg, size)) s) })

/-- FMMLA on each segment of `n` bits of the vector. -/
def fmmla {n : Nat} (f : BitVec n → BitVec n → BitVec n → BitVec n) (count : Nat) (acc a b : VReg) : VReg :=
  (List.range count).foldl (fun r k =>
    r ||| ((f (field acc (n * k) n) (field a (n * k) n) (field b (n * k) n)).setWidth 2048 <<< (n * k))) 0

/-- FPSR after FMMLA: cumulative exception flags IOC, DZC, OFC, UFC, IXC [4:0] and IDC [7] may be set; the source does
not say which. -/
def fmmlaFpsr (s : State) : State :=
  setReg .FPSR (sreg s .FPSR ||| (Config.freeWord .fmmlaFlags s.free &&& 0x9F)) s

/-- FMMLA is not legal in Streaming mode: EC 0x1D, SMTC 1. -/
def streamingTrap (s : State) : Result :=
  raise (syncExc (ownTarget s) 0x1D 1 s) s

/-- What an SVE instruction that is not legal in Streaming mode raises before its effect: UNDEFINED if it does not exist or, where
it needs 256 bits (`long`), no vector length reaches them; then the enables; then UNDEFINED if the Effective length does not
(43_fp_sve_sme.md R174, 60_exceptions.md R254). The instructions that need 256 bits need FEAT_F64MM: of FMMLA R169 says so by its
title alone, and of LD1RO and the 128-bit TRN, UZP and ZIP it is a DESIGN CHOICE (log entry 96). -/
def sveException (long : Bool) (s : State) : Option Result :=
  if !has .SVE s || (long && (!has .F64MM s || decide (s.cfg.maxVL < 256))) then some (undefined s)
  else match vecException (sveUnits s) s with
    | some r => some r
    | none => if s.ps.sm then some (streamingTrap s) else if long && decide (vl s < 256) then some (undefined s) else none

/-- FMMLA, single precision: its arithmetic is a constant of Config. -/
def execFmmlaS (zm zn zda : BitVec 5) (s : State) : Result :=
  (sveException false s).getD
    (.next (advance (fmmlaFpsr (writeZ zda
       (fmmla (Config.fmmlaS (ireg s .FPCR)) (vl s / 128) (readZ zda s) (readZ zn s) (readZ zm s)) s))))

/-- The bits after the last whole 256-bit segment: no longer said to be zero, so free (43_fp_sve_sme.md R174). -/
def segmentTail (s : State) : VReg := Config.freeVector (.unknown 8) s.free &&& maskOf 2048 (256 * (vl s / 256)) (vl s)

/-- FMMLA, double precision: it needs 256 bits (43_fp_sve_sme.md R174). -/
def execFmmlaD (zm zn zda : BitVec 5) (s : State) : Result :=
  (sveException true s).getD
    (.next (advance (fmmlaFpsr (writeZ zda
       (fmmla (Config.fmmlaD (ireg s .FPCR)) (vl s / 256) (readZ zda s) (readZ zn s) (readZ zm s) ||| segmentTail s) s))))

end Sys2Proof.Machine
end

