-- ==== Sys2Proof/Machine/SveMemory.lean ====
section
/-! DEFINITION. Predicated SVE loads and stores, the First-fault and Non-fault loads, LD1RO and the 128-bit permutes
(20_memory.md R115, R118; 42_loadstore_mte_atomics.md R156, R163; 43_fp_sve_sme.md R172, R174, R175). Their decode is a
parameter (30_encoding.md R119); how an element's address is formed is PRESUMED (log entry 69). -/

namespace Sys2Proof.Machine

/-- The bytes of an element of a size. -/
def sizeBytes (size : BitVec 2) : Nat := 2 ^ size.toNat

/-- How many elements of a size a vector has. -/
def elemCount (size : BitVec 2) (s : State) : Nat := vl s / (8 * sizeBytes size)

/-- A predicated access: the elements in memory and in the register, the offset, predicate and base. -/
structure SveAccess where
  msize : BitVec 2
  esize : BitVec 2
  off : SveOffset
  pg : BitVec 3
  rn : BitVec 5
  deriving DecidableEq, Repr

/-- An element of `bits` bits of a vector. -/
def elemOf (bits : Nat) (v : VReg) (e : Nat) : Word := (v >>> (bits * e)).setWidth 64 &&& maskOf 64 0 bits

/-- An offset of a vector of offsets, extended. -/
def extendOffset (x : VecExtend) (v : Word) : Word :=
  match x with
  | .all => v
  | .uxtw => (v.setWidth 32).setWidth 64
  | .sxtw => (v.setWidth 32).signExtend 64

/-- The address of element `e`: the elements in order, moved on by a multiple of the whole access or a scaled register; or by an
element of a vector of offsets; or an element of a vector of bases with a scaled immediate (log entry 69). -/
def SveAccess.addr (m : SveAccess) (whole : Nat) (base : Word) (s : State) (e : Nat) : Word :=
  let inOrder := base + BitVec.ofNat 64 (e * sizeBytes m.msize)
  match m.off with
  | .imm n => inOrder + n.signExtend 64 * BitVec.ofNat 64 whole
  | .reg rm => inOrder + (readX rm s <<< m.msize.toNat)
  | .vec zm x scaled =>
    base + (extendOffset x (elemOf (8 * sizeBytes m.esize) (readZ zm s) e) <<< (if scaled then m.msize.toNat else 0))
  | .vecImm imm5 => elemOf (8 * sizeBytes m.esize) (readZ m.rn s) e + (imm5.setWidth 64 <<< m.msize.toNat)

/-- The base of an access: a general register or SP, checked; a vector of bases has none. -/
def SveAccess.base (m : SveAccess) (s : State) : Acc Word :=
  match m.off with
  | .vecImm _ => .ok 0 s
  | _ => baseReg m.rn s

/-- The bytes a whole contiguous access covers. -/
def SveAccess.whole (m : SveAccess) (s : State) : Nat := elemCount m.esize s * sizeBytes m.msize

/-- The descriptor of an element access. -/
def SveAccess.desc (m : SveAccess) (write nonFault : Bool) : AccDesc :=
  { access := if write then .store else .load, write, exclusive := false, nonFault
    unchecked := m.rn == 31 && (match m.off with | .imm _ => true | _ => false) }

/-- The elements that are Active. -/
def SveAccess.actives (m : SveAccess) (count : Nat) (s : State) : List Nat :=
  (List.range count).filter fun e => active (s.p.getD m.pg.toNat 0) (sizeBytes m.esize) e

/-- The number of the access with which `left` accesses remain before the `more` that other parts of the instruction make. -/
def accessNumber (more left : Nat) : Nat := more + left + 1

/-- The locations of several accesses of `n` bytes, one after another, `more` others following; between two of them an interrupt may
be taken (42_loadstore_mte_atomics.md R157). -/
def locateList (d : AccDesc) (n more : Nat) (first : Bool) : List Word → State → Loc (List (List Xlat))
  | [], s => .ok [] s
  | a :: as, s =>
    match (if first then none else midInterrupt (betweenAccesses (accessNumber more as.length) 0) s) with
    | some k => .fault (.interrupted k) a s
    | none =>
      (locateNth d n (accessNumber more as.length) a s).bind fun x s1 =>
        (locateList d n more false as s1).bind fun xs s2 => .ok (x :: xs) s2

/-- The locations that such accesses affect and that can be accessed. -/
def targetList (d : AccDesc) (n : Nat) (addrs : List Word) (s : State) : List Xlat :=
  addrs.flatMap fun a =>
    match locateAll d n a s with
    | .ok xs _ => xs
    | .fault _ _ _ => targetLocs d n a s

/-- Such accesses are more than one single-copy atomic access. -/
def manyAccesses (d : AccDesc) (n : Nat) (addrs : List Word) (s : State) : Bool :=
  decide (1 < addrs.length) || addrs.any (isMultiple d n · s)

/-- The locations that such accesses reach before a fault or an interrupt stops them, those of the first bytes of an unaligned one
included. -/
def reachedList (d : AccDesc) (n more : Nat) (first : Bool) : List Word → State → List Xlat
  | [], _ => []
  | a :: as, s =>
    match (if first then none else midInterrupt (betweenAccesses (accessNumber more as.length) 0) s) with
    | some _ => []
    | none =>
      match locateNth d n (accessNumber more as.length) a s with
      | .ok x s1 => x ++ reachedList d n more false as s1
      | .fault _ _ _ => reachedLocs d n (accessNumber more as.length) a s

/-- The value of one located element. -/
def readElem (xs : List Xlat) (s : State) : Word × State :=
  (ofBytes 64 (byteOrder (bigEndian s) (readLocs xs 0 s).1), (readLocs xs 0 s).2)

/-- The values of located elements. -/
def readElems : List (List Xlat) → State → List Word × State
  | [], s => ([], s)
  | xs :: rest, s => ((readElem xs s).1 :: (readElems rest (readElem xs s).2).1, (readElems rest (readElem xs s).2).2)

/-- Write located elements. -/
def writeElems (bytes : Nat) : List (List Xlat) → List Word → State → State
  | xs :: rest, v :: vs, s => writeElems bytes rest vs (writeLocs xs (byteOrder (bigEndian s) (bytesOf bytes v)) s)
  | _, _, s => s

/-- A loaded value of `bits` bits, extended. -/
def extendElem (signed : Bool) (bits : Nat) (v : Word) : Word :=
  if signed then (v <<< (64 - bits)).sshiftRight (64 - bits) else v

/-- A vector with these elements of `bits` bits, zero elsewhere. -/
def vecOfElems (bits : Nat) (l : List (Nat × Word)) : VReg :=
  l.foldl (fun r ev => r ||| ((ev.2.setWidth 2048 &&& maskOf 2048 0 bits) <<< (bits * ev.1))) 0

/-- The destination of a vector load that is stopped between its accesses may hold any value. -/
def spoilZ (zt : BitVec 5) (s : State) : State :=
  if Config.freeBool .partialAccess s.free then writeZ zt (Config.freeVector .partialVector s.free) s else s

/-- The elements `es` loaded, each at its address; `others` says that the instruction makes accesses beside these, and at most `more`
of them follow. Where one of several accesses is stopped, `spoil` acts on the registers. -/
def loadElems (m : SveAccess) (whole : Nat) (es : List Nat) (others : Bool) (more : Nat) (spoil : State → State) (base : Word)
    (s : State) : Acc (List (Nat × Word)) :=
  let d := m.desc false false
  let n := sizeBytes m.msize
  let addrs := es.map (m.addr whole base s)
  match locateList d n more true addrs s with
  | .ok xss s1 => .ok (es.zip (readElems xss s1).1) (readElems xss s1).2
  | .fault k va s1 =>
    abort d k va (if others || manyAccesses d n addrs s then spoil (partialRead (reachedList d n more true addrs s) s1)
      else s1)

/-- LD1: Active elements are loaded and extended, the others become zero. -/
def sveLoadRegular (m : SveAccess) (signed : Bool) (zt : BitVec 5) (s : State) : Result :=
  (m.base s).andThen fun base s1 =>
    (loadElems m (m.whole s1) (m.actives (elemCount m.esize s1) s1) false 0 (spoilZ zt) base s1).andThen fun l s2 =>
      .next (advance (writeZ zt (vecOfElems (8 * sizeBytes m.esize)
        (l.map fun ev => (ev.1, extendElem signed (8 * sizeBytes m.msize) ev.2))) s2))

/-- ST1: Active elements are stored. -/
def sveStoreEffect (m : SveAccess) (zt : BitVec 5) (s : State) : Result :=
  (m.base s).andThen fun base s1 =>
    let d := m.desc true false
    let n := sizeBytes m.msize
    let es := m.actives (elemCount m.esize s1) s1
    let vs := es.map (elemOf (8 * sizeBytes m.esize) (readZ zt s1))
    let addrs := es.map (m.addr (m.whole s1) base s1)
    match locateList d n 0 true addrs s1 with
    | .ok xss s2 => .next (advance (writeElems n xss vs s2))
    | .fault k va s2 =>
      (abort (α := Unit) d k va (partialWrite (reachedList d n 0 true addrs s1)
        (if manyAccesses d n addrs s1 then targetList d n addrs s1 else [])
        (vs.flatMap fun v => byteOrder (bigEndian s2) (bytesOf n v)) s2)).andThen fun _ s3 => .next s3

/-! ### First-fault and Non-fault loads -/

/-- The attributes leave it open whether a suppressible element access is performed: stage 2 forces the type
(20_memory.md R115), or the location is Device. Which stage 1 and stage 2 attributes R115's draw applies to is not printed
(91_not_in_source.md N6): that it is made for every access through stage 2 with HCR_EL2.FWB 1 is a DESIGN CHOICE (log
entry 81). -/
def attributesOpen (d : AccDesc) (xs : List Xlat) (s : State) : Bool :=
  (has .S2FWB s && stage2For d s && hcr s 46) || xs.any (isDevice ·.type)

/-- A First-fault or Non-fault load of several accesses that a fault or an interrupt stops: its destination and the FFR may hold any value
(42_loadstore_mte_atomics.md R156). -/
def spoilFaultLoad (zt : BitVec 5) (s : State) : State :=
  let t := spoilZ zt s
  if Config.freeBool .partialAccess s.free then { t with ffr := (Config.freeVector .partialRegister s.free).setWidth 256 } else t

/-- A suppressible element access: its value, or none where it is suppressed (20_memory.md R115, R118). An interrupt may be taken
before it, unless it is the first access, and between the bytes of an unaligned one (42_loadstore_mte_atomics.md R157). -/
def nonFaultElem (m : SveAccess) (first : Bool) (left e : Nat) (zt : BitVec 5) (va : Word) (s : State) :
    Acc (Option (Word × List Xlat)) :=
  let d := m.desc false true
  let g := accessNumber 0 left
  match (if first then none else midInterrupt (betweenAccesses g 0) s) with
  | some i => abort d (.interrupted i) va (spoilFaultLoad zt s)
  | none =>
    match locateNth d (sizeBytes m.msize) g va s with
    | .fault (.interrupted i) va' s1 =>
      abort d (.interrupted i) va' (spoilFaultLoad zt (partialRead (reachedLocs d (sizeBytes m.msize) g va s) s1))
    | .fault _ _ s1 => .ok none s1
    | .ok xs s1 =>
      if attributesOpen d xs s && !Config.freeBool (.ffPerformed e) s.free then .ok none s
      else .ok (some ((readElem xs s1).1, xs)) (readElem xs s1).2

/-- A read that fails an asynchronous tag check (42_loadstore_mte_atomics.md R163). -/
def asyncTagFail (d : AccDesc) (xs : List Xlat) (s : State) : Bool :=
  tcf s == 2 && xs.any fun x => tagChecked d x (withTcr x.tcr s) && tagMismatch x s

/-- The elements from a list of element numbers on, for the FFR so far and whether one was suppressed: a suppressed element and
those after it make their FFR element FALSE, a failed asynchronous tag check may; an element from the first FALSE one on may hold
any value (43_fp_sve_sme.md R175, 93_implementation_defined.md U18, U27). -/
def nonFaultElems (m : SveAccess) (signed : Bool) (actives : List Nat) (zt : BitVec 5) (base : Word) (first : Bool) :
    List Nat → PReg → Bool → State → Acc (List (Nat × Word) × PReg)
  | [], ffr, _, s => .ok ([], ffr) s
  | e :: es, ffr, open_, s =>
    (if actives.contains e then
        nonFaultElem m (first && actives.head? == some e) es.length e zt (m.addr (m.whole s) base s e) s
      else .ok (some (0, [])) s).bind fun r s1 =>
      let bit := e * sizeBytes m.esize
      let reported := match r with
        | none => true
        | some (_, xs) => asyncTagFail (m.desc false true) xs s && Config.freeBool (.ffReported e) s.free
      let ffr1 := if reported then setBit ffr bit false else ffr
      let open1 := open_ || !bitAt ffr1 bit
      let v := match r with
        | some (v, _) => if open1 then Config.freeWord (.ffElement e) s.free else extendElem signed (8 * sizeBytes m.msize) v
        | none => Config.freeWord (.ffElement e) s.free
      (nonFaultElems m signed actives zt base first es (if r.isNone then clearFrom ffr1 bit else ffr1) open1 s1).bind
        fun rest s2 => .ok ((e, v) :: rest.1, rest.2) s2
where
  /-- The FFR elements from a place on made FALSE. -/
  clearFrom (ffr : PReg) (bit : Nat) : PReg := ffr &&& maskOf 256 0 bit

/-- What a First-fault or Non-fault load leaves: the vector and the FFR. -/
def endFaultLoad (m : SveAccess) (zt : BitVec 5) (l : List (Nat × Word)) (ffr : PReg) (s : State) : Result :=
  .next (advance { writeZ zt (vecOfElems (8 * sizeBytes m.esize) l) s with ffr })

/-- LDNF1: no element takes a fault. -/
def sveLoadNonFault (m : SveAccess) (signed : Bool) (zt : BitVec 5) (s : State) : Result :=
  (m.base s).andThen fun base s1 =>
    let count := elemCount m.esize s1
    (nonFaultElems m signed (m.actives count s1) zt base true (List.range count) s1.ffr false s1).andThen fun r s2 =>
      endFaultLoad m zt r.1 r.2 s2

/-- LDFF1: the First active element is loaded as by a regular load, and holds any value if its FFR element was FALSE; the others
take no fault (43_fp_sve_sme.md R175). -/
def sveLoadFirstFault (m : SveAccess) (signed : Bool) (zt : BitVec 5) (s : State) : Result :=
  (m.base s).andThen fun base s1 =>
    let count := elemCount m.esize s1
    match m.actives count s1 with
    | [] => .next (advance (writeZ zt 0 s1))
    | e :: es =>
      let rest := (List.range count).filter (e < ·)
      (loadElems m (m.whole s1) [e] (!es.isEmpty) rest.length (spoilFaultLoad zt) base s1).andThen fun l s2 =>
        let known := bitAt s1.ffr (e * sizeBytes m.esize)
        let first := l.map fun ev =>
          (ev.1, if known then extendElem signed (8 * sizeBytes m.msize) ev.2 else Config.freeWord (.ffElement e) s.free)
        (nonFaultElems m signed es zt base false rest s2.ffr (!known) s2).andThen fun r s3 =>
          endFaultLoad m zt (first ++ r.1) r.2 s3

/-! ### Instructions that need 256 bits -/

/-- LD1RO: a block of 32 bytes, its Active elements loaded, repeated in every 256-bit segment. -/
def ld1roEffect (m : SveAccess) (zt : BitVec 5) (s : State) : Result :=
  (m.base s).andThen fun base s1 =>
    (loadElems m 32 (m.actives (32 / sizeBytes m.esize) s1) false 0 (spoilZ zt) base s1).andThen fun l s2 =>
      let block := vecOfElems (8 * sizeBytes m.esize) l
      .next (advance (writeZ zt ((List.range (vl s2 / 256)).foldl (fun r k => r ||| (block <<< (256 * k))) (segmentTail s2)) s2))

/-- The source of element `i` of a permute of `pairs` pairs of 128-bit elements: from the second source, and its number there. -/
def permuteSource (op : PermuteOp) (pairs i : Nat) : Bool × Nat :=
  let odd := i % 2 == 1
  match op with
  | .trn1 => (odd, i / 2 * 2)
  | .trn2 => (odd, i / 2 * 2 + 1)
  | .zip1 => (odd, i / 2)
  | .zip2 => (odd, pairs + i / 2)
  | .uzp1 => if i < pairs then (false, 2 * i) else (true, 2 * (i - pairs))
  | .uzp2 => if i < pairs then (false, 2 * i + 1) else (true, 2 * (i - pairs) + 1)

/-- TRN1, TRN2, UZP1, UZP2, ZIP1, ZIP2 on 128-bit elements. -/
def permuteQEffect (op : PermuteOp) (zm zn zd : BitVec 5) (s : State) : Result :=
  let pairs := vl s / 256
  let v := (List.range (2 * pairs)).foldl (fun r i =>
    let src := permuteSource op pairs i
    r ||| ((field (readZ (if src.1 then zm else zn) s) (128 * src.2) 128).setWidth 2048 <<< (128 * i))) (segmentTail s)
  .next (advance (writeZ zd v s))

end Sys2Proof.Machine
end

