-- ==== Sys2Proof/Machine/Elements.lean ====
section
/-! DEFINITION. Floating-point instructions on elements: the half-precision, vector, pairwise, across-lanes and SVE forms of FMAX,
FMIN, FMAXNM and FMINNM, FABS and FNEG, rounding with ties away, the BF16 conversion, and the PMU events of reductions
(43_fp_sve_sme.md R164, R165, R176 to R181; 61_debug_pmu_trace.md R318). Their decode is a parameter (30_encoding.md R119);
operand forms that the spec does not print are PRESUMED (log entry 69). -/

namespace Sys2Proof.Machine

/-- The value of an operation on two elements of a size: half, single or double. -/
def fpElem (op : FpOp) (size : BitVec 2) (a b : Word) (s : State) : Word :=
  let fpcr := ireg s .FPCR
  if size = 1 then (fpValue op fpcr (a.setWidth 16) (b.setWidth 16) s).setWidth 64
  else if size = 2 then (fpValue op fpcr (a.setWidth 32) (b.setWidth 32) s).setWidth 64
  else fpValue op fpcr a b s

/-- FPSR after an operation on elements: the flags may be set (43_fp_sve_sme.md R181). -/
def elemFlags (size : BitVec 2) (l : List (Word × Word)) (s : State) : State :=
  l.foldl (fun t ab =>
    if size = 1 then fpFlags (ab.1.setWidth 16) (ab.2.setWidth 16) t
    else if size = 2 then fpFlags (ab.1.setWidth 32) (ab.2.setWidth 32) t
    else fpFlags ab.1 ab.2 t) s

/-- The bits of an element of a size. -/
def sizeBits (size : BitVec 2) : Nat := 8 * sizeBytes size

/-- The first `count` elements of a vector register. -/
def elemsOf (size : BitVec 2) (count : Nat) (v : VReg) : List Word := (List.range count).map (elemOf (sizeBits size) v)

/-- A vector of elements in order. -/
def vecOfList (size : BitVec 2) (l : List Word) : VReg := vecOfElems (sizeBits size) ((List.range l.length).zip l)

/-- Adjacent elements as pairs. -/
def adjacent : List Word → List (Word × Word)
  | a :: b :: rest => (a, b) :: adjacent rest
  | _ => []

/-- Write the values of an operation on pairs of elements, and the flags. -/
def writeFpElems (op : FpOp) (size : BitVec 2) (l : List (Word × Word)) (zd : BitVec 5) (s : State) : State :=
  elemFlags size l (writeZ zd (vecOfList size (l.map fun ab => fpElem op size ab.1 ab.2 s)) s)

/-- The elements a vector of 64 or 128 bits has. -/
def vectorCount (size : BitVec 2) (q : Bool) : Nat := (if q then 128 else 64) / sizeBits size

/-! ### PMU events of reductions -/

/-- The floating-point pairwise instructions, of Advanced SIMD and of SVE2. -/
def fpPairwise : List ReduceName := [.faddp, .fmaxnmp, .fmaxp, .fminnmp, .fminp]

/-- The floating-point reductions across a vector, of Advanced SIMD; SVE has FADDV too. -/
def fpAcrossNames : List ReduceName := [.fmaxnmv, .fmaxv, .fminnmv, .fminv]

/-- The integer reductions of Advanced SIMD. -/
def aseIntReductions : List ReduceName :=
  [.addp, .addv, .sadalp, .saddlp, .saddlv, .smaxp, .smaxv, .sminp, .sminv, .uadalp, .uaddlp, .uaddlv, .umaxp, .umaxv, .uminp,
    .uminv]

/-- The integer reductions of SVE and SVE2. -/
def sveIntReductions : List ReduceName :=
  [.andv, .eorv, .orv, .saddv, .smaxv, .sminv, .uaddv, .umaxv, .uminv, .addp, .sadalp, .smaxp, .sminp, .uadalp, .umaxp, .uminp]

/-- The events that count an instruction, by the lists it is on; 0x803E and 0x805E require FEAT_SVE. -/
def reduceEvents (k : ReduceInstr) (s : State) : List (BitVec 16) :=
  if k.sve then
    if (fpPairwise ++ .faddv :: fpAcrossNames).contains k.name then (if has .SVE s then [0x803E, 0x803F] else [0x803F])
    else if sveIntReductions.contains k.name then (if has .SVE s then [0x805E, 0x805F] else [0x805F])
    else []
  else if fpPairwise.contains k.name then [0x803D, 0x803F]
  else if fpAcrossNames.contains k.name then [0x803F]
  else if aseIntReductions.contains k.name then [0x805D, 0x805F]
  else []

/-- The name of the pairwise form of an operation. -/
def pairName : FpOp → ReduceName
  | .max => .fmaxp
  | .min => .fminp
  | .maxnm => .fmaxnmp
  | .minnm => .fminnmp

/-- The name of the form across a vector. -/
def acrossName : FpOp → ReduceName
  | .max => .fmaxv
  | .min => .fminv
  | .maxnm => .fmaxnmv
  | .minnm => .fminnmv

/-- The events that count an AArch32 reduction: of each event of which that is IMPLEMENTATION DEFINED a parameter says which it counts
(93_implementation_defined.md U38). -/
def reduceEventsA32 (n : ReduceName) (s : State) : List (BitVec 16) :=
  [0x803D, 0x803F, 0x805D, 0x805F].filter fun e => s.cfg.pmuReduceA32.contains (e, n)

/-- A reduction is speculatively executed: it is counted. -/
def countReduction (k : ReduceInstr) (s : State) : State :=
  (if s.ps.nRW then reduceEventsA32 k.name s else reduceEvents k s).foldl (fun t e => countEvent e t) s

/-! ### Vector forms -/

/-- FMAX, FMIN, FMAXNM, FMINNM (vector). -/
def fpVector (op : FpOp) (size : BitVec 2) (q : Bool) (rm rn rd : BitVec 5) (s : State) : State :=
  let n := vectorCount size q
  advance (writeFpElems op size ((elemsOf size n (readZ rn s)).zip (elemsOf size n (readZ rm s))) rd s)

/-- FMAXP, FMINP, FMAXNMP, FMINNMP (vector): the pairs of the first source, then those of the second. -/
def fpPairVector (op : FpOp) (size : BitVec 2) (q : Bool) (rm rn rd : BitVec 5) (s : State) : State :=
  let n := vectorCount size q
  advance (countReduction ⟨pairName op, false⟩
    (writeFpElems op size (adjacent (elemsOf size n (readZ rn s) ++ elemsOf size n (readZ rm s))) rd s))

/-- The same of one pair (scalar). -/
def fpPairScalar (op : FpOp) (size : BitVec 2) (rn rd : BitVec 5) (s : State) : State :=
  advance (countReduction ⟨pairName op, false⟩ (writeFpElems op size (adjacent (elemsOf size 2 (readZ rn s))) rd s))

/-- The value of a reduction by halves, `depth` deep. -/
def fpReduce (op : FpOp) (size : BitVec 2) (s : State) : Nat → List Word → Word
  | 0, l => l.headD 0
  | depth + 1, l =>
    fpElem op size (fpReduce op size s depth (l.take (2 ^ depth))) (fpReduce op size s depth (l.drop (2 ^ depth))) s

/-- FMAXV, FMINV, FMAXNMV, FMINNMV. -/
def fpAcross (op : FpOp) (size : BitVec 2) (q : Bool) (rn rd : BitVec 5) (s : State) : State :=
  let n := vectorCount size q
  let l := elemsOf size n (readZ rn s)
  advance (countReduction ⟨acrossName op, false⟩ (elemFlags size (adjacent l)
    (writeZ rd (vecOfList size [fpReduce op size s (Nat.log2 n) l]) s)))

/-- FABS and FNEG: the sign bit of each element cleared or inverted; a denormal is not flushed (43_fp_sve_sme.md R176). -/
def fpSign (neg : Bool) (size : BitVec 2) (q : Option Bool) (rn rd : BitVec 5) (s : State) : State :=
  let l := elemsOf size (match q with | some b => vectorCount size b | none => 1) (readZ rn s)
  let top : Word := 1#64 <<< (sizeBits size - 1)
  advance (writeZ rd (vecOfList size (l.map fun x => if neg then x ^^^ top else x &&& ~~~top)) s)

/-! ### SVE forms -/

/-- The Active elements of a destination take new values, the others stay. -/
def mergeElems (size : BitVec 2) (pg : BitVec 3) (old : VReg) (l : List Word) (s : State) : VReg :=
  let act := activeMask (s.p.getD pg.toNat 0) size
  (vecOfList size l &&& act) ||| (old &&& ~~~act)

/-- An SVE operation on pairs of elements under a predicate. -/
def svePredElems (op : FpOp) (size : BitVec 2) (pg : BitVec 3) (l : List (Word × Word)) (zdn : BitVec 5) (s : State) :
    State :=
  elemFlags size l
    (writeZ zdn (mergeElems size pg (readZ zdn s) (l.map fun ab => fpElem op size ab.1 ab.2 s) s) s)

/-- SVE FMAX, FMIN, FMAXNM, FMINNM (vectors) (43_fp_sve_sme.md R177, R179). -/
def svePred (op : FpOp) (size : BitVec 2) (pg : BitVec 3) (zm zdn : BitVec 5) (s : State) : State :=
  let n := elemCount size s
  advance (svePredElems op size pg ((elemsOf size n (readZ zdn s)).zip (elemsOf size n (readZ zm s))) zdn s)

/-- 1.0 in a format. -/
def fpOne (size : BitVec 2) : Word := if size = 1 then 0x3C00 else if size = 2 then 0x3F800000 else 0x3FF0000000000000

/-- The same with an immediate as second input (43_fp_sve_sme.md R178, R180). -/
def sveImm (op : FpOp) (size : BitVec 2) (pg : BitVec 3) (one : Bool) (zdn : BitVec 5) (s : State) : State :=
  let imm : Word := if one then fpOne size else 0
  advance (svePredElems op size pg ((elemsOf size (elemCount size s) (readZ zdn s)).map fun a => (a, imm)) zdn s)

/-- Elements of two lists in turn. -/
def interleave : List Word → List Word → List Word
  | a :: as, b :: bs => a :: b :: interleave as bs
  | _, _ => []

/-- SVE2 FMAXP, FMINP, FMAXNMP, FMINNMP: the results of the two sources in turn. -/
def svePair (op : FpOp) (size : BitVec 2) (pg : BitVec 3) (zm zdn : BitVec 5) (s : State) : State :=
  let n := elemCount size s
  let a := adjacent (elemsOf size n (readZ zdn s))
  let b := adjacent (elemsOf size n (readZ zm s))
  let value (ab : Word × Word) : Word := fpElem op size ab.1 ab.2 s
  advance (countReduction ⟨pairName op, true⟩ (elemFlags size (a ++ b)
    (writeZ zdn (mergeElems size pg (readZ zdn s) (interleave (a.map value) (b.map value)) s) s)))

/-! ### Rounding -/

/-- Round `n / d` to the nearest integer, ties to the larger magnitude (43_fp_sve_sme.md R165). -/
def roundTiesAway (n : Int) (d : Nat) : Int :=
  let q := (2 * n.natAbs + d) / (2 * d)
  if n < 0 then -q else q

/-- The exponent bias of a format. -/
def fpBias (w : Nat) : Nat := 2 ^ (w - 2 - fracBits w) - 1

/-- A magnitude as an exact fraction: numerator and denominator. -/
def fpFraction {w : Nat} (x : BitVec w) : Nat × Nat :=
  let f := fracBits w
  let e := magnitude x >>> f
  let m := magnitude x % 2 ^ f
  let mant := if e = 0 then m else 2 ^ f + m
  let shift := max e 1
  if fpBias w + f ≤ shift then (mant * 2 ^ (shift - fpBias w - f), 1) else (mant, 2 ^ (fpBias w + f - shift))

/-- The number `n / d` with a sign rounded to a format, to nearest with ties to the value of larger magnitude
(43_fp_sve_sme.md R165). The result of a value too large for the format is not printed: infinity is PRESUMED (log entry 69). -/
def fpRoundTiesAway (w : Nat) (neg : Bool) (n d : Nat) : BitVec w :=
  let f : Int := fracBits w
  let least : Int := 1 - fpBias w
  let guess : Int := (Nat.log2 n : Int) - Nat.log2 d
  let fits (e : Int) : Bool := if 0 ≤ e then decide (d * 2 ^ e.toNat ≤ n) else decide (d ≤ n * 2 ^ (-e).toNat)
  let e : Int := max least (if fits guess then guess else guess - 1)
  let u := e - f
  let m : Int := if 0 ≤ u then roundTiesAway n (d * 2 ^ u.toNat) else roundTiesAway (n * 2 ^ (-u).toNat : Nat) d
  let bits : Nat := min (infMagnitude w) (m + (e - least) * (2 ^ fracBits w : Nat)).toNat
  BitVec.ofNat w (if n = 0 then 0 else bits) ||| (if neg then 1#w <<< (w - 1) else 0)

/-- The integer nearest a value that is not NaN nor infinite, ties away from zero. -/
def fpToIntAway {w : Nat} (x : BitVec w) : Int :=
  let (n, d) := fpFraction x
  roundTiesAway (if x.msb then -(n : Int) else n) d

/-- A value saturated to a signed or unsigned integer of `bits` bits. -/
def saturateInt (unsigned : Bool) (bits : Nat) (v : Int) : Int :=
  if unsigned then max 0 (min v (2 ^ bits - 1)) else max (-(2 ^ (bits - 1))) (min v (2 ^ (bits - 1) - 1))

/-- FCVTAS and FCVTAU of a value: NaN gives zero, an infinity or a value out of range the nearest integer there is. -/
def fcvtaValue {w : Nat} (unsigned : Bool) (bits : Nat) (x : BitVec w) : Int :=
  if isNaN x then 0
  else if magnitude x = infMagnitude w then saturateInt unsigned bits (if x.msb then -(2 ^ 65) else 2 ^ 65)
  else saturateInt unsigned bits (fpToIntAway x)

/-- FRINTA of a value: NaN is quieted or the Default NaN, its sign FPCR.AH (PRESUMED, log entry 36), an infinity stays, a zero
result keeps the sign. -/
def frintaValue {w : Nat} (fpcr : Word) (x : BitVec w) : BitVec w :=
  if isNaN x then (if bitAt fpcr 25 then defaultNaN w (bitAt fpcr 1) else quieted x)
  else if magnitude x = infMagnitude w then x
  else fpRoundTiesAway w x.msb (fpToIntAway x).natAbs 1

/-- FPSR after a conversion or rounding: IOC [0], IXC [4] and IDC [7] may be set. -/
def roundFlags (s : State) : State :=
  setReg .FPSR (sreg s .FPSR ||| (Config.freeWord .fmmlaFlags s.free &&& 0x91)) s

/-- FCVTAS, FCVTAU (scalar) to a general register. -/
def fcvta (unsigned : Bool) (size : BitVec 2) (x : Bool) (rn rd : BitVec 5) (s : State) : State :=
  let bits := if x then 64 else 32
  let fpcr := ireg s .FPCR
  let v := readZ rn s
  let r : Int := if size = 1 then fcvtaValue unsigned bits (flushInput fpcr (v.setWidth 16 : BitVec 16) s)
    else if size = 2 then fcvtaValue unsigned bits (flushInput fpcr (v.setWidth 32 : BitVec 32) s)
    else fcvtaValue unsigned bits (flushInput fpcr (v.setWidth 64 : BitVec 64) s)
  advance (roundFlags (writeX rd (if x then BitVec.ofInt 64 r else (BitVec.ofInt 32 r).setWidth 64) s))

/-- FRINTA (scalar). -/
def frinta (size : BitVec 2) (rn rd : BitVec 5) (s : State) : State :=
  let fpcr := ireg s .FPCR
  let v := readZ rn s
  let r : VReg := if size = 1 then (frintaValue fpcr (flushInput fpcr (v.setWidth 16 : BitVec 16) s)).setWidth 2048
    else if size = 2 then (frintaValue fpcr (flushInput fpcr (v.setWidth 32 : BitVec 32) s)).setWidth 2048
    else (frintaValue fpcr (flushInput fpcr (v.setWidth 64 : BitVec 64) s)).setWidth 2048
  advance (roundFlags (writeZ rd r s))

/-! ### BF16 -/

/-- A BF16 denormal result of a conversion is flushed to a zero of its sign under FPSCR.FZ (43_fp_sve_sme.md R164). -/
def bf16Flush (fz : Bool) (x : BitVec 16) : BitVec 16 :=
  if fz && field x 7 8 == 0#8 && field x 0 7 != 0#7 then x &&& 0x8000 else x

/-- A single-precision value rounded to BF16: the upper half when that is exact; else it or the next larger magnitude, the
rounding not being stated (log entry 69). Of a NaN the rule states no result: a free value (DESIGN CHOICE, log entry 69). -/
def bf16Round (x : Half) (s : State) : BitVec 16 :=
  let hi : BitVec 16 := field x 16 16
  if isNaN x then (Config.freeWord (.bf16Nan x) s.free).setWidth 16
  else if field x 0 16 == 0#16 then hi
  else if Config.freeBool (.bf16Rounding x) s.free then hi + 1 else hi

/-- The conversion of single precision to BF16: rounded, then flushed. -/
def bf16Value (fz : Bool) (x : Half) (s : State) : BitVec 16 := bf16Flush fz (bf16Round x s)

/-- An S register: a 32-bit part of a vector register. -/
def readS (n : BitVec 5) (s : State) : Half := field (readZ (n >>> 2) s) (32 * (n.toNat % 4)) 32

/-- VCVT to BF16, Advanced SIMD: the four elements of Qm in order to Dd. The control is FPSCR.FZ here too, as the rule says of every such
conversion (operands PRESUMED, log entry 69). -/
def vcvtBf16Vec (dm dd : BitVec 5) (s : State) : State :=
  let fz := bitAt (ireg s .FPCR) 24
  let half (k : Nat) : Word := (bf16Value fz (field (readZ (dm >>> 1) s) (32 * k) 32) s).setWidth 64 <<< (16 * k)
  let v : Word := half 0 ||| half 1 ||| half 2 ||| half 3
  let lo := if bitAt dd 0 then 64 else 0
  advance (roundFlags (writeZ (dd >>> 1) (copyBits (readZ (dd >>> 1) s) (v.setWidth 2048 <<< lo) lo (lo + 64)) s))

/-- VCVTB and VCVTT to BF16: one half of Sd is written, the other stays. FPSCR.FZ is FPCR.FZ, bit [24]. -/
def vcvtBf16 (top : Bool) (sm sd : BitVec 5) (s : State) : State :=
  let r := bf16Value (bitAt (ireg s .FPCR) 24) (readS sm s) s
  let lo := 32 * (sd.toNat % 4) + (if top then 16 else 0)
  let z := readZ (sd >>> 2) s
  advance (roundFlags (writeZ (sd >>> 2) (copyBits z (r.setWidth 2048 <<< lo) lo (lo + 16)) s))

end Sys2Proof.Machine
end

