-- ==== Sys2Proof/Machine/RegNames.lean ====
section
/-! DEFINITION. The System register names: (o0, op1, CRn, CRm, op2) to register, who may write which, which feature
each needs (10_state.md R21, 30_encoding.md R125). The numbers are PRESUMED (91_not_in_source.md N36; log entry 8); ID_PFR0,
ID_PFR1, ID_DFR0, ID_AFR0 and ID_MMFR0 to 3 have places of the range of R126 that nothing else uses (DESIGN CHOICE, log entry
84). -/

namespace Sys2Proof.Machine

/-- Register names, part 1. -/
def regNames_a : List (BitVec 15 × RegName) := [
  (0x4080, .stored .SCTLR_EL1), (0x6080, .stored .SCTLR_EL2), (0x7080, .stored .SCTLR_EL3),
  (0x6083, .stored .SCTLR2_EL2), (0x7083, .stored .SCTLR2_EL3), (0x6088, .stored .HCR_EL2),
  (0x6092, .stored .HCRX_EL2), (0x608C, .stored .HFGRTR_EL2), (0x608E, .stored .HFGITR_EL2),
  (0x608B, .stored .HSTR_EL2), (0x7088, .stored .SCR_EL3), (0x4082, .stored .CPACR_EL1),
  (0x608A, .stored .CPTR_EL2), (0x708A, .stored .CPTR_EL3), (0x4090, .stored .ZCR_EL1),
  (0x4096, .stored .SMCR_EL1), (0x6090, .stored .ZCR_EL2), (0x6096, .stored .SMCR_EL2),
  (0x7090, .stored .ZCR_EL3), (0x7096, .stored .SMCR_EL3), (0x4102, .stored .TCR_EL1),
  (0x6102, .stored .TCR_EL2), (0x7102, .stored .TCR_EL3), (0x4103, .stored .TCR2_EL1),
  (0x6103, .stored .TCR2_EL2), (0x4100, .stored .TTBR0_EL1), (0x4101, .stored .TTBR1_EL1),
  (0x6100, .stored .TTBR0_EL2), (0x6101, .stored .TTBR1_EL2), (0x7100, .stored .TTBR0_EL3),
  (0x610A, .stored .VTCR_EL2), (0x6108, .stored .VTTBR_EL2), (0x6110, .stored .VNCR_EL2),
  (0x6547, .stored .MECIDR_EL2), (0x6540, .stored .MECID_P0_EL2), (0x6541, .stored .MECID_A0_EL2),
  (0x6542, .stored .MECID_P1_EL2), (0x6543, .stored .MECID_A1_EL2), (0x6548, .stored .VMECID_P_EL2),
  (0x6549, .stored .VMECID_A_EL2)]

/-- Register names, part 2. -/
def regNames_b : List (BitVec 15 × RegName) := [
  (0x710E, .stored .GPCCR_EL3), (0x6089, .stored .MDCR_EL2), (0x7099, .stored .MDCR_EL3),
  (0x4200, .stored .SPSR_EL1), (0x4201, .stored .ELR_EL1), (0x4290, .stored .ESR_EL1),
  (0x4300, .stored .FAR_EL1), (0x4600, .stored .VBAR_EL1), (0x4601, .stored .RVBAR_EL1),
  (0x4602, .stored .RMR_EL1), (0x6200, .stored .SPSR_EL2), (0x6201, .stored .ELR_EL2),
  (0x6290, .stored .ESR_EL2), (0x6300, .stored .FAR_EL2), (0x6600, .stored .VBAR_EL2),
  (0x6601, .stored .RVBAR_EL2), (0x6602, .stored .RMR_EL2), (0x7200, .stored .SPSR_EL3),
  (0x7201, .stored .ELR_EL3), (0x7290, .stored .ESR_EL3), (0x7300, .stored .FAR_EL3),
  (0x7600, .stored .VBAR_EL3), (0x7601, .stored .RVBAR_EL3), (0x7602, .stored .RMR_EL3),
  (0x6304, .stored .HPFAR_EL2), (0x4681, .stored .CONTEXTIDR_EL1), (0x6681, .stored .CONTEXTIDR_EL2),
  (0x6298, .stored .FPEXC32_EL2), (0x5A20, .stored .FPCR), (0x5A21, .stored .FPSR),
  (0x43A0, .stored .PAR_EL1), (0x4005, .stored .MPIDR_EL1), (0x5801, .stored .CTR_EL0),
  (0x5807, .stored .DCZID_EL0), (0x4800, .stored .CCSIDR_EL1), (0x4802, .stored .CCSIDR2_EL1),
  (0x5000, .stored .CSSELR_EL1), (0x4801, .stored .CLIDR_EL1), (0x4804, .stored .GMID_EL1),
  (0x4033, .stored .ID_PFR0_EL1)]

/-- Register names, part 3. -/
def regNames_c : List (BitVec 15 × RegName) := [
  (0x4034, .stored .ID_PFR1_EL1), (0x4035, .stored .ID_DFR0_EL1), (0x4036, .stored .ID_AFR0_EL1),
  (0x4037, .stored .ID_MMFR0_EL1), (0x403D, .stored .ID_MMFR1_EL1), (0x403E, .stored .ID_MMFR2_EL1),
  (0x403F, .stored .ID_MMFR3_EL1), (0x4010, .stored .ID_ISAR0_EL1), (0x4011, .stored .ID_ISAR1_EL1),
  (0x4012, .stored .ID_ISAR2_EL1), (0x4013, .stored .ID_ISAR3_EL1), (0x4014, .stored .ID_ISAR4_EL1),
  (0x4015, .stored .ID_ISAR5_EL1), (0x4016, .stored .ID_MMFR4_EL1), (0x4017, .stored .ID_ISAR6_EL1),
  (0x4018, .stored .MVFR0_EL1), (0x4019, .stored .MVFR1_EL1), (0x401A, .stored .MVFR2_EL1),
  (0x401C, .stored .ID_PFR2_EL1), (0x401D, .stored .ID_DFR1_EL1), (0x401E, .stored .ID_MMFR5_EL1),
  (0x4020, .stored .ID_AA64PFR0_EL1), (0x4021, .stored .ID_AA64PFR1_EL1), (0x4022, .stored .ID_AA64PFR2_EL1),
  (0x4024, .stored .ID_AA64ZFR0_EL1), (0x4025, .stored .ID_AA64SMFR0_EL1), (0x4028, .stored .ID_AA64DFR0_EL1),
  (0x4029, .stored .ID_AA64DFR1_EL1), (0x402C, .stored .ID_AA64AFR0_EL1), (0x402D, .stored .ID_AA64AFR1_EL1),
  (0x4030, .stored .ID_AA64ISAR0_EL1), (0x4031, .stored .ID_AA64ISAR1_EL1), (0x4032, .stored .ID_AA64ISAR2_EL1),
  (0x4038, .stored .ID_AA64MMFR0_EL1), (0x4039, .stored .ID_AA64MMFR1_EL1), (0x403A, .stored .ID_AA64MMFR2_EL1),
  (0x403B, .stored .ID_AA64MMFR3_EL1), (0x403C, .stored .ID_AA64MMFR4_EL1), (0x5F00, .stored .CNTFRQ_EL0),
  (0x4708, .stored .CNTKCTL_EL1)]

/-- Register names, part 4. -/
def regNames_d : List (BitVec 15 × RegName) := [
  (0x6708, .stored .CNTHCTL_EL2), (0x6706, .stored .CNTPOFF_EL2), (0x6703, .stored .CNTVOFF_EL2),
  (0x5F11, .stored .CNTP_CTL_EL0), (0x5F12, .stored .CNTP_CVAL_EL0), (0x5F19, .stored .CNTV_CTL_EL0),
  (0x5F1A, .stored .CNTV_CVAL_EL0), (0x6711, .stored .CNTHP_CTL_EL2), (0x6712, .stored .CNTHP_CVAL_EL2),
  (0x6719, .stored .CNTHV_CTL_EL2), (0x671A, .stored .CNTHV_CVAL_EL2), (0x7F11, .stored .CNTPS_CTL_EL1),
  (0x7F12, .stored .CNTPS_CVAL_EL1), (0x4086, .stored .GCR_EL1), (0x4085, .stored .RGSR_EL1),
  (0x42B0, .stored .TFSR_EL1), (0x42B1, .stored .TFSRE0_EL1), (0x62B0, .stored .TFSR_EL2),
  (0x72B0, .stored .TFSR_EL3), (0x5E87, .stored .SCXTNUM_EL0), (0x4687, .stored .SCXTNUM_EL1),
  (0x4108, .stored .APIAKeyLo_EL1), (0x4109, .stored .APIAKeyHi_EL1), (0x410A, .stored .APIBKeyLo_EL1),
  (0x410B, .stored .APIBKeyHi_EL1), (0x4110, .stored .APDAKeyLo_EL1), (0x4111, .stored .APDAKeyHi_EL1),
  (0x4112, .stored .APDBKeyLo_EL1), (0x4113, .stored .APDBKeyHi_EL1), (0x4118, .stored .APGAKeyLo_EL1),
  (0x4119, .stored .APGAKeyHi_EL1), (0x4685, .stored .ACCDATA_EL1), (0x5A28, .stored .DSPSR_EL0),
  (0x5A29, .stored .DLR_EL0), (0x008C, .stored .OSLSR_EL1), (0x5CE0, .stored .PMCR_EL0),
  (0x5CE1, .stored .PMCNTENSET_EL0), (0x5CF3, .stored .PMOVSSET_EL0), (0x5CE5, .stored .PMSELR_EL0),
  (0x5CE8, .stored .PMCCNTR_EL0)]

/-- Register names, part 5. -/
def regNames_e : List (BitVec 15 × RegName) := [
  (0x5CF0, .stored .PMUSERENR_EL0), (0x44D1, .stored .PMBPTR_EL1), (0x44D7, .stored .PMBIDR_EL1),
  (0x44D9, .stored .TRBPTR_EL1), (0x44DF, .stored .TRBIDR_EL1), (0x0C80, .stored .BRBCR_EL1),
  (0x2480, .stored .BRBCR_EL2), (0x0C88, .stored .BRBINFINJ_EL1), (0x0C89, .stored .BRBSRCINJ_EL1),
  (0x0C8A, .stored .BRBTGTINJ_EL1), (0x0820, .stored .TRCCONFIGR), (0x0847, .stored .TRCIDR0),
  (0x42A4, .stored .ERXPFGF_EL1), (0x5A10, .view .NZCV), (0x5A11, .view .DAIF),
  (0x5A12, .view .SVCR), (0x5A15, .view .DIT), (0x5A16, .view .SSBS),
  (0x5A17, .view .TCO), (0x4210, .view .SPSel), (0x4212, .view .CurrentEL),
  (0x4213, .view .PAN), (0x4218, .view .ALLINT), (0x4208, .view .SP_EL0),
  (0x6208, .view .SP_EL1), (0x7208, .view .SP_EL2), (0x5F01, .view .CNTPCT_EL0),
  (0x5F02, .view .CNTVCT_EL0), (0x5F05, .view .CNTPCTSS_EL0), (0x5F06, .view .CNTVCTSS_EL0),
  (0x5F10, .view .CNTP_TVAL_EL0), (0x5F18, .view .CNTV_TVAL_EL0), (0x6710, .view .CNTHP_TVAL_EL2),
  (0x6718, .view .CNTHV_TVAL_EL2), (0x7F10, .view .CNTPS_TVAL_EL1), (0x4608, .view .ISR_EL1),
  (0x5920, .view .RNDR), (0x5921, .view .RNDRRS), (0x5CE2, .view .PMCNTENCLR_EL0),
  (0x5CE3, .view .PMOVSCLR_EL0)]

/-- Register names, part 6. -/
def regNames_f : List (BitVec 15 × RegName) := [
  (0x5CE9, .view .PMXEVTYPER_EL0), (0x5CEA, .view .PMXEVCNTR_EL0)]

/-- Every register name that has one encoding. -/
def regNames : List (BitVec 15 × RegName) :=
  regNames_a ++ regNames_b ++ regNames_c ++ regNames_d ++ regNames_e ++ regNames_f

/-- Read-only registers: a write is UNDEFINED. -/
def sysReadOnly : SysReg → Bool
  | .MECIDR_EL2 => true
  | .RVBAR_EL1 => true
  | .RVBAR_EL2 => true
  | .RVBAR_EL3 => true
  | .MPIDR_EL1 => true
  | .CTR_EL0 => true
  | .DCZID_EL0 => true
  | .CCSIDR_EL1 => true
  | .CCSIDR2_EL1 => true
  | .CLIDR_EL1 => true
  | .GMID_EL1 => true
  | .ID_PFR0_EL1 => true
  | .ID_PFR1_EL1 => true
  | .ID_DFR0_EL1 => true
  | .ID_AFR0_EL1 => true
  | .ID_MMFR0_EL1 => true
  | .ID_MMFR1_EL1 => true
  | .ID_MMFR2_EL1 => true
  | .ID_MMFR3_EL1 => true
  | .ID_ISAR0_EL1 => true
  | .ID_ISAR1_EL1 => true
  | .ID_ISAR2_EL1 => true
  | .ID_ISAR3_EL1 => true
  | .ID_ISAR4_EL1 => true
  | .ID_ISAR5_EL1 => true
  | .ID_MMFR4_EL1 => true
  | .ID_ISAR6_EL1 => true
  | .MVFR0_EL1 => true
  | .MVFR1_EL1 => true
  | .MVFR2_EL1 => true
  | .ID_PFR2_EL1 => true
  | .ID_DFR1_EL1 => true
  | .ID_MMFR5_EL1 => true
  | .ID_AA64PFR0_EL1 => true
  | .ID_AA64PFR1_EL1 => true
  | .ID_AA64PFR2_EL1 => true
  | .ID_AA64ZFR0_EL1 => true
  | .ID_AA64SMFR0_EL1 => true
  | .ID_AA64DFR0_EL1 => true
  | .ID_AA64DFR1_EL1 => true
  | .ID_AA64AFR0_EL1 => true
  | .ID_AA64AFR1_EL1 => true
  | .ID_AA64ISAR0_EL1 => true
  | .ID_AA64ISAR1_EL1 => true
  | .ID_AA64ISAR2_EL1 => true
  | .ID_AA64MMFR0_EL1 => true
  | .ID_AA64MMFR1_EL1 => true
  | .ID_AA64MMFR2_EL1 => true
  | .ID_AA64MMFR3_EL1 => true
  | .ID_AA64MMFR4_EL1 => true
  | .OSLSR_EL1 => true
  | .PMBIDR_EL1 => true
  | .TRBIDR_EL1 => true
  | .TRCIDR0 => true
  | .ERXPFGF_EL1 => true
  | _ => false

/-- The feature without which a register does not exist. -/
def sysFeature : SysReg → Option Feature
  | .HFGRTR_EL2 => some .FGT
  | .HFGITR_EL2 => some .FGT
  | .ZCR_EL1 => some .SVE
  | .SMCR_EL1 => some .SME
  | .ZCR_EL2 => some .SVE
  | .SMCR_EL2 => some .SME
  | .ZCR_EL3 => some .SVE
  | .SMCR_EL3 => some .SME
  | .TTBR1_EL2 => some .VHE
  | .VNCR_EL2 => some .NV2
  | .MECIDR_EL2 => some .MEC
  | .MECID_P0_EL2 => some .MEC
  | .MECID_A0_EL2 => some .MEC
  | .MECID_P1_EL2 => some .MEC
  | .MECID_A1_EL2 => some .MEC
  | .VMECID_P_EL2 => some .MEC
  | .VMECID_A_EL2 => some .MEC
  | .GPCCR_EL3 => some .RME
  | .GMID_EL1 => some .MTE2
  | .CNTPOFF_EL2 => some .ECV
  | .CNTHV_CTL_EL2 => some .VHE
  | .CNTHV_CVAL_EL2 => some .VHE
  | .GCR_EL1 => some .MTE2
  | .RGSR_EL1 => some .MTE2
  | .TFSR_EL1 => some .MTE2
  | .TFSRE0_EL1 => some .MTE2
  | .TFSR_EL2 => some .MTE2
  | .TFSR_EL3 => some .MTE2
  | .SCXTNUM_EL0 => some .CSV2_2
  | .SCXTNUM_EL1 => some .CSV2_2
  | .APIAKeyLo_EL1 => some .PAuth
  | .APIAKeyHi_EL1 => some .PAuth
  | .APIBKeyLo_EL1 => some .PAuth
  | .APIBKeyHi_EL1 => some .PAuth
  | .APDAKeyLo_EL1 => some .PAuth
  | .APDAKeyHi_EL1 => some .PAuth
  | .APDBKeyLo_EL1 => some .PAuth
  | .APDBKeyHi_EL1 => some .PAuth
  | .APGAKeyLo_EL1 => some .PAuth
  | .APGAKeyHi_EL1 => some .PAuth
  | .PMCR_EL0 => some .PMUv3
  | .PMCNTENSET_EL0 => some .PMUv3
  | .PMOVSSET_EL0 => some .PMUv3
  | .PMSELR_EL0 => some .PMUv3
  | .PMCCNTR_EL0 => some .PMUv3
  | .PMUSERENR_EL0 => some .PMUv3
  | .PMBPTR_EL1 => some .SPE
  | .PMBIDR_EL1 => some .SPE
  | .ERXPFGF_EL1 => some .RASv1p1
  | _ => none

/-- Read-only views. -/
def viewReadOnly : View → Bool
  | .CurrentEL => true
  | .CNTPCT_EL0 => true
  | .CNTVCT_EL0 => true
  | .CNTPCTSS_EL0 => true
  | .CNTVCTSS_EL0 => true
  | .ISR_EL1 => true
  | .RNDR => true
  | .RNDRRS => true
  | _ => false

/-- The feature without which a view does not exist. -/
def viewFeature : View → Option Feature
  | .SVCR => some .SME
  | .TCO => some .MTE
  | .ALLINT => some .NMI
  | .CNTPCTSS_EL0 => some .ECV
  | .CNTVCTSS_EL0 => some .ECV
  | .CNTHV_TVAL_EL2 => some .VHE
  | .RNDR => some .RNG
  | .RNDRRS => some .RNG
  | .PMCNTENCLR_EL0 => some .PMUv3
  | .PMOVSCLR_EL0 => some .PMUv3
  | .PMXEVTYPER_EL0 => some .PMUv3
  | .PMXEVCNTR_EL0 => some .PMUv3
  | _ => none

/-- Every System register. -/
def allSysRegs : List SysReg := [
   .SCTLR_EL1, .SCTLR_EL2, .SCTLR_EL3, .SCTLR2_EL2, .SCTLR2_EL3,
   .HCR_EL2, .HCRX_EL2, .HFGRTR_EL2, .HFGITR_EL2, .HSTR_EL2,
   .SCR_EL3, .CPACR_EL1, .CPTR_EL2, .CPTR_EL3, .ZCR_EL1,
   .SMCR_EL1, .ZCR_EL2, .SMCR_EL2, .ZCR_EL3, .SMCR_EL3,
   .TCR_EL1, .TCR_EL2, .TCR_EL3, .TCR2_EL1, .TCR2_EL2,
   .TTBR0_EL1, .TTBR1_EL1, .TTBR0_EL2, .TTBR1_EL2, .TTBR0_EL3,
   .VTCR_EL2, .VTTBR_EL2, .VNCR_EL2, .MECIDR_EL2, .MECID_P0_EL2,
   .MECID_A0_EL2, .MECID_P1_EL2, .MECID_A1_EL2, .VMECID_P_EL2, .VMECID_A_EL2,
   .GPCCR_EL3, .MDCR_EL2, .MDCR_EL3, .SPSR_EL1, .ELR_EL1,
   .ESR_EL1, .FAR_EL1, .VBAR_EL1, .RVBAR_EL1, .RMR_EL1,
   .SPSR_EL2, .ELR_EL2, .ESR_EL2, .FAR_EL2, .VBAR_EL2,
   .RVBAR_EL2, .RMR_EL2, .SPSR_EL3, .ELR_EL3, .ESR_EL3,
   .FAR_EL3, .VBAR_EL3, .RVBAR_EL3, .RMR_EL3, .HPFAR_EL2,
   .CONTEXTIDR_EL1, .CONTEXTIDR_EL2, .FPEXC32_EL2, .FPCR, .FPSR,
   .PAR_EL1, .MPIDR_EL1, .CTR_EL0, .DCZID_EL0, .CCSIDR_EL1,
   .CCSIDR2_EL1, .CSSELR_EL1, .CLIDR_EL1, .GMID_EL1, .ID_PFR0_EL1,
   .ID_PFR1_EL1, .ID_DFR0_EL1, .ID_AFR0_EL1, .ID_MMFR0_EL1, .ID_MMFR1_EL1,
   .ID_MMFR2_EL1, .ID_MMFR3_EL1, .ID_ISAR0_EL1, .ID_ISAR1_EL1, .ID_ISAR2_EL1,
   .ID_ISAR3_EL1, .ID_ISAR4_EL1, .ID_ISAR5_EL1, .ID_MMFR4_EL1, .ID_ISAR6_EL1,
   .MVFR0_EL1, .MVFR1_EL1, .MVFR2_EL1, .ID_PFR2_EL1, .ID_DFR1_EL1,
   .ID_MMFR5_EL1, .ID_AA64PFR0_EL1, .ID_AA64PFR1_EL1, .ID_AA64PFR2_EL1, .ID_AA64ZFR0_EL1,
   .ID_AA64SMFR0_EL1, .ID_AA64DFR0_EL1, .ID_AA64DFR1_EL1, .ID_AA64AFR0_EL1, .ID_AA64AFR1_EL1,
   .ID_AA64ISAR0_EL1, .ID_AA64ISAR1_EL1, .ID_AA64ISAR2_EL1, .ID_AA64MMFR0_EL1, .ID_AA64MMFR1_EL1,
   .ID_AA64MMFR2_EL1, .ID_AA64MMFR3_EL1, .ID_AA64MMFR4_EL1, .CNTFRQ_EL0, .CNTKCTL_EL1,
   .CNTHCTL_EL2, .CNTPOFF_EL2, .CNTVOFF_EL2, .CNTP_CTL_EL0, .CNTP_CVAL_EL0,
   .CNTV_CTL_EL0, .CNTV_CVAL_EL0, .CNTHP_CTL_EL2, .CNTHP_CVAL_EL2, .CNTHV_CTL_EL2,
   .CNTHV_CVAL_EL2, .CNTPS_CTL_EL1, .CNTPS_CVAL_EL1, .GCR_EL1, .RGSR_EL1,
   .TFSR_EL1, .TFSRE0_EL1, .TFSR_EL2, .TFSR_EL3, .SCXTNUM_EL0,
   .SCXTNUM_EL1, .APIAKeyLo_EL1, .APIAKeyHi_EL1, .APIBKeyLo_EL1, .APIBKeyHi_EL1,
   .APDAKeyLo_EL1, .APDAKeyHi_EL1, .APDBKeyLo_EL1, .APDBKeyHi_EL1, .APGAKeyLo_EL1,
   .APGAKeyHi_EL1, .ACCDATA_EL1, .DSPSR_EL0, .DLR_EL0, .OSLSR_EL1,
   .PMCR_EL0, .PMCNTENSET_EL0, .PMOVSSET_EL0, .PMSELR_EL0, .PMCCNTR_EL0,
   .PMUSERENR_EL0, .PMBPTR_EL1, .PMBIDR_EL1, .TRBPTR_EL1, .TRBIDR_EL1,
   .BRBCR_EL1, .BRBCR_EL2, .BRBINFINJ_EL1, .BRBSRCINJ_EL1, .BRBTGTINJ_EL1,
   .TRCCONFIGR, .TRCIDR0, .ERXPFGF_EL1]

end Sys2Proof.Machine
end

