-- ==== Sys2Proof/Machine/Reset.lean ====
section
/-! DEFINITION. The Warm reset inside the machine (70_reset_and_hazards.md R326 to R330). -/

namespace Sys2Proof.Machine

/-- PSTATE after a reset into AArch64 (R327, 92_eei_decisions.md D10). The fields the spec leaves open are UNKNOWN. -/
def resetPState (s : State) : PState :=
  let u (n : Nat) : Bool := Config.freeBool (.resetMisc n) s.free
  { n := u 0, z := u 1, c := u 2, v := u 3, d := true, a := true, i := true, f := true, ss := false, il := false,
    pan := u 4, uao := u 5, ssbs := u 6, dit := false, tco := u 7, allint := u 8, sm := false, za := false,
    pacm := if has .PAuth_LR s then false else s.ps.pacm, btype := (Config.freeWord (.resetMisc 9) s.free).setWidth 2,
    el := highestEL s, spsel := true, nRW := false, t := false, m32 := s.ps.m32 }

/-- `ResetSMEState(newenable)` (R328): enabling zeroes ZA and ZT0, disabling makes them UNKNOWN. -/
def smeStateChange (enable : Bool) (s : State) : State :=
  if enable then
    { s with za := Vector.replicate 256 0, zt0 := if has .SME2 s then 0 else s.zt0 }
  else
    { s with
      za := Vector.ofFn fun n => Config.freeVector (.resetMisc (100 + n.val)) s.free
      zt0 := if has .SME2 s then (Config.freeVector (.resetMisc 99) s.free).setWidth 512 else s.zt0 }

/-- The values System registers have after a Warm reset: read-only and identification registers keep theirs, SCTLR_ELx.M
and the request bit become 0, the RES0 bits of the buffer pointers stay 0 (61_debug_pmu_trace.md R280), every other bit is UNKNOWN
(R330, 92_eei_decisions.md D10). OSLSR_EL1, which software cannot write by that name, is one of those that become UNKNOWN. -/
def resetSysReg (readOnly : SysReg → Bool) (r : SysReg) (s : State) : Word :=
  if readOnly r && r != .OSLSR_EL1 then sreg s r
  else match r with
    | .PMBPTR_EL1 => pointerValue s.cfg.pmbptrRes0 (Config.freeWord (.indirect r) s.free)
    | .TRBPTR_EL1 => pointerValue s.cfg.trbptrRes0 (Config.freeWord (.indirect r) s.free)
    | .SCTLR_EL1 => Config.freeWord (.indirect r) s.free &&& ~~~1
    | .SCTLR_EL2 => Config.freeWord (.indirect r) s.free &&& ~~~1
    | .SCTLR_EL3 => Config.freeWord (.indirect r) s.free &&& ~~~1
    | .RMR_EL1 => sreg s r &&& ~~~2
    | .RMR_EL2 => sreg s r &&& ~~~2
    | .RMR_EL3 => sreg s r &&& ~~~2
    | _ => Config.freeWord (.indirect r) s.free

/-- A register or place of state that a Warm reset leaves UNKNOWN: a value for its group and its number. -/
def unknownWord (group place : Nat) (s : State) : Word := Config.freeWord (.resetState group place) s.free

/-- The same of 32 bits. -/
def unknownHalf (group place : Nat) (s : State) : Half := (unknownWord group place s).setWidth 32

/-- The debug registers after a Warm reset: EDSCR says that the PE is in Non-debug state (61_debug_pmu_trace.md R278), EDPRSR that
it is not halted; identification registers and inputs stay; the others are UNKNOWN (R330; log entry 47). -/
def resetDebug (s : State) : Debug :=
  { s.dbg with
    edscr := copyBits (copyBits (unknownHalf 0 0 s) 0x3C02 0 6) 0x3C02 8 14
    edprsr := setBit (unknownHalf 0 1 s) 4 false
    edacr := unknownHalf 0 2 s
    edwar := unknownWord 0 3 s
    edhsr := unknownWord 0 4 s
    extPmcr := unknownWord 0 5 s }

/-- The AArch32 System registers after a Warm reset: UNKNOWN (R330). -/
def resetA32 (s : State) : A32Regs :=
  { dbgdscrint := unknownHalf 1 0 s, parS := unknownWord 1 1 s, parNS := unknownWord 1 2 s
    ttbr := Vector.ofFn fun n => unknownWord 2 n.val s
    cpacr := unknownHalf 1 3 s, nsacr := unknownHalf 1 4 s, hcr := unknownHalf 1 5 s, hcptr := unknownHalf 1 6 s
    hstr := unknownHalf 1 7 s, scr := unknownHalf 1 8 s, sdcr := unknownHalf 1 9 s }

/-- A sparse table of which any entry may have any value: every one of the numbers below `n`, in the canonical form. -/
def unknownTable (group : Nat) : Nat → State → List (Nat × Half)
  | 0, _ => []
  | n + 1, s => sparseSet 0 (unknownTable group n s) n (unknownHalf group n s)

/-- The memory-mapped timer registers after a Warm reset: UNKNOWN but for the identification registers (R330). -/
def resetFrames (s : State) : TimerFrames :=
  { s.frames with
    cntcr := unknownHalf 3 0 s, cntsr := unknownHalf 3 1 s, cntscr := unknownHalf 3 2 s, cntnsar := unknownHalf 3 3 s
    cntfrq := unknownHalf 3 4 s, cntfid := unknownTable 4 1004 s
    cntacr := Vector.ofFn fun n => unknownHalf 5 n.val s
    cntel0acr := Vector.ofFn fun n => unknownHalf 6 n.val s
    cntvoff := Vector.ofFn fun n => unknownWord 7 n.val s
    pctl := Vector.ofFn fun n => unknownHalf 8 n.val s
    pcval := Vector.ofFn fun n => unknownWord 9 n.val s
    vctl := Vector.ofFn fun n => unknownHalf 10 n.val s
    vcval := Vector.ofFn fun n => unknownWord 11 n.val s }

/-- Which of the entries of a cache are there after a Warm reset is open: any of them may be (R330). -/
def keepSome {α : Type} (group : Nat) (l : List α) (s : State) : List α :=
  (l.zipIdx.filter fun e => Config.freeBool (.resetState group e.2) s.free).map (·.1)

/-- The System registers, the general, vector and predicate registers and PSTATE after a Warm reset. -/
def resetRegisters (readOnly : SysReg → Bool) (all : List SysReg) (s : State) : State :=
  let t := all.foldl (fun acc r => setReg r (resetSysReg readOnly r s) acc) s
  { t with
    x := Vector.ofFn fun n => Config.freeWord (.resetX n.val) s.free
    sp := Vector.ofFn fun n => Config.freeWord (.resetX (31 + n.val)) s.free
    pc := s.cfg.resetAddress
    ps := resetPState s
    z := Vector.ofFn fun n => Config.freeVector (.resetZ n.val) s.free
    p := Vector.ofFn fun n => (Config.freeVector (.resetP n.val) s.free).setWidth 256
    ffr := (Config.freeVector (.resetP 16) s.free).setWidth 256
    pmevcntr := Vector.ofFn fun n => unknownWord 12 n.val s
    pmevtyper := Vector.ofFn fun n => unknownWord 13 n.val s
    brbsrc := Vector.ofFn fun n => unknownWord 14 n.val s
    brbtgt := Vector.ofFn fun n => unknownWord 15 n.val s
    brbinf := Vector.ofFn fun n => unknownWord 16 n.val s
    brbTimestamp := unknownWord 25 0 s
    trcacvr := Vector.ofFn fun n => unknownWord 17 n.val s
    a32 := resetA32 s }

/-- A write to a buffer that failed may be pending, of either kind, or none. -/
def unknownFault (group : Nat) (s : State) : Option BufferFault :=
  if !Config.freeBool (.resetState group 0) s.free then none
  else some (if Config.freeBool (.resetState group 1) s.free then .mmuFault else .externalAbort)

/-- The Exclusives monitors, caches, counters, error records, buffer faults and events after a Warm reset: the spec states no value, so
each is any of those it may hold (R330, 92_eei_decisions.md D10), but for ERR<n>FR, which identifies; what waits for an event or
an instruction is over. -/
def resetMicro (s : State) : State :=
  { s with
    tlb := keepSome 18 s.tlb s
    gptTlb := keepSome 19 s.gptTlb s
    predictions := keepSome 20 s.predictions s
    exLocal := if Config.freeBool (.resetState 21 0) s.free then some (unknownWord 21 0 s).toNat else none
    exGlobal := if Config.freeBool (.resetState 21 1) s.free then some (unknownWord 21 1 s).toNat else none
    exTlbi := Config.freeBool (.resetState 21 2) s.free
    eventReg := Config.freeBool (.resetState 21 3) s.free
    count := unknownWord 21 4 s
    dbg := resetDebug s
    frames := resetFrames s
    err := s.err.mapIdx fun n e => { e with status := unknownWord 22 n s }
    profileFault := unknownFault 23 s
    traceFault := unknownFault 24 s
    brbEntry := none
    pend := []
    pendCtl := []
    counted := []
    warmReset := .none
    resetSeq := .none
    movprfx := none
    waiting := none }

/-- `AArch64.TakeReset(FALSE)`: a Warm reset. Memory, tags and the inputs stay; with FEAT_SME `ResetSMEState('0')` makes ZA and ZT0
UNKNOWN (R328). -/
def takeWarmReset (readOnly : SysReg → Bool) (all : List SysReg) (s : State) : State :=
  let u := resetMicro (resetRegisters readOnly all s)
  if has .SME s then smeStateChange false u else u

/-- RMR_ELx of the highest Exception level. -/
def rmrOfHighest (s : State) : SysReg :=
  match highestEL s with
  | .el3 => .RMR_EL3
  | .el2 => .RMR_EL2
  | _ => .RMR_EL1

/-- The Warm reset that RMR_ELx.RR requested: into AArch64 with bit [0] of RMR_ELx 1; what a reset into AArch32 does the spec does
not give (70_reset_and_hazards.md R326, R327). -/
def requestedReset (readOnly : SysReg → Bool) (all : List SysReg) (s : State) : Result :=
  if bitAt (sreg s (rmrOfHighest s)) 0 then .next (takeWarmReset readOnly all s) else .refused .aarch32Reset

end Sys2Proof.Machine
end

