-- ==== Sys2Proof/Machine/Fetch.lean ====
section
/-! DEFINITION. What happens around an instruction: fetching and decoding it, the checks before it runs, what the step
does after it (92_eei_decisions.md D3, D7, D17, D18; 40_pauth_bti.md R136, R138; 43_fp_sve_sme.md R173). -/

namespace Sys2Proof.Machine

/-- The instruction set the PE executes. -/
def curIsa (s : State) : ISA := if s.ps.nRW then (if s.ps.t then .t32 else .a32) else .a64

/-- The pc is aligned: to 4 bytes, to 2 in T32 (30_encoding.md R120). -/
def pcAligned (s : State) : Bool := if curIsa s = .t32 then !bitAt s.pc 0 else field s.pc 0 2 == 0#2

/-- The descriptor of an instruction fetch. -/
def fetchDesc : AccDesc := { access := .fetch, write := false, exclusive := false, unchecked := false }

/-- The locations of `n` bytes of an instruction. -/
def fetchUnit (n : Nat) (va : Word) (s : State) : Loc (List Xlat) :=
  (locate fetchDesc n va false s).bind fun x s1 => .ok ((List.range n).map x.plus) s1

/-- The byte at a location is one that instruction fetch might not see yet (92_eei_decisions.md D7). -/
def staleAt (x : Xlat) (s : State) : Bool := s.stale.any fun e => e.1 == x.key

/-- The first halfword of a T32 instruction, fetched, is the whole of it (30_encoding.md R120), or cannot be seen yet. -/
def halfIsAll (xs : List Xlat) (s : State) : Bool :=
  xs.any (staleAt · s) || !wideT32 (match xs with | _ :: x :: _ => readByte x.key s | _ => 0)

/-- The locations of the bytes of the instruction at pc: in T32 halfword by halfword, the second only where there is one. -/
def fetchLocs (s : State) : Loc (List Xlat) :=
  if curIsa s = .t32 then
    (fetchUnit 2 s.pc s).bind fun xs s1 =>
      if halfIsAll xs s1 then .ok xs s1
      else (fetchUnit 2 (((s.pc + 2).setWidth 32).setWidth 64) s1).bind fun ys s2 => .ok (xs ++ ys) s2
  else fetchUnit 4 s.pc s

/-- The state before the MOVPRFX that came last, if it has not changed the architectural state: it is a draw whether it and the
next instruction run as one unit (60_exceptions.md R216, R217). -/
def unitState (s : State) : State :=
  match s.movprfx with
  | some p =>
    if Config.freeBool .movprfxUnit s.free then
      { s with z := s.z.setIfInBounds p.zd.toNat p.old, pc := p.addr, ps := { s.ps with btype := p.btype }, movprfx := none }
    else s
  | none => s

/-- A debug exception of an instruction: its class is that of a lower level, or the next number at the same level. -/
def debugException (ec : BitVec 6) (s : State) : Result :=
  let target := (debugTarget s).getD .el1
  raise (syncExc target (if target = s.ps.el then ec + 1 else ec) 0b100010 s) s

/-- A breakpoint, or in AArch32 state a Vector Catch, matches the instruction at pc (PRESUMED, log entry 56): entry to Debug
state, or an exception, EC 0x30, 0x31 or 0x3A (60_exceptions.md R198, R217). -/
def breakpointEvent (s : State) : Option Result :=
  if s.dbg.breakpoints.contains s.pc then
    if bitAt s.dbg.edscr 14 && haltingAllowed s then some (.next (halt 0b000111 (unitState s).pc (unitState s)))
    else if debugEnabled s then some (debugException 0x30 (unitState s)) else none
  else if s.ps.nRW && s.dbg.vectorCatch.contains s.pc && debugEnabled s then
    some (raise (syncExc ((debugTarget s).getD .el1) 0x3A 0b100010 s) s)
  else none

/-- The instruction of some bytes. The permanently undefined encodings and those that are not allocated give an Undefined
Instruction exception (30_encoding.md R122); what remains has no row and is refused (92_eei_decisions.md D18). -/
def decodeCode (isa : ISA) (bs : List Byte) (s : State) : Acc Code :=
  match decode isa bs with
  | .ok (i, _) => .ok (.base i) s
  | .error .udf => .stop (undefined s)
  | .error e =>
    match decodeRowless isa bs with
    | some x => .ok (.extra x) s
    | none =>
      if Config.unallocated isa bs then .stop (undefined s)
      else .stop (.refused (if e = .narrowT32 then .narrowT32 else .encodingNotInSpec))

/-- The instruction at pc: its bytes fetched and decoded. The Boolean says whether the page is guarded. -/
def fetchInstr (s : State) : Acc (Code × Bool) :=
  ((fetchLocs s).toAcc fetchDesc).bind fun xs s1 =>
    match breakpointEvent s1 with
    | some r => .stop r
    | none =>
      if xs.any (staleAt · s1) then .stop (.refused .fetchOfUnsynchronizedCode)
      else (decodeCode (curIsa s) (xs.map fun x => readByte x.key s1) s1).bind fun c s2 =>
        .ok (c, xs.any (·.guarded)) s2

/-- SCTLR_ELx.BT0, BT1 or BT of the current level (40_pauth_bti.md R138). -/
def btBit (s : State) : Bool :=
  match s.ps.el with
  | .el0 => if e2hTge s then ibit s .SCTLR_EL2 35 else ibit s .SCTLR_EL1 35
  | .el1 => ibit s .SCTLR_EL1 36
  | .el2 => ibit s .SCTLR_EL2 36
  | .el3 => ibit s .SCTLR_EL3 36

/-- PACIASP and PACIBSP as a landing pad (40_pauth_bti.md R138). -/
def pacSpCompatible (s : State) : Bool :=
  s.ps.btype == 0b01#2 || s.ps.btype == 0b10#2 || (s.ps.btype == 0b11#2 && !btBit s)

/-- The instruction may stand where a branch with the current BTYPE lands in a guarded page. The spec gives the rule for PACIASP
and PACIBSP alone; which values the forms of BTI accept, and that BRK and HLT are accepted, is PRESUMED (log entry 65). -/
def btiCompatible (i : Instr) (s : State) : Bool :=
  s.ps.btype == 0#2 ||
    (match i with
     | .bti => false
     | .btiC => s.ps.btype != 0b11#2
     | .btiJ => s.ps.btype != 0b10#2
     | .btiJC => true
     | .paciasp => pacSpCompatible s
     | .pacibsp => pacSpCompatible s
     | .brk _ => true
     | .hlt _ => true
     | _ => false)

/-- MOVPRFX and the next instruction, of the table, pair legally (43_fp_sve_sme.md R173): FMMLA on the same destination, after
an unpredicated MOVPRFX, the destination no other source; BRK and HLT (60_exceptions.md R216, R217). -/
def prefixLegalBase (p : Prefix) (i : Instr) : Bool :=
  match i with
  | .fmmlaS zm zn zda => zda == p.zd && p.pred.isNone && zn != zda && zm != zda
  | .fmmlaD zm zn zda => zda == p.zd && p.pred.isNone && zn != zda && zm != zda
  | .brk _ => true
  | .hlt _ => true
  | _ => false

/-- The clauses of R173 for a predicated instruction: the same destination, and of a predicated MOVPRFX the same governing
predicate and the larger of the element sizes of destination and first source; the destination no other source. -/
def pairsPredicated (p : Prefix) (pg : BitVec 3) (dest src1 : BitVec 2) (zdn : BitVec 5) (others : List (BitVec 5)) :
    Bool :=
  zdn == p.zd && !others.contains zdn &&
    (match p.pred with
     | none => true
     | some (q, size) => q == pg && size.toNat == max dest.toNat src1.toNat)

/-- MOVPRFX and the next instruction pair legally. -/
def prefixLegal (p : Prefix) (c : Code) : Bool :=
  match c with
  | .base i => prefixLegalBase p i
  | .extra (.svePred _ size pg zm zdn) => pairsPredicated p pg size size zdn [zm]
  | .extra (.svePair _ size pg zm zdn) => pairsPredicated p pg size size zdn [zm]
  | .extra (.sveImm _ size pg _ zdn) => pairsPredicated p pg size size zdn []
  | .extra _ => false

/-- Run an instruction after a MOVPRFX that it pairs with, as two units or as one: `trap` is the exception it takes, if any
(60_exceptions.md R216). BRK and HLT, which are not asked for one, are always two. -/
def runPair (trap : State → Option Result) (k : State → Result) (s : State) : Result :=
  match trap (unitState s) with
  | some r => r
  | none => k { s with movprfx := none }

/-- The MOVPRFX pairing before an instruction. An illegal pair is refused, unless a control that applies to the second instruction
traps it (60_exceptions.md R213): `trap` is what a legal pair raises, `control` what the controls raise. -/
def withPrefix (c : Code) (trap control : State → Option Result) (s : State) (k : State → Result) : Result :=
  match s.movprfx with
  | none => k s
  | some p => if prefixLegal p c then runPair trap k s else unpredictable (control s) .movprfxIllegalPair s

/-- The instruction may stand where a branch lands in a guarded page: none of the classes without a row may. -/
def landingPad (c : Code) (s : State) : Bool :=
  match c with
  | .base i => btiCompatible i s
  | .extra _ => s.ps.btype == 0#2

/-- The check before an instruction runs: Branch Target exception, EC 0x0D, in a guarded page (40_pauth_bti.md R138). That it goes
where an exception of the current level goes, with BTYPE in ISS[1:0], is PRESUMED (log entry 98). -/
def beforeInstr (c : Code) (guarded : Bool) (s : State) (k : State → Result) : Result :=
  if guarded && !landingPad c s then raise (syncExc (ownTarget s) 0x0D (s.ps.btype.setWidth 25) s) s else k s

/-- Software step is active (PRESUMED, log entry 56). -/
def softStep (s : State) : Bool := s.dbg.softwareStep && debugEnabled s

/-- After a step that software step lets run, PSTATE.SS is 0. -/
def endSoftStep (s : State) (r : Result) : Result :=
  match r with
  | .next t => if softStep s && t.ps.el == s.ps.el then .next { t with ps := { t.ps with ss := false } } else .next t
  | other => other

/-- The synchronous events that come before the fetch: Software Step, EC 0x32 or 0x33, Illegal Execution state, EC 0x0E, and a
misaligned pc, EC 0x22. -/
def beforeFetch (s : State) (k : State → Result) : Result :=
  if softStep s && !s.ps.ss then debugException 0x32 s
  else if s.ps.il then raise (syncExc (ownTarget s) 0x0E 0 s) s
  else if !pcAligned s then
    raise { syncExc (ownTarget s) 0x22 0 s with far := some s.pc } s
  else k s

/-- Before each step of the PE, in either state, it is a draw whether a Warm reset that was requested happens
(70_reset_and_hazards.md R326). -/
def mayReset (s : State) (k : State → Result) : Result :=
  if s.warmReset != .none && Config.freeBool .warmReset s.free then requestedReset sysReadOnly allSysRegs s else k s

/-- What comes from outside, before the next instruction: a requested Warm reset, an interrupt, which ends a wait. -/
def beforeStep (s : State) (k : State → Result) : Result :=
  mayReset s fun s1 =>
    match chosenInterrupt s1 with
    | some i => takeInterrupt i { s1 with waiting := none }
    | none => k s1

/-- The predictions after a step: the prediction resources may be trained on any instruction (20_memory.md R59, R94;
41_system_instructions.md R143). They change no result: the model does not speculate (R92, R93, R96; log entry 71). -/
def trained (s : State) : List Prediction :=
  [PredKind.controlFlow, .dataValue, .cachePrefetch].foldl (fun l k =>
    if Config.freeBool (.trainPrediction k.ctorIdx) s.free then ⟨k, s.ps.el, curSpace s, s.pc⟩ :: l else l) s.predictions

/-- The end of every step: the counters advance, the event stream of the physical counter may set the Event Register
(60_exceptions.md R249), the free values are new, a pc that has run off the top stops the machine (92_eei_decisions.md D3). -/
def afterStep (s : State) : Result :=
  if s.offTop then .fault .pcOffTop
  else
    let s1 := if cycleCounterCounts s then
        setReg .PMCCNTR_EL0 (sreg s .PMCCNTR_EL0 + Config.freeWord (.pmuElided 33) s.free) s else s
    .next { s1 with
      count := s.count + Config.ticks s.free
      eventReg := s.eventReg || testEventCntp s.count (s.count + Config.ticks s.free) s
      predictions := trained s
      free := s.free + 1 }

/-- A step that went on ends with `afterStep`. -/
def finish (r : Result) : Result :=
  match r with
  | .next s => afterStep s
  | other => other

/-- The instruction the debugger has put in the ITR: A64, or in AArch32 state T32, bits [31:16] the first halfword, and, for the
words that no T32 row gives, A32 (DESIGN CHOICE, log entry 66: the source gives no layout of the ITR). -/
def itrDecode (w : Half) (s : State) : Option Code :=
  let isa : ISA := if s.ps.nRW then .t32 else .a64
  match decodeWord isa w with
  | some i => some (.base i)
  | none =>
    match (if s.ps.nRW then decodeWord .a32 w else none) with
    | some i => some (.base i)
    | none => ((decodeRowless isa (layoutWord isa w)).or
        (if s.ps.nRW then decodeRowless .a32 (layoutWord .a32 w) else none)).map .extra

/-- A word is permanently undefined or not allocated in an instruction set (30_encoding.md R122, 93_implementation_defined.md
U51). -/
def wordUndefined (isa : ISA) (w : Half) : Bool :=
  (match decode isa (layoutWord isa w) with | .error .udf => true | _ => false) ||
    Config.unallocated isa (layoutWord isa w)

/-- The same of a word in the ITR. -/
def itrUndefined (w : Half) (s : State) : Bool :=
  if s.ps.nRW then wordUndefined .t32 w && wordUndefined .a32 w else wordUndefined .a64 w

/-- Put bytes in memory from outside: they are seen by instruction fetch. -/
def loadBytes : List Byte → Nat → State → State
  | [], _, s => s
  | b :: bs, key, s =>
    loadBytes bs (key + 1)
      { s with mem := sparseSet unwritten s.mem key b, stale := s.stale.filter fun e => e.1 != key }

/-- The state with an instruction word at pc, the Execution state and instruction set it belongs to, and no wait in progress. -/
def placeWord (s : State) (isa : ISA) (w : Half) : State :=
  let t := { s with ps := { s.ps with nRW := decide (isa ≠ .a64), t := decide (isa = .t32) }, agents := [], waiting := none }
  loadBytes (layoutWord isa w) (physKey (curSpace t) t.pc.toNat) t

end Sys2Proof.Machine
end

