-- ==== Sys2Proof/Machine/Flags.lean ====
section
/-! DEFINITION. The condition flags: what sets them, what reads them, and the Special-purpose registers that show
PSTATE fields (10_state.md R20, R34; 30_encoding.md R124; 45_base_subset.md R194). -/

namespace Sys2Proof.Machine

/-- N, Z, C, V. -/
structure NZCV where
  n : Bool
  z : Bool
  c : Bool
  v : Bool
  deriving DecidableEq, Repr

/-- PSTATE.{N, Z, C, V} made these. -/
def setFlags (f : NZCV) (s : State) : State := { s with ps := { s.ps with n := f.n, z := f.z, c := f.c, v := f.v } }

/-- `x - y` and the flags of it: N the sign, Z zero, C no borrow, V signed overflow (45_base_subset.md R194). -/
def subWithFlags {w : Nat} (x y : BitVec w) : BitVec w × NZCV :=
  let r := x - y
  (r, { n := r.msb, z := r == 0, c := decide (y.toNat ≤ x.toNat), v := decide (r.toInt ≠ x.toInt - y.toInt) })

/-- The conditions of Table C1-2 and of `B.cond` (30_encoding.md R124, 43_fp_sve_sme.md R168). -/
def condHolds (cond : BitVec 4) (p : PState) : Bool :=
  match cond.toNat with
  | 0 => p.z
  | 1 => !p.z
  | 2 => p.c
  | 3 => !p.c
  | 4 => p.n
  | 5 => !p.n
  | 6 => p.v
  | 7 => !p.v
  | 8 => p.c && !p.z
  | 9 => !p.c || p.z
  | 10 => p.n == p.v
  | 11 => p.n != p.v
  | 12 => !p.z && p.n == p.v
  | 13 => p.z || p.n != p.v
  | _ => true

/-- N, Z and C as SVE predicate-generating instructions set them, by the active elements in order, the first first:
First, None, not Last (43_fp_sve_sme.md R168). The spec gives no value for V; zero is PRESUMED (log entry 67). -/
def predFlags (active : List Bool) : NZCV :=
  { n := active.headD false, z := active.all (!·), c := !active.getLastD false, v := false }

/-- The register NZCV: bits [31:28]. -/
def nzcvValue (p : PState) : Word := bitTo 31 p.n ||| bitTo 30 p.z ||| bitTo 29 p.c ||| bitTo 28 p.v

/-- A write of NZCV. -/
def writeNzcv (v : Word) (s : State) : State :=
  setFlags { n := bitAt v 31, z := bitAt v 30, c := bitAt v 29, v := bitAt v 28 } s

/-- The register DAIF: bits [9:6]. -/
def daifValue (p : PState) : Word := bitTo 9 p.d ||| bitTo 8 p.a ||| bitTo 7 p.i ||| bitTo 6 p.f

/-- A write of DAIF. -/
def writeDaif (v : Word) (s : State) : State :=
  { s with ps := { s.ps with d := bitAt v 9, a := bitAt v 8, i := bitAt v 7, f := bitAt v 6 } }

/-- `MSR DAIFSet, #imm`: the mask's bits, from the top down, are D, A, I, F (41_system_instructions.md R140). -/
def daifSet (m : BitVec 4) (s : State) : State :=
  { s with ps := { s.ps with d := s.ps.d || bitAt m 3, a := s.ps.a || bitAt m 2, i := s.ps.i || bitAt m 1,
                             f := s.ps.f || bitAt m 0 } }

/-- `MSR DAIFClr, #imm`. -/
def daifClr (m : BitVec 4) (s : State) : State :=
  { s with ps := { s.ps with d := s.ps.d && !bitAt m 3, a := s.ps.a && !bitAt m 2, i := s.ps.i && !bitAt m 1,
                             f := s.ps.f && !bitAt m 0 } }

/-- PSTATE.SSBS, DIT, TCO, PAN, SP and ALLINT made a value. -/
def setSsbs (b : Bool) (s : State) : State := { s with ps := { s.ps with ssbs := b } }

/-- PSTATE.DIT. -/
def setDit (b : Bool) (s : State) : State := { s with ps := { s.ps with dit := b } }

/-- PSTATE.TCO. -/
def setTco (b : Bool) (s : State) : State := { s with ps := { s.ps with tco := b } }

/-- PSTATE.PAN. -/
def setPan (b : Bool) (s : State) : State := { s with ps := { s.ps with pan := b } }

/-- PSTATE.SP (10_state.md R54). -/
def setSpsel (b : Bool) (s : State) : State := { s with ps := { s.ps with spsel := b } }

/-- PSTATE.ALLINT. -/
def setAllint (b : Bool) (s : State) : State := { s with ps := { s.ps with allint := b } }

end Sys2Proof.Machine
end

