-- ==== Sys2Proof/Machine/SysAccess.lean ====
section
/-! DEFINITION. Reading and writing System registers by name: permission, traps, redirection, values
(45_base_subset.md R188; 10_state.md; 41_system_instructions.md R146 to R152; 60_exceptions.md R206 to R253). -/

namespace Sys2Proof.Machine

/-! ### Names -/

/-- Look a selector up. -/
def lookupName (sel : BitVec 15) : List (BitVec 15 × RegName) → Option RegName
  | [] => none
  | (k, r) :: rest => if k = sel then some r else lookupName sel rest

/-- op1 of a selector. -/
def selOp1 (sel : BitVec 15) : BitVec 3 := field sel 11 3

/-- CRn of a selector. -/
def selCRn (sel : BitVec 15) : BitVec 4 := field sel 7 4

/-- CRm of a selector. -/
def selCRm (sel : BitVec 15) : BitVec 4 := field sel 3 4

/-- op2 of a selector. -/
def selOp2 (sel : BitVec 15) : BitVec 3 := field sel 0 3

/-- op0 is 3. -/
def selOp0Is3 (sel : BitVec 15) : Bool := bitAt sel 14

/-- The numbered registers: PMEVCNTR<n>_EL0, PMEVTYPER<n>_EL0, BRBINF, BRBSRC, BRBTGT<n>_EL1, TRCACVR<n>. -/
def numberedName (sel : BitVec 15) : Option RegName :=
  let n := (selCRm sel).toNat
  let o := (selOp2 sel).toNat
  if selOp0Is3 sel ∧ selOp1 sel = 3 ∧ selCRn sel = 14 then
    if h : 8 ≤ n ∧ n < 12 ∧ 8 * (n - 8) + o < 31 then some (.pmevcntr ⟨8 * (n - 8) + o, h.2.2⟩)
    else if h : 12 ≤ n ∧ 8 * (n - 12) + o < 31 then some (.pmevtyper ⟨8 * (n - 12) + o, h.2⟩)
    else none
  else if !selOp0Is3 sel ∧ selOp1 sel = 1 ∧ selCRn sel = 8 then
    if h : n + 16 * (o / 4) < 32 then
      (match o % 4 with
       | 0 => some (.brbinf ⟨_, h⟩)
       | 1 => some (.brbsrc ⟨_, h⟩)
       | 2 => some (.brbtgt ⟨_, h⟩)
       | _ => none)
    else none
  else if !selOp0Is3 sel ∧ selOp1 sel = 1 ∧ selCRn sel = 2 ∧ o < 2 ∧ n % 2 = 0 then
    if h : n / 2 + 8 * o < 16 then some (.trcacvr ⟨_, h⟩) else none
  else none

/-- The name of a selector. -/
def nameOf (sel : BitVec 15) : Option RegName :=
  match lookupName sel regNames with
  | some r => some r
  | none => numberedName sel

/-- The ID space: 48 encodings, op0 3, op1 0, CRn 0, CRm 2 to 7 (30_encoding.md R125, R126). -/
def idSpace (sel : BitVec 15) : Bool :=
  selOp0Is3 sel && selOp1 sel == 0 && selCRn sel == 0 && decide (2 ≤ (selCRm sel).toNat) && decide ((selCRm sel).toNat ≤ 7)

/-- An `_EL12` or `_EL02` name: op1 is 5 (60_exceptions.md R252); BRBCR_EL12 is the one with op0 2. -/
def aliasName (sel : BitVec 15) : Option RegName :=
  if selOp1 sel = 5 then
    let base : BitVec 11 := field sel 0 11
    let el1 : BitVec 15 := (if selOp0Is3 sel then 0b1000#4 else 0b0001#4) ++ base
    let el0 : BitVec 15 := 0b1011#4 ++ base
    match nameOf el1, nameOf el0 with
    | some (.stored r), _ => if hasEl12 r then some (.stored r) else none
    | none, some (.stored r) => if selOp0Is3 sel && hasEl02 r then some (.stored r) else none
    | none, some (.view v) => if selOp0Is3 sel ∧ (v = .CNTP_TVAL_EL0 ∨ v = .CNTV_TVAL_EL0) then some (.view v) else none
    | _, _ => none
  else none
where
  /-- The EL1 registers with an `_EL12` name. -/
  hasEl12 : SysReg → Bool
    | .SCTLR_EL1 => true
    | .CPACR_EL1 => true
    | .ZCR_EL1 => true
    | .SMCR_EL1 => true
    | .TTBR0_EL1 => true
    | .TTBR1_EL1 => true
    | .TCR_EL1 => true
    | .TCR2_EL1 => true
    | .SPSR_EL1 => true
    | .ELR_EL1 => true
    | .ESR_EL1 => true
    | .FAR_EL1 => true
    | .VBAR_EL1 => true
    | .CONTEXTIDR_EL1 => true
    | .CNTKCTL_EL1 => true
    | .TFSR_EL1 => true
    | .SCXTNUM_EL1 => true
    | .BRBCR_EL1 => true
    | _ => false
  /-- The timer registers with an `_EL02` name. -/
  hasEl02 : SysReg → Bool
    | .CNTP_CTL_EL0 => true
    | .CNTP_CVAL_EL0 => true
    | .CNTV_CTL_EL0 => true
    | .CNTV_CVAL_EL0 => true
    | _ => false

/-- At EL2 with E2H the EL1 names reach the EL2 registers (60_exceptions.md R252, R232). -/
def redirect (r : RegName) : RegName :=
  match r with
  | .stored .SCTLR_EL1 => .stored .SCTLR_EL2
  | .stored .CPACR_EL1 => .stored .CPTR_EL2
  | .stored .ZCR_EL1 => .stored .ZCR_EL2
  | .stored .SMCR_EL1 => .stored .SMCR_EL2
  | .stored .TTBR0_EL1 => .stored .TTBR0_EL2
  | .stored .TTBR1_EL1 => .stored .TTBR1_EL2
  | .stored .TCR_EL1 => .stored .TCR_EL2
  | .stored .TCR2_EL1 => .stored .TCR2_EL2
  | .stored .SPSR_EL1 => .stored .SPSR_EL2
  | .stored .ELR_EL1 => .stored .ELR_EL2
  | .stored .ESR_EL1 => .stored .ESR_EL2
  | .stored .FAR_EL1 => .stored .FAR_EL2
  | .stored .VBAR_EL1 => .stored .VBAR_EL2
  | .stored .CONTEXTIDR_EL1 => .stored .CONTEXTIDR_EL2
  | .stored .TFSR_EL1 => .stored .TFSR_EL2
  | .stored .BRBCR_EL1 => .stored .BRBCR_EL2
  | .stored .CNTP_CTL_EL0 => .stored .CNTHP_CTL_EL2
  | .stored .CNTP_CVAL_EL0 => .stored .CNTHP_CVAL_EL2
  | .stored .CNTV_CTL_EL0 => .stored .CNTHV_CTL_EL2
  | .stored .CNTV_CVAL_EL0 => .stored .CNTHV_CVAL_EL2
  | .view .CNTP_TVAL_EL0 => .view .CNTHP_TVAL_EL2
  | .view .CNTV_TVAL_EL0 => .view .CNTHV_TVAL_EL2
  | other => other

/-! ### Values -/

/-- ISR_EL1: A [8], I [7], F [6], IS [10], FS [9] (60_exceptions.md R233). -/
def isrValue (s : State) : Word :=
  let virt (n : Nat) : Bool := el2Enabled s && ibit s .HCR_EL2 n && s.ps.el == .el1
  let nmi := has .NMI s
  bitTo 8 (if virt 5 then s.intr.vSError else s.intr.serror) |||
  bitTo 7 (if virt 4 then s.intr.vIrq else s.intr.irq) |||
  bitTo 6 (if virt 3 then s.intr.vFiq else s.intr.fiq) |||
  bitTo 10 (nmi && (if virt 4 then s.intr.vIrq && s.intr.vIrqSuper else s.intr.irq && s.intr.irqSuper)) |||
  bitTo 9 (nmi && (if virt 3 then s.intr.vFiq && s.intr.vFiqSuper else s.intr.fiq && s.intr.fiqSuper))

/-- DCZID_EL0: the block size, and DZP, bit [4], which says that DC ZVA is prohibited here (10_state.md R51). -/
def dczProhibited (s : State) : Bool :=
  ((s.ps.el == .el0 || s.ps.el == .el1) && !e2hTge s && hcr s 28) ||
    (s.ps.el == .el0 && !ibit s (if e2hTge s then .SCTLR_EL2 else .SCTLR_EL1) 14)

/-- Event counters, selected by PMSELR_EL0.SEL as an indirect read sees it (70_reset_and_hazards.md R331). -/
def selectedCounter (s : State) : Nat := (field (ireg s .PMSELR_EL0) 0 5).toNat

/-- TCR2_EL2 fields AMEC0, bit [12], and AMEC1, bit [13]: RES0 in Secure and Non-secure state, AMEC1 also in the layout
for E2H 0, by its Effective value (10_state.md R40, R49, R53). -/
def tcr2Mask (s : State) : Word :=
  let dead := curSpace s == .secure || curSpace s == .nonSecure
  (if dead then ~~~(bitTo 12 true) else BitVec.allOnes 64) &&&
    (if dead || !hcr s 34 then ~~~(bitTo 13 true) else BitVec.allOnes 64)

/-- SCTLR_EL2 bits that are RES0 while the Effective HCR_EL2.E2H is 0: nTWI [16], nTWE [18], EPAN [57] (10_state.md R29, R44,
R45, R53). -/
def sctlr2Mask (s : State) : Word :=
  if hcr s 34 then BitVec.allOnes 64 else ~~~(bitTo 16 true ||| bitTo 18 true ||| bitTo 57 true)

/-- The bits of HCR_EL2 that are implemented (10_state.md R56, R57). -/
def hcrMask (s : State) : Word :=
  ~~~(bitTo 34 (!hcrImplemented 34 s) ||| bitTo 42 (!hcrImplemented 42 s) ||| bitTo 43 (!hcrImplemented 43 s) |||
    bitTo 44 (!hcrImplemented 44 s) ||| bitTo 45 (!hcrImplemented 45 s))

/-- The bits of a register that are not RES0 now: a read of the others gives zero and a write leaves them as they are
(93_implementation_defined.md U49). HFGRTR_EL2.ERXPFGF_EL1, bit [46], needs FEAT_RASv1p1 (60_exceptions.md R219);
PMBPTR_EL1 and TRBPTR_EL1 have bits [M-1:0] that are RES0 (61_debug_pmu_trace.md R280). -/
def implMask (r : SysReg) (s : State) : Word :=
  match r with
  | .TCR2_EL2 => tcr2Mask s
  | .SCTLR_EL2 => sctlr2Mask s
  | .HCR_EL2 => hcrMask s
  | .HFGRTR_EL2 => ~~~(bitTo 46 (!has .RASv1p1 s))
  | .PMBPTR_EL1 => ~~~(maskOf 64 0 s.cfg.pmbptrRes0)
  | .TRBPTR_EL1 => ~~~(maskOf 64 0 s.cfg.trbptrRes0)
  | _ => BitVec.allOnes 64

/-- The support for nested virtualization that the ID fields NV and NV_frac describe: 0 none, 1 FEAT_NV, 2 FEAT_NV2; what a
value of NV_frac describes is not in the source (10_state.md R57). -/
def nvSupport (nv nvFrac : BitVec 4) : Option Nat :=
  if nv = 0 then (if nvFrac = 0 then some 0 else none) else some nv.toNat

/-- ID_AA64MMFR2_EL1.NV, bits [27:24], of the implementation (10_state.md R57). -/
def nvField (s : State) : BitVec 4 := if has .NV2 s then 2 else if has .NV s then 1 else 0

/-- The field ETS of the implementation (10_state.md R37). -/
def etsField (s : State) : BitVec 4 := if has .ETS2 s then 2 else 0

/-- The value a read of a stored register gives. -/
def storedValue (r : SysReg) (s : State) : Word :=
  match r with
  | .CNTP_CTL_EL0 => readTimerCtl .el1Phys s
  | .CNTV_CTL_EL0 => readTimerCtl .el1Virt s
  | .CNTHP_CTL_EL2 => readTimerCtl .el2Phys s
  | .CNTHV_CTL_EL2 => readTimerCtl .el2Virt s
  | .CNTPS_CTL_EL1 => readTimerCtl .el3Phys s
  | .DCZID_EL0 => setBit (sreg s r) 4 (dczProhibited s)
  | .PMCR_EL0 => pmcrValue s
  | .CTR_EL0 => ctrValue s
  | .PMSELR_EL0 =>
    let sel := (field (sreg s r) 0 5).toNat
    if !has .FGT s && decide (s.cfg.pmuCounters ≤ sel) && sel != 31 then
      copyBits (sreg s r) (Config.freeWord .pmselr s.free) 0 5
    else sreg s r
  | .CNTPOFF_EL2 => if s.ps.el ≠ .el3 ∧ cntpoffZero s then 0 else sreg s r
  | .ID_AA64MMFR2_EL1 => copyBits (sreg s r) (fieldTo 24 (nvField s)) 24 28
  | .ID_AA64MMFR1_EL1 => copyBits (sreg s r) (fieldTo 36 (etsField s)) 36 40
  | .ID_MMFR5_EL1 => copyBits (sreg s r) (fieldTo 0 (etsField s)) 0 4
  | .ID_AA64DFR1_EL1 => copyBits (sreg s r) (fieldTo 52 (dpfzs s)) 52 56
  | .RVBAR_EL1 => s.cfg.resetAddress
  | .RVBAR_EL2 => s.cfg.resetAddress
  | .RVBAR_EL3 => s.cfg.resetAddress
  | _ => sreg s r &&& implMask r s

/-- The Exception level that CurrentEL shows: EL2 to a Guest Hypervisor, at EL1 with HCR_EL2.NV (10_state.md R39). -/
def shownLevel (s : State) : Nat := if s.ps.el = .el1 ∧ hcr s 42 then 2 else elNum s.ps.el

/-- The value a read of a view gives. The places of SSBS, bit [12], and TCO, bit [25], are PRESUMED (log entry 62). -/
def viewValue (v : View) (s : State) : Word :=
  match v with
  | .NZCV => nzcvValue s.ps
  | .DAIF => daifValue s.ps
  | .SVCR => bitTo 0 s.ps.sm ||| bitTo 1 s.ps.za
  | .DIT => bitTo 24 s.ps.dit
  | .SSBS => bitTo 12 s.ps.ssbs
  | .TCO => bitTo 25 s.ps.tco
  | .SPSel => bitTo 0 s.ps.spsel
  | .CurrentEL => BitVec.ofNat 64 (4 * shownLevel s)
  | .PAN => bitTo 22 s.ps.pan
  | .ALLINT => bitTo 13 s.ps.allint
  | .SP_EL0 => s.sp[0]
  | .SP_EL1 => s.sp[1]
  | .SP_EL2 => s.sp[2]
  | .CNTPCT_EL0 => readCntpct s
  | .CNTVCT_EL0 => readCntvct s
  | .CNTPCTSS_EL0 => readCntpct s
  | .CNTVCTSS_EL0 => readCntvct s
  | .CNTP_TVAL_EL0 => readTval .el1Phys s
  | .CNTV_TVAL_EL0 => readTval .el1Virt s
  | .CNTHP_TVAL_EL2 => readTval .el2Phys s
  | .CNTHV_TVAL_EL2 => readTval .el2Virt s
  | .CNTPS_TVAL_EL1 => readTval .el3Phys s
  | .ISR_EL1 => isrValue s
  | .RNDR => Config.freeWord .random s.free
  | .RNDRRS => Config.freeWord .random s.free
  | .PMCNTENCLR_EL0 => sreg s .PMCNTENSET_EL0
  | .PMOVSCLR_EL0 => sreg s .PMOVSSET_EL0
  | .PMXEVTYPER_EL0 => s.pmevtyper.getD (selectedCounter s) 0
  | .PMXEVCNTR_EL0 => s.pmevcntr.getD (selectedCounter s) 0

/-- The value a read of a register gives. -/
def regValue (r : RegName) (s : State) : Word :=
  match r with
  | .stored q => storedValue q s
  | .view v => viewValue v s
  | .pmevcntr n => s.pmevcntr[n]
  | .pmevtyper n => s.pmevtyper[n]
  | .brbsrc n => s.brbsrc[n]
  | .brbtgt n => s.brbtgt[n]
  | .brbinf n => s.brbinf[n]
  | .trcacvr n => trcacvrValue s.trcacvr[n] s

/-- PSTATE.SM changes: the vector, predicate and first-fault registers become zero (PRESUMED, log entry 22). -/
def changeSM (sm : Bool) (s : State) : State :=
  if sm = s.ps.sm then s
  else { s with ps := { s.ps with sm := sm }, z := .replicate 32 0, p := .replicate 16 0, ffr := 0 }

/-- PSTATE.ZA changes: `ResetSMEState` (70_reset_and_hazards.md R328). -/
def changeZA (za : Bool) (s : State) : State :=
  if za = s.ps.za then s else smeStateChange za { s with ps := { s.ps with za := za } }

/-- Count a write of a register, or of one banked copy of it: where one was counted since the last Context synchronization
event, it is free whether both are (61_debug_pmu_trace.md R266, R267; 93_implementation_defined.md U33). -/
def countOnce (event : BitVec 16) (key : SysReg × Nat) (s : State) : State :=
  if s.counted.contains key then (if Config.freeBool .firstWriteCounted s.free then countEvent event s else s)
  else { countEvent event s with counted := key :: s.counted }

/-- Count the events of a register written by its name, whichever register or memory the name reaches (61_debug_pmu_trace.md
R266, R267). -/
def countWrite (r : SysReg) (s : State) : State :=
  let event : Option (BitVec 16) := match r with
    | .CONTEXTIDR_EL1 => some 0x000B
    | .TTBR0_EL1 => some 0x001C
    | .TTBR1_EL1 => some 0x001C
    | _ => none
  match event with
  | none => s
  | some e => countOnce e (r, 0) s

/-- The write of RMR_ELx right after a DSB is the second step of the sequence that guarantees the reset
(70_reset_and_hazards.md R326). -/
def requestSeq (s : State) : ResetSeq := if s.resetSeq = .dsb (s.free - 1) ∧ 0 < s.free then .msr s.free else .none

/-- A write of RMR_ELx: RR, bit [1], requests a Warm reset (70_reset_and_hazards.md R326). -/
def writeRmr (r : SysReg) (v : Word) (s : State) : State :=
  let s1 := setReg r (v &&& 0b11) s
  if bitAt v 1 then { s1 with warmReset := .requested, resetSeq := requestSeq s } else s1

/-- Write a stored register. That PMCNTENSET_EL0 and PMOVSSET_EL0 gain bits, and that RMR_ELx and the control registers of the timers
keep bits [1:0], is PRESUMED (log entry 100). -/
def writeStored (r : SysReg) (v : Word) (s : State) : State :=
  match r with
  | .RMR_EL1 => writeRmr r v s
  | .RMR_EL2 => writeRmr r v s
  | .RMR_EL3 => writeRmr r v s
  | .PMCR_EL0 => writePmcr v s
  | .PMCNTENSET_EL0 => writeReg r (sreg s r ||| v) s
  | .PMOVSSET_EL0 => writeReg r (sreg s r ||| v) s
  | .PMBPTR_EL1 => writeReg r (pointerValue s.cfg.pmbptrRes0 v) s
  | .TRBPTR_EL1 => writeReg r (pointerValue s.cfg.trbptrRes0 v) s
  | .CNTP_CTL_EL0 => writeReg r (v &&& 0b11) s
  | .CNTV_CTL_EL0 => writeReg r (v &&& 0b11) s
  | .CNTHP_CTL_EL2 => writeReg r (v &&& 0b11) s
  | .CNTHV_CTL_EL2 => writeReg r (v &&& 0b11) s
  | .CNTPS_CTL_EL1 => writeReg r (v &&& 0b11) s
  | _ => writeReg r ((v &&& implMask r s) ||| (sreg s r &&& ~~~(implMask r s))) s

/-- Write a view. The places of SSBS and TCO are PRESUMED (log entry 62). -/
def writeView (w : View) (v : Word) (s : State) : State :=
  match w with
  | .NZCV => writeNzcv v s
  | .DAIF => writeDaif v s
  | .SVCR => changeZA (bitAt v 1) (changeSM (bitAt v 0) s)
  | .DIT => setDit (bitAt v 24) s
  | .SSBS => setSsbs (bitAt v 12) s
  | .TCO => setTco (bitAt v 25) s
  | .SPSel => setSpsel (bitAt v 0) s
  | .PAN => setPan (bitAt v 22) s
  | .ALLINT => setAllint (bitAt v 13) s
  | .SP_EL0 => { s with sp := s.sp.set 0 v }
  | .SP_EL1 => { s with sp := s.sp.set 1 v }
  | .SP_EL2 => { s with sp := s.sp.set 2 v }
  | .CNTP_TVAL_EL0 => writeReg .CNTP_CVAL_EL0 (tvalToCval .el1Phys v s) s
  | .CNTV_TVAL_EL0 => writeReg .CNTV_CVAL_EL0 (tvalToCval .el1Virt v s) s
  | .CNTHP_TVAL_EL2 => writeReg .CNTHP_CVAL_EL2 (tvalToCval .el2Phys v s) s
  | .CNTHV_TVAL_EL2 => writeReg .CNTHV_CVAL_EL2 (tvalToCval .el2Virt v s) s
  | .CNTPS_TVAL_EL1 => writeReg .CNTPS_CVAL_EL1 (tvalToCval .el3Phys v s) s
  | .PMCNTENCLR_EL0 => writeReg .PMCNTENSET_EL0 (sreg s .PMCNTENSET_EL0 &&& ~~~v) s
  | .PMOVSCLR_EL0 => writeReg .PMOVSSET_EL0 (sreg s .PMOVSSET_EL0 &&& ~~~v) s
  | .PMXEVTYPER_EL0 => if h : selectedCounter s < 31 then writeCtl (.pmevtyper ⟨_, h⟩) v s else s
  | .PMXEVCNTR_EL0 => { s with pmevcntr := s.pmevcntr.setIfInBounds (selectedCounter s) v }
  | .CurrentEL => s
  | .CNTPCT_EL0 => s
  | .CNTVCT_EL0 => s
  | .CNTPCTSS_EL0 => s
  | .CNTVCTSS_EL0 => s
  | .ISR_EL1 => s
  | .RNDR => s
  | .RNDRRS => s

/-- Write a register. -/
def writeName (r : RegName) (v : Word) (s : State) : State :=
  match r with
  | .stored q => writeStored q v s
  | .view w => writeView w v s
  | .pmevcntr n => { s with pmevcntr := s.pmevcntr.set n v }
  | .pmevtyper n => writeCtl (.pmevtyper n) v s
  | .brbsrc n => { s with brbsrc := s.brbsrc.set n v }
  | .brbtgt n => { s with brbtgt := s.brbtgt.set n v }
  | .brbinf n => { s with brbinf := s.brbinf.set n v }
  | .trcacvr n => { s with trcacvr := s.trcacvr.set n v }

/-! ### Permission -/

/-- What an access meets before it is performed. -/
inductive Permission where
  | allowed
  | undefined
  | trap (target : EL)
  /-- EL1 under nested virtualization: memory at VNCR_EL2 instead (10_state.md R57, 20_memory.md R84 item 8). -/
  | viaMemory (addr : Word)
  deriving DecidableEq, Repr

/-- The lowest Exception level whose software uses a name, by op1 (log entry 8). -/
def minLevel (sel : BitVec 15) : Nat :=
  match (selOp1 sel).toNat with
  | 3 => 0
  | 4 => 2
  | 5 => 2
  | 6 => 3
  | _ => 1

/-- RMR_ELx and RVBAR_ELx are registers of the highest Exception level alone (70_reset_and_hazards.md R326). -/
def ofHighestEL (q : SysReg) (s : State) : Bool :=
  match q with
  | .RMR_EL1 => highestEL s == .el1
  | .RVBAR_EL1 => highestEL s == .el1
  | .RMR_EL2 => highestEL s == .el2
  | .RVBAR_EL2 => highestEL s == .el2
  | .RMR_EL3 => highestEL s == .el3
  | .RVBAR_EL3 => highestEL s == .el3
  | _ => true

/-- The access exists: its feature is implemented, and a write is not to a read-only register. -/
def nameExists (r : RegName) (write : Bool) (s : State) : Bool :=
  match r with
  | .stored q =>
    (match sysFeature q with | some f => has f s | none => true) && ofHighestEL q s && !(write && sysReadOnly q)
  | .view v => (match viewFeature v with | some f => has f s | none => true) && !(write && viewReadOnly v)
  | .pmevcntr n => has .PMUv3 s && decide (n.val < s.cfg.pmuCounters)
  | .pmevtyper n => has .PMUv3 s && decide (n.val < s.cfg.pmuCounters)
  | _ => true

/-- The ID registers of the first list of HCR_EL2.TID3 (60_exceptions.md R221). -/
def tid3Always : SysReg → Bool
  | .ID_PFR0_EL1 => true
  | .ID_PFR1_EL1 => true
  | .ID_DFR0_EL1 => true
  | .ID_AFR0_EL1 => true
  | .ID_MMFR0_EL1 => true
  | .ID_MMFR1_EL1 => true
  | .ID_MMFR2_EL1 => true
  | .ID_MMFR3_EL1 => true
  | .ID_ISAR0_EL1 => true
  | .ID_ISAR1_EL1 => true
  | .ID_ISAR2_EL1 => true
  | .ID_ISAR3_EL1 => true
  | .ID_ISAR4_EL1 => true
  | .ID_ISAR5_EL1 => true
  | .MVFR0_EL1 => true
  | .MVFR1_EL1 => true
  | .MVFR2_EL1 => true
  | .ID_AA64PFR0_EL1 => true
  | .ID_AA64PFR1_EL1 => true
  | .ID_AA64DFR0_EL1 => true
  | .ID_AA64DFR1_EL1 => true
  | .ID_AA64ISAR0_EL1 => true
  | .ID_AA64ISAR1_EL1 => true
  | .ID_AA64MMFR0_EL1 => true
  | .ID_AA64MMFR1_EL1 => true
  | .ID_AA64AFR0_EL1 => true
  | .ID_AA64AFR1_EL1 => true
  | _ => false

/-- HCR_EL2.TID3 traps an EL1 read of a register of the first list, wherever it is encoded, or of the ID space
(60_exceptions.md R221 to R223, 41_system_instructions.md R146). -/
def tid3Traps (sel : BitVec 15) (r : Option RegName) (s : State) : Bool :=
  s.ps.el == .el1 && el2Enabled s && ibit s .HCR_EL2 18 &&
    (match r with
     | some (.stored q) =>
       tid3Always q || (idSpace sel && (has .FGT s || storedValue q s != 0 || s.cfg.tid3TrapsRaz.contains q))
     | _ => idSpace sel && (has .FGT s || s.cfg.tid3TrapsUnallocated))

/-- HCR_EL2.EnSCXT traps an access to SCXTNUM (60_exceptions.md R220). -/
def scxtTraps (s : State) : Bool :=
  el2Enabled s && !ibit s .HCR_EL2 53 && (s.ps.el == .el1 || (s.ps.el == .el0 && !e2hTge s))

/-- HCR_EL2.ATA traps an EL1 access to GCR_EL1, RGSR_EL1, TFSR_EL1 and TFSRE0_EL1, and to TFSR_EL2 by a Guest Hypervisor
(60_exceptions.md R227). -/
def ataTraps (s : State) : Bool := s.ps.el == .el1 && el2Enabled s && !ibit s .HCR_EL2 56

/-- DAIF can be accessed at EL0 (10_state.md R55): SCTLR_EL1.UMA, bit [9], and {E2H, TGE} not {1, 1}. -/
def umaAllows (s : State) : Bool := ibit s .SCTLR_EL1 9 && !e2hTge s

/-- The registers that HCR_EL2.ATA traps. -/
def ataReg : SysReg → Bool
  | .GCR_EL1 => true
  | .RGSR_EL1 => true
  | .TFSR_EL1 => true
  | .TFSRE0_EL1 => true
  | .TFSR_EL2 => true
  | _ => false

/-- The registers that HCR_EL2.EnSCXT traps. -/
def scxtReg : SysReg → Bool
  | .SCXTNUM_EL0 => true
  | .SCXTNUM_EL1 => true
  | _ => false

/-- The traps that come before nested virtualization: TID3, EnSCXT, ATA (60_exceptions.md R220, R221, R223, R227). -/
def firstTrap (sel : BitVec 15) (r : RegName) (write : Bool) (s : State) : Bool :=
  (!write && tid3Traps sel (some r) s) ||
    (match r with
     | .stored q => (scxtReg q && scxtTraps s) || (ataReg q && ataTraps s)
     | _ => false)

/-- The access to a MECID register at EL2: UNDEFINED outside Realm state, by the premise MECID_EL2_access_J_a; without it
nothing is known, and the access is performed, UNDEFINED or trapped to EL3 (41_system_instructions.md R148,
92_eei_decisions.md D8). -/
def mecidAccess (s : State) : Permission :=
  if s.ps.el ≠ .el2 then .allowed
  else if s.cfg.mecidEl2AccessJa then (if curSpace s = .realm then .allowed else .undefined)
  else match (Config.freeWord .mecidAccess s.free).toNat % 3 with
    | 0 => .allowed
    | 1 => .undefined
    | _ => .trap .el3

/-- The trap of a stored register of its own. -/
def storedTrap (q : SysReg) (write : Bool) (s : State) : Permission :=
  let mecid := mecidAccess s
  let onlyHighest (el : EL) := if s.ps.el = el ∧ highestEL s = el then Permission.allowed else .undefined
  let phys := match timerAccessTrap false s with | some t => Permission.trap t | none => .allowed
  let virt := match timerAccessTrap true s with | some t => Permission.trap t | none => .allowed
  match q with
  | .MECID_P0_EL2 => mecid
  | .MECID_A0_EL2 => mecid
  | .MECID_P1_EL2 => mecid
  | .MECID_A1_EL2 => mecid
  | .VMECID_P_EL2 => mecid
  | .VMECID_A_EL2 => mecid
  | .RMR_EL1 => onlyHighest .el1
  | .RMR_EL2 => onlyHighest .el2
  | .RMR_EL3 => onlyHighest .el3
  | .RVBAR_EL1 => onlyHighest .el1
  | .RVBAR_EL2 => onlyHighest .el2
  | .RVBAR_EL3 => onlyHighest .el3
  | .CNTFRQ_EL0 => if write ∧ s.ps.el ≠ highestEL s then .undefined else .allowed
  | .CNTP_CTL_EL0 => phys
  | .CNTP_CVAL_EL0 => phys
  | .CNTV_CTL_EL0 => virt
  | .CNTV_CVAL_EL0 => virt
  | .ERXPFGF_EL1 =>
    if has .FGT s && has .RASv1p1 s && s.ps.el == .el1 && el2Enabled s && ibit s .HFGRTR_EL2 46 then .trap .el2
    else .allowed
  | _ =>
    if s.ps.el = .el0 ∧ has .PMUv3 s ∧ pmuReg q ∧ ¬ibit s .PMUSERENR_EL0 0 then .trap (ownTarget s) else .allowed
where
  /-- The PMU registers that EL0 uses under PMUSERENR_EL0.EN. -/
  pmuReg : SysReg → Bool
    | .PMCR_EL0 => true
    | .PMCNTENSET_EL0 => true
    | .PMOVSSET_EL0 => true
    | .PMSELR_EL0 => true
    | .PMCCNTR_EL0 => true
    | _ => false

/-- The trap of a view of its own. SVCR is UNDEFINED at EL0 (10_state.md R55). SP_EL0 is UNDEFINED while it is the current stack
pointer (PRESUMED, log entry 63: the source does not say so). RNDR and RNDRRS are not trapped at EL3 itself (DESIGN CHOICE, log entry
79: R151 of 41_system_instructions.md says only that they may be trapped to EL3). -/
def viewTrap (v : View) (s : State) : Permission :=
  let virtCount := if el0CounterTrap true s then Permission.trap (ownTarget s)
    else if el2CounterTrap true s then .trap .el2 else .allowed
  let physCount := if el0CounterTrap false s then Permission.trap (ownTarget s)
    else if el2CounterTrap false s then .trap .el2 else .allowed
  let phys := match timerAccessTrap false s with | some t => Permission.trap t | none => .allowed
  let virt := match timerAccessTrap true s with | some t => Permission.trap t | none => .allowed
  let rnd := if has .RNG_TRAP s && s.cfg.hasEL3 && s.ps.el != .el3 && ibit s .SCR_EL3 40 then
      (if el3SddUndef s then Permission.undefined else .trap .el3) else .allowed
  let spOk := if s.ps.spsel then Permission.allowed else .undefined
  match v with
  | .DAIF => if s.ps.el = .el0 ∧ ¬umaAllows s then .trap (ownTarget s) else .allowed
  | .CNTPCT_EL0 => physCount
  | .CNTPCTSS_EL0 => physCount
  | .CNTVCT_EL0 => virtCount
  | .CNTVCTSS_EL0 => virtCount
  | .CNTP_TVAL_EL0 => phys
  | .CNTV_TVAL_EL0 => virt
  | .CNTPS_TVAL_EL1 => if s.ps.el = .el3 ∨ curSpace s = .secure then .allowed else .undefined
  | .RNDR => rnd
  | .RNDRRS => rnd
  | .SP_EL0 => spOk
  | .SVCR => if s.ps.el = .el0 then .undefined else .allowed
  | _ => .allowed

/-- PSTATE views, whose use in Debug state the spec does not define (61_debug_pmu_trace.md R308). -/
def isPstateView : RegName → Bool
  | .view .NZCV => true
  | .view .DAIF => true
  | .view .SVCR => true
  | .view .DIT => true
  | .view .SSBS => true
  | .view .TCO => true
  | .view .SPSel => true
  | .view .CurrentEL => true
  | .view .PAN => true
  | .view .ALLINT => true
  | _ => false

/-- A Guest Hypervisor accesses an EL2 name: EL1 with HCR_EL2.NV (10_state.md R39, R57). -/
def nvNames (sel : BitVec 15) (s : State) : Bool := s.ps.el == .el1 && hcr s 42 && selOp1 sel == 4

/-- The address in memory of a register redirected under FEAT_NV2: an offset in the page at VNCR_EL2, whose bits [11:0] count as 0. The
register's layout is not in the source (PRESUMED, log entry 14). -/
def vncrAddr (off : BitVec 12) (s : State) : Word := (ireg s .VNCR_EL2 &&& ~~~(maskOf 64 0 12)) + off.setWidth 64

/-- EL1 accesses under HCR_EL2.NV: EL2 names are redirected to memory with NV2, else trapped; with {NV2, NV1, NV} all
1 the EL1 names too go to memory (10_state.md R57, 61_debug_pmu_trace.md R266). What HCR_EL2.NV does no rule states: that it traps every
name with op1 4 that is not redirected to EL2, and leaves names with op1 5 UNDEFINED, is PRESUMED (log entry 14). -/
def nvPermission (sel : BitVec 15) (s : State) : Option Permission :=
  if nvNames sel s then
    match (if hcr s 45 then Config.vncrOffset sel else none) with
    | some off => some (.viaMemory (vncrAddr off s))
    | none => some (.trap .el2)
  else if s.ps.el = .el1 ∧ hcr s 42 ∧ hcr s 43 ∧ hcr s 45 ∧ selOp1 sel = 0 then
    (Config.vncrOffset sel).map fun off => .viaMemory (vncrAddr off s)
  else none

/-- The trap of a register of its own. -/
def ownTrap (r : RegName) (write : Bool) (s : State) : Permission :=
  match r with
  | .stored q => storedTrap q write s
  | .view v => viewTrap v s
  | _ => .allowed

/-- Everything an access to a named register meets, in order: existence, the level, the first traps, nested virtualization, the
trap of its own (60_exceptions.md R220, R223, R227, R247). -/
def permission (sel : BitVec 15) (r : RegName) (write : Bool) (s : State) : Permission :=
  if !nameExists r write s then .undefined
  else if elNum s.ps.el < minLevel sel && !nvNames sel s then .undefined
  else if firstTrap sel r write s then .trap .el2
  else match nvPermission sel s with
    | some p => p
    | none => ownTrap r write s

/-- The register an access reaches: the `_EL1` names at EL2 with E2H reach the EL2 registers (60_exceptions.md R252). -/
def reached (sel : BitVec 15) (r : RegName) (s : State) : RegName :=
  if s.ps.el = .el2 ∧ hcr s 34 ∧ selOp1 sel ≠ 4 ∧ selOp1 sel ≠ 5 then redirect r else r

/-- The `_EL12` and `_EL02` names exist at EL2 and EL3, with EL2 enabled and E2H 1; they are UNDEFINED at EL1 and EL0
(60_exceptions.md R252). -/
def aliasAllowed (r : RegName) (write : Bool) (s : State) : Bool :=
  (s.ps.el == .el2 || s.ps.el == .el3) && hcr s 34 && nameExists r write s

/-! ### MRS and MSR -/

/-- The trap of an access: EC 0x18 with the register named in the ISS (60_exceptions.md R198). A trap to EL3 in Debug
state with EDSCR.SDD set is UNDEFINED (61_debug_pmu_trace.md R315). -/
def sysTrap (target : EL) (sel : BitVec 15) (rt : BitVec 5) (read : Bool) (s : State) : Result :=
  if target = .el3 ∧ el3SddUndef s then undefined s
  else raise (syncExc target 0x18
    (sysTrapIss (if selOp0Is3 sel then 3 else 2) (selOp1 sel) (selCRn sel) (selCRm sel) (selOp2 sel) rt read) s) s

/-- The access descriptor of a register redirected to memory: Tag Unchecked (20_memory.md R84 item 8). -/
def vncrDesc (write : Bool) : AccDesc := { access := .vncr, write, exclusive := false, unchecked := false }

/-- The context of such an access: EL2's translation. -/
def vncrContext (s : State) : State := { s with ps := { s.ps with el := .el2, pan := false } }

/-- The exception class of its abort: a GPC exception or an External abort to EL3, or a Data Abort taken to EL2 as if from
EL2. -/
def vncrEc (k : AbortKind) (target : EL) : BitVec 6 := if isGpc k then 0x1E else if target = .el3 then 0x24 else 0x25

/-- The abort of such an access, with VNCR, bit [13], set (60_exceptions.md R226). -/
def vncrAbort (write : Bool) (k : AbortKind) (va : Word) (s : State) : Result :=
  let c := vncrContext s
  let target := abortTarget k c
  raise { target, kind := .sync, ec := vncrEc k target, iss := abortIss (vncrDesc write) k true c, ret := s.pc,
          far := some va, hpfar := none } s

/-- The locations of a register redirected to memory. -/
def vncrLocate (write : Bool) (addr : Word) (s : State) : Acc (List Xlat) :=
  match locateAll (vncrDesc write) 8 addr (vncrContext s) with
  | .ok xs t => .ok xs { t with ps := s.ps }
  | .fault k va t => .stop (vncrAbort write k va { t with ps := s.ps })

/-- The bytes of such an access are in the order of EL2's data accesses (20_memory.md R60). -/
def vncrBig (s : State) : Bool := bigEndian (vncrContext s)

/-- An access to SVCR needs SME access to be enabled (`CheckSMEAccess`, 43_fp_sve_sme.md R167). -/
def accessGate (r : RegName) (s : State) (k : Result) : Result := if r = .view .SVCR then vecGate [.sme] s k else k

/-- A register name the spec does not give: UNDEFINED where it is not allocated (30_encoding.md R122,
93_implementation_defined.md U51). -/
def unknownReg (sel : BitVec 15) (s : State) : Result :=
  if Config.unallocatedReg sel then undefined s else .refused .sysRegNotInSpec

/-- `MRS Xt, CCSIDR_EL1` and CCSIDR2_EL1, of the level that CSSELR_EL1 selects as an indirect read sees it
(70_reset_and_hazards.md R331): of an implemented cache level the parameter, CCSIDR2_EL1 its bits [63:32] (DESIGN
CHOICE, log entry 79: the source gives neither layout); for a cache level that is not implemented, a NOP, UNDEFINED (with FEAT_IDST
perhaps reported with EC 0x18), or an UNKNOWN value (41_system_instructions.md R152). -/
def readCcsidr (sel : BitVec 15) (second : Bool) (rt : BitVec 5) (s : State) : Result :=
  match s.cfg.ccsidr.lookup (field (ireg s .CSSELR_EL1) 0 5) with
  | some v => .next (advance (writeX rt (if second then v >>> 32 else v) s))
  | none =>
    if Config.freeBool .ccsidrNop s.free then .next (advance s)
    else if Config.freeBool .ccsidrUndefined s.free then
      if has .IDST s && Config.freeBool .ccsidrEc18 s.free then sysTrap (ownTarget s) sel rt true s else undefined s
    else .next (advance (writeX rt (Config.freeWord .ccsidrValue s.free) s))

/-- RNDR and RNDRRS: a number with NZCV 0000, or, when none is available, 0 with NZCV 0100
(41_system_instructions.md R151). -/
def readRandom (rt : BitVec 5) (s : State) : Result :=
  let fails := Config.freeBool .randomFails s.free
  let v := if fails then 0 else Config.freeWord .random s.free
  .next (advance (setFlags ⟨false, fails, false, false⟩ (writeX rt v s)))

/-- The read of a register that is allowed. -/
def performRead (sel : BitVec 15) (r : RegName) (rt : BitVec 5) (s : State) : Result :=
  match r with
  | .stored .CCSIDR_EL1 => readCcsidr sel false rt s
  | .stored .CCSIDR2_EL1 => readCcsidr sel true rt s
  | .view .RNDR => readRandom rt s
  | .view .RNDRRS => readRandom rt s
  | .stored .CNTKCTL_EL1 =>
    if s.ps.el = .el2 ∧ hcr s 34 ∧ selOp1 sel = 0 then
      .next (advance (writeX rt (Config.cnthctlVhe (sreg s .CNTHCTL_EL2)) s))
    else .next (advance (writeX rt (sreg s .CNTKCTL_EL1) s))
  | _ => .next (advance (writeX rt (regValue (reached sel r s) s) s))

/-- What the controls of an access raise, if one of them fires: a trap of the register, or the SME enable of SVCR
(60_exceptions.md R213). -/
def permissionTrap (sel : BitVec 15) (r : RegName) (rt : BitVec 5) (write : Bool) (s : State) : Option Result :=
  match permission sel r write s with
  | .trap t => some (sysTrap t sel rt (!write) s)
  | .allowed => if r = .view .SVCR then vecException [.sme] s else none
  | _ => none

/-- `MRS Xt, <register>`. -/
def readSys (sel : BitVec 15) (rt : BitVec 5) (s : State) : Result :=
  match nameOf sel with
  | some r =>
    if halted s && isPstateView r then
      unpredictable (permissionTrap sel r rt false s) .pcOrPstateInDebugState s
    else match permission sel r false s with
      | .undefined => undefined s
      | .trap t => sysTrap t sel rt true s
      | .viaMemory a =>
        (vncrLocate false a s).andThen fun xs s1 =>
          .next (advance (writeX rt (ofBytes 64 (byteOrder (vncrBig s) (readLocs xs 0 s1).1)) (readLocs xs 0 s1).2))
      | .allowed => accessGate r s (performRead sel r rt s)
  | none =>
    if idSpace sel then
      if s.ps.el = .el0 then undefined s
      else if tid3Traps sel none s then sysTrap .el2 sel rt true s
      else .next (advance (writeX rt 0 s))
    else match aliasName sel with
      | some r =>
        if aliasAllowed r false s then .next (advance (writeX rt (regValue r s) s)) else undefined s
      | none => unknownReg sel s

/-- The write of a register that is allowed. -/
def performWrite (sel : BitVec 15) (r : RegName) (v : Word) (s : State) : State :=
  match r with
  | .stored .CNTKCTL_EL1 =>
    if s.ps.el = .el2 ∧ hcr s 34 ∧ selOp1 sel = 0 then
      writeReg .CNTHCTL_EL2 (Config.cnthctlVhe v) s
    else writeReg .CNTKCTL_EL1 v s
  | .stored q => countWrite q (writeName (reached sel r s) v s)
  | _ => writeName (reached sel r s) v s

/-- `MSR <register>, Xt`. A write of an encoding of the ID space without a register is ignored (30_encoding.md R125,
93_implementation_defined.md U49). -/
def writeSys (sel : BitVec 15) (rt : BitVec 5) (s : State) : Result :=
  match nameOf sel with
  | some r =>
    if halted s && isPstateView r then
      unpredictable (permissionTrap sel r rt true s) .pcOrPstateInDebugState s
    else match permission sel r true s with
      | .undefined => undefined s
      | .trap t => sysTrap t sel rt false s
      | .viaMemory a =>
        (vncrLocate true a s).andThen fun xs s1 =>
          let t := writeLocs xs (byteOrder (vncrBig s) (bytesOf 8 (readX rt s))) s1
          .next (advance (match r with | .stored q => countWrite q t | _ => t))
      | .allowed => accessGate r s (.next (advance (performWrite sel r (readX rt s) s)))
  | none =>
    if idSpace sel then (if s.ps.el = .el0 then undefined s else .next (advance s))
    else match aliasName sel with
      | some r =>
        if aliasAllowed r true s then .next (advance (writeName r (readX rt s) s)) else undefined s
      | none => unknownReg sel s

end Sys2Proof.Machine
end

