-- ==== Sys2Proof/Machine/Units.lean ====
section
/-! DEFINITION. What the spec says of the units around the instructions, as functions of the state: the external debug
interface, the timer frames, branch records, profiling and trace, error records, and rules on field values and formats.
No instruction of the opcode table reaches them; an outside agent does. -/

namespace Sys2Proof.Machine

/-! ### Branch records -/

/-- Bits [63:P] of a recorded address that are neither all zeroes nor all ones become UNKNOWN, but neither all zeroes
nor all ones (61_debug_pmu_trace.md R271). -/
def brbAddress (v : Word) (s : State) : Word :=
  if canonicalTop v s then v
  else
    let u := copyBits v (Config.freeWord .addressTop s.free) (addressP s) 64
    if canonicalTop u s then setBit u (addressP s) (!bitAt u (addressP s)) else u

/-- A branch record written by the PE. -/
def recordBranch (n : Fin 32) (src tgt inf : Word) (s : State) : State :=
  { s with brbsrc := s.brbsrc.set n (brbAddress src s), brbtgt := s.brbtgt.set n (brbAddress tgt s),
           brbinf := s.brbinf.set n inf }

/-- BRB INJ: the injection registers become a record. -/
def injectBranch (n : Fin 32) (s : State) : State :=
  recordBranch n (ireg s .BRBSRCINJ_EL1) (ireg s .BRBTGTINJ_EL1) (ireg s .BRBINFINJ_EL1) s

/-- `BRBCycleCountingEnabled()`: BRBCR_EL2.CC, bit [3]; EL2 implemented, not enabled, is what counts. The rest is elided
(61_debug_pmu_trace.md R289). -/
def brbCycleCounting (s : State) : Bool :=
  !(s.cfg.hasEL2 && !ibit s .BRBCR_EL2 3) && Config.freeBool (.pmuElided 40) s.free

/-- `BRBEMispredictAllowed()`: BRBCR_EL2.MPRED, bit [4] (61_debug_pmu_trace.md R289). -/
def brbMispredict (s : State) : Bool :=
  !(s.cfg.hasEL2 && !ibit s .BRBCR_EL2 4) && Config.freeBool (.pmuElided 41) s.free

/-- The Effective value of BRBCR_EL2.TS, bits [6:5] (61_debug_pmu_trace.md R273). -/
def brbTs2 (s : State) : BitVec 2 := if s.cfg.hasEL2 then field (ireg s .BRBCR_EL2) 5 2 else 0

/-- BRBCR_EL1.TS. -/
def brbTs1 (s : State) : BitVec 2 := field (ireg s .BRBCR_EL1) 5 2

/-- What the event of the branch record buffer captures: the virtual count, the physical count, or that less the physical offset
(61_debug_pmu_trace.md R273; which one is a parameter). -/
def captureTimestamp (s : State) : State :=
  { s with brbTimestamp := match Config.brbTimestampKind (brbTs2 s) (brbTs1 s) with
      | .virtual => readCntvct s
      | .physical => s.count
      | .offsetPhysical => s.count - brbePhysOffset s }

/-- The information that the PE puts in a record: without cycle counting CC, bits [45:32], is 0 and CCU, bit [46], says so; without
misprediction information MPRED, bit [5], is 0 (61_debug_pmu_trace.md R289; the places and values are PRESUMED, log entry 103). -/
def brbAllowedInf (inf : Word) (s : State) : Word :=
  let a := if brbCycleCounting s then inf else setBit (copyBits inf 0 32 46) 46 true
  if brbMispredict s then a else setBit a 5 false

/-- The information of a record with its TYPE, bits [13:8] of BRBINF<n>_EL1 and BRBINFINJ_EL1 (61_debug_pmu_trace.md R288). -/
def brbInf (inf : Word) (type : BitVec 6) : Word := copyBits inf (fieldTo 8 type) 8 14

/-- The TYPE of a record. -/
def brbType (inf : Word) : BitVec 6 := field inf 8 6

/-- The record of a branch that is neither an exception nor an exception return: made where recording is allowed now and the filter
lets it be (61_debug_pmu_trace.md R293). -/
def recordTaken (n : Fin 32) (src tgt inf : Word) (s : State) : State :=
  if Config.branchRecordAllowed (viewSys s) s.ps.el (curSpace s) && Config.branchFilter (viewSys s) (brbType inf) then
    recordBranch n src tgt (brbAllowedInf inf s) s
  else s

/-- The record of the last exception or exception return, if one is due, with the TYPE it was made with (61_debug_pmu_trace.md R288,
R293, R310). -/
def recordException (n : Fin 32) (src tgt inf : Word) (s : State) : State :=
  match s.brbEntry with
  | some type => { recordBranch n src tgt (brbInf (brbAllowedInf inf s) type) s with brbEntry := none }
  | none => s

/-! ### Profiling and trace -/

/-- SPE Operation Type payload of an SVE operation, byte 0: bit [7] 0, EVL [6:4], bit [3] 1, PRED [2], FP [1], bit [0] 0
(61_debug_pmu_trace.md R286). -/
def speSvePayload (evl : BitVec 3) (pred fp : Bool) : BitVec 8 :=
  0b0#1 ++ (evl ++ (0b1#1 ++ (BitVec.ofBool pred ++ (BitVec.ofBool fp ++ 0b0#1))))

/-- The vector length EVL records: rounded up to a power of two (61_debug_pmu_trace.md R287). -/
def speEvlLength (bits : Nat) : Nat := if bits ≤ 128 then 128 else 2 ^ (Nat.log2 (bits - 1) + 1)

/-- An SVE instruction that the event FP_SVE_SPEC would count: a floating-point one (61_debug_pmu_trace.md R286, R287; the event's own
list is not in the source: PRESUMED, log entry 88). -/
def countedByFpSve (c : Code) : Bool :=
  match c with
  | .base (.fmmlaS _ _ _) => true
  | .base (.fmmlaD _ _ _) => true
  | .extra (.svePred _ _ _ _ _) => true
  | .extra (.sveImm _ _ _ _ _) => true
  | .extra (.svePair _ _ _ _ _) => true
  | _ => false

/-- EVL of a sample taken now. -/
def speEvlNow (s : State) : BitVec 3 := Config.speEvl (speEvlLength (vl s))

/-- PRED of a load or store (61_debug_pmu_trace.md R257). -/
def spePred (predicated load zeroing : Bool) (s : State) : Bool :=
  predicated && (!load || (zeroing && (has .SPEv1p2 s || s.cfg.spePredZeroing)))

/-- LDST, bit [0]: 0 for a load, a swap, an atomic that returns a value; 1 for a store (61_debug_pmu_trace.md R309). -/
def speLdst (returnsValue : Bool) : Bool := !returnsValue

/-- An SVE operation that is no load or store. -/
def isSveOperation (c : Code) : Bool :=
  match c with
  | .base (.movprfx _ _) => true
  | .base (.movprfxPred _ _ _ _ _) => true
  | .extra (.permuteQ _ _ _ _) => true
  | c => countedByFpSve c

/-- The class and the payload of the Operation Type packet: of the class Other 0b0000000x, or EVL, PRED and FP of an SVE operation; of a
load or store LDST, and of an SVE one EVL and PRED besides, in the places of R286 (R257). Without FEAT_SVE and FEAT_SPE the values of
SVE operations are reserved: no sample gives them (61_debug_pmu_trace.md R257, R286, R287, R309; log entry 101). -/
def speOperation (op : SpeOp) (s : State) : Option (SpeKind × Byte) :=
  match op with
  | .access returnsValue rest => some (.loadStore, setBit rest 0 (speLdst returnsValue))
  | .sveAccess load zeroing predicated _ rest =>
    if has .SVE s && has .SPE s then
      some (.loadStore, setBit (setBit (speSvePayload (speEvlNow s) (spePred predicated load zeroing s) false) 7 rest) 0 (speLdst load))
    else none
  | .other low => some (.other, 0b0000000#7 ++ BitVec.ofBool low)
  | .sve c predicated _ =>
    if isSveOperation c && has .SVE s && has .SPE s then
      some (.other, speSvePayload (speEvlNow s) predicated (countedByFpSve c))
    else none
  | .branch payload => some (.branch, payload)

/-- The operation is a load, a store or an atomic operation. -/
def speIsAccess : SpeOp → Bool
  | .access _ _ => true
  | .sveAccess _ _ _ _ _ => true
  | _ => false

/-- The data physical address packet of a load, store or atomic operation is output, unless sampling is prohibited or the virtual
address packet is not output, or it operates on a virtual address that the PE does not translate (61_debug_pmu_trace.md R290). -/
def spePhysOutput (onVirtual allowed virtualOutput translated : Bool) : Bool :=
  allowed && virtualOutput && (!onVirtual || translated)

/-- INDEX of the Address packet header of a data access physical address (61_debug_pmu_trace.md R290). -/
def spePhysIndex : BitVec 5 := 0b00011

/-- INDEX in an Extended header: byte 0 bits [1:0], byte 1 bits [2:0]. -/
def speIndexExtended (index : BitVec 5) : BitVec 2 × BitVec 3 := (field index 3 2, field index 0 3)

/-- INDEX in a Short header, byte 0 bits [2:0], where it fits. -/
def speIndexShort (index : BitVec 5) : Option (BitVec 3) := if field index 3 2 = 0 then some (field index 0 3) else none

/-- A predicated SVE operation executes with all elements Inactive: what the event SVE_PRED_EMPTY_SPEC counts, and what the Events
packet shows (61_debug_pmu_trace.md R307). -/
def emptyPredicate (sve predicated anyActive : Bool) : Bool := sve && predicated && !anyActive

/-- Events packet with bit 18, Empty predicate, in place: where SZ is 0b10 or 0b11; it reads as zero without FEAT_SPEv1p1 and
FEAT_SVE (61_debug_pmu_trace.md R307). -/
def speEvents (sz : BitVec 2) (payload : Word) (sve predicated anyActive : Bool) (s : State) : Word :=
  if sz = 0b10 ∨ sz = 0b11 then
    setBit payload 18 (has .SPEv1p1 s && has .SVE s && emptyPredicate sve predicated anyActive)
  else payload

/-- SVE_PRED_EMPTY_SPEC counts such an operation (0x8075: the number is PRESUMED, log entry 8). -/
def countPredEmpty (predicated anyActive : Bool) (s : State) : State :=
  if emptyPredicate true predicated anyActive then countEvent 0x8075 s else s

/-- The value of a Timestamp packet (61_debug_pmu_trace.md R297). -/
def speTimestamp (k : Timestamp) (s : State) : Word :=
  match k with
  | .virtual => readCntvct s
  | .physical => s.count
  | .offsetPhysical => s.count - cntpoff s

/-- The packets of a Statistical Profiling record: an Address packet with its INDEX, or the kind and the bytes of its payload. -/
inductive SpePacket where
  | address (extended : Bool) (index : BitVec 5) (v : Word)
  | plain (kind : SpeKind) (payload : List Byte)
  deriving DecidableEq, Repr

/-- The bytes of a packet: an INDEX that a Short header does not hold takes an Extended one (61_debug_pmu_trace.md R290). -/
def SpePacket.bytes : SpePacket → List Byte
  | .plain k payload => Config.speHeader k 0 :: payload
  | .address extended index v =>
    match (if extended then none else speIndexShort index) with
    | some i => copyBits (Config.speHeader (.address false) 0) (i.setWidth 8) 0 3 :: bytesOf 8 v
    | none =>
      let i := speIndexExtended index
      copyBits (Config.speHeader (.address true) 0) (i.1.setWidth 8) 0 2 ::
        copyBits (Config.speHeader (.address true) 1) (i.2.setWidth 8) 0 3 :: bytesOf 8 v

/-- INDEX of a data access virtual address (PRESUMED, log entry 101). -/
def speVirtIndex : BitVec 5 := 0b00010

/-- A packet that no rule is about; the two data addresses are no such packets. -/
def speExtraPacket : SpeExtra → Option SpePacket
  | .address extended index v =>
    if index = spePhysIndex ∨ index = speVirtIndex then none else some (.address extended index v)
  | .counter index v => some (.plain (.counter index) (bytesOf 2 v))
  | .context index v => some (.plain (.context index) (bytesOf 4 v))
  | .dataSource v => some (.plain .dataSource [v])

/-- The Address packets of the data accessed: the virtual address if it is output, and the physical one where the rule outputs it
(61_debug_pmu_trace.md R290). -/
def speDataPackets (p : SpeSample) (s : State) : List SpePacket :=
  let allowed := Config.speCollectPhysical (viewSys s) s.ps.el (curSpace s)
  if speIsAccess p.op then
    (p.dataVirtual.map fun v => SpePacket.address p.extended speVirtIndex v).toList ++
      (if spePhysOutput p.onVirtual allowed p.dataVirtual.isSome p.translated then
        [.address p.extended spePhysIndex p.physical] else [])
  else []

/-- Whether the operation of a sample is an SVE one, is predicated, and has an Active element. -/
def spePredicate : SpeOp → Bool × Bool × Bool
  | .sveAccess _ _ predicated anyActive _ => (true, predicated, anyActive)
  | .sve _ predicated anyActive => (true, predicated, anyActive)
  | _ => (false, false, true)

/-- The Events packet, of 2^SZ bytes (61_debug_pmu_trace.md R307). -/
def speEventsPacket (op : SpeOp) (sz : BitVec 2) (events : Word) (s : State) : SpePacket :=
  let e := spePredicate op
  .plain (.events sz) (bytesOf (2 ^ sz.toNat) (speEvents sz events e.1 e.2.1 e.2.2 s))

/-- The end of a record: the Timestamp packet, or, without a timestamp, an End packet (61_debug_pmu_trace.md R297). -/
def speLastPacket (s : State) : SpePacket :=
  match Config.speTimestampKind (viewSys s) s.ps.el (curSpace s) with
  | some k => .plain .timestamp (bytesOf 8 (speTimestamp k s))
  | none => .plain .end_ []

/-- The record of a sample taken now, in an order that no rule gives but for its end (DESIGN CHOICE, log entry 101). -/
def speRecord (p : SpeSample) (s : State) : Option (List SpePacket) :=
  (speOperation p.op s).map fun o =>
    p.others.filterMap speExtraPacket ++ speDataPackets p s ++ [.plain o.1 [o.2]] ++
      (p.events.map fun e => speEventsPacket p.op e.1 e.2 s).toList ++ [speLastPacket s]

/-- M of PMBPTR_EL1 is between 1 and PMBIDR_EL1.Align, bits [3:0], or there is none (61_debug_pmu_trace.md R280). -/
def pmbptrConfigOk (s : State) : Bool := decide (s.cfg.pmbptrRes0 ≤ (field (sreg s .PMBIDR_EL1) 0 4).toNat)

/-- M of TRBPTR_EL1 and TRBIDR_EL1.Align. -/
def trbptrConfigOk (s : State) : Bool := decide (s.cfg.trbptrRes0 ≤ (field (sreg s .TRBIDR_EL1) 0 4).toNat)

/-- TRCIDR0.TSMARK, bit [23], a field of every ETE (61_debug_pmu_trace.md R313). -/
def tsmark (s : State) : Bool := bitAt (sreg s .TRCIDR0) 23

/-- An element of the trace: the cycle it is of, and whether it is a Cycle Count element. -/
structure TraceElement where
  cycle : Nat
  cycleCount : Bool
  deriving DecidableEq, Repr

/-- The most recent Cycle Count element of those before an element, the oldest first. -/
def lastCycleCount (before : List TraceElement) : Option TraceElement := before.reverse.find? (·.cycleCount)

/-- The cycle count of a Timestamp element while TRCCONFIGR.CCI, bit [4], is 1 (61_debug_pmu_trace.md R306): from the most recent
Cycle Count element before the associated element to that element. -/
def timestampCycles (before : List TraceElement) (associated : TraceElement) (s : State) : Option Nat :=
  if ibit s .TRCCONFIGR 4 then (lastCycleCount before).map fun c => associated.cycle - c.cycle else none

/-- A Timestamp element: the timestamp, and the cycle count it contains. -/
structure TimestampElement where
  value : Word
  cycles : Option Nat
  deriving DecidableEq, Repr

/-- The Timestamp element of an element. -/
def timestampElement (value : Word) (before : List TraceElement) (associated : TraceElement) (s : State) : TimestampElement :=
  { value, cycles := timestampCycles before associated s }

/-- The Effective value of PMEVTYPER<n>_EL0.MT, bit [25]: 0 without FEAT_MTPMU (61_debug_pmu_trace.md R295). -/
def effMT (n : Fin 31) (s : State) : Bool := has .MTPMU s && ictlBit s (.pmevtyper n) 25

/-- It is recommended to implement L1D_CACHE_RW: L1D_CACHE_PRFM, 0x8142, or L1D_CACHE_HWPRF, 0x8154, is implemented
(61_debug_pmu_trace.md R279; the last number is PRESUMED, log entry 8). -/
def l1dCacheRwRecommended (s : State) : Bool := s.cfg.pmuEvents.contains 0x8142 || s.cfg.pmuEvents.contains 0x8154

/-- The one form of SVE CPY that is unchanged in Debug state (61_debug_pmu_trace.md R305). -/
def cpyUnchangedInDebug (immediate zeroing : Bool) (elementBytes shift : Nat) : Bool :=
  immediate && zeroing && elementBytes == 1 && shift == 0

/-- The row of the sequencer table that 61_debug_pmu_trace.md R316 prints. -/
def sequencerRow (rst b0 b1 b2 f0 f1 f2 : Bool) : Bool := rst || (b0 && b1 && b2 && !f2 && !f1 && !f0)

/-! ### Error records -/

/-- A data register of the PE: a general-purpose register, a stack pointer, a SIMD&FP, SVE or SME register, ZA and ZT0 among
them; every other is a control register (61_debug_pmu_trace.md R261). -/
def isDataRegister : ErrSource → Bool
  | .generalPurpose => true
  | .stackPointer => true
  | .simdFp => true
  | .sve => true
  | .sme => true
  | .other => false

/-- ERR<n>STATUS.SERR, bits [7:0]: an internal data register, or an internal control register (61_debug_pmu_trace.md R261). -/
def serr (src : ErrSource) : BitVec 8 := if isDataRegister src then 0x10 else 0x11

/-- Record an error. -/
def recordError (n : Nat) (src : ErrSource) (s : State) : State :=
  { s with err := s.err.modify n fun r => { r with status := copyBits r.status ((serr src).setWidth 64) 0 8 } }

/-! ### Syndromes and fields -/

/-- HPFAR_EL2 of a stage 2 fault of a memory copy or set: bits [n-1:0] of the address are UNKNOWN, 2^n the stage 2 translation
granule (60_exceptions.md R251). -/
def mopsHpfar (n : Nat) (ipa : BitVec 52) (s : State) : Option Word :=
  hpfarOf (.walk .permission 3 true (copyBits ipa ((Config.freeWord .faultAddress s.free).setWidth 52) 0 n)) s

/-- The return address of a memory copy or set exception from its epilogue or not (60_exceptions.md R230). -/
def mopsReturn (fromEpilogue : Bool) (elr : Word) : Word := if fromEpilogue then elr - 8 else elr - 4

/-- The option of a memory copy or set is the other one (60_exceptions.md R230). -/
def mopsOptionA (optionA wrongOption : Bool) : Bool := if wrongOption then !optionA else optionA

/-- An unsigned ID field says that a level of functionality is present (10_state.md R30). -/
def idUnsigned (v : BitVec 4) (level : Nat) : Bool := decide (level ≤ v.toNat)

/-- A signed ID field says that the feature is present: its value is not negative (10_state.md R31). -/
def idSigned (v : BitVec 4) : Bool := decide (0 ≤ v.toInt)

/-- ETS says that FEAT_ETS2 is present: 0b0010 (10_state.md R37). -/
def etsSupported (v : BitVec 4) : Bool := v == 0b0010#4

/-- `AltPARTIDspace` for the Non-secure state (10_state.md R33): the primary space; the other cases are elided. -/
def altPartidSpace {α : Type} (security : Space) (primary : α) : Option α :=
  if security = .nonSecure then some primary else none

/-- The features the SVE cryptographic ones need (43_fp_sve_sme.md R166). -/
def cryptoConsistent (s : State) : Bool :=
  (!has .SVE_AES s || (has .AES s && has .SVE2 s)) &&
  (!has .SVE_PMULL128 s || (has .SVE_AES s && has .PMULL s)) &&
  (!has .SVE_SHA3 s || (has .SHA3 s && has .SVE2 s))

/-- With FEAT_RME and PC sampling, FEAT_PCSRv8p2 (61_debug_pmu_trace.md R300). -/
def pcsrConsistent (s : State) : Bool := !(has .RME s && has .PCSRv8 s) || has .PCSRv8p2 s

/-! ### Translation -/

/-- Block descriptor bit [16] (20_memory.md R108): nT with FEAT_BBM, else RES0. -/
def blockNT (desc : Word) (s : State) : Bool := has .BBM s && bitAt desc 16

/-- `S2AccessControls` as `S2DirectBasePermissions` gives it (20_memory.md R111). -/
structure S2AccessControls where
  rMmu : Bool
  wMmu : Bool
  toplevel0 : Bool
  toplevel1 : Bool
  overlay : Bool
  deriving DecidableEq, Repr

/-- The tail of `AArch64.S2DirectBasePermissions` (20_memory.md R111). -/
def s2DirectBase (r w : Bool) : S2AccessControls := ⟨r, w, false, false, false⟩

end Sys2Proof.Machine
end

