-- ==== Sys2Proof/Machine/Agents.lean ====
section
/-! DEFINITION. The steps of the agents beside the PE: the external debugger, the interrupt sources, other observers of memory, the
branch record buffer, the profiling and trace units (00_scope.md R15; 61_debug_pmu_trace.md R255, R259, R263,
R264, R271, R275, R280, R296, R302, R312, R318). -/

namespace Sys2Proof.Machine

/-- A wake-up event: a wait is over (45_base_subset.md R190, 91_not_in_source.md N28). -/
def wakeUp (setsEvent : Bool) (s : State) : State := { s with waiting := none, eventReg := s.eventReg || setsEvent }

/-- An External debug request: entry to Debug state where halting is allowed (61_debug_pmu_trace.md R277); it ends a wait, halting
allowed or not (45_base_subset.md R190). -/
def requestHalt (s : State) : State :=
  if haltingAllowed s then halt 0b010011 (unitState s).pc (unitState s) else wakeUp false s

/-- The restart: exit from Debug state (61_debug_pmu_trace.md R296). -/
def restart (s : State) : State := if halted s then exitDebugState s else s

/-- The address space of a key. -/
def spaceOfKey (key : Nat) : Space :=
  match key / 2 ^ 52 with
  | 0 => .secure
  | 1 => .nonSecure
  | 2 => .root
  | _ => .realm

/-- A byte written by another observer: to memory, or to the register frame that is there (20_memory.md R58, R63). -/
def observedByte (key : Nat) (b : Byte) (s : State) : State :=
  match (regionAt (key % 2 ^ 52) s.cfg.memMap).bind fun r => r.frame.map fun f => (f, key % 2 ^ 52 - r.base) with
  | some f => writeFrameByte f.1 f.2 (spaceOfKey key) b s
  | none => writeByte key b s

/-- Another observer's write: the byte changes, and the global monitor of its block is lost (92_eei_decisions.md D6). -/
def observerWrite (key : Nat) (b : Byte) (s : State) : State :=
  { observedByte key b s with
    exGlobal := if s.exGlobal = some (key / 2 ^ s.cfg.ergLog2) then none else s.exGlobal }

/-- The debug registers made to hold the answer to an access. -/
def answered (r : Option Word) (s : State) : State := { s with dbg := { s.dbg with response := r } }

/-- The Core power domain goes off, EDPRSR.SPD, bit [1], showing that its state is lost, or on, when EDACR may have lost what it
held (61_debug_pmu_trace.md R265, R303; 93_implementation_defined.md U32). -/
def setCorePower (on : Bool) (s : State) : State :=
  let d := { s.dbg with corePowered := on }
  if !on then { s with dbg := { d with edprsr := setBit d.edprsr 1 true } }
  else if !s.dbg.corePowered && edacrInCore s && !s.cfg.edacrPreserved then
    { s with dbg := { d with edacr := (Config.freeWord .edacrLost s.free).setWidth 32 } }
  else { s with dbg := d }

/-- The interrupt sources change what is pending; in Debug state EDSCR.A shows it (61_debug_pmu_trace.md R291). -/
def setInterrupts (i : Interrupts) (s : State) : State :=
  let t := { s with intr := i }
  if halted t then updateEDSCRFields t else t

/-! ### Buffers -/

/-- The descriptor of a write to the Profiling Buffer, Tag Unchecked, or the trace buffer (20_memory.md R84 item 9, R85). -/
def bufferDesc (access : Access) : AccDesc := { access, write := true, exclusive := false, unchecked := access == .profile }

/-- How a fault of such a write is reported: an External abort on a table walk, a descriptor update or a GPT walk as an External
abort or as an MMU fault, whichever; another External abort as that; the others as MMU faults (61_debug_pmu_trace.md R302). -/
def bufferFault (k : AbortKind) (s : State) : BufferFault :=
  match k with
  | .external => .externalAbort
  | .walk .externalOnWalk _ _ _ => if Config.freeBool .walkAbortAsMmu s.free then .mmuFault else .externalAbort
  | _ => .mmuFault

/-- Write bytes at a pointer, up to the first fault: the pointer after the last byte written, and the fault. The translation is
the current context's (DESIGN CHOICE, log entry 70: the owning regime's controls are not in the source). -/
def bufferWrite (access : Access) : List Byte → Word → State → Word × Option BufferFault × State
  | [], ptr, s => (ptr, none, s)
  | b :: bs, ptr, s =>
    match locate (bufferDesc access) 1 ptr false s with
    | .ok x s1 => bufferWrite access bs (ptr + 1) (writeLoc x b s1)
    | .fault k _ s1 => (ptr, some (bufferFault k s1), s1)

/-- A buffer pointer that the unit itself moves: it sees its own write. -/
def setPointer (r : SysReg) (v : Word) (s : State) : State :=
  { setReg r v s with pend := s.pend.filter fun e => e.1 != r }

/-- The bytes of a record are collected at PMBPTR_EL1, unless a fault is pending (61_debug_pmu_trace.md R280). -/
def writeProfile (bytes : List Byte) (s : State) : State :=
  if s.profileFault.isSome then s
  else
    let r := bufferWrite .profile bytes (ireg s .PMBPTR_EL1) s
    { setPointer .PMBPTR_EL1 (pointerValue s.cfg.pmbptrRes0 r.1) r.2.2 with profileFault := r.2.1 }

/-- A sample: its record is collected; a PE without FEAT_SPE has no unit that takes one. -/
def profileSample (p : SpeSample) (s : State) : State :=
  if has .SPE s then (match speRecord p s with
    | some packets => writeProfile (packets.flatMap SpePacket.bytes) s
    | none => s)
  else s

/-- Trace data is written at TRBPTR_EL1, unless a fault is pending (61_debug_pmu_trace.md R280, R302). -/
def writeTrace (bytes : List Byte) (s : State) : State :=
  if s.traceFault.isSome then s
  else
    let r := bufferWrite .trace bytes (ireg s .TRBPTR_EL1) s
    { setPointer .TRBPTR_EL1 (pointerValue s.cfg.trbptrRes0 r.1) r.2.2 with traceFault := r.2.1 }

/-! ### Events -/

/-- An access to the level 2 data TLB is counted by L2D_TLB, 0x002F, and, a read or a write, by L2D_TLB_RD, 0x005E, or L2D_TLB_WR,
0x005F (61_debug_pmu_trace.md R312; the number of L2D_TLB is PRESUMED, log entry 8). -/
def countL2dTlb (write : Bool) (s : State) : State := countEvent (if write then 0x005F else 0x005E) (countEvent 0x002F s)

/-- A cycle or Slot without an operation sent: STALL_BACKEND, 0x0024, STALL_FRONTEND, 0x0023, and their Slot forms, 0x003D and
0x003E (61_debug_pmu_trace.md R263, R264); that the frontend event counts where nothing is available is PRESUMED (log entry
16). Whether the backend event counts there too, and whether both may count at once, are parameters
(93_implementation_defined.md U31). -/
def countStall (slot available accepts : Bool) (s : State) : State :=
  let backend := !accepts && (available || s.cfg.stallBackendAlways)
  let t := if backend then countEvent (if slot then 0x003D else 0x0024) s else s
  if available || (backend && !s.cfg.stallBothCounted) then t else countEvent (if slot then 0x003E else 0x0023) t

/-- A snoop that hits and returns data is counted, by the PE that generates it: DSNP_HIT_RD, 0x8194, or ISNP_HIT_RD, 0x8190
(61_debug_pmu_trace.md R275). -/
def countSnoop (data hit returns : Bool) (s : State) : State :=
  if hit && returns then countEvent (if data then 0x8194 else 0x8190) s else s

/-- The events that the model counts where what they count happens: the architectural ones, which are counted by nothing else
(61_debug_pmu_trace.md R260), register writes (R266, R267), and those that have an agent's event of their own: stalls (R263, R264),
the level 2 data TLB (R312), snoops (R275), reductions and empty predicates (R318, R307). -/
def countedElsewhere (event : BitVec 16) : Bool :=
  exceptionEvents.contains event ||
    [0x000B, 0x001C, 0x0023, 0x0024, 0x002F, 0x003D, 0x003E, 0x005E, 0x005F, 0x803D, 0x803E, 0x803F, 0x805D, 0x805E, 0x805F,
     0x8075, 0x8190, 0x8194].contains event

/-- Another event of the PE is counted. -/
def countOwn (event : BitVec 16) (s : State) : State := if countedElsewhere event then s else countEvent event s

/-- An event of another PE in a component that it shares with this one is counted by counter `n`: not in a cache while the Effective
value of MT is 0; while it is 1, in a multithreaded processor whose cache others share too, only that of a PE of the processor; else
as the implementation has it (61_debug_pmu_trace.md R294). -/
def countsOther (cache beyond sameProcessor : Bool) (n : Fin 31) (s : State) : Bool :=
  if cache && !effMT n s then false
  else if cache && beyond && s.cfg.multithreaded then sameProcessor
  else if effMT n s then s.cfg.pmuOtherPEsMT else s.cfg.pmuOtherPEs

/-- An event of another PE is counted by the counters that count it. -/
def countOther (event : BitVec 16) (cache beyond sameProcessor : Bool) (s : State) : State :=
  countEventWhere (fun n => if h : n < 31 then countsOther cache beyond sameProcessor ⟨n, h⟩ s else false) event s

/-- What an event of another agent makes of the machine. -/
def agentEffect (e : AgentEvent) (s : State) : State :=
  match e with
  | .pe => s
  | .haltRequest => requestHalt s
  | .restart => restart s
  | .itr w => { s with dbg := { s.dbg with itr := s.dbg.itr ++ [w] } }
  | .extRead r => answered (extRead r s) (afterExtRead r s)
  | .extWrite r v => answered (extWriteResponse r s) (extWrite r v s)
  | .frameRead r by_ => answered (readFrameReg r by_ s) (afterAgentRead r by_ s)
  | .frameWrite r by_ v => answered (frameWriteResponse r by_ s) (agentFrameWrite r by_ v s)
  | .corePower on => setCorePower on s
  | .debugInputs dl rd ta => { s with dbg := { s.dbg with doubleLock := dl, rootDebug := rd, traceAccess := ta } }
  | .debugEvents w b v st =>
    { s with dbg := { s.dbg with watchpoints := w, breakpoints := b, vectorCatch := v, softwareStep := st } }
  | .interrupts i => setInterrupts i s
  | .wakeUp setsEvent => wakeUp setsEvent s
  | .observerWrite key b => observerWrite key b s
  | .branch n src tgt inf => recordTaken n src tgt inf s
  | .exception n src tgt inf => recordException n src tgt inf s
  | .inject n => injectBranch n s
  | .captureTimestamp => captureTimestamp s
  | .profile p => profileSample p s
  | .trace bytes => writeTrace bytes s
  | .error n src => recordError n src s
  | .l2dTlb w => countL2dTlb w s
  | .speculated k => countReduction k s
  | .speculatedSve predicated anyActive => countPredEmpty predicated anyActive s
  | .stall slot available accepts => countStall slot available accepts s
  | .snoop data hit returns => countSnoop data hit returns s
  | .microarchitectural event => countOwn event s
  | .otherPE event cache beyond sameProcessor => countOther event cache beyond sameProcessor s

/-- The sequence that guarantees a Warm reset is one of instructions: a step of another agent does not come between them
(70_reset_and_hazards.md R326). -/
def laterSeq : ResetSeq → ResetSeq
  | .dsb k => .dsb (k + 1)
  | .msr k => .msr (k + 1)
  | other => other

/-- A step of another agent. -/
def agentStep (e : AgentEvent) (s : State) : State := agentEffect e { s with resetSeq := laterSeq s.resetSeq }

end Sys2Proof.Machine
end

