-- ==== Sys2Proof/Machine/Pstate.lean ====
section
/-! DEFINITION. MSR (immediate) to PSTATE fields (41_system_instructions.md R140; 10_state.md R54, R55). -/

namespace Sys2Proof.Machine

/-- A direct read or write of PC or PSTATE in Debug state is CONSTRAINED UNPREDICTABLE and refused (61_debug_pmu_trace.md
R308), unless a control traps the instruction and the trap fires (60_exceptions.md R213). -/
def notHalted (trap : Option Result) (s : State) (k : Result) : Result :=
  if halted s then unpredictable trap .pcOrPstateInDebugState s else k

/-- DAIFSet and DAIFClr at EL0 need SCTLR_EL1.UMA (10_state.md R55); else they are trapped with EC 0x18. -/
def daifTrap (crm : BitVec 4) (op2 : BitVec 3) (s : State) : Option Result :=
  if s.ps.el = .el0 ∧ ¬umaAllows s then
    some (raise (syncExc (ownTarget s) 0x18 (sysTrapIss 0 3 4 crm op2 31 false) s) s)
  else none

/-- An access to DAIF that the trap lets be made. -/
def daifAccess (crm : BitVec 4) (op2 : BitVec 3) (s : State) (k : Result) : Result :=
  notHalted (daifTrap crm op2 s) s ((daifTrap crm op2 s).getD k)

/-- `MSR DAIFSet, #imm`. -/
def execMsrDaifSetImm (crm : BitVec 4) (s : State) : Result :=
  daifAccess crm 0b110 s (.next (advance (daifSet crm s)))

/-- `MSR DAIFClr, #imm`. -/
def execMsrDaifClrImm (crm : BitVec 4) (s : State) : Result :=
  daifAccess crm 0b111 s (.next (advance (daifClr crm s)))

/-- `MSR SSBS, #imm`. -/
def execMsrSsbsImm (crm : BitVec 4) (s : State) : Result :=
  notHalted none s (.next (advance (setSsbs (bitAt crm 0) s)))

/-- `MSR DIT, #imm`. -/
def execMsrDitImm (crm : BitVec 4) (s : State) : Result :=
  notHalted none s (.next (advance (setDit (bitAt crm 0) s)))

/-- `MSR TCO, #imm`: UNDEFINED without FEAT_MTE (DESIGN CHOICE, log entry 79: R140 of 41_system_instructions.md gives the operand no
feature condition). -/
def execMsrTcoImm (crm : BitVec 4) (s : State) : Result :=
  if !has .MTE s then undefined s else notHalted none s (.next (advance (setTco (bitAt crm 0) s)))

/-- `MSR SPSel, #imm`: UNDEFINED at EL0 (10_state.md R55). -/
def execMsrSpselImm (crm : BitVec 4) (s : State) : Result :=
  notHalted none s (if s.ps.el = .el0 then undefined s else .next (advance (setSpsel (bitAt crm 0) s)))

end Sys2Proof.Machine
end

