-- ==== Sys2Proof/Machine/Branch.lean ====
section
/-! DEFINITION. Branches (45_base_subset.md R191, R192, R194; 40_pauth_bti.md R136, R137). In Debug state an instruction
that writes the PC has no effect the spec gives (61_debug_pmu_trace.md R283, R308). -/

namespace Sys2Proof.Machine

/-- PSTATE.BTYPE after an indirect branch without link by a register: 0b01 through X16 or X17 or from a non-guarded
page, else 0b11 (log entry 31). -/
def branchType (rn : BitVec 5) (s : State) : BitVec 2 :=
  if rn = 16 ∨ rn = 17 ∨ ¬guardedHere s then 0b01 else 0b11

/-- A branch to an address in a register, authenticated first. -/
def branchAuth (k : PacKey) (rn : BitVec 5) (modifier : Word) (s : State) : Result :=
  needsPAuth s (notHalted (pacTrap k s) s (authCombined k (readX rn s) modifier s id fun t =>
    .next (branchTo t (branchType rn s) s)))

/-- The same with link: X30 is the address of the next instruction; BTYPE 0b10. -/
def linkAuth (k : PacKey) (rn : BitVec 5) (modifier : Word) (s : State) : Result :=
  needsPAuth s (notHalted (pacTrap k s) s (authCombined k (readX rn s) modifier s id fun t =>
    .next (branchTo t 0b10 (writeX 30 (s.pc + 4) s))))

/-- A return to an authenticated X30, the modifier SP. -/
def returnAuth (k : PacKey) (s : State) : Result :=
  needsPAuth s (notHalted (pacTrap k s) s (authCombined k (readX 30 s) (readSP s) s id fun t => .next (branchTo t 0 s)))

/-- A branch if a condition holds; else the next instruction. -/
def branchIf (c : Bool) (imm : BitVec 19) (s : State) : Result :=
  notHalted none s (.next (if c then branchTo (branchOffset imm s.pc) 0 s else advance s))

/-- B. -/
def execB (imm26 : BitVec 26) (s : State) : Result := notHalted none s (.next (branchTo (branchOffset imm26 s.pc) 0 s))

/-- B.cond. -/
def execBCond (imm19 : BitVec 19) (cond : BitVec 4) (s : State) : Result := branchIf (condHolds cond s.ps) imm19 s

/-- CBZ, 64 bits. -/
def execCbzX (imm19 : BitVec 19) (rt : BitVec 5) (s : State) : Result := branchIf (readX rt s == 0) imm19 s

/-- CBNZ, 64 bits. -/
def execCbnzX (imm19 : BitVec 19) (rt : BitVec 5) (s : State) : Result := branchIf (readX rt s != 0) imm19 s

/-- CBZ, 32 bits. -/
def execCbzW (imm19 : BitVec 19) (rt : BitVec 5) (s : State) : Result := branchIf (readW rt s == 0) imm19 s

/-- CBNZ, 32 bits. -/
def execCbnzW (imm19 : BitVec 19) (rt : BitVec 5) (s : State) : Result := branchIf (readW rt s != 0) imm19 s

/-- RET. -/
def execRet (rn : BitVec 5) (s : State) : Result := notHalted none s (.next (branchTo (readX rn s) 0 s))

/-- RETAA. -/
def execRetaa (s : State) : Result := returnAuth .ia s

/-- RETAB. -/
def execRetab (s : State) : Result := returnAuth .ib s

/-- BRAAZ. -/
def execBraaz (rn : BitVec 5) (s : State) : Result := branchAuth .ia rn 0 s

/-- BRABZ. -/
def execBrabz (rn : BitVec 5) (s : State) : Result := branchAuth .ib rn 0 s

/-- BLRAAZ. -/
def execBlraaz (rn : BitVec 5) (s : State) : Result := linkAuth .ia rn 0 s

/-- BLRABZ. -/
def execBlrabz (rn : BitVec 5) (s : State) : Result := linkAuth .ib rn 0 s

/-- BRAA. -/
def execBraa (rn rm : BitVec 5) (s : State) : Result := branchAuth .ia rn (readXSP rm s) s

/-- BRAB. -/
def execBrab (rn rm : BitVec 5) (s : State) : Result := branchAuth .ib rn (readXSP rm s) s

/-- BLRAA. -/
def execBlraa (rn rm : BitVec 5) (s : State) : Result := linkAuth .ia rn (readXSP rm s) s

/-- BLRAB. -/
def execBlrab (rn rm : BitVec 5) (s : State) : Result := linkAuth .ib rn (readXSP rm s) s

end Sys2Proof.Machine
end

