-- ==== Sys2Proof/Machine/Exceptions.lean ====
section
/-! DEFINITION. Exception generating instructions, halting, exception return (60_exceptions.md R201, R216 to R218, R240;
41_system_instructions.md R139). -/

namespace Sys2Proof.Machine

/-- A system call: its return address is the next instruction; the syndrome holds the immediate (60_exceptions.md R240). -/
def sysCall (target : EL) (ec : BitVec 6) (imm16 : BitVec 16) (s : State) : Result :=
  raise { syncExc target ec (imm16.setWidth 25) s with ret := s.pc + 4 } s

/-- SVC: to EL1, from EL0 with HCR_EL2.TGE to EL2, at EL2 and EL3 to the same level. EC 0x15. -/
def execSvc (imm16 : BitVec 16) (s : State) : Result := sysCall (ownTarget s) 0x15 imm16 s

/-- HVC: to EL2, at EL3 to EL3; UNDEFINED at EL0, without EL2, and at EL1 when EL2 is not enabled. EC 0x16. -/
def execHvc (imm16 : BitVec 16) (s : State) : Result :=
  if s.ps.el = .el0 ∨ ¬s.cfg.hasEL2 ∨ (s.ps.el = .el1 ∧ ¬el2Enabled s) then undefined s
  else sysCall (if s.ps.el = .el3 then .el3 else .el2) 0x16 imm16 s

/-- SMC: to EL3; UNDEFINED at EL0, without EL3, and in Debug state while EDSCR.SDD is 1, when there is no means to enter EL3
(61_debug_pmu_trace.md R314, R315). EC 0x17. -/
def execSmc (imm16 : BitVec 16) (s : State) : Result :=
  if s.ps.el = .el0 ∨ ¬s.cfg.hasEL3 ∨ el3SddUndef s then undefined s else sysCall .el3 0x17 imm16 s

/-- BRK: a Breakpoint Instruction exception, EC 0x3C; its return address is the BRK itself (60_exceptions.md R216). -/
def execBrk (imm16 : BitVec 16) (s : State) : Result :=
  raise (syncExc (ownTarget s) 0x3C (imm16.setWidth 25) s) s

/-- HLT: a Halt Instruction debug event when EDSCR.HDE, bit [14], is 1 and halting is allowed; DLR_EL0 is the address of
the HLT (60_exceptions.md R217). Else UNDEFINED. -/
def execHlt (_imm16 : BitVec 16) (s : State) : Result :=
  if bitAt s.dbg.edscr 14 && haltingAllowed s then .next (halt 0b101111 s.pc s) else undefined s

/-- The trap of an exception return at EL1 under nested virtualization or by a fine-grained trap, EC 0x1A
(60_exceptions.md R218). -/
def eretTrapped (s : State) : Bool :=
  s.ps.el == .el1 && el2Enabled s &&
    ((has .NV s && ibit s .HCR_EL2 42) || (has .FGT s && ibit s .HFGITR_EL2 51))

/-- The trap of an exception return that applies now. -/
def eretTrap (iss : BitVec 25) (s : State) : Option Result :=
  if eretTrapped s then some (raise (syncExc .el2 0x1A iss s) s) else none

/-- What comes before an exception return: not in Debug state, where the trap of its own or of its authentication, `auth`, may
fire (60_exceptions.md R213); UNDEFINED at EL0, the trap. -/
def eretGate (iss : BitVec 25) (auth : Option Result) (s : State) (k : Result) : Result :=
  notHalted ((eretTrap iss s).or auth) s (if s.ps.el = .el0 then undefined s else (eretTrap iss s).getD k)

/-- `AArch64.ExceptionReturn()`: an unmasked pending physical SError is taken first (60_exceptions.md R201). -/
def returnTo (target : Word) (s : State) : Result :=
  takeUnmaskedSError s fun s1 => .next (exceptionReturn target (sreg s1 (spsrReg s1.ps.el)) s1)

/-- The return address of an exception return: ELR_ELx. -/
def elrValue (s : State) : Word := sreg s (elrReg s.ps.el)

/-- An exception return to an authenticated address. The address of a failed authentication keeps its error code, whatever the
Execution state it returns to, so that it gives a Translation fault (40_pauth_bti.md R128; log entry 87). -/
def returnAuthenticated (k : PacKey) (s : State) : Result :=
  authCombined k (elrValue s) (readSP s) s id fun t =>
    if authFails k (elrValue s) (readSP s) s then
      takeUnmaskedSError s fun s1 => .next { exceptionReturn t (sreg s1 (spsrReg s1.ps.el)) s1 with pc := t }
    else returnTo t s

/-- ERET. -/
def execEret (s : State) : Result := eretGate 0 none s (returnTo (elrValue s) s)

/-- ERETAA: ELR_ELx authenticated with key A, the modifier SP. -/
def execEretaa (s : State) : Result := needsPAuth s (eretGate 2 (pacTrap .ia s) s (returnAuthenticated .ia s))

/-- ERETAB: with key B. -/
def execEretab (s : State) : Result := needsPAuth s (eretGate 3 (pacTrap .ib s) s (returnAuthenticated .ib s))

/-- `DebugRestorePSR()`: PSTATE from the SPSR of the current Exception level. -/
def debugRestorePsr (s : State) : State :=
  updateEDSCRFields { s with ps := pstateFromSpsr (sreg s (spsrReg s.ps.el)) s }

/-- The implicit error synchronisation of DRPS is on: SCTLR_ELx.IESB, bit [21], or at EL3 SCR_EL3.{EA, NMEA}, bits [3]
and [20]; it is CONSTRAINED UNPREDICTABLE whether Debug state ignores it (41_system_instructions.md R139). -/
def drpsSynchronises (s : State) : Bool :=
  ((has .IESB s && sctlr s 21) ||
    (has .DoubleFault s && !s.ps.nRW && ibit s .SCR_EL3 3 && ibit s .SCR_EL3 20 && s.ps.el == .el3)) &&
    Config.freeBool .iesbInDebug s.free

/-- `SynchronizeErrors()` in Debug state: no SError is taken there; the model keeps no error that is not yet pending. -/
def synchronizeErrors (s : State) : State := s

/-- DRPS: error synchronisation, a Context synchronization event, then PSTATE restored (41_system_instructions.md R139).
UNDEFINED in Non-debug state and at EL0 (DESIGN CHOICE, log entry 79: R139 says only that it is executed in Debug state). -/
def execDrps (s : State) : Result :=
  if ¬halted s ∨ s.ps.el = .el0 then undefined s
  else .next (debugRestorePsr (syncContext (if drpsSynchronises s then synchronizeErrors s else s)))

end Sys2Proof.Machine
end

