-- ==== Sys2Proof/Machine/AArch32.lean ====
section
/-! DEFINITION. The A32 and T32 instructions (44_aarch32.md R182 to R185; 20_memory.md R87, R97). -/

namespace Sys2Proof.Machine

/-- A conditional instruction whose condition fails is a NOP, of 16 bits if it is `narrow`. -/
def ifCondOf (narrow : Bool) (cond : BitVec 4) (s : State) (k : Result) : Result :=
  if condHolds cond s.ps then k else .next (advanceOf narrow s)

/-- A conditional instruction of 32 bits. -/
def ifCond (cond : BitVec 4) (s : State) (k : Result) : Result := ifCondOf false cond s k

/-- An instruction that names R15 reads or writes the PC, or the condition flags, directly: in Debug state it has no outcome that the
spec gives, and a trap of it may fire (61_debug_pmu_trace.md R308, 60_exceptions.md R213). -/
def noR15InDebug (own : Refusal) (rs : List (BitVec 4)) (trap : Option Result) (s : State) (k : Result) : Result :=
  if halted s && rs.contains 15 then unpredictable trap own s else k

/-- CSDB, A32: no effect on registers or memory. -/
def execCsdbA32 (_cond : BitVec 4) (s : State) : Result := .next (advance s)

/-- CSDB, T32. -/
def execCsdbT32 (s : State) : Result := .next (advance s)

/-- SB, A32. -/
def execSbA32 (s : State) : Result := .next (advance s)

/-- SB, T32. -/
def execSbT32 (s : State) : Result := .next (advance s)

/-- Access to Advanced SIMD with EL1 in AArch32: CPACR.cp10 [21:20] and ASEDIS [31], FPEXC.EN [30], and in Non-secure state
NSACR.NSASEDIS [15] (44_aarch32.md R182). That FPEXC is the same register as FPEXC32_EL2, its EN at bit [30], and the places of
ASEDIS and NSASEDIS, which no rule prints, are PRESUMED (log entry 90: R27 of 10_state.md gives EN's place in FPEXC32_EL2 alone). -/
def a32SimdDisabled (s : State) : Bool :=
  enForbids (field (ictl s .cpacr) 20 2) (s.ps.el == .el0) || ictlBit s .cpacr 31 || !ibit s .FPEXC32_EL2 30 ||
    (curSpace s == .nonSecure && ictlBit s .nsacr 15)

/-- HCPTR.TASE [15] traps Advanced SIMD in Non-secure state, EL2 included, EL2 in AArch32 (44_aarch32.md R182, which does not print the
bit's place: PRESUMED, log entry 90). -/
def hcptrTraps (s : State) : Bool :=
  curSpace s == .nonSecure && s.cfg.hasEL2 && elUsesA32 .el2 s && ictlBit s .hcptr 15

/-- Advanced SIMD is enabled, else UNDEFINED or a trap; with EL1 in AArch64 by the AArch64 controls. -/
def a32SimdGate (s : State) (k : Result) : Result :=
  if !elUsesA32 .el1 s then vecGate [.fp] s k
  else if a32SimdDisabled s then undefined s
  else if hcptrTraps s then raise (syncExc .el2 0x07 0 s) s
  else k

/-- The element size imm3H gives: 8 times its highest set bit. -/
def vmovlSize (imm3H : BitVec 3) : Nat := if bitAt imm3H 2 then 32 else if bitAt imm3H 1 then 16 else 8

/-- The long elements: each element of Dm extended to twice its size, and shifted left by what imm3H has beyond the size. R183 of
44_aarch32.md gives no size or shift for imm3H 3, 5, 6 and 7: the element size of its highest bit, and the shift of eight times
imm3H less that size, are PRESUMED (log entry 39). -/
def vmovlValue (u : Bool) (imm3H : BitVec 3) (m : Word) : BitVec 128 :=
  let n := vmovlSize imm3H
  let shift := 8 * imm3H.toNat - n
  (List.range (64 / n)).foldl (fun r e =>
    let x : BitVec n := field m (n * e) n
    let y : BitVec (2 * n) := (if u then x.setWidth (2 * n) else x.signExtend (2 * n)) <<< shift
    r ||| (y.setWidth 128 <<< (2 * n * e))) 0

/-- A D register: half of a vector register. -/
def readD (n : BitVec 5) (s : State) : Word := field (readZ (n >>> 1) s) (if bitAt n 0 then 64 else 0) 64

/-- VMOVL (44_aarch32.md R183): UNDEFINED for an odd Vd. -/
def vmovl (u d : BitVec 1) (imm3H : BitVec 3) (vd : BitVec 4) (m : BitVec 1) (vm : BitVec 4) (s : State) : Result :=
  if bitAt vd 0 then undefined s
  else a32SimdGate s
    (let v := vmovlValue (u == 1) imm3H (readD (m ++ vm) s)
     .next (advance (writeZ ((d ++ vd) >>> 1) (v.setWidth 2048) s)))

/-- VMOVL, A32. -/
def execVmovlA32 (u d : BitVec 1) (imm3H : BitVec 3) (vd : BitVec 4) (m : BitVec 1) (vm : BitVec 4) (s : State) :
    Result :=
  vmovl u d imm3H vd m vm s

/-- VMOVL, T32. -/
def execVmovlT32 (u d : BitVec 1) (imm3H : BitVec 3) (vd : BitVec 4) (m : BitVec 1) (vm : BitVec 4) (s : State) :
    Result :=
  vmovl u d imm3H vd m vm s

/-- The destination of an MRC: R<t>, or for register 15 the condition flags, bits [31:28] (10_state.md R20). -/
def mrcTo (rt : BitVec 4) (v : Half) (s : State) : Result :=
  if rt = 15 then .next (advance (setFlags ⟨bitAt v 31, bitAt v 30, bitAt v 29, bitAt v 28⟩ s))
  else .next (advance (writeR rt v s))

/-- MRC of a value past its trap, if it has one: with destination 15 in Debug state it has no outcome the spec gives (44_aarch32.md R184,
61_debug_pmu_trace.md R308). -/
def mrcOf (trap : Option Result) (rt : BitVec 4) (v : Half) (s : State) : Result :=
  noR15InDebug .mrcApsrInDebugState [rt] trap s (trap.getD (mrcTo rt v s))

/-- MRC of DBGDSCRint: no control that the spec prints traps the instruction (44_aarch32.md R184; 60_exceptions.md R213). -/
def execMrcDbgdscrint (cond rt : BitVec 4) (s : State) : Result := ifCond cond s (mrcOf none rt s.a32.dbgdscrint s)

/-- The ISS of a trapped MCR of PAR: CV, COND, CRn 7, Rt, CRm 4. -/
def parTrapIss (cond : BitVec 4) (rt : BitVec 5) : BitVec 25 :=
  ((bitTo 24 true ||| fieldTo 20 cond ||| fieldTo 10 (7#4) ||| fieldTo 5 rt ||| fieldTo 1 (4#4) : Word)).setWidth 25

/-- PAR_S[31:0] <- R[t]; bits [63:32] stay. -/
def writeParS (v : Half) (s : State) : State := { s with a32 := { s.a32 with parS := withLow32 s.a32.parS v } }

/-- PAR_NS[31:0] <- R[t]. -/
def writeParNS (v : Half) (s : State) : State := { s with a32 := { s.a32 with parNS := withLow32 s.a32.parNS v } }

/-- PAR[31:0] <- R[t]: the one PAR of a PE whose EL3 does not use AArch32, which is PAR_EL1 (log entry 38). -/
def writePar (v : Half) (s : State) : State := setReg .PAR_EL1 (withLow32 (sreg s .PAR_EL1) v) s

/-- EL3 is implemented and uses AArch32: PAR is banked. -/
def parBanked (s : State) : Bool := s.cfg.hasEL3 && elUsesA32 .el3 s

/-- HSTR_EL2.T7, or HSTR.T7, traps an MCR to PAR at EL1 (44_aarch32.md R185). -/
def parTraps (s : State) : Bool :=
  s.ps.el == .el1 && el2Enabled s && (if elUsesA32 .el2 s then ictlBit s .hstr 7 else ibit s .HSTR_EL2 7)

/-- That trap. -/
def parTrap (cond rt : BitVec 4) (s : State) : Option Result :=
  if parTraps s then some (raise (syncExc .el2 0x03 (parTrapIss cond (a32Index rt s)) s) s) else none

/-- What an MCR to PAR that is not trapped does (44_aarch32.md R185). -/
def mcrPar (v : Half) (s : State) : Result :=
  let own := if parBanked s then writeParNS v s else writePar v s
  match s.ps.el with
  | .el0 => undefined s
  | .el3 => .next (advance (if ictlBit s .scr 0 then writeParNS v s else writeParS v s))
  | _ => .next (advance own)

/-- MCR to PAR (44_aarch32.md R185); with register 15 in Debug state it reads the PC directly (61_debug_pmu_trace.md R308). -/
def execMcrPar (cond rt : BitVec 4) (s : State) : Result :=
  ifCond cond s (noR15InDebug .pcOrPstateInDebugState [rt] (parTrap cond rt s) s
    ((parTrap cond rt s).getD (mcrPar (readR rt s) s)))

end Sys2Proof.Machine
end

