-- ==== Sys2Proof/Machine/Arith.lean ====
section
/-! DEFINITION. Integer arithmetic with immediates, MOVZ and ORR (45_base_subset.md R187, R194). -/

namespace Sys2Proof.Machine

/-- MOVZ, 64 bits. -/
def execMovzX (hw : BitVec 2) (imm16 : BitVec 16) (rd : BitVec 5) (s : State) : Result :=
  .next (advance (writeX rd (movImm 64 hw imm16) s))

/-- MOVZ, 32 bits. -/
def execMovzW (hw : BitVec 1) (imm16 : BitVec 16) (rd : BitVec 5) (s : State) : Result :=
  .next (advance (writeW rd (movImm 32 hw imm16) s))

/-- ADD (immediate), 64 bits: register 31 is the stack pointer. -/
def execAddX (sh : BitVec 1) (imm12 : BitVec 12) (rn rd : BitVec 5) (s : State) : Result :=
  .next (advance (writeXSP rd (readXSP rn s + addImm 64 sh imm12) s))

/-- SUB (immediate), 64 bits. -/
def execSubX (sh : BitVec 1) (imm12 : BitVec 12) (rn rd : BitVec 5) (s : State) : Result :=
  .next (advance (writeXSP rd (readXSP rn s - addImm 64 sh imm12) s))

/-- SUBS (immediate), 64 bits: the destination register 31 discards the result; the flags are set. -/
def execSubsX (sh : BitVec 1) (imm12 : BitVec 12) (rn rd : BitVec 5) (s : State) : Result :=
  let r := subWithFlags (readXSP rn s) (addImm 64 sh imm12)
  .next (advance (setFlags r.2 (writeX rd r.1 s)))

/-- ADD (immediate), 32 bits: bits [63:32] of the destination become zero. -/
def execAddW (sh : BitVec 1) (imm12 : BitVec 12) (rn rd : BitVec 5) (s : State) : Result :=
  .next (advance (writeXSP rd (((readXSP rn s).setWidth 32 + addImm 32 sh imm12).setWidth 64) s))

/-- SUB (immediate), 32 bits. -/
def execSubW (sh : BitVec 1) (imm12 : BitVec 12) (rn rd : BitVec 5) (s : State) : Result :=
  .next (advance (writeXSP rd (((readXSP rn s).setWidth 32 - addImm 32 sh imm12).setWidth 64) s))

/-- SUBS (immediate), 32 bits. -/
def execSubsW (sh : BitVec 1) (imm12 : BitVec 12) (rn rd : BitVec 5) (s : State) : Result :=
  let r := subWithFlags ((readXSP rn s).setWidth 32) (addImm 32 sh imm12)
  .next (advance (setFlags r.2 (writeW rd r.1 s)))

/-- ORR (shifted register), 64 bits. -/
def execOrrX (shift : BitVec 2) (rm : BitVec 5) (imm6 : BitVec 6) (rn rd : BitVec 5) (s : State) : Result :=
  .next (advance (writeX rd (readX rn s ||| shiftReg (readX rm s) shift imm6) s))

end Sys2Proof.Machine
end

