-- ==== Sys2Proof/Machine/Hints.lean ====
section
/-! DEFINITION. Hints, waits and barriers (30_encoding.md R122; 20_memory.md R66, R86, R95, R97; 45_base_subset.md R189,
R190; 60_exceptions.md R214, R229; 92_eei_decisions.md D7, D9). -/

namespace Sys2Proof.Machine

/-- NOP. -/
def execNop (s : State) : Result := .next (advance s)

/-- CSDB changes no register or memory (20_memory.md R86). -/
def execCsdb (s : State) : Result := .next (advance s)

/-- SB: in a model without speculation a NOP (20_memory.md R97). -/
def execSb (s : State) : Result := .next (advance s)

/-- BTI: its landing pad check is before it runs (Fetch); itself a NOP (40_pauth_bti.md R136). -/
def execBti (s : State) : Result := .next (advance s)

/-- BTI c. -/
def execBtiC (s : State) : Result := .next (advance s)

/-- BTI j. -/
def execBtiJ (s : State) : Result := .next (advance s)

/-- BTI jc. -/
def execBtiJC (s : State) : Result := .next (advance s)

/-! ### Waits -/

/-- SCR_EL3 traps a wait to EL3. -/
def waitTrapsToEL3 (event : Bool) (s : State) : Bool :=
  s.cfg.hasEL3 && s.ps.el != .el3 && ibit s .SCR_EL3 (if event then 13 else 12)

/-- The controls that trap a wait, in order: SCTLR_EL1, or SCTLR_EL2 with {E2H, TGE} {1, 1}, at EL0; HCR_EL2 at EL0 and
EL1; SCR_EL3 below EL3 (60_exceptions.md R229, 10_state.md R45). `event` chooses the TWE bits. -/
def waitTrap (event : Bool) (s : State) : Option EL :=
  let n := if event then 18 else 16
  if s.ps.el == .el0 && !ibit s (if e2hTge s then .SCTLR_EL2 else .SCTLR_EL1) n then
    some (if hcr s 27 then .el2 else .el1)
  else if (s.ps.el == .el0 || s.ps.el == .el1) && !e2hTge s && hcr s (if event then 14 else 13) then some .el2
  else if waitTrapsToEL3 event s then some .el3
  else none

/-- The ISS of a trapped wait: CV and COND, the register of a WFxT form, and TI, which names the instruction. -/
def waitIss (ti : BitVec 2) (reg : Option (BitVec 5)) : BitVec 25 :=
  ((bitTo 24 true ||| fieldTo 20 (0b1110#4) ||| fieldTo 0 ti |||
    (match reg with | some r => fieldTo 5 r ||| bitTo 2 true | none => 0) : Word)).setWidth 25

/-- The trap of a wait; a trap to EL3 in Debug state with EDSCR.SDD set is UNDEFINED, which may come before the other traps
(61_debug_pmu_trace.md R315). -/
def waitException (narrow event : Bool) (ti : BitVec 2) (reg : Option (BitVec 5)) (s : State) : Option Result :=
  let trap (t : EL) : Result := raise { syncExc t 0x01 (waitIss ti reg) s with narrow } s
  let undef := raise { syncExc (ownTarget s) 0x00 0 s with narrow } s
  if el3SddUndefPriority s && waitTrapsToEL3 event s then some undef
  else match waitTrap event s with
    | some .el3 => some (if el3SddUndef s then undef else trap .el3)
    | some t => some (trap t)
    | none => none

/-- A wait that would suspend execution: its trap, else what it does. -/
def waitOrTrap (narrow event : Bool) (ti : BitVec 2) (reg : Option (BitVec 5)) (s : State) (k : Result) : Result :=
  (waitException narrow event ti reg s).getD k

/-- An interrupt is pending: a wait completes at once. -/
def wakePending (s : State) : Bool :=
  s.intr.irq || s.intr.fiq || s.intr.serror ||
    (virtualEnabled .vIrq s && s.intr.vIrq) || (virtualEnabled .vFiq s && s.intr.vFiq) ||
    (virtualEnabled .vSError s && s.intr.vSError)

/-- The trap that meets a WFE now: none while the Event Register is set. -/
def wfeException (s : State) : Option Result := if s.eventReg then none else waitException false true 0b01 none s

/-- A wait begins: it suspends execution or completes at once, by a draw (45_base_subset.md R190, 60_exceptions.md R214;
93_implementation_defined.md U52). In Debug state it completes at once (DESIGN CHOICE, log entry 40). -/
def beginWait (w : Wait) (s : State) : State :=
  if !halted s && Config.freeBool .waits s.free then { s with waiting := some w } else s

/-- What ends a wait: an interrupt, masked or not (45_base_subset.md R190), the Event Register of a wait for an event
(60_exceptions.md R249), the timeout. The other wake-up events are agents' (91_not_in_source.md N28). -/
def wakesNow (w : Wait) (s : State) : Bool :=
  wakePending s || (w.event && s.eventReg) || (w.timeout.any fun v => decide (v.toNat ≤ (readCntvct s).toNat))

/-- A step of a PE that waits: nothing, or the wait ends, and a wait for an event may consume it (a draw; log entry 40). -/
def waitOn (w : Wait) (s : State) : State :=
  if wakesNow w s then
    { s with waiting := none, eventReg := s.eventReg && !(w.event && Config.freeBool .wakeConsumes s.free) }
  else s

/-- WFE consumes the Event Register if it is set; else it may be trapped, and it waits (60_exceptions.md R214, R229). `narrow` says
that it is the 16-bit instruction. -/
def wfeEffect (narrow : Bool) (s : State) : Result :=
  if s.eventReg then .next (advanceOf narrow { s with eventReg := false })
  else waitOrTrap narrow true 0b01 none s (.next (advanceOf narrow (beginWait ⟨true, none⟩ s)))

/-- WFE. -/
def execWfe (s : State) : Result := wfeEffect false s

/-- A Warm reset that was requested by the whole code sequence is taken in the quiescent state (70_reset_and_hazards.md R326); else
the PE waits, and whether the reset happens is a draw before each step. -/
def suspend (narrow : Bool) (s : State) : Result :=
  if s.warmReset = .synchronised ∧ s.resetSeq = .isb s.pc then requestedReset sysReadOnly allSysRegs s
  else .next (advanceOf narrow (beginWait ⟨false, none⟩ s))

/-- The trap that meets a WFI now: none with an interrupt pending. -/
def wfiException (s : State) : Option Result := if wakePending s then none else waitException false false 0b00 none s

/-- WFI (45_base_subset.md R190): with an interrupt pending it completes at once. -/
def wfiEffect (narrow : Bool) (s : State) : Result :=
  if wakePending s then .next (advanceOf narrow s) else waitOrTrap narrow false 0b00 none s (suspend narrow s)

/-- WFI. -/
def execWfi (s : State) : Result := wfiEffect false s

/-- The timeout of WFET and WFIT: Xt compared, unsigned, with the virtual count (PRESUMED, log entry 100). -/
def timedOut (rd : BitVec 5) (s : State) : Bool := decide ((readX rd s).toNat ≤ (readCntvct s).toNat)

/-- The trap that meets a WFET now. -/
def wfetException (rd : BitVec 5) (s : State) : Option Result :=
  if !has .WFxT s || s.eventReg || timedOut rd s then none else waitException false true 0b11 (some rd) s

/-- The trap that meets a WFIT now. -/
def wfitException (rd : BitVec 5) (s : State) : Option Result :=
  if !has .WFxT s || wakePending s || timedOut rd s then none else waitException false false 0b10 (some rd) s

/-- WFET: as WFE, with a timeout in a register. Without FEAT_WFxT it is UNDEFINED. -/
def execWfet (rd : BitVec 5) (s : State) : Result :=
  if !has .WFxT s then undefined s
  else if s.eventReg then .next (advance { s with eventReg := false })
  else if timedOut rd s then .next (advance s)
  else waitOrTrap false true 0b11 (some rd) s (.next (advance (beginWait ⟨true, some (readX rd s)⟩ s)))

/-- WFIT: as WFI, with a timeout in a register; it is no part of the sequence that guarantees a Warm reset, which names WFI
(70_reset_and_hazards.md R326). -/
def execWfit (rd : BitVec 5) (s : State) : Result :=
  if !has .WFxT s then undefined s
  else if wakePending s || timedOut rd s then .next (advance s)
  else waitOrTrap false false 0b10 (some rd) s (.next (advance (beginWait ⟨false, some (readX rd s)⟩ s)))

/-! ### Barriers -/

/-- What an ISB makes of the sequence that guarantees a Warm reset: right after the MSR it is the third step, and the WFI comes
next (70_reset_and_hazards.md R326). -/
def isbSeq (s : State) : ResetSeq :=
  match s.resetSeq with
  | .msr k => if k + 1 = s.free then .isb (s.pc + 4) else .none
  | other => other

/-- ISB: a Context synchronization event (45_base_subset.md R189). -/
def execIsb (s : State) : Result := .next (advance { syncContext s with resetSeq := isbSeq s })

/-- The Effective value of CTR_EL0.IDC (10_state.md R38): LoC is CLIDR_EL1[26:24], LoUIS [23:21], LoUU [29:27] (PRESUMED, log
entry 68: the source gives no places). -/
def effIdc (s : State) : Bool :=
  bitAt (ctrValue s) 28 || field (sreg s .CLIDR_EL1) 24 3 == 0#3 ||
    (field (sreg s .CLIDR_EL1) 21 3 == 0#3 && field (sreg s .CLIDR_EL1) 27 3 == 0#3)

/-- CTR_EL0.DIC. -/
def dic (s : State) : Bool := bitAt (ctrValue s) 29

/-- What a completed DSB makes of the stage of a written location (92_eei_decisions.md D7): a clean is complete, or was
not needed; an invalidation is complete, or is not needed. -/
def dsbStage (s : State) : Stage → Stage
  | .written => if effIdc s then (if dic s then .invalidComplete else .cleanComplete) else .written
  | .cleaned => if dic s then .invalidComplete else .cleanComplete
  | .cleanComplete => .cleanComplete
  | .invalidated => .invalidComplete
  | .invalidComplete => .invalidComplete

/-- Everything before a DSB is complete. -/
def completeAccesses (s : State) : State := { s with stale := s.stale.map fun e => (e.1, dsbStage s e.2) }

/-- A full DSB: everything before it is complete, and it can begin the sequence that guarantees a Warm reset
(70_reset_and_hazards.md R326). -/
def dataSync (s : State) : State := { completeAccesses s with resetSeq := .dsb s.free }

/-- The barrier waits for every access, of the whole system: CRm is 0b1111, SY, which is how the DSB of the sequence of R326 is taken,
whose comment is 'ensure all stores etc are complete' (DEDUCED, log entry 85). -/
def isFullDsb (crm : BitVec 4) : Bool := crm == 0b1111#4

/-- DSB (45_base_subset.md R189). One of a part of the accesses begins no sequence that guarantees a Warm reset
(70_reset_and_hazards.md R326). -/
def execDsb (crm : BitVec 4) (s : State) : Result :=
  .next (advance (if isFullDsb crm then dataSync s else completeAccesses s))

/-- DSB nXS is a full DSB (20_memory.md R95, 92_eei_decisions.md D9): the one of its domain, CRm[3:2], for all accesses. -/
def execDsbNXS (imm2 : BitVec 2) (s : State) : Result :=
  .next (advance (if isFullDsb (imm2 ++ 0b11#2) then dataSync s else completeAccesses s))

/-- DMB orders nothing that one PE running in program order could see (20_memory.md R66, 92_eei_decisions.md D14). -/
def execDmb (_crm : BitVec 4) (s : State) : Result := .next (advance s)

/-- CLREX clears the local monitor (20_memory.md R66). -/
def execClrex (_crm : BitVec 4) (s : State) : Result := .next (advance { s with exLocal := none })

end Sys2Proof.Machine
end

