-- ==== Sys2Proof/Machine/Granules.lean ====
section
/-! DEFINITION. Accesses to blocks of 16-byte tag granules: zeroing, storing Allocation Tags and reading them
(20_memory.md R70, R79; 41_system_instructions.md R144, R145; 42_loadstore_mte_atomics.md R158, R161). -/

namespace Sys2Proof.Machine

/-- What an access to a block does when a granule is in Device memory. -/
inductive OnDevice where
  /-- An Alignment fault (41_system_instructions.md R145). -/
  | faults
  /-- The access goes on; Device memory is Untagged (20_memory.md R78). -/
  | goesOn
  deriving DecidableEq, Repr

/-- The location of one granule. -/
def locateGranule (d : AccDesc) (dev : OnDevice) (va : Word) (s : State) : Loc Xlat :=
  locateBy d 16 (fun x _ => if isDevice x.type ∧ dev = .faults then some .alignment else none) va s

/-- The faults of the granules of a block, the lowest address first. -/
def granuleFaults (d : AccDesc) (dev : OnDevice) : Nat → Word → State → List (AbortKind × Word × State)
  | 0, _, _ => []
  | n + 1, va, s =>
    match locateGranule d dev va s with
    | .ok _ _ => granuleFaults d dev n (va + 16) s
    | .fault k va' t => (k, va', t) :: granuleFaults d dev n (va + 16) s

/-- The locations of `n` granules from `va` up. The accesses are not ordered, so that which of several faults is reported is
free (20_memory.md R89); an interrupt may be taken between two of them (42_loadstore_mte_atomics.md R157). -/
def locateGranules (d : AccDesc) (dev : OnDevice) (n : Nat) (va : Word) (s : State) : Loc (List Xlat) :=
  match locateSeq (locateGranule d dev) 16 0 true n va s with
  | .ok xs s1 => .ok xs s1
  | .fault (.interrupted i) va' s1 => .fault (.interrupted i) va' s1
  | .fault k va' s1 =>
    let fs := granuleFaults d dev n va s
    match fs[(Config.freeWord .granuleFault s.free).toNat % fs.length]? with
    | some f => .fault f.1 f.2.1 f.2.2
    | none => .fault k va' s1

/-- The granules that are accessed before a fault or an interrupt stops the instruction. -/
def reachedGranules (d : AccDesc) (dev : OnDevice) (n : Nat) (va : Word) (s : State) : List Xlat :=
  reachedSeq (locateGranule d dev) 16 0 true n va s

/-- The granules that the instruction affects and that can be accessed. -/
def targetGranules (d : AccDesc) (dev : OnDevice) (n : Nat) (va : Word) (s : State) : List Xlat :=
  targetSeq (locateGranule d dev) 16 n va s

/-- The size of a block in bytes, `4 << BS`, at least one granule. -/
def blockBytes (bs : BitVec 4) : Nat := max 16 (4 * 2 ^ bs.toNat)

/-- The address aligned down to a power of two. -/
def alignDown (va : Word) (n : Nat) : Word := va - BitVec.ofNat 64 (va.toNat % n)

/-- Zero the 16 bytes of each granule. -/
def zeroGranules : List Xlat → State → State
  | [], s => s
  | x :: xs, s => zeroGranules xs (writeLocs ((List.range 16).map x.plus) (List.replicate 16 0) s)

/-- Store the Allocation Tag of one granule: ignored where the location is not Tagged (20_memory.md R70). -/
def storeTag (x : Xlat) (t : BitVec 4) (s : State) : State := if tagged x s then writeTag x.key t s else s

/-- Allocation Tags that an instruction affects hold any value when an exception is taken in the middle of it
(42_loadstore_mte_atomics.md R156). -/
def spoilTags : List Xlat → Nat → State → State
  | [], _, s => s
  | x :: xs, k, s =>
    spoilTags xs (k + 1)
      (if Config.freeBool (.partialTag k) s.free then
        storeTag x ((Config.freeWord (.partialTag k) s.free).setWidth 4) s else s)

/-- What a store to granules that is stopped has done: nothing, or `f` to those before, `xs`, where any byte or tag that it
affects, in the granules `ts`, may hold any value (42_loadstore_mte_atomics.md R156, 93_implementation_defined.md U43). -/
def partialGranules (f : List Xlat → State → State) (data tags : Bool) (xs ts : List Xlat) (s : State) : State :=
  if Config.freeBool .partialAccess s.free then
    let t := f xs s
    let u := if data then spoilLocs (ts.flatMap fun x => (List.range 16).map x.plus) 0 t else t
    if tags then spoilTags ts 0 u else u
  else s

/-- Store the same Allocation Tag for each granule. -/
def storeTags (t : BitVec 4) : List Xlat → State → State
  | [], s => s
  | x :: xs, s => storeTags t xs (storeTag x t s)

/-- The Allocation Tag a load of tags sees: zero where the location is not Tagged (20_memory.md R70). -/
def loadTag (x : Xlat) (s : State) : BitVec 4 := if tagged x s then readTag x.key s else 0

end Sys2Proof.Machine
end

