-- ==== Sys2Proof/Machine/Tags.lean ====
section
/-! DEFINITION. The instructions on Allocation Tags (42_loadstore_mte_atomics.md R158, R161; 20_memory.md R70, R78, R79;
60_exceptions.md R224). Operands and block sizes are PRESUMED (log entry 32). -/

namespace Sys2Proof.Machine

/-- Store one Allocation Tag: the address is a multiple of 16, the tag bits [59:56] of Xt or SP; then the writeback. -/
def stg (rn rt : BitVec 5) (addr : Word → Word) (writeback : Option (Word → Word)) (s : State) : Result :=
  if !has .MTE s then undefined s
  else (baseReg rn s).andThen fun base s1 =>
    let va := addr base
    if va.toNat % 16 ≠ 0 then
      (abort (α := Unit) (tagDesc true) .alignment va s1).andThen fun _ s2 => .next s2
    else ((locateGranule (tagDesc true) .goesOn va s1).toAcc (tagDesc true)).andThen fun x s2 =>
      let t := storeTag x (field (readXSP rt s) 56 4) s2
      .next (advance (match writeback with
        | some f => writeXSP rn (f base) t
        | none => t))

/-- STG, signed offset. -/
def execStgOffset (imm9 : BitVec 9) (rn rt : BitVec 5) (s : State) : Result :=
  stg rn rt (· + simmTag imm9) none s

/-- STG, post-index. -/
def execStgPost (imm9 : BitVec 9) (rn rt : BitVec 5) (s : State) : Result :=
  stg rn rt id (some (· + simmTag imm9)) s

/-- STG, pre-index. -/
def execStgPre (imm9 : BitVec 9) (rn rt : BitVec 5) (s : State) : Result :=
  stg rn rt (· + simmTag imm9) (some (· + simmTag imm9)) s

/-- The block of GMID_EL1.BS, in bytes. -/
def tagBlock (s : State) : Nat := blockBytes (field (sreg s .GMID_EL1) 0 4)

/-- The multiple-tag forms, STZGM, STGM and LDGM: a block of granules, its address aligned down. They are UNDEFINED without
FEAT_MTE2 and at EL0 (DESIGN CHOICE, log entry 83: the source says neither). -/
def tagMultiple (d : AccDesc) (dev : OnDevice) (rn : BitVec 5) (s : State)
    (part : Word → List Xlat → List Xlat → State → State) (far : AbortKind → Word → Word → State → Word)
    (k : Word → List Xlat → State → Result) : Result :=
  if !has .MTE2 s || s.ps.el == .el0 then undefined s
  else (baseReg rn s).andThen fun base s1 =>
    match locateGranules d dev (tagBlock s / 16) (alignDown base (tagBlock s)) s1 with
    | .ok xs s2 => k base xs s2
    | .fault f va s2 =>
      (abort (α := Unit) d f (far f va base s1)
        (part base (reachedGranules d dev (tagBlock s / 16) (alignDown base (tagBlock s)) s1)
          (targetGranules d dev (tagBlock s / 16) (alignDown base (tagBlock s)) s1) s2)).andThen
        fun _ s3 => .next s3

/-- A fault is reported at its own address. -/
def faultHere (_f : AbortKind) (va _base : Word) (_s : State) : Word := va

/-- The descriptor of STZGM: a store of data and tags, Tag Unchecked (42_loadstore_mte_atomics.md R158). -/
def stzgmDesc : AccDesc := { access := .dcZero, write := true, exclusive := false, unchecked := true }

/-- STZGM to Device memory: an Alignment fault determined by the memory type, which comes where such faults come, or the access
goes on, free for each execution (42_loadstore_mte_atomics.md R161). -/
def stzgmDev (s : State) : OnDevice := if Config.freeBool .stzgmDevice s.free then .faults else .goesOn

/-- The lowest address of a block that gives rise to the same fault. -/
def lowestFault (d : AccDesc) (f : AbortKind) (va first : Word) (s : State) : Word :=
  match (granuleFaults d (stzgmDev s) (tagBlock s / 16) first s).find? fun g =>
      faultStatus g.1 == faultStatus f && faultStage2 g.1 == faultStage2 f with
  | some g => g.2.1
  | none => va

/-- The address of a memory fault of STZGM in FAR_ELx: the lowest address that gave rise to it or the register argument
(60_exceptions.md R224); a watchpoint match has its own (R225). -/
def stzgmFar (f : AbortKind) (va base : Word) (s : State) : Word :=
  match f with
  | .watchpoint _ => va
  | _ => if s.cfg.stzgmFarLowest then lowestFault stzgmDesc f va (alignDown base (tagBlock s)) s else base

/-- The tag of granule `i` of a word of tags, 4 bits each, the first granule of the block at `first`. -/
def nthTag (v : Word) (i : Nat) : BitVec 4 := field v (4 * i) 4

/-- Store the tags of a word, one for each granule, from number `i` up. -/
def storeTagList (v : Word) : Nat → List Xlat → State → State
  | _, [], s => s
  | i, x :: xs, s => storeTagList v (i + 1) xs (storeTag x (nthTag v i) s)

/-- Load tags, one for each granule, from number `i` up. -/
def loadTagList (s : State) : Nat → List Xlat → Word
  | _, [] => 0
  | i, x :: xs => fieldTo (4 * i) (loadTag x s) ||| loadTagList s (i + 1) xs

/-- Where the tags of a block stand in the register: by the number of its first granule among 16. -/
def tagIndex (va : Word) (s : State) : Nat := (field (alignDown va (tagBlock s)) 4 4).toNat

/-- The effect of STZGM on granules: zeroes and the tag Xt[3:0]. -/
def zeroAndTag (t : BitVec 4) (xs : List Xlat) (s : State) : State := storeTags t xs (zeroGranules xs s)

/-- STZGM: the tag is Xt[3:0]; data becomes zero. To Device memory the data is zeroed and no tag changes, or an
Alignment fault (42_loadstore_mte_atomics.md R161). -/
def execStzgm (rn rt : BitVec 5) (s : State) : Result :=
  let t := field (readX rt s) 0 4
  tagMultiple stzgmDesc (stzgmDev s) rn s (fun _ xs ts u => partialGranules (zeroAndTag t) true true xs ts u) stzgmFar
    fun _ xs s2 => .next (advance (zeroAndTag t xs s2))

/-- STGM: a block of tags from Xt. -/
def execStgm (rn rt : BitVec 5) (s : State) : Result :=
  let store (base : Word) (xs : List Xlat) (u : State) : State := storeTagList (readX rt s) (tagIndex base s) xs u
  tagMultiple (tagDesc true) .goesOn rn s (fun base xs ts u => partialGranules (store base) false true xs ts u) faultHere
    fun base xs s2 => .next (advance (store base xs s2))

/-- LDGM: a block of tags into Xt, the other bits zero. -/
def execLdgm (rn rt : BitVec 5) (s : State) : Result :=
  tagMultiple (tagDesc false) .goesOn rn s (fun _ _ _ u => if tagBlock s = 16 then u else spoilReg rt rn u) faultHere
    fun base xs s2 => .next (advance (writeX rt (loadTagList s2 (tagIndex base s) xs) s2))

end Sys2Proof.Machine
end

