-- ==== Sys2Proof/Machine/Maintenance.lean ====
section
/-! DEFINITION. System instructions: cache, tag, TLB and prediction maintenance, address translation
(41_system_instructions.md R141 to R154; 30_encoding.md R127; 20_memory.md R104, R105; 10_state.md R51). The operation
encodings without a row of their own are PRESUMED (log entry 8). -/

namespace Sys2Proof.Machine

/-! ### Zeroing and tags by VA -/

/-- DC ZVA, GVA and GZVA are prohibited at EL0 by SCTLR_ELx.DZE, at EL0 and EL1 by HCR_EL2.TDZ: a trap with EC 0x18
(10_state.md R51). -/
def dczException (op2 : BitVec 3) (rt : BitVec 5) (s : State) : Option Result :=
  if dczProhibited s then
    let el0 := s.ps.el == .el0 && !ibit s (if e2hTge s then .SCTLR_EL2 else .SCTLR_EL1) 14
    some (raise (syncExc (if el0 then ownTarget s else .el2) 0x18 (sysTrapIss 1 3 7 4 op2 rt false) s) s)
  else none

/-- One of these instructions where it is not prohibited. -/
def dczTrap (op2 : BitVec 3) (rt : BitVec 5) (s : State) (k : Result) : Result := (dczException op2 rt s).getD k

/-- The block DCZID_EL0.BS gives, in bytes. -/
def dcBlock (s : State) : Nat := blockBytes (field (sreg s .DCZID_EL0) 0 4)

/-- Locate the granules of the block of an address and go on with `f` on them; stopped between two accesses it may have
acted on those before (42_loadstore_mte_atomics.md R156). -/
def withBlock (d : AccDesc) (dev : OnDevice) (va : Word) (f : List Xlat → State → State) (tags : Bool) (s : State)
    (k : List Xlat → State → Result) : Result :=
  let n := dcBlock s / 16
  let first := alignDown va (dcBlock s)
  match locateGranules d dev n first s with
  | .ok xs s1 => k xs (f xs s1)
  | .fault e va' s1 =>
    (abort (α := Unit) d e va'
      (partialGranules f (d.access == .dcZero) tags (reachedGranules d dev n first s) (targetGranules d dev n first s)
        s1)).andThen fun _ s2 => .next s2

/-- The descriptor of DC ZVA, Tag Checked, and of DC GZVA, Tag Unchecked (41_system_instructions.md R144). -/
def dcZeroDesc (unchecked : Bool) : AccDesc := { access := .dcZero, write := true, exclusive := false, unchecked }

/-- The descriptor of DC GVA: Allocation Tags alone, Tag Unchecked (41_system_instructions.md R144). -/
def dcTagDesc : AccDesc := { access := .dcTag, write := true, exclusive := false, unchecked := true }

/-- DC ZVA: zero the block. -/
def execDcZva (rt : BitVec 5) (s : State) : Result :=
  dczTrap 1 rt s (withBlock (dcZeroDesc false) .faults (readX rt s) zeroGranules false s fun _ t => .next (advance t))

/-- DC GVA to Device memory: an Alignment fault determined by the memory type, which comes where such faults come, or no tag
changes, free for each execution (41_system_instructions.md R153). -/
def gvaDev (s : State) : OnDevice := if Config.freeBool .gvaDevice s.free then .faults else .goesOn

/-- DC GVA: Allocation Tags made bits [59:56] of the address. It needs FEAT_MTE (DESIGN CHOICE, log entry 96). -/
def execDcGva (rt : BitVec 5) (s : State) : Result :=
  if !has .MTE s then undefined s
  else dczTrap 3 rt s
    (withBlock dcTagDesc (gvaDev s) (readX rt s) (storeTags (field (readX rt s) 56 4)) true s fun _ t =>
      .next (advance t))

/-- DC GZVA: Allocation Tags and zeroes. It needs FEAT_MTE (DESIGN CHOICE, log entry 96). -/
def execDcGzva (rt : BitVec 5) (s : State) : Result :=
  if !has .MTE s then undefined s
  else dczTrap 4 rt s
    (withBlock (dcZeroDesc true) .faults (readX rt s) (zeroAndTag (field (readX rt s) 56 4)) true s fun _ t =>
      .next (advance t))

/-! ### Caches -/

/-- The descriptor of cache maintenance by VA; `cmow` for the four instructions that CMOW acts on. -/
def cacheDesc (cmow : Bool) : AccDesc :=
  { access := .cacheOp, write := false, exclusive := false, unchecked := false, cmow }

/-- Cache maintenance by VA: the address is translated and its permissions are checked
(41_system_instructions.md R150); where the instruction is a NOP it can report Permission faults only. -/
def cacheByVa (cmow : Bool) (va : Word) (s : State) (k : Xlat → State → State) : Result :=
  match translate (cacheDesc cmow) va s with
  | .ok x s1 => .next (advance (if s.cfg.cmoNop then s1 else k x s1))
  | .fault f va' s1 =>
    let reported := match f with
      | .walk .permission _ _ _ => true
      | _ => !s.cfg.cmoNop
    if reported then (abort (α := Unit) (cacheDesc cmow) f va' s1).andThen fun _ s2 => .next s2 else .next (advance s1)

/-- The smallest data and instruction cache lines: CTR_EL0.DminLine, bits [19:16], and IminLine, bits [3:0]. -/
def dLine (s : State) : Nat := 4 * 2 ^ (field (sreg s .CTR_EL0) 16 4).toNat

/-- The smallest instruction cache line. -/
def iLine (s : State) : Nat := 4 * 2 ^ (field (sreg s .CTR_EL0) 0 4).toNat

/-- Stages of the code locations in one line, moved on (92_eei_decisions.md D7). -/
def moveStages (line key : Nat) (before after : Stage) (s : State) : State :=
  { s with stale := s.stale.map fun e => if e.1 / line = key / line ∧ e.2 = before then (e.1, after) else e }

/-- A data cache clean of a line. -/
def cleanLine (x : Xlat) (s : State) : State := moveStages (dLine s) x.key .written .cleaned s

/-- An instruction cache invalidation of a line. -/
def invalidateLine (x : Xlat) (s : State) : State := moveStages (iLine s) x.key .cleanComplete .invalidated s

/-- DC CIVAC: clean and invalidate a data cache line by VA. -/
def execDcCivac (rt : BitVec 5) (s : State) : Result := cacheByVa true (readX rt s) s cleanLine

/-- DC CIGVAC: Allocation Tags only; memory holds them already. It needs FEAT_MTE (DESIGN CHOICE, log entry 96: R150 of
41_system_instructions.md gives no feature condition). -/
def execDcCigvac (rt : BitVec 5) (s : State) : Result :=
  if has .MTE s then cacheByVa true (readX rt s) s fun _ s1 => s1 else undefined s

/-- DC CIGDVAC: data and Allocation Tags. It needs FEAT_MTE (DESIGN CHOICE, log entry 96). -/
def execDcCigdvac (rt : BitVec 5) (s : State) : Result :=
  if has .MTE s then cacheByVa true (readX rt s) s cleanLine else undefined s

/-- IC IVAU: invalidate an instruction cache line by VA. -/
def execIcIvau (rt : BitVec 5) (s : State) : Result := cacheByVa true (readX rt s) s invalidateLine

/-- DC CIPAE and DC CIGDPAE are UNDEFINED at EL1, and at EL2 outside Realm state (41_system_instructions.md R147). That they need
FEAT_MEC, and DC CIGDPAE FEAT_MTE, is a DESIGN CHOICE (log entry 96: R147 and R127 of 30_encoding.md print no feature condition).
That they are UNDEFINED at EL0, and performed at EL3 in any state, is a DESIGN CHOICE (log entry 79): those arms are not printed
(91_not_in_source.md N31). -/
def paeUndefined (s : State) : Bool :=
  !has .MEC s ||
    (match s.ps.el with
     | .el2 => curSpace s != .realm
     | .el3 => false
     | _ => true)

/-- The clean by PA: the Realm line of Xt[51:0] when Xt[63:62] is 0b11; else it may act or not (30_encoding.md R127). -/
def cleanByPa (v : Word) (s : State) : State :=
  let acts := field v 62 2 == 0b11#2 || Config.freeBool .paeActs s.free
  { s with stale :=
      if acts then (moveStages (dLine s) (physKey .realm (field v 0 52).toNat) .written .cleaned s).stale else s.stale }

/-- DC CIPAE: clean and invalidate a data cache line by PA to the Point of Encryption. -/
def execDcCipae (rt : BitVec 5) (s : State) : Result :=
  if paeUndefined s then undefined s else .next (advance (cleanByPa (readX rt s) s))

/-- DC CIGDPAE: the same for data and Allocation Tags. -/
def execDcCigdpae (rt : BitVec 5) (s : State) : Result :=
  if paeUndefined s || !has .MTE s then undefined s else .next (advance (cleanByPa (readX rt s) s))

/-! ### TLBs -/

/-- Drop the entries an invalidation matches. The Exclusives monitors may be cleared, and need not be compared with the
physical address after it (20_memory.md R105). -/
def tlbInvalidate (p : TLBEntry → Bool) (s : State) : State :=
  let clears := Config.freeBool .monitorAfterTlbi s.free
  { s with
    tlb := s.tlb.filter (!p ·)
    exTlbi := true
    exLocal := if clears then none else s.exLocal
    exGlobal := if clears then none else s.exGlobal }

/-- The first address and the last address of the block an entry maps. -/
def blockRange (base : Word) (blocksize : Nat) : Word × Word :=
  (base &&& ~~~(maskOf 64 0 blocksize), base ||| maskOf 64 0 blocksize)

/-- The range `[lo, hi)` overlaps a block, on address bits [n-1:0] (41_system_instructions.md R141). -/
def rangeOverlaps (n : Nat) (lo hi : Word) (block : Word × Word) : Bool :=
  decide ((field lo 0 n).toNat ≤ (field block.2 0 n).toNat) && decide ((field block.1 0 n).toNat < (field hi 0 n).toNat)

/-- The scope of an invalidation by ASID: a non-global entry of the final level with the ASID, or a global entry
(20_memory.md R104). -/
def asidScope (asid : BitVec 16) (e : TLBEntry) : Bool :=
  twoRanges e.regime && ((!e.global && e.finalLevel && e.asid == asid) || e.global)

/-- The operations by range. -/
inductive RangeOp where
  | rva | rvaa | ripas2 | rpa
  deriving DecidableEq, Repr

/-- The number of an operation, which names its operand's format to `Config.tlbiRange`. -/
def RangeOp.num : RangeOp → Nat
  | .rva => 1
  | .rvaa => 2
  | .ripas2 => 3
  | .rpa => 4

/-- The TCR_ELx that sizes the range of an operation for the EL1&0, EL2 or EL3 regime. -/
def rangeTcr (el : EL) (s : State) : SysReg :=
  match el with
  | .el3 => .TCR_EL3
  | .el2 => .TCR_EL2
  | _ => if e2hTge s then .TCR_EL2 else .TCR_EL1

/-- The range a range operation invalidates. -/
def rangeOf (op : RangeOp) (el : EL) (v : Word) (s : State) : Word × Word :=
  Config.tlbiRange op.num v (match op with
    | .ripas2 => ireg s .VTCR_EL2
    | .rpa => ireg s .GPCCR_EL3
    | _ => ireg s (rangeTcr el s))

/-- `TLBIMatch` (41_system_instructions.md R141); the conditions the source elides are `Config.tlbiElided` of the number of
the instruction. Which operations the scope by ASID of 20_memory.md R104 belongs to is not in the source (91_not_in_source.md N45):
that it is applied to the by-range by-VA ASID forms, RVA, and to no other invalidation is a DESIGN CHOICE (log entry 52). -/
def tlbiMatch (op : RangeOp) (num : Nat) (v lo hi : Word) (e : TLBEntry) : Bool :=
  match op with
  | .rva => e.includesS1 && Config.tlbiElided num v e && (!twoRanges e.regime || asidScope (field v 48 16) e) &&
      rangeOverlaps 56 lo hi (blockRange e.ia e.blocksize)
  | .rvaa => e.includesS1 && Config.tlbiElided num v e && rangeOverlaps 56 lo hi (blockRange e.ia e.blocksize)
  | .ripas2 => !e.includesS1 && e.includesS2 && Config.tlbiElided num v e &&
      rangeOverlaps 52 lo hi (blockRange e.ia e.blocksize)
  | .rpa => e.includesGpt && rangeOverlaps 52 lo hi (blockRange (e.oa.setWidth 64) e.blocksize)

/-- `GPTTLBIMatch` for `TLBIOp_RPA` with `TLBILevel_Any`, or the last level only (41_system_instructions.md R142): by the size the
entry was cached with, whatever GPCCR_EL3.PGS is now. -/
def gptMatch (anyLevel : Bool) (lo hi : Word) (e : GptEntry) : Bool :=
  rangeOverlaps 52 lo hi (blockRange (e.pa.setWidth 64) e.size) && (anyLevel || e.level == 1)

/-- `TLBIOp_PAALL` matches every cached GPT entry (41_system_instructions.md R142). -/
def invalidateAllGpt (s : State) : State := { s with gptTlb := [] }

/-- A TLBI executed at EL3 for a reserved Security state of the lower levels is a NOP (41_system_instructions.md R154). -/
def tlbiReserved (s : State) : Bool := s.ps.el == .el3 && has .RME s && !validLowerState s

/-- A range invalidation with its operand, by the instruction with a number, for a regime. -/
def tlbiRangeOp (op : RangeOp) (num : Nat) (el : EL) (rt : BitVec 5) (s : State) : State :=
  let v := readX rt s
  let r := rangeOf op el v s
  tlbInvalidate (tlbiMatch op num v r.1 r.2) s

/-- The invalidation by range of physical addresses: TLB entries that include GPT information, and cached GPT entries of any
level or of the last (41_system_instructions.md R141, R142). -/
def gptRangeOp (anyLevel : Bool) (rt : BitVec 5) (s : State) : State :=
  let r := rangeOf .rpa .el3 (readX rt s) s
  let t := tlbiRangeOp .rpa RangeOp.rpa.num .el3 rt s
  { t with gptTlb := t.gptTlb.filter (!gptMatch anyLevel r.1 r.2 ·) }

/-- TLBI PAALL and PAALLOS: every cached GPT entry; which TLB entries with GPT information the source elides. -/
def gptAllOp (num : Nat) (rt : BitVec 5) (s : State) : State :=
  invalidateAllGpt (tlbInvalidate (fun e => e.includesGpt && Config.tlbiElided num (readX rt s) e) s)

/-- Every entry of the EL1&0 regime of the Security state that EL1 has, whatever its output address space
(41_system_instructions.md R154). -/
def alle1Match (s : State) (e : TLBEntry) : Bool := e.regime == .el10 && e.ss == lowerSpace s

/-- TLBI ALLE1: UNDEFINED at EL0 and EL1. -/
def execTlbiAlle1 (s : State) : Result :=
  if elNum s.ps.el < 2 then undefined s
  else if tlbiReserved s then .next (advance s)
  else .next (advance (tlbInvalidate (alle1Match s) s))

/-- TLBI ALLE1NXS: the nXS qualifier only relaxes its completion (92_eei_decisions.md D9). -/
def execTlbiAlle1nxs (s : State) : Result :=
  if elNum s.ps.el < 2 then undefined s
  else if tlbiReserved s then .next (advance s)
  else .next (advance (tlbInvalidate (alle1Match s) s))

/-- TLBI RVAE1: by VA range and ASID. UNDEFINED at EL0. -/
def execTlbiRvae1 (rt : BitVec 5) (s : State) : Result :=
  if s.ps.el = .el0 then undefined s
  else if tlbiReserved s then .next (advance s)
  else .next (advance (tlbiRangeOp .rva RangeOp.rva.num .el1 rt s))

/-- TLBI RVAAE1: by VA range, all ASIDs. -/
def execTlbiRvaae1 (rt : BitVec 5) (s : State) : Result :=
  if s.ps.el = .el0 then undefined s
  else if tlbiReserved s then .next (advance s)
  else .next (advance (tlbiRangeOp .rvaa RangeOp.rvaa.num .el1 rt s))

/-- TLBI RIPAS2E1: by IPA range, stage 2 entries. UNDEFINED at EL0 and EL1. -/
def execTlbiRipas2e1 (rt : BitVec 5) (s : State) : Result :=
  if elNum s.ps.el < 2 then undefined s
  else if tlbiReserved s then .next (advance s)
  else .next (advance (tlbiRangeOp .ripas2 RangeOp.ripas2.num .el1 rt s))

/-- TLBI RPAOS: by PA range, entries that hold GPT information and cached GPT entries. EL3 only. -/
def execTlbiRpaos (rt : BitVec 5) (s : State) : Result :=
  if s.ps.el ≠ .el3 ∨ ¬has .RME s then undefined s
  else .next (advance (gptRangeOp true rt s))

/-! ### Prediction restriction -/

/-- An Exception level in a Security state is implemented: EL3 is in Root state with FEAT_RME, else in Secure state; the levels below
it in Secure state with EL3, in Realm state with FEAT_RME and EL3, in Non-secure state (log entry 57). Secure EL2 exists with EL2:
the source names no feature of its own. -/
def combinationImplemented (n : Nat) (sp : Space) (s : State) : Bool :=
  (n != 2 || s.cfg.hasEL2) && (n != 3 || s.cfg.hasEL3) &&
    (match sp with
     | .root => n == 3 && has .RME s
     | .secure => s.cfg.hasEL3 && (n != 3 || !has .RME s)
     | .realm => n != 3 && s.cfg.hasEL3 && has .RME s
     | .nonSecure => n != 3)

/-- The instruction is treated as a NOP: the level Xt[25:24] is above the current one, or is not implemented in the Security state that
Xt names (41_system_instructions.md R143). -/
def rctxNop (v : Word) (s : State) : Bool :=
  let n := (field v 24 2).toNat
  decide (elNum s.ps.el < n) || !combinationImplemented n (Config.rctxSpace v) s

/-- The predictions of a kind that were trained at the Exception level Xt[25:24] in the Security state and the rest of the context
the operand names are dropped (41_system_instructions.md R143). -/
def restrictPredictions (kind : PredKind) (v : Word) (s : State) : State :=
  { s with predictions := s.predictions.filter fun p =>
      !(p.kind == kind && elNum p.el == (field v 24 2).toNat && p.space == Config.rctxSpace v &&
        Config.rctxContext v p.space p.addr) }

/-- A prediction restriction by context (41_system_instructions.md R143). -/
def predRestrict (kind : PredKind) (v : Word) (s : State) : Result :=
  .next (advance (if rctxNop v s then s else restrictPredictions kind v s))

/-- CFP RCTX. -/
def execCfpRctx (rt : BitVec 5) (s : State) : Result :=
  predRestrict .controlFlow (readX rt s) s

/-- DVP RCTX. -/
def execDvpRctx (rt : BitVec 5) (s : State) : Result :=
  predRestrict .dataValue (readX rt s) s

/-- CPP RCTX. -/
def execCppRctx (rt : BitVec 5) (s : State) : Result :=
  predRestrict .cachePrefetch (readX rt s) s

/-! ### Address translation -/

/-- An address translation instruction: the level, read or write, stages 1 and 2, and whether PSTATE.PAN counts. -/
structure AtOp where
  el : EL
  write : Bool
  both : Bool
  pan : Bool
  deriving DecidableEq, Repr

/-- The level whose translation is used: EL2&0 for EL1 with `EL2Enabled() && HCR_EL2.{E2H, TGE} == {1, 1}`
(41_system_instructions.md R149). -/
def atContext (op : AtOp) (s : State) : State :=
  { s with ps := { s.ps with el := if op.el = .el1 ∧ ¬op.both ∧ e2hTge s then .el2 else op.el, pan := op.pan && s.ps.pan } }

/-- The descriptor of the translation. When EL2 is not enabled stages 1 and 2 become stage 1: R149 of 41_system_instructions.md gives the
condition and elides what follows (DESIGN CHOICE, log entry 18). -/
def atDesc (op : AtOp) (s : State) : AccDesc :=
  { access := if op.both && el2Enabled s then .translate12 else .translate, write := op.write, exclusive := false,
    unchecked := true }

/-- The translation an AT performs, without the TLB. -/
def atTranslate (op : AtOp) (va : Word) (s : State) : Loc Xlat := lookupWith [] (atDesc op s) va (atContext op s)

/-- PAR_EL1.ATTR of a location: 0xF0 is Tagged Normal memory (20_memory.md R81; the values are PRESUMED, log entry 8). -/
def parAttr (x : Xlat) (s : State) : BitVec 8 :=
  match x.type with
  | .normalWB => if x.tags = .allocationTagged then 0xF0 else 0xFF
  | .normalWBOther => (Config.freeWord (.unknown 10) s.free).setWidth 8
  | .normalOther => (Config.freeWord (.unknown 3) s.free).setWidth 8
  | .normalNC => 0x44
  | .deviceGRE => 0x0C
  | .devicenGRE => 0x08
  | .devicenGnRE => 0x04
  | .devicenGnRnE => 0x00

/-- PAR_EL1 after a successful translation. -/
def parSuccess (x : Xlat) (s : State) : Word :=
  fieldTo 56 (parAttr x s) ||| (BitVec.ofNat 64 x.pa &&& maskOf 64 12 52) |||
    (if x.shareable then fieldTo 7 (0b11#2) else 0) ||| bitTo 9 (x.space == .nonSecure || x.space == .realm) |||
    bitTo 11 (x.space == .root || x.space == .realm)

/-- PAR_EL1 after a fault: F, FST, S. -/
def parFault (k : AbortKind) : Word := bitTo 0 true ||| fieldTo 1 (faultStatus k) ||| bitTo 9 (faultStage2 k) ||| bitTo 11 true

/-- Faults that an AT takes as an exception rather than report in PAR_EL1. -/
def atRaises : AbortKind → Bool
  | .walk .externalOnWalk _ _ _ => true
  | .walk .tlbConflict _ _ _ => true
  | k => isGpc k

/-- The memory an address translation leaves: it may have set Access flags (20_memory.md R117). -/
def atMemory (t s : State) : State := { s with mem := t.mem, stale := t.stale }

/-- Perform an address translation: PAR_EL1 reports it. -/
def addressTranslate (op : AtOp) (va : Word) (s : State) : Result :=
  match atTranslate op va s with
  | .ok x t => .next (advance (setReg .PAR_EL1 (parSuccess x s) (atMemory (faultUpdates x.updates t) s)))
  | .fault k va' t =>
    if atRaises k then (abort (α := Unit) (cacheDesc false) k va' s).andThen fun _ s2 => .next s2
    else .next (advance (setReg .PAR_EL1 (parFault k) (atMemory t s)))

/-- AT S1E1R: UNDEFINED at EL0. HCR_EL2.AT, bit [44], has no effect: the source names the bit and gives none (DESIGN CHOICE,
log entry 61). -/
def execAtS1e1r (rt : BitVec 5) (s : State) : Result :=
  if s.ps.el = .el0 then undefined s else addressTranslate ⟨.el1, false, false, false⟩ (readX rt s) s

/-! ### The generic forms -/

/-- What a SYS that has no row of its own does. -/
inductive SysOp where
  /-- Cache maintenance by VA: what it does to a line is to clean it; to invalidate it; it is of Allocation Tags alone. -/
  | cleanVa | invalidateVa | tagVa
  /-- Cache maintenance of everything, or by set and way. -/
  | icAll | setWay
  | at (op : AtOp)
  | tlbi
  /-- TLB invalidation by range for a regime; by physical address for any level or the last; of all GPT entries. -/
  | tlbiRange (op : RangeOp) (el : EL)
  | gptRange (anyLevel : Bool)
  | gptAll
  deriving DecidableEq, Repr

/-- The cache operations by (op1, CRm, op2), with CRn 7. -/
def cacheSysOp (op1 : BitVec 3) (crm : BitVec 4) (op2 : BitVec 3) : Option SysOp :=
  match op1.toNat, crm.toNat, op2.toNat with
  | 0, 1, 0 => some .icAll
  | 0, 5, 0 => some .icAll
  | 0, 6, 1 => some .invalidateVa
  | 0, 6, 2 => some .setWay
  | 0, 6, 3 => some .tagVa
  | 0, 6, 4 => some .setWay
  | 0, 6, 5 => some .invalidateVa
  | 0, 6, 6 => some .setWay
  | 0, 10, 2 => some .setWay
  | 0, 10, 4 => some .setWay
  | 0, 10, 6 => some .setWay
  | 0, 14, 2 => some .setWay
  | 0, 14, 4 => some .setWay
  | 0, 14, 6 => some .setWay
  | 3, 10, 1 => some .cleanVa
  | 3, 10, 3 => some .tagVa
  | 3, 10, 5 => some .cleanVa
  | 3, 11, 1 => some .cleanVa
  | 3, 12, 1 => some .cleanVa
  | 3, 12, 3 => some .tagVa
  | 3, 12, 5 => some .cleanVa
  | 3, 13, 1 => some .cleanVa
  | 3, 13, 3 => some .tagVa
  | 3, 13, 5 => some .cleanVa
  | _, _, _ => none

/-- A cache operation on Allocation Tags, or on data and Allocation Tags: of those by set and way and by VA, op2 3 to 6. It needs
FEAT_MTE (DESIGN CHOICE, log entry 96: the spec gives these operations no feature condition). -/
def tagSysOp (o : SysOp) (op2 : BitVec 3) : Bool :=
  match o with
  | .cleanVa => decide (3 ≤ op2.toNat)
  | .invalidateVa => decide (3 ≤ op2.toNat)
  | .tagVa => true
  | .setWay => decide (3 ≤ op2.toNat)
  | _ => false

/-- The address translations by (op1, CRm, op2), with CRn 7. -/
def atSysOp (op1 : BitVec 3) (crm : BitVec 4) (op2 : BitVec 3) : Option SysOp :=
  if crm = 9 ∧ op1 = 0 ∧ op2.toNat < 2 then some (.at ⟨.el1, op2 = 1, false, true⟩)
  else if crm ≠ 8 then none
  else match op1.toNat, op2.toNat with
    | 0, 1 => some (.at ⟨.el1, true, false, false⟩)
    | 0, 2 => some (.at ⟨.el0, false, false, false⟩)
    | 0, 3 => some (.at ⟨.el0, true, false, false⟩)
    | 4, 0 => some (.at ⟨.el2, false, false, false⟩)
    | 4, 1 => some (.at ⟨.el2, true, false, false⟩)
    | 4, 4 => some (.at ⟨.el1, false, true, false⟩)
    | 4, 5 => some (.at ⟨.el1, true, true, false⟩)
    | 4, 6 => some (.at ⟨.el0, false, true, false⟩)
    | 4, 7 => some (.at ⟨.el0, true, true, false⟩)
    | 6, 0 => some (.at ⟨.el3, false, false, false⟩)
    | 6, 1 => some (.at ⟨.el3, true, false, false⟩)
    | _, _ => none

/-- The TLB invalidations by range, with CRn 8 or 9: CRm 6, 2 and 5 by VA, CRm 4 and 0 by IPA; at EL3 by PA and PAALL. The last
level forms take the same range. Which of these numbers are allocated with CRn 9, the nXS forms, is not in the spec: `execSys` asks
`Config.unallocatedSys` of the GPT operations there, as of every TLBI that is not by range (DESIGN CHOICE, log entry 24). -/
def tlbiSysOp (op1 : BitVec 3) (crm : BitVec 4) (op2 : BitVec 3) : SysOp :=
  let va := crm = 6 ∨ crm = 2 ∨ crm = 5
  let ipa := crm = 4 ∨ crm = 0
  match op1.toNat, op2.toNat with
  | 0, 1 => if va then .tlbiRange .rva .el1 else .tlbi
  | 0, 5 => if va then .tlbiRange .rva .el1 else .tlbi
  | 0, 3 => if va then .tlbiRange .rvaa .el1 else .tlbi
  | 0, 7 => if va then .tlbiRange .rvaa .el1 else .tlbi
  | 4, 1 => if va then .tlbiRange .rva .el2 else .tlbi
  | 4, 5 => if va then .tlbiRange .rva .el2 else .tlbi
  | 4, 2 => if ipa then .tlbiRange .ripas2 .el1 else .tlbi
  | 4, 6 => if ipa then .tlbiRange .ripas2 .el1 else .tlbi
  | 4, 3 => if crm = 4 then .tlbiRange .ripas2 .el1 else .tlbi
  | 4, 7 => if crm = 4 then .tlbiRange .ripas2 .el1 else .tlbi
  | 6, 1 => if va then .tlbiRange .rva .el3 else .tlbi
  | 6, 5 => if va then .tlbiRange .rva .el3 else .tlbi
  | 6, 3 => if crm = 4 then .gptRange true else .tlbi
  | 6, 7 => if crm = 4 then .gptRange false else .tlbi
  | 6, 4 => if crm = 1 ∨ crm = 7 then .gptAll else .tlbi
  | _, _ => .tlbi

/-- The operation of a generic SYS. -/
def sysOpOf (op1 : BitVec 3) (crn crm : BitVec 4) (op2 : BitVec 3) : Option SysOp :=
  if crn = 7 then (match atSysOp op1 crm op2 with | some o => some o | none => cacheSysOp op1 crm op2)
  else if crn = 8 ∨ crn = 9 then (if op1 = 0 ∨ op1 = 4 ∨ op1 = 6 then some (tlbiSysOp op1 crm op2) else none)
  else none

/-- The lowest level that may use a System instruction, by op1. -/
def sysMinLevel (op1 : BitVec 3) : Nat :=
  match op1.toNat with
  | 3 => 0
  | 4 => 2
  | 6 => 3
  | _ => 1

/-- An instruction cache invalidation of everything. -/
def invalidateICache (s : State) : State :=
  { s with stale := s.stale.map fun e => if e.2 = .cleanComplete then (e.1, .invalidated) else e }

/-- An operation that the spec's operations do not decide whether it is allocated: a TLBI that is neither by range nor of the
GPT, and the nXS forms, CRn 9, of those of the GPT (30_encoding.md R122; DESIGN CHOICE, log entry 24). -/
def mayBeUnallocated (o : SysOp) (crn : BitVec 4) : Bool :=
  match o with
  | .tlbi => true
  | .gptRange _ => crn == 9
  | .gptAll => crn == 9
  | _ => false

/-- A System operation meets an Undefined Instruction exception: below its lowest level, not allocated, or without the feature of
Allocation Tags or granule protection. -/
def sysUndefined (o : SysOp) (op1 : BitVec 3) (crn crm : BitVec 4) (op2 : BitVec 3) (s : State) : Bool :=
  decide (elNum s.ps.el < sysMinLevel op1) ||
    (mayBeUnallocated o crn && Config.unallocatedSys (selSys op1 crn crm op2)) || (tagSysOp o op2 && !has .MTE s) ||
    (match o with
     | .gptRange _ => !has .RME s
     | .gptAll => !has .RME s
     | _ => false)

/-- `SYS #op1, Cn, Cm, #op2, Xt` without a row of its own: the cache operations, the other address translations
(41_system_instructions.md R149) and TLB invalidations (R141, R142), whose match where it is not by range is elided. An
unallocated operation is UNDEFINED, among the TLB invalidations too; another one the spec does not name (30_encoding.md R122,
93_implementation_defined.md U51). -/
def execSys (op1 : BitVec 3) (crn crm : BitVec 4) (op2 : BitVec 3) (rt : BitVec 5) (s : State) : Result :=
  match sysOpOf op1 crn crm op2 with
  | none => if Config.unallocatedSys (selSys op1 crn crm op2) then undefined s else .refused .sysInstrNotInSpec
  | some o =>
    let num := 16 + (selSys op1 crn crm op2).toNat
    let reserved := op1 != 6 && tlbiReserved s
    if sysUndefined o op1 crn crm op2 s then undefined s
    else match o with
      | .cleanVa => cacheByVa false (readX rt s) s cleanLine
      | .invalidateVa => cacheByVa false (readX rt s) s fun _ s1 => s1
      | .tagVa => cacheByVa false (readX rt s) s fun _ s1 => s1
      | .icAll => .next (advance (invalidateICache s))
      | .setWay => .next (advance s)
      | .at op => addressTranslate op (readX rt s) s
      | .tlbi => .next (advance (if reserved then s else tlbInvalidate (Config.tlbiElided num (readX rt s)) s))
      | .tlbiRange op el => .next (advance (if reserved then s else tlbiRangeOp op num el rt s))
      | .gptRange anyLevel => .next (advance (gptRangeOp anyLevel rt s))
      | .gptAll => .next (advance (gptAllOp num rt s))

/-- `SYSL Xt, #op1, Cn, Cm, #op2`: UNDEFINED where it is not allocated (30_encoding.md R122, 93_implementation_defined.md U51); no
operation of the spec returns a result, so the value is free (30_encoding.md R119). -/
def execSysl (op1 : BitVec 3) (crn crm : BitVec 4) (op2 : BitVec 3) (rt : BitVec 5) (s : State) : Result :=
  if Config.unallocatedSys (selSys op1 crn crm op2) then undefined s
  else .next (advance (writeX rt (Config.freeWord .sysl s.free) s))

end Sys2Proof.Machine
end

