-- ==== Sys2Proof/Machine/Extra.lean ====
section
/-! DEFINITION. The classes of instruction that have a rule and no row of the opcode table (30_encoding.md R119): what they raise
before their effect, and their effect. Their decode is a parameter of Decode. -/

namespace Sys2Proof.Machine

/-! ### A64 -/

/-- ORR (shifted register), 32 bits: an amount of 32 or more is UNDEFINED, which its 5 bits exclude (45_base_subset.md R194). -/
def orrW (shift : BitVec 2) (rm imm5 rn rd : BitVec 5) (s : State) : State :=
  let v := readW rm s
  let k := imm5.toNat
  let m : Half := if shift = 0 then v <<< k else if shift = 1 then v >>> k else if shift = 2 then v.sshiftRight k
    else v.rotateRight k
  advance (writeW rd (readW rn s ||| m) s)

/-- Signed order of the low `n` bits. -/
def lessSigned (n : Nat) (a b : Word) : Bool := (a.setWidth n).slt (b.setWidth n)

/-- Unsigned order of the low `n` bits. -/
def lessUnsigned (n : Nat) (a b : Word) : Bool := (a.setWidth n).ult (b.setWidth n)

/-- What an atomic operation on `n` bits stores: from the old value and the operand. What each LD<op> computes its name says
(PRESUMED, log entry 69: 61_debug_pmu_trace.md R274 gives no operation). -/
def atomicValue (op : AtomicOp) (n : Nat) (old operand : Word) : Word :=
  match op with
  | .smax => if lessSigned n old operand then operand else old
  | .smin => if lessSigned n old operand then old else operand
  | .umax => if lessUnsigned n old operand then operand else old
  | .umin => if lessUnsigned n old operand then old else operand
  | .cas => operand
  | .swp => operand
  | .add => old + operand
  | .clr => old &&& ~~~operand
  | .eor => old ^^^ operand
  | .set => old ||| operand

/-- The descriptor of an atomic operation: alignment is checked as of an Acquire or Release access (20_memory.md R116). -/
def atomicDesc (rn : BitVec 5) : AccDesc :=
  { access := .store, write := true, exclusive := false, unchecked := rn == 31, acqRel := true }

/-- CAS, SWP and LD<op>: the old value to a register, the new one to memory; CAS stores only if the old value is Rs. In one PE
acquire and release add nothing (92_eei_decisions.md D14). CAS_SPEC counts a Compare and Swap (61_debug_pmu_trace.md R274). -/
def atomicEffect (op : AtomicOp) (size : BitVec 2) (rs rn rt : BitVec 5) (s : State) : Result :=
  let n := sizeBytes size
  let low : Word := maskOf 64 0 (8 * n)
  (baseReg rn s).andThen fun va s1 =>
    ((locateAll (atomicDesc rn) n va s1).toAcc (atomicDesc rn)).andThen fun xs s2 =>
      let old := ofBytes 64 (byteOrder (bigEndian s2) (readLocs xs 0 s2).1)
      let u := (readLocs xs 0 s2).2
      let new := atomicValue op (8 * n) old (readX (if op = .cas then rt else rs) s2)
      let store := op != .cas || old == readX rs s2 &&& low
      let t := if store then writeLocs xs (byteOrder (bigEndian u) (bytesOf n new)) u else u
      .next (advance (writeX (if op = .cas then rs else rt) old (if op = .cas then countEvent 0x8174 t else t)))

/-- LDG: the Allocation Tag of a granule to bits [59:56]; the other bits stay (20_memory.md R78). -/
def ldgEffect (imm9 : BitVec 9) (rn rt : BitVec 5) (s : State) : Result :=
  (baseReg rn s).andThen fun base s1 =>
    let va := (base + simmTag imm9) &&& ~~~15
    ((locateGranule (tagDesc false) .goesOn va s1).toAcc (tagDesc false)).andThen fun x s2 =>
      .next (advance (writeX rt (copyBits (readX rt s2) (fieldTo 56 (loadTag x s2)) 56 60) s2))

/-! ### AArch32 -/

/-- An access that moves general-purpose registers, past its trap, if it has one; in Debug state R15 is none of them
(61_debug_pmu_trace.md R308). -/
def a32Move (trap : Option Result) (rs : List (BitVec 4)) (s : State) (k : Result) : Result :=
  noR15InDebug .pcOrPstateInDebugState rs trap s (trap.getD k)

/-- The kind of prediction an instruction restricts. -/
def rctxPred : RctxKind → PredKind
  | .cfp => .controlFlow
  | .cpp => .cachePrefetch
  | .dvp => .dataValue

/-- TTBR0 or TTBR1 of a Security state, where it is banked: Secure copies first. -/
def ttbrCopy (one nonSecure : Bool) : Fin 4 :=
  match nonSecure, one with
  | false, false => 0
  | false, true => 1
  | true, false => 2
  | true, true => 3

/-- A write of TTBR0 or TTBR1 by a function of its old value: the copy of the Security state where EL3 uses AArch32, else the one
register, which is TTBR0_EL1 or TTBR1_EL1 (44_aarch32.md R185, R186). TTBR_WRITE_RETIRED, 0x001C, counts both, each banked copy on
its own (61_debug_pmu_trace.md R267). -/
def writeTtbr (one : Bool) (f : Word → Word) (s : State) : State :=
  let r : SysReg := if one then .TTBR1_EL1 else .TTBR0_EL1
  if parBanked s then
    let n := ttbrCopy one (s.ps.el != .el3 || ictlBit s .scr 0)
    countOnce 0x001C (r, n.val + 1) { s with a32 := { s.a32 with ttbr := s.a32.ttbr.set n (f s.a32.ttbr[n]) } }
  else countWrite r (writeReg r (f (sreg s r)) s)

/-- MCRR of TTBR0 or TTBR1: all 64 bits. UNDEFINED at EL0; the traps are not printed. -/
def mcrrTtbr (one : Bool) (rt rt2 : BitVec 4) (s : State) : Result :=
  a32Move none [rt, rt2] s
    (if s.ps.el = .el0 then undefined s else .next (advance (writeTtbr one (fun _ => readR rt2 s ++ readR rt s) s)))

/-- An access at EL0 to a PMU register, trapped by PMUSERENR_EL0, with EC 0x03. -/
def pmuA32Trap (r : SysReg) (write : Bool) (s : State) : Option Result :=
  match storedTrap r write s with
  | .trap t => some (raise (syncExc t 0x03 0 s) s)
  | _ => none

/-- MRC of PMCR, whose bits are those of PMCR_EL0 (61_debug_pmu_trace.md R262). -/
def mrcPmcr (rt : BitVec 4) (s : State) : Result := mrcOf (pmuA32Trap .PMCR_EL0 false s) rt (a32Pmcr s) s

/-- MCR of PMCR: the value and the resets of PMCR_EL0 (61_debug_pmu_trace.md R262). -/
def mcrPmcr (rt : BitVec 4) (s : State) : Result :=
  a32Move (pmuA32Trap .PMCR_EL0 true s) [rt] s (.next (advance (writeA32Pmcr (readR rt s) s)))

/-- The ISS of a trapped read of CNTVCT: CV, COND, Opc1 1, Rt2, Rt, CRm 14, the direction. -/
def cntvctIss (cond : BitVec 4) (rt rt2 : BitVec 5) : BitVec 25 :=
  ((bitTo 24 true ||| fieldTo 20 cond ||| fieldTo 16 (1#4) ||| fieldTo 10 rt2 ||| fieldTo 5 rt ||| fieldTo 1 (14#4) |||
    bitTo 0 true : Word)).setWidth 25

/-- The trap of a read of CNTVCT (60_exceptions.md R206, R207): at EL0 by CNTKCTL.PL0VCTEN, which is UNDEFINED, or by
CNTKCTL_EL1.EL0VCTEN; then by CNTHCTL_EL2.EL1TVCT, EC 0x04. -/
def cntvctTrap (cond rt rt2 : BitVec 4) (s : State) : Option Result :=
  let iss := cntvctIss cond (a32Index rt s) (a32Index rt2 s)
  if el0CounterTrap true s then
    some (if elUsesA32 .el1 s && !e2hTge s then undefined s else raise (syncExc (ownTarget s) 0x04 iss s) s)
  else if el2CounterTrap true s then some (raise (syncExc .el2 0x04 iss s) s)
  else none

/-- A 64-bit value to two registers. -/
def writePair (rt rt2 : BitVec 4) (v : Word) (s : State) : State := writeR rt2 (field v 32 32) (writeR rt (field v 0 32) s)

/-- MRRC of CNTVCT. -/
def mrrcCntvct (cond rt rt2 : BitVec 4) (s : State) : Result :=
  a32Move (cntvctTrap cond rt rt2 s) [rt, rt2] s (.next (advance (writePair rt rt2 (readCntvct s) s)))

/-- MRRC of CNTVOFF, which is CNTVOFF_EL2[63:0] (60_exceptions.md R247). UNDEFINED below EL2 (PRESUMED, log entry 90). -/
def mrrcCntvoff (rt rt2 : BitVec 4) (s : State) : Result :=
  a32Move none [rt, rt2] s
    (if elNum s.ps.el < 2 then undefined s else .next (advance (writePair rt rt2 (sreg s .CNTVOFF_EL2) s)))

/-- MCRR of CNTVOFF: all 64 bits (60_exceptions.md R247). -/
def mcrrCntvoff (rt rt2 : BitVec 4) (s : State) : Result :=
  a32Move none [rt, rt2] s
    (if elNum s.ps.el < 2 then undefined s else .next (advance (writeReg .CNTVOFF_EL2 (readR rt2 s ++ readR rt s) s)))

/-- The AArch32 ISR: A [8], I [7], F [6]; a virtual interrupt at EL1 with EL2 enabled and HCR_EL2 or HCR routing its kind, by the
Execution state of EL2 (60_exceptions.md R233, R234). -/
def isr32 (s : State) : Half :=
  let virt (n : Nat) : Bool := el2Enabled s && s.ps.el == .el1 &&
    (if elUsesA32 .el2 s then ictlBit s .hcr n else ibit s .HCR_EL2 n)
  (bitTo 8 (if virt 5 then s.intr.vSError else s.intr.serror) |||
    bitTo 7 (if virt 4 then s.intr.vIrq else s.intr.irq) |||
    bitTo 6 (if virt 3 then s.intr.vFiq else s.intr.fiq)).setWidth 32

/-- MRC of ISR: UNDEFINED at EL0. -/
def mrcIsr (rt : BitVec 4) (s : State) : Result :=
  if s.ps.el = .el0 then undefined s else mrcOf none rt (isr32 s) s

/-- The AArch64 register that is an AArch32 one, in its bits [31:0] (PRESUMED, log entries 38 and 90); `none` where AArch32 has a
register of its own. -/
def a32Mapped : A32Name → Option SysReg
  | .mpidr => some .MPIDR_EL1
  | .idMmfr5 => some .ID_MMFR5_EL1
  | .ctr => some .CTR_EL0
  | .cntkctl => some .CNTKCTL_EL1
  | .fpexc => some .FPEXC32_EL2
  | .contextidr => some .CONTEXTIDR_EL1
  | .ttbr0 => some .TTBR0_EL1
  | .ttbr1 => some .TTBR1_EL1
  | .pmccntr => some .PMCCNTR_EL0
  | _ => none

/-- The lowest Exception level that a register can be accessed at (PRESUMED, log entry 90). -/
def a32MinLevel (write : Bool) (r : A32Name) : Nat :=
  match r with
  | .hcr => 2
  | .hcptr => 2
  | .hstr => 2
  | .scr => 3
  | .sdcr => 3
  | .nsacr => if write then 3 else 1
  | .pmccntr => 0
  | _ => 1

/-- The banked copy of TTBR0 or TTBR1 where it is banked, else the one register. -/
def a32Ttbr (one : Bool) (s : State) : Half :=
  if parBanked s then (s.a32.ttbr[ttbrCopy one (s.ps.el != .el3 || ictlBit s .scr 0)]).setWidth 32
  else (sreg s (if one then .TTBR1_EL1 else .TTBR0_EL1)).setWidth 32

/-- The value of an AArch32 register: the fields of MPIDR, ID_MMFR5 and CTR are those of their AArch64 names (10_state.md R28, R37,
R38). -/
def a32Value (r : A32Name) (s : State) : Half :=
  match r with
  | .cpacr => s.a32.cpacr
  | .nsacr => s.a32.nsacr
  | .hcr => s.a32.hcr
  | .hcptr => s.a32.hcptr
  | .hstr => s.a32.hstr
  | .scr => s.a32.scr
  | .sdcr => s.a32.sdcr
  | .ttbr0 => a32Ttbr false s
  | .ttbr1 => a32Ttbr true s
  | other => ((a32Mapped other).map fun q => (storedValue q s).setWidth 32).getD 0

/-- HCR_EL2.TID3 traps a read of ID_MMFR5 at EL1 to EL2, with EC 0x03, as it does one of ID_MMFR5_EL1 (60_exceptions.md R222; that it
does so for the AArch32 name is PRESUMED, log entry 90); an access to PMCCNTR at EL0 by PMUSERENR_EL0. -/
def a32NamedTrap (r : A32Name) (write : Bool) (s : State) : Option Result :=
  match r with
  | .idMmfr5 =>
    if tid3Traps (selReg 1 0 0 3 6) (some (.stored .ID_MMFR5_EL1)) s then some (raise (syncExc .el2 0x03 0 s) s) else none
  | .pmccntr => pmuA32Trap .PMCCNTR_EL0 write s
  | _ => none

/-- A write of an AArch32 register by a value; `none` where it is read-only. Of TTBR0, TTBR1 and PMCCNTR bits [63:32] stay
(44_aarch32.md R186); CID_WRITE_RETIRED counts CONTEXTIDR (61_debug_pmu_trace.md R266). -/
def a32Written (r : A32Name) (v : Half) (s : State) : Option State :=
  match r with
  | .mpidr => none
  | .idMmfr5 => none
  | .ctr => none
  | .cntkctl => some (writeReg .CNTKCTL_EL1 (withLow32 (sreg s .CNTKCTL_EL1) v) s)
  | .fpexc => some (writeReg .FPEXC32_EL2 (withLow32 (sreg s .FPEXC32_EL2) v) s)
  | .cpacr => some (writeCtl .cpacr (v.setWidth 64) s)
  | .nsacr => some (writeCtl .nsacr (v.setWidth 64) s)
  | .hcr => some (writeCtl .hcr (v.setWidth 64) s)
  | .hcptr => some (writeCtl .hcptr (v.setWidth 64) s)
  | .hstr => some (writeCtl .hstr (v.setWidth 64) s)
  | .scr => some (writeCtl .scr (v.setWidth 64) s)
  | .sdcr => some (writeCtl .sdcr (v.setWidth 64) s)
  | .ttbr0 => some (writeTtbr false (fun old => withLow32 old v) s)
  | .ttbr1 => some (writeTtbr true (fun old => withLow32 old v) s)
  | .contextidr => some (countWrite .CONTEXTIDR_EL1 (writeReg .CONTEXTIDR_EL1 (withLow32 (sreg s .CONTEXTIDR_EL1) v) s))
  | .pmccntr => some (setReg .PMCCNTR_EL0 (withLow32 (sreg s .PMCCNTR_EL0) v) s)

/-- MRC or VMRS of a named register. -/
def mrcNamed (r : A32Name) (rt : BitVec 4) (s : State) : Result :=
  if elNum s.ps.el < a32MinLevel false r then undefined s
  else mrcOf (a32NamedTrap r false s) rt (a32Value r s) s

/-- MCR or VMSR of a named register; UNDEFINED where it is read-only. -/
def mcrNamed (r : A32Name) (rt : BitVec 4) (s : State) : Result :=
  if elNum s.ps.el < a32MinLevel true r then undefined s
  else a32Move (a32NamedTrap r true s) [rt] s
    (match a32Written r (readR rt s) s with
     | some t => .next (advance t)
     | none => undefined s)

/-- Scalar floating-point with EL1 in AArch32 needs CPACR.cp10 and FPEXC.EN (44_aarch32.md R182). -/
def a32FpGate (s : State) (k : Result) : Result :=
  if !elUsesA32 .el1 s then vecGate [.fp] s k
  else if enForbids (field (ictl s .cpacr) 20 2) (s.ps.el == .el0) || !ibit s .FPEXC32_EL2 30 then undefined s
  else k

/-- The A32 and T32 ERET: from Hyp mode to ELR_hyp, which is ELR_EL2, from Supervisor mode to LR, with the SPSR of the mode, which is
SPSR_EL2 or SPSR_EL1. UNDEFINED at EL0. Of the other modes, and of Supervisor mode at EL3, the spec names no SPSR (60_exceptions.md
R201; PRESUMED, log entry 102). In Debug state it writes the PC and PSTATE directly (61_debug_pmu_trace.md R308). -/
def eretA32 (s : State) : Result :=
  notHalted none s
    (if s.ps.el = .el0 then undefined s
     else if s.ps.el = .el2 ∧ s.ps.m32 = 0b1010 then returnTo (sreg s .ELR_EL2) s
     else if s.ps.el = .el1 ∧ s.ps.m32 = 0b0011 then returnTo ((readR 14 s).setWidth 64) s
     else .refused .aarch32Return)

/-! ### The classes together -/

/-- What an SVE instruction that is legal in Streaming mode raises before its effect. -/
def sveAnyException (s : State) : Option Result :=
  if !sveExists s then some (undefined s) else vecException (sveUnits s) s

/-- A size that the forms on half, single and double precision do not have. -/
def fpSizeException (size : BitVec 2) (others : Option Result) (s : State) : Option Result :=
  if size = 0 then some (undefined s) else others

/-- What an instruction of these classes raises before its effect: it does not exist, or an enable traps it. -/
def extraException (e : ExtraInstr) (s : State) : Option Result :=
  match e with
  | .sveLoad .regular _ _ _ _ _ _ _ => sveAnyException s
  | .sveLoad _ _ _ _ _ _ _ _ => sveException false s
  | .sveStore _ _ _ _ _ _ => sveAnyException s
  | .ld1ro _ _ _ _ _ => sveException true s
  | .permuteQ _ _ _ _ => sveException true s
  | .svePred _ size _ _ _ => fpSizeException size (sveAnyException s) s
  | .sveImm _ size _ _ _ => fpSizeException size (sveAnyException s) s
  | .svePair _ size _ _ _ => fpSizeException size (if has .SVE2 s then sveAnyException s else some (undefined s)) s
  | .sme => if has .SME s then vecException [.sme, .fp] s else some (undefined s)
  | .scalarH _ _ _ _ => vecException [.fp] s
  | .vector _ size q _ _ _ => fpSizeException (if size = 3 ∧ ¬q then 0 else size) (vecException [.fp] s) s
  | .pairVector _ size q _ _ _ => fpSizeException (if size = 3 ∧ ¬q then 0 else size) (vecException [.fp] s) s
  | .pairScalar _ size _ _ => fpSizeException size (vecException [.fp] s) s
  | .across _ size q _ _ => fpSizeException (if size = 3 ∨ (size = 2 ∧ ¬q) then 0 else size) (vecException [.fp] s) s
  | .fsign _ size _ _ _ => fpSizeException size (vecException [.fp] s) s
  | .fcvta _ size _ _ _ => fpSizeException size (vecException [.fp] s) s
  | .frinta size _ _ => fpSizeException size (vecException [.fp] s) s
  | .ldg _ _ _ => if has .MTE s then none else some (undefined s)
  | _ => none

/-- The access of a predicated SVE load or store. -/
def sveAccess (msize esize : BitVec 2) (off : SveOffset) (pg : BitVec 3) (rn : BitVec 5) : SveAccess :=
  { msize, esize, off, pg, rn }

/-- The effect of an instruction of these classes. Past its check (43_fp_sve_sme.md R167) the spec gives an SME instruction no
effect. -/
def extraEffect (e : ExtraInstr) (s : State) : Result :=
  match e with
  | .sveLoad .regular msize esize signed off pg rn zt => sveLoadRegular (sveAccess msize esize off pg rn) signed zt s
  | .sveLoad .firstFault msize esize signed off pg rn zt => sveLoadFirstFault (sveAccess msize esize off pg rn) signed zt s
  | .sveLoad .nonFault msize esize signed off pg rn zt => sveLoadNonFault (sveAccess msize esize off pg rn) signed zt s
  | .sveStore msize esize off pg rn zt => sveStoreEffect (sveAccess msize esize off pg rn) zt s
  | .ld1ro esize off pg rn zt => ld1roEffect (sveAccess esize esize off pg rn) zt s
  | .permuteQ op zm zn zd => permuteQEffect op zm zn zd s
  | .svePred op size pg zm zdn => .next (svePred op size pg zm zdn s)
  | .sveImm op size pg one zdn => .next (sveImm op size pg one zdn s)
  | .svePair op size pg zm zdn => .next (svePair op size pg zm zdn s)
  | .sme => .refused .smeNotInSpec
  | .scalarH op rm rn rd => .next (fpScalarEffect 16 op rm rn rd s)
  | .vector op size q rm rn rd => .next (fpVector op size q rm rn rd s)
  | .pairVector op size q rm rn rd => .next (fpPairVector op size q rm rn rd s)
  | .pairScalar op size rn rd => .next (fpPairScalar op size rn rd s)
  | .across op size q rn rd => .next (fpAcross op size q rn rd s)
  | .fsign neg size q rn rd => .next (fpSign neg size q rn rd s)
  | .fcvta unsigned size x rn rd => .next (fcvta unsigned size x rn rd s)
  | .frinta size rn rd => .next (frinta size rn rd s)
  | .orrW shift rm imm5 rn rd => .next (orrW shift rm imm5 rn rd s)
  | .atomic op size _ _ rs rn rt => atomicEffect op size rs rn rt s
  | .prfm => .next (advance s)
  | .ldg imm9 rn rt => ldgEffect imm9 rn rt s
  | .rctxA32 kind cond rt => ifCond cond s (a32Move none [rt] s (predRestrict (rctxPred kind) ((readR rt s).setWidth 64) s))
  | .mcrrTtbr one cond rt rt2 => ifCond cond s (mcrrTtbr one rt rt2 s)
  | .mrrcCntvct cond rt rt2 => ifCond cond s (mrrcCntvct cond rt rt2 s)
  | .mrrcCntvoff cond rt rt2 => ifCond cond s (mrrcCntvoff rt rt2 s)
  | .mcrrCntvoff cond rt rt2 => ifCond cond s (mcrrCntvoff rt rt2 s)
  | .mrcIsr cond rt => ifCond cond s (mrcIsr rt s)
  | .mrcPmcr cond rt => ifCond cond s (mrcPmcr rt s)
  | .mcrPmcr cond rt => ifCond cond s (mcrPmcr rt s)
  | .mrcNamed r cond rt => ifCond cond s (mrcNamed r rt s)
  | .mcrNamed r cond rt => ifCond cond s (mcrNamed r rt s)
  | .vcvtBf16 top cond sm sd => ifCond cond s (a32FpGate s (.next (vcvtBf16 top sm sd s)))
  | .vcvtBf16Vec dm dd => if bitAt dm 0 then undefined s else a32SimdGate s (.next (vcvtBf16Vec dm dd s))
  | .wfeA32 narrow cond => ifCondOf narrow cond s (wfeEffect narrow s)
  | .wfiA32 narrow cond => ifCondOf narrow cond s (wfiEffect narrow s)
  | .eretA32 cond => ifCond cond s (eretA32 s)

/-- An instruction of these classes. -/
def execExtra (e : ExtraInstr) (s : State) : Result := (extraException e s).getD (extraEffect e s)
end Sys2Proof.Machine
end

