-- ==== Sys2Proof/Machine/Ls64.lean ====
section
/-! DEFINITION. The single-copy atomic 64-byte loads and stores (42_loadstore_mte_atomics.md R155). Their traps, operands
and status are PRESUMED (log entry 33). -/

namespace Sys2Proof.Machine

/-- Which instruction: LD64B and ST64B, ST64BV, ST64BV0. -/
inductive Ls64 where
  | plain | status | status0
  deriving DecidableEq, Repr

/-- The enable in SCTLR_ELx for EL0: EnALS [56], EnASR [54], EnAS0 [55]. -/
def Ls64.sctlrBit : Ls64 → Nat
  | .plain => 56
  | .status => 54
  | .status0 => 55

/-- The enable in HCRX_EL2 for EL0 and EL1: EnALS [1], EnASR [2], EnAS0 [0]. -/
def Ls64.hcrxBit : Ls64 → Nat
  | .plain => 1
  | .status => 2
  | .status0 => 0

/-- The ISS of the trap. -/
def Ls64.iss : Ls64 → BitVec 25
  | .plain => 2
  | .status => 0
  | .status0 => 1

/-- The traps, EC 0x0A (60_exceptions.md R198). -/
def ls64Trap (k : Ls64) (s : State) : Option EL :=
  if s.ps.el == .el0 && !ibit s (if e2hTge s then .SCTLR_EL2 else .SCTLR_EL1) k.sctlrBit then some (ownTarget s)
  else if (s.ps.el == .el1 || (s.ps.el == .el0 && !e2hTge s)) && el2Enabled s && !ibit s .HCRX_EL2 k.hcrxBit then
    some .el2
  else none

/-- The exception of the trap that applies. -/
def ls64Exception (k : Ls64) (s : State) : Option Result := (ls64Trap k s).map fun t => raise (syncExc t 0x0A k.iss s) s

/-- The registers are Xt to X(t+7): Rt is even and at most 22, else UNDEFINED; then the traps. -/
def ls64Gate (k : Ls64) (rt : BitVec 5) (s : State) (r : Result) : Result :=
  if bitAt rt 0 ∨ 22 < rt.toNat then undefined s else (ls64Exception k s).getD r

/-- The memory type allows the access: Non-cacheable or Device. -/
def ls64Type : MemType → Bool
  | .normalWB => false
  | .normalWBOther => false
  | .normalOther => false
  | _ => true

/-- HCR_EL2.DC gives the memory type: stage 1 of EL1&0 is off by it. -/
def dcType (s : State) : Bool := regime s == .el10 && hcr s 12

/-- The stage an inappropriate memory type is reported for, if there is one: checked for each enabled stage the first that
provides such a type, where HCR_EL2.DC causes no stage 1 abort; or the final enabled stage by the resulting type
(42_loadstore_mte_atomics.md R155). True is stage 2. With no stage enabled the check is made all the same, of the resulting type, and
reported for stage 1 (DESIGN CHOICE, log entry 33: the rule speaks of enabled stages alone). -/
def ls64BadStage (x : Xlat) (s : State) : Option Bool :=
  if s.cfg.ls64PerStage then
    if stage1On s && !ls64Type x.s1Type then some false
    else if stage2On s then (if ls64Type x.s2Type then none else some true)
    else if ls64Type x.type || dcType s then none
    else some false
  else if ls64Type x.type then none
  else some (stage2On s)

/-- The 64 locations: the address is a multiple of 64, the type is checked. -/
def ls64Locate (d : AccDesc) (va : Word) (s : State) : Loc (List Xlat) :=
  if unaligned va 64 then .fault .alignment va s
  else
    (locateBy d 64 (fun x t => (ls64BadStage x t).map fun st2 => .unsupportedAtomic st2 x.ipa) va s).bind fun y s1 =>
      .ok ((List.range 64).map y.plus) s1

/-- The register number `n` after Xt. -/
def nthReg (rt : BitVec 5) (n : Nat) : BitVec 5 := rt + BitVec.ofNat 5 n

/-- Write eight registers from 64 bytes. -/
def writeEight (rt : BitVec 5) (bs : List Byte) (big : Bool) (s : State) : State :=
  (List.range 8).foldl (fun acc n =>
    writeX (nthReg rt n) (ofBytes 64 (byteOrder big ((bs.drop (8 * n)).take 8))) acc) s

/-- The 64 bytes of eight register values. -/
def eightBytes (vs : List Word) (big : Bool) : List Byte := vs.flatMap fun v => byteOrder big (bytesOf 8 v)

/-- The values of eight registers. -/
def readEight (rt : BitVec 5) (s : State) : List Word := (List.range 8).map fun n => readX (nthReg rt n) s

/-- LD64B. -/
def execLd64b (rn rt : BitVec 5) (s : State) : Result :=
  ls64Gate .plain rt s
    ((baseReg rn s).andThen fun va s1 =>
      ((ls64Locate (dataDesc false rn) va s1).toAcc (dataDesc false rn)).andThen fun xs s2 =>
        .next (advance (writeEight rt (readLocs xs 0 s2).1 (bigEndian s) (readLocs xs 0 s2).2)))

/-- Store 64 bytes. -/
def storeEight (vs : List Word) (rn : BitVec 5) (s : State) (k : List Xlat → State → State → Result) : Result :=
  (baseReg rn s).andThen fun va s1 =>
    ((ls64Locate (dataDesc true rn) va s1).toAcc (dataDesc true rn)).andThen fun xs s2 =>
      k xs s2 (writeLocs xs (eightBytes vs (bigEndian s)) s2)

/-- ST64B. -/
def execSt64b (rn rt : BitVec 5) (s : State) : Result :=
  ls64Gate .plain rt s (storeEight (readEight rt s) rn s fun _ _ t => .next (advance t))

/-- A store whose target accepts it or not, and answers with a status, both free. -/
def storeStatus (vs : List Word) (rs rn : BitVec 5) (s : State) : Result :=
  storeEight vs rn s fun _ before t =>
    .next (advance (writeX rs (Config.freeWord .st64bStatus s.free)
      (if Config.freeBool .st64bStatus s.free then t else before)))

/-- ST64BV. -/
def execSt64bv (rs rn rt : BitVec 5) (s : State) : Result :=
  ls64Gate .status rt s (storeStatus (readEight rt s) rs rn s)

/-- The eight values of ST64BV0: bits [31:0] of the first are ACCDATA_EL1. -/
def accdataValues : List Word → Word → List Word
  | [], _ => []
  | v :: vs, acc => withLow32 v (acc.setWidth 32) :: vs

/-- ST64BV0. -/
def execSt64bv0 (rs rn rt : BitVec 5) (s : State) : Result :=
  ls64Gate .status0 rt s (storeStatus (accdataValues (readEight rt s) (ireg s .ACCDATA_EL1)) rs rn s)

end Sys2Proof.Machine
end

