-- ==== Sys2Proof/Machine/SysRegs.lean ====
section
/-! DEFINITION. MRS and MSR: the generic forms and the registers with a row of their own (45_base_subset.md R188). The
accesses themselves are in SysAccess. -/

namespace Sys2Proof.Machine

/-- `MRS Xt, <register>`. -/
def execMrs (o0 : BitVec 1) (op1 : BitVec 3) (crn crm : BitVec 4) (op2 : BitVec 3) (rt : BitVec 5) (s : State) :
    Result :=
  readSys (selReg o0 op1 crn crm op2) rt s

/-- `MSR <register>, Xt`. -/
def execMsr (o0 : BitVec 1) (op1 : BitVec 3) (crn crm : BitVec 4) (op2 : BitVec 3) (rt : BitVec 5) (s : State) :
    Result :=
  writeSys (selReg o0 op1 crn crm op2) rt s

/-- `MRS Xt, RNDR` (41_system_instructions.md R151). -/
def execMrsRndr (rt : BitVec 5) (s : State) : Result := readSys 0x5920 rt s

/-- `MRS Xt, RNDRRS` (41_system_instructions.md R151). -/
def execMrsRndrrs (rt : BitVec 5) (s : State) : Result := readSys 0x5921 rt s

/-- `MRS Xt, CNTPCT_EL0` (60_exceptions.md R243, R244). -/
def execMrsCntpctEl0 (rt : BitVec 5) (s : State) : Result := readSys 0x5F01 rt s

/-- `MRS Xt, CNTVCT_EL0` (60_exceptions.md R206, R248). -/
def execMrsCntvctEl0 (rt : BitVec 5) (s : State) : Result := readSys 0x5F02 rt s

/-- `MRS Xt, CNTPCTSS_EL0` (60_exceptions.md R243, R208). -/
def execMrsCntpctssEl0 (rt : BitVec 5) (s : State) : Result := readSys 0x5F05 rt s

/-- `MRS Xt, CNTVCTSS_EL0` (60_exceptions.md R206, R248). -/
def execMrsCntvctssEl0 (rt : BitVec 5) (s : State) : Result := readSys 0x5F06 rt s

/-- `MRS Xt, ID_AA64SMFR0_EL1` (41_system_instructions.md R146, 60_exceptions.md R221). -/
def execMrsIdAa64smfr0El1 (rt : BitVec 5) (s : State) : Result := readSys 0x4025 rt s

/-- `MRS Xt, CCSIDR_EL1` (41_system_instructions.md R152). -/
def execMrsCcsidrEl1 (rt : BitVec 5) (s : State) : Result := readSys 0x4800 rt s

/-- `MRS Xt, ISR_EL1` (60_exceptions.md R233). -/
def execMrsIsrEl1 (rt : BitVec 5) (s : State) : Result := readSys 0x4608 rt s

/-- `MRS Xt, NZCV` (10_state.md R34, R55). -/
def execMrsNzcv (rt : BitVec 5) (s : State) : Result := readSys 0x5A10 rt s

/-- `MSR NZCV, Xt` (10_state.md R34, R55). -/
def execMsrNzcv (rt : BitVec 5) (s : State) : Result := writeSys 0x5A10 rt s

/-- `MRS Xt, DAIF` (10_state.md R34, R55). -/
def execMrsDaif (rt : BitVec 5) (s : State) : Result := readSys 0x5A11 rt s

/-- `MSR DAIF, Xt` (10_state.md R34, R55). -/
def execMsrDaif (rt : BitVec 5) (s : State) : Result := writeSys 0x5A11 rt s

/-- `MRS Xt, DIT` (10_state.md R34, R55). -/
def execMrsDit (rt : BitVec 5) (s : State) : Result := readSys 0x5A15 rt s

/-- `MSR DIT, Xt` (10_state.md R34, R55). -/
def execMsrDit (rt : BitVec 5) (s : State) : Result := writeSys 0x5A15 rt s

/-- `MRS Xt, RMR_EL1` (70_reset_and_hazards.md R326). -/
def execMrsRmrEl1 (rt : BitVec 5) (s : State) : Result := readSys 0x4602 rt s

/-- `MSR RMR_EL1, Xt` (70_reset_and_hazards.md R326). -/
def execMsrRmrEl1 (rt : BitVec 5) (s : State) : Result := writeSys 0x4602 rt s

/-- `MRS Xt, RMR_EL2` (70_reset_and_hazards.md R326). -/
def execMrsRmrEl2 (rt : BitVec 5) (s : State) : Result := readSys 0x6602 rt s

/-- `MSR RMR_EL2, Xt` (70_reset_and_hazards.md R326). -/
def execMsrRmrEl2 (rt : BitVec 5) (s : State) : Result := writeSys 0x6602 rt s

/-- `MRS Xt, RMR_EL3` (70_reset_and_hazards.md R326). -/
def execMrsRmrEl3 (rt : BitVec 5) (s : State) : Result := readSys 0x7602 rt s

/-- `MSR RMR_EL3, Xt` (70_reset_and_hazards.md R326). -/
def execMsrRmrEl3 (rt : BitVec 5) (s : State) : Result := writeSys 0x7602 rt s

end Sys2Proof.Machine
end

