-- ==== Sys2Proof/Machine/Controls.lean ====
section
/-! DEFINITION. The configurable controls that apply to an instruction, apart from its meaning: what they raise where the instruction
is CONSTRAINED UNPREDICTABLE for another reason (60_exceptions.md R213), and what an instruction raises that a MOVPRFX may stand
before (R216). -/

namespace Sys2Proof.Machine

/-- The selector of an MRS or MSR, its register, and whether it writes. -/
def sysAccessOf (i : Instr) : Option (BitVec 15 × BitVec 5 × Bool) :=
  match i with
  | .mrs o0 op1 crn crm op2 rt => some (selReg o0 op1 crn crm op2, rt, false)
  | .msr o0 op1 crn crm op2 rt => some (selReg o0 op1 crn crm op2, rt, true)
  | .mrsRndr rt => some (0x5920, rt, false)
  | .mrsRndrrs rt => some (0x5921, rt, false)
  | .mrsCntpctEl0 rt => some (0x5F01, rt, false)
  | .mrsCntvctEl0 rt => some (0x5F02, rt, false)
  | .mrsCntpctssEl0 rt => some (0x5F05, rt, false)
  | .mrsCntvctssEl0 rt => some (0x5F06, rt, false)
  | .mrsIdAa64smfr0El1 rt => some (0x4025, rt, false)
  | .mrsCcsidrEl1 rt => some (0x4800, rt, false)
  | .mrsIsrEl1 rt => some (0x4608, rt, false)
  | .mrsNzcv rt => some (0x5A10, rt, false)
  | .msrNzcv rt => some (0x5A10, rt, true)
  | .mrsDaif rt => some (0x5A11, rt, false)
  | .msrDaif rt => some (0x5A11, rt, true)
  | .mrsDit rt => some (0x5A15, rt, false)
  | .msrDit rt => some (0x5A15, rt, true)
  | .mrsRmrEl1 rt => some (0x4602, rt, false)
  | .msrRmrEl1 rt => some (0x4602, rt, true)
  | .mrsRmrEl2 rt => some (0x6602, rt, false)
  | .msrRmrEl2 rt => some (0x6602, rt, true)
  | .mrsRmrEl3 rt => some (0x7602, rt, false)
  | .msrRmrEl3 rt => some (0x7602, rt, true)
  | _ => none

/-- The trap of an access to a System register. -/
def sysControl (sel : BitVec 15) (rt : BitVec 5) (write : Bool) (s : State) : Option Result :=
  match nameOf sel with
  | some r => permissionTrap sel r rt write s
  | none => if !write && idSpace sel && tid3Traps sel none s then some (sysTrap .el2 sel rt true s) else none

/-- The key of an instruction that inserts or checks a Pointer Authentication Code, alone or with a branch or a return. -/
def pacKeyOf (i : Instr) : Option PacKey :=
  match i with
  | .pacia1716 | .paciaz | .paciasp | .pacia _ _ | .paciza _ => some .ia
  | .autia1716 | .autiaz | .autiasp | .autia _ _ | .autiza _ => some .ia
  | .pacib1716 | .pacibz | .pacibsp | .pacib _ _ | .pacizb _ => some .ib
  | .autib1716 | .autibz | .autibsp | .autib _ _ | .autizb _ => some .ib
  | .pacda _ _ | .pacdza _ | .autda _ _ | .autdza _ => some .da
  | .pacdb _ _ | .pacdzb _ | .autdb _ _ | .autdzb _ => some .db
  | .retaa | .braaz _ | .blraaz _ | .braa _ _ | .blraa _ _ => some .ia
  | .retab | .brabz _ | .blrabz _ | .brab _ _ | .blrab _ _ => some .ib
  | _ => none

/-- The base register of a load or store of one register, an exclusive or a tag access. -/
def baseOf (i : Instr) : Option (BitVec 5) :=
  match i with
  | .strX _ rn _ | .ldrX _ rn _ | .ldrXPre _ rn _ => some rn
  | .stgOffset _ rn _ | .stgPost _ rn _ | .stgPre _ rn _ | .stzgm rn _ | .stgm rn _ | .ldgm rn _ => some rn
  | .ldxr rn _ | .ldaxr rn _ => some rn
  | .stxrb _ rn _ | .stlxrb _ rn _ | .stxrh _ rn _ | .stlxrh _ rn _ => some rn
  | .stxrW _ rn _ | .stlxrW _ rn _ | .stxrX _ rn _ | .stlxrX _ rn _ => some rn
  | .stxpW _ _ rn _ | .stlxpW _ _ rn _ | .stxpX _ _ rn _ | .stlxpX _ _ rn _ => some rn
  | _ => none

/-- The exception that a control of its own raises for an instruction of the table, in the state it would run in. -/
def ownControl (i : Instr) (s : State) : Option Result :=
  match i with
  | .wfe => wfeException s
  | .wfi => wfiException s
  | .wfet rd => wfetException rd s
  | .wfit rd => wfitException rd s
  | .msrDaifSetImm crm => daifTrap crm 0b110 s
  | .msrDaifClrImm crm => daifTrap crm 0b111 s
  | .dcZva rt => dczException 1 rt s
  | .dcGva rt => if has .MTE s then dczException 3 rt s else none
  | .dcGzva rt => if has .MTE s then dczException 4 rt s else none
  | .pacga _ _ _ => pacgaTrap s
  | .eret => eretTrap 0 s
  | .eretaa => (eretTrap 2 s).or (pacTrap .ia s)
  | .eretab => (eretTrap 3 s).or (pacTrap .ib s)
  | .ldra m _ _ _ rn _ => (baseException rn s).or (pacTrap (if m = 1 then .db else .da) s)
  | .ld64b rn _ => (ls64Exception .plain s).or (baseException rn s)
  | .st64b rn _ => (ls64Exception .plain s).or (baseException rn s)
  | .st64bv _ rn _ => (ls64Exception .status s).or (baseException rn s)
  | .st64bv0 _ rn _ => (ls64Exception .status0 s).or (baseException rn s)
  | .movprfx _ _ => if sveExists s then vecException (sveUnits s) s else none
  | .movprfxPred _ _ _ _ _ => if sveExists s then vecException (sveUnits s) s else none
  | .fmmlaS _ _ _ => sveException false s
  | .fmmlaD _ _ _ => sveException true s
  | .fmaxS _ _ _ | .fmaxD _ _ _ | .fminS _ _ _ | .fminD _ _ _ => vecException [.fp] s
  | .fmaxnmS _ _ _ | .fmaxnmD _ _ _ | .fminnmS _ _ _ | .fminnmD _ _ _ => vecException [.fp] s
  | _ => none

/-- What the controls raise for an instruction of the table: that of its own, of its key, of the register it names, or of its base
register. -/
def controlBase (i : Instr) (s : State) : Option Result :=
  (ownControl i s).or (((pacKeyOf i).bind (pacTrap · s)).or
    (((sysAccessOf i).bind fun a => sysControl a.1 a.2.1 a.2.2 s).or ((baseOf i).bind (baseException · s))))

/-- What the controls raise for an instruction (60_exceptions.md R213). -/
def controlException (c : Code) (s : State) : Option Result :=
  match c with
  | .base i => controlBase i s
  | .extra e => extraException e s

/-- What an instruction that a MOVPRFX may stand before raises instead of its effect (60_exceptions.md R216). -/
def pairException (c : Code) (s : State) : Option Result :=
  match c with
  | .base (.fmmlaS _ _ _) => sveException false s
  | .base (.fmmlaD _ _ _) => sveException true s
  | .base _ => none
  | .extra e => extraException e s

end Sys2Proof.Machine
end

