-- ==== Sys2Proof/Machine/Exclusive.lean ====
section
/-! DEFINITION. Load-Exclusive and Store-Exclusive (45_base_subset.md R195; 42_loadstore_mte_atomics.md R159, R160;
92_eei_decisions.md D6). In one PE running in program order acquire and release add nothing (D14). Monitor details are
PRESUMED (log entry 34). -/

namespace Sys2Proof.Machine

/-- The reservation granule of a location. -/
def monitorBlock (x : Xlat) (s : State) : Nat := x.key / 2 ^ s.cfg.ergLog2

/-- A Load-Exclusive marks its location in the local monitor and, for shareable memory, in the global one. -/
def markExclusive (x : Xlat) (s : State) : State :=
  { s with
    exTlbi := false
    exLocal := some (monitorBlock x s)
    exGlobal := if x.shareable then some (monitorBlock x s) else s.exGlobal }

/-- The monitors pass; other observers may have cleared one (42_loadstore_mte_atomics.md R159: no fairness). After a TLB
invalidation the physical address need not be compared: whether a held monitor passes is free (20_memory.md R105). -/
def monitorsPass (x : Xlat) (s : State) : Bool :=
  let held := s.exLocal == some (monitorBlock x s) && (!x.shareable || s.exGlobal == some (monitorBlock x s))
  if s.exTlbi && s.exLocal.isSome then Config.freeBool .monitorAfterTlbi s.free
  else held && !Config.freeBool .monitorLost s.free

/-- A Store-Exclusive leaves the local monitor clear, and the global one after a success. -/
def clearMonitors (passed : Bool) (s : State) : State :=
  { s with exLocal := none, exGlobal := if passed then none else s.exGlobal }

/-- The 64-bit Load-Exclusive. -/
def loadExclusive (rn rt : BitVec 5) (s : State) : Result :=
  (baseReg rn s).andThen fun va s1 =>
    ((locateAll (exclusiveDesc false rn) 8 va s1).toAcc (exclusiveDesc false rn)).andThen fun xs s2 =>
      let v := ofBytes 64 (byteOrder (bigEndian s2) (readLocs xs 0 s2).1)
      let t := (readLocs xs 0 s2).2
      .next (advance (writeX rt v (match xs with | x :: _ => markExclusive x t | [] => t)))

/-- The address of a Store-Exclusive, translated for the monitors, its descriptors not yet updated: the alignment to the whole
size is checked first (`ExclusiveMonitorsPass`, 42_loadstore_mte_atomics.md R160). -/
def exclusiveLocate (n : Nat) (rn : BitVec 5) (va : Word) (s : State) : Acc Xlat :=
  (if unaligned va n then Loc.fault .alignment va s
   else (lookup (exclusiveDesc true rn) va s).watched (exclusiveDesc true rn) n va).toAcc (exclusiveDesc true rn)

/-- The location of the store itself, checked; on a fault it is free whether the Access flags of its descriptors are set
(20_memory.md R117). -/
def exclusiveStore (n : Nat) (rn : BitVec 5) (va : Word) (s : State) : Acc Xlat :=
  (locateBy (exclusiveDesc true rn) n (fun _ _ => none) va s).toAcc (exclusiveDesc true rn)

/-- A Store-Exclusive of `n` bytes: 0 to Ws and the store if the monitors pass, else 1 and no store. The status register
must be no source register and not the base (45_base_subset.md R195). -/
def storeExclusive {w : Nat} (n : Nat) (data : BitVec w) (clash : Bool) (rs rn : BitVec 5) (s : State) : Result :=
  if clash || (rs == rn && rn != 31) then unpredictable (baseException rn s) .unpredictable s
  else (baseReg rn s).andThen fun va s1 =>
    (exclusiveLocate n rn va s1).andThen fun x s2 =>
      if monitorsPass x s2 then
        (exclusiveStore n rn va s2).andThen fun y s3 =>
          let t := writeLocs ((List.range n).map y.plus) (byteOrder (bigEndian s3) (bytesOf n data)) s3
          .next (advance (writeX rs 0 (clearMonitors true t)))
      else .next (advance (writeX rs 1 (clearMonitors false (commit x s2))))

/-- LDXR. -/
def execLdxr (rn rt : BitVec 5) (s : State) : Result := loadExclusive rn rt s

/-- LDAXR: a Load-Acquire. -/
def execLdaxr (rn rt : BitVec 5) (s : State) : Result := loadExclusive rn rt s

/-- STXRB. -/
def execStxrb (rs rn rt : BitVec 5) (s : State) : Result :=
  storeExclusive 1 ((readX rt s).setWidth 8) (rs == rt) rs rn s

/-- STLXRB: a Store-Release. -/
def execStlxrb (rs rn rt : BitVec 5) (s : State) : Result :=
  storeExclusive 1 ((readX rt s).setWidth 8) (rs == rt) rs rn s

/-- STXRH. -/
def execStxrh (rs rn rt : BitVec 5) (s : State) : Result :=
  storeExclusive 2 ((readX rt s).setWidth 16) (rs == rt) rs rn s

/-- STLXRH: a Store-Release. -/
def execStlxrh (rs rn rt : BitVec 5) (s : State) : Result :=
  storeExclusive 2 ((readX rt s).setWidth 16) (rs == rt) rs rn s

/-- STXR, 32 bits. -/
def execStxrW (rs rn rt : BitVec 5) (s : State) : Result := storeExclusive 4 (readW rt s) (rs == rt) rs rn s

/-- STLXR, 32 bits: a Store-Release. -/
def execStlxrW (rs rn rt : BitVec 5) (s : State) : Result := storeExclusive 4 (readW rt s) (rs == rt) rs rn s

/-- STXR, 64 bits. -/
def execStxrX (rs rn rt : BitVec 5) (s : State) : Result := storeExclusive 8 (readX rt s) (rs == rt) rs rn s

/-- STLXR, 64 bits: a Store-Release. -/
def execStlxrX (rs rn rt : BitVec 5) (s : State) : Result := storeExclusive 8 (readX rt s) (rs == rt) rs rn s

/-- The data of a pair: the first register at the lower address. -/
def pairData {w : Nat} (lo hi : BitVec w) (s : State) : BitVec (w + w) := if bigEndian s then lo ++ hi else hi ++ lo

/-- STXP, a pair of W registers. -/
def execStxpW (rs rt2 rn rt : BitVec 5) (s : State) : Result :=
  storeExclusive 8 (pairData (readW rt s) (readW rt2 s) s) (rs == rt || rs == rt2) rs rn s

/-- STLXP, a pair of W registers: a Store-Release. -/
def execStlxpW (rs rt2 rn rt : BitVec 5) (s : State) : Result :=
  storeExclusive 8 (pairData (readW rt s) (readW rt2 s) s) (rs == rt || rs == rt2) rs rn s

/-- STXP, a pair of X registers. -/
def execStxpX (rs rt2 rn rt : BitVec 5) (s : State) : Result :=
  storeExclusive 16 (pairData (readX rt s) (readX rt2 s) s) (rs == rt || rs == rt2) rs rn s

/-- STLXP, a pair of X registers: a Store-Release. -/
def execStlxpX (rs rt2 rn rt : BitVec 5) (s : State) : Result :=
  storeExclusive 16 (pairData (readX rt s) (readX rt2 s) s) (rs == rt || rs == rt2) rs rn s

end Sys2Proof.Machine
end

