-- ==== Sys2Proof/Machine/Dispatch.lean ====
section
/-! DEFINITION. The dispatch: one arm for each constructor of `Instr`. -/

namespace Sys2Proof.Machine

def exec (i : Instr) (s : State) : Host.Outcome State Fault Refusal :=
  match i with
  | .nop => Sys2Proof.Machine.execNop s
  | .wfe => Sys2Proof.Machine.execWfe s
  | .wfi => Sys2Proof.Machine.execWfi s
  | .pacia1716 => Sys2Proof.Machine.execPacia1716 s
  | .pacib1716 => Sys2Proof.Machine.execPacib1716 s
  | .autia1716 => Sys2Proof.Machine.execAutia1716 s
  | .autib1716 => Sys2Proof.Machine.execAutib1716 s
  | .csdb => Sys2Proof.Machine.execCsdb s
  | .paciaz => Sys2Proof.Machine.execPaciaz s
  | .paciasp => Sys2Proof.Machine.execPaciasp s
  | .pacibz => Sys2Proof.Machine.execPacibz s
  | .pacibsp => Sys2Proof.Machine.execPacibsp s
  | .autiaz => Sys2Proof.Machine.execAutiaz s
  | .autiasp => Sys2Proof.Machine.execAutiasp s
  | .autibz => Sys2Proof.Machine.execAutibz s
  | .autibsp => Sys2Proof.Machine.execAutibsp s
  | .bti => Sys2Proof.Machine.execBti s
  | .btiC => Sys2Proof.Machine.execBtiC s
  | .btiJ => Sys2Proof.Machine.execBtiJ s
  | .btiJC => Sys2Proof.Machine.execBtiJC s
  | .wfet rd => Sys2Proof.Machine.execWfet rd s
  | .wfit rd => Sys2Proof.Machine.execWfit rd s
  | .sb => Sys2Proof.Machine.execSb s
  | .isb => Sys2Proof.Machine.execIsb s
  | .dsb crm => Sys2Proof.Machine.execDsb crm s
  | .dmb crm => Sys2Proof.Machine.execDmb crm s
  | .dsbNXS imm2 => Sys2Proof.Machine.execDsbNXS imm2 s
  | .clrex crm => Sys2Proof.Machine.execClrex crm s
  | .msrDaifSetImm crm => Sys2Proof.Machine.execMsrDaifSetImm crm s
  | .msrDaifClrImm crm => Sys2Proof.Machine.execMsrDaifClrImm crm s
  | .msrSsbsImm crm => Sys2Proof.Machine.execMsrSsbsImm crm s
  | .msrDitImm crm => Sys2Proof.Machine.execMsrDitImm crm s
  | .msrTcoImm crm => Sys2Proof.Machine.execMsrTcoImm crm s
  | .msrSpselImm crm => Sys2Proof.Machine.execMsrSpselImm crm s
  | .mrs o0 op1 crn crm op2 rt => Sys2Proof.Machine.execMrs o0 op1 crn crm op2 rt s
  | .msr o0 op1 crn crm op2 rt => Sys2Proof.Machine.execMsr o0 op1 crn crm op2 rt s
  | .sys op1 crn crm op2 rt => Sys2Proof.Machine.execSys op1 crn crm op2 rt s
  | .sysl op1 crn crm op2 rt => Sys2Proof.Machine.execSysl op1 crn crm op2 rt s
  | .dcZva rt => Sys2Proof.Machine.execDcZva rt s
  | .dcGva rt => Sys2Proof.Machine.execDcGva rt s
  | .dcGzva rt => Sys2Proof.Machine.execDcGzva rt s
  | .dcCivac rt => Sys2Proof.Machine.execDcCivac rt s
  | .dcCigvac rt => Sys2Proof.Machine.execDcCigvac rt s
  | .dcCigdvac rt => Sys2Proof.Machine.execDcCigdvac rt s
  | .icIvau rt => Sys2Proof.Machine.execIcIvau rt s
  | .dcCipae rt => Sys2Proof.Machine.execDcCipae rt s
  | .dcCigdpae rt => Sys2Proof.Machine.execDcCigdpae rt s
  | .tlbiAlle1 => Sys2Proof.Machine.execTlbiAlle1 s
  | .tlbiAlle1nxs => Sys2Proof.Machine.execTlbiAlle1nxs s
  | .tlbiRvae1 rt => Sys2Proof.Machine.execTlbiRvae1 rt s
  | .tlbiRvaae1 rt => Sys2Proof.Machine.execTlbiRvaae1 rt s
  | .tlbiRipas2e1 rt => Sys2Proof.Machine.execTlbiRipas2e1 rt s
  | .tlbiRpaos rt => Sys2Proof.Machine.execTlbiRpaos rt s
  | .cfpRctx rt => Sys2Proof.Machine.execCfpRctx rt s
  | .dvpRctx rt => Sys2Proof.Machine.execDvpRctx rt s
  | .cppRctx rt => Sys2Proof.Machine.execCppRctx rt s
  | .atS1e1r rt => Sys2Proof.Machine.execAtS1e1r rt s
  | .mrsRndr rt => Sys2Proof.Machine.execMrsRndr rt s
  | .mrsRndrrs rt => Sys2Proof.Machine.execMrsRndrrs rt s
  | .mrsCntpctEl0 rt => Sys2Proof.Machine.execMrsCntpctEl0 rt s
  | .mrsCntvctEl0 rt => Sys2Proof.Machine.execMrsCntvctEl0 rt s
  | .mrsCntpctssEl0 rt => Sys2Proof.Machine.execMrsCntpctssEl0 rt s
  | .mrsCntvctssEl0 rt => Sys2Proof.Machine.execMrsCntvctssEl0 rt s
  | .mrsIdAa64smfr0El1 rt => Sys2Proof.Machine.execMrsIdAa64smfr0El1 rt s
  | .mrsCcsidrEl1 rt => Sys2Proof.Machine.execMrsCcsidrEl1 rt s
  | .mrsIsrEl1 rt => Sys2Proof.Machine.execMrsIsrEl1 rt s
  | .mrsNzcv rt => Sys2Proof.Machine.execMrsNzcv rt s
  | .msrNzcv rt => Sys2Proof.Machine.execMsrNzcv rt s
  | .mrsDaif rt => Sys2Proof.Machine.execMrsDaif rt s
  | .msrDaif rt => Sys2Proof.Machine.execMsrDaif rt s
  | .mrsDit rt => Sys2Proof.Machine.execMrsDit rt s
  | .msrDit rt => Sys2Proof.Machine.execMsrDit rt s
  | .mrsRmrEl1 rt => Sys2Proof.Machine.execMrsRmrEl1 rt s
  | .msrRmrEl1 rt => Sys2Proof.Machine.execMsrRmrEl1 rt s
  | .mrsRmrEl2 rt => Sys2Proof.Machine.execMrsRmrEl2 rt s
  | .msrRmrEl2 rt => Sys2Proof.Machine.execMsrRmrEl2 rt s
  | .mrsRmrEl3 rt => Sys2Proof.Machine.execMrsRmrEl3 rt s
  | .msrRmrEl3 rt => Sys2Proof.Machine.execMsrRmrEl3 rt s
  | .pacga rm rn rd => Sys2Proof.Machine.execPacga rm rn rd s
  | .pacia rn rd => Sys2Proof.Machine.execPacia rn rd s
  | .pacib rn rd => Sys2Proof.Machine.execPacib rn rd s
  | .pacda rn rd => Sys2Proof.Machine.execPacda rn rd s
  | .pacdb rn rd => Sys2Proof.Machine.execPacdb rn rd s
  | .autia rn rd => Sys2Proof.Machine.execAutia rn rd s
  | .autib rn rd => Sys2Proof.Machine.execAutib rn rd s
  | .autda rn rd => Sys2Proof.Machine.execAutda rn rd s
  | .autdb rn rd => Sys2Proof.Machine.execAutdb rn rd s
  | .paciza rd => Sys2Proof.Machine.execPaciza rd s
  | .pacizb rd => Sys2Proof.Machine.execPacizb rd s
  | .pacdza rd => Sys2Proof.Machine.execPacdza rd s
  | .pacdzb rd => Sys2Proof.Machine.execPacdzb rd s
  | .autiza rd => Sys2Proof.Machine.execAutiza rd s
  | .autizb rd => Sys2Proof.Machine.execAutizb rd s
  | .autdza rd => Sys2Proof.Machine.execAutdza rd s
  | .autdzb rd => Sys2Proof.Machine.execAutdzb rd s
  | .ret rn => Sys2Proof.Machine.execRet rn s
  | .retaa => Sys2Proof.Machine.execRetaa s
  | .retab => Sys2Proof.Machine.execRetab s
  | .braaz rn => Sys2Proof.Machine.execBraaz rn s
  | .brabz rn => Sys2Proof.Machine.execBrabz rn s
  | .blraaz rn => Sys2Proof.Machine.execBlraaz rn s
  | .blrabz rn => Sys2Proof.Machine.execBlrabz rn s
  | .braa rn rm => Sys2Proof.Machine.execBraa rn rm s
  | .brab rn rm => Sys2Proof.Machine.execBrab rn rm s
  | .blraa rn rm => Sys2Proof.Machine.execBlraa rn rm s
  | .blrab rn rm => Sys2Proof.Machine.execBlrab rn rm s
  | .eret => Sys2Proof.Machine.execEret s
  | .eretaa => Sys2Proof.Machine.execEretaa s
  | .eretab => Sys2Proof.Machine.execEretab s
  | .drps => Sys2Proof.Machine.execDrps s
  | .ldra m sbit imm9 w rn rt => Sys2Proof.Machine.execLdra m sbit imm9 w rn rt s
  | .svc imm16 => Sys2Proof.Machine.execSvc imm16 s
  | .hvc imm16 => Sys2Proof.Machine.execHvc imm16 s
  | .smc imm16 => Sys2Proof.Machine.execSmc imm16 s
  | .brk imm16 => Sys2Proof.Machine.execBrk imm16 s
  | .hlt imm16 => Sys2Proof.Machine.execHlt imm16 s
  | .stgOffset imm9 rn rt => Sys2Proof.Machine.execStgOffset imm9 rn rt s
  | .stgPost imm9 rn rt => Sys2Proof.Machine.execStgPost imm9 rn rt s
  | .stgPre imm9 rn rt => Sys2Proof.Machine.execStgPre imm9 rn rt s
  | .stzgm rn rt => Sys2Proof.Machine.execStzgm rn rt s
  | .stgm rn rt => Sys2Proof.Machine.execStgm rn rt s
  | .ldgm rn rt => Sys2Proof.Machine.execLdgm rn rt s
  | .ld64b rn rt => Sys2Proof.Machine.execLd64b rn rt s
  | .st64b rn rt => Sys2Proof.Machine.execSt64b rn rt s
  | .st64bv rs rn rt => Sys2Proof.Machine.execSt64bv rs rn rt s
  | .st64bv0 rs rn rt => Sys2Proof.Machine.execSt64bv0 rs rn rt s
  | .ldxr rn rt => Sys2Proof.Machine.execLdxr rn rt s
  | .ldaxr rn rt => Sys2Proof.Machine.execLdaxr rn rt s
  | .stxrb rs rn rt => Sys2Proof.Machine.execStxrb rs rn rt s
  | .stlxrb rs rn rt => Sys2Proof.Machine.execStlxrb rs rn rt s
  | .stxrh rs rn rt => Sys2Proof.Machine.execStxrh rs rn rt s
  | .stlxrh rs rn rt => Sys2Proof.Machine.execStlxrh rs rn rt s
  | .stxrW rs rn rt => Sys2Proof.Machine.execStxrW rs rn rt s
  | .stlxrW rs rn rt => Sys2Proof.Machine.execStlxrW rs rn rt s
  | .stxrX rs rn rt => Sys2Proof.Machine.execStxrX rs rn rt s
  | .stlxrX rs rn rt => Sys2Proof.Machine.execStlxrX rs rn rt s
  | .stxpW rs rt2 rn rt => Sys2Proof.Machine.execStxpW rs rt2 rn rt s
  | .stlxpW rs rt2 rn rt => Sys2Proof.Machine.execStlxpW rs rt2 rn rt s
  | .stxpX rs rt2 rn rt => Sys2Proof.Machine.execStxpX rs rt2 rn rt s
  | .stlxpX rs rt2 rn rt => Sys2Proof.Machine.execStlxpX rs rt2 rn rt s
  | .movzX hw imm16 rd => Sys2Proof.Machine.execMovzX hw imm16 rd s
  | .movzW hw imm16 rd => Sys2Proof.Machine.execMovzW hw imm16 rd s
  | .addX sh imm12 rn rd => Sys2Proof.Machine.execAddX sh imm12 rn rd s
  | .subX sh imm12 rn rd => Sys2Proof.Machine.execSubX sh imm12 rn rd s
  | .subsX sh imm12 rn rd => Sys2Proof.Machine.execSubsX sh imm12 rn rd s
  | .addW sh imm12 rn rd => Sys2Proof.Machine.execAddW sh imm12 rn rd s
  | .subW sh imm12 rn rd => Sys2Proof.Machine.execSubW sh imm12 rn rd s
  | .subsW sh imm12 rn rd => Sys2Proof.Machine.execSubsW sh imm12 rn rd s
  | .orrX shift rm imm6 rn rd => Sys2Proof.Machine.execOrrX shift rm imm6 rn rd s
  | .cbzX imm19 rt => Sys2Proof.Machine.execCbzX imm19 rt s
  | .cbnzX imm19 rt => Sys2Proof.Machine.execCbnzX imm19 rt s
  | .cbzW imm19 rt => Sys2Proof.Machine.execCbzW imm19 rt s
  | .cbnzW imm19 rt => Sys2Proof.Machine.execCbnzW imm19 rt s
  | .bCond imm19 cond => Sys2Proof.Machine.execBCond imm19 cond s
  | .b imm26 => Sys2Proof.Machine.execB imm26 s
  | .strX imm12 rn rt => Sys2Proof.Machine.execStrX imm12 rn rt s
  | .ldrX imm12 rn rt => Sys2Proof.Machine.execLdrX imm12 rn rt s
  | .ldrXPre imm9 rn rt => Sys2Proof.Machine.execLdrXPre imm9 rn rt s
  | .movprfx zn zd => Sys2Proof.Machine.execMovprfx zn zd s
  | .movprfxPred size m pg zn zd => Sys2Proof.Machine.execMovprfxPred size m pg zn zd s
  | .fmmlaS zm zn zda => Sys2Proof.Machine.execFmmlaS zm zn zda s
  | .fmmlaD zm zn zda => Sys2Proof.Machine.execFmmlaD zm zn zda s
  | .fmaxS rm rn rd => Sys2Proof.Machine.execFmaxS rm rn rd s
  | .fmaxD rm rn rd => Sys2Proof.Machine.execFmaxD rm rn rd s
  | .fminS rm rn rd => Sys2Proof.Machine.execFminS rm rn rd s
  | .fminD rm rn rd => Sys2Proof.Machine.execFminD rm rn rd s
  | .fmaxnmS rm rn rd => Sys2Proof.Machine.execFmaxnmS rm rn rd s
  | .fmaxnmD rm rn rd => Sys2Proof.Machine.execFmaxnmD rm rn rd s
  | .fminnmS rm rn rd => Sys2Proof.Machine.execFminnmS rm rn rd s
  | .fminnmD rm rn rd => Sys2Proof.Machine.execFminnmD rm rn rd s
  | .vmovlA32 u d imm3H vd m vm => Sys2Proof.Machine.execVmovlA32 u d imm3H vd m vm s
  | .vmovlT32 u d imm3H vd m vm => Sys2Proof.Machine.execVmovlT32 u d imm3H vd m vm s
  | .csdbA32 cond => Sys2Proof.Machine.execCsdbA32 cond s
  | .csdbT32 => Sys2Proof.Machine.execCsdbT32 s
  | .sbA32 => Sys2Proof.Machine.execSbA32 s
  | .sbT32 => Sys2Proof.Machine.execSbT32 s
  | .mrcDbgdscrint cond rt => Sys2Proof.Machine.execMrcDbgdscrint cond rt s
  | .mcrPar cond rt => Sys2Proof.Machine.execMcrPar cond rt s

end Sys2Proof.Machine
end

