-- ==== Sys2Proof/Machine/Step.lean ====
section
/-! DEFINITION. One step of the machine. -/

namespace Sys2Proof.Machine

/-- The meaning of what the decoder gives. -/
def execCode (c : Code) (s : State) : Result :=
  match c with
  | .base i => exec i s
  | .extra e => execExtra e s

/-- In Debug state an instruction may change what EDSCR shows (61_debug_pmu_trace.md R278, R291). -/
def showDebugState (r : Result) : Result :=
  match r with
  | .next s => .next (updateEDSCRFields s)
  | other => other

/-- A step in Debug state: the next instruction of the ITR, which is UNDEFINED as it is when fetched (30_encoding.md R122), or
nothing. -/
def stepDebug (s : State) : Result :=
  mayReset s fun s =>
    match s.dbg.itr with
    | [] => .next s
    | w :: rest =>
      let s1 := { s with dbg := { s.dbg with itr := rest } }
      match itrDecode w s with
      | some c => showDebugState (withPrefix c (pairException c) (controlException c) s1 (execCode c))
      | none => if itrUndefined w s then showDebugState (undefined s1) else .refused .encodingNotInSpec

/-- The instruction at pc: fetched, checked, run. -/
def stepInstr (s : State) : Result :=
  endSoftStep s (beforeFetch s fun s1 =>
    (fetchInstr s1).andThen fun cg s2 =>
      beforeInstr cg.1 cg.2 s2 fun s3 => withPrefix cg.1 (pairException cg.1) (controlException cg.1) s3 (execCode cg.1))

/-- A step in Non-debug state: what comes from outside, then a step of the wait that has suspended execution, or the instruction at
pc. -/
def stepRun (s : State) : Result :=
  beforeStep s fun s1 =>
    match s1.waiting with
    | some w => .next (waitOn w s1)
    | none => stepInstr s1

/-- The PE's own step. -/
def stepPe (s : State) : Result := if halted s then stepDebug s else stepRun s

/-- One step: the event of another agent that comes next, or the PE's. -/
def step (s : State) : Host.Outcome State Fault Refusal :=
  finish (match s.agents with
    | [] => stepPe s
    | .pe :: rest => stepPe { s with agents := rest }
    | e :: rest => .next (agentStep e { s with agents := rest }))

/-- The state with the instruction of a table word stored where the step fetches its next instruction. -/
def State.withFetchWord (s : State) (nbits w : Nat) : State :=
  let v : Half := BitVec.ofNat 32 (w % 2 ^ nbits)
  placeWord s (tableIsa v) v

end Sys2Proof.Machine
end

