-- ==== Sys2Proof/Safety.lean ====
section
/-! DEFINITION. What a safe run is, and the terms claims use: the canonical form, what an instruction leaves alone. -/

namespace Sys2Proof.Safety

open Sys2Proof.Machine

/-- Memory and tag storage are in their canonical form, so that equal contents are equal data. -/
def Canonical (s : State) : Prop := Memory.wf s.mem = true ∧ sparseWf (0 : BitVec 4) s.tags = true

/-- The machine goes on for `k` steps: no fault and no refusal. -/
def RunsFor (k : Nat) (s : State) : Prop := ∃ t, Host.Core.run Sys2Proof.core k s = .next t

/-- The pc has not run off the top of the address space. -/
def OnTrack (s : State) : Prop := s.offTop = false

/-- EDPRSR.HALTED, bit [4], is 1 exactly in Debug state (61_debug_pmu_trace.md R296). -/
def HaltedAgrees (s : State) : Prop := bitAt s.dbg.edprsr 4 = halted s

/-- The condition flags N, Z, C and V. -/
def flagsOf (s : State) : List Bool := [s.ps.n, s.ps.z, s.ps.c, s.ps.v]

/-- From `s` to `t` the general registers outside `dests`, the stack pointers (but for the current one where `sp` says
so), the condition flags (unless `flags` says that they are set), every byte of memory, and everything else but the pc
and PSTATE.BTYPE are unchanged. -/
structure Frame (dests : List (BitVec 5)) (sp flags : Bool) (s t : State) : Prop where
  regs : ∀ n, n ∉ dests → readX n t = readX n s
  sps : ∀ k : Fin 4, (sp = false ∨ k ≠ spIdx s) → t.sp[k] = s.sp[k]
  nzcv : flags = false → flagsOf t = flagsOf s
  bytes : ∀ k, readByte k t = readByte k s
  rest : t = { s with
    x := t.x, sp := t.sp, pc := t.pc, offTop := t.offTop
    ps := { s.ps with n := t.ps.n, z := t.ps.z, c := t.ps.c, v := t.ps.v, btype := t.ps.btype } }

/-- The address of the next instruction: 4 bytes on, in 32 bits in AArch32 state; in Debug state the pc stays. -/
def nextPc (s : State) : Word :=
  if halted s then s.pc else if s.ps.nRW then ((s.pc + 4).setWidth 32).setWidth 64 else s.pc + 4

/-- The pc was that of the last word of the address space: execution has run off the top (92_eei_decisions.md D3). -/
def lastPc (s : State) : Bool :=
  !halted s && (if s.ps.nRW then s.pc.setWidth 32 == 0xFFFFFFFC#32 else s.pc == 0xFFFFFFFFFFFFFFFC#64)

/-- The pc of `t` is that of the instruction after the one at the pc of `s`; PSTATE.BTYPE is 0. -/
def NextPc (s t : State) : Prop := t.pc = nextPc s ∧ t.offTop = (s.offTop || lastPc s) ∧ t.ps.btype = 0

/-- The pc of `t` is a branch target; PSTATE.BTYPE is `btype`. -/
def BranchedTo (target : Word) (btype : BitVec 2) (s t : State) : Prop :=
  t.pc = target ∧ t.offTop = s.offTop ∧ t.ps.btype = btype

/-- The instruction completes at `s`: no register, flag or byte but what `u` says differs, and the pc moves on. -/
def Completes (i : Instr) (dests : List (BitVec 5)) (sp flags : Bool) (s u t : State) : Prop :=
  exec i s = .next t ∧ Frame dests sp flags u t ∧ NextPc s t

/-- The instruction completes at `s` and changes nothing; it may have suspended execution in a wait, but not in Debug state. -/
def CompletesOrWaits (i : Instr) (w : Wait) (s t : State) : Prop :=
  Completes i [] false false s { s with waiting := t.waiting } t ∧
    (t.waiting = s.waiting ∨ t.waiting = some w ∧ halted s = false)

/-- A wait ends now: an interrupt is pending, the Event Register of a wait for an event is set, or the virtual count has reached the
timeout. -/
def WaitEnds (w : Wait) (s : State) : Prop :=
  wakePending s = true ∨ (w.event = true ∧ s.eventReg = true) ∨
    ∃ v, w.timeout = some v ∧ v.toNat ≤ (readCntvct s).toNat

/-- The value of a register an instruction writes: register 31 reads as zero whatever is written. -/
def Holds (n : BitVec 5) (v : Word) (t : State) : Prop := readX n t = if n = 31 then 0 else v

/-- A location of memory that is neither Device memory nor in a register frame. -/
def ordinary (x : Xlat) : Bool := !isDevice x.type && x.frame.isNone

/-- A location of Device memory outside the register frames. -/
def deviceOnly (x : Xlat) : Bool := isDevice x.type && x.frame.isNone

/-- `u`, but for what a store may change: memory and the staleness of code, the log of Device accesses, and, through a
register frame of the memory map, the registers of the frames, the error records among them. -/
def stored (u t : State) : State :=
  { u with mem := t.mem, stale := t.stale, devLog := t.devLog, frames := t.frames, err := t.err, count := t.count, dbg := t.dbg
           sys := t.sys, trcacvr := t.trcacvr, pmevcntr := t.pmevcntr, pmevtyper := t.pmevtyper }

/-- `u`, but for what a load may change: the log of Device accesses, and EDPRSR, which a read through a register frame acts on. -/
def loaded (u t : State) : State := { u with devLog := t.devLog, dbg := t.dbg }

/-- The updates of descriptors that the entry a walk answers may ask for: none where the walk faults before stage 1 gives its
output. -/
def walkUpdates (d : AccDesc) (a : Word) (s : State) : List DescUpdate :=
  match Config.walk (walkReq d a s) (viewSys s) s.mem with
  | .fault _ _ _ _ => []
  | .stopped e _ => entryUpdates d (walkedEntry d a e s) (withTcr (accessTcr (walkedEntry d a e s) s) s)
  | .entry e => entryUpdates d (walkedEntry d a e s) (withTcr (accessTcr (walkedEntry d a e s) s) s)

/-- An update that sets the Access flag alone. -/
def flagOnly (u : DescUpdate) : DescUpdate := { u with dirty := false }

/-- The updates of descriptors of an access of `n` bytes that was located at `xs`: of each byte of an unaligned one, of the one
translation of an aligned one. -/
def accessUpdates (n : Nat) (va : Word) (xs : List Xlat) : List DescUpdate :=
  if unaligned va n then xs.flatMap (·.updates) else (xs.take 1).flatMap (·.updates)

/-- The bytes `bs` were written to the locations `xs`: in ordinary memory, where no two are the same byte, they read back; to
Device memory they were sent in order; no other byte of memory changed, and no register where no location is in a frame. -/
structure Wrote (xs : List Xlat) (bs : List Byte) (u t : State) : Prop where
  others : ∀ k, k ∉ xs.map Xlat.key → readByte k t = readByte k u
  normal : (∀ x ∈ xs, ordinary x = true) → t.devLog = u.devLog ∧
    ((xs.map Xlat.key).Nodup → xs.map (fun x => readByte x.key t) = bs)
  device : (∀ x ∈ xs, deviceOnly x = true) → t.mem = u.mem ∧ t.stale = u.stale ∧
    t.devLog = ((xs.zip bs).map fun p => (⟨true, p.1.key, p.2⟩ : DeviceAccess)).reverse ++ u.devLog
  frames : (∀ x ∈ xs, x.frame = none) →
    stored u t = { u with mem := t.mem, stale := t.stale, devLog := t.devLog }

/-- The bytes `bs` were read from the locations `xs`: those of memory, where the locations are ordinary. -/
structure DidRead (xs : List Xlat) (bs : List Byte) (u t : State) : Prop where
  length : bs.length = xs.length
  normal : (∀ x ∈ xs, ordinary x = true) → bs = xs.map (fun x => readByte x.key u) ∧ t.devLog = u.devLog
  frames : (∀ x ∈ xs, x.frame = none) → t.dbg = u.dbg

/-- Sixteen bytes at each location are zero, and no other byte of memory differs. -/
structure Zeroed (xs : List Xlat) (u t : State) : Prop where
  zeroes : ∀ x ∈ xs, ∀ k < 16, readByte (x.key + k) t = 0
  others : ∀ k, (∀ x ∈ xs, k < x.key ∨ x.key + 16 ≤ k) → readByte k t = readByte k u

/-- The Allocation Tag of each Tagged location is the one `f` gives its place, where no two are in one granule; the tag
of every other granule is the one it was. -/
structure TagsStored (xs : List Xlat) (f : Nat → BitVec 4) (u t : State) : Prop where
  stored : (xs.map (·.key / 16)).Nodup → ∀ i, ∀ h : i < xs.length, tagged xs[i] u = true → readTag xs[i].key t = f i
  others : ∀ k, (∀ x ∈ xs, tagged x u = true → x.key / 16 ≠ k / 16) → readTag k t = readTag k u

/-- A vector register holds a value up to the vector length; above it, it is zero or as it was (log entry 35); the other
vector registers are unchanged. -/
structure VecWritten (rd : BitVec 5) (v : VReg) (s t : State) : Prop where
  low : readZ rd t &&& maskOf 2048 0 (vecLen s) = v &&& maskOf 2048 0 (vecLen s)
  high : readZ rd t &&& ~~~(maskOf 2048 0 (vecLen s)) = 0 ∨
    readZ rd t &&& ~~~(maskOf 2048 0 (vecLen s)) = readZ rd s &&& ~~~(maskOf 2048 0 (vecLen s))
  others : ∀ n, n ≠ rd → readZ n t = readZ n s

/-- `a` is the low part of a register, or the zero of its sign that a denormal may count as where FPCR.FZ, bit [24], or FIZ,
bit [0], is 1. -/
def FpSource {w : Nat} (v : VReg) (a : BitVec w) (s : State) : Prop :=
  a = v.setWidth w ∨ (bitAt (ireg s .FPCR) 24 || bitAt (ireg s .FPCR) 0) = true ∧
    isDenormal (v.setWidth w : BitVec w) = true ∧ a = signedZero (v.setWidth w : BitVec w)

/-- A scalar floating-point instruction went from `s` to `t` with the result of `f`: the low bits of `rd`, the others zero up to
the vector length; a denormal source may count as a zero of its sign where FPCR.FZ or FIZ is 1, and, where `flushes`, a
denormal result where FZ is 1; FPSR bits are only set, and nothing else changes. -/
structure FpWritten {w : Nat} (rn rm rd : BitVec 5) (f : BitVec w → BitVec w → BitVec w) (flushes : Bool) (s t : State) :
    Prop where
  next : NextPc s t
  frame : Frame [] false false { s with z := t.z, sys := t.sys } t
  value : ∃ a b r, FpSource (readZ rn s) a s ∧ FpSource (readZ rm s) b s ∧
    (r = f a b ∨ flushes = true ∧ bitAt (ireg s .FPCR) 24 = true ∧ isDenormal (f a b) = true ∧ r = signedZero (f a b)) ∧
    VecWritten rd (r.setWidth 2048) s t
  flags : sreg s .FPSR &&& ~~~(sreg t .FPSR) = 0
  others : ∀ q, q ≠ .FPSR → sreg t q = sreg s q

/-- A result is a synchronous Data Abort taken in `s`, with a fault status code, at an address. -/
def DataAbort (status : BitVec 6) (va : Word) (s : State) (res : Result) : Prop :=
  ∃ r : ExcReq, res = raise r s ∧ r.kind = .sync ∧ (r.ec = 0x24 ∨ r.ec = 0x25) ∧ field r.iss 0 6 = status ∧
    r.far = some va ∧ r.ret = s.pc

/-- The fault status code of an Alignment fault (log entry 8). -/
def alignmentStatus : BitVec 6 := 0b100001

/-- The address of granule `k` of a block. -/
def granuleAt (first : Word) (k : Nat) : Word := first + BitVec.ofNat 64 (16 * k)

/-- Each of the `n` granules of a block is in Device memory, by a translation that need not be made again. -/
def BlockIsDevice (d : AccDesc) (n : Nat) (first : Word) (s : State) : Prop :=
  ∀ k < n, rereads .alignment d (granuleAt first k) s = false ∧
    ∃ x v, lookup d (granuleAt first k) s = .ok x v ∧ isDevice x.type = true

/-- A result is an Alignment fault at the address of one of the `n` granules of a block. -/
def BlockAborts (n : Nat) (first : Word) (s : State) (res : Result) : Prop :=
  ∃ k v, k < n ∧ v.pc = s.pc ∧ DataAbort alignmentStatus (granuleAt first k) v res

/-- An instruction that inserts or checks a PAC: its key, whether it is a hint, its register, its modifier. -/
structure PacOp where
  instr : Instr
  key : PacKey
  hint : Bool
  rd : BitVec 5
  modifier : Word

/-- The instructions that insert a PAC (60_exceptions.md R253). -/
def pacInserts (rn rd : BitVec 5) (s : State) : List PacOp := [
  ⟨.pacia rn rd, .ia, false, rd, readXSP rn s⟩, ⟨.pacib rn rd, .ib, false, rd, readXSP rn s⟩,
  ⟨.pacda rn rd, .da, false, rd, readXSP rn s⟩, ⟨.pacdb rn rd, .db, false, rd, readXSP rn s⟩,
  ⟨.paciza rd, .ia, false, rd, 0⟩, ⟨.pacizb rd, .ib, false, rd, 0⟩,
  ⟨.pacdza rd, .da, false, rd, 0⟩, ⟨.pacdzb rd, .db, false, rd, 0⟩,
  ⟨.pacia1716, .ia, true, 17, readX 16 s⟩, ⟨.pacib1716, .ib, true, 17, readX 16 s⟩,
  ⟨.paciasp, .ia, true, 30, readSP s⟩, ⟨.pacibsp, .ib, true, 30, readSP s⟩,
  ⟨.paciaz, .ia, true, 30, 0⟩, ⟨.pacibz, .ib, true, 30, 0⟩]

/-- The instructions that check a PAC (60_exceptions.md R253). -/
def pacChecks (rn rd : BitVec 5) (s : State) : List PacOp := [
  ⟨.autia rn rd, .ia, false, rd, readXSP rn s⟩, ⟨.autib rn rd, .ib, false, rd, readXSP rn s⟩,
  ⟨.autda rn rd, .da, false, rd, readXSP rn s⟩, ⟨.autdb rn rd, .db, false, rd, readXSP rn s⟩,
  ⟨.autiza rd, .ia, false, rd, 0⟩, ⟨.autizb rd, .ib, false, rd, 0⟩,
  ⟨.autdza rd, .da, false, rd, 0⟩, ⟨.autdzb rd, .db, false, rd, 0⟩,
  ⟨.autia1716, .ia, true, 17, readX 16 s⟩, ⟨.autib1716, .ib, true, 17, readX 16 s⟩,
  ⟨.autiasp, .ia, true, 30, readSP s⟩, ⟨.autibsp, .ib, true, 30, readSP s⟩,
  ⟨.autiaz, .ia, true, 30, 0⟩, ⟨.autibz, .ib, true, 30, 0⟩]

/-- A branch to an authenticated address: its key, address and modifier; whether it links; the BTYPE it leaves. -/
structure AuthBranch where
  instr : Instr
  key : PacKey
  address : Word
  modifier : Word
  link : Bool
  btype : BitVec 2

/-- The branches that authenticate their target (40_pauth_bti.md R137; 60_exceptions.md R253). -/
def authBranches (rn rm : BitVec 5) (s : State) : List AuthBranch := [
  ⟨.retaa, .ia, readX 30 s, readSP s, false, 0⟩, ⟨.retab, .ib, readX 30 s, readSP s, false, 0⟩,
  ⟨.braaz rn, .ia, readX rn s, 0, false, branchType rn s⟩, ⟨.brabz rn, .ib, readX rn s, 0, false, branchType rn s⟩,
  ⟨.blraaz rn, .ia, readX rn s, 0, true, 0b10⟩, ⟨.blrabz rn, .ib, readX rn s, 0, true, 0b10⟩,
  ⟨.braa rn rm, .ia, readX rn s, readXSP rm s, false, branchType rn s⟩,
  ⟨.brab rn rm, .ib, readX rn s, readXSP rm s, false, branchType rn s⟩,
  ⟨.blraa rn rm, .ia, readX rn s, readXSP rm s, true, 0b10⟩, ⟨.blrab rn rm, .ib, readX rn s, readXSP rm s, true, 0b10⟩]

/-- A Store-Exclusive: its size, the bytes it stores in the order memory holds them, and whether its status register is
one of its source registers. -/
structure StoreEx where
  instr : Instr
  size : Nat
  bytes : List Byte
  clash : Bool

/-- The Store-Exclusives (42_loadstore_mte_atomics.md R160). -/
def storeExclusives (rs rt2 rn rt : BitVec 5) (s : State) : List StoreEx :=
  let mem (n : Nat) : List Byte := byteOrder (bigEndian s) (bytesOf n (readX rt s))
  let pair (n : Nat) : List Byte := mem n ++ byteOrder (bigEndian s) (bytesOf n (readX rt2 s))
  [⟨.stxrb rs rn rt, 1, mem 1, rs == rt⟩, ⟨.stlxrb rs rn rt, 1, mem 1, rs == rt⟩,
   ⟨.stxrh rs rn rt, 2, mem 2, rs == rt⟩, ⟨.stlxrh rs rn rt, 2, mem 2, rs == rt⟩,
   ⟨.stxrW rs rn rt, 4, mem 4, rs == rt⟩, ⟨.stlxrW rs rn rt, 4, mem 4, rs == rt⟩,
   ⟨.stxrX rs rn rt, 8, mem 8, rs == rt⟩, ⟨.stlxrX rs rn rt, 8, mem 8, rs == rt⟩,
   ⟨.stxpW rs rt2 rn rt, 8, pair 4, rs == rt || rs == rt2⟩, ⟨.stlxpW rs rt2 rn rt, 8, pair 4, rs == rt || rs == rt2⟩,
   ⟨.stxpX rs rt2 rn rt, 16, pair 8, rs == rt || rs == rt2⟩, ⟨.stlxpX rs rt2 rn rt, 16, pair 8, rs == rt || rs == rt2⟩]

/-- System registers that hold what is written, with the selectors of their names. -/
def plainRegs : List (BitVec 15 × SysReg) := [
  (0x4080, .SCTLR_EL1), (0x7080, .SCTLR_EL3), (0x6088, .HCR_EL2), (0x7088, .SCR_EL3), (0x4082, .CPACR_EL1),
  (0x708A, .CPTR_EL3), (0x4102, .TCR_EL1), (0x4200, .SPSR_EL1), (0x4201, .ELR_EL1), (0x7200, .SPSR_EL3),
  (0x7201, .ELR_EL3), (0x4300, .FAR_EL1), (0x4600, .VBAR_EL1), (0x6600, .VBAR_EL2), (0x7600, .VBAR_EL3)]

/-- ISR_EL1 shows the virtual interrupt whose HCR_EL2 bit, AMO, IMO or FMO, has a number (60_exceptions.md R233). -/
abbrev IsrVirtual (n : Nat) (s : State) : Prop := s.ps.el = .el1 ∧ el2Enabled s = true ∧ ibit s .HCR_EL2 n = true

/-- The registers that request a Warm reset (70_reset_and_hazards.md R326). -/
def rmrRegs : List SysReg := [.RMR_EL1, .RMR_EL2, .RMR_EL3]

/-- What a System register holds after an MSR of a value has reached it: a set register gains bits, RES0 bits keep their value or
are clear, the control registers of timers keep two bits (log entry 100). -/
def msrValue (p : SysReg) (v : Word) (s : State) : Word :=
  if p ∈ rmrRegs ++ [.CNTP_CTL_EL0, .CNTV_CTL_EL0, .CNTHP_CTL_EL2, .CNTHV_CTL_EL2, .CNTPS_CTL_EL1] then v &&& 0b11
  else if p ∈ [.PMCNTENSET_EL0, .PMOVSSET_EL0] then sreg s p ||| v
  else if p = .PMBPTR_EL1 then v &&& ~~~(maskOf 64 0 s.cfg.pmbptrRes0)
  else if p = .TRBPTR_EL1 then v &&& ~~~(maskOf 64 0 s.cfg.trbptrRes0)
  else if p ∈ [.HCR_EL2, .SCTLR_EL2, .TCR2_EL2, .HFGRTR_EL2] then
    (v &&& implMask p s) ||| (sreg s p &&& ~~~(implMask p s))
  else v

/-- The state after an MSR of a value to a view of PSTATE, of a stack pointer or of the selected event counter. -/
def viewWritten (k : View) (v : Word) (s : State) : Option State :=
  match k with
  | .NZCV => some { s with ps := { s.ps with n := bitAt v 31, z := bitAt v 30, c := bitAt v 29, v := bitAt v 28 } }
  | .DAIF => some { s with ps := { s.ps with d := bitAt v 9, a := bitAt v 8, i := bitAt v 7, f := bitAt v 6 } }
  | .DIT => some { s with ps := { s.ps with dit := bitAt v 24 } }
  | .SSBS => some { s with ps := { s.ps with ssbs := bitAt v 12 } }
  | .TCO => some { s with ps := { s.ps with tco := bitAt v 25 } }
  | .SPSel => some { s with ps := { s.ps with spsel := bitAt v 0 } }
  | .PAN => some { s with ps := { s.ps with pan := bitAt v 22 } }
  | .ALLINT => some { s with ps := { s.ps with allint := bitAt v 13 } }
  | .SP_EL0 => some { s with sp := s.sp.set 0 v }
  | .SP_EL1 => some { s with sp := s.sp.set 1 v }
  | .SP_EL2 => some { s with sp := s.sp.set 2 v }
  | .PMXEVCNTR_EL0 => some { s with pmevcntr := s.pmevcntr.setIfInBounds (field (ireg s .PMSELR_EL0) 0 5).toNat v }
  | _ => none

/-- The System register that an MSR of a value to a view writes, and what it then holds: CompareValue by TimerValue
(60_exceptions.md R246), or a set of bits that lost those of the value. -/
def viewStores (k : View) (v : Word) (s : State) : Option (SysReg × Word) :=
  let cval (tm : Timer) : Word := (s.count - timerOffset tm s) + (v.setWidth 32).signExtend 64
  match k with
  | .CNTP_TVAL_EL0 => some (.CNTP_CVAL_EL0, cval .el1Phys)
  | .CNTV_TVAL_EL0 => some (.CNTV_CVAL_EL0, cval .el1Virt)
  | .CNTHP_TVAL_EL2 => some (.CNTHP_CVAL_EL2, cval .el2Phys)
  | .CNTHV_TVAL_EL2 => some (.CNTHV_CVAL_EL2, cval .el2Virt)
  | .CNTPS_TVAL_EL1 => some (.CNTPS_CVAL_EL1, cval .el3Phys)
  | .PMCNTENCLR_EL0 => some (.PMCNTENSET_EL0, sreg s .PMCNTENSET_EL0 &&& ~~~v)
  | .PMOVSCLR_EL0 => some (.PMOVSSET_EL0, sreg s .PMOVSSET_EL0 &&& ~~~v)
  | _ => none

/-- The state after an MSR of a value to a register of a numbered family. -/
def numberedWritten (r : RegName) (v : Word) (s : State) : Option State :=
  match r with
  | .stored _ => none
  | .view _ => none
  | .pmevcntr n => some { s with pmevcntr := s.pmevcntr.set n v }
  | .pmevtyper n =>
    some { s with pmevtyper := s.pmevtyper.set n v, pendCtl := (.pmevtyper n, s.pmevtyper[n]) :: s.pendCtl }
  | .brbsrc n => some { s with brbsrc := s.brbsrc.set n v }
  | .brbtgt n => some { s with brbtgt := s.brbtgt.set n v }
  | .brbinf n => some { s with brbinf := s.brbinf.set n v }
  | .trcacvr n => some { s with trcacvr := s.trcacvr.set n v }

/-- The range `[lo, hi)` overlaps the block of `2 ^ size` bytes that holds `base`, in the low `n` bits of the addresses
(41_system_instructions.md R141, R142). -/
def Overlaps (n : Nat) (lo hi base : Word) (size : Nat) : Prop :=
  lo.toNat % 2 ^ n ≤ (base ||| BitVec.ofNat 64 (2 ^ size - 1)).toNat % 2 ^ n ∧
    (base &&& ~~~(BitVec.ofNat 64 (2 ^ size - 1))).toNat % 2 ^ n < hi.toNat % 2 ^ n

/-- Registers that only a privileged Exception level can write: control of translation, of traps, of exceptions. -/
def privileged : List SysReg :=
  [.SCTLR_EL1, .SCTLR_EL2, .SCTLR_EL3, .HCR_EL2, .SCR_EL3, .CPACR_EL1, .CPTR_EL2, .CPTR_EL3, .TCR_EL1, .TCR_EL2, .TCR_EL3,
   .TTBR0_EL1, .TTBR1_EL1, .TTBR0_EL2, .TTBR1_EL2, .TTBR0_EL3, .VTTBR_EL2, .VBAR_EL1, .VBAR_EL2, .VBAR_EL3,
   .MDCR_EL2, .MDCR_EL3, .GPCCR_EL3, .CNTHCTL_EL2, .CNTVOFF_EL2, .CNTPOFF_EL2]

end Sys2Proof.Safety
end

