-- ==== Sys2Proof/Certificates/Slice0/Obligations.lean ====
section
/-! DEFINITION. The statements for the provers. -/

open Sys2Proof Sys2Proof.Machine Sys2Proof.Safety

/-- The memory and the tag storage of State.reset are in canonical form, EDPRSR.HALTED agrees with EDSCR.STATUS, and
the pc has not run off the top. (92_eei_decisions.md D10, 61_debug_pmu_trace.md R296) -/
def Obligations.ResetMeetsInvariants : Prop :=
  Canonical State.reset ∧ HaltedAgrees State.reset ∧ OnTrack State.reset

/-- For every state whose memory and tag storage are canonical, if a step answers a next state, that state is
canonical too, and its pc has not run off the top of the address space. (20_memory.md R58, 92_eei_decisions.md D3) -/
def Obligations.StepKeepsCanonical : Prop :=
  ∀ s t : State, Canonical s → step s = .next t → Canonical t ∧ OnTrack t

/-- For every state in which EDPRSR.HALTED is 1 exactly when EDSCR.STATUS says Debug state, if a step answers a next
state, the same holds there: entering Debug state writes both at once and nothing else writes either.
(61_debug_pmu_trace.md R296) -/
def Obligations.StepKeepsHaltedAgrees : Prop :=
  ∀ s t : State, HaltedAgrees s → step s = .next t → HaltedAgrees t

/-- If a step with no Warm reset requested, that does not follow a MOVPRFX, goes on in a higher Exception level, it
took an exception there: the pc is the vector base of the new level, VBAR_ELx as the entry sees it, plus an offset of
the vector table, PSTATE.{D,A,I,F} and SP are 1, nRW and IL are 0, and the SPSR of the new level holds the old PSTATE.
Two clauses are the model's choice: the group of the vector table by the Execution state that is left (log entry 10),
and the same entry in Debug state (log entry 64). A step right after a MOVPRFX and one with a Warm reset requested are
left out. (60_exceptions.md R196, 60_exceptions.md R200, 92_eei_decisions.md D12, 70_reset_and_hazards.md R332, log
entry 10, log entry 64) -/
def Obligations.LevelRisesOnlyByException : Prop :=
  ∀ s t : State, s.warmReset = .none → s.movprfx = none → step s = .next t → elNum s.ps.el < elNum t.ps.el →
    (∃ k : VectorKind, t.pc = vectorBase t.ps.el s + vectorOffset t.ps.el k s) ∧
    t.ps.d = true ∧ t.ps.a = true ∧ t.ps.i = true ∧ t.ps.f = true ∧ t.ps.spsel = true ∧ t.ps.nRW = false ∧
    t.ps.il = false ∧ sreg t (spsrReg t.ps.el) = spsrOf s

/-- For every state at EL0 with no Warm reset requested, whatever the next instruction is, even if it takes an
exception, and whatever event of another agent comes next, the registers of the list privileged (SCTLR_ELx, HCR_EL2,
SCR_EL3, the trap, translation and vector base registers) are unchanged by a step that goes on. That op1 gives the
lowest level of a name is the model's (log entry 8). (60_exceptions.md R196, 45_base_subset.md R188, log entry 8) -/
def Obligations.PrivilegedRegistersKeptAtEL0 : Prop :=
  ∀ (s t : State) (r : SysReg), s.ps.el = .el0 → s.warmReset = .none → step s = .next t → r ∈ privileged →
    sreg t r = sreg s r

/-- For every well-formed instruction, of the three instruction sets, with every operand at every value, decoding the
bytes of its encoding gives that instruction and leaves no byte. (30_encoding.md R119, 30_encoding.md R120,
44_aarch32.md R183) -/
def Obligations.DecodeEncode : Prop :=
  ∀ i : Instr, i.wf = true → decode i.isa (encode i) = .ok (i, [])

/-- Thirteen words, written out bit by bit from the encoding tables, decode to the instruction and operands they stand
for: a hint, a barrier, MOVZ, ADD, a load, SVC, B, a write of RMR_EL3, FMAX, PACIA, STXR, and the T32 and A32 forms of
a hint and a barrier. They are samples, not one of every family. (30_encoding.md R119, 30_encoding.md R120,
opcode_table.json) -/
def Obligations.DecodeSampleWords : Prop :=
  decode .a64 [0x1F#8, 0x20#8, 0x03#8, 0xD5#8] = .ok (.nop, []) ∧
  decode .a64 [0x9F#8, 0x3F#8, 0x03#8, 0xD5#8] = .ok (.dsb 0b1111, []) ∧
  decode .a64 [0x61#8, 0x00#8, 0x80#8, 0xD2#8] = .ok (.movzX 0 3 1, []) ∧
  decode .a64 [0x20#8, 0x04#8, 0x00#8, 0x91#8] = .ok (.addX 0 1 1 0, []) ∧
  decode .a64 [0x20#8, 0x8C#8, 0x40#8, 0xF8#8] = .ok (.ldrXPre 8 1 0, []) ∧
  decode .a64 [0x21#8, 0x00#8, 0x00#8, 0xD4#8] = .ok (.svc 1, []) ∧
  decode .a64 [0x00#8, 0x00#8, 0x00#8, 0x14#8] = .ok (.b 0, []) ∧
  decode .a64 [0x41#8, 0xC0#8, 0x1E#8, 0xD5#8] = .ok (.msrRmrEl3 1, []) ∧
  decode .a64 [0x20#8, 0x48#8, 0x22#8, 0x1E#8] = .ok (.fmaxS 2 1 0, []) ∧
  decode .a64 [0x41#8, 0x00#8, 0xC1#8, 0xDA#8] = .ok (.pacia 2 1, []) ∧
  decode .a64 [0x41#8, 0x7C#8, 0x00#8, 0xC8#8] = .ok (.stxrX 0 2 1, []) ∧
  decode .t32 [0xAF#8, 0xF3#8, 0x14#8, 0x80#8] = .ok (.csdbT32, []) ∧
  decode .a32 [0x70#8, 0xF0#8, 0x7F#8, 0xF5#8] = .ok (.sbA32, [])

/-- Not in Debug state, with no event of another agent queued, no Warm reset requested, no interrupt taken now and no
wait in progress, software step not active, PSTATE.IL 0, the pc aligned, the instruction bytes located and
synchronised, no breakpoint there, decoding to a well-formed instruction, a compatible landing in a guarded page and
no MOVPRFX before: the step is that instruction's exec and the end of the step. If exec goes on without running off
the top, the step goes on, and all that differs from exec's state is the cycle counter, the system count, the Event
Register, which the event stream may set, the predictions and the counter of free values. (00_scope.md R14,
92_eei_decisions.md D3, 92_eei_decisions.md D7, 40_pauth_bti.md R138, 93_implementation_defined.md U52) -/
def Obligations.StepRunsDecodedInstruction : Prop :=
  ∀ (s s1 : State) (xs : List Xlat) (i : Instr),
    s.agents = [] → halted s = false → s.warmReset = .none → chosenInterrupt s = none → s.waiting = none →
    softStep s = false →
    s.ps.il = false → pcAligned s = true → fetchLocs s = .ok xs s1 → breakpointEvent s1 = none →
    (∀ x ∈ xs, staleAt x s1 = false) →
    decode (curIsa s) (xs.map fun x => readByte x.key s1) = .ok (i, []) → i.wf = true →
    (xs.any (·.guarded) = false ∨ btiCompatible i s1 = true) → s1.movprfx = none →
    step s = finish (exec i s1) ∧
    ∀ t, exec i s1 = .next t → t.offTop = false →
      ∃ u, step s = .next u ∧
        u = { t with sys := u.sys, count := t.count + Config.ticks t.free, eventReg := u.eventReg
                     predictions := u.predictions, free := t.free + 1 } ∧
        (t.eventReg = true → u.eventReg = true) ∧ ∀ r, r ≠ .PMCCNTR_EL0 → sreg u r = sreg t r

/-- State.reset, and the state after a Warm reset taken in any state, have PSTATE.SP and PSTATE.{D,A,I,F} 1, SS, IL,
DIT, SM, ZA and nRW 0, PACM 0 where FEAT_PAuth_LR is implemented, the highest implemented Exception level, and the pc
at the reset address; the level and the address are those of 92_eei_decisions.md D10. That a Warm reset leaves memory
and Allocation Tags is the model's choice (log entry 47). (70_reset_and_hazards.md R327, 70_reset_and_hazards.md R330,
92_eei_decisions.md D10, log entry 47) -/
def Obligations.ResetLeaves : Prop :=
  ∀ (s t : State) (ro : SysReg → Bool) (all : List SysReg), t = State.reset ∨ t = takeWarmReset ro all s →
    t.ps.spsel = true ∧ t.ps.d = true ∧ t.ps.a = true ∧ t.ps.i = true ∧ t.ps.f = true ∧ t.ps.ss = false ∧
    t.ps.il = false ∧ t.ps.dit = false ∧ t.ps.sm = false ∧ t.ps.za = false ∧ t.ps.nRW = false ∧
    (has .PAuth_LR t = true → t.ps.pacm = false) ∧ t.ps.el = highestEL t ∧ t.pc = t.cfg.resetAddress ∧
    (t = takeWarmReset ro all s → t.mem = s.mem ∧ t.tags = s.tags)

/-- Taking an exception to ELx saves PSTATE in SPSR_ELx, the return address in ELR_ELx, the syndrome in ESR_ELx unless
it is an IRQ or FIQ, and the fault address in FAR_ELx where it has one; sets D, A, I, F and SP, clears SS, IL, BTYPE
and nRW, makes ELx current, sets PAN as R250 says; the pc is VBAR_ELx plus the offset of where it comes from and of
its kind. VBAR_ELx and SPAN are as the entry sees them: where it is a Context synchronization event the values that
the registers hold, else those of an indirect read. Flags, memory, stack pointers, vector registers and, from AArch64
state, the general registers stay. It is taken in Non-debug state to a level that uses AArch64. The model's choices in
it: the PSTATE fields that R200 does not name (SSBS, DIT, TCO, UAO, ALLINT, SM, ZA and the flags) are kept (log entry
9), the group of the vector table goes by the Execution state that is left (log entry 10), SCTLR_ELx.SPAN is bit [23]
(log entry 8), and the vector registers keep their bits at a change of Exception level, since MaybeZeroSVEUppers is
not printed (log entry 35). (60_exceptions.md R200, 60_exceptions.md R250, 92_eei_decisions.md D12, 10_state.md R46,
70_reset_and_hazards.md R323, 70_reset_and_hazards.md R332, log entry 8, log entry 9, log entry 10, log entry 35) -/
def Obligations.TakingAnException : Prop :=
  ∀ (r : ExcReq) (s : State), halted s = false → elUsesA32 r.target s = false → ∃ t, raise r s = .next t ∧
    sreg t (spsrReg r.target) = spsrOf s ∧ sreg t (elrReg r.target) = r.ret ∧
    (r.kind = .sync ∨ r.kind = .serror → sreg t (esrReg r.target) = syndrome r) ∧
    (∀ a, r.far = some a → sreg t (farReg r.target) = a) ∧
    t.pc = vectorBase r.target s +
      ((if r.target = s.ps.el then (if s.ps.spsel then 0x200 else 0x000) else if s.ps.nRW then 0x600 else 0x400) +
       (match r.kind with | .sync => 0x000 | .irq => 0x080 | .fiq => 0x100 | .serror => 0x180)) ∧
    t.ps = { s.ps with
      d := true, a := true, i := true, f := true, ss := false, il := false, btype := 0, nRW := false, t := false
      el := r.target, spsel := true, pan := t.ps.pan } ∧
    t.ps.pan = (s.ps.pan || (r.target == .el1 && !ibit (entryContext r.target s) .SCTLR_EL1 23) ||
      (s.ps.el == .el0 && r.target == .el2 && e2hTge (entryContext r.target s) &&
        !ibit (entryContext r.target s) .SCTLR_EL2 23)) ∧
    (entrySynchronises r.target s = true → vectorBase r.target s = sreg s (vbarReg r.target) ∧
      ∀ q, ireg (entryContext r.target s) q = sreg s q) ∧
    (entrySynchronises r.target s = false → vectorBase r.target s = ireg s (vbarReg r.target)) ∧
    (s.ps.nRW = false → t.x = s.x) ∧ t.sp = s.sp ∧ t.mem = s.mem ∧ t.tags = s.tags ∧ t.z = s.z ∧ t.p = s.p ∧
    t.dbg = s.dbg ∧ t.intr = s.intr

/-- Without FEAT_ExS, or with SCTLR_ELx.EIS of the target level 1 as an indirect read before the entry sees it (bit
[22], the place is the model's, log entry 8), exception entry leaves no unsynchronised write, and every indirect read
then sees the value a direct read gives; with FEAT_ExS and EIS 0 the unsynchronised writes stay. From AArch32 state
each general register keeps its value or loses its upper half. (60_exceptions.md R204, 70_reset_and_hazards.md R323,
70_reset_and_hazards.md R324, log entry 8) -/
def Obligations.ExceptionEntrySynchronises : Prop :=
  ∀ (r : ExcReq) (s : State),
    ((has .ExS s = false ∨ ibit s (sctlrAt r.target) 22 = true) →
      (takeException r s).pend = [] ∧ (takeException r s).pendCtl = [] ∧
        (∀ q, ireg (takeException r s) q = sreg (takeException r s) q) ∧
        ∀ q, ictl (takeException r s) q = ctlReg (takeException r s) q) ∧
    ((has .ExS s = true ∧ ibit s (sctlrAt r.target) 22 = false) → (takeException r s).pend = s.pend ∧
      (takeException r s).pendCtl = s.pendCtl) ∧
    ∀ n, readX n (takeException r s) = readX n s ∨
      (s.ps.nRW = true ∧ readX n (takeException r s) = ((readX n s).setWidth 32).setWidth 64)

/-- At EL1 or above, not in Debug state, not trapped, with no unmasked SError pending: ERET, and ERETAA and ERETAB
where the key is disabled or the address authenticates, go on. To an AArch64 level that the SPSR may return to, the pc
is ELR_ELx (for ERETAA and ERETAB with the key enabled, stripped of its PAC), the level and stack pointer are those of
M[3:0], and N, Z, C, V, D, A, I, F and IL are the SPSR's; general registers, stack pointers and memory stay. The
model's choices in it: the local monitor is clear (log entry 23), the places of the fields in the SPSR (log entry 8),
the registers of the keys (log entry 97), the TBI bit that decides where the PAC field ends (log entry 99), and what
the field holds once it is stripped and what ComputePAC is given (log entry 105). A return to an AArch32 mode is left
out. (60_exceptions.md R201, 10_state.md R46, 60_exceptions.md R218, 40_pauth_bti.md R137, log entry 8, log entry 23,
log entry 97, log entry 99, log entry 105) -/
def Obligations.ExceptionReturns : Prop :=
  ∀ (s : State) (i : Instr) (a : Word) (el : EL) (sp : Bool),
    halted s = false → s.ps.el ≠ .el0 → eretTrapped s = false → intReady .serror s = false →
    (i = .eret ∧ a = sreg s (elrReg s.ps.el) ∨
     (∃ k, (i = .eretaa ∧ k = PacKey.ia ∨ i = .eretab ∧ k = PacKey.ib) ∧ has .PAuth s = true ∧
       (sctlr s k.enable = false ∧ a = sreg s (elrReg s.ps.el) ∨
        sctlr s k.enable = true ∧ apiTraps s = false ∧
          pacCorrect k (sreg s (elrReg s.ps.el)) (readSP s) s = true ∧
          a = pacStrip (pacField false (sreg s (elrReg s.ps.el)) s) (sreg s (elrReg s.ps.el))))) →
    ∀ spsr, spsr = sreg s (spsrReg s.ps.el) → bitAt spsr 4 = false →
    illegalReturn spsr (if returnSynchronises s then syncContext s else s) = false →
    modeTarget (field spsr 0 4) = some (el, sp) →
    ∃ t, exec i s = .next t ∧ t.pc = a ∧ t.ps.el = el ∧ t.ps.spsel = sp ∧ t.ps.nRW = false ∧
      t.ps.n = bitAt spsr 31 ∧ t.ps.z = bitAt spsr 30 ∧ t.ps.c = bitAt spsr 29 ∧ t.ps.v = bitAt spsr 28 ∧
      t.ps.il = bitAt spsr 20 ∧ t.ps.d = bitAt spsr 9 ∧ t.ps.a = bitAt spsr 8 ∧ t.ps.i = bitAt spsr 7 ∧
      t.ps.f = bitAt spsr 6 ∧ t.exLocal = none ∧ t.x = s.x ∧ t.sp = s.sp ∧ t.mem = s.mem ∧ t.tags = s.tags ∧
      t.sys = s.sys

/-- An SPSR whose M[3:0] is reserved, or names a higher Exception level than the current one, or one that is not
implemented, makes an ERET that goes on leave the level, the stack pointer select and the Execution state as they are,
with PSTATE.IL 1; the pc is ELR_ELx. An instruction that follows then gives an Illegal Execution state exception, EC
0x0E, where software step is off. (60_exceptions.md R201, 10_state.md R46) -/
def Obligations.IllegalReturnSetsIL : Prop :=
  ∀ (s : State) (spsr : Word), halted s = false → s.ps.el ≠ .el0 → s.ps.nRW = false → eretTrapped s = false →
    intReady .serror s = false → spsr = sreg s (spsrReg s.ps.el) → bitAt spsr 4 = false →
    (modeTarget (field spsr 0 4) = none ∨
      ∃ el sp, modeTarget (field spsr 0 4) = some (el, sp) ∧ (elNum s.ps.el < elNum el ∨ haveEL el s = false)) →
    ∃ t, exec .eret s = .next t ∧ t.pc = sreg s (elrReg s.ps.el) ∧ t.ps.il = true ∧ t.ps.el = s.ps.el ∧
      t.ps.spsel = s.ps.spsel ∧ t.ps.nRW = false ∧
      (s.dbg.softwareStep = false → ∀ k, beforeFetch t k = raise (syncExc (ownTarget t) 0x0E 0 t) t)

/-- NOP, CSDB, SB and BTI of every form, in the three instruction sets, DMB, CFP RCTX, DVP RCTX and CPP RCTX complete
in every state and change no register, flag, System register or byte of memory; the pc moves on and PSTATE.BTYPE
becomes 0. The three restrictions keep only predictions that were there, and none of their kind trained at the level,
in the Security state and in the context that Xt names, unless Xt names a level above the current one or a level and
Security state not implemented. The model's choices in it: the level is Xt[25:24], the Security state that Xt names is
Config.rctxSpace and the rest of the context Config.rctxContext (log entry 71), and no control traps the restrictions
(log entry 12). (20_memory.md R86, 20_memory.md R97, 40_pauth_bti.md R136, 41_system_instructions.md R143,
20_memory.md R66, 20_memory.md R87, log entry 12, log entry 71) -/
def Obligations.HintsAreNops : Prop :=
  ∀ (s : State) (crm cond : BitVec 4) (rt : BitVec 5),
    (∀ i ∈ [Instr.nop, .csdb, .sb, .bti, .btiC, .btiJ, .btiJC, .dmb crm, .csdbA32 cond, .csdbT32, .sbA32, .sbT32],
      ∃ t, Completes i [] false false s s t) ∧
    ∀ (j : Instr) (k : PredKind),
      (j, k) ∈ [(Instr.cfpRctx rt, PredKind.controlFlow), (.dvpRctx rt, .dataValue), (.cppRctx rt, .cachePrefetch)] →
      ∃ t, Completes j [] false false s { s with predictions := t.predictions } t ∧
        ∀ p, p ∈ t.predictions ↔ p ∈ s.predictions ∧ (rctxNop (readX rt s) s = true ∨
          ¬(p.kind = k ∧ elNum p.el = (field (readX rt s) 24 2).toNat ∧ p.space = Config.rctxSpace (readX rt s) ∧
            Config.rctxContext (readX rt s) p.space p.addr = true))

/-- WFE, and WFET with FEAT_WFxT, clear a set Event Register and complete; with it clear they complete, where no
control traps them, or the pc moves on and execution is suspended in a wait. WFI, and WFIT with FEAT_WFxT, complete
with an interrupt pending; where no control traps them they complete or wait, WFI only where it does not end the
sequence of R326 that resets. WFET and WFIT whose timeout is reached complete, trapped or not. Nothing else changes. A
PE that waits, with no Warm reset requested, no interrupt taken now and no event of another agent, goes on with the
pc, registers, System registers but the cycle counter, flags and memory as they are: the wait is over where an
interrupt is pending, the Event Register of a WFE or WFET is set or the timeout is reached, and goes on where none of
these holds. Which of the two a wait does is a draw (93_implementation_defined.md U52); what ends it, and that none
begins in Debug state, is the model's choice (log entry 40). Where a control traps the wait of one of the four to ELx,
and it would wait (the Event Register clear, or no interrupt pending; the timeout of WFET and WFIT not reached), it
takes the exception with EC 0x01. That the timeout is reached when the virtual count is at least Xt is the model's
choice (log entry 100). (60_exceptions.md R214, 60_exceptions.md R229, 45_base_subset.md R190, 10_state.md R45,
70_reset_and_hazards.md R326, log entry 40, log entry 85, log entry 100, 93_implementation_defined.md U52) -/
def Obligations.WaitsCompleteOrTrap : Prop :=
  ∀ (s : State) (rd : BitVec 5),
    (s.eventReg = true → ∃ t, Completes .wfe [] false false s { s with eventReg := false } t) ∧
    (s.eventReg = true → has .WFxT s = true →
      ∃ t, Completes (.wfet rd) [] false false s { s with eventReg := false } t) ∧
    (s.eventReg = false → waitTrap true s = none → ∃ t, CompletesOrWaits .wfe ⟨true, none⟩ s t) ∧
    (s.eventReg = false → waitTrap true s = none → has .WFxT s = true →
      ∃ t, CompletesOrWaits (.wfet rd) ⟨true, some (readX rd s)⟩ s t) ∧
    (wakePending s = true → ∃ t, Completes .wfi [] false false s s t) ∧
    (waitTrap false s = none → ¬(s.warmReset = .synchronised ∧ s.resetSeq = .isb s.pc) →
      ∃ t, CompletesOrWaits .wfi ⟨false, none⟩ s t) ∧
    (wakePending s = true → has .WFxT s = true → ∃ t, Completes (.wfit rd) [] false false s s t) ∧
    (waitTrap false s = none → has .WFxT s = true →
      ∃ t, CompletesOrWaits (.wfit rd) ⟨false, some (readX rd s)⟩ s t) ∧
    (∀ w, s.waiting = some w → s.agents = [] → halted s = false → s.warmReset = .none → chosenInterrupt s = none →
      s.offTop = false → ∃ t, step s = .next t ∧
        Frame [] false false { s with
          sys := t.sys, count := t.count, eventReg := t.eventReg, predictions := t.predictions, free := t.free
          waiting := t.waiting } t ∧ t.pc = s.pc ∧ (∀ r, r ≠ .PMCCNTR_EL0 → sreg t r = sreg s r) ∧
        (WaitEnds w s → t.waiting = none) ∧ (¬WaitEnds w s → t.waiting = some w)) ∧
    (∀ el, s.eventReg = false → waitTrap true s = some el → el3SddUndef s = false →
      ∃ iss, exec .wfe s = raise (syncExc el 0x01 iss s) s) ∧
    (∀ el, wakePending s = false → waitTrap false s = some el → el3SddUndef s = false →
      ∃ iss, exec .wfi s = raise (syncExc el 0x01 iss s) s) ∧
    (s.eventReg = false → has .WFxT s = true → (readX rd s).toNat ≤ (readCntvct s).toNat →
      ∃ t, Completes (.wfet rd) [] false false s s t) ∧
    (has .WFxT s = true → (readX rd s).toNat ≤ (readCntvct s).toNat → ∃ t, Completes (.wfit rd) [] false false s s t) ∧
    (∀ el, s.eventReg = false → has .WFxT s = true → (readCntvct s).toNat < (readX rd s).toNat →
      waitTrap true s = some el → el3SddUndef s = false →
      ∃ iss, exec (.wfet rd) s = raise (syncExc el 0x01 iss s) s) ∧
    (∀ el, wakePending s = false → has .WFxT s = true → (readCntvct s).toNat < (readX rd s).toNat →
      waitTrap false s = some el → el3SddUndef s = false →
      ∃ iss, exec (.wfit rd) s = raise (syncExc el 0x01 iss s) s)

/-- ISB completes and leaves no unsynchronised System register write: every indirect read then sees the register's
value; registers, flags and memory stay, and a requested Warm reset is synchronised. DSB and DSB nXS, which is a full
DSB (ruling D9), complete and change only how far written code is from being fetched, and DSB SY, CRm 0b1111, and DSB
SYnXS, imm2 0b11, where the sequence of R326 stands: that no other DSB moves it is the model's choice (log entry 85).
CLREX completes and clears only the local monitor. (45_base_subset.md R189, 70_reset_and_hazards.md R323, 20_memory.md
R66, 20_memory.md R95, 92_eei_decisions.md D7, 92_eei_decisions.md D9, log entry 85) -/
def Obligations.BarriersSynchronise : Prop :=
  ∀ (s : State) (crm : BitVec 4) (imm2 : BitVec 2),
    (∃ t, Completes .isb [] false false s
        { s with
          pend := t.pend, pendCtl := t.pendCtl, counted := [], stale := t.stale, warmReset := t.warmReset
          resetSeq := t.resetSeq } t ∧
      t.pend = [] ∧ t.pendCtl = [] ∧ (∀ r, ireg t r = sreg s r) ∧ (∀ r, ictl t r = ctlReg s r) ∧ t.warmReset ≠ .requested ∧
      ∀ e ∈ t.stale, e.2 ≠ .invalidComplete) ∧
    (∃ t, Completes (.dsb crm) [] false false s
        { s with stale := t.stale, resetSeq := if crm = 0b1111#4 then .dsb s.free else s.resetSeq } t ∧
      t.stale.map (·.1) = s.stale.map (·.1)) ∧
    (∃ t, Completes (.dsbNXS imm2) [] false false s
        { s with stale := t.stale, resetSeq := if imm2 = 0b11#2 then .dsb s.free else s.resetSeq } t ∧
      t.stale.map (·.1) = s.stale.map (·.1)) ∧
    (∃ t, Completes (.clrex crm) [] false false s { s with exLocal := none } t)

/-- Not in Debug state: DAIFSet sets and DAIFClr clears the fields D, A, I, F that the bits of CRm select, above EL0
or where SCTLR_EL1.UMA allows it, and is otherwise trapped with EC 0x18; SSBS, DIT and (with FEAT_MTE) TCO become
CRm<0> at every level; SPSel writes PSTATE.SP above EL0 and is UNDEFINED at EL0. Nothing else changes. That TCO needs
FEAT_MTE is the model's choice (log entry 79), the place of UMA too (log entry 8). (41_system_instructions.md R140,
10_state.md R55, 10_state.md R54, log entry 8, log entry 79) -/
def Obligations.PstateImmediates : Prop :=
  ∀ (s : State) (crm : BitVec 4), halted s = false →
    (s.ps.el ≠ .el0 ∨ umaAllows s = true →
      (∃ t, Completes (.msrDaifSetImm crm) [] false false s { s with ps := { s.ps with
          d := s.ps.d || bitAt crm 3, a := s.ps.a || bitAt crm 2, i := s.ps.i || bitAt crm 1
          f := s.ps.f || bitAt crm 0 } } t) ∧
      (∃ t, Completes (.msrDaifClrImm crm) [] false false s { s with ps := { s.ps with
          d := s.ps.d && !bitAt crm 3, a := s.ps.a && !bitAt crm 2, i := s.ps.i && !bitAt crm 1
          f := s.ps.f && !bitAt crm 0 } } t)) ∧
    (s.ps.el = .el0 → umaAllows s = false →
      (∃ iss, exec (.msrDaifSetImm crm) s = raise (syncExc (ownTarget s) 0x18 iss s) s) ∧
      (∃ iss, exec (.msrDaifClrImm crm) s = raise (syncExc (ownTarget s) 0x18 iss s) s)) ∧
    (∃ t, Completes (.msrSsbsImm crm) [] false false s { s with ps := { s.ps with ssbs := bitAt crm 0 } } t) ∧
    (∃ t, Completes (.msrDitImm crm) [] false false s { s with ps := { s.ps with dit := bitAt crm 0 } } t) ∧
    (has .MTE s = true →
      ∃ t, Completes (.msrTcoImm crm) [] false false s { s with ps := { s.ps with tco := bitAt crm 0 } } t) ∧
    (s.ps.el ≠ .el0 →
      ∃ t, Completes (.msrSpselImm crm) [] false false s { s with ps := { s.ps with spsel := bitAt crm 0 } } t) ∧
    (s.ps.el = .el0 → exec (.msrSpselImm crm) s = undefined s)

/-- Not in Debug state: MRS of NZCV gives N, Z, C, V in bits [31:28], of DIT the field in bit [24], of DAIF the masks
in bits [9:6], all other bits 0; MSR writes the fields from the same bits and nothing else. DAIF needs a level above
EL0 or SCTLR_EL1.UMA, else it is trapped with EC 0x18. The bit places are the model's (log entry 8). (10_state.md R34,
10_state.md R55, log entry 8) -/
def Obligations.PstateRegistersReadAndWrite : Prop :=
  ∀ (s : State) (rt : BitVec 5), halted s = false →
    (∃ t, Completes (.mrsNzcv rt) [rt] false false s s t ∧
      Holds rt (bitTo 31 s.ps.n ||| bitTo 30 s.ps.z ||| bitTo 29 s.ps.c ||| bitTo 28 s.ps.v) t) ∧
    (∃ t, Completes (.msrNzcv rt) [] false false s { s with ps := { s.ps with
        n := bitAt (readX rt s) 31, z := bitAt (readX rt s) 30, c := bitAt (readX rt s) 29
        v := bitAt (readX rt s) 28 } } t) ∧
    (∃ t, Completes (.mrsDit rt) [rt] false false s s t ∧ Holds rt (bitTo 24 s.ps.dit) t) ∧
    (∃ t, Completes (.msrDit rt) [] false false s { s with ps := { s.ps with dit := bitAt (readX rt s) 24 } } t) ∧
    (s.ps.el ≠ .el0 ∨ umaAllows s = true →
      (∃ t, Completes (.mrsDaif rt) [rt] false false s s t ∧
        Holds rt (bitTo 9 s.ps.d ||| bitTo 8 s.ps.a ||| bitTo 7 s.ps.i ||| bitTo 6 s.ps.f) t) ∧
      (∃ t, Completes (.msrDaif rt) [] false false s { s with ps := { s.ps with
        d := bitAt (readX rt s) 9, a := bitAt (readX rt s) 8, i := bitAt (readX rt s) 7
        f := bitAt (readX rt s) 6 } } t)) ∧
    (s.ps.el = .el0 → umaAllows s = false →
      (∃ iss, exec (.mrsDaif rt) s = raise (syncExc (ownTarget s) 0x18 iss s) s) ∧
      (∃ iss, exec (.msrDaif rt) s = raise (syncExc (ownTarget s) 0x18 iss s) s))

/-- At the highest implemented Exception level ELx, MRS of RMR_ELx gives the register, and MSR writes bits [1:0] of Xt
to it; if bit [1], RR, is 1, a Warm reset is requested (and the sequence of R326 moves on), else the request is as it
was. Nothing else changes. Below EL3 an access to RMR_EL3 is UNDEFINED. The model's choices in it: that MSR keeps bits
[1:0] alone (log entry 100), and the state of the sequence of R326 (log entry 85). (70_reset_and_hazards.md R326,
45_base_subset.md R188, log entry 85, log entry 100) -/
def Obligations.ResetRequestRegister : Prop :=
  ∀ (s : State) (rt : BitVec 5),
    (∀ (el : EL) (rd wr : Instr) (r : SysReg),
      (el, rd, wr, r) ∈ [(EL.el1, Instr.mrsRmrEl1 rt, Instr.msrRmrEl1 rt, SysReg.RMR_EL1),
        (EL.el2, .mrsRmrEl2 rt, .msrRmrEl2 rt, .RMR_EL2), (EL.el3, .mrsRmrEl3 rt, .msrRmrEl3 rt, .RMR_EL3)] →
      s.ps.el = el → highestEL s = el →
      (∃ t, Completes rd [rt] false false s s t ∧ Holds rt (sreg s r) t) ∧
      (∃ t, Completes wr [] false false s { s with sys := t.sys, warmReset := t.warmReset, resetSeq := t.resetSeq } t ∧
        sreg t r = readX rt s &&& 0b11 ∧ (∀ q, q ≠ r → sreg t q = sreg s q) ∧
        t.warmReset = (if bitAt (readX rt s) 1 then .requested else s.warmReset) ∧
        (bitAt (readX rt s) 1 = false → t.resetSeq = s.resetSeq))) ∧
    (s.ps.el ≠ .el3 → exec (.msrRmrEl3 rt) s = undefined s ∧ exec (.mrsRmrEl3 rt) s = undefined s)

/-- Where no control traps it, MRS of CNTPCT_EL0 (and CNTPCTSS_EL0 with FEAT_ECV) gives the system count, less
CNTPOFF_EL2 at EL0 and EL1 where the physical offset applies; MRS of CNTVCT_EL0 (and CNTVCTSS_EL0) gives the count
less CNTVOFF_EL2 in the cases R248 lists, with EL2 implemented. A virtual counter read at EL1, with EL2 enabled,
{E2H,TGE} not {1,1} and CNTHCTL_EL2.EL1TVCT 1, is trapped to EL2 with EC 0x18. Each offset is the register's value as
an indirect read sees it. The model's choices: without EL3 the condition on SCR_EL3.ECVEn counts as met (log entry
93); the places SCR_EL3.ECVEn [28], CNTHCTL_EL2.ECV [12] and EL1TVCT [14] (log entry 8). (60_exceptions.md R206,
60_exceptions.md R208, 60_exceptions.md R242, 60_exceptions.md R243, 60_exceptions.md R248, log entry 8, log entry 93)
-/
def Obligations.CounterReads : Prop :=
  ∀ (s : State) (rt : BitVec 5),
    (el0CounterTrap false s = false → el2CounterTrap false s = false →
      ∀ i ∈ [Instr.mrsCntpctEl0 rt] ++ (if has .ECV s then [.mrsCntpctssEl0 rt] else []),
      ∃ t, Completes i [rt] false false s s t ∧
        Holds rt (if (s.ps.el = .el0 ∨ s.ps.el = .el1) ∧ has .ECV s = true ∧ el2Enabled s = true ∧
            (s.cfg.hasEL3 = true → ibit s .SCR_EL3 28 = true) ∧ ibit s .CNTHCTL_EL2 12 = true ∧ e2hTge s = false then
            s.count - ireg s .CNTPOFF_EL2
          else s.count) t) ∧
    (el0CounterTrap true s = false → el2CounterTrap true s = false →
      ∀ i ∈ [Instr.mrsCntvctEl0 rt] ++ (if has .ECV s then [.mrsCntvctssEl0 rt] else []),
      ∃ t, Completes i [rt] false false s s t ∧
        Holds rt (if s.cfg.hasEL2 = true ∧ ((s.ps.el = .el0 ∧ e2hTge s = false) ∨ (s.ps.el = .el2 ∧ hcr s 34 = false) ∨
            s.ps.el = .el1 ∨ s.ps.el = .el3) then s.count - ireg s .CNTVOFF_EL2 else s.count) t) ∧
    (s.ps.el = .el1 → el2Enabled s = true → e2hTge s = false → ibit s .CNTHCTL_EL2 14 = true →
      ∃ iss, exec (.mrsCntvctEl0 rt) s = raise (syncExc .el2 0x18 iss s) s)

/-- For every timer, reading TimerValue gives the low 32 bits of CompareValue - (count - Offset); writing a value
makes CompareValue (count - Offset) plus the sign extension of its low 32 bits, modulo 2^64; and reading TimerValue
after that write, at the same count, gives the 32 bits written. The same Offset is used in both views. (R246) -/
def Obligations.TimerViewsAgree : Prop :=
  ∀ (s : State) (tm : Timer) (v : Word),
    readTval tm s = ((sreg s (timerCval tm) - (s.count - timerOffset tm s)).setWidth 32).setWidth 64 ∧
    tvalToCval tm v s = (s.count - timerOffset tm s) + (v.setWidth 32).signExtend 64 ∧
    readTval tm (setReg (timerCval tm) (tvalToCval tm v s) s) = (v.setWidth 32).setWidth 64

/-- Above EL0, not redirected by nested virtualization: ID_AA64SMFR0_EL1 is read where HCR_EL2.TID3 does not trap it,
and trapped to EL2 with EC 0x18 where it does, as it does at EL1 with EL2 enabled, TID3 1 and FEAT_FGT; ISR_EL1 gives
the pending SError, IRQ and FIQ in A, I and F, each the virtual one at EL1 with EL2 enabled and HCR_EL2.AMO, IMO or
FMO 1, else the physical one, with FEAT_NMI in IS and FS whether that pending IRQ or FIQ has Superpriority, and zeros
elsewhere; CCSIDR_EL1 gives the entry of the cache level that CSSELR_EL1, as an indirect read sees it, selects, and
for a level that is not implemented is one of: a NOP, UNDEFINED (with FEAT_IDST perhaps EC 0x18), a read of some
value. The model's choices in it: HCR_EL2.NV is bit [42], which with FEAT_NV traps or redirects names (log entries 8,
14), TID3 bit [18], AMO, IMO and FMO bits [5], [4] and [3], A, I, F, IS and FS of ISR_EL1 bits [8], [7], [6], [10] and
[9], and the field of CSSELR_EL1 that selects bits [4:0] (log entry 8); the selector of ID_AA64SMFR0_EL1 (log entries
8, 84); that no other control, HCR_EL2.TID2 or a fine-grained trap, traps the reads (log entry 12).
(41_system_instructions.md R146, 60_exceptions.md R221, 60_exceptions.md R222, 60_exceptions.md R233,
41_system_instructions.md R152, log entry 8, log entry 14, log entry 84, log entry 12) -/
def Obligations.IdentificationReads : Prop :=
  ∀ (s : State) (rt : BitVec 5), s.ps.el ≠ .el0 → (s.ps.el = .el1 → hcr s 42 = false) →
    (tid3Traps (selReg 1 0 0 4 5) (some (.stored .ID_AA64SMFR0_EL1)) s = false →
      ∃ t, Completes (.mrsIdAa64smfr0El1 rt) [rt] false false s s t ∧ Holds rt (sreg s .ID_AA64SMFR0_EL1) t) ∧
    (tid3Traps (selReg 1 0 0 4 5) (some (.stored .ID_AA64SMFR0_EL1)) s = true ∨
        (s.ps.el = .el1 ∧ el2Enabled s = true ∧ ibit s .HCR_EL2 18 = true ∧ has .FGT s = true) →
      ∃ iss, exec (.mrsIdAa64smfr0El1 rt) s = raise (syncExc .el2 0x18 iss s) s) ∧
    (∃ t, Completes (.mrsIsrEl1 rt) [rt] false false s s t ∧ Holds rt (isrValue s) t) ∧
    (∀ k, bitAt (isrValue s) k =
      if k = 8 then (if IsrVirtual 5 s then s.intr.vSError else s.intr.serror)
      else if k = 7 then (if IsrVirtual 4 s then s.intr.vIrq else s.intr.irq)
      else if k = 6 then (if IsrVirtual 3 s then s.intr.vFiq else s.intr.fiq)
      else if k = 10 then
        has .NMI s && (if IsrVirtual 4 s then s.intr.vIrq && s.intr.vIrqSuper else s.intr.irq && s.intr.irqSuper)
      else if k = 9 then
        has .NMI s && (if IsrVirtual 3 s then s.intr.vFiq && s.intr.vFiqSuper else s.intr.fiq && s.intr.fiqSuper)
      else false) ∧
    (∀ v, s.cfg.ccsidr.lookup (field (ireg s .CSSELR_EL1) 0 5) = some v →
      ∃ t, Completes (.mrsCcsidrEl1 rt) [rt] false false s s t ∧ Holds rt v t) ∧
    (s.cfg.ccsidr.lookup (field (ireg s .CSSELR_EL1) 0 5) = none →
      (∃ t, Completes (.mrsCcsidrEl1 rt) [] false false s s t) ∨
      exec (.mrsCcsidrEl1 rt) s = undefined s ∨
      (has .IDST s = true ∧ ∃ iss, exec (.mrsCcsidrEl1 rt) s = raise (syncExc (ownTarget s) 0x18 iss s) s) ∨
      (∃ t, Completes (.mrsCcsidrEl1 rt) [rt] false false s s t))

/-- With FEAT_RNG, where SCR_EL3.TRNDR does not trap them, RNDR and RNDRRS write some 64-bit value to Xt with N, Z, C,
V all 0, or 0 with Z 1 and the others 0; nothing else changes. Below EL3 with FEAT_RNG_TRAP and TRNDR 1 the read is
trapped to EL3 with EC 0x18. The model's choices in it: TRNDR is bit [40] (log entry 8), and at EL3 itself it traps
nothing (log entry 79). (41_system_instructions.md R151, 10_state.md R20, log entry 8, log entry 79) -/
def Obligations.RandomNumberReads : Prop :=
  ∀ (s : State) (rt : BitVec 5), has .RNG s = true → ∀ i ∈ [Instr.mrsRndr rt, .mrsRndrrs rt],
    (has .RNG_TRAP s = false ∨ s.cfg.hasEL3 = false ∨ s.ps.el = .el3 ∨ ibit s .SCR_EL3 40 = false →
      ∃ t, Completes i [rt] false true s s t ∧ t.ps.n = false ∧ t.ps.c = false ∧ t.ps.v = false ∧
        ((t.ps.z = false ∧ ∃ v, Holds rt v t) ∨ (t.ps.z = true ∧ Holds rt 0 t))) ∧
    (has .RNG_TRAP s = true → s.cfg.hasEL3 = true → s.ps.el ≠ .el3 → ibit s .SCR_EL3 40 = true → el3SddUndef s = false →
      ∃ iss, exec i s = raise (syncExc .el3 0x18 iss s) s)

/-- For a name of the model: where the access is permitted (and is not a PSTATE view in Debug state, nor SVCR while
SME access is disabled), MRS writes the register's value to Xt and MSR writes Xt to the register, with nothing else
but that register's own effect; where the name may not be used the access is UNDEFINED, where a control traps it, MRS
or MSR, the exception has EC 0x18. Of a permitted MSR: a System register, the one that the name reaches (CNTKCTL_EL1
and PMCR_EL0 apart), takes the bits of Xt that are not RES0 now and keeps the others, RMR_ELx and the control
registers of the timers take bits [1:0], PMBPTR_EL1 and TRBPTR_EL1 with their RES0 bits clear, and PMCNTENSET_EL0 and
PMOVSSET_EL0 gain the bits that Xt has set; every other System register keeps its value, and only event counters may
count the write; the names of PSTATE.{SSBS,DIT,TCO,SP,PAN,ALLINT} write the field, those of the stack pointers the
stack pointer, those of the TimerValue views the CompareValue of R246, the clear registers of the PMU clear the bits
that Xt has set, and a numbered register of the PMU, the branch buffer or the trace unit takes Xt; nothing else
changes. A name of the ID space without a register reads as zero above EL0, where not trapped, and ignores a write.
The model's choices: which names exist (log entry 13), their selectors and the places of fields (log entries 8, 62),
and that the timers' control registers keep two bits and the PMU registers set and clear (log entry 100); the access
that FEAT_NV2 redirects to memory is left out. (45_base_subset.md R188, 30_encoding.md R125, 60_exceptions.md R252,
93_implementation_defined.md U49, 61_debug_pmu_trace.md R280, 70_reset_and_hazards.md R326, 10_state.md R34, log entry
8, log entry 13, log entry 62, log entry 100) -/
def Obligations.SystemRegisterAccess : Prop :=
  ∀ (s : State) (o0 : BitVec 1) (op1 : BitVec 3) (crn crm : BitVec 4) (op2 : BitVec 3) (rt : BitVec 5) (r : RegName),
    (nameOf (selReg o0 op1 crn crm op2) = some r → (halted s && isPstateView r) = false →
      (permission (selReg o0 op1 crn crm op2) r false s = .allowed →
        r ≠ .stored .CCSIDR_EL1 → r ≠ .stored .CCSIDR2_EL1 → r ≠ .view .RNDR → r ≠ .view .RNDRRS →
        r ≠ .stored .CNTKCTL_EL1 → (r = .view .SVCR → vecTrap [.sme] s = none) →
        ∃ t, Completes (.mrs o0 op1 crn crm op2 rt) [rt] false false s s t ∧
          Holds rt (regValue (reached (selReg o0 op1 crn crm op2) r s) s) t) ∧
      (permission (selReg o0 op1 crn crm op2) r true s = .allowed → (r = .view .SVCR → vecTrap [.sme] s = none) →
        exec (.msr o0 op1 crn crm op2 rt) s =
          .next (advance (performWrite (selReg o0 op1 crn crm op2) r (readX rt s) s))) ∧
      (permission (selReg o0 op1 crn crm op2) r true s = .allowed →
        (∀ q p, r = .stored q → q ≠ .CNTKCTL_EL1 → reached (selReg o0 op1 crn crm op2) r s = .stored p → p ≠ .PMCR_EL0 →
          ∃ t, exec (.msr o0 op1 crn crm op2 rt) s = .next t ∧ NextPc s t ∧
            Frame [] false false
              { s with sys := t.sys, pend := t.pend, warmReset := t.warmReset, resetSeq := t.resetSeq
                       pmevcntr := t.pmevcntr, counted := t.counted } t ∧
            (∀ k, k ≠ p → sreg t k = sreg s k) ∧ sreg t p = msrValue p (readX rt s) s ∧
            (p ∉ rmrRegs → t.warmReset = s.warmReset ∧ t.resetSeq = s.resetSeq) ∧
            (q ∉ [.CONTEXTIDR_EL1, .TTBR0_EL1, .TTBR1_EL1] → t.pmevcntr = s.pmevcntr ∧ t.counted = s.counted)) ∧
        (∀ v k u, r = .view v → reached (selReg o0 op1 crn crm op2) r s = .view k → viewWritten k (readX rt s) s = some u →
          ∃ t, Completes (.msr o0 op1 crn crm op2 rt) [] false false s u t) ∧
        (∀ v k p val, r = .view v → reached (selReg o0 op1 crn crm op2) r s = .view k →
          viewStores k (readX rt s) s = some (p, val) →
          ∃ t, Completes (.msr o0 op1 crn crm op2 rt) [] false false s { s with sys := t.sys, pend := t.pend } t ∧
            sreg t p = val ∧ ∀ q, q ≠ p → sreg t q = sreg s q) ∧
        (∀ u, numberedWritten r (readX rt s) s = some u →
          ∃ t, Completes (.msr o0 op1 crn crm op2 rt) [] false false s u t)) ∧
      (permission (selReg o0 op1 crn crm op2) r false s = .undefined →
        exec (.mrs o0 op1 crn crm op2 rt) s = undefined s) ∧
      (permission (selReg o0 op1 crn crm op2) r true s = .undefined →
        exec (.msr o0 op1 crn crm op2 rt) s = undefined s) ∧
      (∀ el, permission (selReg o0 op1 crn crm op2) r false s = .trap el → el3SddUndef s = false →
        ∃ iss, exec (.mrs o0 op1 crn crm op2 rt) s = raise (syncExc el 0x18 iss s) s) ∧
      (∀ el, permission (selReg o0 op1 crn crm op2) r true s = .trap el → el3SddUndef s = false →
        ∃ iss, exec (.msr o0 op1 crn crm op2 rt) s = raise (syncExc el 0x18 iss s) s)) ∧
    (nameOf (selReg o0 op1 crn crm op2) = none → idSpace (selReg o0 op1 crn crm op2) = true → s.ps.el ≠ .el0 →
      (tid3Traps (selReg o0 op1 crn crm op2) none s = false →
        ∃ t, Completes (.mrs o0 op1 crn crm op2 rt) [rt] false false s s t ∧ Holds rt 0 t) ∧
      ∃ t, Completes (.msr o0 op1 crn crm op2 rt) [] false false s s t)

/-- For each register of the list plainRegs, with its name, at EL3: MSR goes on, the register holds Xt (of HCR_EL2 the
implemented bits; the others keep their value and read as zero) and every other System register keeps its value,
general registers and memory stay; MRS gives the register's value. If no earlier write of the register is pending, an
indirect read after the MSR sees the new or the old value; after an ISB the new one. The selector numbers of the names
are the model's where the spec prints none (log entry 8). (45_base_subset.md R188, 70_reset_and_hazards.md R323,
70_reset_and_hazards.md R324, log entry 8) -/
def Obligations.MsrWritesTheRegister : Prop :=
  ∀ (s : State) (o0 : BitVec 1) (op1 : BitVec 3) (crn crm : BitVec 4) (op2 : BitVec 3) (rt : BitVec 5) (r : SysReg),
    s.ps.el = .el3 → (selReg o0 op1 crn crm op2, r) ∈ plainRegs →
    (∃ t, exec (.msr o0 op1 crn crm op2 rt) s = .next t ∧ NextPc s t ∧
      Frame [] false false { s with sys := t.sys, pend := t.pend } t ∧
      sreg t r = (readX rt s &&& implMask r s) ||| (sreg s r &&& ~~~(implMask r s)) ∧
      (r ≠ .HCR_EL2 → sreg t r = readX rt s) ∧ (∀ q, q ≠ r → sreg t q = sreg s q) ∧
      (pendingOf r s.pend = [] → ireg t r = sreg t r ∨ ireg t r = sreg s r) ∧ ireg (syncContext t) r = sreg t r) ∧
    (∃ t, Completes (.mrs o0 op1 crn crm op2 rt) [rt] false false s s t ∧ Holds rt (sreg s r &&& implMask r s) t)

/-- An operation is UNDEFINED below the lowest level of its op1, where it may be unallocated and is, without FEAT_MTE
if it acts on Allocation Tags and without FEAT_RME if on the granule protection tables. Else SYS completes: by set and
way it changes nothing; the instruction cache invalidation of everything moves on only code whose clean is complete;
maintenance by VA whose address translates moves on only how far written code is from being fetched, and a Permission
fault is taken; an address translation reports its result or its fault in PAR_EL1; a TLB invalidation removes the
entries that its elided condition matches, by range only such whose block the range overlaps, none for a reserved
Security state at EL3, and may clear the monitors; by range of physical addresses it removes exactly the TLB entries
with GPT information and the cached GPT entries that the range overlaps, of any or of the last level; of all GPT
entries every cached one, and no TLB entry without GPT information. An operation the spec does not name is UNDEFINED,
where it is not allocated, or refused under its own name. SYSL of an allocated encoding writes some value to Xt (log
entry 25) and changes nothing else; of another it is UNDEFINED. The model's choices in it: which numbers name which
operation (log entry 8), which may be unallocated and what becomes of the others (log entry 24), no effect of set and
way (log entry 51), the need of FEAT_MTE (log entry 96), that no control (HCR_EL2.{TTLB, TPC, TPU, AT}, SCTLR_EL1.UCI)
traps the operations (log entries 12, 61), that AT translates by a walk of its own (log entry 18), the elided match
and the ranges of TLBI (log entry 52). So are the places of the Access flags that an AT may set, and their byte order
(log entries 104, 107). (30_encoding.md R119, 30_encoding.md R122, 92_eei_decisions.md D7, 41_system_instructions.md
R141, 41_system_instructions.md R142, 41_system_instructions.md R149, 41_system_instructions.md R150,
41_system_instructions.md R154, log entries 8, 12, 18, 24, 25, 51, 52, 61, 96, log entries 104, 107) -/
def Obligations.GenericSystemInstructions : Prop :=
  ∀ (s u : State) (op1 : BitVec 3) (crn crm : BitVec 4) (op2 : BitVec 3) (rt : BitVec 5) (i : Instr) (v : Word),
    i = .sys op1 crn crm op2 rt → v = readX rt s →
    (∀ o, sysOpOf op1 crn crm op2 = some o →
      (elNum s.ps.el < sysMinLevel op1 ∨
        (mayBeUnallocated o crn = true ∧ Config.unallocatedSys (selSys op1 crn crm op2) = true) ∨
        (tagSysOp o op2 = true ∧ has .MTE s = false) ∨
        (o ∈ [.gptAll, .gptRange true, .gptRange false] ∧ has .RME s = false) → exec i s = undefined s) ∧
      (sysMinLevel op1 ≤ elNum s.ps.el →
        (mayBeUnallocated o crn = true → Config.unallocatedSys (selSys op1 crn crm op2) = false) →
        (tagSysOp o op2 = true → has .MTE s = true) →
        (o = .setWay → ∃ t, Completes i [] false false s s t) ∧
        (o = .icAll → ∃ t, Completes i [] false false s { s with stale := t.stale } t ∧
          t.stale = s.stale.map fun e => if e.2 = .cleanComplete then (e.1, .invalidated) else e) ∧
        (o ∈ [.cleanVa, .invalidateVa, .tagVa] →
          (∀ x, translate (cacheDesc false) v s = .ok x u →
            ∃ t, exec i s = .next t ∧ NextPc s t ∧ Frame [] false false { u with stale := t.stale } t ∧
              t.stale.map (·.1) = u.stale.map (·.1) ∧ (o ≠ .cleanVa → t.stale = u.stale)) ∧
          (∀ level st2 ipa va, translate (cacheDesc false) v s = .fault (.walk .permission level st2 ipa) va u →
            DataAbort (faultStatus (.walk .permission level st2 ipa)) va u (exec i s))) ∧
        (∀ op, o = .at op →
          (∀ x, atTranslate op v s = .ok x u →
            ∃ t, Completes i [] false false s { s with
                sys := t.sys, mem := (faultUpdates x.updates u).mem, stale := (faultUpdates x.updates u).stale } t ∧
              bitAt (sreg t .PAR_EL1) 0 = false ∧ field (sreg t .PAR_EL1) 12 40 = field (BitVec.ofNat 64 x.pa) 12 40 ∧
              ∀ q, q ≠ .PAR_EL1 → sreg t q = sreg s q) ∧
          (∀ k va, atTranslate op v s = .fault k va u → atRaises k = false →
            ∃ t, Completes i [] false false s { s with sys := t.sys, mem := u.mem, stale := u.stale } t ∧
              bitAt (sreg t .PAR_EL1) 0 = true ∧ field (sreg t .PAR_EL1) 1 6 = faultStatus k ∧
              ∀ q, q ≠ .PAR_EL1 → sreg t q = sreg s q)) ∧
        (∀ op el, o = .tlbi ∨ o = .tlbiRange op el → op1 ≠ 6 → tlbiReserved s = true →
          ∃ t, Completes i [] false false s s t) ∧
        (o = .tlbi → op1 = 6 ∨ tlbiReserved s = false →
          ∃ t, Completes i [] false false s
              { s with tlb := t.tlb, exLocal := t.exLocal, exGlobal := t.exGlobal, exTlbi := true } t ∧
            (∀ e, e ∈ t.tlb ↔ e ∈ s.tlb ∧ Config.tlbiElided (16 + (selSys op1 crn crm op2).toNat) v e = false) ∧
            (t.exLocal = s.exLocal ∨ t.exLocal = none) ∧ (t.exGlobal = s.exGlobal ∨ t.exGlobal = none)) ∧
        (∀ op el, o = .tlbiRange op el → op1 = 6 ∨ tlbiReserved s = false →
          ∃ t, Completes i [] false false s
              { s with tlb := t.tlb, exLocal := t.exLocal, exGlobal := t.exGlobal, exTlbi := true } t ∧
            (∀ e ∈ t.tlb, e ∈ s.tlb) ∧
            (∀ e ∈ s.tlb, ¬Overlaps (if op = .ripas2 then 52 else 56) (rangeOf op el v s).1 (rangeOf op el v s).2
              e.ia e.blocksize → e ∈ t.tlb) ∧
            (t.exLocal = s.exLocal ∨ t.exLocal = none) ∧ (t.exGlobal = s.exGlobal ∨ t.exGlobal = none)) ∧
        (has .RME s = true → ∀ anyLevel lo hi, o = .gptRange anyLevel → (lo, hi) = rangeOf .rpa .el3 v s →
          ∃ t, Completes i [] false false s { s with
              tlb := t.tlb, gptTlb := t.gptTlb, exLocal := t.exLocal, exGlobal := t.exGlobal, exTlbi := true } t ∧
            (∀ e, e ∈ t.tlb ↔ e ∈ s.tlb ∧
              ¬(e.includesGpt = true ∧ Overlaps 52 lo hi (e.oa.setWidth 64) e.blocksize)) ∧
            (∀ e, e ∈ t.gptTlb ↔ e ∈ s.gptTlb ∧
              ¬(Overlaps 52 lo hi (e.pa.setWidth 64) e.size ∧ (anyLevel = true ∨ e.level = 1)))) ∧
        (has .RME s = true → o = .gptAll →
          ∃ t, Completes i [] false false s { s with
              tlb := t.tlb, gptTlb := [], exLocal := t.exLocal, exGlobal := t.exGlobal, exTlbi := true } t ∧
            (∀ e ∈ t.tlb, e ∈ s.tlb) ∧ ∀ e ∈ s.tlb, e.includesGpt = false → e ∈ t.tlb))) ∧
    (sysOpOf op1 crn crm op2 = none → exec i s =
      if Config.unallocatedSys (selSys op1 crn crm op2) then undefined s else .refused .sysInstrNotInSpec) ∧
    (Config.unallocatedSys (selSys op1 crn crm op2) = false →
      ∃ t, Completes (.sysl op1 crn crm op2 rt) [rt] false false s s t) ∧
    (Config.unallocatedSys (selSys op1 crn crm op2) = true → exec (.sysl op1 crn crm op2 rt) s = undefined s)

/-- Where DC ZVA is not prohibited and every granule of the block is located, none in a register frame: DC ZVA zeroes
the 16 bytes of each granule and changes no other byte; DC GZVA (with FEAT_MTE) also sets the Allocation Tag of each
Tagged granule to Xt[59:56]; DC GVA sets the tags only (to Device memory it may fault instead, R153: the granules are
then not located). No register or flag changes. Where it is prohibited all three are trapped with EC 0x18. With every
granule in Device memory DC ZVA and DC GZVA give an Alignment fault at the address of one of them. The model's choices
in it: the tag is Xt[59:56] and the block is that of DCZID_EL0.BS (log entry 32), the fault status code (log entry 8),
the need of FEAT_MTE (log entry 96). (41_system_instructions.md R144, 41_system_instructions.md R145,
41_system_instructions.md R153, 10_state.md R51, 20_memory.md R79, log entry 8, log entry 32, log entry 96) -/
def Obligations.ZeroingABlock : Prop :=
  ∀ (s u : State) (rt : BitVec 5) (xs : List Xlat), Canonical s →
    (dczProhibited s = false →
      (locateGranules (dcZeroDesc false) .faults (dcBlock s / 16) (alignDown (readX rt s) (dcBlock s)) s = .ok xs u →
        (∀ x ∈ xs, x.frame = none) → ∃ t, exec (.dcZva rt) s = .next t ∧ NextPc s t ∧
          Frame [] false false { u with mem := t.mem, stale := t.stale } t ∧ Zeroed xs u t) ∧
      (has .MTE s = true →
        locateGranules (dcZeroDesc true) .faults (dcBlock s / 16) (alignDown (readX rt s) (dcBlock s)) s = .ok xs u →
        (∀ x ∈ xs, x.frame = none) → ∃ t, exec (.dcGzva rt) s = .next t ∧ NextPc s t ∧
          Frame [] false false { u with mem := t.mem, stale := t.stale, tags := t.tags } t ∧ Zeroed xs u t ∧
          TagsStored xs (fun _ => field (readX rt s) 56 4) u t) ∧
      (has .MTE s = true →
        locateGranules dcTagDesc (gvaDev s) (dcBlock s / 16) (alignDown (readX rt s) (dcBlock s)) s = .ok xs u →
        ∃ t, exec (.dcGva rt) s = .next t ∧ NextPc s t ∧ Frame [] false false { u with tags := t.tags } t ∧
          TagsStored xs (fun _ => field (readX rt s) 56 4) u t) ∧
      (BlockIsDevice (dcZeroDesc false) (dcBlock s / 16) (alignDown (readX rt s) (dcBlock s)) s →
        BlockAborts (dcBlock s / 16) (alignDown (readX rt s) (dcBlock s)) s (exec (.dcZva rt) s)) ∧
      (has .MTE s = true → BlockIsDevice (dcZeroDesc true) (dcBlock s / 16) (alignDown (readX rt s) (dcBlock s)) s →
        BlockAborts (dcBlock s / 16) (alignDown (readX rt s) (dcBlock s)) s (exec (.dcGzva rt) s))) ∧
    (dczProhibited s = true →
      ∀ i ∈ [Instr.dcZva rt] ++ (if has .MTE s then [.dcGva rt, .dcGzva rt] else []),
        ∃ el iss, exec i s = raise (syncExc el 0x18 iss s) s)

/-- With every granule of the block in Device memory (for STZGM outside the register frames): DC GVA changes nothing,
no Allocation Tag among it, or gives an Alignment fault at a granule of the block; STZGM sends zeroes to every byte of
the block and changes no Allocation Tag and no byte of memory, or gives an Alignment fault whose address is the lowest
one of the block or the register argument, as the implementation chooses. The fault comes where a fault by memory type
does, before any watchpoint. The model's choices in it: the fault status code (log entry 8), the block sizes (log
entry 32), the log of Device accesses (log entry 46), the need of FEAT_MTE for DC GVA (log entry 96).
(41_system_instructions.md R153, 42_loadstore_mte_atomics.md R161, 60_exceptions.md R224, log entry 8, log entry 32,
log entry 46, log entry 96) -/
def Obligations.TagStoresToDevice : Prop :=
  ∀ (s u : State) (rt rn : BitVec 5) (xs : List Xlat) (base : Word),
    (has .MTE s = true → dczProhibited s = false →
      locateGranules dcTagDesc .goesOn (dcBlock s / 16) (alignDown (readX rt s) (dcBlock s)) s = .ok xs u →
      (∀ x ∈ xs, isDevice x.type = true) →
      BlockIsDevice dcTagDesc (dcBlock s / 16) (alignDown (readX rt s) (dcBlock s)) s →
      (∃ t, exec (.dcGva rt) s = .next t ∧ NextPc s t ∧ Frame [] false false u t) ∨
        BlockAborts (dcBlock s / 16) (alignDown (readX rt s) (dcBlock s)) s (exec (.dcGva rt) s)) ∧
    (has .MTE2 s = true → s.ps.el ≠ .el0 → baseReg rn s = .ok base s →
      locateGranules stzgmDesc .goesOn (tagBlock s / 16) (alignDown base (tagBlock s)) s = .ok xs u →
      (∀ x ∈ xs, deviceOnly x = true) → BlockIsDevice stzgmDesc (tagBlock s / 16) (alignDown base (tagBlock s)) s →
      (∃ t, exec (.stzgm rn rt) s = .next t ∧ NextPc s t ∧ Frame [] false false { u with devLog := t.devLog } t ∧
        ∀ x ∈ xs, ∀ k < 16, (⟨true, x.key + k, 0⟩ : DeviceAccess) ∈ t.devLog) ∨
      ∃ v, v.pc = s.pc ∧ DataAbort alignmentStatus (if s.cfg.stzgmFarLowest then alignDown base (tagBlock s) else base) v
        (exec (.stzgm rn rt) s))

/-- Where the address translates for cache maintenance, the four instructions (the tag forms with FEAT_MTE) complete:
no register, flag, tag or byte of memory changes but what the translation changed; at most how far written code is
from being fetched moves on. A Permission fault of the translation is taken as a Data Abort at that address. The
model's choices in it: the need of FEAT_MTE (log entry 96), the fault status code (log entry 8), and that no control
(SCTLR_EL1.UCI, HCR_EL2.{TPC, TPU}) traps the four instructions at EL0 or EL1 (log entry 12).
(41_system_instructions.md R150, 92_eei_decisions.md D7, log entry 8, log entry 96, log entry 12) -/
def Obligations.CacheMaintenanceByAddress : Prop :=
  ∀ (s u : State) (rt : BitVec 5),
    ∀ i ∈ [Instr.dcCivac rt, .icIvau rt] ++ (if has .MTE s then [.dcCigvac rt, .dcCigdvac rt] else []),
    (∀ x, translate (cacheDesc true) (readX rt s) s = .ok x u →
      ∃ t, exec i s = .next t ∧ NextPc s t ∧ Frame [] false false { u with stale := t.stale } t ∧
        t.stale.map (·.1) = u.stale.map (·.1)) ∧
    (∀ level st2 ipa va, translate (cacheDesc true) (readX rt s) s = .fault (.walk .permission level st2 ipa) va u →
      DataAbort (faultStatus (.walk .permission level st2 ipa)) va u (exec i s))

/-- DC CIPAE and DC CIGDPAE are UNDEFINED at EL1, and at EL2 unless the current Security state is Realm. With FEAT_MEC
(and FEAT_MTE for DC CIGDPAE), at EL3 and at EL2 in Realm state, they complete and change no register, tag or byte of
memory; at EL3 that is the model's choice (log entry 79: the arm is not printed), and so is the need of the two
features (log entry 96). (41_system_instructions.md R147, 30_encoding.md R127, log entry 79, log entry 96) -/
def Obligations.CleanToPointOfEncryption : Prop :=
  ∀ (s : State) (rt : BitVec 5),
    (s.ps.el = .el1 ∨ (s.ps.el = .el2 ∧ curSpace s ≠ .realm) →
      exec (.dcCipae rt) s = undefined s ∧ exec (.dcCigdpae rt) s = undefined s) ∧
    (has .MEC s = true → s.ps.el = .el3 ∨ (s.ps.el = .el2 ∧ curSpace s = .realm) →
      ∀ i ∈ [Instr.dcCipae rt] ++ (if has .MTE s then [.dcCigdpae rt] else []),
        ∃ t, Completes i [] false false s { s with stale := t.stale } t ∧
          t.stale.map (·.1) = s.stale.map (·.1))

/-- Where the level may execute it, and (RPAOS apart) the target Security state is not reserved, each TLBI with a row
removes exactly the TLB entries its operation matches: ALLE1 and ALLE1NXS those of the EL1&0 regime of the Security
state; RVAE1 and RVAAE1 those with stage 1, RIPAS2E1 those of stage 2 alone, RPAOS those with GPT information whose
whole block overlaps the range, in bits [55:0] of the virtual, [51:0] of the intermediate or physical address; RVAE1
of a regime with two ranges only global entries and those of the final level with the ASID Xt[63:48]. RPAOS, which
needs FEAT_RME, also while {NSE, NS} is reserved, removes the cached GPT entries that the range overlaps, at any
level. The monitors stay or are cleared; nothing else changes. The model's choices in it: that HCR_EL2.TTLB traps none
of them at EL1 (log entry 12); and (log entry 52) the range is Config.tlbiRange of the operand, the conditions of a
match that the source elides are Config.tlbiElided; that ALLE1 covers the one Security state that EL1 has, by the
state an entry was made in; that the conditions of R104 are those of the by-range forms by address.
(41_system_instructions.md R141, 41_system_instructions.md R142, 41_system_instructions.md R154, 20_memory.md R104,
20_memory.md R105, log entry 52, log entry 12) -/
def Obligations.TlbInvalidations : Prop :=
  ∀ (s : State) (rt : BitVec 5) (i : Instr) (least : Nat) (lo hi v : Word) (M : TLBEntry → Prop), v = readX rt s →
    (tlbiReserved s = false ∧
        ((i = .tlbiAlle1 ∨ i = .tlbiAlle1nxs) ∧ least = 2 ∧ (M = fun e => e.regime = .el10 ∧ e.ss = lowerSpace s) ∨
         i = .tlbiRvae1 rt ∧ least = 1 ∧ (lo, hi) = rangeOf .rva .el1 v s ∧
          (M = fun e => e.includesS1 = true ∧ Overlaps 56 lo hi e.ia e.blocksize ∧ Config.tlbiElided 1 v e = true ∧
            (twoRanges e.regime = true → e.global = true ∨ e.finalLevel = true ∧ e.asid = field v 48 16)) ∨
         i = .tlbiRvaae1 rt ∧ least = 1 ∧ (lo, hi) = rangeOf .rvaa .el1 v s ∧
          (M = fun e => e.includesS1 = true ∧ Overlaps 56 lo hi e.ia e.blocksize ∧ Config.tlbiElided 2 v e = true) ∨
         i = .tlbiRipas2e1 rt ∧ least = 2 ∧ (lo, hi) = rangeOf .ripas2 .el1 v s ∧
          (M = fun e => e.includesS1 = false ∧ e.includesS2 = true ∧ Overlaps 52 lo hi e.ia e.blocksize ∧
            Config.tlbiElided 3 v e = true)) ∨
      i = .tlbiRpaos rt ∧ least = 3 ∧ has .RME s = true ∧ (lo, hi) = rangeOf .rpa .el3 v s ∧
        (M = fun e => e.includesGpt = true ∧ Overlaps 52 lo hi (e.oa.setWidth 64) e.blocksize)) →
    least ≤ elNum s.ps.el →
    ∃ t, Completes i [] false false s
        { s with tlb := t.tlb, gptTlb := t.gptTlb, exLocal := t.exLocal, exGlobal := t.exGlobal, exTlbi := true } t ∧
      (∀ e, e ∈ t.tlb ↔ e ∈ s.tlb ∧ ¬M e) ∧
      (∀ e, e ∈ t.gptTlb ↔ e ∈ s.gptTlb ∧ (i = .tlbiRpaos rt → ¬Overlaps 52 lo hi (e.pa.setWidth 64) e.size)) ∧
      (t.exLocal = s.exLocal ∨ t.exLocal = none) ∧ (t.exGlobal = s.exGlobal ∨ t.exGlobal = none)

/-- With FEAT_RME, at EL3, while SCR_EL3.{NSE, NS}, as an indirect read sees it, is {1, 0} (bits [62] and [0], the
places are the model's, log entry 8), TLBI ALLE1, ALLE1NXS, RVAE1, RVAAE1 and RIPAS2E1 complete and change nothing but
the pc: no TLB entry is removed and no exception is taken. (41_system_instructions.md R154, 70_reset_and_hazards.md
R324, log entry 8) -/
def Obligations.TlbiForReservedStateIsNop : Prop :=
  ∀ (s : State) (rt : BitVec 5), has .RME s = true → s.ps.el = .el3 → ibit s .SCR_EL3 62 = true →
    ibit s .SCR_EL3 0 = false →
    ∀ i ∈ [Instr.tlbiAlle1, .tlbiAlle1nxs, .tlbiRvae1 rt, .tlbiRvaae1 rt, .tlbiRipas2e1 rt],
      ∃ t, Completes i [] false false s s t

/-- Above EL0: where the stage 1 translation of Xt for EL1 (or EL2 with {E2H,TGE} {1,1}) succeeds, AT S1E1R completes
with bit [0] of PAR_EL1 0 and the physical address bits [51:12] in it; where it faults with a fault that is not taken
as an exception, it completes with bit [0] 1 and the fault status in bits [6:1]. No other System register, no register
and no flag changes. In memory at most the Access flags of the descriptors of the walk are set: after a success those
of the translation (faultUpdates of its updates), or none; after a fault some of those the entry of the walk would
update, or none. At EL0 it is UNDEFINED. The layout of PAR_EL1 is the model's (log entry 8), that the translation uses
no TLB entry and makes none (log entry 18), and that no control, HCR_EL2.AT among them, traps it at EL1 (log entries
12, 61). Where a descriptor holds the Access flag, and in which byte order it is updated, are the model's too (log
entries 104, 107). (41_system_instructions.md R149, 20_memory.md R81, 20_memory.md R117, log entry 8, log entry 18,
log entry 12, log entry 61, log entries 104, 107) -/
def Obligations.AddressTranslationReports : Prop :=
  ∀ (s : State) (rt : BitVec 5),
    (s.ps.el = .el0 → exec (.atS1e1r rt) s = undefined s) ∧
    (s.ps.el ≠ .el0 →
      (∀ x u, atTranslate ⟨.el1, false, false, false⟩ (readX rt s) s = .ok x u →
        u.mem = s.mem ∧ u.stale = s.stale ∧
        ∃ t, Completes (.atS1e1r rt) [] false false s { s with
            sys := t.sys, mem := (faultUpdates x.updates u).mem, stale := (faultUpdates x.updates u).stale } t ∧
          bitAt (sreg t .PAR_EL1) 0 = false ∧ field (sreg t .PAR_EL1) 12 40 = field (BitVec.ofNat 64 x.pa) 12 40 ∧
          ∀ q, q ≠ .PAR_EL1 → sreg t q = sreg s q) ∧
      (∀ k va u d c, atTranslate ⟨.el1, false, false, false⟩ (readX rt s) s = .fault k va u → atRaises k = false →
        d = atDesc ⟨.el1, false, false, false⟩ s → c = atContext ⟨.el1, false, false, false⟩ s →
        (∃ us : List DescUpdate, us.Sublist (walkUpdates d (lookupAddr d (readX rt s) c) c) ∧
          u.mem = (updateDescriptors (us.map flagOnly) s).mem ∧
          u.stale = (updateDescriptors (us.map flagOnly) s).stale) ∧
        ∃ t, Completes (.atS1e1r rt) [] false false s { s with sys := t.sys, mem := u.mem, stale := u.stale } t ∧
          bitAt (sreg t .PAR_EL1) 0 = true ∧ field (sreg t .PAR_EL1) 1 6 = faultStatus k ∧
          ∀ q, q ≠ .PAR_EL1 → sreg t q = sreg s q))

/-- With FEAT_PAuth: disabled by SCTLR_ELx.En*, each PAC* instruction is a NOP; enabled and not trapped it writes its
register: the bits outside the PAC field are the pointer's, and where the field was copies of bit [55] it becomes that
of ComputePAC of the pointer, the modifier and the key. Without FEAT_PAuth the hint forms are NOPs and the others
UNDEFINED. No other register, no flag and no memory changes. The model's choices in it: the registers of the keys (log
entry 97) and the TBI bit that decides where the PAC field ends (log entry 99), that the field takes the bits of
ComputePAC at its own places (log entry 30), what ComputePAC is given (log entry 105), and what becomes of them
without FEAT_PAuth (log entry 106). (40_pauth_bti.md R132, 40_pauth_bti.md R133, 40_pauth_bti.md R135, 30_encoding.md
R122, 60_exceptions.md R253, log entry 30, log entry 97, log entry 99, log entry 105, log entry 106) -/
def Obligations.PacInsertion : Prop :=
  ∀ (s : State) (rn rd : BitVec 5), ∀ p ∈ pacInserts rn rd s,
    (has .PAuth s = true → sctlr s p.key.enable = false → ∃ t, Completes p.instr [] false false s s t) ∧
    (has .PAuth s = false → p.hint = true → ∃ t, Completes p.instr [] false false s s t) ∧
    (has .PAuth s = false → p.hint = false → exec p.instr s = undefined s) ∧
    (has .PAuth s = true → sctlr s p.key.enable = true → apiTraps s = false →
      ∃ t v, Completes p.instr [p.rd] false false s s t ∧ Holds p.rd v t ∧
        v &&& ~~~(pacField true (readX p.rd s) s) = readX p.rd s &&& ~~~(pacField true (readX p.rd s) s) ∧
        (pacStrip (pacField true (readX p.rd s) s) (readX p.rd s) = readX p.rd s →
          v &&& pacField true (readX p.rd s) s =
            Config.computePAC (readX p.rd s) p.modifier (p.key.value s).1 (p.key.value s).2 &&&
              pacField true (readX p.rd s) s))

/-- With FEAT_PAuth: disabled, each AUT* instruction is a NOP; enabled and not trapped, with the correct PAC it writes
the pointer with the PAC field made copies of bit [55]; with an incorrect one it takes a PAC Fail exception, EC 0x1C,
where FEAT_FPAC is implemented, and otherwise completes with that pointer changed in bits [54:53] alone, which hold
0b01 or 0b10. The source gives neither place nor value of the change (91_not_in_source.md N13): the place is the
model's choice, and which of the two values it is, is free (log entry 87). Without FEAT_PAuth the hint forms are NOPs
and the others UNDEFINED. Nothing else changes. More choices of the model: the registers of the keys (log entry 97)
the TBI bit that decides where the PAC field ends (log entry 99), the copies of bit [55] in a stripped field and what
ComputePAC is given (log entry 105), and what becomes of them without FEAT_PAuth (log entry 106). (40_pauth_bti.md
R128, 40_pauth_bti.md R132, 30_encoding.md R122, 60_exceptions.md R239, log entry 8, log entry 87, log entry 97, log
entry 99, log entry 105, log entry 106) -/
def Obligations.PacChecking : Prop :=
  ∀ (s : State) (rn rd : BitVec 5), ∀ p ∈ pacChecks rn rd s,
    (has .PAuth s = true → sctlr s p.key.enable = false → ∃ t, Completes p.instr [] false false s s t) ∧
    (has .PAuth s = false → p.hint = true → ∃ t, Completes p.instr [] false false s s t) ∧
    (has .PAuth s = false → p.hint = false → exec p.instr s = undefined s) ∧
    (has .PAuth s = true → sctlr s p.key.enable = true → apiTraps s = false →
      (pacCorrect p.key (readX p.rd s) p.modifier s = true →
        ∃ t, Completes p.instr [p.rd] false false s s t ∧
          Holds p.rd (pacStrip (pacField false (readX p.rd s) s) (readX p.rd s)) t) ∧
      (pacCorrect p.key (readX p.rd s) p.modifier s = false → has .FPAC s = true →
        ∃ iss, exec p.instr s = raise (syncExc (ownTarget s) 0x1C iss s) s) ∧
      (pacCorrect p.key (readX p.rd s) p.modifier s = false → has .FPAC s = false →
        ∃ t v, Completes p.instr [p.rd] false false s s t ∧ Holds p.rd v t ∧
          (field v 53 2 = 0b01#2 ∨ field v 53 2 = 0b10#2) ∧
          ∀ n, n < 53 ∨ 55 ≤ n →
            bitAt v n = bitAt (pacStrip (pacField false (readX p.rd s) s) (readX p.rd s)) n))

/-- For every key, modifier, translation configuration and PAC function: a pointer whose PAC field is copies of bit
[55], with a PAC inserted, is correct for the same key and modifier in the same state, and authentication gives the
pointer itself. FEAT_CONSTPACFIELD makes no difference. The model's choices in it: the registers of the keys (log
entry 97) and the TBI bit that decides where the PAC field ends (log entry 99), which bits of ComputePAC the field
takes (log entry 30), what ComputePAC is given and what a stripped field holds (log entry 105). (40_pauth_bti.md R132,
40_pauth_bti.md R133, 40_pauth_bti.md R134, 40_pauth_bti.md R135, log entry 30, log entry 97, log entry 99, log entry
105) -/
def Obligations.PacRoundTrip : Prop :=
  ∀ (k : PacKey) (ptr modifier : Word) (s : State), pacStrip (pacField true ptr s) ptr = ptr →
    pacCorrect k (addPac k ptr modifier s) modifier s = true ∧
    authResult k (addPac k ptr modifier s) modifier s = ptr

/-- With FEAT_PAuth and no trap, PACGA completes: Xd holds the most significant 32 bits of ComputePAC of Xn, the
modifier Xm or SP and the Generic key, above 32 zero bits; for Xd 31 the result is discarded. No other register, no
flag and no memory changes. The model's choice in it: the registers that hold the Generic key (log entry 97).
(40_pauth_bti.md R130, 60_exceptions.md R253, log entry 97) -/
def Obligations.GenericAuthenticationCode : Prop :=
  ∀ (s : State) (rm rn rd : BitVec 5), has .PAuth s = true → apiTraps s = false →
    ∃ t, Completes (.pacga rm rn rd) [rd] false false s s t ∧
      Holds rd (Config.computePAC (readX rn s) (readXSP rm s) (ireg s .APGAKeyHi_EL1) (ireg s .APGAKeyLo_EL1) &&&
        0xFFFFFFFF00000000) t

/-- With FEAT_PAuth, EL2 enabled, HCR_EL2.API 0, at EL1, or at EL0 with {E2H,TGE} not {1,1}: PACGA, and every PAC*,
AUT*, authenticated branch, LDRAA and LDRAB whose key is enabled, takes an exception to EL2 with EC 0x09; so do ERETAA
and ERETAB above EL0 where no other control traps them. Branches and exception returns are taken outside Debug state.
(60_exceptions.md R253) -/
def Obligations.PacInstructionsTrapped : Prop :=
  ∀ (s : State) (rm rn rd : BitVec 5), has .PAuth s = true → el2Enabled s = true → ibit s .HCR_EL2 41 = false →
    (s.ps.el = .el1 ∨ (s.ps.el = .el0 ∧ e2hTge s = false)) →
    (∃ iss, exec (.pacga rm rn rd) s = raise (syncExc .el2 0x09 iss s) s) ∧
    (∀ p ∈ pacInserts rn rd s ++ pacChecks rn rd s, sctlr s p.key.enable = true →
      ∃ iss, exec p.instr s = raise (syncExc .el2 0x09 iss s) s) ∧
    (halted s = false → ∀ b ∈ authBranches rn rm s, sctlr s b.key.enable = true →
      ∃ iss, exec b.instr s = raise (syncExc .el2 0x09 iss s) s) ∧
    (halted s = false → s.ps.el ≠ .el0 → eretTrapped s = false →
      (sctlr s PacKey.ia.enable = true → ∃ iss, exec .eretaa s = raise (syncExc .el2 0x09 iss s) s) ∧
      (sctlr s PacKey.ib.enable = true → ∃ iss, exec .eretab s = raise (syncExc .el2 0x09 iss s) s)) ∧
    (∀ m sbit imm9 w base, baseReg rn s = .ok base s →
      sctlr s (if m = 1#1 then PacKey.db else PacKey.da).enable = true →
      ∃ iss, exec (.ldra m sbit imm9 w rn rd) s = raise (syncExc .el2 0x09 iss s) s)

/-- Not in Debug state, with FEAT_PAuth: each of the ten branches that authenticate goes to its address as it is where
the key is disabled, and where it is enabled, not trapped and the PAC correct, to the address without the PAC; the
linking forms put the address of the next instruction in X30; PSTATE.BTYPE becomes what the form leaves (log entry
31). Nothing else changes. An incorrect PAC with FEAT_FPACCOMBINE gives a PAC Fail exception, EC 0x1C. The model's
choices in it: the registers of the keys (log entry 97) the TBI bit that decides where the PAC field ends (log entry
99), what ComputePAC is given and what a stripped field holds (log entry 105). (40_pauth_bti.md R128, 40_pauth_bti.md
R137, 45_base_subset.md R192, log entry 31, log entry 97, log entry 99, log entry 105) -/
def Obligations.AuthenticatedBranches : Prop :=
  ∀ (s : State) (rn rm : BitVec 5), halted s = false → has .PAuth s = true → ∀ b ∈ authBranches rn rm s,
    (∀ a, (sctlr s b.key.enable = false ∧ a = b.address ∨
        sctlr s b.key.enable = true ∧ apiTraps s = false ∧ pacCorrect b.key b.address b.modifier s = true ∧
          a = pacStrip (pacField false b.address s) b.address) →
      ∃ t, exec b.instr s = .next t ∧ BranchedTo a b.btype s t ∧
        Frame (if b.link then [30] else []) false false s t ∧ (b.link = true → readX 30 t = s.pc + 4)) ∧
    (sctlr s b.key.enable = true → apiTraps s = false → pacCorrect b.key b.address b.modifier s = false →
      has .FPACCOMBINE s = true → ∃ iss, exec b.instr s = raise (syncExc (ownTarget s) 0x1C iss s) s)

/-- Not in Debug state: B goes to pc + sext(imm26:00); B.cond does so with imm19 where the condition holds and goes to
the next instruction where it does not; CBZ and CBNZ compare the 64-bit register, or its low 32 bits, with zero; RET
goes to Xn. PSTATE.BTYPE becomes 0, which R192 says of RET alone: after B, B.cond, CBZ and CBNZ it is the model's
choice (log entry 31). No register, flag or byte of memory changes. (45_base_subset.md R191, 45_base_subset.md R192,
45_base_subset.md R194, 30_encoding.md R124, log entry 31) -/
def Obligations.PlainBranches : Prop :=
  ∀ (s : State) (imm26 : BitVec 26) (imm19 : BitVec 19) (cond : BitVec 4) (rt : BitVec 5), halted s = false →
    (∃ t, exec (.b imm26) s = .next t ∧ BranchedTo (s.pc + (imm26.signExtend 64 <<< 2)) 0 s t ∧
      Frame [] false false s t) ∧
    (∃ t, exec (.ret rt) s = .next t ∧ BranchedTo (readX rt s) 0 s t ∧ Frame [] false false s t) ∧
    ∀ (i : Instr) (taken : Bool),
      (i, taken) ∈ [(Instr.bCond imm19 cond, condHolds cond s.ps), (.cbzX imm19 rt, decide (readX rt s = 0)),
        (.cbnzX imm19 rt, decide (readX rt s ≠ 0)), (.cbzW imm19 rt, decide ((readX rt s).setWidth 32 = 0#32)),
        (.cbnzW imm19 rt, decide ((readX rt s).setWidth 32 ≠ 0#32))] →
      ∃ t, exec i s = .next t ∧ Frame [] false false s t ∧
        (taken = true → BranchedTo (s.pc + (imm19.signExtend 64 <<< 2)) 0 s t) ∧ (taken = false → NextPc s t)

/-- Not in Debug state, with the target level using AArch64: SVC goes to EL1 (EL2 from EL0 under TGE, its own level at
EL2 and EL3) with EC 0x15, HVC above EL0 with EL2 enabled to EL2 (EL3 at EL3) with EC 0x16, SMC above EL0 with EL3 to
EL3 with EC 0x17, their return address the next instruction; BRK goes where SVC goes with EC 0x3C, its return address
the BRK. ESR_ELx holds EC, IL and the immediate, SPSR_ELx the old PSTATE; the pc is VBAR_ELx as the entry sees it plus
the offset of the vector. HVC and SMC at EL0 are UNDEFINED. The model's choices in it: the places of EC, IL and the
immediate (log entry 8); that no further control disables HVC and SMC, that they are UNDEFINED at EL0, and where BRK
and SVC go (log entry 12). (60_exceptions.md R240, 60_exceptions.md R216, 60_exceptions.md R200, log entry 8, log
entry 12) -/
def Obligations.SystemCallsAndBreakpoint : Prop :=
  ∀ (s : State) (imm16 : BitVec 16),
    (∀ (i : Instr) (el : EL) (ec : BitVec 6) (ret : Word),
      (i = .svc imm16 ∧ el = ownTarget s ∧ ec = 0x15 ∧ ret = s.pc + 4 ∨
       i = .hvc imm16 ∧ s.ps.el ≠ .el0 ∧ s.cfg.hasEL2 = true ∧ (s.ps.el = .el1 → el2Enabled s = true) ∧
         el = (if s.ps.el = .el3 then .el3 else .el2) ∧ ec = 0x16 ∧ ret = s.pc + 4 ∨
       i = .smc imm16 ∧ s.ps.el ≠ .el0 ∧ s.cfg.hasEL3 = true ∧ el = .el3 ∧ ec = 0x17 ∧ ret = s.pc + 4 ∨
       i = .brk imm16 ∧ el = ownTarget s ∧ ec = 0x3C ∧ ret = s.pc) →
      halted s = false → elUsesA32 el s = false →
      ∃ t, exec i s = .next t ∧ t.ps.el = el ∧ sreg t (elrReg el) = ret ∧ sreg t (spsrReg el) = spsrOf s ∧
        sreg t (esrReg el) = (fieldTo 26 ec ||| bitTo 25 true ||| imm16.setWidth 64) ∧
        t.pc = vectorBase el s + vectorOffset el .sync s ∧ t.mem = s.mem ∧ t.tags = s.tags ∧
        (s.ps.nRW = false → t.x = s.x)) ∧
    (s.ps.el = .el0 → exec (.hvc imm16) s = undefined s ∧ exec (.smc imm16) s = undefined s) ∧
    ownTarget s = (match s.ps.el with | .el0 => if hcr s 27 then .el2 else .el1 | el => el)

/-- With EDSCR.HDE 1 and halting allowed, HLT enters Debug state: STATUS is 0b101111, EDPRSR.HALTED 1, DLR_EL0 the
address of the HLT, DSPSR_EL0 the old PSTATE; registers, memory and the pc stay. Otherwise it is UNDEFINED. DRPS in
Debug state above EL0 restores the flags, and to a legal AArch64 mode the level and stack pointer, from SPSR_ELx,
leaves the pc, registers, memory, and stays in Debug state; outside it, or at EL0, it is UNDEFINED. The model's
choices in it: when halting is allowed and the details of entry and of DRPS (log entries 28 and 56), the places of the
bits (log entry 8), the two UNDEFINED cases of DRPS (log entry 79). (60_exceptions.md R217, 61_debug_pmu_trace.md
R296, 61_debug_pmu_trace.md R277, 41_system_instructions.md R139, log entry 8, log entry 28, log entry 56, log entry
79) -/
def Obligations.HaltingAndRestoring : Prop :=
  ∀ (s : State) (imm16 : BitVec 16),
    (bitAt s.dbg.edscr 14 = true → haltingAllowed s = true →
      ∃ t, exec (.hlt imm16) s = .next t ∧ halted t = true ∧ field t.dbg.edscr 0 6 = 0b101111 ∧
        bitAt t.dbg.edprsr 4 = true ∧ sreg t .DLR_EL0 = s.pc ∧ sreg t .DSPSR_EL0 = spsrOf s ∧ t.pc = s.pc ∧
        t.x = s.x ∧ t.sp = s.sp ∧ t.mem = s.mem ∧ t.tags = s.tags ∧
        ∀ q, q ≠ .DLR_EL0 → q ≠ .DSPSR_EL0 → sreg t q = sreg s q) ∧
    (bitAt s.dbg.edscr 14 = false ∨ haltingAllowed s = false → exec (.hlt imm16) s = undefined s) ∧
    (halted s = false ∨ s.ps.el = .el0 → exec .drps s = undefined s) ∧
    (halted s = true → s.ps.el ≠ .el0 → ∃ t, exec .drps s = .next t ∧ halted t = true ∧ t.pc = s.pc ∧ t.x = s.x ∧
      t.sp = s.sp ∧ t.mem = s.mem ∧ t.tags = s.tags ∧ t.sys = s.sys ∧ t.pend = [] ∧ t.pendCtl = [] ∧
      t.ps.n = bitAt (sreg s (spsrReg s.ps.el)) 31 ∧ t.ps.z = bitAt (sreg s (spsrReg s.ps.el)) 30 ∧
      t.ps.c = bitAt (sreg s (spsrReg s.ps.el)) 29 ∧ t.ps.v = bitAt (sreg s (spsrReg s.ps.el)) 28 ∧
      ∀ el sp, bitAt (sreg s (spsrReg s.ps.el)) 4 = false →
        illegalReturn (sreg s (spsrReg s.ps.el)) (syncContext s) = false →
        modeTarget (field (sreg s (spsrReg s.ps.el)) 0 4) = some (el, sp) → t.ps.el = el ∧ t.ps.spsel = sp)

/-- With FEAT_MTE, a usable base, an address that is a multiple of 16 and its granule located: STG stores bits [59:56]
of Xt or SP as the granule's Allocation Tag where the location is Tagged, and ignores it where it is not; the post-
and pre-indexed forms write base + offset to the base register. No other register, no flag, no byte of memory and no
other tag changes. A misaligned address gives an Alignment fault. The model's choices in it, from outside the spec:
the tag is Xt[59:56], the offset is scaled by 16 and the address must be a multiple of 16 (log entry 32, PRESUMED);
the fault status code (log entry 8). (20_memory.md R58, 20_memory.md R70, 20_memory.md R79, log entry 8, log entry 32)
-/
def Obligations.StoreAllocationTag : Prop :=
  ∀ (s u : State) (imm9 : BitVec 9) (rn rt : BitVec 5) (base : Word) (x : Xlat), Canonical s → has .MTE s = true →
    baseReg rn s = .ok base s →
    ∀ (i : Instr) (va : Word) (back : Bool),
      (i, va, back) ∈ [(Instr.stgOffset imm9 rn rt, base + (imm9.signExtend 64 <<< 4), false),
        (.stgPost imm9 rn rt, base, true), (.stgPre imm9 rn rt, base + (imm9.signExtend 64 <<< 4), true)] →
      (va.toNat % 16 = 0 → locateGranule (tagDesc true) .goesOn va s = .ok x u →
        ∃ t, exec i s = .next t ∧ NextPc s t ∧
          Frame (if back then [rn] else []) (back && rn == 31) false { u with tags := t.tags } t ∧
          TagsStored [x] (fun _ => field (readXSP rt s) 56 4) u t ∧
          (back = true → readXSP rn t = base + (imm9.signExtend 64 <<< 4))) ∧
      (va.toNat % 16 ≠ 0 → DataAbort alignmentStatus va s (exec i s))

/-- With FEAT_MTE2, above EL0, a usable base and every granule of the block located: STZGM, where no granule is Device
memory or in a register frame, zeroes the block and stores Xt[3:0] as the tag of each Tagged granule; STGM stores for
each granule the four bits of Xt at its place; LDGM puts the tag of each granule at its place in Xt, zero where the
granule is not Tagged. No other register, no flag, no other byte and no other tag changes. The model's choices in it:
the operands, Xt[3:0] as the tag of STZGM, four bits of Xt for each granule of STGM and LDGM and zeros elsewhere in
Xt, and the block of GMID_EL1.BS (log entry 32, PRESUMED: R161 says that operands and block size are not in the
source); that they are UNDEFINED at EL0 (log entry 83). (42_loadstore_mte_atomics.md R158, 42_loadstore_mte_atomics.md
R161, 20_memory.md R70, 20_memory.md R79, log entry 32, log entry 83) -/
def Obligations.BlocksOfTags : Prop :=
  ∀ (s u : State) (rn rt : BitVec 5) (base : Word) (xs : List Xlat), Canonical s →
    (s.ps.el = .el0 → exec (.stzgm rn rt) s = undefined s ∧ exec (.stgm rn rt) s = undefined s ∧
      exec (.ldgm rn rt) s = undefined s) ∧
    (has .MTE2 s = true → s.ps.el ≠ .el0 → baseReg rn s = .ok base s →
      (locateGranules stzgmDesc (stzgmDev s) (tagBlock s / 16) (alignDown base (tagBlock s)) s = .ok xs u →
        (∀ x ∈ xs, ordinary x = true) →
        ∃ t, exec (.stzgm rn rt) s = .next t ∧ NextPc s t ∧
          Frame [] false false { u with mem := t.mem, stale := t.stale, tags := t.tags } t ∧ Zeroed xs u t ∧
          TagsStored xs (fun _ => field (readX rt s) 0 4) u t) ∧
      (locateGranules (tagDesc true) .goesOn (tagBlock s / 16) (alignDown base (tagBlock s)) s = .ok xs u →
        ∃ t, exec (.stgm rn rt) s = .next t ∧ NextPc s t ∧ Frame [] false false { u with tags := t.tags } t ∧
          TagsStored xs (fun k => field (readX rt s) (4 * (tagIndex base s + k)) 4) u t) ∧
      (locateGranules (tagDesc false) .goesOn (tagBlock s / 16) (alignDown base (tagBlock s)) s = .ok xs u →
        ∃ t v, exec (.ldgm rn rt) s = .next t ∧ NextPc s t ∧ Frame [rt] false false u t ∧ Holds rt v t ∧
          ∀ k, ∀ h : k < xs.length, tagIndex base s + k < 16 →
            field v (4 * (tagIndex base s + k)) 4 = (if tagged xs[k] u then readTag xs[k].key u else 0)))

/-- With Rt even and at most 22, no trap, a usable base and the 64 locations found (a multiple of 64, Non-cacheable or
Device): LD64B loads Xt to X(t+7); ST64B stores them; ST64BV and ST64BV0 (bits [31:0] of the first from ACCDATA_EL1)
write some status to Xs and store the 64 bytes or nothing. No other register, no flag and no other byte changes. A
cacheable memory type, of the whole translation or, where each stage is checked, of one that an enabled stage
provides, read from no cached entry that must be read again, gives LD64B a Data Abort for Unsupported Exclusive or
Atomic access. The model's choices in it, from outside the spec: the even Xt up to 22, the multiple of 64,
ACCDATA_EL1[31:0] in the first word, the status in Xs and the outcome of storing all or nothing (log entry 33,
PRESUMED); the fault status code 0b110101, which R155 says is not in the source (log entry 8). That stage 1 is not
enabled in the EL1&0 regime with HCR_EL2.DC or TGE is the model's as well (log entry 104).
(42_loadstore_mte_atomics.md R155, log entry 8, log entry 33, log entry 104) -/
def Obligations.SixtyFourByteAccesses : Prop :=
  ∀ (s u : State) (rs rn rt : BitVec 5) (base : Word) (xs : List Xlat), Canonical s → bitAt rt 0 = false →
    rt.toNat ≤ 22 → baseReg rn s = .ok base s →
    (ls64Trap .plain s = none →
      (ls64Locate (dataDesc false rn) base s = .ok xs u →
        ∃ t bs, exec (.ld64b rn rt) s = .next t ∧ NextPc s t ∧
          Frame ((List.range 8).map (nthReg rt)) false false (loaded u t) t ∧ DidRead xs bs u t ∧
          ∀ k < 8, readX (nthReg rt k) t = ofBytes 64 (byteOrder (bigEndian s) ((bs.drop (8 * k)).take 8))) ∧
      (ls64Locate (dataDesc true rn) base s = .ok xs u →
        ∃ t, exec (.st64b rn rt) s = .next t ∧ NextPc s t ∧
          Frame [] false false (stored u t) t ∧
          Wrote xs (eightBytes (readEight rt s) (bigEndian s)) u t) ∧
      (∀ x, unaligned base 64 = false → lookup (dataDesc false rn) base s = .ok x u →
        (∀ k, rereads k (dataDesc false rn) base s = false) →
        (u.cfg.ls64PerStage = false ∧ ls64Type x.type = false ∨
          u.cfg.ls64PerStage = true ∧ (stage1On u = true ∧ ls64Type x.s1Type = false ∨
            stage2On u = true ∧ ls64Type x.s2Type = false)) →
        ∃ v, v.pc = s.pc ∧ DataAbort 0b110101 base v (exec (.ld64b rn rt) s))) ∧
    ∀ (i : Instr) (k : Ls64) (vs : List Word),
      (i = .st64bv rs rn rt ∧ k = .status ∧ vs = readEight rt s ∨
       i = .st64bv0 rs rn rt ∧ k = .status0 ∧ vs = accdataValues (readEight rt s) (ireg s .ACCDATA_EL1)) →
      ls64Trap k s = none → ls64Locate (dataDesc true rn) base s = .ok xs u →
      ∃ t status, exec i s = .next t ∧ NextPc s t ∧ Holds rs status t ∧
        Frame [rs] false false (stored u t) t ∧
        (Wrote xs (eightBytes vs (bigEndian s)) u t ∨ stored u t = u)

/-- With a usable base and the eight locations found (the address a multiple of 8), LDXR and LDAXR write the value to
Xt, mark the reservation block of the first location in the local monitor, and in the global monitor where the memory
is shareable. No other register, no flag and no byte of memory changes. (45_base_subset.md R195, log entry 34) -/
def Obligations.LoadExclusives : Prop :=
  ∀ (s u : State) (rn rt : BitVec 5) (base : Word) (xs : List Xlat), baseReg rn s = .ok base s →
    locateAll (exclusiveDesc false rn) 8 base s = .ok xs u → ∀ i ∈ [Instr.ldxr rn rt, .ldaxr rn rt],
    ∃ t bs x, exec i s = .next t ∧ NextPc s t ∧
      Frame [rt] false false { loaded u t with exLocal := t.exLocal, exGlobal := t.exGlobal, exTlbi := false } t ∧
      DidRead xs bs u t ∧ Holds rt (ofBytes 64 (byteOrder (bigEndian s) bs)) t ∧ xs.head? = some x ∧
      t.exLocal = some (monitorBlock x u) ∧
      t.exGlobal = if x.shareable then some (monitorBlock x u) else u.exGlobal

/-- With a usable base, an address aligned to the whole size, its location found for the monitors and, the descriptors
not yet updated, for the store, and the status register no source and not the base: each Store-Exclusive goes on.
Either the local monitor held the block (or, after a TLB invalidation, some block), Ws is 0 and exactly the bytes of
its data were written, or Ws is 1 and no byte changed; the local monitor is clear; no other register or flag changes.
Otherwise it is the second. A status register that is a source or the base is refused as CONSTRAINED UNPREDICTABLE, or
takes the stack pointer alignment fault of the base if there is one. (45_base_subset.md R195,
42_loadstore_mte_atomics.md R159, 42_loadstore_mte_atomics.md R160, 92_eei_decisions.md D6, 20_memory.md R117, log
entry 27, log entry 34) -/
def Obligations.StoreExclusives : Prop :=
  ∀ (s u v : State) (rs rt2 rn rt : BitVec 5) (base : Word) (x y : Xlat), Canonical s →
    ∀ e ∈ storeExclusives rs rt2 rn rt s,
    (e.clash = true ∨ rs = rn ∧ rn ≠ 31 → exec e.instr s = .refused .unpredictable ∨
      ∃ r, baseReg rn s = .stop r ∧ exec e.instr s = r) ∧
    (e.clash = false → ¬(rs = rn ∧ rn ≠ 31) → baseReg rn s = .ok base s → unaligned base e.size = false →
      lookup (exclusiveDesc true rn) base s = .ok x u →
      locateBy (exclusiveDesc true rn) e.size (fun _ _ => none) base u = .ok y v →
      ∃ t, exec e.instr s = .next t ∧ NextPc s t ∧ t.exLocal = none ∧
        ((u.exLocal = some (monitorBlock x u) ∨ u.exTlbi = true ∧ u.exLocal.isSome = true) ∧ Holds rs 0 t ∧
          Wrote ((List.range e.size).map y.plus) e.bytes v t ∧
          Frame [rs] false false { stored v t with exLocal := t.exLocal, exGlobal := t.exGlobal } t ∨
         Holds rs 1 t ∧ Frame [rs] false false { commit x u with exLocal := none } t))

/-- With a usable base that is not a multiple of the whole access size, every Store-Exclusive (its status register no
source and not the base) and LDXR and LDAXR take a Data Abort with an Alignment fault at the address, whatever
SCTLR_ELx.A is and before the address is translated. The model's choices in it: the fault status code (log entry 8),
and that LDXR and LDAXR check the alignment before the address is translated, which R160 says of Store-Exclusives
alone (log entry 26). (42_loadstore_mte_atomics.md R160, 10_state.md R22, 45_base_subset.md R195, log entry 8, log
entry 26) -/
def Obligations.ExclusivesAlwaysCheckAlignment : Prop :=
  ∀ (s : State) (rs rt2 rn rt : BitVec 5) (base : Word), baseReg rn s = .ok base s →
    (∀ e ∈ storeExclusives rs rt2 rn rt s, e.clash = false → ¬(rs = rn ∧ rn ≠ 31) → unaligned base e.size = true →
      DataAbort alignmentStatus base s (exec e.instr s)) ∧
    (unaligned base 8 = true → ∀ i ∈ [Instr.ldxr rn rt, .ldaxr rn rt],
      DataAbort alignmentStatus base s (exec i s))

/-- MOVZ, ADD and SUB (immediate), SUBS (immediate) and ORR (shifted register) complete in every state with the result
modulo 2^64, or 2^32 zero-extended for the W forms. Register 31 is the stack pointer as the source and destination of
ADD and SUB and the source of SUBS, else zero and discarded. SUBS sets N to the sign, Z to zero, C to no borrow and V
to signed overflow; the others change no flag. No other register and no byte of memory changes. The model's choices in
it, from outside the spec: ORR with a shift, MOVZ with a shift (hw not 0), the 12-bit immediate shifted by 12 (sh 1),
and the stack pointer as the source of SUBS (log entry 95, PRESUMED). (45_base_subset.md R187, 45_base_subset.md R194,
log entry 95) -/
def Obligations.IntegerArithmetic : Prop :=
  ∀ (s : State) (hw : BitVec 2) (hw1 sh : BitVec 1) (imm16 : BitVec 16) (imm12 : BitVec 12) (shift : BitVec 2)
      (imm6 : BitVec 6) (rm rn rd : BitVec 5) (a : Word), a = readXSP rn s → ∀ (b : Word),
    b = (if sh = 1 then imm12.setWidth 64 <<< 12 else imm12.setWidth 64) →
    (∃ t, Completes (.movzX hw imm16 rd) [rd] false false s s t ∧
      Holds rd (imm16.setWidth 64 <<< (16 * hw.toNat)) t) ∧
    (∃ t, Completes (.movzW hw1 imm16 rd) [rd] false false s s t ∧
      Holds rd (imm16.setWidth 64 <<< (16 * hw1.toNat)) t) ∧
    (∃ t, Completes (.addX sh imm12 rn rd) [rd] (rd == 31) false s s t ∧ readXSP rd t = a + b) ∧
    (∃ t, Completes (.subX sh imm12 rn rd) [rd] (rd == 31) false s s t ∧ readXSP rd t = a - b) ∧
    (∃ t, Completes (.addW sh imm12 rn rd) [rd] (rd == 31) false s s t ∧
      readXSP rd t = ((a + b).setWidth 32).setWidth 64) ∧
    (∃ t, Completes (.subW sh imm12 rn rd) [rd] (rd == 31) false s s t ∧
      readXSP rd t = ((a - b).setWidth 32).setWidth 64) ∧
    (∃ t, Completes (.orrX shift rm imm6 rn rd) [rd] false false s s t ∧
      Holds rd (readX rn s ||| shiftReg (readX rm s) shift imm6) t) ∧
    (∃ t, Completes (.subsX sh imm12 rn rd) [rd] false true s s t ∧ Holds rd (a - b) t ∧
      t.ps.n = (a - b).msb ∧ t.ps.z = decide (a = b) ∧ t.ps.c = decide (b.toNat ≤ a.toNat) ∧
      t.ps.v = decide ((a - b).toInt ≠ a.toInt - b.toInt)) ∧
    (∃ t, Completes (.subsW sh imm12 rn rd) [rd] false true s s t ∧
      Holds rd ((a.setWidth 32 - b.setWidth 32 : BitVec 32).setWidth 64) t ∧
      t.ps.n = (a.setWidth 32 - b.setWidth 32 : BitVec 32).msb ∧ t.ps.z = decide (a.setWidth 32 = b.setWidth 32) ∧
      t.ps.c = decide ((b.setWidth 32).toNat ≤ (a.setWidth 32).toNat) ∧
      t.ps.v = decide ((a.setWidth 32 - b.setWidth 32 : BitVec 32).toInt ≠
        (a.setWidth 32).toInt - (b.setWidth 32).toInt))

/-- With a usable base and the eight bytes at base plus offset located: STR writes exactly the bytes of Xt there, in
the byte order of the level, and no other byte; LDR writes the value of those bytes to Xt; the pre-indexed LDR also
writes the address to the base register. Xt 31 is zero, and a load to it is discarded. No other register and no flag
changes. An Alignment fault of locating is taken as a Data Abort at its address; pre-indexed LDR with one register as
base and Xt is refused as CONSTRAINED UNPREDICTABLE. The model's choices in it: that refusal, where R193 lists no
outcome (log entry 27, DESIGN CHOICE), and the fault status code of an Alignment fault (log entry 8, PRESUMED).
(45_base_subset.md R193, 92_eei_decisions.md D13, 92_eei_decisions.md D15, 20_memory.md R60, log entry 8, log entry
27) -/
def Obligations.LoadsAndStores : Prop :=
  ∀ (s u : State) (imm12 : BitVec 12) (imm9 : BitVec 9) (rn rt : BitVec 5) (base : Word) (xs : List Xlat),
    Canonical s → baseReg rn s = .ok base s →
    (locateAll (dataDesc true rn) 8 (base + (imm12.setWidth 64 <<< 3)) s = .ok xs u →
      ∃ t, exec (.strX imm12 rn rt) s = .next t ∧ NextPc s t ∧
        Frame [] false false (stored u t) t ∧
        Wrote xs (byteOrder (bigEndian s) (bytesOf 8 (readX rt s))) u t) ∧
    (locateAll (dataDesc false rn) 8 (base + (imm12.setWidth 64 <<< 3)) s = .ok xs u →
      ∃ t bs, exec (.ldrX imm12 rn rt) s = .next t ∧ NextPc s t ∧
        Frame [rt] false false (loaded u t) t ∧ DidRead xs bs u t ∧
        Holds rt (ofBytes 64 (byteOrder (bigEndian s) bs)) t) ∧
    (¬(rn = rt ∧ rn ≠ 31) → locateAll (writebackDesc false) 8 (base + imm9.signExtend 64) s = .ok xs u →
      ∃ t bs, exec (.ldrXPre imm9 rn rt) s = .next t ∧ NextPc s t ∧
        Frame [rt, rn] (rn == 31) false (loaded u t) t ∧ DidRead xs bs u t ∧
        Holds rt (ofBytes 64 (byteOrder (bigEndian s) bs)) t ∧ readXSP rn t = base + imm9.signExtend 64) ∧
    (rn = rt → rn ≠ 31 → exec (.ldrXPre imm9 rn rt) s = .refused .unpredictable) ∧
    (∀ va, locateAll (dataDesc true rn) 8 (base + (imm12.setWidth 64 <<< 3)) s = .fault .alignment va u →
      ∃ v, v.pc = u.pc ∧ DataAbort alignmentStatus va v (exec (.strX imm12 rn rt) s)) ∧
    (∀ va, locateAll (dataDesc false rn) 8 (base + (imm12.setWidth 64 <<< 3)) s = .fault .alignment va u →
      ∃ v, v.pc = u.pc ∧ DataAbort alignmentStatus va v (exec (.ldrX imm12 rn rt) s))

/-- With FEAT_PAuth, a usable base, the address a + simm10 (a the base as it is where key DA or DB is disabled; the
base without its PAC where the key is enabled, not trapped and the PAC correct for modifier zero) located: Xt holds
the eight bytes there; with writeback the base register holds that address (over Xt where they are one register). No
other register, no flag and no byte of memory changes. An incorrect PAC with FEAT_FPACCOMBINE gives a PAC Fail
exception, EC 0x1C, and loads no register. The model's choice in it: with writeback and one register as Xt and base
that register holds the address, where R193 calls the pre-indexed LDR CONSTRAINED UNPREDICTABLE (log entry 27, DESIGN
CHOICE), the registers of the keys (log entry 97) the TBI bit that decides where the PAC field ends (log entry 99),
what ComputePAC is given and what a stripped field holds (log entry 105). (40_pauth_bti.md R137, 45_base_subset.md
R193, 40_pauth_bti.md R128, 30_encoding.md R121, log entry 27, log entry 97, log entry 99, log entry 105) -/
def Obligations.AuthenticatedLoads : Prop :=
  ∀ (s u : State) (m sbit : BitVec 1) (imm9 : BitVec 9) (w : BitVec 1) (rn rt : BitVec 5) (base a addr : Word)
      (xs : List Xlat) (k : PacKey),
    has .PAuth s = true → baseReg rn s = .ok base s → k = (if m = 1 then .db else .da) →
    ((sctlr s k.enable = false ∧ a = base ∨ sctlr s k.enable = true ∧ apiTraps s = false ∧
        pacCorrect k base 0 s = true ∧ a = pacStrip (pacField false base s) base) →
      addr = a + ((sbit ++ imm9).signExtend 64 <<< 3) →
      locateAll (if w = 1 then writebackDesc false else dataDesc false rn) 8 addr s = .ok xs u →
      ∃ t bs, exec (.ldra m sbit imm9 w rn rt) s = .next t ∧ NextPc s t ∧
        Frame (if w = 1 then [rt, rn] else [rt]) (w == 1 && rn == 31) false (loaded u t) t ∧
        DidRead xs bs u t ∧ (w = 1 → readXSP rn t = addr) ∧
        (w = 0 ∨ rn ≠ rt ∨ rn = 31 → Holds rt (ofBytes 64 (byteOrder (bigEndian s) bs)) t)) ∧
    (sctlr s k.enable = true → apiTraps s = false → pacCorrect k base 0 s = false → has .FPACCOMBINE s = true →
      ∃ r v, exec (.ldra m sbit imm9 w rn rt) s = raise r v ∧ r.ec = 0x1C ∧ r.ret = s.pc ∧ v.x = s.x ∧ v.sp = s.sp)

/-- Where the bytes of an access are all located, one location for each byte, the state differs at most in memory, in
the TLB, in the cached GPT entries, in the staleness of code, and in the TFSR registers. Memory changes by exactly the
updates of descriptors that the translations ask for: those of every byte of an unaligned access, those of the one
translation of an aligned one. The canonical form is kept; and with translation, stage 2 and granule protection off,
memory and the TLB do not change at all. An access of several bytes reads or writes none of them before all are
located. The places and the byte order of an update in its descriptor, and that translation is off in the EL1&0 regime
with HCR_EL2.DC or TGE, are the model's choices (log entries 104, 107). (20_memory.md R58, 61_debug_pmu_trace.md R311,
92_eei_decisions.md D15, log entries 104, 107) -/
def Obligations.LocatingAnAccess : Prop :=
  ∀ (d : AccDesc) (n : Nat) (va : Word) (s u : State) (xs : List Xlat), locateAll d n va s = .ok xs u →
    xs.length = n ∧ u = { s with mem := u.mem, stale := u.stale, tlb := u.tlb, gptTlb := u.gptTlb, sys := u.sys } ∧
    (∀ r, r ≠ .TFSR_EL1 → r ≠ .TFSRE0_EL1 → r ≠ .TFSR_EL2 → r ≠ .TFSR_EL3 → sreg u r = sreg s r) ∧
    (0 < n → u.mem = (updateDescriptors (accessUpdates n va xs) s).mem ∧
      u.stale = (updateDescriptors (accessUpdates n va xs) s).stale) ∧
    (Canonical s → Canonical u) ∧ (flat d s = true → u.mem = s.mem ∧ u.stale = s.stale ∧ u.tlb = s.tlb)

/-- With translation, stage 2 and granule protection off and canonical memory: if an eight-byte store at an address,
aligned or not, of either byte order, completes and none of its locations is Device memory or in a register frame,
then an eight-byte load at the same address that completes in the state after it gives the value stored. That
translation is off in the EL1&0 regime with HCR_EL2.DC or TGE is the model's choice (log entry 104). (20_memory.md
R60, 92_eei_decisions.md D13, 92_eei_decisions.md D15, 45_base_subset.md R193, log entry 104) -/
def Obligations.StoreThenLoad : Prop :=
  ∀ (s t t' v : State) (m n : BitVec 5) (va w w' : Word) (xs : List Xlat) (f : State → State), Canonical s →
    flat (dataDesc true n) s = true →
    locateAll (dataDesc true n) 8 va s = .ok xs v → (∀ x ∈ xs, ordinary x = true) →
    memWrite (dataDesc true n) 8 va w s = .ok () t → memRead (dataDesc false m) 8 64 va f t = .ok w' t' → w' = w

/-- Where SVE (SME in Streaming mode) exists and no control traps it: MOVPRFX copies Zn to Zd, the predicated form the
active elements, the others zeroed or kept, and records the prefix. Outside Streaming mode FMMLA writes Zda with the
product sum of each whole segment (its arithmetic is a parameter) and may only set bits of FPSR; the double form needs
FEAT_F64MM and an Effective length of 256 bits: it is UNDEFINED where no length reaches 256, before the traps, or the
Effective one does not, after them. Only Zd and FPSR change. FMMLA in Streaming mode is left out. The model's choices
in it: that FMMLA only sets bits of FPSR (log entry 29, DEDUCED; R174 is silent), and what becomes of the bits of Zd
above the vector length (log entry 35). (43_fp_sve_sme.md R173, 43_fp_sve_sme.md R174, 60_exceptions.md R254, log
entry 29, log entry 35) -/
def Obligations.SveInstructions : Prop :=
  ∀ (s : State) (size : BitVec 2) (m : BitVec 1) (pg : BitVec 3) (zm zn zd : BitVec 5),
    (sveExists s = true → vecTrap (sveUnits s) s = none →
      (∃ t, exec (.movprfx zn zd) s = .next t ∧ NextPc s t ∧
        Frame [] false false { s with z := t.z, movprfx := some (prefixOf zd none s) } t ∧ VecWritten zd (readZ zn s) s t) ∧
      (∃ t, exec (.movprfxPred size m pg zn zd) s = .next t ∧ NextPc s t ∧
        Frame [] false false { s with z := t.z, movprfx := some (prefixOf zd (some (pg, size)) s) } t ∧
        VecWritten zd ((readZ zn s &&& activeMask (s.p.getD pg.toNat 0) size) |||
          (if m = 1 then readZ zd s &&& ~~~(activeMask (s.p.getD pg.toNat 0) size) else 0)) s t)) ∧
    (has .SVE s = true → s.ps.sm = false → vecTrap (sveUnits s) s = none →
      (∃ t, exec (.fmmlaS zm zn zd) s = .next t ∧ NextPc s t ∧
        Frame [] false false { s with z := t.z, sys := t.sys } t ∧
        VecWritten zd (fmmla (Config.fmmlaS (ireg s .FPCR)) (vl s / 128) (readZ zd s) (readZ zn s) (readZ zm s)) s t ∧
        sreg s .FPSR &&& ~~~(sreg t .FPSR) = 0 ∧ ∀ q, q ≠ .FPSR → sreg t q = sreg s q) ∧
      (has .F64MM s = true → 256 ≤ s.cfg.maxVL → 256 ≤ vl s →
        ∃ t v, exec (.fmmlaD zm zn zd) s = .next t ∧ NextPc s t ∧
          Frame [] false false { s with z := t.z, sys := t.sys } t ∧ VecWritten zd v s t ∧
          v &&& maskOf 2048 0 (256 * (vl s / 256)) =
            fmmla (Config.fmmlaD (ireg s .FPCR)) (vl s / 256) (readZ zd s) (readZ zn s) (readZ zm s) &&&
              maskOf 2048 0 (256 * (vl s / 256)) ∧
          sreg s .FPSR &&& ~~~(sreg t .FPSR) = 0 ∧ ∀ q, q ≠ .FPSR → sreg t q = sreg s q) ∧
      (vl s < 256 → exec (.fmmlaD zm zn zd) s = undefined s)) ∧
    (s.cfg.maxVL < 256 → exec (.fmmlaD zm zn zd) s = undefined s)

/-- In every state where no control traps floating-point, FMAX, FMIN, FMAXNM and FMINNM, single and double, go on to a
next state: the low 32 or 64 bits of Vd are the result of R181 for the low parts of Vn and Vm under FPCR.{AH, DN}, the
other bits zero up to the vector length; a denormal source may count as a zero of its sign where FPCR.FZ or FIZ is 1,
and a denormal result of FMAXNM or FMINNM as one where FZ is 1 (log entry 37). FPSR bits are only ever set; the pc
moves on; no other System register, register, flag or byte of memory changes. The model's choices in it: the places of
the FPCR fields, AH [1], DN [25], FZ [24] and FIZ [0] (log entry 8, PRESUMED), that FPSR bits are only set (log entry
29, DEDUCED; R181 does not address the flags), what becomes of the bits of Vd above the vector length (log entry 35),
and the flushing of denormals (log entry 37). (43_fp_sve_sme.md R167, 43_fp_sve_sme.md R176, 43_fp_sve_sme.md R177,
43_fp_sve_sme.md R179, 43_fp_sve_sme.md R181, log entry 8, log entry 29, log entry 35, log entry 37) -/
def Obligations.MinimumAndMaximum : Prop :=
  ∀ (s : State) (rm rn rd : BitVec 5) (c : Word), vecTrap [.fp] s = none → c = ireg s .FPCR →
    (∃ t, exec (.fmaxS rm rn rd) s = .next t ∧
      FpWritten (w := 32) rn rm rd (fpMinMax true (bitAt c 1) (bitAt c 25)) false s t) ∧
    (∃ t, exec (.fmaxD rm rn rd) s = .next t ∧
      FpWritten (w := 64) rn rm rd (fpMinMax true (bitAt c 1) (bitAt c 25)) false s t) ∧
    (∃ t, exec (.fminS rm rn rd) s = .next t ∧
      FpWritten (w := 32) rn rm rd (fpMinMax false (bitAt c 1) (bitAt c 25)) false s t) ∧
    (∃ t, exec (.fminD rm rn rd) s = .next t ∧
      FpWritten (w := 64) rn rm rd (fpMinMax false (bitAt c 1) (bitAt c 25)) false s t) ∧
    (∃ t, exec (.fmaxnmS rm rn rd) s = .next t ∧
      FpWritten (w := 32) rn rm rd (fpMinMaxNum true (bitAt c 1) (bitAt c 25)) true s t) ∧
    (∃ t, exec (.fmaxnmD rm rn rd) s = .next t ∧
      FpWritten (w := 64) rn rm rd (fpMinMaxNum true (bitAt c 1) (bitAt c 25)) true s t) ∧
    (∃ t, exec (.fminnmS rm rn rd) s = .next t ∧
      FpWritten (w := 32) rn rm rd (fpMinMaxNum false (bitAt c 1) (bitAt c 25)) true s t) ∧
    (∃ t, exec (.fminnmD rm rn rd) s = .next t ∧
      FpWritten (w := 64) rn rm rd (fpMinMaxNum false (bitAt c 1) (bitAt c 25)) true s t)

/-- For single and double precision, FMAX and FMIN: with AH 0 negative zero compares less than positive zero; with DN
0 a NaN input gives a Quiet NaN, with DN 1 the Default NaN; with AH 1, if both inputs are zeros the result is the
second input, and if either is a NaN it is the second input, whatever DN is. (R177) -/
def Obligations.MinMaxOfZerosAndNaNs : Prop :=
  (∀ (largest dn : Bool) (a b : BitVec 32),
    fpMinMax largest false dn (0x80000000#32) 0#32 = (if largest then 0#32 else 0x80000000#32) ∧
    fpMinMax largest false dn 0#32 (0x80000000#32) = (if largest then 0#32 else 0x80000000#32) ∧
    (isNaN a = true ∨ isNaN b = true → isQuiet (fpMinMax largest false false a b) = true ∧
      fpMinMax largest false true a b = 0x7FC00000#32 ∧ fpMinMax largest true dn a b = b) ∧
    (isZeroFp a = true → isZeroFp b = true → fpMinMax largest true dn a b = b)) ∧
  (∀ (largest dn : Bool) (a b : BitVec 64),
    fpMinMax largest false dn (0x8000000000000000#64) 0#64 = (if largest then 0#64 else 0x8000000000000000#64) ∧
    fpMinMax largest false dn 0#64 (0x8000000000000000#64) = (if largest then 0#64 else 0x8000000000000000#64) ∧
    (isNaN a = true ∨ isNaN b = true → isQuiet (fpMinMax largest false false a b) = true ∧
      fpMinMax largest false true a b = 0x7FF8000000000000#64 ∧ fpMinMax largest true dn a b = b) ∧
    (isZeroFp a = true → isZeroFp b = true → fpMinMax largest true dn a b = b))

/-- VMOVL, A32 and T32, with an even Vd and Advanced SIMD enabled, writes Qd: for imm3H 1, 2 or 4 each element of 8,
16 or 32 bits of Dm, zero-extended for U 1 and sign-extended for U 0. Only that vector register changes. With an odd
Vd it is UNDEFINED; with EL1 in AArch32 and CPACR, FPEXC or NSACR disabling Advanced SIMD it is UNDEFINED. Odd Vd, the
extension of the elements and where Dm and Qd stand in the vector registers are in no rule of the spec: they are the
model's, from outside it (log entry 39, PRESUMED). (44_aarch32.md R182, 44_aarch32.md R183, log entry 39) -/
def Obligations.VectorMoveLong : Prop :=
  ∀ (s : State) (u d : BitVec 1) (imm3H : BitVec 3) (vd : BitVec 4) (m : BitVec 1) (vm : BitVec 4),
    (∀ i ∈ [Instr.vmovlA32 u d imm3H vd m vm, .vmovlT32 u d imm3H vd m vm],
      (bitAt vd 0 = true → exec i s = undefined s) ∧
      (bitAt vd 0 = false → elUsesA32 .el1 s = true → a32SimdDisabled s = true → exec i s = undefined s) ∧
      (bitAt vd 0 = false →
        (elUsesA32 .el1 s = false ∧ vecTrap [.fp] s = none ∨
         elUsesA32 .el1 s = true ∧ a32SimdDisabled s = false ∧ hcptrTraps s = false) →
        ∃ t, exec i s = .next t ∧ NextPc s t ∧ Frame [] false false { s with z := t.z } t ∧
          VecWritten ((d ++ vd) >>> 1) ((vmovlValue (u == 1) imm3H (readD (m ++ vm) s)).setWidth 2048) s t)) ∧
    ∀ (un : Bool) (v : Word) (e : Nat),
      (e < 8 → field (vmovlValue un 1 v) (16 * e) 16 =
        if un then (field v (8 * e) 8).setWidth 16 else (field v (8 * e) 8).signExtend 16) ∧
      (e < 4 → field (vmovlValue un 2 v) (32 * e) 32 =
        if un then (field v (16 * e) 16).setWidth 32 else (field v (16 * e) 16).signExtend 32) ∧
      (e < 2 → field (vmovlValue un 4 v) (64 * e) 64 =
        if un then (field v (32 * e) 32).setWidth 64 else (field v (32 * e) 32).signExtend 64)

/-- Where the condition holds: with t not 15, MRC of DBGDSCRint writes the register to Rt and leaves the upper half of
the X register that holds it; with t 15, not in Debug state, N, Z, C, V become bits [31:28] and no register is
written; in Debug state with t 15 it is refused. Where the condition fails it is a NOP. Nothing else changes. The
model's choices in it: which X register holds Rt, its kept upper half and the NOP of a condition that fails (log entry
39), and that no control traps it at any level (log entry 12). (44_aarch32.md R184, log entry 12, log entry 39) -/
def Obligations.DebugStatusRead : Prop :=
  ∀ (s : State) (cond rt : BitVec 4),
    (condHolds cond s.ps = false → ∃ t, Completes (.mrcDbgdscrint cond rt) [] false false s s t) ∧
    (condHolds cond s.ps = true → rt ≠ 15 →
      ∃ t, Completes (.mrcDbgdscrint cond rt) [a32Index rt s] false false s s t ∧
        field (readX (a32Index rt s) t) 0 32 = s.a32.dbgdscrint ∧
        field (readX (a32Index rt s) t) 32 32 = field (readX (a32Index rt s) s) 32 32) ∧
    (condHolds cond s.ps = true → rt = 15 → halted s = false →
      ∃ t, Completes (.mrcDbgdscrint cond rt) [] false true s s t ∧
        t.ps.n = bitAt s.a32.dbgdscrint 31 ∧ t.ps.z = bitAt s.a32.dbgdscrint 30 ∧
        t.ps.c = bitAt s.a32.dbgdscrint 29 ∧ t.ps.v = bitAt s.a32.dbgdscrint 28) ∧
    (condHolds cond s.ps = true → rt = 15 → halted s = true →
      exec (.mrcDbgdscrint cond rt) s = .refused .mrcApsrInDebugState)

/-- Where the condition holds, not trapped, and not with Rt 15 in Debug state: MCR to PAR replaces bits [31:0] and
keeps bits [63:32] of PAR_S at EL3 with SCR.NS, as an indirect read sees it, 0, of PAR_NS at EL3 with SCR.NS 1 and
below EL3 where EL3 uses AArch32, and otherwise below EL3 of the one PAR, which is PAR_EL1 in the model (log entry
38). Nothing else changes. At EL0 it is UNDEFINED; at EL1 with EL2 enabled in AArch64 and HSTR_EL2.T7 1 it is trapped
to EL2 with EC 0x03. With Rt 15 in Debug state it reads the PC directly, which is CONSTRAINED UNPREDICTABLE: it is
refused, or the trap fires where one applies. Where the condition fails it is a NOP. That NOP, and which X register
holds Rt, are the model's choices too (log entry 39, PRESUMED). (44_aarch32.md R185, 44_aarch32.md R186, log entry 38,
log entry 39, 61_debug_pmu_trace.md R308, 60_exceptions.md R213) -/
def Obligations.PhysicalAddressRegisterWrite : Prop :=
  ∀ (s : State) (cond rt : BitVec 4) (v : Half), v = readR rt s →
    (condHolds cond s.ps = false → ∃ t, Completes (.mcrPar cond rt) [] false false s s t) ∧
    (condHolds cond s.ps = true → halted s = true → rt = 15 →
      exec (.mcrPar cond rt) s = .refused .pcOrPstateInDebugState ∨
        (parTraps s = true ∧ ∃ iss, exec (.mcrPar cond rt) s = raise (syncExc .el2 0x03 iss s) s)) ∧
    (condHolds cond s.ps = true → ¬(halted s = true ∧ rt = 15) →
      (s.ps.el = .el0 → exec (.mcrPar cond rt) s = undefined s) ∧
      (s.ps.el = .el1 → el2Enabled s = true → elUsesA32 .el2 s = false → ibit s .HSTR_EL2 7 = true →
        ∃ iss, exec (.mcrPar cond rt) s = raise (syncExc .el2 0x03 iss s) s) ∧
      (s.ps.el = .el3 → ictlBit s .scr 0 = false →
        ∃ t, Completes (.mcrPar cond rt) [] false false s { s with a32 := { s.a32 with parS := t.a32.parS } } t ∧
          field t.a32.parS 0 32 = v ∧ field t.a32.parS 32 32 = field s.a32.parS 32 32) ∧
      ((s.ps.el = .el3 ∧ ictlBit s .scr 0 = true ∨
        parBanked s = true ∧ (s.ps.el = .el2 ∨ s.ps.el = .el1 ∧
          (el2Enabled s = true → (if elUsesA32 .el2 s then ictlBit s .hstr 7 else ibit s .HSTR_EL2 7) = false))) →
        ∃ t, Completes (.mcrPar cond rt) [] false false s { s with a32 := { s.a32 with parNS := t.a32.parNS } } t ∧
          field t.a32.parNS 0 32 = v ∧ field t.a32.parNS 32 32 = field s.a32.parNS 32 32) ∧
      ((parBanked s = false ∧ (s.ps.el = .el2 ∨ s.ps.el = .el1 ∧
          (el2Enabled s = true → (if elUsesA32 .el2 s then ictlBit s .hstr 7 else ibit s .HSTR_EL2 7) = false))) →
        ∃ t, Completes (.mcrPar cond rt) [] false false s { s with sys := t.sys } t ∧
          field (sreg t .PAR_EL1) 0 32 = v ∧ field (sreg t .PAR_EL1) 32 32 = field (sreg s .PAR_EL1) 32 32 ∧
          ∀ q, q ≠ .PAR_EL1 → sreg t q = sreg s q))

/-- With P 52 where FEAT_LVA is implemented and 48 otherwise: bits [P-1:0] of a recorded address are the bits written;
where bits [63:P] are all zeroes or all ones the whole address is the one written; otherwise bits [63:P] hold some
value that is neither all zeroes nor all ones. A record written by the PE holds source and target so. (R271) -/
def Obligations.BranchRecordAddresses : Prop :=
  ∀ (v : Word) (s : State) (p : Nat), p = (if has .LVA s then 52 else 48) →
    (∀ n < p, bitAt (brbAddress v s) n = bitAt v n) ∧
    (v >>> p = 0 ∨ v >>> p = BitVec.allOnes 64 >>> p → brbAddress v s = v) ∧
    (v >>> p ≠ 0 → v >>> p ≠ BitVec.allOnes 64 >>> p →
      brbAddress v s >>> p ≠ 0 ∧ brbAddress v s >>> p ≠ BitVec.allOnes 64 >>> p) ∧
    ∀ (n : Fin 32) (tgt inf : Word), (recordBranch n v tgt inf s).brbsrc[n] = brbAddress v s ∧
      (recordBranch n v tgt inf s).brbtgt[n] = brbAddress tgt s
end

