-- ==== Sys2Proof/Laws/State.lean ====
section
/-! SUPPORT. For each update of the state and each field it leaves alone, that it does. -/

namespace Sys2Proof.Laws

open Sys2Proof.Machine

/-! ### writeX -/

@[simp] theorem writeX_cfg (n : BitVec 5) (v : Word) (s : State) : (writeX n v s).cfg = s.cfg := by unfold writeX; split <;> rfl
@[simp] theorem writeX_sp (n : BitVec 5) (v : Word) (s : State) : (writeX n v s).sp = s.sp := by unfold writeX; split <;> rfl
@[simp] theorem writeX_pc (n : BitVec 5) (v : Word) (s : State) : (writeX n v s).pc = s.pc := by unfold writeX; split <;> rfl
@[simp] theorem writeX_ps (n : BitVec 5) (v : Word) (s : State) : (writeX n v s).ps = s.ps := by unfold writeX; split <;> rfl
@[simp] theorem writeX_sys (n : BitVec 5) (v : Word) (s : State) : (writeX n v s).sys = s.sys := by unfold writeX; split <;> rfl
@[simp] theorem writeX_pmevcntr (n : BitVec 5) (v : Word) (s : State) : (writeX n v s).pmevcntr = s.pmevcntr := by unfold writeX; split <;> rfl
@[simp] theorem writeX_pmevtyper (n : BitVec 5) (v : Word) (s : State) : (writeX n v s).pmevtyper = s.pmevtyper := by unfold writeX; split <;> rfl
@[simp] theorem writeX_brbsrc (n : BitVec 5) (v : Word) (s : State) : (writeX n v s).brbsrc = s.brbsrc := by unfold writeX; split <;> rfl
@[simp] theorem writeX_brbtgt (n : BitVec 5) (v : Word) (s : State) : (writeX n v s).brbtgt = s.brbtgt := by unfold writeX; split <;> rfl
@[simp] theorem writeX_brbinf (n : BitVec 5) (v : Word) (s : State) : (writeX n v s).brbinf = s.brbinf := by unfold writeX; split <;> rfl
@[simp] theorem writeX_brbEntry (n : BitVec 5) (v : Word) (s : State) : (writeX n v s).brbEntry = s.brbEntry := by unfold writeX; split <;> rfl
@[simp] theorem writeX_trcacvr (n : BitVec 5) (v : Word) (s : State) : (writeX n v s).trcacvr = s.trcacvr := by unfold writeX; split <;> rfl
@[simp] theorem writeX_z (n : BitVec 5) (v : Word) (s : State) : (writeX n v s).z = s.z := by unfold writeX; split <;> rfl
@[simp] theorem writeX_p (n : BitVec 5) (v : Word) (s : State) : (writeX n v s).p = s.p := by unfold writeX; split <;> rfl
@[simp] theorem writeX_ffr (n : BitVec 5) (v : Word) (s : State) : (writeX n v s).ffr = s.ffr := by unfold writeX; split <;> rfl
@[simp] theorem writeX_za (n : BitVec 5) (v : Word) (s : State) : (writeX n v s).za = s.za := by unfold writeX; split <;> rfl
@[simp] theorem writeX_zt0 (n : BitVec 5) (v : Word) (s : State) : (writeX n v s).zt0 = s.zt0 := by unfold writeX; split <;> rfl
@[simp] theorem writeX_mem (n : BitVec 5) (v : Word) (s : State) : (writeX n v s).mem = s.mem := by unfold writeX; split <;> rfl
@[simp] theorem writeX_tags (n : BitVec 5) (v : Word) (s : State) : (writeX n v s).tags = s.tags := by unfold writeX; split <;> rfl
@[simp] theorem writeX_tlb (n : BitVec 5) (v : Word) (s : State) : (writeX n v s).tlb = s.tlb := by unfold writeX; split <;> rfl
@[simp] theorem writeX_gptTlb (n : BitVec 5) (v : Word) (s : State) : (writeX n v s).gptTlb = s.gptTlb := by unfold writeX; split <;> rfl
@[simp] theorem writeX_exLocal (n : BitVec 5) (v : Word) (s : State) : (writeX n v s).exLocal = s.exLocal := by unfold writeX; split <;> rfl
@[simp] theorem writeX_exGlobal (n : BitVec 5) (v : Word) (s : State) : (writeX n v s).exGlobal = s.exGlobal := by unfold writeX; split <;> rfl
@[simp] theorem writeX_exTlbi (n : BitVec 5) (v : Word) (s : State) : (writeX n v s).exTlbi = s.exTlbi := by unfold writeX; split <;> rfl
@[simp] theorem writeX_predictions (n : BitVec 5) (v : Word) (s : State) : (writeX n v s).predictions = s.predictions := by unfold writeX; split <;> rfl
@[simp] theorem writeX_eventReg (n : BitVec 5) (v : Word) (s : State) : (writeX n v s).eventReg = s.eventReg := by unfold writeX; split <;> rfl
@[simp] theorem writeX_waiting (n : BitVec 5) (v : Word) (s : State) : (writeX n v s).waiting = s.waiting := by unfold writeX; split <;> rfl
@[simp] theorem writeX_brbTimestamp (n : BitVec 5) (v : Word) (s : State) : (writeX n v s).brbTimestamp = s.brbTimestamp := by unfold writeX; split <;> rfl
@[simp] theorem writeX_intr (n : BitVec 5) (v : Word) (s : State) : (writeX n v s).intr = s.intr := by unfold writeX; split <;> rfl
@[simp] theorem writeX_stale (n : BitVec 5) (v : Word) (s : State) : (writeX n v s).stale = s.stale := by unfold writeX; split <;> rfl
@[simp] theorem writeX_warmReset (n : BitVec 5) (v : Word) (s : State) : (writeX n v s).warmReset = s.warmReset := by unfold writeX; split <;> rfl
@[simp] theorem writeX_resetSeq (n : BitVec 5) (v : Word) (s : State) : (writeX n v s).resetSeq = s.resetSeq := by unfold writeX; split <;> rfl
@[simp] theorem writeX_movprfx (n : BitVec 5) (v : Word) (s : State) : (writeX n v s).movprfx = s.movprfx := by unfold writeX; split <;> rfl
@[simp] theorem writeX_pend (n : BitVec 5) (v : Word) (s : State) : (writeX n v s).pend = s.pend := by unfold writeX; split <;> rfl
@[simp] theorem writeX_pendCtl (n : BitVec 5) (v : Word) (s : State) : (writeX n v s).pendCtl = s.pendCtl := by unfold writeX; split <;> rfl
@[simp] theorem writeX_counted (n : BitVec 5) (v : Word) (s : State) : (writeX n v s).counted = s.counted := by unfold writeX; split <;> rfl
@[simp] theorem writeX_dbg (n : BitVec 5) (v : Word) (s : State) : (writeX n v s).dbg = s.dbg := by unfold writeX; split <;> rfl
@[simp] theorem writeX_a32 (n : BitVec 5) (v : Word) (s : State) : (writeX n v s).a32 = s.a32 := by unfold writeX; split <;> rfl
@[simp] theorem writeX_frames (n : BitVec 5) (v : Word) (s : State) : (writeX n v s).frames = s.frames := by unfold writeX; split <;> rfl
@[simp] theorem writeX_err (n : BitVec 5) (v : Word) (s : State) : (writeX n v s).err = s.err := by unfold writeX; split <;> rfl
@[simp] theorem writeX_profileFault (n : BitVec 5) (v : Word) (s : State) : (writeX n v s).profileFault = s.profileFault := by unfold writeX; split <;> rfl
@[simp] theorem writeX_traceFault (n : BitVec 5) (v : Word) (s : State) : (writeX n v s).traceFault = s.traceFault := by unfold writeX; split <;> rfl
@[simp] theorem writeX_agents (n : BitVec 5) (v : Word) (s : State) : (writeX n v s).agents = s.agents := by unfold writeX; split <;> rfl
@[simp] theorem writeX_count (n : BitVec 5) (v : Word) (s : State) : (writeX n v s).count = s.count := by unfold writeX; split <;> rfl
@[simp] theorem writeX_devLog (n : BitVec 5) (v : Word) (s : State) : (writeX n v s).devLog = s.devLog := by unfold writeX; split <;> rfl
@[simp] theorem writeX_offTop (n : BitVec 5) (v : Word) (s : State) : (writeX n v s).offTop = s.offTop := by unfold writeX; split <;> rfl
@[simp] theorem writeX_free (n : BitVec 5) (v : Word) (s : State) : (writeX n v s).free = s.free := by unfold writeX; split <;> rfl

/-! ### writeSP -/

@[simp] theorem writeSP_cfg (v : Word) (s : State) : (writeSP v s).cfg = s.cfg := rfl
@[simp] theorem writeSP_x (v : Word) (s : State) : (writeSP v s).x = s.x := rfl
@[simp] theorem writeSP_pc (v : Word) (s : State) : (writeSP v s).pc = s.pc := rfl
@[simp] theorem writeSP_ps (v : Word) (s : State) : (writeSP v s).ps = s.ps := rfl
@[simp] theorem writeSP_sys (v : Word) (s : State) : (writeSP v s).sys = s.sys := rfl
@[simp] theorem writeSP_pmevcntr (v : Word) (s : State) : (writeSP v s).pmevcntr = s.pmevcntr := rfl
@[simp] theorem writeSP_pmevtyper (v : Word) (s : State) : (writeSP v s).pmevtyper = s.pmevtyper := rfl
@[simp] theorem writeSP_brbsrc (v : Word) (s : State) : (writeSP v s).brbsrc = s.brbsrc := rfl
@[simp] theorem writeSP_brbtgt (v : Word) (s : State) : (writeSP v s).brbtgt = s.brbtgt := rfl
@[simp] theorem writeSP_brbinf (v : Word) (s : State) : (writeSP v s).brbinf = s.brbinf := rfl
@[simp] theorem writeSP_brbEntry (v : Word) (s : State) : (writeSP v s).brbEntry = s.brbEntry := rfl
@[simp] theorem writeSP_trcacvr (v : Word) (s : State) : (writeSP v s).trcacvr = s.trcacvr := rfl
@[simp] theorem writeSP_z (v : Word) (s : State) : (writeSP v s).z = s.z := rfl
@[simp] theorem writeSP_p (v : Word) (s : State) : (writeSP v s).p = s.p := rfl
@[simp] theorem writeSP_ffr (v : Word) (s : State) : (writeSP v s).ffr = s.ffr := rfl
@[simp] theorem writeSP_za (v : Word) (s : State) : (writeSP v s).za = s.za := rfl
@[simp] theorem writeSP_zt0 (v : Word) (s : State) : (writeSP v s).zt0 = s.zt0 := rfl
@[simp] theorem writeSP_mem (v : Word) (s : State) : (writeSP v s).mem = s.mem := rfl
@[simp] theorem writeSP_tags (v : Word) (s : State) : (writeSP v s).tags = s.tags := rfl
@[simp] theorem writeSP_tlb (v : Word) (s : State) : (writeSP v s).tlb = s.tlb := rfl
@[simp] theorem writeSP_gptTlb (v : Word) (s : State) : (writeSP v s).gptTlb = s.gptTlb := rfl
@[simp] theorem writeSP_exLocal (v : Word) (s : State) : (writeSP v s).exLocal = s.exLocal := rfl
@[simp] theorem writeSP_exGlobal (v : Word) (s : State) : (writeSP v s).exGlobal = s.exGlobal := rfl
@[simp] theorem writeSP_exTlbi (v : Word) (s : State) : (writeSP v s).exTlbi = s.exTlbi := rfl
@[simp] theorem writeSP_predictions (v : Word) (s : State) : (writeSP v s).predictions = s.predictions := rfl
@[simp] theorem writeSP_eventReg (v : Word) (s : State) : (writeSP v s).eventReg = s.eventReg := rfl
@[simp] theorem writeSP_waiting (v : Word) (s : State) : (writeSP v s).waiting = s.waiting := rfl
@[simp] theorem writeSP_brbTimestamp (v : Word) (s : State) : (writeSP v s).brbTimestamp = s.brbTimestamp := rfl
@[simp] theorem writeSP_intr (v : Word) (s : State) : (writeSP v s).intr = s.intr := rfl
@[simp] theorem writeSP_stale (v : Word) (s : State) : (writeSP v s).stale = s.stale := rfl
@[simp] theorem writeSP_warmReset (v : Word) (s : State) : (writeSP v s).warmReset = s.warmReset := rfl
@[simp] theorem writeSP_resetSeq (v : Word) (s : State) : (writeSP v s).resetSeq = s.resetSeq := rfl
@[simp] theorem writeSP_movprfx (v : Word) (s : State) : (writeSP v s).movprfx = s.movprfx := rfl
@[simp] theorem writeSP_pend (v : Word) (s : State) : (writeSP v s).pend = s.pend := rfl
@[simp] theorem writeSP_pendCtl (v : Word) (s : State) : (writeSP v s).pendCtl = s.pendCtl := rfl
@[simp] theorem writeSP_counted (v : Word) (s : State) : (writeSP v s).counted = s.counted := rfl
@[simp] theorem writeSP_dbg (v : Word) (s : State) : (writeSP v s).dbg = s.dbg := rfl
@[simp] theorem writeSP_a32 (v : Word) (s : State) : (writeSP v s).a32 = s.a32 := rfl
@[simp] theorem writeSP_frames (v : Word) (s : State) : (writeSP v s).frames = s.frames := rfl
@[simp] theorem writeSP_err (v : Word) (s : State) : (writeSP v s).err = s.err := rfl
@[simp] theorem writeSP_profileFault (v : Word) (s : State) : (writeSP v s).profileFault = s.profileFault := rfl
@[simp] theorem writeSP_traceFault (v : Word) (s : State) : (writeSP v s).traceFault = s.traceFault := rfl
@[simp] theorem writeSP_agents (v : Word) (s : State) : (writeSP v s).agents = s.agents := rfl
@[simp] theorem writeSP_count (v : Word) (s : State) : (writeSP v s).count = s.count := rfl
@[simp] theorem writeSP_devLog (v : Word) (s : State) : (writeSP v s).devLog = s.devLog := rfl
@[simp] theorem writeSP_offTop (v : Word) (s : State) : (writeSP v s).offTop = s.offTop := rfl
@[simp] theorem writeSP_free (v : Word) (s : State) : (writeSP v s).free = s.free := rfl

/-! ### writeW -/

@[simp] theorem writeW_cfg (n : BitVec 5) (v : Half) (s : State) : (writeW n v s).cfg = s.cfg := by unfold writeW writeX; split <;> rfl
@[simp] theorem writeW_sp (n : BitVec 5) (v : Half) (s : State) : (writeW n v s).sp = s.sp := by unfold writeW writeX; split <;> rfl
@[simp] theorem writeW_pc (n : BitVec 5) (v : Half) (s : State) : (writeW n v s).pc = s.pc := by unfold writeW writeX; split <;> rfl
@[simp] theorem writeW_ps (n : BitVec 5) (v : Half) (s : State) : (writeW n v s).ps = s.ps := by unfold writeW writeX; split <;> rfl
@[simp] theorem writeW_sys (n : BitVec 5) (v : Half) (s : State) : (writeW n v s).sys = s.sys := by unfold writeW writeX; split <;> rfl
@[simp] theorem writeW_pmevcntr (n : BitVec 5) (v : Half) (s : State) : (writeW n v s).pmevcntr = s.pmevcntr := by unfold writeW writeX; split <;> rfl
@[simp] theorem writeW_pmevtyper (n : BitVec 5) (v : Half) (s : State) : (writeW n v s).pmevtyper = s.pmevtyper := by unfold writeW writeX; split <;> rfl
@[simp] theorem writeW_brbsrc (n : BitVec 5) (v : Half) (s : State) : (writeW n v s).brbsrc = s.brbsrc := by unfold writeW writeX; split <;> rfl
@[simp] theorem writeW_brbtgt (n : BitVec 5) (v : Half) (s : State) : (writeW n v s).brbtgt = s.brbtgt := by unfold writeW writeX; split <;> rfl
@[simp] theorem writeW_brbinf (n : BitVec 5) (v : Half) (s : State) : (writeW n v s).brbinf = s.brbinf := by unfold writeW writeX; split <;> rfl
@[simp] theorem writeW_brbEntry (n : BitVec 5) (v : Half) (s : State) : (writeW n v s).brbEntry = s.brbEntry := by unfold writeW writeX; split <;> rfl
@[simp] theorem writeW_trcacvr (n : BitVec 5) (v : Half) (s : State) : (writeW n v s).trcacvr = s.trcacvr := by unfold writeW writeX; split <;> rfl
@[simp] theorem writeW_z (n : BitVec 5) (v : Half) (s : State) : (writeW n v s).z = s.z := by unfold writeW writeX; split <;> rfl
@[simp] theorem writeW_p (n : BitVec 5) (v : Half) (s : State) : (writeW n v s).p = s.p := by unfold writeW writeX; split <;> rfl
@[simp] theorem writeW_ffr (n : BitVec 5) (v : Half) (s : State) : (writeW n v s).ffr = s.ffr := by unfold writeW writeX; split <;> rfl
@[simp] theorem writeW_za (n : BitVec 5) (v : Half) (s : State) : (writeW n v s).za = s.za := by unfold writeW writeX; split <;> rfl
@[simp] theorem writeW_zt0 (n : BitVec 5) (v : Half) (s : State) : (writeW n v s).zt0 = s.zt0 := by unfold writeW writeX; split <;> rfl
@[simp] theorem writeW_mem (n : BitVec 5) (v : Half) (s : State) : (writeW n v s).mem = s.mem := by unfold writeW writeX; split <;> rfl
@[simp] theorem writeW_tags (n : BitVec 5) (v : Half) (s : State) : (writeW n v s).tags = s.tags := by unfold writeW writeX; split <;> rfl
@[simp] theorem writeW_tlb (n : BitVec 5) (v : Half) (s : State) : (writeW n v s).tlb = s.tlb := by unfold writeW writeX; split <;> rfl
@[simp] theorem writeW_gptTlb (n : BitVec 5) (v : Half) (s : State) : (writeW n v s).gptTlb = s.gptTlb := by unfold writeW writeX; split <;> rfl
@[simp] theorem writeW_exLocal (n : BitVec 5) (v : Half) (s : State) : (writeW n v s).exLocal = s.exLocal := by unfold writeW writeX; split <;> rfl
@[simp] theorem writeW_exGlobal (n : BitVec 5) (v : Half) (s : State) : (writeW n v s).exGlobal = s.exGlobal := by unfold writeW writeX; split <;> rfl
@[simp] theorem writeW_exTlbi (n : BitVec 5) (v : Half) (s : State) : (writeW n v s).exTlbi = s.exTlbi := by unfold writeW writeX; split <;> rfl
@[simp] theorem writeW_predictions (n : BitVec 5) (v : Half) (s : State) : (writeW n v s).predictions = s.predictions := by unfold writeW writeX; split <;> rfl
@[simp] theorem writeW_eventReg (n : BitVec 5) (v : Half) (s : State) : (writeW n v s).eventReg = s.eventReg := by unfold writeW writeX; split <;> rfl
@[simp] theorem writeW_waiting (n : BitVec 5) (v : Half) (s : State) : (writeW n v s).waiting = s.waiting := by unfold writeW writeX; split <;> rfl
@[simp] theorem writeW_brbTimestamp (n : BitVec 5) (v : Half) (s : State) : (writeW n v s).brbTimestamp = s.brbTimestamp := by unfold writeW writeX; split <;> rfl
@[simp] theorem writeW_intr (n : BitVec 5) (v : Half) (s : State) : (writeW n v s).intr = s.intr := by unfold writeW writeX; split <;> rfl
@[simp] theorem writeW_stale (n : BitVec 5) (v : Half) (s : State) : (writeW n v s).stale = s.stale := by unfold writeW writeX; split <;> rfl
@[simp] theorem writeW_warmReset (n : BitVec 5) (v : Half) (s : State) : (writeW n v s).warmReset = s.warmReset := by unfold writeW writeX; split <;> rfl
@[simp] theorem writeW_resetSeq (n : BitVec 5) (v : Half) (s : State) : (writeW n v s).resetSeq = s.resetSeq := by unfold writeW writeX; split <;> rfl
@[simp] theorem writeW_movprfx (n : BitVec 5) (v : Half) (s : State) : (writeW n v s).movprfx = s.movprfx := by unfold writeW writeX; split <;> rfl
@[simp] theorem writeW_pend (n : BitVec 5) (v : Half) (s : State) : (writeW n v s).pend = s.pend := by unfold writeW writeX; split <;> rfl
@[simp] theorem writeW_pendCtl (n : BitVec 5) (v : Half) (s : State) : (writeW n v s).pendCtl = s.pendCtl := by unfold writeW writeX; split <;> rfl
@[simp] theorem writeW_counted (n : BitVec 5) (v : Half) (s : State) : (writeW n v s).counted = s.counted := by unfold writeW writeX; split <;> rfl
@[simp] theorem writeW_dbg (n : BitVec 5) (v : Half) (s : State) : (writeW n v s).dbg = s.dbg := by unfold writeW writeX; split <;> rfl
@[simp] theorem writeW_a32 (n : BitVec 5) (v : Half) (s : State) : (writeW n v s).a32 = s.a32 := by unfold writeW writeX; split <;> rfl
@[simp] theorem writeW_frames (n : BitVec 5) (v : Half) (s : State) : (writeW n v s).frames = s.frames := by unfold writeW writeX; split <;> rfl
@[simp] theorem writeW_err (n : BitVec 5) (v : Half) (s : State) : (writeW n v s).err = s.err := by unfold writeW writeX; split <;> rfl
@[simp] theorem writeW_profileFault (n : BitVec 5) (v : Half) (s : State) : (writeW n v s).profileFault = s.profileFault := by unfold writeW writeX; split <;> rfl
@[simp] theorem writeW_traceFault (n : BitVec 5) (v : Half) (s : State) : (writeW n v s).traceFault = s.traceFault := by unfold writeW writeX; split <;> rfl
@[simp] theorem writeW_agents (n : BitVec 5) (v : Half) (s : State) : (writeW n v s).agents = s.agents := by unfold writeW writeX; split <;> rfl
@[simp] theorem writeW_count (n : BitVec 5) (v : Half) (s : State) : (writeW n v s).count = s.count := by unfold writeW writeX; split <;> rfl
@[simp] theorem writeW_devLog (n : BitVec 5) (v : Half) (s : State) : (writeW n v s).devLog = s.devLog := by unfold writeW writeX; split <;> rfl
@[simp] theorem writeW_offTop (n : BitVec 5) (v : Half) (s : State) : (writeW n v s).offTop = s.offTop := by unfold writeW writeX; split <;> rfl
@[simp] theorem writeW_free (n : BitVec 5) (v : Half) (s : State) : (writeW n v s).free = s.free := by unfold writeW writeX; split <;> rfl

/-! ### writeXSP -/

@[simp] theorem writeXSP_cfg (n : BitVec 5) (v : Word) (s : State) : (writeXSP n v s).cfg = s.cfg := by unfold writeXSP writeSP writeX; split <;> rfl
@[simp] theorem writeXSP_pc (n : BitVec 5) (v : Word) (s : State) : (writeXSP n v s).pc = s.pc := by unfold writeXSP writeSP writeX; split <;> rfl
@[simp] theorem writeXSP_ps (n : BitVec 5) (v : Word) (s : State) : (writeXSP n v s).ps = s.ps := by unfold writeXSP writeSP writeX; split <;> rfl
@[simp] theorem writeXSP_sys (n : BitVec 5) (v : Word) (s : State) : (writeXSP n v s).sys = s.sys := by unfold writeXSP writeSP writeX; split <;> rfl
@[simp] theorem writeXSP_pmevcntr (n : BitVec 5) (v : Word) (s : State) : (writeXSP n v s).pmevcntr = s.pmevcntr := by unfold writeXSP writeSP writeX; split <;> rfl
@[simp] theorem writeXSP_pmevtyper (n : BitVec 5) (v : Word) (s : State) : (writeXSP n v s).pmevtyper = s.pmevtyper := by unfold writeXSP writeSP writeX; split <;> rfl
@[simp] theorem writeXSP_brbsrc (n : BitVec 5) (v : Word) (s : State) : (writeXSP n v s).brbsrc = s.brbsrc := by unfold writeXSP writeSP writeX; split <;> rfl
@[simp] theorem writeXSP_brbtgt (n : BitVec 5) (v : Word) (s : State) : (writeXSP n v s).brbtgt = s.brbtgt := by unfold writeXSP writeSP writeX; split <;> rfl
@[simp] theorem writeXSP_brbinf (n : BitVec 5) (v : Word) (s : State) : (writeXSP n v s).brbinf = s.brbinf := by unfold writeXSP writeSP writeX; split <;> rfl
@[simp] theorem writeXSP_brbEntry (n : BitVec 5) (v : Word) (s : State) : (writeXSP n v s).brbEntry = s.brbEntry := by unfold writeXSP writeSP writeX; split <;> rfl
@[simp] theorem writeXSP_trcacvr (n : BitVec 5) (v : Word) (s : State) : (writeXSP n v s).trcacvr = s.trcacvr := by unfold writeXSP writeSP writeX; split <;> rfl
@[simp] theorem writeXSP_z (n : BitVec 5) (v : Word) (s : State) : (writeXSP n v s).z = s.z := by unfold writeXSP writeSP writeX; split <;> rfl
@[simp] theorem writeXSP_p (n : BitVec 5) (v : Word) (s : State) : (writeXSP n v s).p = s.p := by unfold writeXSP writeSP writeX; split <;> rfl
@[simp] theorem writeXSP_ffr (n : BitVec 5) (v : Word) (s : State) : (writeXSP n v s).ffr = s.ffr := by unfold writeXSP writeSP writeX; split <;> rfl
@[simp] theorem writeXSP_za (n : BitVec 5) (v : Word) (s : State) : (writeXSP n v s).za = s.za := by unfold writeXSP writeSP writeX; split <;> rfl
@[simp] theorem writeXSP_zt0 (n : BitVec 5) (v : Word) (s : State) : (writeXSP n v s).zt0 = s.zt0 := by unfold writeXSP writeSP writeX; split <;> rfl
@[simp] theorem writeXSP_mem (n : BitVec 5) (v : Word) (s : State) : (writeXSP n v s).mem = s.mem := by unfold writeXSP writeSP writeX; split <;> rfl
@[simp] theorem writeXSP_tags (n : BitVec 5) (v : Word) (s : State) : (writeXSP n v s).tags = s.tags := by unfold writeXSP writeSP writeX; split <;> rfl
@[simp] theorem writeXSP_tlb (n : BitVec 5) (v : Word) (s : State) : (writeXSP n v s).tlb = s.tlb := by unfold writeXSP writeSP writeX; split <;> rfl
@[simp] theorem writeXSP_gptTlb (n : BitVec 5) (v : Word) (s : State) : (writeXSP n v s).gptTlb = s.gptTlb := by unfold writeXSP writeSP writeX; split <;> rfl
@[simp] theorem writeXSP_exLocal (n : BitVec 5) (v : Word) (s : State) : (writeXSP n v s).exLocal = s.exLocal := by unfold writeXSP writeSP writeX; split <;> rfl
@[simp] theorem writeXSP_exGlobal (n : BitVec 5) (v : Word) (s : State) : (writeXSP n v s).exGlobal = s.exGlobal := by unfold writeXSP writeSP writeX; split <;> rfl
@[simp] theorem writeXSP_exTlbi (n : BitVec 5) (v : Word) (s : State) : (writeXSP n v s).exTlbi = s.exTlbi := by unfold writeXSP writeSP writeX; split <;> rfl
@[simp] theorem writeXSP_predictions (n : BitVec 5) (v : Word) (s : State) : (writeXSP n v s).predictions = s.predictions := by unfold writeXSP writeSP writeX; split <;> rfl
@[simp] theorem writeXSP_eventReg (n : BitVec 5) (v : Word) (s : State) : (writeXSP n v s).eventReg = s.eventReg := by unfold writeXSP writeSP writeX; split <;> rfl
@[simp] theorem writeXSP_waiting (n : BitVec 5) (v : Word) (s : State) : (writeXSP n v s).waiting = s.waiting := by unfold writeXSP writeSP writeX; split <;> rfl
@[simp] theorem writeXSP_brbTimestamp (n : BitVec 5) (v : Word) (s : State) : (writeXSP n v s).brbTimestamp = s.brbTimestamp := by unfold writeXSP writeSP writeX; split <;> rfl
@[simp] theorem writeXSP_intr (n : BitVec 5) (v : Word) (s : State) : (writeXSP n v s).intr = s.intr := by unfold writeXSP writeSP writeX; split <;> rfl
@[simp] theorem writeXSP_stale (n : BitVec 5) (v : Word) (s : State) : (writeXSP n v s).stale = s.stale := by unfold writeXSP writeSP writeX; split <;> rfl
@[simp] theorem writeXSP_warmReset (n : BitVec 5) (v : Word) (s : State) : (writeXSP n v s).warmReset = s.warmReset := by unfold writeXSP writeSP writeX; split <;> rfl
@[simp] theorem writeXSP_resetSeq (n : BitVec 5) (v : Word) (s : State) : (writeXSP n v s).resetSeq = s.resetSeq := by unfold writeXSP writeSP writeX; split <;> rfl
@[simp] theorem writeXSP_movprfx (n : BitVec 5) (v : Word) (s : State) : (writeXSP n v s).movprfx = s.movprfx := by unfold writeXSP writeSP writeX; split <;> rfl
@[simp] theorem writeXSP_pend (n : BitVec 5) (v : Word) (s : State) : (writeXSP n v s).pend = s.pend := by unfold writeXSP writeSP writeX; split <;> rfl
@[simp] theorem writeXSP_pendCtl (n : BitVec 5) (v : Word) (s : State) : (writeXSP n v s).pendCtl = s.pendCtl := by unfold writeXSP writeSP writeX; split <;> rfl
@[simp] theorem writeXSP_counted (n : BitVec 5) (v : Word) (s : State) : (writeXSP n v s).counted = s.counted := by unfold writeXSP writeSP writeX; split <;> rfl
@[simp] theorem writeXSP_dbg (n : BitVec 5) (v : Word) (s : State) : (writeXSP n v s).dbg = s.dbg := by unfold writeXSP writeSP writeX; split <;> rfl
@[simp] theorem writeXSP_a32 (n : BitVec 5) (v : Word) (s : State) : (writeXSP n v s).a32 = s.a32 := by unfold writeXSP writeSP writeX; split <;> rfl
@[simp] theorem writeXSP_frames (n : BitVec 5) (v : Word) (s : State) : (writeXSP n v s).frames = s.frames := by unfold writeXSP writeSP writeX; split <;> rfl
@[simp] theorem writeXSP_err (n : BitVec 5) (v : Word) (s : State) : (writeXSP n v s).err = s.err := by unfold writeXSP writeSP writeX; split <;> rfl
@[simp] theorem writeXSP_profileFault (n : BitVec 5) (v : Word) (s : State) : (writeXSP n v s).profileFault = s.profileFault := by unfold writeXSP writeSP writeX; split <;> rfl
@[simp] theorem writeXSP_traceFault (n : BitVec 5) (v : Word) (s : State) : (writeXSP n v s).traceFault = s.traceFault := by unfold writeXSP writeSP writeX; split <;> rfl
@[simp] theorem writeXSP_agents (n : BitVec 5) (v : Word) (s : State) : (writeXSP n v s).agents = s.agents := by unfold writeXSP writeSP writeX; split <;> rfl
@[simp] theorem writeXSP_count (n : BitVec 5) (v : Word) (s : State) : (writeXSP n v s).count = s.count := by unfold writeXSP writeSP writeX; split <;> rfl
@[simp] theorem writeXSP_devLog (n : BitVec 5) (v : Word) (s : State) : (writeXSP n v s).devLog = s.devLog := by unfold writeXSP writeSP writeX; split <;> rfl
@[simp] theorem writeXSP_offTop (n : BitVec 5) (v : Word) (s : State) : (writeXSP n v s).offTop = s.offTop := by unfold writeXSP writeSP writeX; split <;> rfl
@[simp] theorem writeXSP_free (n : BitVec 5) (v : Word) (s : State) : (writeXSP n v s).free = s.free := by unfold writeXSP writeSP writeX; split <;> rfl

/-! ### advance -/

@[simp] theorem advance_cfg (s : State) : (advance s).cfg = s.cfg := by unfold advance; split; rfl; split <;> rfl
@[simp] theorem advance_x (s : State) : (advance s).x = s.x := by unfold advance; split; rfl; split <;> rfl
@[simp] theorem advance_sp (s : State) : (advance s).sp = s.sp := by unfold advance; split; rfl; split <;> rfl
@[simp] theorem advance_sys (s : State) : (advance s).sys = s.sys := by unfold advance; split; rfl; split <;> rfl
@[simp] theorem advance_pmevcntr (s : State) : (advance s).pmevcntr = s.pmevcntr := by unfold advance; split; rfl; split <;> rfl
@[simp] theorem advance_pmevtyper (s : State) : (advance s).pmevtyper = s.pmevtyper := by unfold advance; split; rfl; split <;> rfl
@[simp] theorem advance_brbsrc (s : State) : (advance s).brbsrc = s.brbsrc := by unfold advance; split; rfl; split <;> rfl
@[simp] theorem advance_brbtgt (s : State) : (advance s).brbtgt = s.brbtgt := by unfold advance; split; rfl; split <;> rfl
@[simp] theorem advance_brbinf (s : State) : (advance s).brbinf = s.brbinf := by unfold advance; split; rfl; split <;> rfl
@[simp] theorem advance_brbEntry (s : State) : (advance s).brbEntry = s.brbEntry := by unfold advance; split; rfl; split <;> rfl
@[simp] theorem advance_trcacvr (s : State) : (advance s).trcacvr = s.trcacvr := by unfold advance; split; rfl; split <;> rfl
@[simp] theorem advance_z (s : State) : (advance s).z = s.z := by unfold advance; split; rfl; split <;> rfl
@[simp] theorem advance_p (s : State) : (advance s).p = s.p := by unfold advance; split; rfl; split <;> rfl
@[simp] theorem advance_ffr (s : State) : (advance s).ffr = s.ffr := by unfold advance; split; rfl; split <;> rfl
@[simp] theorem advance_za (s : State) : (advance s).za = s.za := by unfold advance; split; rfl; split <;> rfl
@[simp] theorem advance_zt0 (s : State) : (advance s).zt0 = s.zt0 := by unfold advance; split; rfl; split <;> rfl
@[simp] theorem advance_mem (s : State) : (advance s).mem = s.mem := by unfold advance; split; rfl; split <;> rfl
@[simp] theorem advance_tags (s : State) : (advance s).tags = s.tags := by unfold advance; split; rfl; split <;> rfl
@[simp] theorem advance_tlb (s : State) : (advance s).tlb = s.tlb := by unfold advance; split; rfl; split <;> rfl
@[simp] theorem advance_gptTlb (s : State) : (advance s).gptTlb = s.gptTlb := by unfold advance; split; rfl; split <;> rfl
@[simp] theorem advance_exLocal (s : State) : (advance s).exLocal = s.exLocal := by unfold advance; split; rfl; split <;> rfl
@[simp] theorem advance_exGlobal (s : State) : (advance s).exGlobal = s.exGlobal := by unfold advance; split; rfl; split <;> rfl
@[simp] theorem advance_exTlbi (s : State) : (advance s).exTlbi = s.exTlbi := by unfold advance; split; rfl; split <;> rfl
@[simp] theorem advance_predictions (s : State) : (advance s).predictions = s.predictions := by unfold advance; split; rfl; split <;> rfl
@[simp] theorem advance_eventReg (s : State) : (advance s).eventReg = s.eventReg := by unfold advance; split; rfl; split <;> rfl
@[simp] theorem advance_waiting (s : State) : (advance s).waiting = s.waiting := by unfold advance; split; rfl; split <;> rfl
@[simp] theorem advance_brbTimestamp (s : State) : (advance s).brbTimestamp = s.brbTimestamp := by unfold advance; split; rfl; split <;> rfl
@[simp] theorem advance_intr (s : State) : (advance s).intr = s.intr := by unfold advance; split; rfl; split <;> rfl
@[simp] theorem advance_stale (s : State) : (advance s).stale = s.stale := by unfold advance; split; rfl; split <;> rfl
@[simp] theorem advance_warmReset (s : State) : (advance s).warmReset = s.warmReset := by unfold advance; split; rfl; split <;> rfl
@[simp] theorem advance_resetSeq (s : State) : (advance s).resetSeq = s.resetSeq := by unfold advance; split; rfl; split <;> rfl
@[simp] theorem advance_movprfx (s : State) : (advance s).movprfx = s.movprfx := by unfold advance; split; rfl; split <;> rfl
@[simp] theorem advance_pend (s : State) : (advance s).pend = s.pend := by unfold advance; split; rfl; split <;> rfl
@[simp] theorem advance_pendCtl (s : State) : (advance s).pendCtl = s.pendCtl := by unfold advance; split; rfl; split <;> rfl
@[simp] theorem advance_counted (s : State) : (advance s).counted = s.counted := by unfold advance; split; rfl; split <;> rfl
@[simp] theorem advance_dbg (s : State) : (advance s).dbg = s.dbg := by unfold advance; split; rfl; split <;> rfl
@[simp] theorem advance_a32 (s : State) : (advance s).a32 = s.a32 := by unfold advance; split; rfl; split <;> rfl
@[simp] theorem advance_frames (s : State) : (advance s).frames = s.frames := by unfold advance; split; rfl; split <;> rfl
@[simp] theorem advance_err (s : State) : (advance s).err = s.err := by unfold advance; split; rfl; split <;> rfl
@[simp] theorem advance_profileFault (s : State) : (advance s).profileFault = s.profileFault := by unfold advance; split; rfl; split <;> rfl
@[simp] theorem advance_traceFault (s : State) : (advance s).traceFault = s.traceFault := by unfold advance; split; rfl; split <;> rfl
@[simp] theorem advance_agents (s : State) : (advance s).agents = s.agents := by unfold advance; split; rfl; split <;> rfl
@[simp] theorem advance_count (s : State) : (advance s).count = s.count := by unfold advance; split; rfl; split <;> rfl
@[simp] theorem advance_devLog (s : State) : (advance s).devLog = s.devLog := by unfold advance; split; rfl; split <;> rfl
@[simp] theorem advance_free (s : State) : (advance s).free = s.free := by unfold advance; split; rfl; split <;> rfl

@[simp] theorem advance_ps_n (s : State) : (advance s).ps.n = s.ps.n := by unfold advance; split; rfl; split <;> rfl
@[simp] theorem advance_ps_z (s : State) : (advance s).ps.z = s.ps.z := by unfold advance; split; rfl; split <;> rfl
@[simp] theorem advance_ps_c (s : State) : (advance s).ps.c = s.ps.c := by unfold advance; split; rfl; split <;> rfl
@[simp] theorem advance_ps_v (s : State) : (advance s).ps.v = s.ps.v := by unfold advance; split; rfl; split <;> rfl
@[simp] theorem advance_ps_d (s : State) : (advance s).ps.d = s.ps.d := by unfold advance; split; rfl; split <;> rfl
@[simp] theorem advance_ps_a (s : State) : (advance s).ps.a = s.ps.a := by unfold advance; split; rfl; split <;> rfl
@[simp] theorem advance_ps_i (s : State) : (advance s).ps.i = s.ps.i := by unfold advance; split; rfl; split <;> rfl
@[simp] theorem advance_ps_f (s : State) : (advance s).ps.f = s.ps.f := by unfold advance; split; rfl; split <;> rfl
@[simp] theorem advance_ps_ss (s : State) : (advance s).ps.ss = s.ps.ss := by unfold advance; split; rfl; split <;> rfl
@[simp] theorem advance_ps_il (s : State) : (advance s).ps.il = s.ps.il := by unfold advance; split; rfl; split <;> rfl
@[simp] theorem advance_ps_pan (s : State) : (advance s).ps.pan = s.ps.pan := by unfold advance; split; rfl; split <;> rfl
@[simp] theorem advance_ps_uao (s : State) : (advance s).ps.uao = s.ps.uao := by unfold advance; split; rfl; split <;> rfl
@[simp] theorem advance_ps_ssbs (s : State) : (advance s).ps.ssbs = s.ps.ssbs := by unfold advance; split; rfl; split <;> rfl
@[simp] theorem advance_ps_dit (s : State) : (advance s).ps.dit = s.ps.dit := by unfold advance; split; rfl; split <;> rfl
@[simp] theorem advance_ps_tco (s : State) : (advance s).ps.tco = s.ps.tco := by unfold advance; split; rfl; split <;> rfl
@[simp] theorem advance_ps_allint (s : State) : (advance s).ps.allint = s.ps.allint := by unfold advance; split; rfl; split <;> rfl
@[simp] theorem advance_ps_sm (s : State) : (advance s).ps.sm = s.ps.sm := by unfold advance; split; rfl; split <;> rfl
@[simp] theorem advance_ps_za (s : State) : (advance s).ps.za = s.ps.za := by unfold advance; split; rfl; split <;> rfl
@[simp] theorem advance_ps_pacm (s : State) : (advance s).ps.pacm = s.ps.pacm := by unfold advance; split; rfl; split <;> rfl
@[simp] theorem advance_ps_el (s : State) : (advance s).ps.el = s.ps.el := by unfold advance; split; rfl; split <;> rfl
@[simp] theorem advance_ps_spsel (s : State) : (advance s).ps.spsel = s.ps.spsel := by unfold advance; split; rfl; split <;> rfl
@[simp] theorem advance_ps_nRW (s : State) : (advance s).ps.nRW = s.ps.nRW := by unfold advance; split; rfl; split <;> rfl
@[simp] theorem advance_ps_t (s : State) : (advance s).ps.t = s.ps.t := by unfold advance; split; rfl; split <;> rfl
@[simp] theorem advance_ps_m32 (s : State) : (advance s).ps.m32 = s.ps.m32 := by unfold advance; split; rfl; split <;> rfl

/-! ### advanceNarrow -/

@[simp] theorem advanceNarrow_cfg (s : State) : (advanceNarrow s).cfg = s.cfg := by unfold advanceNarrow; split <;> rfl
@[simp] theorem advanceNarrow_x (s : State) : (advanceNarrow s).x = s.x := by unfold advanceNarrow; split <;> rfl
@[simp] theorem advanceNarrow_sp (s : State) : (advanceNarrow s).sp = s.sp := by unfold advanceNarrow; split <;> rfl
@[simp] theorem advanceNarrow_sys (s : State) : (advanceNarrow s).sys = s.sys := by unfold advanceNarrow; split <;> rfl
@[simp] theorem advanceNarrow_pmevcntr (s : State) : (advanceNarrow s).pmevcntr = s.pmevcntr := by unfold advanceNarrow; split <;> rfl
@[simp] theorem advanceNarrow_pmevtyper (s : State) : (advanceNarrow s).pmevtyper = s.pmevtyper := by unfold advanceNarrow; split <;> rfl
@[simp] theorem advanceNarrow_brbsrc (s : State) : (advanceNarrow s).brbsrc = s.brbsrc := by unfold advanceNarrow; split <;> rfl
@[simp] theorem advanceNarrow_brbtgt (s : State) : (advanceNarrow s).brbtgt = s.brbtgt := by unfold advanceNarrow; split <;> rfl
@[simp] theorem advanceNarrow_brbinf (s : State) : (advanceNarrow s).brbinf = s.brbinf := by unfold advanceNarrow; split <;> rfl
@[simp] theorem advanceNarrow_brbEntry (s : State) : (advanceNarrow s).brbEntry = s.brbEntry := by unfold advanceNarrow; split <;> rfl
@[simp] theorem advanceNarrow_trcacvr (s : State) : (advanceNarrow s).trcacvr = s.trcacvr := by unfold advanceNarrow; split <;> rfl
@[simp] theorem advanceNarrow_z (s : State) : (advanceNarrow s).z = s.z := by unfold advanceNarrow; split <;> rfl
@[simp] theorem advanceNarrow_p (s : State) : (advanceNarrow s).p = s.p := by unfold advanceNarrow; split <;> rfl
@[simp] theorem advanceNarrow_ffr (s : State) : (advanceNarrow s).ffr = s.ffr := by unfold advanceNarrow; split <;> rfl
@[simp] theorem advanceNarrow_za (s : State) : (advanceNarrow s).za = s.za := by unfold advanceNarrow; split <;> rfl
@[simp] theorem advanceNarrow_zt0 (s : State) : (advanceNarrow s).zt0 = s.zt0 := by unfold advanceNarrow; split <;> rfl
@[simp] theorem advanceNarrow_mem (s : State) : (advanceNarrow s).mem = s.mem := by unfold advanceNarrow; split <;> rfl
@[simp] theorem advanceNarrow_tags (s : State) : (advanceNarrow s).tags = s.tags := by unfold advanceNarrow; split <;> rfl
@[simp] theorem advanceNarrow_tlb (s : State) : (advanceNarrow s).tlb = s.tlb := by unfold advanceNarrow; split <;> rfl
@[simp] theorem advanceNarrow_gptTlb (s : State) : (advanceNarrow s).gptTlb = s.gptTlb := by unfold advanceNarrow; split <;> rfl
@[simp] theorem advanceNarrow_exLocal (s : State) : (advanceNarrow s).exLocal = s.exLocal := by unfold advanceNarrow; split <;> rfl
@[simp] theorem advanceNarrow_exGlobal (s : State) : (advanceNarrow s).exGlobal = s.exGlobal := by unfold advanceNarrow; split <;> rfl
@[simp] theorem advanceNarrow_exTlbi (s : State) : (advanceNarrow s).exTlbi = s.exTlbi := by unfold advanceNarrow; split <;> rfl
@[simp] theorem advanceNarrow_predictions (s : State) : (advanceNarrow s).predictions = s.predictions := by unfold advanceNarrow; split <;> rfl
@[simp] theorem advanceNarrow_eventReg (s : State) : (advanceNarrow s).eventReg = s.eventReg := by unfold advanceNarrow; split <;> rfl
@[simp] theorem advanceNarrow_waiting (s : State) : (advanceNarrow s).waiting = s.waiting := by unfold advanceNarrow; split <;> rfl
@[simp] theorem advanceNarrow_brbTimestamp (s : State) : (advanceNarrow s).brbTimestamp = s.brbTimestamp := by unfold advanceNarrow; split <;> rfl
@[simp] theorem advanceNarrow_intr (s : State) : (advanceNarrow s).intr = s.intr := by unfold advanceNarrow; split <;> rfl
@[simp] theorem advanceNarrow_stale (s : State) : (advanceNarrow s).stale = s.stale := by unfold advanceNarrow; split <;> rfl
@[simp] theorem advanceNarrow_warmReset (s : State) : (advanceNarrow s).warmReset = s.warmReset := by unfold advanceNarrow; split <;> rfl
@[simp] theorem advanceNarrow_resetSeq (s : State) : (advanceNarrow s).resetSeq = s.resetSeq := by unfold advanceNarrow; split <;> rfl
@[simp] theorem advanceNarrow_movprfx (s : State) : (advanceNarrow s).movprfx = s.movprfx := by unfold advanceNarrow; split <;> rfl
@[simp] theorem advanceNarrow_pend (s : State) : (advanceNarrow s).pend = s.pend := by unfold advanceNarrow; split <;> rfl
@[simp] theorem advanceNarrow_pendCtl (s : State) : (advanceNarrow s).pendCtl = s.pendCtl := by unfold advanceNarrow; split <;> rfl
@[simp] theorem advanceNarrow_counted (s : State) : (advanceNarrow s).counted = s.counted := by unfold advanceNarrow; split <;> rfl
@[simp] theorem advanceNarrow_dbg (s : State) : (advanceNarrow s).dbg = s.dbg := by unfold advanceNarrow; split <;> rfl
@[simp] theorem advanceNarrow_a32 (s : State) : (advanceNarrow s).a32 = s.a32 := by unfold advanceNarrow; split <;> rfl
@[simp] theorem advanceNarrow_frames (s : State) : (advanceNarrow s).frames = s.frames := by unfold advanceNarrow; split <;> rfl
@[simp] theorem advanceNarrow_err (s : State) : (advanceNarrow s).err = s.err := by unfold advanceNarrow; split <;> rfl
@[simp] theorem advanceNarrow_profileFault (s : State) : (advanceNarrow s).profileFault = s.profileFault := by unfold advanceNarrow; split <;> rfl
@[simp] theorem advanceNarrow_traceFault (s : State) : (advanceNarrow s).traceFault = s.traceFault := by unfold advanceNarrow; split <;> rfl
@[simp] theorem advanceNarrow_agents (s : State) : (advanceNarrow s).agents = s.agents := by unfold advanceNarrow; split <;> rfl
@[simp] theorem advanceNarrow_count (s : State) : (advanceNarrow s).count = s.count := by unfold advanceNarrow; split <;> rfl
@[simp] theorem advanceNarrow_devLog (s : State) : (advanceNarrow s).devLog = s.devLog := by unfold advanceNarrow; split <;> rfl
@[simp] theorem advanceNarrow_free (s : State) : (advanceNarrow s).free = s.free := by unfold advanceNarrow; split <;> rfl
@[simp] theorem advanceNarrow_ps_n (s : State) : (advanceNarrow s).ps.n = s.ps.n := by unfold advanceNarrow; split <;> rfl
@[simp] theorem advanceNarrow_ps_z (s : State) : (advanceNarrow s).ps.z = s.ps.z := by unfold advanceNarrow; split <;> rfl
@[simp] theorem advanceNarrow_ps_c (s : State) : (advanceNarrow s).ps.c = s.ps.c := by unfold advanceNarrow; split <;> rfl
@[simp] theorem advanceNarrow_ps_v (s : State) : (advanceNarrow s).ps.v = s.ps.v := by unfold advanceNarrow; split <;> rfl
@[simp] theorem advanceNarrow_ps_d (s : State) : (advanceNarrow s).ps.d = s.ps.d := by unfold advanceNarrow; split <;> rfl
@[simp] theorem advanceNarrow_ps_a (s : State) : (advanceNarrow s).ps.a = s.ps.a := by unfold advanceNarrow; split <;> rfl
@[simp] theorem advanceNarrow_ps_i (s : State) : (advanceNarrow s).ps.i = s.ps.i := by unfold advanceNarrow; split <;> rfl
@[simp] theorem advanceNarrow_ps_f (s : State) : (advanceNarrow s).ps.f = s.ps.f := by unfold advanceNarrow; split <;> rfl
@[simp] theorem advanceNarrow_ps_ss (s : State) : (advanceNarrow s).ps.ss = s.ps.ss := by unfold advanceNarrow; split <;> rfl
@[simp] theorem advanceNarrow_ps_il (s : State) : (advanceNarrow s).ps.il = s.ps.il := by unfold advanceNarrow; split <;> rfl
@[simp] theorem advanceNarrow_ps_pan (s : State) : (advanceNarrow s).ps.pan = s.ps.pan := by unfold advanceNarrow; split <;> rfl
@[simp] theorem advanceNarrow_ps_uao (s : State) : (advanceNarrow s).ps.uao = s.ps.uao := by unfold advanceNarrow; split <;> rfl
@[simp] theorem advanceNarrow_ps_ssbs (s : State) : (advanceNarrow s).ps.ssbs = s.ps.ssbs := by unfold advanceNarrow; split <;> rfl
@[simp] theorem advanceNarrow_ps_dit (s : State) : (advanceNarrow s).ps.dit = s.ps.dit := by unfold advanceNarrow; split <;> rfl
@[simp] theorem advanceNarrow_ps_tco (s : State) : (advanceNarrow s).ps.tco = s.ps.tco := by unfold advanceNarrow; split <;> rfl
@[simp] theorem advanceNarrow_ps_allint (s : State) : (advanceNarrow s).ps.allint = s.ps.allint := by unfold advanceNarrow; split <;> rfl
@[simp] theorem advanceNarrow_ps_sm (s : State) : (advanceNarrow s).ps.sm = s.ps.sm := by unfold advanceNarrow; split <;> rfl
@[simp] theorem advanceNarrow_ps_za (s : State) : (advanceNarrow s).ps.za = s.ps.za := by unfold advanceNarrow; split <;> rfl
@[simp] theorem advanceNarrow_ps_pacm (s : State) : (advanceNarrow s).ps.pacm = s.ps.pacm := by unfold advanceNarrow; split <;> rfl
@[simp] theorem advanceNarrow_ps_el (s : State) : (advanceNarrow s).ps.el = s.ps.el := by unfold advanceNarrow; split <;> rfl
@[simp] theorem advanceNarrow_ps_spsel (s : State) : (advanceNarrow s).ps.spsel = s.ps.spsel := by unfold advanceNarrow; split <;> rfl
@[simp] theorem advanceNarrow_ps_nRW (s : State) : (advanceNarrow s).ps.nRW = s.ps.nRW := by unfold advanceNarrow; split <;> rfl
@[simp] theorem advanceNarrow_ps_t (s : State) : (advanceNarrow s).ps.t = s.ps.t := by unfold advanceNarrow; split <;> rfl
@[simp] theorem advanceNarrow_ps_m32 (s : State) : (advanceNarrow s).ps.m32 = s.ps.m32 := by unfold advanceNarrow; split <;> rfl

/-! ### beginWait -/

@[simp] theorem beginWait_sp (w : Wait) (s : State) : (beginWait w s).sp = s.sp := by unfold beginWait; split <;> rfl
@[simp] theorem beginWait_cfg (w : Wait) (s : State) : (beginWait w s).cfg = s.cfg := by unfold beginWait; split <;> rfl
@[simp] theorem beginWait_x (w : Wait) (s : State) : (beginWait w s).x = s.x := by unfold beginWait; split <;> rfl
@[simp] theorem beginWait_pc (w : Wait) (s : State) : (beginWait w s).pc = s.pc := by unfold beginWait; split <;> rfl
@[simp] theorem beginWait_ps (w : Wait) (s : State) : (beginWait w s).ps = s.ps := by unfold beginWait; split <;> rfl
@[simp] theorem beginWait_sys (w : Wait) (s : State) : (beginWait w s).sys = s.sys := by unfold beginWait; split <;> rfl
@[simp] theorem beginWait_pmevcntr (w : Wait) (s : State) : (beginWait w s).pmevcntr = s.pmevcntr := by unfold beginWait; split <;> rfl
@[simp] theorem beginWait_pmevtyper (w : Wait) (s : State) : (beginWait w s).pmevtyper = s.pmevtyper := by unfold beginWait; split <;> rfl
@[simp] theorem beginWait_brbsrc (w : Wait) (s : State) : (beginWait w s).brbsrc = s.brbsrc := by unfold beginWait; split <;> rfl
@[simp] theorem beginWait_brbtgt (w : Wait) (s : State) : (beginWait w s).brbtgt = s.brbtgt := by unfold beginWait; split <;> rfl
@[simp] theorem beginWait_brbinf (w : Wait) (s : State) : (beginWait w s).brbinf = s.brbinf := by unfold beginWait; split <;> rfl
@[simp] theorem beginWait_brbEntry (w : Wait) (s : State) : (beginWait w s).brbEntry = s.brbEntry := by unfold beginWait; split <;> rfl
@[simp] theorem beginWait_trcacvr (w : Wait) (s : State) : (beginWait w s).trcacvr = s.trcacvr := by unfold beginWait; split <;> rfl
@[simp] theorem beginWait_z (w : Wait) (s : State) : (beginWait w s).z = s.z := by unfold beginWait; split <;> rfl
@[simp] theorem beginWait_p (w : Wait) (s : State) : (beginWait w s).p = s.p := by unfold beginWait; split <;> rfl
@[simp] theorem beginWait_ffr (w : Wait) (s : State) : (beginWait w s).ffr = s.ffr := by unfold beginWait; split <;> rfl
@[simp] theorem beginWait_za (w : Wait) (s : State) : (beginWait w s).za = s.za := by unfold beginWait; split <;> rfl
@[simp] theorem beginWait_zt0 (w : Wait) (s : State) : (beginWait w s).zt0 = s.zt0 := by unfold beginWait; split <;> rfl
@[simp] theorem beginWait_mem (w : Wait) (s : State) : (beginWait w s).mem = s.mem := by unfold beginWait; split <;> rfl
@[simp] theorem beginWait_tags (w : Wait) (s : State) : (beginWait w s).tags = s.tags := by unfold beginWait; split <;> rfl
@[simp] theorem beginWait_tlb (w : Wait) (s : State) : (beginWait w s).tlb = s.tlb := by unfold beginWait; split <;> rfl
@[simp] theorem beginWait_gptTlb (w : Wait) (s : State) : (beginWait w s).gptTlb = s.gptTlb := by unfold beginWait; split <;> rfl
@[simp] theorem beginWait_exLocal (w : Wait) (s : State) : (beginWait w s).exLocal = s.exLocal := by unfold beginWait; split <;> rfl
@[simp] theorem beginWait_exGlobal (w : Wait) (s : State) : (beginWait w s).exGlobal = s.exGlobal := by unfold beginWait; split <;> rfl
@[simp] theorem beginWait_exTlbi (w : Wait) (s : State) : (beginWait w s).exTlbi = s.exTlbi := by unfold beginWait; split <;> rfl
@[simp] theorem beginWait_predictions (w : Wait) (s : State) : (beginWait w s).predictions = s.predictions := by unfold beginWait; split <;> rfl
@[simp] theorem beginWait_eventReg (w : Wait) (s : State) : (beginWait w s).eventReg = s.eventReg := by unfold beginWait; split <;> rfl
@[simp] theorem beginWait_brbTimestamp (w : Wait) (s : State) : (beginWait w s).brbTimestamp = s.brbTimestamp := by unfold beginWait; split <;> rfl
@[simp] theorem beginWait_intr (w : Wait) (s : State) : (beginWait w s).intr = s.intr := by unfold beginWait; split <;> rfl
@[simp] theorem beginWait_stale (w : Wait) (s : State) : (beginWait w s).stale = s.stale := by unfold beginWait; split <;> rfl
@[simp] theorem beginWait_warmReset (w : Wait) (s : State) : (beginWait w s).warmReset = s.warmReset := by unfold beginWait; split <;> rfl
@[simp] theorem beginWait_resetSeq (w : Wait) (s : State) : (beginWait w s).resetSeq = s.resetSeq := by unfold beginWait; split <;> rfl
@[simp] theorem beginWait_movprfx (w : Wait) (s : State) : (beginWait w s).movprfx = s.movprfx := by unfold beginWait; split <;> rfl
@[simp] theorem beginWait_pend (w : Wait) (s : State) : (beginWait w s).pend = s.pend := by unfold beginWait; split <;> rfl
@[simp] theorem beginWait_pendCtl (w : Wait) (s : State) : (beginWait w s).pendCtl = s.pendCtl := by unfold beginWait; split <;> rfl
@[simp] theorem beginWait_counted (w : Wait) (s : State) : (beginWait w s).counted = s.counted := by unfold beginWait; split <;> rfl
@[simp] theorem beginWait_dbg (w : Wait) (s : State) : (beginWait w s).dbg = s.dbg := by unfold beginWait; split <;> rfl
@[simp] theorem beginWait_a32 (w : Wait) (s : State) : (beginWait w s).a32 = s.a32 := by unfold beginWait; split <;> rfl
@[simp] theorem beginWait_frames (w : Wait) (s : State) : (beginWait w s).frames = s.frames := by unfold beginWait; split <;> rfl
@[simp] theorem beginWait_err (w : Wait) (s : State) : (beginWait w s).err = s.err := by unfold beginWait; split <;> rfl
@[simp] theorem beginWait_profileFault (w : Wait) (s : State) : (beginWait w s).profileFault = s.profileFault := by unfold beginWait; split <;> rfl
@[simp] theorem beginWait_traceFault (w : Wait) (s : State) : (beginWait w s).traceFault = s.traceFault := by unfold beginWait; split <;> rfl
@[simp] theorem beginWait_agents (w : Wait) (s : State) : (beginWait w s).agents = s.agents := by unfold beginWait; split <;> rfl
@[simp] theorem beginWait_count (w : Wait) (s : State) : (beginWait w s).count = s.count := by unfold beginWait; split <;> rfl
@[simp] theorem beginWait_devLog (w : Wait) (s : State) : (beginWait w s).devLog = s.devLog := by unfold beginWait; split <;> rfl
@[simp] theorem beginWait_offTop (w : Wait) (s : State) : (beginWait w s).offTop = s.offTop := by unfold beginWait; split <;> rfl
@[simp] theorem beginWait_free (w : Wait) (s : State) : (beginWait w s).free = s.free := by unfold beginWait; split <;> rfl

/-! ### branchTo -/

@[simp] theorem branchTo_cfg (a : Word) (b : BitVec 2) (s : State) : (branchTo a b s).cfg = s.cfg := rfl
@[simp] theorem branchTo_x (a : Word) (b : BitVec 2) (s : State) : (branchTo a b s).x = s.x := rfl
@[simp] theorem branchTo_sp (a : Word) (b : BitVec 2) (s : State) : (branchTo a b s).sp = s.sp := rfl
@[simp] theorem branchTo_sys (a : Word) (b : BitVec 2) (s : State) : (branchTo a b s).sys = s.sys := rfl
@[simp] theorem branchTo_pmevcntr (a : Word) (b : BitVec 2) (s : State) : (branchTo a b s).pmevcntr = s.pmevcntr := rfl
@[simp] theorem branchTo_pmevtyper (a : Word) (b : BitVec 2) (s : State) : (branchTo a b s).pmevtyper = s.pmevtyper := rfl
@[simp] theorem branchTo_brbsrc (a : Word) (b : BitVec 2) (s : State) : (branchTo a b s).brbsrc = s.brbsrc := rfl
@[simp] theorem branchTo_brbtgt (a : Word) (b : BitVec 2) (s : State) : (branchTo a b s).brbtgt = s.brbtgt := rfl
@[simp] theorem branchTo_brbinf (a : Word) (b : BitVec 2) (s : State) : (branchTo a b s).brbinf = s.brbinf := rfl
@[simp] theorem branchTo_brbEntry (a : Word) (b : BitVec 2) (s : State) : (branchTo a b s).brbEntry = s.brbEntry := rfl
@[simp] theorem branchTo_trcacvr (a : Word) (b : BitVec 2) (s : State) : (branchTo a b s).trcacvr = s.trcacvr := rfl
@[simp] theorem branchTo_z (a : Word) (b : BitVec 2) (s : State) : (branchTo a b s).z = s.z := rfl
@[simp] theorem branchTo_p (a : Word) (b : BitVec 2) (s : State) : (branchTo a b s).p = s.p := rfl
@[simp] theorem branchTo_ffr (a : Word) (b : BitVec 2) (s : State) : (branchTo a b s).ffr = s.ffr := rfl
@[simp] theorem branchTo_za (a : Word) (b : BitVec 2) (s : State) : (branchTo a b s).za = s.za := rfl
@[simp] theorem branchTo_zt0 (a : Word) (b : BitVec 2) (s : State) : (branchTo a b s).zt0 = s.zt0 := rfl
@[simp] theorem branchTo_mem (a : Word) (b : BitVec 2) (s : State) : (branchTo a b s).mem = s.mem := rfl
@[simp] theorem branchTo_tags (a : Word) (b : BitVec 2) (s : State) : (branchTo a b s).tags = s.tags := rfl
@[simp] theorem branchTo_tlb (a : Word) (b : BitVec 2) (s : State) : (branchTo a b s).tlb = s.tlb := rfl
@[simp] theorem branchTo_gptTlb (a : Word) (b : BitVec 2) (s : State) : (branchTo a b s).gptTlb = s.gptTlb := rfl
@[simp] theorem branchTo_exLocal (a : Word) (b : BitVec 2) (s : State) : (branchTo a b s).exLocal = s.exLocal := rfl
@[simp] theorem branchTo_exGlobal (a : Word) (b : BitVec 2) (s : State) : (branchTo a b s).exGlobal = s.exGlobal := rfl
@[simp] theorem branchTo_exTlbi (a : Word) (b : BitVec 2) (s : State) : (branchTo a b s).exTlbi = s.exTlbi := rfl
@[simp] theorem branchTo_predictions (a : Word) (b : BitVec 2) (s : State) : (branchTo a b s).predictions = s.predictions := rfl
@[simp] theorem branchTo_eventReg (a : Word) (b : BitVec 2) (s : State) : (branchTo a b s).eventReg = s.eventReg := rfl
@[simp] theorem branchTo_waiting (a : Word) (b : BitVec 2) (s : State) : (branchTo a b s).waiting = s.waiting := rfl
@[simp] theorem branchTo_brbTimestamp (a : Word) (b : BitVec 2) (s : State) : (branchTo a b s).brbTimestamp = s.brbTimestamp := rfl
@[simp] theorem branchTo_intr (a : Word) (b : BitVec 2) (s : State) : (branchTo a b s).intr = s.intr := rfl
@[simp] theorem branchTo_stale (a : Word) (b : BitVec 2) (s : State) : (branchTo a b s).stale = s.stale := rfl
@[simp] theorem branchTo_warmReset (a : Word) (b : BitVec 2) (s : State) : (branchTo a b s).warmReset = s.warmReset := rfl
@[simp] theorem branchTo_resetSeq (a : Word) (b : BitVec 2) (s : State) : (branchTo a b s).resetSeq = s.resetSeq := rfl
@[simp] theorem branchTo_movprfx (a : Word) (b : BitVec 2) (s : State) : (branchTo a b s).movprfx = s.movprfx := rfl
@[simp] theorem branchTo_pend (a : Word) (b : BitVec 2) (s : State) : (branchTo a b s).pend = s.pend := rfl
@[simp] theorem branchTo_pendCtl (a : Word) (b : BitVec 2) (s : State) : (branchTo a b s).pendCtl = s.pendCtl := rfl
@[simp] theorem branchTo_counted (a : Word) (b : BitVec 2) (s : State) : (branchTo a b s).counted = s.counted := rfl
@[simp] theorem branchTo_dbg (a : Word) (b : BitVec 2) (s : State) : (branchTo a b s).dbg = s.dbg := rfl
@[simp] theorem branchTo_a32 (a : Word) (b : BitVec 2) (s : State) : (branchTo a b s).a32 = s.a32 := rfl
@[simp] theorem branchTo_frames (a : Word) (b : BitVec 2) (s : State) : (branchTo a b s).frames = s.frames := rfl
@[simp] theorem branchTo_err (a : Word) (b : BitVec 2) (s : State) : (branchTo a b s).err = s.err := rfl
@[simp] theorem branchTo_profileFault (a : Word) (b : BitVec 2) (s : State) : (branchTo a b s).profileFault = s.profileFault := rfl
@[simp] theorem branchTo_traceFault (a : Word) (b : BitVec 2) (s : State) : (branchTo a b s).traceFault = s.traceFault := rfl
@[simp] theorem branchTo_agents (a : Word) (b : BitVec 2) (s : State) : (branchTo a b s).agents = s.agents := rfl
@[simp] theorem branchTo_count (a : Word) (b : BitVec 2) (s : State) : (branchTo a b s).count = s.count := rfl
@[simp] theorem branchTo_devLog (a : Word) (b : BitVec 2) (s : State) : (branchTo a b s).devLog = s.devLog := rfl
@[simp] theorem branchTo_offTop (a : Word) (b : BitVec 2) (s : State) : (branchTo a b s).offTop = s.offTop := rfl
@[simp] theorem branchTo_free (a : Word) (b : BitVec 2) (s : State) : (branchTo a b s).free = s.free := rfl

@[simp] theorem branchTo_ps_n (a : Word) (b : BitVec 2) (s : State) : (branchTo a b s).ps.n = s.ps.n := rfl
@[simp] theorem branchTo_ps_z (a : Word) (b : BitVec 2) (s : State) : (branchTo a b s).ps.z = s.ps.z := rfl
@[simp] theorem branchTo_ps_c (a : Word) (b : BitVec 2) (s : State) : (branchTo a b s).ps.c = s.ps.c := rfl
@[simp] theorem branchTo_ps_v (a : Word) (b : BitVec 2) (s : State) : (branchTo a b s).ps.v = s.ps.v := rfl
@[simp] theorem branchTo_ps_d (a : Word) (b : BitVec 2) (s : State) : (branchTo a b s).ps.d = s.ps.d := rfl
@[simp] theorem branchTo_ps_a (a : Word) (b : BitVec 2) (s : State) : (branchTo a b s).ps.a = s.ps.a := rfl
@[simp] theorem branchTo_ps_i (a : Word) (b : BitVec 2) (s : State) : (branchTo a b s).ps.i = s.ps.i := rfl
@[simp] theorem branchTo_ps_f (a : Word) (b : BitVec 2) (s : State) : (branchTo a b s).ps.f = s.ps.f := rfl
@[simp] theorem branchTo_ps_ss (a : Word) (b : BitVec 2) (s : State) : (branchTo a b s).ps.ss = s.ps.ss := rfl
@[simp] theorem branchTo_ps_il (a : Word) (b : BitVec 2) (s : State) : (branchTo a b s).ps.il = s.ps.il := rfl
@[simp] theorem branchTo_ps_pan (a : Word) (b : BitVec 2) (s : State) : (branchTo a b s).ps.pan = s.ps.pan := rfl
@[simp] theorem branchTo_ps_uao (a : Word) (b : BitVec 2) (s : State) : (branchTo a b s).ps.uao = s.ps.uao := rfl
@[simp] theorem branchTo_ps_ssbs (a : Word) (b : BitVec 2) (s : State) : (branchTo a b s).ps.ssbs = s.ps.ssbs := rfl
@[simp] theorem branchTo_ps_dit (a : Word) (b : BitVec 2) (s : State) : (branchTo a b s).ps.dit = s.ps.dit := rfl
@[simp] theorem branchTo_ps_tco (a : Word) (b : BitVec 2) (s : State) : (branchTo a b s).ps.tco = s.ps.tco := rfl
@[simp] theorem branchTo_ps_allint (a : Word) (b : BitVec 2) (s : State) : (branchTo a b s).ps.allint = s.ps.allint := rfl
@[simp] theorem branchTo_ps_sm (a : Word) (b : BitVec 2) (s : State) : (branchTo a b s).ps.sm = s.ps.sm := rfl
@[simp] theorem branchTo_ps_za (a : Word) (b : BitVec 2) (s : State) : (branchTo a b s).ps.za = s.ps.za := rfl
@[simp] theorem branchTo_ps_pacm (a : Word) (b : BitVec 2) (s : State) : (branchTo a b s).ps.pacm = s.ps.pacm := rfl
@[simp] theorem branchTo_ps_el (a : Word) (b : BitVec 2) (s : State) : (branchTo a b s).ps.el = s.ps.el := rfl
@[simp] theorem branchTo_ps_spsel (a : Word) (b : BitVec 2) (s : State) : (branchTo a b s).ps.spsel = s.ps.spsel := rfl
@[simp] theorem branchTo_ps_nRW (a : Word) (b : BitVec 2) (s : State) : (branchTo a b s).ps.nRW = s.ps.nRW := rfl
@[simp] theorem branchTo_ps_t (a : Word) (b : BitVec 2) (s : State) : (branchTo a b s).ps.t = s.ps.t := rfl
@[simp] theorem branchTo_ps_m32 (a : Word) (b : BitVec 2) (s : State) : (branchTo a b s).ps.m32 = s.ps.m32 := rfl

/-! ### brbEntered -/

@[simp] theorem brbEntered_cfg (type : BitVec 6) (b : State) (s : State) : (brbEntered type b s).cfg = s.cfg := rfl
@[simp] theorem brbEntered_x (type : BitVec 6) (b : State) (s : State) : (brbEntered type b s).x = s.x := rfl
@[simp] theorem brbEntered_sp (type : BitVec 6) (b : State) (s : State) : (brbEntered type b s).sp = s.sp := rfl
@[simp] theorem brbEntered_pc (type : BitVec 6) (b : State) (s : State) : (brbEntered type b s).pc = s.pc := rfl
@[simp] theorem brbEntered_ps (type : BitVec 6) (b : State) (s : State) : (brbEntered type b s).ps = s.ps := rfl
@[simp] theorem brbEntered_sys (type : BitVec 6) (b : State) (s : State) : (brbEntered type b s).sys = s.sys := rfl
@[simp] theorem brbEntered_pmevcntr (type : BitVec 6) (b : State) (s : State) : (brbEntered type b s).pmevcntr = s.pmevcntr := rfl
@[simp] theorem brbEntered_pmevtyper (type : BitVec 6) (b : State) (s : State) : (brbEntered type b s).pmevtyper = s.pmevtyper := rfl
@[simp] theorem brbEntered_brbsrc (type : BitVec 6) (b : State) (s : State) : (brbEntered type b s).brbsrc = s.brbsrc := rfl
@[simp] theorem brbEntered_brbtgt (type : BitVec 6) (b : State) (s : State) : (brbEntered type b s).brbtgt = s.brbtgt := rfl
@[simp] theorem brbEntered_brbinf (type : BitVec 6) (b : State) (s : State) : (brbEntered type b s).brbinf = s.brbinf := rfl
@[simp] theorem brbEntered_trcacvr (type : BitVec 6) (b : State) (s : State) : (brbEntered type b s).trcacvr = s.trcacvr := rfl
@[simp] theorem brbEntered_z (type : BitVec 6) (b : State) (s : State) : (brbEntered type b s).z = s.z := rfl
@[simp] theorem brbEntered_p (type : BitVec 6) (b : State) (s : State) : (brbEntered type b s).p = s.p := rfl
@[simp] theorem brbEntered_ffr (type : BitVec 6) (b : State) (s : State) : (brbEntered type b s).ffr = s.ffr := rfl
@[simp] theorem brbEntered_za (type : BitVec 6) (b : State) (s : State) : (brbEntered type b s).za = s.za := rfl
@[simp] theorem brbEntered_zt0 (type : BitVec 6) (b : State) (s : State) : (brbEntered type b s).zt0 = s.zt0 := rfl
@[simp] theorem brbEntered_mem (type : BitVec 6) (b : State) (s : State) : (brbEntered type b s).mem = s.mem := rfl
@[simp] theorem brbEntered_tags (type : BitVec 6) (b : State) (s : State) : (brbEntered type b s).tags = s.tags := rfl
@[simp] theorem brbEntered_tlb (type : BitVec 6) (b : State) (s : State) : (brbEntered type b s).tlb = s.tlb := rfl
@[simp] theorem brbEntered_gptTlb (type : BitVec 6) (b : State) (s : State) : (brbEntered type b s).gptTlb = s.gptTlb := rfl
@[simp] theorem brbEntered_exLocal (type : BitVec 6) (b : State) (s : State) : (brbEntered type b s).exLocal = s.exLocal := rfl
@[simp] theorem brbEntered_exGlobal (type : BitVec 6) (b : State) (s : State) : (brbEntered type b s).exGlobal = s.exGlobal := rfl
@[simp] theorem brbEntered_exTlbi (type : BitVec 6) (b : State) (s : State) : (brbEntered type b s).exTlbi = s.exTlbi := rfl
@[simp] theorem brbEntered_predictions (type : BitVec 6) (b : State) (s : State) : (brbEntered type b s).predictions = s.predictions := rfl
@[simp] theorem brbEntered_eventReg (type : BitVec 6) (b : State) (s : State) : (brbEntered type b s).eventReg = s.eventReg := rfl
@[simp] theorem brbEntered_waiting (type : BitVec 6) (b : State) (s : State) : (brbEntered type b s).waiting = s.waiting := rfl
@[simp] theorem brbEntered_brbTimestamp (type : BitVec 6) (b : State) (s : State) : (brbEntered type b s).brbTimestamp = s.brbTimestamp := rfl
@[simp] theorem brbEntered_intr (type : BitVec 6) (b : State) (s : State) : (brbEntered type b s).intr = s.intr := rfl
@[simp] theorem brbEntered_stale (type : BitVec 6) (b : State) (s : State) : (brbEntered type b s).stale = s.stale := rfl
@[simp] theorem brbEntered_warmReset (type : BitVec 6) (b : State) (s : State) : (brbEntered type b s).warmReset = s.warmReset := rfl
@[simp] theorem brbEntered_resetSeq (type : BitVec 6) (b : State) (s : State) : (brbEntered type b s).resetSeq = s.resetSeq := rfl
@[simp] theorem brbEntered_movprfx (type : BitVec 6) (b : State) (s : State) : (brbEntered type b s).movprfx = s.movprfx := rfl
@[simp] theorem brbEntered_pend (type : BitVec 6) (b : State) (s : State) : (brbEntered type b s).pend = s.pend := rfl
@[simp] theorem brbEntered_pendCtl (type : BitVec 6) (b : State) (s : State) : (brbEntered type b s).pendCtl = s.pendCtl := rfl
@[simp] theorem brbEntered_counted (type : BitVec 6) (b : State) (s : State) : (brbEntered type b s).counted = s.counted := rfl
@[simp] theorem brbEntered_dbg (type : BitVec 6) (b : State) (s : State) : (brbEntered type b s).dbg = s.dbg := rfl
@[simp] theorem brbEntered_a32 (type : BitVec 6) (b : State) (s : State) : (brbEntered type b s).a32 = s.a32 := rfl
@[simp] theorem brbEntered_frames (type : BitVec 6) (b : State) (s : State) : (brbEntered type b s).frames = s.frames := rfl
@[simp] theorem brbEntered_err (type : BitVec 6) (b : State) (s : State) : (brbEntered type b s).err = s.err := rfl
@[simp] theorem brbEntered_profileFault (type : BitVec 6) (b : State) (s : State) : (brbEntered type b s).profileFault = s.profileFault := rfl
@[simp] theorem brbEntered_traceFault (type : BitVec 6) (b : State) (s : State) : (brbEntered type b s).traceFault = s.traceFault := rfl
@[simp] theorem brbEntered_agents (type : BitVec 6) (b : State) (s : State) : (brbEntered type b s).agents = s.agents := rfl
@[simp] theorem brbEntered_count (type : BitVec 6) (b : State) (s : State) : (brbEntered type b s).count = s.count := rfl
@[simp] theorem brbEntered_devLog (type : BitVec 6) (b : State) (s : State) : (brbEntered type b s).devLog = s.devLog := rfl
@[simp] theorem brbEntered_offTop (type : BitVec 6) (b : State) (s : State) : (brbEntered type b s).offTop = s.offTop := rfl
@[simp] theorem brbEntered_free (type : BitVec 6) (b : State) (s : State) : (brbEntered type b s).free = s.free := rfl

/-! ### setReg -/

@[simp] theorem setReg_cfg (r : SysReg) (v : Word) (s : State) : (setReg r v s).cfg = s.cfg := rfl
@[simp] theorem setReg_x (r : SysReg) (v : Word) (s : State) : (setReg r v s).x = s.x := rfl
@[simp] theorem setReg_sp (r : SysReg) (v : Word) (s : State) : (setReg r v s).sp = s.sp := rfl
@[simp] theorem setReg_pc (r : SysReg) (v : Word) (s : State) : (setReg r v s).pc = s.pc := rfl
@[simp] theorem setReg_ps (r : SysReg) (v : Word) (s : State) : (setReg r v s).ps = s.ps := rfl
@[simp] theorem setReg_pmevcntr (r : SysReg) (v : Word) (s : State) : (setReg r v s).pmevcntr = s.pmevcntr := rfl
@[simp] theorem setReg_pmevtyper (r : SysReg) (v : Word) (s : State) : (setReg r v s).pmevtyper = s.pmevtyper := rfl
@[simp] theorem setReg_brbsrc (r : SysReg) (v : Word) (s : State) : (setReg r v s).brbsrc = s.brbsrc := rfl
@[simp] theorem setReg_brbtgt (r : SysReg) (v : Word) (s : State) : (setReg r v s).brbtgt = s.brbtgt := rfl
@[simp] theorem setReg_brbinf (r : SysReg) (v : Word) (s : State) : (setReg r v s).brbinf = s.brbinf := rfl
@[simp] theorem setReg_brbEntry (r : SysReg) (v : Word) (s : State) : (setReg r v s).brbEntry = s.brbEntry := rfl
@[simp] theorem setReg_trcacvr (r : SysReg) (v : Word) (s : State) : (setReg r v s).trcacvr = s.trcacvr := rfl
@[simp] theorem setReg_z (r : SysReg) (v : Word) (s : State) : (setReg r v s).z = s.z := rfl
@[simp] theorem setReg_p (r : SysReg) (v : Word) (s : State) : (setReg r v s).p = s.p := rfl
@[simp] theorem setReg_ffr (r : SysReg) (v : Word) (s : State) : (setReg r v s).ffr = s.ffr := rfl
@[simp] theorem setReg_za (r : SysReg) (v : Word) (s : State) : (setReg r v s).za = s.za := rfl
@[simp] theorem setReg_zt0 (r : SysReg) (v : Word) (s : State) : (setReg r v s).zt0 = s.zt0 := rfl
@[simp] theorem setReg_mem (r : SysReg) (v : Word) (s : State) : (setReg r v s).mem = s.mem := rfl
@[simp] theorem setReg_tags (r : SysReg) (v : Word) (s : State) : (setReg r v s).tags = s.tags := rfl
@[simp] theorem setReg_tlb (r : SysReg) (v : Word) (s : State) : (setReg r v s).tlb = s.tlb := rfl
@[simp] theorem setReg_gptTlb (r : SysReg) (v : Word) (s : State) : (setReg r v s).gptTlb = s.gptTlb := rfl
@[simp] theorem setReg_exLocal (r : SysReg) (v : Word) (s : State) : (setReg r v s).exLocal = s.exLocal := rfl
@[simp] theorem setReg_exGlobal (r : SysReg) (v : Word) (s : State) : (setReg r v s).exGlobal = s.exGlobal := rfl
@[simp] theorem setReg_exTlbi (r : SysReg) (v : Word) (s : State) : (setReg r v s).exTlbi = s.exTlbi := rfl
@[simp] theorem setReg_predictions (r : SysReg) (v : Word) (s : State) : (setReg r v s).predictions = s.predictions := rfl
@[simp] theorem setReg_eventReg (r : SysReg) (v : Word) (s : State) : (setReg r v s).eventReg = s.eventReg := rfl
@[simp] theorem setReg_waiting (r : SysReg) (v : Word) (s : State) : (setReg r v s).waiting = s.waiting := rfl
@[simp] theorem setReg_brbTimestamp (r : SysReg) (v : Word) (s : State) : (setReg r v s).brbTimestamp = s.brbTimestamp := rfl
@[simp] theorem setReg_intr (r : SysReg) (v : Word) (s : State) : (setReg r v s).intr = s.intr := rfl
@[simp] theorem setReg_stale (r : SysReg) (v : Word) (s : State) : (setReg r v s).stale = s.stale := rfl
@[simp] theorem setReg_warmReset (r : SysReg) (v : Word) (s : State) : (setReg r v s).warmReset = s.warmReset := rfl
@[simp] theorem setReg_resetSeq (r : SysReg) (v : Word) (s : State) : (setReg r v s).resetSeq = s.resetSeq := rfl
@[simp] theorem setReg_movprfx (r : SysReg) (v : Word) (s : State) : (setReg r v s).movprfx = s.movprfx := rfl
@[simp] theorem setReg_pend (r : SysReg) (v : Word) (s : State) : (setReg r v s).pend = s.pend := rfl
@[simp] theorem setReg_pendCtl (r : SysReg) (v : Word) (s : State) : (setReg r v s).pendCtl = s.pendCtl := rfl
@[simp] theorem setReg_counted (r : SysReg) (v : Word) (s : State) : (setReg r v s).counted = s.counted := rfl
@[simp] theorem setReg_dbg (r : SysReg) (v : Word) (s : State) : (setReg r v s).dbg = s.dbg := rfl
@[simp] theorem setReg_a32 (r : SysReg) (v : Word) (s : State) : (setReg r v s).a32 = s.a32 := rfl
@[simp] theorem setReg_frames (r : SysReg) (v : Word) (s : State) : (setReg r v s).frames = s.frames := rfl
@[simp] theorem setReg_err (r : SysReg) (v : Word) (s : State) : (setReg r v s).err = s.err := rfl
@[simp] theorem setReg_profileFault (r : SysReg) (v : Word) (s : State) : (setReg r v s).profileFault = s.profileFault := rfl
@[simp] theorem setReg_traceFault (r : SysReg) (v : Word) (s : State) : (setReg r v s).traceFault = s.traceFault := rfl
@[simp] theorem setReg_agents (r : SysReg) (v : Word) (s : State) : (setReg r v s).agents = s.agents := rfl
@[simp] theorem setReg_count (r : SysReg) (v : Word) (s : State) : (setReg r v s).count = s.count := rfl
@[simp] theorem setReg_devLog (r : SysReg) (v : Word) (s : State) : (setReg r v s).devLog = s.devLog := rfl
@[simp] theorem setReg_offTop (r : SysReg) (v : Word) (s : State) : (setReg r v s).offTop = s.offTop := rfl
@[simp] theorem setReg_free (r : SysReg) (v : Word) (s : State) : (setReg r v s).free = s.free := rfl

/-! ### setCtl -/

@[simp] theorem setCtl_cfg (r : CtlReg) (v : Word) (s : State) : (setCtl r v s).cfg = s.cfg := by cases r <;> rfl
@[simp] theorem setCtl_x (r : CtlReg) (v : Word) (s : State) : (setCtl r v s).x = s.x := by cases r <;> rfl
@[simp] theorem setCtl_sp (r : CtlReg) (v : Word) (s : State) : (setCtl r v s).sp = s.sp := by cases r <;> rfl
@[simp] theorem setCtl_pc (r : CtlReg) (v : Word) (s : State) : (setCtl r v s).pc = s.pc := by cases r <;> rfl
@[simp] theorem setCtl_ps (r : CtlReg) (v : Word) (s : State) : (setCtl r v s).ps = s.ps := by cases r <;> rfl
@[simp] theorem setCtl_sys (r : CtlReg) (v : Word) (s : State) : (setCtl r v s).sys = s.sys := by cases r <;> rfl
@[simp] theorem setCtl_pmevcntr (r : CtlReg) (v : Word) (s : State) : (setCtl r v s).pmevcntr = s.pmevcntr := by cases r <;> rfl
@[simp] theorem setCtl_brbsrc (r : CtlReg) (v : Word) (s : State) : (setCtl r v s).brbsrc = s.brbsrc := by cases r <;> rfl
@[simp] theorem setCtl_brbtgt (r : CtlReg) (v : Word) (s : State) : (setCtl r v s).brbtgt = s.brbtgt := by cases r <;> rfl
@[simp] theorem setCtl_brbinf (r : CtlReg) (v : Word) (s : State) : (setCtl r v s).brbinf = s.brbinf := by cases r <;> rfl
@[simp] theorem setCtl_brbEntry (r : CtlReg) (v : Word) (s : State) : (setCtl r v s).brbEntry = s.brbEntry := by cases r <;> rfl
@[simp] theorem setCtl_trcacvr (r : CtlReg) (v : Word) (s : State) : (setCtl r v s).trcacvr = s.trcacvr := by cases r <;> rfl
@[simp] theorem setCtl_z (r : CtlReg) (v : Word) (s : State) : (setCtl r v s).z = s.z := by cases r <;> rfl
@[simp] theorem setCtl_p (r : CtlReg) (v : Word) (s : State) : (setCtl r v s).p = s.p := by cases r <;> rfl
@[simp] theorem setCtl_ffr (r : CtlReg) (v : Word) (s : State) : (setCtl r v s).ffr = s.ffr := by cases r <;> rfl
@[simp] theorem setCtl_za (r : CtlReg) (v : Word) (s : State) : (setCtl r v s).za = s.za := by cases r <;> rfl
@[simp] theorem setCtl_zt0 (r : CtlReg) (v : Word) (s : State) : (setCtl r v s).zt0 = s.zt0 := by cases r <;> rfl
@[simp] theorem setCtl_mem (r : CtlReg) (v : Word) (s : State) : (setCtl r v s).mem = s.mem := by cases r <;> rfl
@[simp] theorem setCtl_tags (r : CtlReg) (v : Word) (s : State) : (setCtl r v s).tags = s.tags := by cases r <;> rfl
@[simp] theorem setCtl_tlb (r : CtlReg) (v : Word) (s : State) : (setCtl r v s).tlb = s.tlb := by cases r <;> rfl
@[simp] theorem setCtl_gptTlb (r : CtlReg) (v : Word) (s : State) : (setCtl r v s).gptTlb = s.gptTlb := by cases r <;> rfl
@[simp] theorem setCtl_exLocal (r : CtlReg) (v : Word) (s : State) : (setCtl r v s).exLocal = s.exLocal := by cases r <;> rfl
@[simp] theorem setCtl_exGlobal (r : CtlReg) (v : Word) (s : State) : (setCtl r v s).exGlobal = s.exGlobal := by cases r <;> rfl
@[simp] theorem setCtl_exTlbi (r : CtlReg) (v : Word) (s : State) : (setCtl r v s).exTlbi = s.exTlbi := by cases r <;> rfl
@[simp] theorem setCtl_predictions (r : CtlReg) (v : Word) (s : State) : (setCtl r v s).predictions = s.predictions := by cases r <;> rfl
@[simp] theorem setCtl_eventReg (r : CtlReg) (v : Word) (s : State) : (setCtl r v s).eventReg = s.eventReg := by cases r <;> rfl
@[simp] theorem setCtl_waiting (r : CtlReg) (v : Word) (s : State) : (setCtl r v s).waiting = s.waiting := by cases r <;> rfl
@[simp] theorem setCtl_brbTimestamp (r : CtlReg) (v : Word) (s : State) : (setCtl r v s).brbTimestamp = s.brbTimestamp := by cases r <;> rfl
@[simp] theorem setCtl_intr (r : CtlReg) (v : Word) (s : State) : (setCtl r v s).intr = s.intr := by cases r <;> rfl
@[simp] theorem setCtl_stale (r : CtlReg) (v : Word) (s : State) : (setCtl r v s).stale = s.stale := by cases r <;> rfl
@[simp] theorem setCtl_warmReset (r : CtlReg) (v : Word) (s : State) : (setCtl r v s).warmReset = s.warmReset := by cases r <;> rfl
@[simp] theorem setCtl_resetSeq (r : CtlReg) (v : Word) (s : State) : (setCtl r v s).resetSeq = s.resetSeq := by cases r <;> rfl
@[simp] theorem setCtl_movprfx (r : CtlReg) (v : Word) (s : State) : (setCtl r v s).movprfx = s.movprfx := by cases r <;> rfl
@[simp] theorem setCtl_pend (r : CtlReg) (v : Word) (s : State) : (setCtl r v s).pend = s.pend := by cases r <;> rfl
@[simp] theorem setCtl_pendCtl (r : CtlReg) (v : Word) (s : State) : (setCtl r v s).pendCtl = s.pendCtl := by cases r <;> rfl
@[simp] theorem setCtl_counted (r : CtlReg) (v : Word) (s : State) : (setCtl r v s).counted = s.counted := by cases r <;> rfl
@[simp] theorem setCtl_dbg (r : CtlReg) (v : Word) (s : State) : (setCtl r v s).dbg = s.dbg := by cases r <;> rfl
@[simp] theorem setCtl_frames (r : CtlReg) (v : Word) (s : State) : (setCtl r v s).frames = s.frames := by cases r <;> rfl
@[simp] theorem setCtl_err (r : CtlReg) (v : Word) (s : State) : (setCtl r v s).err = s.err := by cases r <;> rfl
@[simp] theorem setCtl_profileFault (r : CtlReg) (v : Word) (s : State) : (setCtl r v s).profileFault = s.profileFault := by cases r <;> rfl
@[simp] theorem setCtl_traceFault (r : CtlReg) (v : Word) (s : State) : (setCtl r v s).traceFault = s.traceFault := by cases r <;> rfl
@[simp] theorem setCtl_agents (r : CtlReg) (v : Word) (s : State) : (setCtl r v s).agents = s.agents := by cases r <;> rfl
@[simp] theorem setCtl_count (r : CtlReg) (v : Word) (s : State) : (setCtl r v s).count = s.count := by cases r <;> rfl
@[simp] theorem setCtl_devLog (r : CtlReg) (v : Word) (s : State) : (setCtl r v s).devLog = s.devLog := by cases r <;> rfl
@[simp] theorem setCtl_offTop (r : CtlReg) (v : Word) (s : State) : (setCtl r v s).offTop = s.offTop := by cases r <;> rfl
@[simp] theorem setCtl_free (r : CtlReg) (v : Word) (s : State) : (setCtl r v s).free = s.free := by cases r <;> rfl

/-! ### writeCtl -/

@[simp] theorem writeCtl_cfg (r : CtlReg) (v : Word) (s : State) : (writeCtl r v s).cfg = s.cfg := by cases r <;> rfl
@[simp] theorem writeCtl_x (r : CtlReg) (v : Word) (s : State) : (writeCtl r v s).x = s.x := by cases r <;> rfl
@[simp] theorem writeCtl_sp (r : CtlReg) (v : Word) (s : State) : (writeCtl r v s).sp = s.sp := by cases r <;> rfl
@[simp] theorem writeCtl_pc (r : CtlReg) (v : Word) (s : State) : (writeCtl r v s).pc = s.pc := by cases r <;> rfl
@[simp] theorem writeCtl_ps (r : CtlReg) (v : Word) (s : State) : (writeCtl r v s).ps = s.ps := by cases r <;> rfl
@[simp] theorem writeCtl_sys (r : CtlReg) (v : Word) (s : State) : (writeCtl r v s).sys = s.sys := by cases r <;> rfl
@[simp] theorem writeCtl_pmevcntr (r : CtlReg) (v : Word) (s : State) : (writeCtl r v s).pmevcntr = s.pmevcntr := by cases r <;> rfl
@[simp] theorem writeCtl_brbsrc (r : CtlReg) (v : Word) (s : State) : (writeCtl r v s).brbsrc = s.brbsrc := by cases r <;> rfl
@[simp] theorem writeCtl_brbtgt (r : CtlReg) (v : Word) (s : State) : (writeCtl r v s).brbtgt = s.brbtgt := by cases r <;> rfl
@[simp] theorem writeCtl_brbinf (r : CtlReg) (v : Word) (s : State) : (writeCtl r v s).brbinf = s.brbinf := by cases r <;> rfl
@[simp] theorem writeCtl_brbEntry (r : CtlReg) (v : Word) (s : State) : (writeCtl r v s).brbEntry = s.brbEntry := by cases r <;> rfl
@[simp] theorem writeCtl_trcacvr (r : CtlReg) (v : Word) (s : State) : (writeCtl r v s).trcacvr = s.trcacvr := by cases r <;> rfl
@[simp] theorem writeCtl_z (r : CtlReg) (v : Word) (s : State) : (writeCtl r v s).z = s.z := by cases r <;> rfl
@[simp] theorem writeCtl_p (r : CtlReg) (v : Word) (s : State) : (writeCtl r v s).p = s.p := by cases r <;> rfl
@[simp] theorem writeCtl_ffr (r : CtlReg) (v : Word) (s : State) : (writeCtl r v s).ffr = s.ffr := by cases r <;> rfl
@[simp] theorem writeCtl_za (r : CtlReg) (v : Word) (s : State) : (writeCtl r v s).za = s.za := by cases r <;> rfl
@[simp] theorem writeCtl_zt0 (r : CtlReg) (v : Word) (s : State) : (writeCtl r v s).zt0 = s.zt0 := by cases r <;> rfl
@[simp] theorem writeCtl_mem (r : CtlReg) (v : Word) (s : State) : (writeCtl r v s).mem = s.mem := by cases r <;> rfl
@[simp] theorem writeCtl_tags (r : CtlReg) (v : Word) (s : State) : (writeCtl r v s).tags = s.tags := by cases r <;> rfl
@[simp] theorem writeCtl_tlb (r : CtlReg) (v : Word) (s : State) : (writeCtl r v s).tlb = s.tlb := by cases r <;> rfl
@[simp] theorem writeCtl_gptTlb (r : CtlReg) (v : Word) (s : State) : (writeCtl r v s).gptTlb = s.gptTlb := by cases r <;> rfl
@[simp] theorem writeCtl_exLocal (r : CtlReg) (v : Word) (s : State) : (writeCtl r v s).exLocal = s.exLocal := by cases r <;> rfl
@[simp] theorem writeCtl_exGlobal (r : CtlReg) (v : Word) (s : State) : (writeCtl r v s).exGlobal = s.exGlobal := by cases r <;> rfl
@[simp] theorem writeCtl_exTlbi (r : CtlReg) (v : Word) (s : State) : (writeCtl r v s).exTlbi = s.exTlbi := by cases r <;> rfl
@[simp] theorem writeCtl_predictions (r : CtlReg) (v : Word) (s : State) : (writeCtl r v s).predictions = s.predictions := by cases r <;> rfl
@[simp] theorem writeCtl_eventReg (r : CtlReg) (v : Word) (s : State) : (writeCtl r v s).eventReg = s.eventReg := by cases r <;> rfl
@[simp] theorem writeCtl_waiting (r : CtlReg) (v : Word) (s : State) : (writeCtl r v s).waiting = s.waiting := by cases r <;> rfl
@[simp] theorem writeCtl_brbTimestamp (r : CtlReg) (v : Word) (s : State) : (writeCtl r v s).brbTimestamp = s.brbTimestamp := by cases r <;> rfl
@[simp] theorem writeCtl_intr (r : CtlReg) (v : Word) (s : State) : (writeCtl r v s).intr = s.intr := by cases r <;> rfl
@[simp] theorem writeCtl_stale (r : CtlReg) (v : Word) (s : State) : (writeCtl r v s).stale = s.stale := by cases r <;> rfl
@[simp] theorem writeCtl_warmReset (r : CtlReg) (v : Word) (s : State) : (writeCtl r v s).warmReset = s.warmReset := by cases r <;> rfl
@[simp] theorem writeCtl_resetSeq (r : CtlReg) (v : Word) (s : State) : (writeCtl r v s).resetSeq = s.resetSeq := by cases r <;> rfl
@[simp] theorem writeCtl_movprfx (r : CtlReg) (v : Word) (s : State) : (writeCtl r v s).movprfx = s.movprfx := by cases r <;> rfl
@[simp] theorem writeCtl_pend (r : CtlReg) (v : Word) (s : State) : (writeCtl r v s).pend = s.pend := by cases r <;> rfl
@[simp] theorem writeCtl_counted (r : CtlReg) (v : Word) (s : State) : (writeCtl r v s).counted = s.counted := by cases r <;> rfl
@[simp] theorem writeCtl_dbg (r : CtlReg) (v : Word) (s : State) : (writeCtl r v s).dbg = s.dbg := by cases r <;> rfl
@[simp] theorem writeCtl_frames (r : CtlReg) (v : Word) (s : State) : (writeCtl r v s).frames = s.frames := by cases r <;> rfl
@[simp] theorem writeCtl_err (r : CtlReg) (v : Word) (s : State) : (writeCtl r v s).err = s.err := by cases r <;> rfl
@[simp] theorem writeCtl_profileFault (r : CtlReg) (v : Word) (s : State) : (writeCtl r v s).profileFault = s.profileFault := by cases r <;> rfl
@[simp] theorem writeCtl_traceFault (r : CtlReg) (v : Word) (s : State) : (writeCtl r v s).traceFault = s.traceFault := by cases r <;> rfl
@[simp] theorem writeCtl_agents (r : CtlReg) (v : Word) (s : State) : (writeCtl r v s).agents = s.agents := by cases r <;> rfl
@[simp] theorem writeCtl_count (r : CtlReg) (v : Word) (s : State) : (writeCtl r v s).count = s.count := by cases r <;> rfl
@[simp] theorem writeCtl_devLog (r : CtlReg) (v : Word) (s : State) : (writeCtl r v s).devLog = s.devLog := by cases r <;> rfl
@[simp] theorem writeCtl_offTop (r : CtlReg) (v : Word) (s : State) : (writeCtl r v s).offTop = s.offTop := by cases r <;> rfl
@[simp] theorem writeCtl_free (r : CtlReg) (v : Word) (s : State) : (writeCtl r v s).free = s.free := by cases r <;> rfl

/-! ### setFlags -/

@[simp] theorem setFlags_cfg (f : NZCV) (s : State) : (setFlags f s).cfg = s.cfg := rfl
@[simp] theorem setFlags_x (f : NZCV) (s : State) : (setFlags f s).x = s.x := rfl
@[simp] theorem setFlags_sp (f : NZCV) (s : State) : (setFlags f s).sp = s.sp := rfl
@[simp] theorem setFlags_pc (f : NZCV) (s : State) : (setFlags f s).pc = s.pc := rfl
@[simp] theorem setFlags_sys (f : NZCV) (s : State) : (setFlags f s).sys = s.sys := rfl
@[simp] theorem setFlags_pmevcntr (f : NZCV) (s : State) : (setFlags f s).pmevcntr = s.pmevcntr := rfl
@[simp] theorem setFlags_pmevtyper (f : NZCV) (s : State) : (setFlags f s).pmevtyper = s.pmevtyper := rfl
@[simp] theorem setFlags_brbsrc (f : NZCV) (s : State) : (setFlags f s).brbsrc = s.brbsrc := rfl
@[simp] theorem setFlags_brbtgt (f : NZCV) (s : State) : (setFlags f s).brbtgt = s.brbtgt := rfl
@[simp] theorem setFlags_brbinf (f : NZCV) (s : State) : (setFlags f s).brbinf = s.brbinf := rfl
@[simp] theorem setFlags_brbEntry (f : NZCV) (s : State) : (setFlags f s).brbEntry = s.brbEntry := rfl
@[simp] theorem setFlags_trcacvr (f : NZCV) (s : State) : (setFlags f s).trcacvr = s.trcacvr := rfl
@[simp] theorem setFlags_z (f : NZCV) (s : State) : (setFlags f s).z = s.z := rfl
@[simp] theorem setFlags_p (f : NZCV) (s : State) : (setFlags f s).p = s.p := rfl
@[simp] theorem setFlags_ffr (f : NZCV) (s : State) : (setFlags f s).ffr = s.ffr := rfl
@[simp] theorem setFlags_za (f : NZCV) (s : State) : (setFlags f s).za = s.za := rfl
@[simp] theorem setFlags_zt0 (f : NZCV) (s : State) : (setFlags f s).zt0 = s.zt0 := rfl
@[simp] theorem setFlags_mem (f : NZCV) (s : State) : (setFlags f s).mem = s.mem := rfl
@[simp] theorem setFlags_tags (f : NZCV) (s : State) : (setFlags f s).tags = s.tags := rfl
@[simp] theorem setFlags_tlb (f : NZCV) (s : State) : (setFlags f s).tlb = s.tlb := rfl
@[simp] theorem setFlags_gptTlb (f : NZCV) (s : State) : (setFlags f s).gptTlb = s.gptTlb := rfl
@[simp] theorem setFlags_exLocal (f : NZCV) (s : State) : (setFlags f s).exLocal = s.exLocal := rfl
@[simp] theorem setFlags_exGlobal (f : NZCV) (s : State) : (setFlags f s).exGlobal = s.exGlobal := rfl
@[simp] theorem setFlags_exTlbi (f : NZCV) (s : State) : (setFlags f s).exTlbi = s.exTlbi := rfl
@[simp] theorem setFlags_predictions (f : NZCV) (s : State) : (setFlags f s).predictions = s.predictions := rfl
@[simp] theorem setFlags_eventReg (f : NZCV) (s : State) : (setFlags f s).eventReg = s.eventReg := rfl
@[simp] theorem setFlags_waiting (f : NZCV) (s : State) : (setFlags f s).waiting = s.waiting := rfl
@[simp] theorem setFlags_brbTimestamp (f : NZCV) (s : State) : (setFlags f s).brbTimestamp = s.brbTimestamp := rfl
@[simp] theorem setFlags_intr (f : NZCV) (s : State) : (setFlags f s).intr = s.intr := rfl
@[simp] theorem setFlags_stale (f : NZCV) (s : State) : (setFlags f s).stale = s.stale := rfl
@[simp] theorem setFlags_warmReset (f : NZCV) (s : State) : (setFlags f s).warmReset = s.warmReset := rfl
@[simp] theorem setFlags_resetSeq (f : NZCV) (s : State) : (setFlags f s).resetSeq = s.resetSeq := rfl
@[simp] theorem setFlags_movprfx (f : NZCV) (s : State) : (setFlags f s).movprfx = s.movprfx := rfl
@[simp] theorem setFlags_pend (f : NZCV) (s : State) : (setFlags f s).pend = s.pend := rfl
@[simp] theorem setFlags_pendCtl (f : NZCV) (s : State) : (setFlags f s).pendCtl = s.pendCtl := rfl
@[simp] theorem setFlags_counted (f : NZCV) (s : State) : (setFlags f s).counted = s.counted := rfl
@[simp] theorem setFlags_dbg (f : NZCV) (s : State) : (setFlags f s).dbg = s.dbg := rfl
@[simp] theorem setFlags_a32 (f : NZCV) (s : State) : (setFlags f s).a32 = s.a32 := rfl
@[simp] theorem setFlags_frames (f : NZCV) (s : State) : (setFlags f s).frames = s.frames := rfl
@[simp] theorem setFlags_err (f : NZCV) (s : State) : (setFlags f s).err = s.err := rfl
@[simp] theorem setFlags_profileFault (f : NZCV) (s : State) : (setFlags f s).profileFault = s.profileFault := rfl
@[simp] theorem setFlags_traceFault (f : NZCV) (s : State) : (setFlags f s).traceFault = s.traceFault := rfl
@[simp] theorem setFlags_agents (f : NZCV) (s : State) : (setFlags f s).agents = s.agents := rfl
@[simp] theorem setFlags_count (f : NZCV) (s : State) : (setFlags f s).count = s.count := rfl
@[simp] theorem setFlags_devLog (f : NZCV) (s : State) : (setFlags f s).devLog = s.devLog := rfl
@[simp] theorem setFlags_offTop (f : NZCV) (s : State) : (setFlags f s).offTop = s.offTop := rfl
@[simp] theorem setFlags_free (f : NZCV) (s : State) : (setFlags f s).free = s.free := rfl

@[simp] theorem setFlags_ps_d (f : NZCV) (s : State) : (setFlags f s).ps.d = s.ps.d := rfl
@[simp] theorem setFlags_ps_a (f : NZCV) (s : State) : (setFlags f s).ps.a = s.ps.a := rfl
@[simp] theorem setFlags_ps_i (f : NZCV) (s : State) : (setFlags f s).ps.i = s.ps.i := rfl
@[simp] theorem setFlags_ps_f (f : NZCV) (s : State) : (setFlags f s).ps.f = s.ps.f := rfl
@[simp] theorem setFlags_ps_ss (f : NZCV) (s : State) : (setFlags f s).ps.ss = s.ps.ss := rfl
@[simp] theorem setFlags_ps_il (f : NZCV) (s : State) : (setFlags f s).ps.il = s.ps.il := rfl
@[simp] theorem setFlags_ps_pan (f : NZCV) (s : State) : (setFlags f s).ps.pan = s.ps.pan := rfl
@[simp] theorem setFlags_ps_uao (f : NZCV) (s : State) : (setFlags f s).ps.uao = s.ps.uao := rfl
@[simp] theorem setFlags_ps_ssbs (f : NZCV) (s : State) : (setFlags f s).ps.ssbs = s.ps.ssbs := rfl
@[simp] theorem setFlags_ps_dit (f : NZCV) (s : State) : (setFlags f s).ps.dit = s.ps.dit := rfl
@[simp] theorem setFlags_ps_tco (f : NZCV) (s : State) : (setFlags f s).ps.tco = s.ps.tco := rfl
@[simp] theorem setFlags_ps_allint (f : NZCV) (s : State) : (setFlags f s).ps.allint = s.ps.allint := rfl
@[simp] theorem setFlags_ps_sm (f : NZCV) (s : State) : (setFlags f s).ps.sm = s.ps.sm := rfl
@[simp] theorem setFlags_ps_za (f : NZCV) (s : State) : (setFlags f s).ps.za = s.ps.za := rfl
@[simp] theorem setFlags_ps_pacm (f : NZCV) (s : State) : (setFlags f s).ps.pacm = s.ps.pacm := rfl
@[simp] theorem setFlags_ps_btype (f : NZCV) (s : State) : (setFlags f s).ps.btype = s.ps.btype := rfl
@[simp] theorem setFlags_ps_el (f : NZCV) (s : State) : (setFlags f s).ps.el = s.ps.el := rfl
@[simp] theorem setFlags_ps_spsel (f : NZCV) (s : State) : (setFlags f s).ps.spsel = s.ps.spsel := rfl
@[simp] theorem setFlags_ps_nRW (f : NZCV) (s : State) : (setFlags f s).ps.nRW = s.ps.nRW := rfl
@[simp] theorem setFlags_ps_t (f : NZCV) (s : State) : (setFlags f s).ps.t = s.ps.t := rfl
@[simp] theorem setFlags_ps_m32 (f : NZCV) (s : State) : (setFlags f s).ps.m32 = s.ps.m32 := rfl

/-! ### setPointer -/

@[simp] theorem setPointer_cfg (r : SysReg) (v : Word) (s : State) : (setPointer r v s).cfg = s.cfg := rfl
@[simp] theorem setPointer_x (r : SysReg) (v : Word) (s : State) : (setPointer r v s).x = s.x := rfl
@[simp] theorem setPointer_sp (r : SysReg) (v : Word) (s : State) : (setPointer r v s).sp = s.sp := rfl
@[simp] theorem setPointer_pc (r : SysReg) (v : Word) (s : State) : (setPointer r v s).pc = s.pc := rfl
@[simp] theorem setPointer_ps (r : SysReg) (v : Word) (s : State) : (setPointer r v s).ps = s.ps := rfl
@[simp] theorem setPointer_pmevcntr (r : SysReg) (v : Word) (s : State) : (setPointer r v s).pmevcntr = s.pmevcntr := rfl
@[simp] theorem setPointer_pmevtyper (r : SysReg) (v : Word) (s : State) : (setPointer r v s).pmevtyper = s.pmevtyper := rfl
@[simp] theorem setPointer_brbsrc (r : SysReg) (v : Word) (s : State) : (setPointer r v s).brbsrc = s.brbsrc := rfl
@[simp] theorem setPointer_brbtgt (r : SysReg) (v : Word) (s : State) : (setPointer r v s).brbtgt = s.brbtgt := rfl
@[simp] theorem setPointer_brbinf (r : SysReg) (v : Word) (s : State) : (setPointer r v s).brbinf = s.brbinf := rfl
@[simp] theorem setPointer_brbEntry (r : SysReg) (v : Word) (s : State) : (setPointer r v s).brbEntry = s.brbEntry := rfl
@[simp] theorem setPointer_trcacvr (r : SysReg) (v : Word) (s : State) : (setPointer r v s).trcacvr = s.trcacvr := rfl
@[simp] theorem setPointer_z (r : SysReg) (v : Word) (s : State) : (setPointer r v s).z = s.z := rfl
@[simp] theorem setPointer_p (r : SysReg) (v : Word) (s : State) : (setPointer r v s).p = s.p := rfl
@[simp] theorem setPointer_ffr (r : SysReg) (v : Word) (s : State) : (setPointer r v s).ffr = s.ffr := rfl
@[simp] theorem setPointer_za (r : SysReg) (v : Word) (s : State) : (setPointer r v s).za = s.za := rfl
@[simp] theorem setPointer_zt0 (r : SysReg) (v : Word) (s : State) : (setPointer r v s).zt0 = s.zt0 := rfl
@[simp] theorem setPointer_mem (r : SysReg) (v : Word) (s : State) : (setPointer r v s).mem = s.mem := rfl
@[simp] theorem setPointer_tags (r : SysReg) (v : Word) (s : State) : (setPointer r v s).tags = s.tags := rfl
@[simp] theorem setPointer_tlb (r : SysReg) (v : Word) (s : State) : (setPointer r v s).tlb = s.tlb := rfl
@[simp] theorem setPointer_gptTlb (r : SysReg) (v : Word) (s : State) : (setPointer r v s).gptTlb = s.gptTlb := rfl
@[simp] theorem setPointer_exLocal (r : SysReg) (v : Word) (s : State) : (setPointer r v s).exLocal = s.exLocal := rfl
@[simp] theorem setPointer_exGlobal (r : SysReg) (v : Word) (s : State) : (setPointer r v s).exGlobal = s.exGlobal := rfl
@[simp] theorem setPointer_exTlbi (r : SysReg) (v : Word) (s : State) : (setPointer r v s).exTlbi = s.exTlbi := rfl
@[simp] theorem setPointer_predictions (r : SysReg) (v : Word) (s : State) : (setPointer r v s).predictions = s.predictions := rfl
@[simp] theorem setPointer_eventReg (r : SysReg) (v : Word) (s : State) : (setPointer r v s).eventReg = s.eventReg := rfl
@[simp] theorem setPointer_waiting (r : SysReg) (v : Word) (s : State) : (setPointer r v s).waiting = s.waiting := rfl
@[simp] theorem setPointer_brbTimestamp (r : SysReg) (v : Word) (s : State) : (setPointer r v s).brbTimestamp = s.brbTimestamp := rfl
@[simp] theorem setPointer_intr (r : SysReg) (v : Word) (s : State) : (setPointer r v s).intr = s.intr := rfl
@[simp] theorem setPointer_stale (r : SysReg) (v : Word) (s : State) : (setPointer r v s).stale = s.stale := rfl
@[simp] theorem setPointer_warmReset (r : SysReg) (v : Word) (s : State) : (setPointer r v s).warmReset = s.warmReset := rfl
@[simp] theorem setPointer_resetSeq (r : SysReg) (v : Word) (s : State) : (setPointer r v s).resetSeq = s.resetSeq := rfl
@[simp] theorem setPointer_movprfx (r : SysReg) (v : Word) (s : State) : (setPointer r v s).movprfx = s.movprfx := rfl
@[simp] theorem setPointer_pendCtl (r : SysReg) (v : Word) (s : State) : (setPointer r v s).pendCtl = s.pendCtl := rfl
@[simp] theorem setPointer_counted (r : SysReg) (v : Word) (s : State) : (setPointer r v s).counted = s.counted := rfl
@[simp] theorem setPointer_dbg (r : SysReg) (v : Word) (s : State) : (setPointer r v s).dbg = s.dbg := rfl
@[simp] theorem setPointer_a32 (r : SysReg) (v : Word) (s : State) : (setPointer r v s).a32 = s.a32 := rfl
@[simp] theorem setPointer_frames (r : SysReg) (v : Word) (s : State) : (setPointer r v s).frames = s.frames := rfl
@[simp] theorem setPointer_err (r : SysReg) (v : Word) (s : State) : (setPointer r v s).err = s.err := rfl
@[simp] theorem setPointer_profileFault (r : SysReg) (v : Word) (s : State) : (setPointer r v s).profileFault = s.profileFault := rfl
@[simp] theorem setPointer_traceFault (r : SysReg) (v : Word) (s : State) : (setPointer r v s).traceFault = s.traceFault := rfl
@[simp] theorem setPointer_agents (r : SysReg) (v : Word) (s : State) : (setPointer r v s).agents = s.agents := rfl
@[simp] theorem setPointer_count (r : SysReg) (v : Word) (s : State) : (setPointer r v s).count = s.count := rfl
@[simp] theorem setPointer_devLog (r : SysReg) (v : Word) (s : State) : (setPointer r v s).devLog = s.devLog := rfl
@[simp] theorem setPointer_offTop (r : SysReg) (v : Word) (s : State) : (setPointer r v s).offTop = s.offTop := rfl
@[simp] theorem setPointer_free (r : SysReg) (v : Word) (s : State) : (setPointer r v s).free = s.free := rfl

/-! ### writeByte -/

@[simp] theorem writeByte_cfg (k : Nat) (b : Byte) (s : State) : (writeByte k b s).cfg = s.cfg := rfl
@[simp] theorem writeByte_x (k : Nat) (b : Byte) (s : State) : (writeByte k b s).x = s.x := rfl
@[simp] theorem writeByte_sp (k : Nat) (b : Byte) (s : State) : (writeByte k b s).sp = s.sp := rfl
@[simp] theorem writeByte_pc (k : Nat) (b : Byte) (s : State) : (writeByte k b s).pc = s.pc := rfl
@[simp] theorem writeByte_ps (k : Nat) (b : Byte) (s : State) : (writeByte k b s).ps = s.ps := rfl
@[simp] theorem writeByte_sys (k : Nat) (b : Byte) (s : State) : (writeByte k b s).sys = s.sys := rfl
@[simp] theorem writeByte_pmevcntr (k : Nat) (b : Byte) (s : State) : (writeByte k b s).pmevcntr = s.pmevcntr := rfl
@[simp] theorem writeByte_pmevtyper (k : Nat) (b : Byte) (s : State) : (writeByte k b s).pmevtyper = s.pmevtyper := rfl
@[simp] theorem writeByte_brbsrc (k : Nat) (b : Byte) (s : State) : (writeByte k b s).brbsrc = s.brbsrc := rfl
@[simp] theorem writeByte_brbtgt (k : Nat) (b : Byte) (s : State) : (writeByte k b s).brbtgt = s.brbtgt := rfl
@[simp] theorem writeByte_brbinf (k : Nat) (b : Byte) (s : State) : (writeByte k b s).brbinf = s.brbinf := rfl
@[simp] theorem writeByte_brbEntry (k : Nat) (b : Byte) (s : State) : (writeByte k b s).brbEntry = s.brbEntry := rfl
@[simp] theorem writeByte_trcacvr (k : Nat) (b : Byte) (s : State) : (writeByte k b s).trcacvr = s.trcacvr := rfl
@[simp] theorem writeByte_z (k : Nat) (b : Byte) (s : State) : (writeByte k b s).z = s.z := rfl
@[simp] theorem writeByte_p (k : Nat) (b : Byte) (s : State) : (writeByte k b s).p = s.p := rfl
@[simp] theorem writeByte_ffr (k : Nat) (b : Byte) (s : State) : (writeByte k b s).ffr = s.ffr := rfl
@[simp] theorem writeByte_za (k : Nat) (b : Byte) (s : State) : (writeByte k b s).za = s.za := rfl
@[simp] theorem writeByte_zt0 (k : Nat) (b : Byte) (s : State) : (writeByte k b s).zt0 = s.zt0 := rfl
@[simp] theorem writeByte_tags (k : Nat) (b : Byte) (s : State) : (writeByte k b s).tags = s.tags := rfl
@[simp] theorem writeByte_tlb (k : Nat) (b : Byte) (s : State) : (writeByte k b s).tlb = s.tlb := rfl
@[simp] theorem writeByte_gptTlb (k : Nat) (b : Byte) (s : State) : (writeByte k b s).gptTlb = s.gptTlb := rfl
@[simp] theorem writeByte_exLocal (k : Nat) (b : Byte) (s : State) : (writeByte k b s).exLocal = s.exLocal := rfl
@[simp] theorem writeByte_exGlobal (k : Nat) (b : Byte) (s : State) : (writeByte k b s).exGlobal = s.exGlobal := rfl
@[simp] theorem writeByte_exTlbi (k : Nat) (b : Byte) (s : State) : (writeByte k b s).exTlbi = s.exTlbi := rfl
@[simp] theorem writeByte_predictions (k : Nat) (b : Byte) (s : State) : (writeByte k b s).predictions = s.predictions := rfl
@[simp] theorem writeByte_eventReg (k : Nat) (b : Byte) (s : State) : (writeByte k b s).eventReg = s.eventReg := rfl
@[simp] theorem writeByte_waiting (k : Nat) (b : Byte) (s : State) : (writeByte k b s).waiting = s.waiting := rfl
@[simp] theorem writeByte_brbTimestamp (k : Nat) (b : Byte) (s : State) : (writeByte k b s).brbTimestamp = s.brbTimestamp := rfl
@[simp] theorem writeByte_intr (k : Nat) (b : Byte) (s : State) : (writeByte k b s).intr = s.intr := rfl
@[simp] theorem writeByte_warmReset (k : Nat) (b : Byte) (s : State) : (writeByte k b s).warmReset = s.warmReset := rfl
@[simp] theorem writeByte_resetSeq (k : Nat) (b : Byte) (s : State) : (writeByte k b s).resetSeq = s.resetSeq := rfl
@[simp] theorem writeByte_movprfx (k : Nat) (b : Byte) (s : State) : (writeByte k b s).movprfx = s.movprfx := rfl
@[simp] theorem writeByte_pend (k : Nat) (b : Byte) (s : State) : (writeByte k b s).pend = s.pend := rfl
@[simp] theorem writeByte_pendCtl (k : Nat) (b : Byte) (s : State) : (writeByte k b s).pendCtl = s.pendCtl := rfl
@[simp] theorem writeByte_counted (k : Nat) (b : Byte) (s : State) : (writeByte k b s).counted = s.counted := rfl
@[simp] theorem writeByte_dbg (k : Nat) (b : Byte) (s : State) : (writeByte k b s).dbg = s.dbg := rfl
@[simp] theorem writeByte_a32 (k : Nat) (b : Byte) (s : State) : (writeByte k b s).a32 = s.a32 := rfl
@[simp] theorem writeByte_frames (k : Nat) (b : Byte) (s : State) : (writeByte k b s).frames = s.frames := rfl
@[simp] theorem writeByte_err (k : Nat) (b : Byte) (s : State) : (writeByte k b s).err = s.err := rfl
@[simp] theorem writeByte_profileFault (k : Nat) (b : Byte) (s : State) : (writeByte k b s).profileFault = s.profileFault := rfl
@[simp] theorem writeByte_traceFault (k : Nat) (b : Byte) (s : State) : (writeByte k b s).traceFault = s.traceFault := rfl
@[simp] theorem writeByte_agents (k : Nat) (b : Byte) (s : State) : (writeByte k b s).agents = s.agents := rfl
@[simp] theorem writeByte_count (k : Nat) (b : Byte) (s : State) : (writeByte k b s).count = s.count := rfl
@[simp] theorem writeByte_devLog (k : Nat) (b : Byte) (s : State) : (writeByte k b s).devLog = s.devLog := rfl
@[simp] theorem writeByte_offTop (k : Nat) (b : Byte) (s : State) : (writeByte k b s).offTop = s.offTop := rfl
@[simp] theorem writeByte_free (k : Nat) (b : Byte) (s : State) : (writeByte k b s).free = s.free := rfl

/-! ### writeTag -/

@[simp] theorem writeTag_cfg (k : Nat) (g : BitVec 4) (s : State) : (writeTag k g s).cfg = s.cfg := rfl
@[simp] theorem writeTag_x (k : Nat) (g : BitVec 4) (s : State) : (writeTag k g s).x = s.x := rfl
@[simp] theorem writeTag_sp (k : Nat) (g : BitVec 4) (s : State) : (writeTag k g s).sp = s.sp := rfl
@[simp] theorem writeTag_pc (k : Nat) (g : BitVec 4) (s : State) : (writeTag k g s).pc = s.pc := rfl
@[simp] theorem writeTag_ps (k : Nat) (g : BitVec 4) (s : State) : (writeTag k g s).ps = s.ps := rfl
@[simp] theorem writeTag_sys (k : Nat) (g : BitVec 4) (s : State) : (writeTag k g s).sys = s.sys := rfl
@[simp] theorem writeTag_pmevcntr (k : Nat) (g : BitVec 4) (s : State) : (writeTag k g s).pmevcntr = s.pmevcntr := rfl
@[simp] theorem writeTag_pmevtyper (k : Nat) (g : BitVec 4) (s : State) : (writeTag k g s).pmevtyper = s.pmevtyper := rfl
@[simp] theorem writeTag_brbsrc (k : Nat) (g : BitVec 4) (s : State) : (writeTag k g s).brbsrc = s.brbsrc := rfl
@[simp] theorem writeTag_brbtgt (k : Nat) (g : BitVec 4) (s : State) : (writeTag k g s).brbtgt = s.brbtgt := rfl
@[simp] theorem writeTag_brbinf (k : Nat) (g : BitVec 4) (s : State) : (writeTag k g s).brbinf = s.brbinf := rfl
@[simp] theorem writeTag_brbEntry (k : Nat) (g : BitVec 4) (s : State) : (writeTag k g s).brbEntry = s.brbEntry := rfl
@[simp] theorem writeTag_trcacvr (k : Nat) (g : BitVec 4) (s : State) : (writeTag k g s).trcacvr = s.trcacvr := rfl
@[simp] theorem writeTag_z (k : Nat) (g : BitVec 4) (s : State) : (writeTag k g s).z = s.z := rfl
@[simp] theorem writeTag_p (k : Nat) (g : BitVec 4) (s : State) : (writeTag k g s).p = s.p := rfl
@[simp] theorem writeTag_ffr (k : Nat) (g : BitVec 4) (s : State) : (writeTag k g s).ffr = s.ffr := rfl
@[simp] theorem writeTag_za (k : Nat) (g : BitVec 4) (s : State) : (writeTag k g s).za = s.za := rfl
@[simp] theorem writeTag_zt0 (k : Nat) (g : BitVec 4) (s : State) : (writeTag k g s).zt0 = s.zt0 := rfl
@[simp] theorem writeTag_mem (k : Nat) (g : BitVec 4) (s : State) : (writeTag k g s).mem = s.mem := rfl
@[simp] theorem writeTag_tlb (k : Nat) (g : BitVec 4) (s : State) : (writeTag k g s).tlb = s.tlb := rfl
@[simp] theorem writeTag_gptTlb (k : Nat) (g : BitVec 4) (s : State) : (writeTag k g s).gptTlb = s.gptTlb := rfl
@[simp] theorem writeTag_exLocal (k : Nat) (g : BitVec 4) (s : State) : (writeTag k g s).exLocal = s.exLocal := rfl
@[simp] theorem writeTag_exGlobal (k : Nat) (g : BitVec 4) (s : State) : (writeTag k g s).exGlobal = s.exGlobal := rfl
@[simp] theorem writeTag_exTlbi (k : Nat) (g : BitVec 4) (s : State) : (writeTag k g s).exTlbi = s.exTlbi := rfl
@[simp] theorem writeTag_predictions (k : Nat) (g : BitVec 4) (s : State) : (writeTag k g s).predictions = s.predictions := rfl
@[simp] theorem writeTag_eventReg (k : Nat) (g : BitVec 4) (s : State) : (writeTag k g s).eventReg = s.eventReg := rfl
@[simp] theorem writeTag_waiting (k : Nat) (g : BitVec 4) (s : State) : (writeTag k g s).waiting = s.waiting := rfl
@[simp] theorem writeTag_brbTimestamp (k : Nat) (g : BitVec 4) (s : State) : (writeTag k g s).brbTimestamp = s.brbTimestamp := rfl
@[simp] theorem writeTag_intr (k : Nat) (g : BitVec 4) (s : State) : (writeTag k g s).intr = s.intr := rfl
@[simp] theorem writeTag_stale (k : Nat) (g : BitVec 4) (s : State) : (writeTag k g s).stale = s.stale := rfl
@[simp] theorem writeTag_warmReset (k : Nat) (g : BitVec 4) (s : State) : (writeTag k g s).warmReset = s.warmReset := rfl
@[simp] theorem writeTag_resetSeq (k : Nat) (g : BitVec 4) (s : State) : (writeTag k g s).resetSeq = s.resetSeq := rfl
@[simp] theorem writeTag_movprfx (k : Nat) (g : BitVec 4) (s : State) : (writeTag k g s).movprfx = s.movprfx := rfl
@[simp] theorem writeTag_pend (k : Nat) (g : BitVec 4) (s : State) : (writeTag k g s).pend = s.pend := rfl
@[simp] theorem writeTag_pendCtl (k : Nat) (g : BitVec 4) (s : State) : (writeTag k g s).pendCtl = s.pendCtl := rfl
@[simp] theorem writeTag_counted (k : Nat) (g : BitVec 4) (s : State) : (writeTag k g s).counted = s.counted := rfl
@[simp] theorem writeTag_dbg (k : Nat) (g : BitVec 4) (s : State) : (writeTag k g s).dbg = s.dbg := rfl
@[simp] theorem writeTag_a32 (k : Nat) (g : BitVec 4) (s : State) : (writeTag k g s).a32 = s.a32 := rfl
@[simp] theorem writeTag_frames (k : Nat) (g : BitVec 4) (s : State) : (writeTag k g s).frames = s.frames := rfl
@[simp] theorem writeTag_err (k : Nat) (g : BitVec 4) (s : State) : (writeTag k g s).err = s.err := rfl
@[simp] theorem writeTag_profileFault (k : Nat) (g : BitVec 4) (s : State) : (writeTag k g s).profileFault = s.profileFault := rfl
@[simp] theorem writeTag_traceFault (k : Nat) (g : BitVec 4) (s : State) : (writeTag k g s).traceFault = s.traceFault := rfl
@[simp] theorem writeTag_agents (k : Nat) (g : BitVec 4) (s : State) : (writeTag k g s).agents = s.agents := rfl
@[simp] theorem writeTag_count (k : Nat) (g : BitVec 4) (s : State) : (writeTag k g s).count = s.count := rfl
@[simp] theorem writeTag_devLog (k : Nat) (g : BitVec 4) (s : State) : (writeTag k g s).devLog = s.devLog := rfl
@[simp] theorem writeTag_offTop (k : Nat) (g : BitVec 4) (s : State) : (writeTag k g s).offTop = s.offTop := rfl
@[simp] theorem writeTag_free (k : Nat) (g : BitVec 4) (s : State) : (writeTag k g s).free = s.free := rfl

/-! ### writeZ -/

@[simp] theorem writeZ_cfg (n : BitVec 5) (v : VReg) (s : State) : (writeZ n v s).cfg = s.cfg := rfl
@[simp] theorem writeZ_x (n : BitVec 5) (v : VReg) (s : State) : (writeZ n v s).x = s.x := rfl
@[simp] theorem writeZ_sp (n : BitVec 5) (v : VReg) (s : State) : (writeZ n v s).sp = s.sp := rfl
@[simp] theorem writeZ_pc (n : BitVec 5) (v : VReg) (s : State) : (writeZ n v s).pc = s.pc := rfl
@[simp] theorem writeZ_ps (n : BitVec 5) (v : VReg) (s : State) : (writeZ n v s).ps = s.ps := rfl
@[simp] theorem writeZ_sys (n : BitVec 5) (v : VReg) (s : State) : (writeZ n v s).sys = s.sys := rfl
@[simp] theorem writeZ_pmevcntr (n : BitVec 5) (v : VReg) (s : State) : (writeZ n v s).pmevcntr = s.pmevcntr := rfl
@[simp] theorem writeZ_pmevtyper (n : BitVec 5) (v : VReg) (s : State) : (writeZ n v s).pmevtyper = s.pmevtyper := rfl
@[simp] theorem writeZ_brbsrc (n : BitVec 5) (v : VReg) (s : State) : (writeZ n v s).brbsrc = s.brbsrc := rfl
@[simp] theorem writeZ_brbtgt (n : BitVec 5) (v : VReg) (s : State) : (writeZ n v s).brbtgt = s.brbtgt := rfl
@[simp] theorem writeZ_brbinf (n : BitVec 5) (v : VReg) (s : State) : (writeZ n v s).brbinf = s.brbinf := rfl
@[simp] theorem writeZ_brbEntry (n : BitVec 5) (v : VReg) (s : State) : (writeZ n v s).brbEntry = s.brbEntry := rfl
@[simp] theorem writeZ_trcacvr (n : BitVec 5) (v : VReg) (s : State) : (writeZ n v s).trcacvr = s.trcacvr := rfl
@[simp] theorem writeZ_p (n : BitVec 5) (v : VReg) (s : State) : (writeZ n v s).p = s.p := rfl
@[simp] theorem writeZ_ffr (n : BitVec 5) (v : VReg) (s : State) : (writeZ n v s).ffr = s.ffr := rfl
@[simp] theorem writeZ_za (n : BitVec 5) (v : VReg) (s : State) : (writeZ n v s).za = s.za := rfl
@[simp] theorem writeZ_zt0 (n : BitVec 5) (v : VReg) (s : State) : (writeZ n v s).zt0 = s.zt0 := rfl
@[simp] theorem writeZ_mem (n : BitVec 5) (v : VReg) (s : State) : (writeZ n v s).mem = s.mem := rfl
@[simp] theorem writeZ_tags (n : BitVec 5) (v : VReg) (s : State) : (writeZ n v s).tags = s.tags := rfl
@[simp] theorem writeZ_tlb (n : BitVec 5) (v : VReg) (s : State) : (writeZ n v s).tlb = s.tlb := rfl
@[simp] theorem writeZ_gptTlb (n : BitVec 5) (v : VReg) (s : State) : (writeZ n v s).gptTlb = s.gptTlb := rfl
@[simp] theorem writeZ_exLocal (n : BitVec 5) (v : VReg) (s : State) : (writeZ n v s).exLocal = s.exLocal := rfl
@[simp] theorem writeZ_exGlobal (n : BitVec 5) (v : VReg) (s : State) : (writeZ n v s).exGlobal = s.exGlobal := rfl
@[simp] theorem writeZ_exTlbi (n : BitVec 5) (v : VReg) (s : State) : (writeZ n v s).exTlbi = s.exTlbi := rfl
@[simp] theorem writeZ_predictions (n : BitVec 5) (v : VReg) (s : State) : (writeZ n v s).predictions = s.predictions := rfl
@[simp] theorem writeZ_eventReg (n : BitVec 5) (v : VReg) (s : State) : (writeZ n v s).eventReg = s.eventReg := rfl
@[simp] theorem writeZ_waiting (n : BitVec 5) (v : VReg) (s : State) : (writeZ n v s).waiting = s.waiting := rfl
@[simp] theorem writeZ_brbTimestamp (n : BitVec 5) (v : VReg) (s : State) : (writeZ n v s).brbTimestamp = s.brbTimestamp := rfl
@[simp] theorem writeZ_intr (n : BitVec 5) (v : VReg) (s : State) : (writeZ n v s).intr = s.intr := rfl
@[simp] theorem writeZ_stale (n : BitVec 5) (v : VReg) (s : State) : (writeZ n v s).stale = s.stale := rfl
@[simp] theorem writeZ_warmReset (n : BitVec 5) (v : VReg) (s : State) : (writeZ n v s).warmReset = s.warmReset := rfl
@[simp] theorem writeZ_resetSeq (n : BitVec 5) (v : VReg) (s : State) : (writeZ n v s).resetSeq = s.resetSeq := rfl
@[simp] theorem writeZ_movprfx (n : BitVec 5) (v : VReg) (s : State) : (writeZ n v s).movprfx = s.movprfx := rfl
@[simp] theorem writeZ_pend (n : BitVec 5) (v : VReg) (s : State) : (writeZ n v s).pend = s.pend := rfl
@[simp] theorem writeZ_pendCtl (n : BitVec 5) (v : VReg) (s : State) : (writeZ n v s).pendCtl = s.pendCtl := rfl
@[simp] theorem writeZ_counted (n : BitVec 5) (v : VReg) (s : State) : (writeZ n v s).counted = s.counted := rfl
@[simp] theorem writeZ_dbg (n : BitVec 5) (v : VReg) (s : State) : (writeZ n v s).dbg = s.dbg := rfl
@[simp] theorem writeZ_a32 (n : BitVec 5) (v : VReg) (s : State) : (writeZ n v s).a32 = s.a32 := rfl
@[simp] theorem writeZ_frames (n : BitVec 5) (v : VReg) (s : State) : (writeZ n v s).frames = s.frames := rfl
@[simp] theorem writeZ_err (n : BitVec 5) (v : VReg) (s : State) : (writeZ n v s).err = s.err := rfl
@[simp] theorem writeZ_profileFault (n : BitVec 5) (v : VReg) (s : State) : (writeZ n v s).profileFault = s.profileFault := rfl
@[simp] theorem writeZ_traceFault (n : BitVec 5) (v : VReg) (s : State) : (writeZ n v s).traceFault = s.traceFault := rfl
@[simp] theorem writeZ_agents (n : BitVec 5) (v : VReg) (s : State) : (writeZ n v s).agents = s.agents := rfl
@[simp] theorem writeZ_count (n : BitVec 5) (v : VReg) (s : State) : (writeZ n v s).count = s.count := rfl
@[simp] theorem writeZ_devLog (n : BitVec 5) (v : VReg) (s : State) : (writeZ n v s).devLog = s.devLog := rfl
@[simp] theorem writeZ_offTop (n : BitVec 5) (v : VReg) (s : State) : (writeZ n v s).offTop = s.offTop := rfl
@[simp] theorem writeZ_free (n : BitVec 5) (v : VReg) (s : State) : (writeZ n v s).free = s.free := rfl

/-! ### syncContext -/

@[simp] theorem syncContext_cfg (s : State) : (syncContext s).cfg = s.cfg := rfl
@[simp] theorem syncContext_x (s : State) : (syncContext s).x = s.x := rfl
@[simp] theorem syncContext_sp (s : State) : (syncContext s).sp = s.sp := rfl
@[simp] theorem syncContext_pc (s : State) : (syncContext s).pc = s.pc := rfl
@[simp] theorem syncContext_ps (s : State) : (syncContext s).ps = s.ps := rfl
@[simp] theorem syncContext_sys (s : State) : (syncContext s).sys = s.sys := rfl
@[simp] theorem syncContext_pmevcntr (s : State) : (syncContext s).pmevcntr = s.pmevcntr := rfl
@[simp] theorem syncContext_pmevtyper (s : State) : (syncContext s).pmevtyper = s.pmevtyper := rfl
@[simp] theorem syncContext_brbsrc (s : State) : (syncContext s).brbsrc = s.brbsrc := rfl
@[simp] theorem syncContext_brbtgt (s : State) : (syncContext s).brbtgt = s.brbtgt := rfl
@[simp] theorem syncContext_brbinf (s : State) : (syncContext s).brbinf = s.brbinf := rfl
@[simp] theorem syncContext_brbEntry (s : State) : (syncContext s).brbEntry = s.brbEntry := rfl
@[simp] theorem syncContext_trcacvr (s : State) : (syncContext s).trcacvr = s.trcacvr := rfl
@[simp] theorem syncContext_z (s : State) : (syncContext s).z = s.z := rfl
@[simp] theorem syncContext_p (s : State) : (syncContext s).p = s.p := rfl
@[simp] theorem syncContext_ffr (s : State) : (syncContext s).ffr = s.ffr := rfl
@[simp] theorem syncContext_za (s : State) : (syncContext s).za = s.za := rfl
@[simp] theorem syncContext_zt0 (s : State) : (syncContext s).zt0 = s.zt0 := rfl
@[simp] theorem syncContext_mem (s : State) : (syncContext s).mem = s.mem := rfl
@[simp] theorem syncContext_tags (s : State) : (syncContext s).tags = s.tags := rfl
@[simp] theorem syncContext_tlb (s : State) : (syncContext s).tlb = s.tlb := rfl
@[simp] theorem syncContext_gptTlb (s : State) : (syncContext s).gptTlb = s.gptTlb := rfl
@[simp] theorem syncContext_exLocal (s : State) : (syncContext s).exLocal = s.exLocal := rfl
@[simp] theorem syncContext_exGlobal (s : State) : (syncContext s).exGlobal = s.exGlobal := rfl
@[simp] theorem syncContext_exTlbi (s : State) : (syncContext s).exTlbi = s.exTlbi := rfl
@[simp] theorem syncContext_predictions (s : State) : (syncContext s).predictions = s.predictions := rfl
@[simp] theorem syncContext_eventReg (s : State) : (syncContext s).eventReg = s.eventReg := rfl
@[simp] theorem syncContext_waiting (s : State) : (syncContext s).waiting = s.waiting := rfl
@[simp] theorem syncContext_brbTimestamp (s : State) : (syncContext s).brbTimestamp = s.brbTimestamp := rfl
@[simp] theorem syncContext_intr (s : State) : (syncContext s).intr = s.intr := rfl
@[simp] theorem syncContext_resetSeq (s : State) : (syncContext s).resetSeq = s.resetSeq := rfl
@[simp] theorem syncContext_movprfx (s : State) : (syncContext s).movprfx = s.movprfx := rfl
@[simp] theorem syncContext_dbg (s : State) : (syncContext s).dbg = s.dbg := rfl
@[simp] theorem syncContext_a32 (s : State) : (syncContext s).a32 = s.a32 := rfl
@[simp] theorem syncContext_frames (s : State) : (syncContext s).frames = s.frames := rfl
@[simp] theorem syncContext_err (s : State) : (syncContext s).err = s.err := rfl
@[simp] theorem syncContext_profileFault (s : State) : (syncContext s).profileFault = s.profileFault := rfl
@[simp] theorem syncContext_traceFault (s : State) : (syncContext s).traceFault = s.traceFault := rfl
@[simp] theorem syncContext_agents (s : State) : (syncContext s).agents = s.agents := rfl
@[simp] theorem syncContext_count (s : State) : (syncContext s).count = s.count := rfl
@[simp] theorem syncContext_devLog (s : State) : (syncContext s).devLog = s.devLog := rfl
@[simp] theorem syncContext_offTop (s : State) : (syncContext s).offTop = s.offTop := rfl
@[simp] theorem syncContext_free (s : State) : (syncContext s).free = s.free := rfl

/-! ### clearMonitors -/

@[simp] theorem clearMonitors_cfg (b : Bool) (s : State) : (clearMonitors b s).cfg = s.cfg := rfl
@[simp] theorem clearMonitors_x (b : Bool) (s : State) : (clearMonitors b s).x = s.x := rfl
@[simp] theorem clearMonitors_sp (b : Bool) (s : State) : (clearMonitors b s).sp = s.sp := rfl
@[simp] theorem clearMonitors_pc (b : Bool) (s : State) : (clearMonitors b s).pc = s.pc := rfl
@[simp] theorem clearMonitors_ps (b : Bool) (s : State) : (clearMonitors b s).ps = s.ps := rfl
@[simp] theorem clearMonitors_sys (b : Bool) (s : State) : (clearMonitors b s).sys = s.sys := rfl
@[simp] theorem clearMonitors_pmevcntr (b : Bool) (s : State) : (clearMonitors b s).pmevcntr = s.pmevcntr := rfl
@[simp] theorem clearMonitors_pmevtyper (b : Bool) (s : State) : (clearMonitors b s).pmevtyper = s.pmevtyper := rfl
@[simp] theorem clearMonitors_brbsrc (b : Bool) (s : State) : (clearMonitors b s).brbsrc = s.brbsrc := rfl
@[simp] theorem clearMonitors_brbtgt (b : Bool) (s : State) : (clearMonitors b s).brbtgt = s.brbtgt := rfl
@[simp] theorem clearMonitors_brbinf (b : Bool) (s : State) : (clearMonitors b s).brbinf = s.brbinf := rfl
@[simp] theorem clearMonitors_brbEntry (b : Bool) (s : State) : (clearMonitors b s).brbEntry = s.brbEntry := rfl
@[simp] theorem clearMonitors_trcacvr (b : Bool) (s : State) : (clearMonitors b s).trcacvr = s.trcacvr := rfl
@[simp] theorem clearMonitors_z (b : Bool) (s : State) : (clearMonitors b s).z = s.z := rfl
@[simp] theorem clearMonitors_p (b : Bool) (s : State) : (clearMonitors b s).p = s.p := rfl
@[simp] theorem clearMonitors_ffr (b : Bool) (s : State) : (clearMonitors b s).ffr = s.ffr := rfl
@[simp] theorem clearMonitors_za (b : Bool) (s : State) : (clearMonitors b s).za = s.za := rfl
@[simp] theorem clearMonitors_zt0 (b : Bool) (s : State) : (clearMonitors b s).zt0 = s.zt0 := rfl
@[simp] theorem clearMonitors_mem (b : Bool) (s : State) : (clearMonitors b s).mem = s.mem := rfl
@[simp] theorem clearMonitors_tags (b : Bool) (s : State) : (clearMonitors b s).tags = s.tags := rfl
@[simp] theorem clearMonitors_tlb (b : Bool) (s : State) : (clearMonitors b s).tlb = s.tlb := rfl
@[simp] theorem clearMonitors_gptTlb (b : Bool) (s : State) : (clearMonitors b s).gptTlb = s.gptTlb := rfl
@[simp] theorem clearMonitors_exTlbi (b : Bool) (s : State) : (clearMonitors b s).exTlbi = s.exTlbi := rfl
@[simp] theorem clearMonitors_predictions (b : Bool) (s : State) : (clearMonitors b s).predictions = s.predictions := rfl
@[simp] theorem clearMonitors_eventReg (b : Bool) (s : State) : (clearMonitors b s).eventReg = s.eventReg := rfl
@[simp] theorem clearMonitors_waiting (b : Bool) (s : State) : (clearMonitors b s).waiting = s.waiting := rfl
@[simp] theorem clearMonitors_brbTimestamp (b : Bool) (s : State) : (clearMonitors b s).brbTimestamp = s.brbTimestamp := rfl
@[simp] theorem clearMonitors_intr (b : Bool) (s : State) : (clearMonitors b s).intr = s.intr := rfl
@[simp] theorem clearMonitors_stale (b : Bool) (s : State) : (clearMonitors b s).stale = s.stale := rfl
@[simp] theorem clearMonitors_warmReset (b : Bool) (s : State) : (clearMonitors b s).warmReset = s.warmReset := rfl
@[simp] theorem clearMonitors_resetSeq (b : Bool) (s : State) : (clearMonitors b s).resetSeq = s.resetSeq := rfl
@[simp] theorem clearMonitors_movprfx (b : Bool) (s : State) : (clearMonitors b s).movprfx = s.movprfx := rfl
@[simp] theorem clearMonitors_pend (b : Bool) (s : State) : (clearMonitors b s).pend = s.pend := rfl
@[simp] theorem clearMonitors_pendCtl (b : Bool) (s : State) : (clearMonitors b s).pendCtl = s.pendCtl := rfl
@[simp] theorem clearMonitors_counted (b : Bool) (s : State) : (clearMonitors b s).counted = s.counted := rfl
@[simp] theorem clearMonitors_dbg (b : Bool) (s : State) : (clearMonitors b s).dbg = s.dbg := rfl
@[simp] theorem clearMonitors_a32 (b : Bool) (s : State) : (clearMonitors b s).a32 = s.a32 := rfl
@[simp] theorem clearMonitors_frames (b : Bool) (s : State) : (clearMonitors b s).frames = s.frames := rfl
@[simp] theorem clearMonitors_err (b : Bool) (s : State) : (clearMonitors b s).err = s.err := rfl
@[simp] theorem clearMonitors_profileFault (b : Bool) (s : State) : (clearMonitors b s).profileFault = s.profileFault := rfl
@[simp] theorem clearMonitors_traceFault (b : Bool) (s : State) : (clearMonitors b s).traceFault = s.traceFault := rfl
@[simp] theorem clearMonitors_agents (b : Bool) (s : State) : (clearMonitors b s).agents = s.agents := rfl
@[simp] theorem clearMonitors_count (b : Bool) (s : State) : (clearMonitors b s).count = s.count := rfl
@[simp] theorem clearMonitors_devLog (b : Bool) (s : State) : (clearMonitors b s).devLog = s.devLog := rfl
@[simp] theorem clearMonitors_offTop (b : Bool) (s : State) : (clearMonitors b s).offTop = s.offTop := rfl
@[simp] theorem clearMonitors_free (b : Bool) (s : State) : (clearMonitors b s).free = s.free := rfl

/-! ### markExclusive -/

@[simp] theorem markExclusive_cfg (l : Xlat) (s : State) : (markExclusive l s).cfg = s.cfg := rfl
@[simp] theorem markExclusive_x (l : Xlat) (s : State) : (markExclusive l s).x = s.x := rfl
@[simp] theorem markExclusive_sp (l : Xlat) (s : State) : (markExclusive l s).sp = s.sp := rfl
@[simp] theorem markExclusive_pc (l : Xlat) (s : State) : (markExclusive l s).pc = s.pc := rfl
@[simp] theorem markExclusive_ps (l : Xlat) (s : State) : (markExclusive l s).ps = s.ps := rfl
@[simp] theorem markExclusive_sys (l : Xlat) (s : State) : (markExclusive l s).sys = s.sys := rfl
@[simp] theorem markExclusive_pmevcntr (l : Xlat) (s : State) : (markExclusive l s).pmevcntr = s.pmevcntr := rfl
@[simp] theorem markExclusive_pmevtyper (l : Xlat) (s : State) : (markExclusive l s).pmevtyper = s.pmevtyper := rfl
@[simp] theorem markExclusive_brbsrc (l : Xlat) (s : State) : (markExclusive l s).brbsrc = s.brbsrc := rfl
@[simp] theorem markExclusive_brbtgt (l : Xlat) (s : State) : (markExclusive l s).brbtgt = s.brbtgt := rfl
@[simp] theorem markExclusive_brbinf (l : Xlat) (s : State) : (markExclusive l s).brbinf = s.brbinf := rfl
@[simp] theorem markExclusive_brbEntry (l : Xlat) (s : State) : (markExclusive l s).brbEntry = s.brbEntry := rfl
@[simp] theorem markExclusive_trcacvr (l : Xlat) (s : State) : (markExclusive l s).trcacvr = s.trcacvr := rfl
@[simp] theorem markExclusive_z (l : Xlat) (s : State) : (markExclusive l s).z = s.z := rfl
@[simp] theorem markExclusive_p (l : Xlat) (s : State) : (markExclusive l s).p = s.p := rfl
@[simp] theorem markExclusive_ffr (l : Xlat) (s : State) : (markExclusive l s).ffr = s.ffr := rfl
@[simp] theorem markExclusive_za (l : Xlat) (s : State) : (markExclusive l s).za = s.za := rfl
@[simp] theorem markExclusive_zt0 (l : Xlat) (s : State) : (markExclusive l s).zt0 = s.zt0 := rfl
@[simp] theorem markExclusive_mem (l : Xlat) (s : State) : (markExclusive l s).mem = s.mem := rfl
@[simp] theorem markExclusive_tags (l : Xlat) (s : State) : (markExclusive l s).tags = s.tags := rfl
@[simp] theorem markExclusive_tlb (l : Xlat) (s : State) : (markExclusive l s).tlb = s.tlb := rfl
@[simp] theorem markExclusive_gptTlb (l : Xlat) (s : State) : (markExclusive l s).gptTlb = s.gptTlb := rfl
@[simp] theorem markExclusive_predictions (l : Xlat) (s : State) : (markExclusive l s).predictions = s.predictions := rfl
@[simp] theorem markExclusive_eventReg (l : Xlat) (s : State) : (markExclusive l s).eventReg = s.eventReg := rfl
@[simp] theorem markExclusive_waiting (l : Xlat) (s : State) : (markExclusive l s).waiting = s.waiting := rfl
@[simp] theorem markExclusive_brbTimestamp (l : Xlat) (s : State) : (markExclusive l s).brbTimestamp = s.brbTimestamp := rfl
@[simp] theorem markExclusive_intr (l : Xlat) (s : State) : (markExclusive l s).intr = s.intr := rfl
@[simp] theorem markExclusive_stale (l : Xlat) (s : State) : (markExclusive l s).stale = s.stale := rfl
@[simp] theorem markExclusive_warmReset (l : Xlat) (s : State) : (markExclusive l s).warmReset = s.warmReset := rfl
@[simp] theorem markExclusive_resetSeq (l : Xlat) (s : State) : (markExclusive l s).resetSeq = s.resetSeq := rfl
@[simp] theorem markExclusive_movprfx (l : Xlat) (s : State) : (markExclusive l s).movprfx = s.movprfx := rfl
@[simp] theorem markExclusive_pend (l : Xlat) (s : State) : (markExclusive l s).pend = s.pend := rfl
@[simp] theorem markExclusive_pendCtl (l : Xlat) (s : State) : (markExclusive l s).pendCtl = s.pendCtl := rfl
@[simp] theorem markExclusive_counted (l : Xlat) (s : State) : (markExclusive l s).counted = s.counted := rfl
@[simp] theorem markExclusive_dbg (l : Xlat) (s : State) : (markExclusive l s).dbg = s.dbg := rfl
@[simp] theorem markExclusive_a32 (l : Xlat) (s : State) : (markExclusive l s).a32 = s.a32 := rfl
@[simp] theorem markExclusive_frames (l : Xlat) (s : State) : (markExclusive l s).frames = s.frames := rfl
@[simp] theorem markExclusive_err (l : Xlat) (s : State) : (markExclusive l s).err = s.err := rfl
@[simp] theorem markExclusive_profileFault (l : Xlat) (s : State) : (markExclusive l s).profileFault = s.profileFault := rfl
@[simp] theorem markExclusive_traceFault (l : Xlat) (s : State) : (markExclusive l s).traceFault = s.traceFault := rfl
@[simp] theorem markExclusive_agents (l : Xlat) (s : State) : (markExclusive l s).agents = s.agents := rfl
@[simp] theorem markExclusive_count (l : Xlat) (s : State) : (markExclusive l s).count = s.count := rfl
@[simp] theorem markExclusive_devLog (l : Xlat) (s : State) : (markExclusive l s).devLog = s.devLog := rfl
@[simp] theorem markExclusive_offTop (l : Xlat) (s : State) : (markExclusive l s).offTop = s.offTop := rfl
@[simp] theorem markExclusive_free (l : Xlat) (s : State) : (markExclusive l s).free = s.free := rfl

/-! ### tlbInvalidate -/

@[simp] theorem tlbInvalidate_cfg (q : TLBEntry → Bool) (s : State) : (tlbInvalidate q s).cfg = s.cfg := rfl
@[simp] theorem tlbInvalidate_x (q : TLBEntry → Bool) (s : State) : (tlbInvalidate q s).x = s.x := rfl
@[simp] theorem tlbInvalidate_sp (q : TLBEntry → Bool) (s : State) : (tlbInvalidate q s).sp = s.sp := rfl
@[simp] theorem tlbInvalidate_pc (q : TLBEntry → Bool) (s : State) : (tlbInvalidate q s).pc = s.pc := rfl
@[simp] theorem tlbInvalidate_ps (q : TLBEntry → Bool) (s : State) : (tlbInvalidate q s).ps = s.ps := rfl
@[simp] theorem tlbInvalidate_sys (q : TLBEntry → Bool) (s : State) : (tlbInvalidate q s).sys = s.sys := rfl
@[simp] theorem tlbInvalidate_pmevcntr (q : TLBEntry → Bool) (s : State) : (tlbInvalidate q s).pmevcntr = s.pmevcntr := rfl
@[simp] theorem tlbInvalidate_pmevtyper (q : TLBEntry → Bool) (s : State) : (tlbInvalidate q s).pmevtyper = s.pmevtyper := rfl
@[simp] theorem tlbInvalidate_brbsrc (q : TLBEntry → Bool) (s : State) : (tlbInvalidate q s).brbsrc = s.brbsrc := rfl
@[simp] theorem tlbInvalidate_brbtgt (q : TLBEntry → Bool) (s : State) : (tlbInvalidate q s).brbtgt = s.brbtgt := rfl
@[simp] theorem tlbInvalidate_brbinf (q : TLBEntry → Bool) (s : State) : (tlbInvalidate q s).brbinf = s.brbinf := rfl
@[simp] theorem tlbInvalidate_brbEntry (q : TLBEntry → Bool) (s : State) : (tlbInvalidate q s).brbEntry = s.brbEntry := rfl
@[simp] theorem tlbInvalidate_trcacvr (q : TLBEntry → Bool) (s : State) : (tlbInvalidate q s).trcacvr = s.trcacvr := rfl
@[simp] theorem tlbInvalidate_z (q : TLBEntry → Bool) (s : State) : (tlbInvalidate q s).z = s.z := rfl
@[simp] theorem tlbInvalidate_p (q : TLBEntry → Bool) (s : State) : (tlbInvalidate q s).p = s.p := rfl
@[simp] theorem tlbInvalidate_ffr (q : TLBEntry → Bool) (s : State) : (tlbInvalidate q s).ffr = s.ffr := rfl
@[simp] theorem tlbInvalidate_za (q : TLBEntry → Bool) (s : State) : (tlbInvalidate q s).za = s.za := rfl
@[simp] theorem tlbInvalidate_zt0 (q : TLBEntry → Bool) (s : State) : (tlbInvalidate q s).zt0 = s.zt0 := rfl
@[simp] theorem tlbInvalidate_mem (q : TLBEntry → Bool) (s : State) : (tlbInvalidate q s).mem = s.mem := rfl
@[simp] theorem tlbInvalidate_tags (q : TLBEntry → Bool) (s : State) : (tlbInvalidate q s).tags = s.tags := rfl
@[simp] theorem tlbInvalidate_gptTlb (q : TLBEntry → Bool) (s : State) : (tlbInvalidate q s).gptTlb = s.gptTlb := rfl
@[simp] theorem tlbInvalidate_predictions (q : TLBEntry → Bool) (s : State) : (tlbInvalidate q s).predictions = s.predictions := rfl
@[simp] theorem tlbInvalidate_eventReg (q : TLBEntry → Bool) (s : State) : (tlbInvalidate q s).eventReg = s.eventReg := rfl
@[simp] theorem tlbInvalidate_waiting (q : TLBEntry → Bool) (s : State) : (tlbInvalidate q s).waiting = s.waiting := rfl
@[simp] theorem tlbInvalidate_brbTimestamp (q : TLBEntry → Bool) (s : State) : (tlbInvalidate q s).brbTimestamp = s.brbTimestamp := rfl
@[simp] theorem tlbInvalidate_intr (q : TLBEntry → Bool) (s : State) : (tlbInvalidate q s).intr = s.intr := rfl
@[simp] theorem tlbInvalidate_stale (q : TLBEntry → Bool) (s : State) : (tlbInvalidate q s).stale = s.stale := rfl
@[simp] theorem tlbInvalidate_warmReset (q : TLBEntry → Bool) (s : State) : (tlbInvalidate q s).warmReset = s.warmReset := rfl
@[simp] theorem tlbInvalidate_resetSeq (q : TLBEntry → Bool) (s : State) : (tlbInvalidate q s).resetSeq = s.resetSeq := rfl
@[simp] theorem tlbInvalidate_movprfx (q : TLBEntry → Bool) (s : State) : (tlbInvalidate q s).movprfx = s.movprfx := rfl
@[simp] theorem tlbInvalidate_pend (q : TLBEntry → Bool) (s : State) : (tlbInvalidate q s).pend = s.pend := rfl
@[simp] theorem tlbInvalidate_pendCtl (q : TLBEntry → Bool) (s : State) : (tlbInvalidate q s).pendCtl = s.pendCtl := rfl
@[simp] theorem tlbInvalidate_counted (q : TLBEntry → Bool) (s : State) : (tlbInvalidate q s).counted = s.counted := rfl
@[simp] theorem tlbInvalidate_dbg (q : TLBEntry → Bool) (s : State) : (tlbInvalidate q s).dbg = s.dbg := rfl
@[simp] theorem tlbInvalidate_a32 (q : TLBEntry → Bool) (s : State) : (tlbInvalidate q s).a32 = s.a32 := rfl
@[simp] theorem tlbInvalidate_frames (q : TLBEntry → Bool) (s : State) : (tlbInvalidate q s).frames = s.frames := rfl
@[simp] theorem tlbInvalidate_err (q : TLBEntry → Bool) (s : State) : (tlbInvalidate q s).err = s.err := rfl
@[simp] theorem tlbInvalidate_profileFault (q : TLBEntry → Bool) (s : State) : (tlbInvalidate q s).profileFault = s.profileFault := rfl
@[simp] theorem tlbInvalidate_traceFault (q : TLBEntry → Bool) (s : State) : (tlbInvalidate q s).traceFault = s.traceFault := rfl
@[simp] theorem tlbInvalidate_agents (q : TLBEntry → Bool) (s : State) : (tlbInvalidate q s).agents = s.agents := rfl
@[simp] theorem tlbInvalidate_count (q : TLBEntry → Bool) (s : State) : (tlbInvalidate q s).count = s.count := rfl
@[simp] theorem tlbInvalidate_devLog (q : TLBEntry → Bool) (s : State) : (tlbInvalidate q s).devLog = s.devLog := rfl
@[simp] theorem tlbInvalidate_offTop (q : TLBEntry → Bool) (s : State) : (tlbInvalidate q s).offTop = s.offTop := rfl
@[simp] theorem tlbInvalidate_free (q : TLBEntry → Bool) (s : State) : (tlbInvalidate q s).free = s.free := rfl

/-! ### setSpsel -/

@[simp] theorem setSpsel_cfg (b : Bool) (s : State) : (setSpsel b s).cfg = s.cfg := rfl
@[simp] theorem setSpsel_x (b : Bool) (s : State) : (setSpsel b s).x = s.x := rfl
@[simp] theorem setSpsel_sp (b : Bool) (s : State) : (setSpsel b s).sp = s.sp := rfl
@[simp] theorem setSpsel_pc (b : Bool) (s : State) : (setSpsel b s).pc = s.pc := rfl
@[simp] theorem setSpsel_sys (b : Bool) (s : State) : (setSpsel b s).sys = s.sys := rfl
@[simp] theorem setSpsel_pmevcntr (b : Bool) (s : State) : (setSpsel b s).pmevcntr = s.pmevcntr := rfl
@[simp] theorem setSpsel_pmevtyper (b : Bool) (s : State) : (setSpsel b s).pmevtyper = s.pmevtyper := rfl
@[simp] theorem setSpsel_brbsrc (b : Bool) (s : State) : (setSpsel b s).brbsrc = s.brbsrc := rfl
@[simp] theorem setSpsel_brbtgt (b : Bool) (s : State) : (setSpsel b s).brbtgt = s.brbtgt := rfl
@[simp] theorem setSpsel_brbinf (b : Bool) (s : State) : (setSpsel b s).brbinf = s.brbinf := rfl
@[simp] theorem setSpsel_brbEntry (b : Bool) (s : State) : (setSpsel b s).brbEntry = s.brbEntry := rfl
@[simp] theorem setSpsel_trcacvr (b : Bool) (s : State) : (setSpsel b s).trcacvr = s.trcacvr := rfl
@[simp] theorem setSpsel_z (b : Bool) (s : State) : (setSpsel b s).z = s.z := rfl
@[simp] theorem setSpsel_p (b : Bool) (s : State) : (setSpsel b s).p = s.p := rfl
@[simp] theorem setSpsel_ffr (b : Bool) (s : State) : (setSpsel b s).ffr = s.ffr := rfl
@[simp] theorem setSpsel_za (b : Bool) (s : State) : (setSpsel b s).za = s.za := rfl
@[simp] theorem setSpsel_zt0 (b : Bool) (s : State) : (setSpsel b s).zt0 = s.zt0 := rfl
@[simp] theorem setSpsel_mem (b : Bool) (s : State) : (setSpsel b s).mem = s.mem := rfl
@[simp] theorem setSpsel_tags (b : Bool) (s : State) : (setSpsel b s).tags = s.tags := rfl
@[simp] theorem setSpsel_tlb (b : Bool) (s : State) : (setSpsel b s).tlb = s.tlb := rfl
@[simp] theorem setSpsel_gptTlb (b : Bool) (s : State) : (setSpsel b s).gptTlb = s.gptTlb := rfl
@[simp] theorem setSpsel_exLocal (b : Bool) (s : State) : (setSpsel b s).exLocal = s.exLocal := rfl
@[simp] theorem setSpsel_exGlobal (b : Bool) (s : State) : (setSpsel b s).exGlobal = s.exGlobal := rfl
@[simp] theorem setSpsel_exTlbi (b : Bool) (s : State) : (setSpsel b s).exTlbi = s.exTlbi := rfl
@[simp] theorem setSpsel_predictions (b : Bool) (s : State) : (setSpsel b s).predictions = s.predictions := rfl
@[simp] theorem setSpsel_eventReg (b : Bool) (s : State) : (setSpsel b s).eventReg = s.eventReg := rfl
@[simp] theorem setSpsel_waiting (b : Bool) (s : State) : (setSpsel b s).waiting = s.waiting := rfl
@[simp] theorem setSpsel_brbTimestamp (b : Bool) (s : State) : (setSpsel b s).brbTimestamp = s.brbTimestamp := rfl
@[simp] theorem setSpsel_intr (b : Bool) (s : State) : (setSpsel b s).intr = s.intr := rfl
@[simp] theorem setSpsel_stale (b : Bool) (s : State) : (setSpsel b s).stale = s.stale := rfl
@[simp] theorem setSpsel_warmReset (b : Bool) (s : State) : (setSpsel b s).warmReset = s.warmReset := rfl
@[simp] theorem setSpsel_resetSeq (b : Bool) (s : State) : (setSpsel b s).resetSeq = s.resetSeq := rfl
@[simp] theorem setSpsel_movprfx (b : Bool) (s : State) : (setSpsel b s).movprfx = s.movprfx := rfl
@[simp] theorem setSpsel_pend (b : Bool) (s : State) : (setSpsel b s).pend = s.pend := rfl
@[simp] theorem setSpsel_pendCtl (b : Bool) (s : State) : (setSpsel b s).pendCtl = s.pendCtl := rfl
@[simp] theorem setSpsel_counted (b : Bool) (s : State) : (setSpsel b s).counted = s.counted := rfl
@[simp] theorem setSpsel_dbg (b : Bool) (s : State) : (setSpsel b s).dbg = s.dbg := rfl
@[simp] theorem setSpsel_a32 (b : Bool) (s : State) : (setSpsel b s).a32 = s.a32 := rfl
@[simp] theorem setSpsel_frames (b : Bool) (s : State) : (setSpsel b s).frames = s.frames := rfl
@[simp] theorem setSpsel_err (b : Bool) (s : State) : (setSpsel b s).err = s.err := rfl
@[simp] theorem setSpsel_profileFault (b : Bool) (s : State) : (setSpsel b s).profileFault = s.profileFault := rfl
@[simp] theorem setSpsel_traceFault (b : Bool) (s : State) : (setSpsel b s).traceFault = s.traceFault := rfl
@[simp] theorem setSpsel_agents (b : Bool) (s : State) : (setSpsel b s).agents = s.agents := rfl
@[simp] theorem setSpsel_count (b : Bool) (s : State) : (setSpsel b s).count = s.count := rfl
@[simp] theorem setSpsel_devLog (b : Bool) (s : State) : (setSpsel b s).devLog = s.devLog := rfl
@[simp] theorem setSpsel_offTop (b : Bool) (s : State) : (setSpsel b s).offTop = s.offTop := rfl
@[simp] theorem setSpsel_free (b : Bool) (s : State) : (setSpsel b s).free = s.free := rfl

@[simp] theorem setSpsel_ps_n (b : Bool) (s : State) : (setSpsel b s).ps.n = s.ps.n := rfl
@[simp] theorem setSpsel_ps_z (b : Bool) (s : State) : (setSpsel b s).ps.z = s.ps.z := rfl
@[simp] theorem setSpsel_ps_c (b : Bool) (s : State) : (setSpsel b s).ps.c = s.ps.c := rfl
@[simp] theorem setSpsel_ps_v (b : Bool) (s : State) : (setSpsel b s).ps.v = s.ps.v := rfl
@[simp] theorem setSpsel_ps_d (b : Bool) (s : State) : (setSpsel b s).ps.d = s.ps.d := rfl
@[simp] theorem setSpsel_ps_a (b : Bool) (s : State) : (setSpsel b s).ps.a = s.ps.a := rfl
@[simp] theorem setSpsel_ps_i (b : Bool) (s : State) : (setSpsel b s).ps.i = s.ps.i := rfl
@[simp] theorem setSpsel_ps_f (b : Bool) (s : State) : (setSpsel b s).ps.f = s.ps.f := rfl
@[simp] theorem setSpsel_ps_ss (b : Bool) (s : State) : (setSpsel b s).ps.ss = s.ps.ss := rfl
@[simp] theorem setSpsel_ps_il (b : Bool) (s : State) : (setSpsel b s).ps.il = s.ps.il := rfl
@[simp] theorem setSpsel_ps_pan (b : Bool) (s : State) : (setSpsel b s).ps.pan = s.ps.pan := rfl
@[simp] theorem setSpsel_ps_uao (b : Bool) (s : State) : (setSpsel b s).ps.uao = s.ps.uao := rfl
@[simp] theorem setSpsel_ps_ssbs (b : Bool) (s : State) : (setSpsel b s).ps.ssbs = s.ps.ssbs := rfl
@[simp] theorem setSpsel_ps_dit (b : Bool) (s : State) : (setSpsel b s).ps.dit = s.ps.dit := rfl
@[simp] theorem setSpsel_ps_tco (b : Bool) (s : State) : (setSpsel b s).ps.tco = s.ps.tco := rfl
@[simp] theorem setSpsel_ps_allint (b : Bool) (s : State) : (setSpsel b s).ps.allint = s.ps.allint := rfl
@[simp] theorem setSpsel_ps_sm (b : Bool) (s : State) : (setSpsel b s).ps.sm = s.ps.sm := rfl
@[simp] theorem setSpsel_ps_za (b : Bool) (s : State) : (setSpsel b s).ps.za = s.ps.za := rfl
@[simp] theorem setSpsel_ps_pacm (b : Bool) (s : State) : (setSpsel b s).ps.pacm = s.ps.pacm := rfl
@[simp] theorem setSpsel_ps_btype (b : Bool) (s : State) : (setSpsel b s).ps.btype = s.ps.btype := rfl
@[simp] theorem setSpsel_ps_el (b : Bool) (s : State) : (setSpsel b s).ps.el = s.ps.el := rfl
@[simp] theorem setSpsel_ps_nRW (b : Bool) (s : State) : (setSpsel b s).ps.nRW = s.ps.nRW := rfl
@[simp] theorem setSpsel_ps_t (b : Bool) (s : State) : (setSpsel b s).ps.t = s.ps.t := rfl
@[simp] theorem setSpsel_ps_m32 (b : Bool) (s : State) : (setSpsel b s).ps.m32 = s.ps.m32 := rfl

/-! ### setSsbs -/

@[simp] theorem setSsbs_cfg (b : Bool) (s : State) : (setSsbs b s).cfg = s.cfg := rfl
@[simp] theorem setSsbs_x (b : Bool) (s : State) : (setSsbs b s).x = s.x := rfl
@[simp] theorem setSsbs_sp (b : Bool) (s : State) : (setSsbs b s).sp = s.sp := rfl
@[simp] theorem setSsbs_pc (b : Bool) (s : State) : (setSsbs b s).pc = s.pc := rfl
@[simp] theorem setSsbs_sys (b : Bool) (s : State) : (setSsbs b s).sys = s.sys := rfl
@[simp] theorem setSsbs_pmevcntr (b : Bool) (s : State) : (setSsbs b s).pmevcntr = s.pmevcntr := rfl
@[simp] theorem setSsbs_pmevtyper (b : Bool) (s : State) : (setSsbs b s).pmevtyper = s.pmevtyper := rfl
@[simp] theorem setSsbs_brbsrc (b : Bool) (s : State) : (setSsbs b s).brbsrc = s.brbsrc := rfl
@[simp] theorem setSsbs_brbtgt (b : Bool) (s : State) : (setSsbs b s).brbtgt = s.brbtgt := rfl
@[simp] theorem setSsbs_brbinf (b : Bool) (s : State) : (setSsbs b s).brbinf = s.brbinf := rfl
@[simp] theorem setSsbs_brbEntry (b : Bool) (s : State) : (setSsbs b s).brbEntry = s.brbEntry := rfl
@[simp] theorem setSsbs_trcacvr (b : Bool) (s : State) : (setSsbs b s).trcacvr = s.trcacvr := rfl
@[simp] theorem setSsbs_z (b : Bool) (s : State) : (setSsbs b s).z = s.z := rfl
@[simp] theorem setSsbs_p (b : Bool) (s : State) : (setSsbs b s).p = s.p := rfl
@[simp] theorem setSsbs_ffr (b : Bool) (s : State) : (setSsbs b s).ffr = s.ffr := rfl
@[simp] theorem setSsbs_za (b : Bool) (s : State) : (setSsbs b s).za = s.za := rfl
@[simp] theorem setSsbs_zt0 (b : Bool) (s : State) : (setSsbs b s).zt0 = s.zt0 := rfl
@[simp] theorem setSsbs_mem (b : Bool) (s : State) : (setSsbs b s).mem = s.mem := rfl
@[simp] theorem setSsbs_tags (b : Bool) (s : State) : (setSsbs b s).tags = s.tags := rfl
@[simp] theorem setSsbs_tlb (b : Bool) (s : State) : (setSsbs b s).tlb = s.tlb := rfl
@[simp] theorem setSsbs_gptTlb (b : Bool) (s : State) : (setSsbs b s).gptTlb = s.gptTlb := rfl
@[simp] theorem setSsbs_exLocal (b : Bool) (s : State) : (setSsbs b s).exLocal = s.exLocal := rfl
@[simp] theorem setSsbs_exGlobal (b : Bool) (s : State) : (setSsbs b s).exGlobal = s.exGlobal := rfl
@[simp] theorem setSsbs_exTlbi (b : Bool) (s : State) : (setSsbs b s).exTlbi = s.exTlbi := rfl
@[simp] theorem setSsbs_predictions (b : Bool) (s : State) : (setSsbs b s).predictions = s.predictions := rfl
@[simp] theorem setSsbs_eventReg (b : Bool) (s : State) : (setSsbs b s).eventReg = s.eventReg := rfl
@[simp] theorem setSsbs_waiting (b : Bool) (s : State) : (setSsbs b s).waiting = s.waiting := rfl
@[simp] theorem setSsbs_brbTimestamp (b : Bool) (s : State) : (setSsbs b s).brbTimestamp = s.brbTimestamp := rfl
@[simp] theorem setSsbs_intr (b : Bool) (s : State) : (setSsbs b s).intr = s.intr := rfl
@[simp] theorem setSsbs_stale (b : Bool) (s : State) : (setSsbs b s).stale = s.stale := rfl
@[simp] theorem setSsbs_warmReset (b : Bool) (s : State) : (setSsbs b s).warmReset = s.warmReset := rfl
@[simp] theorem setSsbs_resetSeq (b : Bool) (s : State) : (setSsbs b s).resetSeq = s.resetSeq := rfl
@[simp] theorem setSsbs_movprfx (b : Bool) (s : State) : (setSsbs b s).movprfx = s.movprfx := rfl
@[simp] theorem setSsbs_pend (b : Bool) (s : State) : (setSsbs b s).pend = s.pend := rfl
@[simp] theorem setSsbs_pendCtl (b : Bool) (s : State) : (setSsbs b s).pendCtl = s.pendCtl := rfl
@[simp] theorem setSsbs_counted (b : Bool) (s : State) : (setSsbs b s).counted = s.counted := rfl
@[simp] theorem setSsbs_dbg (b : Bool) (s : State) : (setSsbs b s).dbg = s.dbg := rfl
@[simp] theorem setSsbs_a32 (b : Bool) (s : State) : (setSsbs b s).a32 = s.a32 := rfl
@[simp] theorem setSsbs_frames (b : Bool) (s : State) : (setSsbs b s).frames = s.frames := rfl
@[simp] theorem setSsbs_err (b : Bool) (s : State) : (setSsbs b s).err = s.err := rfl
@[simp] theorem setSsbs_profileFault (b : Bool) (s : State) : (setSsbs b s).profileFault = s.profileFault := rfl
@[simp] theorem setSsbs_traceFault (b : Bool) (s : State) : (setSsbs b s).traceFault = s.traceFault := rfl
@[simp] theorem setSsbs_agents (b : Bool) (s : State) : (setSsbs b s).agents = s.agents := rfl
@[simp] theorem setSsbs_count (b : Bool) (s : State) : (setSsbs b s).count = s.count := rfl
@[simp] theorem setSsbs_devLog (b : Bool) (s : State) : (setSsbs b s).devLog = s.devLog := rfl
@[simp] theorem setSsbs_offTop (b : Bool) (s : State) : (setSsbs b s).offTop = s.offTop := rfl
@[simp] theorem setSsbs_free (b : Bool) (s : State) : (setSsbs b s).free = s.free := rfl

@[simp] theorem setSsbs_ps_n (b : Bool) (s : State) : (setSsbs b s).ps.n = s.ps.n := rfl
@[simp] theorem setSsbs_ps_z (b : Bool) (s : State) : (setSsbs b s).ps.z = s.ps.z := rfl
@[simp] theorem setSsbs_ps_c (b : Bool) (s : State) : (setSsbs b s).ps.c = s.ps.c := rfl
@[simp] theorem setSsbs_ps_v (b : Bool) (s : State) : (setSsbs b s).ps.v = s.ps.v := rfl
@[simp] theorem setSsbs_ps_d (b : Bool) (s : State) : (setSsbs b s).ps.d = s.ps.d := rfl
@[simp] theorem setSsbs_ps_a (b : Bool) (s : State) : (setSsbs b s).ps.a = s.ps.a := rfl
@[simp] theorem setSsbs_ps_i (b : Bool) (s : State) : (setSsbs b s).ps.i = s.ps.i := rfl
@[simp] theorem setSsbs_ps_f (b : Bool) (s : State) : (setSsbs b s).ps.f = s.ps.f := rfl
@[simp] theorem setSsbs_ps_ss (b : Bool) (s : State) : (setSsbs b s).ps.ss = s.ps.ss := rfl
@[simp] theorem setSsbs_ps_il (b : Bool) (s : State) : (setSsbs b s).ps.il = s.ps.il := rfl
@[simp] theorem setSsbs_ps_pan (b : Bool) (s : State) : (setSsbs b s).ps.pan = s.ps.pan := rfl
@[simp] theorem setSsbs_ps_uao (b : Bool) (s : State) : (setSsbs b s).ps.uao = s.ps.uao := rfl
@[simp] theorem setSsbs_ps_dit (b : Bool) (s : State) : (setSsbs b s).ps.dit = s.ps.dit := rfl
@[simp] theorem setSsbs_ps_tco (b : Bool) (s : State) : (setSsbs b s).ps.tco = s.ps.tco := rfl
@[simp] theorem setSsbs_ps_allint (b : Bool) (s : State) : (setSsbs b s).ps.allint = s.ps.allint := rfl
@[simp] theorem setSsbs_ps_sm (b : Bool) (s : State) : (setSsbs b s).ps.sm = s.ps.sm := rfl
@[simp] theorem setSsbs_ps_za (b : Bool) (s : State) : (setSsbs b s).ps.za = s.ps.za := rfl
@[simp] theorem setSsbs_ps_pacm (b : Bool) (s : State) : (setSsbs b s).ps.pacm = s.ps.pacm := rfl
@[simp] theorem setSsbs_ps_btype (b : Bool) (s : State) : (setSsbs b s).ps.btype = s.ps.btype := rfl
@[simp] theorem setSsbs_ps_el (b : Bool) (s : State) : (setSsbs b s).ps.el = s.ps.el := rfl
@[simp] theorem setSsbs_ps_spsel (b : Bool) (s : State) : (setSsbs b s).ps.spsel = s.ps.spsel := rfl
@[simp] theorem setSsbs_ps_nRW (b : Bool) (s : State) : (setSsbs b s).ps.nRW = s.ps.nRW := rfl
@[simp] theorem setSsbs_ps_t (b : Bool) (s : State) : (setSsbs b s).ps.t = s.ps.t := rfl
@[simp] theorem setSsbs_ps_m32 (b : Bool) (s : State) : (setSsbs b s).ps.m32 = s.ps.m32 := rfl

/-! ### setDit -/

@[simp] theorem setDit_cfg (b : Bool) (s : State) : (setDit b s).cfg = s.cfg := rfl
@[simp] theorem setDit_x (b : Bool) (s : State) : (setDit b s).x = s.x := rfl
@[simp] theorem setDit_sp (b : Bool) (s : State) : (setDit b s).sp = s.sp := rfl
@[simp] theorem setDit_pc (b : Bool) (s : State) : (setDit b s).pc = s.pc := rfl
@[simp] theorem setDit_sys (b : Bool) (s : State) : (setDit b s).sys = s.sys := rfl
@[simp] theorem setDit_pmevcntr (b : Bool) (s : State) : (setDit b s).pmevcntr = s.pmevcntr := rfl
@[simp] theorem setDit_pmevtyper (b : Bool) (s : State) : (setDit b s).pmevtyper = s.pmevtyper := rfl
@[simp] theorem setDit_brbsrc (b : Bool) (s : State) : (setDit b s).brbsrc = s.brbsrc := rfl
@[simp] theorem setDit_brbtgt (b : Bool) (s : State) : (setDit b s).brbtgt = s.brbtgt := rfl
@[simp] theorem setDit_brbinf (b : Bool) (s : State) : (setDit b s).brbinf = s.brbinf := rfl
@[simp] theorem setDit_brbEntry (b : Bool) (s : State) : (setDit b s).brbEntry = s.brbEntry := rfl
@[simp] theorem setDit_trcacvr (b : Bool) (s : State) : (setDit b s).trcacvr = s.trcacvr := rfl
@[simp] theorem setDit_z (b : Bool) (s : State) : (setDit b s).z = s.z := rfl
@[simp] theorem setDit_p (b : Bool) (s : State) : (setDit b s).p = s.p := rfl
@[simp] theorem setDit_ffr (b : Bool) (s : State) : (setDit b s).ffr = s.ffr := rfl
@[simp] theorem setDit_za (b : Bool) (s : State) : (setDit b s).za = s.za := rfl
@[simp] theorem setDit_zt0 (b : Bool) (s : State) : (setDit b s).zt0 = s.zt0 := rfl
@[simp] theorem setDit_mem (b : Bool) (s : State) : (setDit b s).mem = s.mem := rfl
@[simp] theorem setDit_tags (b : Bool) (s : State) : (setDit b s).tags = s.tags := rfl
@[simp] theorem setDit_tlb (b : Bool) (s : State) : (setDit b s).tlb = s.tlb := rfl
@[simp] theorem setDit_gptTlb (b : Bool) (s : State) : (setDit b s).gptTlb = s.gptTlb := rfl
@[simp] theorem setDit_exLocal (b : Bool) (s : State) : (setDit b s).exLocal = s.exLocal := rfl
@[simp] theorem setDit_exGlobal (b : Bool) (s : State) : (setDit b s).exGlobal = s.exGlobal := rfl
@[simp] theorem setDit_exTlbi (b : Bool) (s : State) : (setDit b s).exTlbi = s.exTlbi := rfl
@[simp] theorem setDit_predictions (b : Bool) (s : State) : (setDit b s).predictions = s.predictions := rfl
@[simp] theorem setDit_eventReg (b : Bool) (s : State) : (setDit b s).eventReg = s.eventReg := rfl
@[simp] theorem setDit_waiting (b : Bool) (s : State) : (setDit b s).waiting = s.waiting := rfl
@[simp] theorem setDit_brbTimestamp (b : Bool) (s : State) : (setDit b s).brbTimestamp = s.brbTimestamp := rfl
@[simp] theorem setDit_intr (b : Bool) (s : State) : (setDit b s).intr = s.intr := rfl
@[simp] theorem setDit_stale (b : Bool) (s : State) : (setDit b s).stale = s.stale := rfl
@[simp] theorem setDit_warmReset (b : Bool) (s : State) : (setDit b s).warmReset = s.warmReset := rfl
@[simp] theorem setDit_resetSeq (b : Bool) (s : State) : (setDit b s).resetSeq = s.resetSeq := rfl
@[simp] theorem setDit_movprfx (b : Bool) (s : State) : (setDit b s).movprfx = s.movprfx := rfl
@[simp] theorem setDit_pend (b : Bool) (s : State) : (setDit b s).pend = s.pend := rfl
@[simp] theorem setDit_pendCtl (b : Bool) (s : State) : (setDit b s).pendCtl = s.pendCtl := rfl
@[simp] theorem setDit_counted (b : Bool) (s : State) : (setDit b s).counted = s.counted := rfl
@[simp] theorem setDit_dbg (b : Bool) (s : State) : (setDit b s).dbg = s.dbg := rfl
@[simp] theorem setDit_a32 (b : Bool) (s : State) : (setDit b s).a32 = s.a32 := rfl
@[simp] theorem setDit_frames (b : Bool) (s : State) : (setDit b s).frames = s.frames := rfl
@[simp] theorem setDit_err (b : Bool) (s : State) : (setDit b s).err = s.err := rfl
@[simp] theorem setDit_profileFault (b : Bool) (s : State) : (setDit b s).profileFault = s.profileFault := rfl
@[simp] theorem setDit_traceFault (b : Bool) (s : State) : (setDit b s).traceFault = s.traceFault := rfl
@[simp] theorem setDit_agents (b : Bool) (s : State) : (setDit b s).agents = s.agents := rfl
@[simp] theorem setDit_count (b : Bool) (s : State) : (setDit b s).count = s.count := rfl
@[simp] theorem setDit_devLog (b : Bool) (s : State) : (setDit b s).devLog = s.devLog := rfl
@[simp] theorem setDit_offTop (b : Bool) (s : State) : (setDit b s).offTop = s.offTop := rfl
@[simp] theorem setDit_free (b : Bool) (s : State) : (setDit b s).free = s.free := rfl

@[simp] theorem setDit_ps_n (b : Bool) (s : State) : (setDit b s).ps.n = s.ps.n := rfl
@[simp] theorem setDit_ps_z (b : Bool) (s : State) : (setDit b s).ps.z = s.ps.z := rfl
@[simp] theorem setDit_ps_c (b : Bool) (s : State) : (setDit b s).ps.c = s.ps.c := rfl
@[simp] theorem setDit_ps_v (b : Bool) (s : State) : (setDit b s).ps.v = s.ps.v := rfl
@[simp] theorem setDit_ps_d (b : Bool) (s : State) : (setDit b s).ps.d = s.ps.d := rfl
@[simp] theorem setDit_ps_a (b : Bool) (s : State) : (setDit b s).ps.a = s.ps.a := rfl
@[simp] theorem setDit_ps_i (b : Bool) (s : State) : (setDit b s).ps.i = s.ps.i := rfl
@[simp] theorem setDit_ps_f (b : Bool) (s : State) : (setDit b s).ps.f = s.ps.f := rfl
@[simp] theorem setDit_ps_ss (b : Bool) (s : State) : (setDit b s).ps.ss = s.ps.ss := rfl
@[simp] theorem setDit_ps_il (b : Bool) (s : State) : (setDit b s).ps.il = s.ps.il := rfl
@[simp] theorem setDit_ps_pan (b : Bool) (s : State) : (setDit b s).ps.pan = s.ps.pan := rfl
@[simp] theorem setDit_ps_uao (b : Bool) (s : State) : (setDit b s).ps.uao = s.ps.uao := rfl
@[simp] theorem setDit_ps_ssbs (b : Bool) (s : State) : (setDit b s).ps.ssbs = s.ps.ssbs := rfl
@[simp] theorem setDit_ps_tco (b : Bool) (s : State) : (setDit b s).ps.tco = s.ps.tco := rfl
@[simp] theorem setDit_ps_allint (b : Bool) (s : State) : (setDit b s).ps.allint = s.ps.allint := rfl
@[simp] theorem setDit_ps_sm (b : Bool) (s : State) : (setDit b s).ps.sm = s.ps.sm := rfl
@[simp] theorem setDit_ps_za (b : Bool) (s : State) : (setDit b s).ps.za = s.ps.za := rfl
@[simp] theorem setDit_ps_pacm (b : Bool) (s : State) : (setDit b s).ps.pacm = s.ps.pacm := rfl
@[simp] theorem setDit_ps_btype (b : Bool) (s : State) : (setDit b s).ps.btype = s.ps.btype := rfl
@[simp] theorem setDit_ps_el (b : Bool) (s : State) : (setDit b s).ps.el = s.ps.el := rfl
@[simp] theorem setDit_ps_spsel (b : Bool) (s : State) : (setDit b s).ps.spsel = s.ps.spsel := rfl
@[simp] theorem setDit_ps_nRW (b : Bool) (s : State) : (setDit b s).ps.nRW = s.ps.nRW := rfl
@[simp] theorem setDit_ps_t (b : Bool) (s : State) : (setDit b s).ps.t = s.ps.t := rfl
@[simp] theorem setDit_ps_m32 (b : Bool) (s : State) : (setDit b s).ps.m32 = s.ps.m32 := rfl

/-! ### setTco -/

@[simp] theorem setTco_cfg (b : Bool) (s : State) : (setTco b s).cfg = s.cfg := rfl
@[simp] theorem setTco_x (b : Bool) (s : State) : (setTco b s).x = s.x := rfl
@[simp] theorem setTco_sp (b : Bool) (s : State) : (setTco b s).sp = s.sp := rfl
@[simp] theorem setTco_pc (b : Bool) (s : State) : (setTco b s).pc = s.pc := rfl
@[simp] theorem setTco_sys (b : Bool) (s : State) : (setTco b s).sys = s.sys := rfl
@[simp] theorem setTco_pmevcntr (b : Bool) (s : State) : (setTco b s).pmevcntr = s.pmevcntr := rfl
@[simp] theorem setTco_pmevtyper (b : Bool) (s : State) : (setTco b s).pmevtyper = s.pmevtyper := rfl
@[simp] theorem setTco_brbsrc (b : Bool) (s : State) : (setTco b s).brbsrc = s.brbsrc := rfl
@[simp] theorem setTco_brbtgt (b : Bool) (s : State) : (setTco b s).brbtgt = s.brbtgt := rfl
@[simp] theorem setTco_brbinf (b : Bool) (s : State) : (setTco b s).brbinf = s.brbinf := rfl
@[simp] theorem setTco_brbEntry (b : Bool) (s : State) : (setTco b s).brbEntry = s.brbEntry := rfl
@[simp] theorem setTco_trcacvr (b : Bool) (s : State) : (setTco b s).trcacvr = s.trcacvr := rfl
@[simp] theorem setTco_z (b : Bool) (s : State) : (setTco b s).z = s.z := rfl
@[simp] theorem setTco_p (b : Bool) (s : State) : (setTco b s).p = s.p := rfl
@[simp] theorem setTco_ffr (b : Bool) (s : State) : (setTco b s).ffr = s.ffr := rfl
@[simp] theorem setTco_za (b : Bool) (s : State) : (setTco b s).za = s.za := rfl
@[simp] theorem setTco_zt0 (b : Bool) (s : State) : (setTco b s).zt0 = s.zt0 := rfl
@[simp] theorem setTco_mem (b : Bool) (s : State) : (setTco b s).mem = s.mem := rfl
@[simp] theorem setTco_tags (b : Bool) (s : State) : (setTco b s).tags = s.tags := rfl
@[simp] theorem setTco_tlb (b : Bool) (s : State) : (setTco b s).tlb = s.tlb := rfl
@[simp] theorem setTco_gptTlb (b : Bool) (s : State) : (setTco b s).gptTlb = s.gptTlb := rfl
@[simp] theorem setTco_exLocal (b : Bool) (s : State) : (setTco b s).exLocal = s.exLocal := rfl
@[simp] theorem setTco_exGlobal (b : Bool) (s : State) : (setTco b s).exGlobal = s.exGlobal := rfl
@[simp] theorem setTco_exTlbi (b : Bool) (s : State) : (setTco b s).exTlbi = s.exTlbi := rfl
@[simp] theorem setTco_predictions (b : Bool) (s : State) : (setTco b s).predictions = s.predictions := rfl
@[simp] theorem setTco_eventReg (b : Bool) (s : State) : (setTco b s).eventReg = s.eventReg := rfl
@[simp] theorem setTco_waiting (b : Bool) (s : State) : (setTco b s).waiting = s.waiting := rfl
@[simp] theorem setTco_brbTimestamp (b : Bool) (s : State) : (setTco b s).brbTimestamp = s.brbTimestamp := rfl
@[simp] theorem setTco_intr (b : Bool) (s : State) : (setTco b s).intr = s.intr := rfl
@[simp] theorem setTco_stale (b : Bool) (s : State) : (setTco b s).stale = s.stale := rfl
@[simp] theorem setTco_warmReset (b : Bool) (s : State) : (setTco b s).warmReset = s.warmReset := rfl
@[simp] theorem setTco_resetSeq (b : Bool) (s : State) : (setTco b s).resetSeq = s.resetSeq := rfl
@[simp] theorem setTco_movprfx (b : Bool) (s : State) : (setTco b s).movprfx = s.movprfx := rfl
@[simp] theorem setTco_pend (b : Bool) (s : State) : (setTco b s).pend = s.pend := rfl
@[simp] theorem setTco_pendCtl (b : Bool) (s : State) : (setTco b s).pendCtl = s.pendCtl := rfl
@[simp] theorem setTco_counted (b : Bool) (s : State) : (setTco b s).counted = s.counted := rfl
@[simp] theorem setTco_dbg (b : Bool) (s : State) : (setTco b s).dbg = s.dbg := rfl
@[simp] theorem setTco_a32 (b : Bool) (s : State) : (setTco b s).a32 = s.a32 := rfl
@[simp] theorem setTco_frames (b : Bool) (s : State) : (setTco b s).frames = s.frames := rfl
@[simp] theorem setTco_err (b : Bool) (s : State) : (setTco b s).err = s.err := rfl
@[simp] theorem setTco_profileFault (b : Bool) (s : State) : (setTco b s).profileFault = s.profileFault := rfl
@[simp] theorem setTco_traceFault (b : Bool) (s : State) : (setTco b s).traceFault = s.traceFault := rfl
@[simp] theorem setTco_agents (b : Bool) (s : State) : (setTco b s).agents = s.agents := rfl
@[simp] theorem setTco_count (b : Bool) (s : State) : (setTco b s).count = s.count := rfl
@[simp] theorem setTco_devLog (b : Bool) (s : State) : (setTco b s).devLog = s.devLog := rfl
@[simp] theorem setTco_offTop (b : Bool) (s : State) : (setTco b s).offTop = s.offTop := rfl
@[simp] theorem setTco_free (b : Bool) (s : State) : (setTco b s).free = s.free := rfl

@[simp] theorem setTco_ps_n (b : Bool) (s : State) : (setTco b s).ps.n = s.ps.n := rfl
@[simp] theorem setTco_ps_z (b : Bool) (s : State) : (setTco b s).ps.z = s.ps.z := rfl
@[simp] theorem setTco_ps_c (b : Bool) (s : State) : (setTco b s).ps.c = s.ps.c := rfl
@[simp] theorem setTco_ps_v (b : Bool) (s : State) : (setTco b s).ps.v = s.ps.v := rfl
@[simp] theorem setTco_ps_d (b : Bool) (s : State) : (setTco b s).ps.d = s.ps.d := rfl
@[simp] theorem setTco_ps_a (b : Bool) (s : State) : (setTco b s).ps.a = s.ps.a := rfl
@[simp] theorem setTco_ps_i (b : Bool) (s : State) : (setTco b s).ps.i = s.ps.i := rfl
@[simp] theorem setTco_ps_f (b : Bool) (s : State) : (setTco b s).ps.f = s.ps.f := rfl
@[simp] theorem setTco_ps_ss (b : Bool) (s : State) : (setTco b s).ps.ss = s.ps.ss := rfl
@[simp] theorem setTco_ps_il (b : Bool) (s : State) : (setTco b s).ps.il = s.ps.il := rfl
@[simp] theorem setTco_ps_pan (b : Bool) (s : State) : (setTco b s).ps.pan = s.ps.pan := rfl
@[simp] theorem setTco_ps_uao (b : Bool) (s : State) : (setTco b s).ps.uao = s.ps.uao := rfl
@[simp] theorem setTco_ps_ssbs (b : Bool) (s : State) : (setTco b s).ps.ssbs = s.ps.ssbs := rfl
@[simp] theorem setTco_ps_dit (b : Bool) (s : State) : (setTco b s).ps.dit = s.ps.dit := rfl
@[simp] theorem setTco_ps_allint (b : Bool) (s : State) : (setTco b s).ps.allint = s.ps.allint := rfl
@[simp] theorem setTco_ps_sm (b : Bool) (s : State) : (setTco b s).ps.sm = s.ps.sm := rfl
@[simp] theorem setTco_ps_za (b : Bool) (s : State) : (setTco b s).ps.za = s.ps.za := rfl
@[simp] theorem setTco_ps_pacm (b : Bool) (s : State) : (setTco b s).ps.pacm = s.ps.pacm := rfl
@[simp] theorem setTco_ps_btype (b : Bool) (s : State) : (setTco b s).ps.btype = s.ps.btype := rfl
@[simp] theorem setTco_ps_el (b : Bool) (s : State) : (setTco b s).ps.el = s.ps.el := rfl
@[simp] theorem setTco_ps_spsel (b : Bool) (s : State) : (setTco b s).ps.spsel = s.ps.spsel := rfl
@[simp] theorem setTco_ps_nRW (b : Bool) (s : State) : (setTco b s).ps.nRW = s.ps.nRW := rfl
@[simp] theorem setTco_ps_t (b : Bool) (s : State) : (setTco b s).ps.t = s.ps.t := rfl
@[simp] theorem setTco_ps_m32 (b : Bool) (s : State) : (setTco b s).ps.m32 = s.ps.m32 := rfl

/-! ### completeAccesses -/

@[simp] theorem completeAccesses_cfg (s : State) : (completeAccesses s).cfg = s.cfg := rfl
@[simp] theorem completeAccesses_x (s : State) : (completeAccesses s).x = s.x := rfl
@[simp] theorem completeAccesses_sp (s : State) : (completeAccesses s).sp = s.sp := rfl
@[simp] theorem completeAccesses_pc (s : State) : (completeAccesses s).pc = s.pc := rfl
@[simp] theorem completeAccesses_ps (s : State) : (completeAccesses s).ps = s.ps := rfl
@[simp] theorem completeAccesses_sys (s : State) : (completeAccesses s).sys = s.sys := rfl
@[simp] theorem completeAccesses_pmevcntr (s : State) : (completeAccesses s).pmevcntr = s.pmevcntr := rfl
@[simp] theorem completeAccesses_pmevtyper (s : State) : (completeAccesses s).pmevtyper = s.pmevtyper := rfl
@[simp] theorem completeAccesses_brbsrc (s : State) : (completeAccesses s).brbsrc = s.brbsrc := rfl
@[simp] theorem completeAccesses_brbtgt (s : State) : (completeAccesses s).brbtgt = s.brbtgt := rfl
@[simp] theorem completeAccesses_brbinf (s : State) : (completeAccesses s).brbinf = s.brbinf := rfl
@[simp] theorem completeAccesses_brbEntry (s : State) : (completeAccesses s).brbEntry = s.brbEntry := rfl
@[simp] theorem completeAccesses_trcacvr (s : State) : (completeAccesses s).trcacvr = s.trcacvr := rfl
@[simp] theorem completeAccesses_z (s : State) : (completeAccesses s).z = s.z := rfl
@[simp] theorem completeAccesses_p (s : State) : (completeAccesses s).p = s.p := rfl
@[simp] theorem completeAccesses_ffr (s : State) : (completeAccesses s).ffr = s.ffr := rfl
@[simp] theorem completeAccesses_za (s : State) : (completeAccesses s).za = s.za := rfl
@[simp] theorem completeAccesses_zt0 (s : State) : (completeAccesses s).zt0 = s.zt0 := rfl
@[simp] theorem completeAccesses_mem (s : State) : (completeAccesses s).mem = s.mem := rfl
@[simp] theorem completeAccesses_tags (s : State) : (completeAccesses s).tags = s.tags := rfl
@[simp] theorem completeAccesses_tlb (s : State) : (completeAccesses s).tlb = s.tlb := rfl
@[simp] theorem completeAccesses_gptTlb (s : State) : (completeAccesses s).gptTlb = s.gptTlb := rfl
@[simp] theorem completeAccesses_exLocal (s : State) : (completeAccesses s).exLocal = s.exLocal := rfl
@[simp] theorem completeAccesses_exGlobal (s : State) : (completeAccesses s).exGlobal = s.exGlobal := rfl
@[simp] theorem completeAccesses_exTlbi (s : State) : (completeAccesses s).exTlbi = s.exTlbi := rfl
@[simp] theorem completeAccesses_predictions (s : State) : (completeAccesses s).predictions = s.predictions := rfl
@[simp] theorem completeAccesses_eventReg (s : State) : (completeAccesses s).eventReg = s.eventReg := rfl
@[simp] theorem completeAccesses_waiting (s : State) : (completeAccesses s).waiting = s.waiting := rfl
@[simp] theorem completeAccesses_brbTimestamp (s : State) : (completeAccesses s).brbTimestamp = s.brbTimestamp := rfl
@[simp] theorem completeAccesses_intr (s : State) : (completeAccesses s).intr = s.intr := rfl
@[simp] theorem completeAccesses_warmReset (s : State) : (completeAccesses s).warmReset = s.warmReset := rfl
@[simp] theorem completeAccesses_resetSeq (s : State) : (completeAccesses s).resetSeq = s.resetSeq := rfl
@[simp] theorem completeAccesses_movprfx (s : State) : (completeAccesses s).movprfx = s.movprfx := rfl
@[simp] theorem completeAccesses_pend (s : State) : (completeAccesses s).pend = s.pend := rfl
@[simp] theorem completeAccesses_pendCtl (s : State) : (completeAccesses s).pendCtl = s.pendCtl := rfl
@[simp] theorem completeAccesses_counted (s : State) : (completeAccesses s).counted = s.counted := rfl
@[simp] theorem completeAccesses_dbg (s : State) : (completeAccesses s).dbg = s.dbg := rfl
@[simp] theorem completeAccesses_a32 (s : State) : (completeAccesses s).a32 = s.a32 := rfl
@[simp] theorem completeAccesses_frames (s : State) : (completeAccesses s).frames = s.frames := rfl
@[simp] theorem completeAccesses_err (s : State) : (completeAccesses s).err = s.err := rfl
@[simp] theorem completeAccesses_profileFault (s : State) : (completeAccesses s).profileFault = s.profileFault := rfl
@[simp] theorem completeAccesses_traceFault (s : State) : (completeAccesses s).traceFault = s.traceFault := rfl
@[simp] theorem completeAccesses_agents (s : State) : (completeAccesses s).agents = s.agents := rfl
@[simp] theorem completeAccesses_count (s : State) : (completeAccesses s).count = s.count := rfl
@[simp] theorem completeAccesses_devLog (s : State) : (completeAccesses s).devLog = s.devLog := rfl
@[simp] theorem completeAccesses_offTop (s : State) : (completeAccesses s).offTop = s.offTop := rfl
@[simp] theorem completeAccesses_free (s : State) : (completeAccesses s).free = s.free := rfl

/-! ### dataSync -/

@[simp] theorem dataSync_cfg (s : State) : (dataSync s).cfg = s.cfg := rfl
@[simp] theorem dataSync_x (s : State) : (dataSync s).x = s.x := rfl
@[simp] theorem dataSync_sp (s : State) : (dataSync s).sp = s.sp := rfl
@[simp] theorem dataSync_pc (s : State) : (dataSync s).pc = s.pc := rfl
@[simp] theorem dataSync_ps (s : State) : (dataSync s).ps = s.ps := rfl
@[simp] theorem dataSync_sys (s : State) : (dataSync s).sys = s.sys := rfl
@[simp] theorem dataSync_pmevcntr (s : State) : (dataSync s).pmevcntr = s.pmevcntr := rfl
@[simp] theorem dataSync_pmevtyper (s : State) : (dataSync s).pmevtyper = s.pmevtyper := rfl
@[simp] theorem dataSync_brbsrc (s : State) : (dataSync s).brbsrc = s.brbsrc := rfl
@[simp] theorem dataSync_brbtgt (s : State) : (dataSync s).brbtgt = s.brbtgt := rfl
@[simp] theorem dataSync_brbinf (s : State) : (dataSync s).brbinf = s.brbinf := rfl
@[simp] theorem dataSync_brbEntry (s : State) : (dataSync s).brbEntry = s.brbEntry := rfl
@[simp] theorem dataSync_trcacvr (s : State) : (dataSync s).trcacvr = s.trcacvr := rfl
@[simp] theorem dataSync_z (s : State) : (dataSync s).z = s.z := rfl
@[simp] theorem dataSync_p (s : State) : (dataSync s).p = s.p := rfl
@[simp] theorem dataSync_ffr (s : State) : (dataSync s).ffr = s.ffr := rfl
@[simp] theorem dataSync_za (s : State) : (dataSync s).za = s.za := rfl
@[simp] theorem dataSync_zt0 (s : State) : (dataSync s).zt0 = s.zt0 := rfl
@[simp] theorem dataSync_mem (s : State) : (dataSync s).mem = s.mem := rfl
@[simp] theorem dataSync_tags (s : State) : (dataSync s).tags = s.tags := rfl
@[simp] theorem dataSync_tlb (s : State) : (dataSync s).tlb = s.tlb := rfl
@[simp] theorem dataSync_gptTlb (s : State) : (dataSync s).gptTlb = s.gptTlb := rfl
@[simp] theorem dataSync_exLocal (s : State) : (dataSync s).exLocal = s.exLocal := rfl
@[simp] theorem dataSync_exGlobal (s : State) : (dataSync s).exGlobal = s.exGlobal := rfl
@[simp] theorem dataSync_exTlbi (s : State) : (dataSync s).exTlbi = s.exTlbi := rfl
@[simp] theorem dataSync_predictions (s : State) : (dataSync s).predictions = s.predictions := rfl
@[simp] theorem dataSync_eventReg (s : State) : (dataSync s).eventReg = s.eventReg := rfl
@[simp] theorem dataSync_waiting (s : State) : (dataSync s).waiting = s.waiting := rfl
@[simp] theorem dataSync_brbTimestamp (s : State) : (dataSync s).brbTimestamp = s.brbTimestamp := rfl
@[simp] theorem dataSync_intr (s : State) : (dataSync s).intr = s.intr := rfl
@[simp] theorem dataSync_warmReset (s : State) : (dataSync s).warmReset = s.warmReset := rfl
@[simp] theorem dataSync_movprfx (s : State) : (dataSync s).movprfx = s.movprfx := rfl
@[simp] theorem dataSync_pend (s : State) : (dataSync s).pend = s.pend := rfl
@[simp] theorem dataSync_pendCtl (s : State) : (dataSync s).pendCtl = s.pendCtl := rfl
@[simp] theorem dataSync_counted (s : State) : (dataSync s).counted = s.counted := rfl
@[simp] theorem dataSync_dbg (s : State) : (dataSync s).dbg = s.dbg := rfl
@[simp] theorem dataSync_a32 (s : State) : (dataSync s).a32 = s.a32 := rfl
@[simp] theorem dataSync_frames (s : State) : (dataSync s).frames = s.frames := rfl
@[simp] theorem dataSync_err (s : State) : (dataSync s).err = s.err := rfl
@[simp] theorem dataSync_profileFault (s : State) : (dataSync s).profileFault = s.profileFault := rfl
@[simp] theorem dataSync_traceFault (s : State) : (dataSync s).traceFault = s.traceFault := rfl
@[simp] theorem dataSync_agents (s : State) : (dataSync s).agents = s.agents := rfl
@[simp] theorem dataSync_count (s : State) : (dataSync s).count = s.count := rfl
@[simp] theorem dataSync_devLog (s : State) : (dataSync s).devLog = s.devLog := rfl
@[simp] theorem dataSync_offTop (s : State) : (dataSync s).offTop = s.offTop := rfl
@[simp] theorem dataSync_free (s : State) : (dataSync s).free = s.free := rfl

/-! ### setEdscr -/

@[simp] theorem setEdscr_cfg (v : Half) (s : State) : (setEdscr v s).cfg = s.cfg := rfl
@[simp] theorem setEdscr_x (v : Half) (s : State) : (setEdscr v s).x = s.x := rfl
@[simp] theorem setEdscr_sp (v : Half) (s : State) : (setEdscr v s).sp = s.sp := rfl
@[simp] theorem setEdscr_pc (v : Half) (s : State) : (setEdscr v s).pc = s.pc := rfl
@[simp] theorem setEdscr_ps (v : Half) (s : State) : (setEdscr v s).ps = s.ps := rfl
@[simp] theorem setEdscr_sys (v : Half) (s : State) : (setEdscr v s).sys = s.sys := rfl
@[simp] theorem setEdscr_pmevcntr (v : Half) (s : State) : (setEdscr v s).pmevcntr = s.pmevcntr := rfl
@[simp] theorem setEdscr_pmevtyper (v : Half) (s : State) : (setEdscr v s).pmevtyper = s.pmevtyper := rfl
@[simp] theorem setEdscr_brbsrc (v : Half) (s : State) : (setEdscr v s).brbsrc = s.brbsrc := rfl
@[simp] theorem setEdscr_brbtgt (v : Half) (s : State) : (setEdscr v s).brbtgt = s.brbtgt := rfl
@[simp] theorem setEdscr_brbinf (v : Half) (s : State) : (setEdscr v s).brbinf = s.brbinf := rfl
@[simp] theorem setEdscr_brbEntry (v : Half) (s : State) : (setEdscr v s).brbEntry = s.brbEntry := rfl
@[simp] theorem setEdscr_trcacvr (v : Half) (s : State) : (setEdscr v s).trcacvr = s.trcacvr := rfl
@[simp] theorem setEdscr_z (v : Half) (s : State) : (setEdscr v s).z = s.z := rfl
@[simp] theorem setEdscr_p (v : Half) (s : State) : (setEdscr v s).p = s.p := rfl
@[simp] theorem setEdscr_ffr (v : Half) (s : State) : (setEdscr v s).ffr = s.ffr := rfl
@[simp] theorem setEdscr_za (v : Half) (s : State) : (setEdscr v s).za = s.za := rfl
@[simp] theorem setEdscr_zt0 (v : Half) (s : State) : (setEdscr v s).zt0 = s.zt0 := rfl
@[simp] theorem setEdscr_mem (v : Half) (s : State) : (setEdscr v s).mem = s.mem := rfl
@[simp] theorem setEdscr_tags (v : Half) (s : State) : (setEdscr v s).tags = s.tags := rfl
@[simp] theorem setEdscr_tlb (v : Half) (s : State) : (setEdscr v s).tlb = s.tlb := rfl
@[simp] theorem setEdscr_gptTlb (v : Half) (s : State) : (setEdscr v s).gptTlb = s.gptTlb := rfl
@[simp] theorem setEdscr_exLocal (v : Half) (s : State) : (setEdscr v s).exLocal = s.exLocal := rfl
@[simp] theorem setEdscr_exGlobal (v : Half) (s : State) : (setEdscr v s).exGlobal = s.exGlobal := rfl
@[simp] theorem setEdscr_exTlbi (v : Half) (s : State) : (setEdscr v s).exTlbi = s.exTlbi := rfl
@[simp] theorem setEdscr_predictions (v : Half) (s : State) : (setEdscr v s).predictions = s.predictions := rfl
@[simp] theorem setEdscr_eventReg (v : Half) (s : State) : (setEdscr v s).eventReg = s.eventReg := rfl
@[simp] theorem setEdscr_waiting (v : Half) (s : State) : (setEdscr v s).waiting = s.waiting := rfl
@[simp] theorem setEdscr_brbTimestamp (v : Half) (s : State) : (setEdscr v s).brbTimestamp = s.brbTimestamp := rfl
@[simp] theorem setEdscr_intr (v : Half) (s : State) : (setEdscr v s).intr = s.intr := rfl
@[simp] theorem setEdscr_stale (v : Half) (s : State) : (setEdscr v s).stale = s.stale := rfl
@[simp] theorem setEdscr_warmReset (v : Half) (s : State) : (setEdscr v s).warmReset = s.warmReset := rfl
@[simp] theorem setEdscr_resetSeq (v : Half) (s : State) : (setEdscr v s).resetSeq = s.resetSeq := rfl
@[simp] theorem setEdscr_movprfx (v : Half) (s : State) : (setEdscr v s).movprfx = s.movprfx := rfl
@[simp] theorem setEdscr_pend (v : Half) (s : State) : (setEdscr v s).pend = s.pend := rfl
@[simp] theorem setEdscr_pendCtl (v : Half) (s : State) : (setEdscr v s).pendCtl = s.pendCtl := rfl
@[simp] theorem setEdscr_counted (v : Half) (s : State) : (setEdscr v s).counted = s.counted := rfl
@[simp] theorem setEdscr_a32 (v : Half) (s : State) : (setEdscr v s).a32 = s.a32 := rfl
@[simp] theorem setEdscr_frames (v : Half) (s : State) : (setEdscr v s).frames = s.frames := rfl
@[simp] theorem setEdscr_err (v : Half) (s : State) : (setEdscr v s).err = s.err := rfl
@[simp] theorem setEdscr_profileFault (v : Half) (s : State) : (setEdscr v s).profileFault = s.profileFault := rfl
@[simp] theorem setEdscr_traceFault (v : Half) (s : State) : (setEdscr v s).traceFault = s.traceFault := rfl
@[simp] theorem setEdscr_agents (v : Half) (s : State) : (setEdscr v s).agents = s.agents := rfl
@[simp] theorem setEdscr_count (v : Half) (s : State) : (setEdscr v s).count = s.count := rfl
@[simp] theorem setEdscr_devLog (v : Half) (s : State) : (setEdscr v s).devLog = s.devLog := rfl
@[simp] theorem setEdscr_offTop (v : Half) (s : State) : (setEdscr v s).offTop = s.offTop := rfl
@[simp] theorem setEdscr_free (v : Half) (s : State) : (setEdscr v s).free = s.free := rfl

/-! ### setEdprsr -/

@[simp] theorem setEdprsr_cfg (v : Half) (s : State) : (setEdprsr v s).cfg = s.cfg := rfl
@[simp] theorem setEdprsr_x (v : Half) (s : State) : (setEdprsr v s).x = s.x := rfl
@[simp] theorem setEdprsr_sp (v : Half) (s : State) : (setEdprsr v s).sp = s.sp := rfl
@[simp] theorem setEdprsr_pc (v : Half) (s : State) : (setEdprsr v s).pc = s.pc := rfl
@[simp] theorem setEdprsr_ps (v : Half) (s : State) : (setEdprsr v s).ps = s.ps := rfl
@[simp] theorem setEdprsr_sys (v : Half) (s : State) : (setEdprsr v s).sys = s.sys := rfl
@[simp] theorem setEdprsr_pmevcntr (v : Half) (s : State) : (setEdprsr v s).pmevcntr = s.pmevcntr := rfl
@[simp] theorem setEdprsr_pmevtyper (v : Half) (s : State) : (setEdprsr v s).pmevtyper = s.pmevtyper := rfl
@[simp] theorem setEdprsr_brbsrc (v : Half) (s : State) : (setEdprsr v s).brbsrc = s.brbsrc := rfl
@[simp] theorem setEdprsr_brbtgt (v : Half) (s : State) : (setEdprsr v s).brbtgt = s.brbtgt := rfl
@[simp] theorem setEdprsr_brbinf (v : Half) (s : State) : (setEdprsr v s).brbinf = s.brbinf := rfl
@[simp] theorem setEdprsr_brbEntry (v : Half) (s : State) : (setEdprsr v s).brbEntry = s.brbEntry := rfl
@[simp] theorem setEdprsr_trcacvr (v : Half) (s : State) : (setEdprsr v s).trcacvr = s.trcacvr := rfl
@[simp] theorem setEdprsr_z (v : Half) (s : State) : (setEdprsr v s).z = s.z := rfl
@[simp] theorem setEdprsr_p (v : Half) (s : State) : (setEdprsr v s).p = s.p := rfl
@[simp] theorem setEdprsr_ffr (v : Half) (s : State) : (setEdprsr v s).ffr = s.ffr := rfl
@[simp] theorem setEdprsr_za (v : Half) (s : State) : (setEdprsr v s).za = s.za := rfl
@[simp] theorem setEdprsr_zt0 (v : Half) (s : State) : (setEdprsr v s).zt0 = s.zt0 := rfl
@[simp] theorem setEdprsr_mem (v : Half) (s : State) : (setEdprsr v s).mem = s.mem := rfl
@[simp] theorem setEdprsr_tags (v : Half) (s : State) : (setEdprsr v s).tags = s.tags := rfl
@[simp] theorem setEdprsr_tlb (v : Half) (s : State) : (setEdprsr v s).tlb = s.tlb := rfl
@[simp] theorem setEdprsr_gptTlb (v : Half) (s : State) : (setEdprsr v s).gptTlb = s.gptTlb := rfl
@[simp] theorem setEdprsr_exLocal (v : Half) (s : State) : (setEdprsr v s).exLocal = s.exLocal := rfl
@[simp] theorem setEdprsr_exGlobal (v : Half) (s : State) : (setEdprsr v s).exGlobal = s.exGlobal := rfl
@[simp] theorem setEdprsr_exTlbi (v : Half) (s : State) : (setEdprsr v s).exTlbi = s.exTlbi := rfl
@[simp] theorem setEdprsr_predictions (v : Half) (s : State) : (setEdprsr v s).predictions = s.predictions := rfl
@[simp] theorem setEdprsr_eventReg (v : Half) (s : State) : (setEdprsr v s).eventReg = s.eventReg := rfl
@[simp] theorem setEdprsr_waiting (v : Half) (s : State) : (setEdprsr v s).waiting = s.waiting := rfl
@[simp] theorem setEdprsr_brbTimestamp (v : Half) (s : State) : (setEdprsr v s).brbTimestamp = s.brbTimestamp := rfl
@[simp] theorem setEdprsr_intr (v : Half) (s : State) : (setEdprsr v s).intr = s.intr := rfl
@[simp] theorem setEdprsr_stale (v : Half) (s : State) : (setEdprsr v s).stale = s.stale := rfl
@[simp] theorem setEdprsr_warmReset (v : Half) (s : State) : (setEdprsr v s).warmReset = s.warmReset := rfl
@[simp] theorem setEdprsr_resetSeq (v : Half) (s : State) : (setEdprsr v s).resetSeq = s.resetSeq := rfl
@[simp] theorem setEdprsr_movprfx (v : Half) (s : State) : (setEdprsr v s).movprfx = s.movprfx := rfl
@[simp] theorem setEdprsr_pend (v : Half) (s : State) : (setEdprsr v s).pend = s.pend := rfl
@[simp] theorem setEdprsr_pendCtl (v : Half) (s : State) : (setEdprsr v s).pendCtl = s.pendCtl := rfl
@[simp] theorem setEdprsr_counted (v : Half) (s : State) : (setEdprsr v s).counted = s.counted := rfl
@[simp] theorem setEdprsr_a32 (v : Half) (s : State) : (setEdprsr v s).a32 = s.a32 := rfl
@[simp] theorem setEdprsr_frames (v : Half) (s : State) : (setEdprsr v s).frames = s.frames := rfl
@[simp] theorem setEdprsr_err (v : Half) (s : State) : (setEdprsr v s).err = s.err := rfl
@[simp] theorem setEdprsr_profileFault (v : Half) (s : State) : (setEdprsr v s).profileFault = s.profileFault := rfl
@[simp] theorem setEdprsr_traceFault (v : Half) (s : State) : (setEdprsr v s).traceFault = s.traceFault := rfl
@[simp] theorem setEdprsr_agents (v : Half) (s : State) : (setEdprsr v s).agents = s.agents := rfl
@[simp] theorem setEdprsr_count (v : Half) (s : State) : (setEdprsr v s).count = s.count := rfl
@[simp] theorem setEdprsr_devLog (v : Half) (s : State) : (setEdprsr v s).devLog = s.devLog := rfl
@[simp] theorem setEdprsr_offTop (v : Half) (s : State) : (setEdprsr v s).offTop = s.offTop := rfl
@[simp] theorem setEdprsr_free (v : Half) (s : State) : (setEdprsr v s).free = s.free := rfl

/-! ### setFrames -/

@[simp] theorem setFrames_cfg (f : TimerFrames) (s : State) : (setFrames f s).cfg = s.cfg := rfl
@[simp] theorem setFrames_x (f : TimerFrames) (s : State) : (setFrames f s).x = s.x := rfl
@[simp] theorem setFrames_sp (f : TimerFrames) (s : State) : (setFrames f s).sp = s.sp := rfl
@[simp] theorem setFrames_pc (f : TimerFrames) (s : State) : (setFrames f s).pc = s.pc := rfl
@[simp] theorem setFrames_ps (f : TimerFrames) (s : State) : (setFrames f s).ps = s.ps := rfl
@[simp] theorem setFrames_sys (f : TimerFrames) (s : State) : (setFrames f s).sys = s.sys := rfl
@[simp] theorem setFrames_pmevcntr (f : TimerFrames) (s : State) : (setFrames f s).pmevcntr = s.pmevcntr := rfl
@[simp] theorem setFrames_pmevtyper (f : TimerFrames) (s : State) : (setFrames f s).pmevtyper = s.pmevtyper := rfl
@[simp] theorem setFrames_brbsrc (f : TimerFrames) (s : State) : (setFrames f s).brbsrc = s.brbsrc := rfl
@[simp] theorem setFrames_brbtgt (f : TimerFrames) (s : State) : (setFrames f s).brbtgt = s.brbtgt := rfl
@[simp] theorem setFrames_brbinf (f : TimerFrames) (s : State) : (setFrames f s).brbinf = s.brbinf := rfl
@[simp] theorem setFrames_brbEntry (f : TimerFrames) (s : State) : (setFrames f s).brbEntry = s.brbEntry := rfl
@[simp] theorem setFrames_trcacvr (f : TimerFrames) (s : State) : (setFrames f s).trcacvr = s.trcacvr := rfl
@[simp] theorem setFrames_z (f : TimerFrames) (s : State) : (setFrames f s).z = s.z := rfl
@[simp] theorem setFrames_p (f : TimerFrames) (s : State) : (setFrames f s).p = s.p := rfl
@[simp] theorem setFrames_ffr (f : TimerFrames) (s : State) : (setFrames f s).ffr = s.ffr := rfl
@[simp] theorem setFrames_za (f : TimerFrames) (s : State) : (setFrames f s).za = s.za := rfl
@[simp] theorem setFrames_zt0 (f : TimerFrames) (s : State) : (setFrames f s).zt0 = s.zt0 := rfl
@[simp] theorem setFrames_mem (f : TimerFrames) (s : State) : (setFrames f s).mem = s.mem := rfl
@[simp] theorem setFrames_tags (f : TimerFrames) (s : State) : (setFrames f s).tags = s.tags := rfl
@[simp] theorem setFrames_tlb (f : TimerFrames) (s : State) : (setFrames f s).tlb = s.tlb := rfl
@[simp] theorem setFrames_gptTlb (f : TimerFrames) (s : State) : (setFrames f s).gptTlb = s.gptTlb := rfl
@[simp] theorem setFrames_exLocal (f : TimerFrames) (s : State) : (setFrames f s).exLocal = s.exLocal := rfl
@[simp] theorem setFrames_exGlobal (f : TimerFrames) (s : State) : (setFrames f s).exGlobal = s.exGlobal := rfl
@[simp] theorem setFrames_exTlbi (f : TimerFrames) (s : State) : (setFrames f s).exTlbi = s.exTlbi := rfl
@[simp] theorem setFrames_predictions (f : TimerFrames) (s : State) : (setFrames f s).predictions = s.predictions := rfl
@[simp] theorem setFrames_eventReg (f : TimerFrames) (s : State) : (setFrames f s).eventReg = s.eventReg := rfl
@[simp] theorem setFrames_waiting (f : TimerFrames) (s : State) : (setFrames f s).waiting = s.waiting := rfl
@[simp] theorem setFrames_brbTimestamp (f : TimerFrames) (s : State) : (setFrames f s).brbTimestamp = s.brbTimestamp := rfl
@[simp] theorem setFrames_intr (f : TimerFrames) (s : State) : (setFrames f s).intr = s.intr := rfl
@[simp] theorem setFrames_stale (f : TimerFrames) (s : State) : (setFrames f s).stale = s.stale := rfl
@[simp] theorem setFrames_warmReset (f : TimerFrames) (s : State) : (setFrames f s).warmReset = s.warmReset := rfl
@[simp] theorem setFrames_resetSeq (f : TimerFrames) (s : State) : (setFrames f s).resetSeq = s.resetSeq := rfl
@[simp] theorem setFrames_movprfx (f : TimerFrames) (s : State) : (setFrames f s).movprfx = s.movprfx := rfl
@[simp] theorem setFrames_pend (f : TimerFrames) (s : State) : (setFrames f s).pend = s.pend := rfl
@[simp] theorem setFrames_pendCtl (f : TimerFrames) (s : State) : (setFrames f s).pendCtl = s.pendCtl := rfl
@[simp] theorem setFrames_counted (f : TimerFrames) (s : State) : (setFrames f s).counted = s.counted := rfl
@[simp] theorem setFrames_dbg (f : TimerFrames) (s : State) : (setFrames f s).dbg = s.dbg := rfl
@[simp] theorem setFrames_a32 (f : TimerFrames) (s : State) : (setFrames f s).a32 = s.a32 := rfl
@[simp] theorem setFrames_err (f : TimerFrames) (s : State) : (setFrames f s).err = s.err := rfl
@[simp] theorem setFrames_profileFault (f : TimerFrames) (s : State) : (setFrames f s).profileFault = s.profileFault := rfl
@[simp] theorem setFrames_traceFault (f : TimerFrames) (s : State) : (setFrames f s).traceFault = s.traceFault := rfl
@[simp] theorem setFrames_agents (f : TimerFrames) (s : State) : (setFrames f s).agents = s.agents := rfl
@[simp] theorem setFrames_count (f : TimerFrames) (s : State) : (setFrames f s).count = s.count := rfl
@[simp] theorem setFrames_devLog (f : TimerFrames) (s : State) : (setFrames f s).devLog = s.devLog := rfl
@[simp] theorem setFrames_offTop (f : TimerFrames) (s : State) : (setFrames f s).offTop = s.offTop := rfl
@[simp] theorem setFrames_free (f : TimerFrames) (s : State) : (setFrames f s).free = s.free := rfl

/-! ### What the updates write -/

@[simp] theorem advance_ps_btype (s : State) : (advance s).ps.btype = 0 := by unfold advance; split; rfl; split <;> rfl
@[simp] theorem branchTo_pc (a : Word) (b : BitVec 2) (s : State) : (branchTo a b s).pc = a := rfl
@[simp] theorem branchTo_ps_btype (a : Word) (b : BitVec 2) (s : State) : (branchTo a b s).ps.btype = b := rfl
@[simp] theorem setFlags_ps_n (f : NZCV) (s : State) : (setFlags f s).ps.n = f.n := rfl
@[simp] theorem setFlags_ps_z (f : NZCV) (s : State) : (setFlags f s).ps.z = f.z := rfl
@[simp] theorem setFlags_ps_c (f : NZCV) (s : State) : (setFlags f s).ps.c = f.c := rfl
@[simp] theorem setFlags_ps_v (f : NZCV) (s : State) : (setFlags f s).ps.v = f.v := rfl
@[simp] theorem syncContext_pend (s : State) : (syncContext s).pend = [] := rfl
@[simp] theorem syncContext_pendCtl (s : State) : (syncContext s).pendCtl = [] := rfl
@[simp] theorem clearMonitors_exLocal (b : Bool) (s : State) : (clearMonitors b s).exLocal = none := rfl

end Sys2Proof.Laws
end

