-- ==== Sys2Proof/Laws/Memory.lean ====
section
/-! SUPPORT. Memory and tags: reading after writing, and the canonical form that every operation keeps. -/

namespace Sys2Proof.Laws

open Sys2Proof.Machine

/-! ### Sparse storage -/

variable {α : Type} [DecidableEq α] (d : α)

/-- A read of the key just written gives the value written. -/
theorem sparseGet_set_same (l : List (Nat × α)) (a : Nat) (v : α) (lo : Option Nat) (h : sparseWfFrom d lo l = true) :
    sparseGet d (sparseSet d l a v) a = v := by
  induction l generalizing lo with
  | nil => by_cases hv : v = d <;> simp [sparseSet, sparseGet, hv]
  | cons e rest ih =>
    obtain ⟨k, u⟩ := e
    simp only [sparseWfFrom, Bool.and_eq_true] at h
    have ih' := ih (some k) h.2
    by_cases hk : a = k
    · subst hk
      by_cases hv : v = d
      · subst hv
        have : sparseGet v rest a = v := by
          clear ih ih'
          have h2 := h.2
          cases rest with
          | nil => rfl
          | cons f tail =>
            obtain ⟨k', u'⟩ := f
            simp only [sparseWfFrom, Bool.and_eq_true, decide_eq_true_eq] at h2
            have : a < k' := h2.1.1
            simp [sparseGet, Nat.ne_of_lt this, this]
        simpa [sparseSet] using this
      · simp [sparseSet, hv, sparseGet]
    · by_cases hlt : a < k
      · by_cases hv : v = d
        · simp [sparseSet, hk, hlt, hv, sparseGet]
        · simp [sparseSet, hk, hlt, hv, sparseGet]
      · simp only [sparseSet, hk, hlt, if_false, sparseGet]
        exact ih'

/-- Below the first key nothing is listed. -/
theorem sparseGet_below (l : List (Nat × α)) (a k : Nat) (hk : a ≤ k) (h : sparseWfFrom d (some k) l = true) :
    sparseGet d l a = d := by
  cases l with
  | nil => rfl
  | cons f tail =>
    obtain ⟨k', u'⟩ := f
    simp only [sparseWfFrom, Bool.and_eq_true, decide_eq_true_eq] at h
    have : a < k' := Nat.lt_of_le_of_lt hk h.1.1
    simp [sparseGet, Nat.ne_of_lt this, this]

/-- A read of another key gives what it gave before. -/
theorem sparseGet_set_other (l : List (Nat × α)) (a b : Nat) (v : α) (hab : b ≠ a) (lo : Option Nat)
    (h : sparseWfFrom d lo l = true) : sparseGet d (sparseSet d l a v) b = sparseGet d l b := by
  induction l generalizing lo with
  | nil =>
    by_cases hv : v = d
    · simp [sparseSet, hv]
    · by_cases hlt : b < a <;> simp [sparseSet, sparseGet, hv, hab]
  | cons e rest ih =>
    obtain ⟨k, u⟩ := e
    simp only [sparseWfFrom, Bool.and_eq_true] at h
    have ih' := ih (some k) h.2
    by_cases hk : a = k
    · subst hk
      by_cases hv : v = d
      · subst hv
        by_cases hlt : b < a
        · simp [sparseSet, sparseGet, hab, hlt, sparseGet_below v rest b a (Nat.le_of_lt hlt) h.2]
        · simp [sparseSet, sparseGet, hab, hlt]
      · by_cases hlt : b < a <;> simp [sparseSet, sparseGet, hab, hv, hlt]
    · by_cases hlt : a < k
      · by_cases hv : v = d
        · simp [sparseSet, hk, hlt, hv]
        · by_cases hb : b < a
          · have : b < k := Nat.lt_trans hb hlt
            simp [sparseSet, sparseGet, hk, hlt, hv, hab, hb, this, Nat.ne_of_lt this]
          · simp [sparseSet, sparseGet, hk, hlt, hv, hab, hb]
      · simp only [sparseSet, hk, hlt, if_false, sparseGet]
        by_cases hb : b = k
        · simp [hb]
        · by_cases hbl : b < k
          · simp [hb, hbl]
          · simp only [hb, hbl, if_false]
            exact ih'

/-- A key may come next in a canonical list: it is above the bound. -/
def keyFits (lo : Option Nat) (a : Nat) : Bool :=
  match lo with
  | none => true
  | some m => decide (m < a)

/-- A list is canonical from a bound if its first key fits, is not the default, and the rest is canonical from that key. -/
theorem wfFrom_cons (lo : Option Nat) (k : Nat) (u : α) (rest : List (Nat × α)) :
    sparseWfFrom d lo ((k, u) :: rest) = true ↔ (keyFits lo k = true ∧ u ≠ d) ∧ sparseWfFrom d (some k) rest = true := by
  cases lo <;> simp [sparseWfFrom, keyFits]

/-- A canonical list stays canonical from a lower bound. -/
theorem wfFrom_lower (lo : Option Nat) (k : Nat) (rest : List (Nat × α)) (hk : keyFits lo k = true)
    (h : sparseWfFrom d (some k) rest = true) : sparseWfFrom d lo rest = true := by
  rcases rest with _ | ⟨⟨j, u⟩, tail⟩
  · rfl
  · rw [wfFrom_cons] at h ⊢
    refine ⟨⟨?_, h.1.2⟩, h.2⟩
    cases lo with
    | none => rfl
    | some m => simp only [keyFits, decide_eq_true_eq] at hk h ⊢; omega

/-- A write keeps the canonical form, above any bound that the key is above. -/
theorem sparseSet_wfFrom (l : List (Nat × α)) (a : Nat) (v : α) (lo : Option Nat)
    (hlo : keyFits lo a = true) (h : sparseWfFrom d lo l = true) :
    sparseWfFrom d lo (sparseSet d l a v) = true := by
  induction l generalizing lo with
  | nil =>
    by_cases hv : v = d
    · simpa [sparseSet, hv] using h
    · rw [show sparseSet d [] a v = [(a, v)] by simp [sparseSet, hv], wfFrom_cons]
      exact ⟨⟨hlo, hv⟩, rfl⟩
  | cons e rest ih =>
    obtain ⟨k, u⟩ := e
    obtain ⟨⟨hk, hu⟩, hr⟩ := (wfFrom_cons d lo k u rest).mp h
    rcases Nat.lt_trichotomy a k with hlt | rfl | hgt
    · by_cases hv : v = d
      · simpa [sparseSet, Nat.ne_of_lt hlt, hlt, hv] using h
      · simp only [sparseSet, Nat.ne_of_lt hlt, hlt, if_true, hv, if_false]
        exact (wfFrom_cons d lo a v _).mpr ⟨⟨hlo, hv⟩, (wfFrom_cons d (some a) k u rest).mpr ⟨⟨by simp [keyFits, hlt], hu⟩, hr⟩⟩
    · by_cases hv : v = d
      · simpa [sparseSet, hv] using wfFrom_lower d lo a rest hk hr
      · simp only [sparseSet, if_true, hv, if_false]
        exact (wfFrom_cons d lo a v rest).mpr ⟨⟨hlo, hv⟩, hr⟩
    · simp only [sparseSet, Nat.ne_of_gt hgt, Nat.lt_asymm hgt, if_false]
      exact (wfFrom_cons d lo k u _).mpr ⟨⟨hk, hu⟩, ih (some k) (by simp [keyFits, hgt]) hr⟩

/-- A write keeps the canonical form. -/
theorem sparseSet_wf (l : List (Nat × α)) (a : Nat) (v : α) (h : sparseWf d l = true) :
    sparseWf d (sparseSet d l a v) = true :=
  sparseSet_wfFrom d l a v none rfl h

/-! ### Bytes and tags -/

/-- A byte just written reads back. -/
theorem readByte_writeByte_same (k : Nat) (b : Byte) (s : State) (h : Memory.wf s.mem = true) :
    readByte k (writeByte k b s) = b :=
  sparseGet_set_same unwritten s.mem k b none h

/-- A write of a byte leaves every other byte alone. -/
theorem readByte_writeByte_other (k a : Nat) (b : Byte) (s : State) (hne : a ≠ k) (h : Memory.wf s.mem = true) :
    readByte a (writeByte k b s) = readByte a s :=
  sparseGet_set_other unwritten s.mem k a b hne none h

/-- A write of a byte keeps memory canonical. -/
theorem writeByte_wf (k : Nat) (b : Byte) (s : State) (h : Memory.wf s.mem = true) :
    Memory.wf (writeByte k b s).mem = true :=
  sparseSet_wf unwritten s.mem k b h

/-- Writing bytes keeps memory canonical. -/
theorem writeBytes_wf (bs : List Byte) (k : Nat) (s : State) (h : Memory.wf s.mem = true) :
    Memory.wf (writeBytes bs k s).mem = true := by
  induction bs generalizing k s with
  | nil => exact h
  | cons b bs ih => exact ih (k + 1) _ (writeByte_wf k b s h)

/-- `u`, but for what the registers that outside agents and register frames reach may hold: the debug and System registers, the
trace comparators, the event counters, the error records, the timer frames and the system counter. -/
def framed (u t : State) : State :=
  { u with dbg := t.dbg, sys := t.sys, trcacvr := t.trcacvr, pmevcntr := t.pmevcntr, pmevtyper := t.pmevtyper,
           frames := t.frames, err := t.err, count := t.count }

/-- A choice between such a change and none is one. -/
theorem framed_ite {s a : State} (c : Prop) [Decidable c] (h : a = framed s a) :
    (if c then a else s) = framed s (if c then a else s) := by
  by_cases hc : c
  · rw [if_pos hc]
    exact h
  · rw [if_neg hc]
    rfl

/-- The resets of a write of PMCR_EL0 change the counters alone. -/
theorem pmcrResets_eq (v : Word) (s : State) :
    pmcrResets v s = { s with sys := (pmcrResets v s).sys, pmevcntr := (pmcrResets v s).pmevcntr } := by
  unfold pmcrResets
  by_cases h1 : bitAt v 1 = true <;> by_cases h2 : bitAt v 2 = true <;> simp [h1, h2, setReg]

/-- A write of the external PMCR_EL0 changes nothing but registers that frames reach. -/
theorem writeExternalPmcr_eq (v : Word) (s : State) : writeExternalPmcr v s = framed s (writeExternalPmcr v s) := by
  unfold writeExternalPmcr framed
  rw [pmcrResets_eq]
  rfl

/-- A write by an external agent changes nothing but registers that frames reach. -/
theorem extWrite_eq (r : ExtReg) (v : Word) (s : State) : extWrite r v s = framed s (extWrite r v s) := by
  cases r with
  | pmcr => exact writeExternalPmcr_eq v s
  | edscr | trcconfigr | trcacvr | pmevcntr | pmevtyper | pmccntr | pmcntenset | pmcntenclr | pmovsset | pmovsclr | errstatus => rfl
  | edacr => exact framed_ite _ rfl
  | _ =>
    simp only [extWrite]
    exact framed_ite _ rfl

/-- A write of a frame register changes nothing but such registers. -/
theorem writeFrameReg_eq (r : FrameReg) (v : Word) (s : State) : writeFrameReg r v s = framed s (writeFrameReg r v s) := by
  cases r with
  | timer n q => cases q <;> rfl
  | ext q => exact extWrite_eq q v s
  | _ => rfl

/-- A memory write to a frame changes nothing but such registers. -/
theorem writeFrameByte_eq (f : RegFrame) (off : Nat) (sp : Space) (b : Byte) (s : State) :
    writeFrameByte f off sp b s = framed s (writeFrameByte f off sp b s) := by
  unfold writeFrameByte
  split
  · rfl
  · exact framed_ite _ (writeFrameReg_eq _ _ s)

/-- A read of a register by an outside agent changes nothing but the debug registers. -/
theorem afterExtRead_eq (r : ExtReg) (s : State) : afterExtRead r s = { s with dbg := (afterExtRead r s).dbg } := by
  unfold afterExtRead
  split <;> rfl

/-- A memory read of a frame changes nothing but the debug registers. -/
theorem afterFrameRead_eq (f : RegFrame) (off : Nat) (sp : Space) (s : State) :
    afterFrameRead f off sp s = { s with dbg := (afterFrameRead f off sp s).dbg } := by
  unfold afterFrameRead
  split
  · split
    · exact afterExtRead_eq _ s
    · rfl
  · rfl

/-- A memory write to a frame leaves memory alone. -/
@[simp] theorem writeFrameByte_mem (f : RegFrame) (off : Nat) (sp : Space) (b : Byte) (s : State) :
    (writeFrameByte f off sp b s).mem = s.mem := by rw [writeFrameByte_eq]; rfl

/-- Writing a location keeps memory canonical. -/
theorem writeLoc_wf (x : Xlat) (b : Byte) (s : State) (h : Memory.wf s.mem = true) :
    Memory.wf (writeLoc x b s).mem = true := by
  unfold writeLoc
  split
  · simpa using h
  · split
    · exact h
    · exact writeByte_wf x.key b s h

/-- Writing locations keeps memory canonical. -/
theorem writeLocs_wf (xs : List Xlat) (bs : List Byte) (s : State) (h : Memory.wf s.mem = true) :
    Memory.wf (writeLocs xs bs s).mem = true := by
  induction xs generalizing bs s with
  | nil => exact h
  | cons x xs ih =>
    cases bs with
    | nil => exact h
    | cons b bs => exact ih bs _ (writeLoc_wf x b s h)

/-- Writing locations leaves every byte outside them alone. -/
theorem readByte_writeLocs_other (a : Nat) (xs : List Xlat) (bs : List Byte) (s : State)
    (hne : ∀ x ∈ xs, a ≠ x.key) (h : Memory.wf s.mem = true) :
    readByte a (writeLocs xs bs s) = readByte a s := by
  induction xs generalizing bs s with
  | nil => rfl
  | cons x xs ih =>
    cases bs with
    | nil => rfl
    | cons b bs =>
      have hx : readByte a (writeLoc x b s) = readByte a s := by
        unfold writeLoc
        split
        · simp [readByte]
        · split
          · rfl
          · exact readByte_writeByte_other x.key a b s (hne x (by simp)) h
      exact (ih bs _ (fun y hy => hne y (by simp [hy])) (writeLoc_wf x b s h)).trans hx

/-- Hardware updates of a descriptor keep memory canonical. -/
theorem updateDescriptor_wf (u : DescUpdate) (s : State) (h : Memory.wf s.mem = true) :
    Memory.wf (updateDescriptor u s).mem = true := by
  unfold updateDescriptor
  cases u.af <;> cases u.dirty <;> simp only [Bool.false_eq_true, if_true, if_false] <;>
    first
    | exact h
    | exact writeByte_wf _ _ _ h
    | exact writeByte_wf _ _ _ (writeByte_wf _ _ _ h)

/-- So do the updates that an access makes. -/
theorem updateDescriptors_wf (us : List DescUpdate) (s : State) (h : Memory.wf s.mem = true) :
    Memory.wf (updateDescriptors us s).mem = true := by
  unfold updateDescriptors
  induction us generalizing s with
  | nil => exact h
  | cons u us ih => exact ih _ (updateDescriptor_wf u s h)

/-- A tag just written reads back. -/
theorem readTag_writeTag_same (k : Nat) (g : BitVec 4) (s : State) (h : sparseWf (0 : BitVec 4) s.tags = true) :
    readTag k (writeTag k g s) = g :=
  sparseGet_set_same 0 s.tags (k / 16) g none h

/-- A write of a tag leaves the tags of other granules alone. -/
theorem readTag_writeTag_other (k a : Nat) (g : BitVec 4) (s : State) (hne : a / 16 ≠ k / 16)
    (h : sparseWf (0 : BitVec 4) s.tags = true) : readTag a (writeTag k g s) = readTag a s :=
  sparseGet_set_other 0 s.tags (k / 16) (a / 16) g hne none h

/-- A write of a tag keeps the tags canonical. -/
theorem writeTag_wf (k : Nat) (g : BitVec 4) (s : State) (h : sparseWf (0 : BitVec 4) s.tags = true) :
    sparseWf (0 : BitVec 4) (writeTag k g s).tags = true :=
  sparseSet_wf 0 s.tags (k / 16) g h

/-- Placing bytes from outside keeps memory canonical. -/
theorem loadBytes_wf (bs : List Byte) (k : Nat) (s : State) (h : Memory.wf s.mem = true) :
    Memory.wf (loadBytes bs k s).mem = true := by
  induction bs generalizing k s with
  | nil => exact h
  | cons b bs ih => exact ih (k + 1) _ (sparseSet_wf unwritten s.mem k b h)

/-- Zeroing granules keeps memory canonical. -/
theorem zeroGranules_wf (xs : List Xlat) (s : State) (h : Memory.wf s.mem = true) :
    Memory.wf (zeroGranules xs s).mem = true := by
  induction xs generalizing s with
  | nil => exact h
  | cons x xs ih => exact ih _ (writeLocs_wf _ _ s h)

end Sys2Proof.Laws
end

