-- ==== Sys2Proof/Laws/Ops.lean ====
section
/-! SUPPORT. For each shared operation, once, everything it can do when it goes on. -/

namespace Sys2Proof.Laws

open Sys2Proof.Machine

/-! ### Sequencing -/

/-- What comes after a computation that gave a value. -/
@[simp] theorem andThen_value {α : Type} (a : α) (u : State) (k : α → State → Result) :
    (Acc.ok a u).andThen k = k a u := rfl

/-- A computation that stopped is not continued. -/
@[simp] theorem andThen_stop {α : Type} (r : Result) (k : α → State → Result) : (Acc.stop r).andThen k = r := rfl

/-- A continued computation goes on only if its first part gave a value, or ended in that next state itself. -/
theorem andThen_next {α : Type} {t : State} {k : α → State → Result} :
    ∀ {m : Acc α}, m.andThen k = .next t → (∃ a u, m = .ok a u ∧ k a u = .next t) ∨ m = .stop (.next t)
  | .ok a u, e => Or.inl ⟨a, u, rfl, e⟩
  | .stop _, e => Or.inr (e ▸ rfl)

/-- A bind inside a computation gives a value only if both parts do. -/
theorem bind_ok {α β : Type} {t : State} {b : β} {k : α → State → Acc β} :
    ∀ {m : Acc α}, m.bind k = .ok b t → ∃ a u, m = .ok a u ∧ k a u = .ok b t
  | .ok a u, e => ⟨a, u, rfl, e⟩
  | .stop _, e => nomatch e

/-- A bind of located values is a value only if both parts are. -/
theorem loc_bind_ok {α β : Type} {t : State} {b : β} {k : α → State → Loc β} :
    ∀ {m : Loc α}, m.bind k = .ok b t → ∃ a u, m = .ok a u ∧ k a u = .ok b t
  | .ok a u, e => ⟨a, u, rfl, e⟩
  | .fault _ _ _, e => nomatch e

/-! ### Registers -/

/-- A vector element just written reads back. -/
theorem getD_set_same {α : Type} {n : Nat} (v : Vector α n) (i : Nat) (x d : α) (h : i < n) :
    (v.setIfInBounds i x).getD i d = x := by
  simp [Vector.getD, Vector.setIfInBounds, Array.getD, h]

/-- A write of an element leaves the others alone. -/
theorem getD_set_other {α : Type} {n : Nat} (v : Vector α n) (i j : Nat) (x d : α) (h : i ≠ j) :
    (v.setIfInBounds i x).getD j d = v.getD j d := by
  by_cases hj : j < n <;> simp [Vector.getD, Vector.setIfInBounds, Array.getD, h, hj]

/-- A register just written reads back, but for register 31, which reads as zero. -/
theorem readX_writeX_same (n : BitVec 5) (v : Word) (s : State) (h : n ≠ 31) : readX n (writeX n v s) = v := by
  have hn : n.toNat < 31 := by
    have h1 := n.isLt
    have h2 : n.toNat ≠ 31 := fun e => h (BitVec.eq_of_toNat_eq e)
    omega
  unfold readX writeX
  rw [if_neg h, if_neg h]
  exact getD_set_same _ _ _ _ hn

/-- A write of a register leaves the others alone. -/
theorem readX_writeX_other (n m : BitVec 5) (v : Word) (s : State) (h : m ≠ n) :
    readX m (writeX n v s) = readX m s := by
  unfold readX
  split
  · rfl
  · rename_i hm
    unfold writeX
    split
    · rfl
    · have : n.toNat ≠ m.toNat := fun e => h (BitVec.eq_of_toNat_eq e.symm)
      exact getD_set_other _ _ _ _ _ this

/-- Register 31 reads as zero. -/
@[simp] theorem readX_31 (s : State) : readX 31 s = 0 := rfl

/-- A write of register 31 is discarded. -/
@[simp] theorem writeX_31 (v : Word) (s : State) : writeX 31 v s = s := rfl

/-- The end of an instruction does not change a general register. -/
@[simp] theorem readX_advance (n : BitVec 5) (s : State) : readX n (advance s) = readX n s := by simp [readX]

/-- Nor does a branch. -/
@[simp] theorem readX_branchTo (n : BitVec 5) (a : Word) (b : BitVec 2) (s : State) :
    readX n (branchTo a b s) = readX n s := rfl

/-- Nor a write of the flags. -/
@[simp] theorem readX_setFlags (n : BitVec 5) (f : NZCV) (s : State) : readX n (setFlags f s) = readX n s := rfl

/-- A System register just written reads back. -/
theorem sreg_setReg_same (r : SysReg) (v : Word) (s : State) (h : sysIdx r < sysRegCount) :
    sreg (setReg r v s) r = v :=
  getD_set_same _ _ _ _ h

/-- A write of a System register leaves the others alone. -/
theorem sreg_setReg_other (r q : SysReg) (v : Word) (s : State) (h : sysIdx r ≠ sysIdx q) :
    sreg (setReg r v s) q = sreg s q :=
  getD_set_other _ _ _ _ _ h

/-! ### Waits -/

/-- A wait begins, outside Debug state, or nothing happens. -/
theorem beginWait_cases (w : Wait) (s : State) :
    beginWait w s = s ∨ halted s = false ∧ beginWait w s = { s with waiting := some w } := by
  unfold beginWait
  split
  · rename_i h
    rw [Bool.and_eq_true, Bool.not_eq_true'] at h
    exact .inr ⟨h.1, rfl⟩
  · exact .inl rfl

/-- A step of a wait changes nothing but the wait and the Event Register. -/
theorem waitOn_eq (w : Wait) (s : State) :
    waitOn w s = { s with waiting := (waitOn w s).waiting, eventReg := (waitOn w s).eventReg } := by
  unfold waitOn; split <;> rfl

/-- A wait that ends now is over. -/
theorem waitOn_ends {w : Wait} {s : State} (h : wakesNow w s = true) : (waitOn w s).waiting = none := by
  unfold waitOn; rw [if_pos h]

/-- A wait that does not goes on. -/
theorem waitOn_goesOn {w : Wait} {s : State} (h : wakesNow w s = false) : waitOn w s = s := by
  unfold waitOn; rw [h]; rfl

/-- The end of a 32-bit instruction. -/
@[simp] theorem advanceOf_false (s : State) : advanceOf false s = advance s := rfl

/-- The end of a 16-bit instruction. -/
@[simp] theorem advanceOf_true (s : State) : advanceOf true s = advanceNarrow s := rfl

/-! ### Exceptions -/

/-- Counting an event changes the event counters alone. -/
theorem countEventWhere_eq (here : Nat → Bool) (e : BitVec 16) (s : State) :
    countEventWhere here e s = { s with pmevcntr := (countEventWhere here e s).pmevcntr } := by
  unfold countEventWhere; split <;> rfl

/-- The same of an event of the PE. -/
theorem countEvent_eq (e : BitVec 16) (s : State) : countEvent e s = { s with pmevcntr := (countEvent e s).pmevcntr } :=
  countEventWhere_eq _ e s

/-- States that differ from `s` in the System registers at most: either branch of a choice. -/
theorem ite_only {c : Prop} [Decidable c] {s t u : State} (ht : ∃ y, t = { s with sys := y }) (hu : ∃ y, u = { s with sys := y }) :
    ∃ y, (if c then t else u) = { s with sys := y } := by
  split
  · exact ht
  · exact hu

/-- States that differ from `s` in the System registers at most: one more write. -/
theorem setReg_only {q : SysReg} {v : Word} {s t : State} (h : ∃ y, t = { s with sys := y }) :
    ∃ y, setReg q v t = { s with sys := y } := by
  obtain ⟨y, rfl⟩ := h
  exact ⟨_, rfl⟩

/-- What an exception saves goes to System registers alone. -/
theorem saveForException_eq (r : ExcReq) (s : State) :
    ∃ y, saveForException r s = { s with sys := y } := by
  have h2 : ∃ y, setReg (elrReg r.target) r.ret (setReg (spsrReg r.target) (spsrOf s) s) = { s with sys := y } :=
    setReg_only (setReg_only ⟨s.sys, rfl⟩)
  have h3 := ite_only (c := r.kind = .irq ∨ r.kind = .fiq) h2 (setReg_only (q := esrReg r.target) (v := syndrome r) h2)
  obtain ⟨y, h3⟩ := h3
  simp only [saveForException, h3]
  cases r.far <;> cases r.hpfar
  · exact ⟨_, rfl⟩
  · exact ite_only (setReg_only ⟨_, rfl⟩) ⟨_, rfl⟩
  · exact ⟨_, rfl⟩
  · exact ite_only (setReg_only (setReg_only ⟨_, rfl⟩)) (setReg_only ⟨_, rfl⟩)

/-- The vector base of an entry that is a Context synchronization event. -/
theorem vectorBase_synchronised {el : EL} {s : State} (h : entrySynchronises el s = true) :
    vectorBase el s = sreg s (vbarReg el) := by
  simp only [vectorBase, entryContext, if_pos h, ireg, seenIndirectly, syncContext, pendingOf, sreg]

/-- The vector base of an entry that is none. -/
theorem vectorBase_unsynchronised {el : EL} {s : State} (h : entrySynchronises el s = false) :
    vectorBase el s = ireg s (vbarReg el) := by
  simp [vectorBase, entryContext, h]

/-- All that taking an exception changes. -/
theorem takeException_eq (r : ExcReq) (s : State) : takeException r s =
    { entryContext r.target s with
      sys := (takeException r s).sys
      x := entryUpperHalves s
      pc := vectorBase r.target s + vectorOffset r.target r.kind s
      ps := entryPState r.target s
      movprfx := none
      brbEntry := (takeException r s).brbEntry
      pmevcntr := (takeException r s).pmevcntr } := by
  obtain ⟨y, h⟩ := saveForException_eq r s
  unfold takeException entryContext
  rw [h]
  cases entrySynchronises r.target s <;> cases exceptionEvent r s
  · rfl
  · dsimp only; rw [countEvent_eq]; rfl
  · rfl
  · dsimp only; rw [countEvent_eq]; rfl

/-- What takes an exception and goes on has taken it, to a level that uses AArch64. -/
theorem raise_next {r : ExcReq} {s t : State} (h : raise r s = .next t) :
    elUsesA32 r.target s = false ∧ t = takeException r s := by
  unfold raise at h
  split at h
  · cases h
  · rename_i h1
    exact ⟨by simpa using h1, by cases h; rfl⟩

/-- When an exception is taken. -/
theorem raise_eq {r : ExcReq} {s : State} (h : elUsesA32 r.target s = false) :
    raise r s = .next (takeException r s) := by
  simp [raise, h]

/-- An UNDEFINED instruction that goes on has taken the exception with EC 0. -/
theorem undefined_next {s t : State} (h : undefined s = .next t) :
    t = takeException (syncExc (ownTarget s) 0 0 s) s :=
  (raise_next h).2

/-- What is unpredictable and goes on has taken the trap that applies to it. -/
theorem unpredictable_next {trap : Option Result} {own : Refusal} {s t : State}
    (h : unpredictable trap own s = .next t) : trap = some (.next t) := by
  unfold unpredictable at h
  split at h
  · split at h
    · exact congrArg some h
    · cases h
  · cases h

/-- An abort never gives a value. -/
theorem abort_ne_ok {α : Type} (d : AccDesc) (k : AbortKind) (va : Word) (s : State) (a : α) (t : State) :
    abort d k va s ≠ .ok a t := by
  intro h
  unfold abort at h
  split at h <;> cases h

/-- A located value that is used had no fault. -/
theorem toAcc_ok {α : Type} {d : AccDesc} {m : Loc α} {a : α} {t : State} (h : m.toAcc d = .ok a t) :
    m = .ok a t := by
  cases m with
  | ok b u => cases h; rfl
  | fault k va s => exact absurd h (abort_ne_ok d k va s a t)

/-! ### Gates -/

/-- What a direct access to PC or PSTATE does: its effect outside Debug state, in Debug state at most the trap that applies. -/
theorem notHalted_next {trap : Option Result} {s t : State} {k : Result} (h : notHalted trap s k = .next t) :
    (halted s = false ∧ k = .next t) ∨ (halted s = true ∧ trap = some (.next t)) := by
  unfold notHalted at h
  split at h
  · rename_i h1
    exact .inr ⟨h1, unpredictable_next h⟩
  · rename_i h1
    exact .inl ⟨by simpa using h1, h⟩

/-- Outside Debug state it is the effect. -/
theorem notHalted_eq {trap : Option Result} {s : State} {k : Result} (h : halted s = false) : notHalted trap s k = k := by
  simp [notHalted, h]

/-- A base register that can be used changes nothing. -/
theorem baseReg_ok {n : BitVec 5} {s t : State} {v : Word} (h : baseReg n s = .ok v t) : v = readXSP n s ∧ t = s := by
  unfold baseReg at h
  split at h
  · cases h
  · cases h
    exact ⟨rfl, rfl⟩

/-- A base register other than the stack pointer can always be used. -/
theorem baseReg_reg {n : BitVec 5} {s : State} (h : n ≠ 31) : baseReg n s = .ok (readX n s) s := by
  unfold baseReg readXSP
  rw [if_neg (fun e => h e.1), if_neg h]

/-- A vector instruction whose units are enabled runs. -/
theorem vecGate_none {us : List VecUnit} {s : State} {k : Result} (h : vecTrap us s = none) : vecGate us s k = k := by
  have h3 : us.any (cptr3Traps · s) = false := by
    unfold vecTrap at h
    split at h
    · cases h
    · split at h
      · cases h
      · simpa using h
  simp [vecGate, vecException, h, h3]

/-- A pointer authentication instruction: not there, disabled, trapped, or its effect. -/
theorem pacGate_enabled {k : PacKey} {hint : Bool} {s : State} {r : Result} (h1 : has .PAuth s = true)
    (h2 : sctlr s k.enable = true) (h3 : apiTraps s = false) : pacGate k hint s r = r := by
  simp [pacGate, h1, h2, h3]

/-- Disabled, it is a NOP. -/
theorem pacGate_disabled {k : PacKey} {hint : Bool} {s : State} {r : Result} (h1 : has .PAuth s = true)
    (h2 : sctlr s k.enable = false) : pacGate k hint s r = .next (advance s) := by
  simp [pacGate, h1, h2]

/-- Authentication inside another instruction, disabled: the address as it is. -/
theorem authCombined_disabled {k : PacKey} {p m : Word} {s : State} {f : State → State} {c : Word → Result}
    (h1 : has .PAuth s = true) (h2 : sctlr s k.enable = false) : authCombined k p m s f c = c p := by
  simp [authCombined, h1, h2]

/-- Enabled and correct: the address stripped. -/
theorem authCombined_correct {k : PacKey} {p m : Word} {s : State} {f : State → State} {c : Word → Result}
    (h1 : has .PAuth s = true) (h2 : sctlr s k.enable = true) (h3 : apiTraps s = false)
    (h4 : pacCorrect k p m s = true) : authCombined k p m s f c = c (pacStrip (pacField false p s) p) := by
  simp [authCombined, h1, h2, h3, h4, authResult]

/-! ### Memory -/

/-- A flat location has no fault of the final access. -/
@[simp] theorem flatXlat_finalFault (d : AccDesc) (va : Word) (pa : Nat) (s : State) :
    (flatXlat d va pa s).finalFault = none := by
  unfold flatXlat
  split <;> rfl

/-- With nothing enabled, an address in the implemented range is its own translation and nothing changes. -/
theorem find_flat (d : AccDesc) (va : Word) (s : State) (h : flat d s = true) (hp : s.cfg.paSize ≤ 52)
    (hr : (s1DisabledAddr d va s).toNat < 2 ^ s.cfg.paSize) :
    find d va s = .ok (flatXlat d va (s1DisabledAddr d va s).toNat s) s := by
  unfold find findWith
  rw [if_pos h, if_pos ⟨hp, hr⟩]

/-- A translation that succeeds found a location without a fault of the final access. -/
theorem settled_ok {va : Word} {m : Loc Xlat} {x : Xlat} {u : State} :
    m.settled va = .ok x u ↔ m = .ok x u ∧ x.finalFault = none := by
  cases m with
  | fault k a t => simp [Loc.settled, Loc.bind]
  | ok y t =>
    cases h : y.finalFault with
    | none =>
      simp only [Loc.settled, Loc.bind, h, Loc.ok.injEq]
      exact ⟨fun e => ⟨e, e.1 ▸ h⟩, fun e => e.1⟩
    | some l =>
      simp only [Loc.settled, Loc.bind, h, Loc.ok.injEq, reduceCtorEq, false_iff]
      rintro ⟨⟨rfl, -⟩, e⟩
      rw [h] at e
      cases e

/-- The same with nothing enabled. -/
theorem lookup_flat (d : AccDesc) (va : Word) (s : State) (h : flat d s = true) (hp : s.cfg.paSize ≤ 52)
    (hr : (s1DisabledAddr d va s).toNat < 2 ^ s.cfg.paSize) :
    lookup d va s = .ok (flatXlat d va (s1DisabledAddr d va s).toNat s) s :=
  settled_ok.mpr ⟨find_flat d va s h hp hr, flatXlat_finalFault d va _ s⟩

/-- What a read of memory does: it locates the bytes and reads them. -/
theorem memRead_ok {d : AccDesc} {n w : Nat} {va : Word} {f : State → State} {s t : State} {v : BitVec w}
    (h : memRead d n w va f s = .ok v t) :
    ∃ xs u, locateAll d n va s = .ok xs u ∧
      v = ofBytes w (byteOrder (bigEndian u) (readLocs xs 0 u).1) ∧ t = (readLocs xs 0 u).2 := by
  unfold memRead at h
  split at h
  · rename_i xs u hl
    cases h
    exact ⟨xs, u, hl, rfl, rfl⟩
  · exact absurd h (abort_ne_ok _ _ _ _ _ _)

/-- What a write of memory does: it locates the bytes and writes them. -/
theorem memWrite_ok {d : AccDesc} {n w : Nat} {va : Word} {v : BitVec w} {s t : State}
    (h : memWrite d n va v s = .ok () t) :
    ∃ xs u, locateAll d n va s = .ok xs u ∧ t = writeLocs xs (byteOrder (bigEndian u) (bytesOf n v)) u := by
  unfold memWrite at h
  split at h
  · rename_i xs u hl
    cases h
    exact ⟨xs, u, hl, rfl⟩
  · exact absurd h (abort_ne_ok _ _ _ _ _ _)

/-- An access whose bytes are located reads. -/
theorem memRead_eq {d : AccDesc} {n w : Nat} {va : Word} {f : State → State} {s u : State} {xs : List Xlat}
    (h : locateAll d n va s = .ok xs u) :
    memRead d n w va f s = .ok (ofBytes w (byteOrder (bigEndian u) (readLocs xs 0 u).1)) (readLocs xs 0 u).2 := by
  simp [memRead, h]

/-- An access whose bytes are located writes. -/
theorem memWrite_eq {d : AccDesc} {n w : Nat} {va : Word} {v : BitVec w} {s u : State} {xs : List Xlat}
    (h : locateAll d n va s = .ok xs u) :
    memWrite d n va v s = .ok () (writeLocs xs (byteOrder (bigEndian u) (bytesOf n v)) u) := by
  simp [memWrite, h]

/-- A Store-Exclusive whose status register is a source or the base goes on only into the trap that applies. -/
theorem storeExclusive_clash {w n : Nat} {data : BitVec w} {clash : Bool} {rs rn : BitVec 5} {s t : State}
    (hc : clash = true ∨ (rs = rn ∧ rn ≠ 31)) (h : storeExclusive n data clash rs rn s = .next t) :
    baseException rn s = some (.next t) := by
  unfold storeExclusive at h
  have hb : (clash || rs == rn && rn != 31) = true := by
    rcases hc with e | ⟨e, e'⟩
    · simp [e]
    · subst e
      simpa using .inr e'
  rw [if_pos hb] at h
  exact unpredictable_next h

/-! ### The step -/

/-- What the step runs before it ends. -/
def stepBody (s : State) : Result :=
  match s.agents with
  | [] => stepPe s
  | .pe :: rest => stepPe { s with agents := rest }
  | e :: rest => .next (agentStep e { s with agents := rest })

/-- The step runs its body and ends. -/
theorem step_body (s : State) : step s = finish (stepBody s) := by
  unfold step stepBody
  rfl

/-- A step that goes on ran to a next state, did not run off the top, and ended with the counters. -/
theorem step_next {s t : State} (h : step s = .next t) :
    ∃ u, stepBody s = .next u ∧ u.offTop = false ∧ afterStep u = .next t := by
  rw [step_body] at h
  generalize stepBody s = r at h ⊢
  cases r with
  | next u =>
    refine ⟨u, rfl, ?_, h⟩
    simp only [finish, afterStep] at h
    split at h
    · cases h
    · rename_i ho
      simpa using ho
  | fault f => cases h
  | refused f => cases h

/-- With nothing from another agent, the body is the PE's own step. -/
theorem stepBody_pe {s : State} (h : s.agents = []) : stepBody s = stepPe s := by
  unfold stepBody
  rw [h]

end Sys2Proof.Laws
end

