-- ==== Sys2Proof/Laws/Agents.lean ====
section
/-! SUPPORT. What the events of other agents can change. -/

namespace Sys2Proof.Laws

open Sys2Proof.Machine

/-- Counting several events changes nothing but the event counters. -/
theorem countEvents_eq (ns : List (BitVec 16)) (s : State) :
    ns.foldl (fun t e => countEvent e t) s =
      { s with pmevcntr := (ns.foldl (fun t e => countEvent e t) s).pmevcntr } := by
  induction ns generalizing s with
  | nil => rfl
  | cons n ns ih =>
    have h := countEvent_eq n s
    rw [List.foldl_cons]
    generalize countEvent n s = t at h ⊢
    rw [ih t, h]

/-- A reduction changes nothing but the event counters. -/
theorem countReduction_eq (k : ReduceInstr) (s : State) :
    countReduction k s = { s with pmevcntr := (countReduction k s).pmevcntr } := by
  exact countEvents_eq _ s

/-- Recording an error changes nothing but the error records. -/
theorem recordError_eq (n : Nat) (src : ErrSource) (s : State) :
    recordError n src s = { s with err := (recordError n src s).err } := rfl

/-- Another observer's write keeps memory canonical. -/
theorem observerWrite_wf (k : Nat) (b : Byte) (s : State) (h : Memory.wf s.mem = true) :
    Memory.wf (observerWrite k b s).mem = true := by
  show Memory.wf (observedByte k b s).mem = true
  unfold observedByte
  split
  · simpa using h
  · exact writeByte_wf k b s h

/-- Another observer's write leaves every other byte alone. -/
theorem readByte_observerWrite_other (k a : Nat) (b : Byte) (s : State) (hne : a ≠ k) (h : Memory.wf s.mem = true) :
    readByte a (observerWrite k b s) = readByte a s := by
  show readByte a (observedByte k b s) = readByte a s
  unfold observedByte
  split
  · simp [readByte]
  · exact readByte_writeByte_other k a b s hne h

/-- While a fault of the Profiling Buffer is pending nothing is written. -/
theorem writeProfile_pending (bytes : List Byte) (s : State) (h : s.profileFault.isSome = true) :
    writeProfile bytes s = s := if_pos h

/-- Nor is a sample. -/
theorem profileSample_pending (p : SpeSample) (s : State) (h : s.profileFault.isSome = true) : profileSample p s = s := by
  unfold profileSample
  split
  · split
    · exact writeProfile_pending _ s h
    · rfl
  · rfl

/-- Capturing a timestamp changes nothing else. -/
theorem captureTimestamp_eq (s : State) :
    captureTimestamp s = { s with brbTimestamp := (captureTimestamp s).brbTimestamp } := rfl

/-- An event of another PE changes nothing but the event counters. -/
theorem countOther_eq (e : BitVec 16) (cache beyond same : Bool) (s : State) :
    countOther e cache beyond same s = { s with pmevcntr := (countOther e cache beyond same s).pmevcntr } :=
  countEventWhere_eq _ e s

/-- An event that is counted where it happens is not counted again. -/
theorem countOwn_elsewhere {e : BitVec 16} (s : State) (h : countedElsewhere e = true) : countOwn e s = s := if_pos h

/-- While a fault of the trace buffer is pending nothing is written. -/
theorem writeTrace_pending (bytes : List Byte) (s : State) (h : s.traceFault.isSome = true) :
    writeTrace bytes s = s := if_pos h

end Sys2Proof.Laws
end

