-- ==== Sys2Proof/Laws/Frame.lean ====
section
/-! SUPPORT. The terms of Safety, once for each shared operation: what keeps a Frame, where NextPc comes from. -/

namespace Sys2Proof.Laws

open Sys2Proof.Machine Sys2Proof.Safety

/-- The test that a wait makes is that it ends now. -/
theorem wakesNow_iff (w : Wait) (s : State) : wakesNow w s = true ↔ WaitEnds w s := by
  unfold wakesNow WaitEnds
  rw [Bool.or_eq_true, Bool.or_eq_true, Bool.and_eq_true, Option.any_eq_true, or_assoc]
  simp only [decide_eq_true_eq]

/-- Nothing changed. -/
theorem frame_refl (ds : List (BitVec 5)) (sp fl : Bool) (s : State) : Frame ds sp fl s s :=
  ⟨fun _ _ => rfl, fun _ _ => rfl, fun _ => rfl, fun _ => rfl, rfl⟩

/-- A frame after a frame. -/
theorem frame_trans {ds : List (BitVec 5)} {sp fl : Bool} {s t u : State} (h : Frame ds sp fl s t)
    (g : Frame ds sp fl t u) : Frame ds sp fl s u where
  regs n hn := (g.regs n hn).trans (h.regs n hn)
  sps k hk := by
    have e : spIdx t = spIdx s := by rw [h.rest]; rfl
    have hk' : sp = false ∨ k ≠ spIdx t := by rw [e]; exact hk
    exact (g.sps k hk').trans (h.sps k hk)
  nzcv hf := by
    rw [g.nzcv hf, h.nzcv hf]
  bytes k := (g.bytes k).trans (h.bytes k)
  rest := by rw [g.rest, h.rest]

/-- The end of an instruction changes nothing that a frame counts. -/
theorem frame_advance (ds : List (BitVec 5)) (sp fl : Bool) (s : State) : Frame ds sp fl s (advance s) where
  regs n _ := readX_advance n s
  sps k _ := by simp
  nzcv _ := by unfold advance; split <;> [skip; split] <;> rfl
  bytes k := by simp [readByte]
  rest := by unfold advance; split <;> [skip; split] <;> rfl

/-- Nor does a branch. -/
theorem frame_branchTo (ds : List (BitVec 5)) (sp fl : Bool) (a : Word) (b : BitVec 2) (s : State) :
    Frame ds sp fl s (branchTo a b s) :=
  ⟨fun _ _ => rfl, fun _ _ => rfl, fun _ => rfl, fun _ => rfl, rfl⟩

/-- A write of a general register. -/
theorem frame_writeX {ds : List (BitVec 5)} {n : BitVec 5} (h : n ∈ ds) (sp fl : Bool) (v : Word) (s : State) :
    Frame ds sp fl s (writeX n v s) where
  regs m hm := readX_writeX_other n m v s (fun e => hm (e ▸ h))
  sps k _ := by simp
  nzcv _ := by simp [flagsOf]
  bytes k := by simp [readByte]
  rest := by unfold writeX; split <;> rfl

/-- A write of the current stack pointer. -/
theorem frame_writeSP (ds : List (BitVec 5)) (fl : Bool) (v : Word) (s : State) :
    Frame ds true fl s (writeSP v s) where
  regs _ _ := rfl
  sps k hk := by
    have hk' : spIdx s ≠ k := fun e => hk.elim (fun c => nomatch c) (fun c => c e.symm)
    have : (spIdx s).val ≠ k.val := fun e => hk' (Fin.ext e)
    simp only [writeSP]
    exact Vector.getElem_set_ne _ _ this
  nzcv _ := rfl
  bytes _ := rfl
  rest := rfl

/-- A write of a register, 31 being the stack pointer. -/
theorem frame_writeXSP {ds : List (BitVec 5)} {n : BitVec 5} (h : n ∈ ds) {sp : Bool} (hs : n = 31 → sp = true)
    (fl : Bool) (v : Word) (s : State) : Frame ds sp fl s (writeXSP n v s) := by
  unfold writeXSP
  split
  · rename_i e
    rw [hs e]
    exact frame_writeSP ds fl v s
  · exact frame_writeX h sp fl v s

/-- A write of the flags. -/
theorem frame_setFlags (ds : List (BitVec 5)) (sp : Bool) (f : NZCV) (s : State) :
    Frame ds sp true s (setFlags f s) :=
  ⟨fun _ _ => rfl, fun _ _ => rfl, fun h => (nomatch h), fun _ => rfl, rfl⟩

/-- The end of an instruction in a state with the same pc goes to the next instruction. -/
theorem nextPc_advance {s u : State} (h1 : u.pc = s.pc) (h2 : u.offTop = s.offTop) (h3 : halted u = halted s)
    (h4 : u.ps.nRW = s.ps.nRW) : NextPc s (advance u) := by
  unfold NextPc nextPc lastPc advance
  rw [h3, h4]
  cases hh : halted s
  · cases hn : s.ps.nRW <;> simp [h1, h2]
  · simp [h1, h2]

/-- An instruction that only moves on. -/
theorem completes_nop {i : Instr} {s : State} (h : exec i s = .next (advance s)) (ds : List (BitVec 5)) (sp fl : Bool) :
    Completes i ds sp fl s s (advance s) :=
  ⟨h, frame_advance ds sp fl s, nextPc_advance rfl rfl rfl rfl⟩

/-- An instruction that makes a state, and moves on. -/
theorem completes_advance {i : Instr} {s u v : State} {ds : List (BitVec 5)} {sp fl : Bool}
    (h : exec i s = .next (advance v)) (hf : Frame ds sp fl u v) (h1 : v.pc = s.pc) (h2 : v.offTop = s.offTop)
    (h3 : halted v = halted s) (h4 : v.ps.nRW = s.ps.nRW) : Completes i ds sp fl s u (advance v) :=
  ⟨h, frame_trans hf (frame_advance ds sp fl v), nextPc_advance h1 h2 h3 h4⟩

/-- A mask of the low bits is a power of two less one. -/
theorem maskOf_low (n : Nat) : maskOf 64 0 n = BitVec.ofNat 64 (2 ^ n - 1) := by
  apply BitVec.eq_of_getLsbD_eq
  intro i hi
  simp only [maskOf, BitVec.getLsbD_and, BitVec.getLsbD_not, BitVec.getLsbD_shiftLeft, BitVec.getLsbD_allOnes,
    BitVec.getLsbD_ofNat, Nat.testBit_two_pow_sub_one]
  simp [hi]; omega

/-- A range that overlaps the block of an entry, in the terms of Safety. -/
theorem rangeOverlaps_iff (n : Nat) (lo hi base : Word) (size : Nat) :
    rangeOverlaps n lo hi (blockRange base size) = true ↔ Overlaps n lo hi base size := by
  simp [rangeOverlaps, blockRange, Overlaps, maskOf_low, field, Nat.shiftRight_zero]

/-- A TLB invalidation leaves the entries it does not match, and clears a monitor or leaves it. -/
theorem tlbInvalidate_spec (p : TLBEntry → Bool) (s : State) :
    (∀ e, e ∈ (tlbInvalidate p s).tlb ↔ e ∈ s.tlb ∧ p e = false) ∧
    ((tlbInvalidate p s).exLocal = s.exLocal ∨ (tlbInvalidate p s).exLocal = none) ∧
    ((tlbInvalidate p s).exGlobal = s.exGlobal ∨ (tlbInvalidate p s).exGlobal = none) := by
  refine ⟨by simp [tlbInvalidate], ?_, ?_⟩ <;> simp only [tlbInvalidate] <;> split <;> simp

/-- A write of a register changes nothing that `halted` reads. -/
@[simp] theorem halted_writeX (n : BitVec 5) (v : Word) (s : State) : halted (writeX n v s) = halted s := by
  simp [halted]

/-- An instruction that writes one register, and moves on. -/
theorem completes_writeX {i : Instr} {s : State} {n : BitVec 5} {v : Word}
    (h : exec i s = .next (advance (writeX n v s))) (sp fl : Bool) :
    Completes i [n] sp fl s s (advance (writeX n v s)) ∧ Holds n v (advance (writeX n v s)) := by
  refine ⟨completes_advance h (frame_writeX (List.mem_singleton.mpr rfl) sp fl v s) (by simp) (by simp) (by simp)
    (by simp), ?_⟩
  unfold Holds
  rw [readX_advance]
  split
  · rename_i e; subst e; rfl
  · rename_i e; exact readX_writeX_same n v s e

end Sys2Proof.Laws
end

