-- ==== Sys2Proof/Laws/PerInstr.lean ====
section
/-! SUPPORT. The family EncodeRow: the encoder's word has the fixed bits of the instruction's row of
spec/opcode_table.json, for every instruction. -/

namespace Sys2Proof.Laws

/-- The mask and the fixed bits of an instruction's row of spec/opcode_table.json. -/
def rowBits : Instr → Half × Half
  | .nop => (0xFFFFFFFF, 0xD503201F)
  | .wfe => (0xFFFFFFFF, 0xD503205F)
  | .wfi => (0xFFFFFFFF, 0xD503207F)
  | .pacia1716 => (0xFFFFFFFF, 0xD503211F)
  | .pacib1716 => (0xFFFFFFFF, 0xD503215F)
  | .autia1716 => (0xFFFFFFFF, 0xD503219F)
  | .autib1716 => (0xFFFFFFFF, 0xD50321DF)
  | .csdb => (0xFFFFFFFF, 0xD503229F)
  | .paciaz => (0xFFFFFFFF, 0xD503231F)
  | .paciasp => (0xFFFFFFFF, 0xD503233F)
  | .pacibz => (0xFFFFFFFF, 0xD503235F)
  | .pacibsp => (0xFFFFFFFF, 0xD503237F)
  | .autiaz => (0xFFFFFFFF, 0xD503239F)
  | .autiasp => (0xFFFFFFFF, 0xD50323BF)
  | .autibz => (0xFFFFFFFF, 0xD50323DF)
  | .autibsp => (0xFFFFFFFF, 0xD50323FF)
  | .bti => (0xFFFFFFFF, 0xD503241F)
  | .btiC => (0xFFFFFFFF, 0xD503245F)
  | .btiJ => (0xFFFFFFFF, 0xD503249F)
  | .btiJC => (0xFFFFFFFF, 0xD50324DF)
  | .wfet _ => (0xFFFFFFE0, 0xD5031000)
  | .wfit _ => (0xFFFFFFE0, 0xD5031020)
  | .sb => (0xFFFFFFFF, 0xD50330FF)
  | .isb => (0xFFFFFFFF, 0xD5033FDF)
  | .dsb _ => (0xFFFFF0FF, 0xD503309F)
  | .dmb _ => (0xFFFFF0FF, 0xD50330BF)
  | .dsbNXS _ => (0xFFFFF3FF, 0xD503323F)
  | .clrex _ => (0xFFFFF0FF, 0xD503305F)
  | .msrDaifSetImm _ => (0xFFFFF0FF, 0xD50340DF)
  | .msrDaifClrImm _ => (0xFFFFF0FF, 0xD50340FF)
  | .msrSsbsImm _ => (0xFFFFF0FF, 0xD503403F)
  | .msrDitImm _ => (0xFFFFF0FF, 0xD503405F)
  | .msrTcoImm _ => (0xFFFFF0FF, 0xD503409F)
  | .msrSpselImm _ => (0xFFFFF0FF, 0xD50040BF)
  | .mrs _ _ _ _ _ _ => (0xFFF00000, 0xD5300000)
  | .msr _ _ _ _ _ _ => (0xFFF00000, 0xD5100000)
  | .sys _ _ _ _ _ => (0xFFF80000, 0xD5080000)
  | .sysl _ _ _ _ _ => (0xFFF80000, 0xD5280000)
  | .dcZva _ => (0xFFFFFFE0, 0xD50B7420)
  | .dcGva _ => (0xFFFFFFE0, 0xD50B7460)
  | .dcGzva _ => (0xFFFFFFE0, 0xD50B7480)
  | .dcCivac _ => (0xFFFFFFE0, 0xD50B7E20)
  | .dcCigvac _ => (0xFFFFFFE0, 0xD50B7E60)
  | .dcCigdvac _ => (0xFFFFFFE0, 0xD50B7EA0)
  | .icIvau _ => (0xFFFFFFE0, 0xD50B7520)
  | .dcCipae _ => (0xFFFFFFE0, 0xD50C7E00)
  | .dcCigdpae _ => (0xFFFFFFE0, 0xD50C7EE0)
  | .tlbiAlle1 => (0xFFFFFFFF, 0xD50C879F)
  | .tlbiAlle1nxs => (0xFFFFFFFF, 0xD50C979F)
  | .tlbiRvae1 _ => (0xFFFFFFE0, 0xD5088620)
  | .tlbiRvaae1 _ => (0xFFFFFFE0, 0xD5088660)
  | .tlbiRipas2e1 _ => (0xFFFFFFE0, 0xD50C8440)
  | .tlbiRpaos _ => (0xFFFFFFE0, 0xD50E8460)
  | .cfpRctx _ => (0xFFFFFFE0, 0xD50B7380)
  | .dvpRctx _ => (0xFFFFFFE0, 0xD50B73A0)
  | .cppRctx _ => (0xFFFFFFE0, 0xD50B73E0)
  | .atS1e1r _ => (0xFFFFFFE0, 0xD5087800)
  | .mrsRndr _ => (0xFFFFFFE0, 0xD53B2400)
  | .mrsRndrrs _ => (0xFFFFFFE0, 0xD53B2420)
  | .mrsCntpctEl0 _ => (0xFFFFFFE0, 0xD53BE020)
  | .mrsCntvctEl0 _ => (0xFFFFFFE0, 0xD53BE040)
  | .mrsCntpctssEl0 _ => (0xFFFFFFE0, 0xD53BE0A0)
  | .mrsCntvctssEl0 _ => (0xFFFFFFE0, 0xD53BE0C0)
  | .mrsIdAa64smfr0El1 _ => (0xFFFFFFE0, 0xD53804A0)
  | .mrsCcsidrEl1 _ => (0xFFFFFFE0, 0xD5390000)
  | .mrsIsrEl1 _ => (0xFFFFFFE0, 0xD538C100)
  | .mrsNzcv _ => (0xFFFFFFE0, 0xD53B4200)
  | .msrNzcv _ => (0xFFFFFFE0, 0xD51B4200)
  | .mrsDaif _ => (0xFFFFFFE0, 0xD53B4220)
  | .msrDaif _ => (0xFFFFFFE0, 0xD51B4220)
  | .mrsDit _ => (0xFFFFFFE0, 0xD53B42A0)
  | .msrDit _ => (0xFFFFFFE0, 0xD51B42A0)
  | .mrsRmrEl1 _ => (0xFFFFFFE0, 0xD538C040)
  | .msrRmrEl1 _ => (0xFFFFFFE0, 0xD518C040)
  | .mrsRmrEl2 _ => (0xFFFFFFE0, 0xD53CC040)
  | .msrRmrEl2 _ => (0xFFFFFFE0, 0xD51CC040)
  | .mrsRmrEl3 _ => (0xFFFFFFE0, 0xD53EC040)
  | .msrRmrEl3 _ => (0xFFFFFFE0, 0xD51EC040)
  | .pacga _ _ _ => (0xFFE0FC00, 0x9AC03000)
  | .pacia _ _ => (0xFFFFFC00, 0xDAC10000)
  | .pacib _ _ => (0xFFFFFC00, 0xDAC10400)
  | .pacda _ _ => (0xFFFFFC00, 0xDAC10800)
  | .pacdb _ _ => (0xFFFFFC00, 0xDAC10C00)
  | .autia _ _ => (0xFFFFFC00, 0xDAC11000)
  | .autib _ _ => (0xFFFFFC00, 0xDAC11400)
  | .autda _ _ => (0xFFFFFC00, 0xDAC11800)
  | .autdb _ _ => (0xFFFFFC00, 0xDAC11C00)
  | .paciza _ => (0xFFFFFFE0, 0xDAC123E0)
  | .pacizb _ => (0xFFFFFFE0, 0xDAC127E0)
  | .pacdza _ => (0xFFFFFFE0, 0xDAC12BE0)
  | .pacdzb _ => (0xFFFFFFE0, 0xDAC12FE0)
  | .autiza _ => (0xFFFFFFE0, 0xDAC133E0)
  | .autizb _ => (0xFFFFFFE0, 0xDAC137E0)
  | .autdza _ => (0xFFFFFFE0, 0xDAC13BE0)
  | .autdzb _ => (0xFFFFFFE0, 0xDAC13FE0)
  | .ret _ => (0xFFFFFC1F, 0xD65F0000)
  | .retaa => (0xFFFFFFFF, 0xD65F0BFF)
  | .retab => (0xFFFFFFFF, 0xD65F0FFF)
  | .braaz _ => (0xFFFFFC1F, 0xD61F081F)
  | .brabz _ => (0xFFFFFC1F, 0xD61F0C1F)
  | .blraaz _ => (0xFFFFFC1F, 0xD63F081F)
  | .blrabz _ => (0xFFFFFC1F, 0xD63F0C1F)
  | .braa _ _ => (0xFFFFFC00, 0xD71F0800)
  | .brab _ _ => (0xFFFFFC00, 0xD71F0C00)
  | .blraa _ _ => (0xFFFFFC00, 0xD73F0800)
  | .blrab _ _ => (0xFFFFFC00, 0xD73F0C00)
  | .eret => (0xFFFFFFFF, 0xD69F03E0)
  | .eretaa => (0xFFFFFFFF, 0xD69F0BFF)
  | .eretab => (0xFFFFFFFF, 0xD69F0FFF)
  | .drps => (0xFFFFFFFF, 0xD6BF03E0)
  | .ldra _ _ _ _ _ _ => (0xFF200400, 0xF8200400)
  | .svc _ => (0xFFE0001F, 0xD4000001)
  | .hvc _ => (0xFFE0001F, 0xD4000002)
  | .smc _ => (0xFFE0001F, 0xD4000003)
  | .brk _ => (0xFFE0001F, 0xD4200000)
  | .hlt _ => (0xFFE0001F, 0xD4400000)
  | .stgOffset _ _ _ => (0xFFE00C00, 0xD9200800)
  | .stgPost _ _ _ => (0xFFE00C00, 0xD9200400)
  | .stgPre _ _ _ => (0xFFE00C00, 0xD9200C00)
  | .stzgm _ _ => (0xFFFFFC00, 0xD9200000)
  | .stgm _ _ => (0xFFFFFC00, 0xD9A00000)
  | .ldgm _ _ => (0xFFFFFC00, 0xD9E00000)
  | .ld64b _ _ => (0xFFFFFC00, 0xF83FD000)
  | .st64b _ _ => (0xFFFFFC00, 0xF83F9000)
  | .st64bv _ _ _ => (0xFFE0FC00, 0xF820B000)
  | .st64bv0 _ _ _ => (0xFFE0FC00, 0xF820A000)
  | .ldxr _ _ => (0xFFFFFC00, 0xC85F7C00)
  | .ldaxr _ _ => (0xFFFFFC00, 0xC85FFC00)
  | .stxrb _ _ _ => (0xFFE0FC00, 0x08007C00)
  | .stlxrb _ _ _ => (0xFFE0FC00, 0x0800FC00)
  | .stxrh _ _ _ => (0xFFE0FC00, 0x48007C00)
  | .stlxrh _ _ _ => (0xFFE0FC00, 0x4800FC00)
  | .stxrW _ _ _ => (0xFFE0FC00, 0x88007C00)
  | .stlxrW _ _ _ => (0xFFE0FC00, 0x8800FC00)
  | .stxrX _ _ _ => (0xFFE0FC00, 0xC8007C00)
  | .stlxrX _ _ _ => (0xFFE0FC00, 0xC800FC00)
  | .stxpW _ _ _ _ => (0xFFE08000, 0x88200000)
  | .stlxpW _ _ _ _ => (0xFFE08000, 0x88208000)
  | .stxpX _ _ _ _ => (0xFFE08000, 0xC8200000)
  | .stlxpX _ _ _ _ => (0xFFE08000, 0xC8208000)
  | .movzX _ _ _ => (0xFF800000, 0xD2800000)
  | .movzW _ _ _ => (0xFFC00000, 0x52800000)
  | .addX _ _ _ _ => (0xFF800000, 0x91000000)
  | .subX _ _ _ _ => (0xFF800000, 0xD1000000)
  | .subsX _ _ _ _ => (0xFF800000, 0xF1000000)
  | .addW _ _ _ _ => (0xFF800000, 0x11000000)
  | .subW _ _ _ _ => (0xFF800000, 0x51000000)
  | .subsW _ _ _ _ => (0xFF800000, 0x71000000)
  | .orrX _ _ _ _ _ => (0xFF200000, 0xAA000000)
  | .cbzX _ _ => (0xFF000000, 0xB4000000)
  | .cbnzX _ _ => (0xFF000000, 0xB5000000)
  | .cbzW _ _ => (0xFF000000, 0x34000000)
  | .cbnzW _ _ => (0xFF000000, 0x35000000)
  | .bCond _ _ => (0xFF000010, 0x54000000)
  | .b _ => (0xFC000000, 0x14000000)
  | .strX _ _ _ => (0xFFC00000, 0xF9000000)
  | .ldrX _ _ _ => (0xFFC00000, 0xF9400000)
  | .ldrXPre _ _ _ => (0xFFE00C00, 0xF8400C00)
  | .movprfx _ _ => (0xFFFFFC00, 0x0420BC00)
  | .movprfxPred _ _ _ _ _ => (0xFF3EE000, 0x04102000)
  | .fmmlaS _ _ _ => (0xFFE0FC00, 0x64A0E400)
  | .fmmlaD _ _ _ => (0xFFE0FC00, 0x64E0E400)
  | .fmaxS _ _ _ => (0xFFE0FC00, 0x1E204800)
  | .fmaxD _ _ _ => (0xFFE0FC00, 0x1E604800)
  | .fminS _ _ _ => (0xFFE0FC00, 0x1E205800)
  | .fminD _ _ _ => (0xFFE0FC00, 0x1E605800)
  | .fmaxnmS _ _ _ => (0xFFE0FC00, 0x1E206800)
  | .fmaxnmD _ _ _ => (0xFFE0FC00, 0x1E606800)
  | .fminnmS _ _ _ => (0xFFE0FC00, 0x1E207800)
  | .fminnmD _ _ _ => (0xFFE0FC00, 0x1E607800)
  | .vmovlA32 _ _ _ _ _ _ => (0xFE870FD0, 0xF2800A10)
  | .vmovlT32 _ _ _ _ _ _ => (0xEF870FD0, 0xEF800A10)
  | .csdbA32 _ => (0x0FFFFFFF, 0x0320F014)
  | .csdbT32 => (0xFFFFFFFF, 0xF3AF8014)
  | .sbA32 => (0xFFFFFFFF, 0xF57FF070)
  | .sbT32 => (0xFFFFFFFF, 0xF3BF8F70)
  | .mrcDbgdscrint _ _ => (0x0FFF0FFF, 0x0E100E11)
  | .mcrPar _ _ => (0x0FFF0FFF, 0x0E070F14)

/-- The word of an instruction has the fixed bits of its row. -/
def EncodeRow.Statement (i : Instr) : Prop := encodeWord i &&& (rowBits i).1 = (rowBits i).2

/-- A field placed where the mask has no bit leaves nothing under the mask. -/
theorem place_and_eq_zero {n : Nat} (f : BitVec n) (lo : Nat) (m : Half)
    (h : place (BitVec.allOnes n) lo &&& m = 0) : place f lo &&& m = 0 := by
  have hf : f &&& BitVec.allOnes n = f := BitVec.and_allOnes
  have hp : place f lo = place f lo &&& place (BitVec.allOnes n) lo := by
    conv => lhs; rw [← hf]
    simp only [place, BitVec.setWidth_and, ← BitVec.shiftLeft_and_distrib]
  rw [hp, BitVec.and_assoc, h]
  exact BitVec.and_zero

theorem or_and_row {a b m v : Half} (ha : a &&& m = v) (hb : b &&& m = 0) : (a ||| b) &&& m = v := by
  rw [BitVec.and_comm, BitVec.and_or_distrib_left, BitVec.and_comm m a, BitVec.and_comm m b, ha, hb]
  exact BitVec.or_zero

/-- The fixed bits of nop. -/
theorem EncodeRow.nop : EncodeRow.Statement (.nop) := rfl

/-- The fixed bits of wfe. -/
theorem EncodeRow.wfe : EncodeRow.Statement (.wfe) := rfl

/-- The fixed bits of wfi. -/
theorem EncodeRow.wfi : EncodeRow.Statement (.wfi) := rfl

/-- The fixed bits of pacia1716. -/
theorem EncodeRow.pacia1716 : EncodeRow.Statement (.pacia1716) := rfl

/-- The fixed bits of pacib1716. -/
theorem EncodeRow.pacib1716 : EncodeRow.Statement (.pacib1716) := rfl

/-- The fixed bits of autia1716. -/
theorem EncodeRow.autia1716 : EncodeRow.Statement (.autia1716) := rfl

/-- The fixed bits of autib1716. -/
theorem EncodeRow.autib1716 : EncodeRow.Statement (.autib1716) := rfl

/-- The fixed bits of csdb. -/
theorem EncodeRow.csdb : EncodeRow.Statement (.csdb) := rfl

/-- The fixed bits of paciaz. -/
theorem EncodeRow.paciaz : EncodeRow.Statement (.paciaz) := rfl

/-- The fixed bits of paciasp. -/
theorem EncodeRow.paciasp : EncodeRow.Statement (.paciasp) := rfl

/-- The fixed bits of pacibz. -/
theorem EncodeRow.pacibz : EncodeRow.Statement (.pacibz) := rfl

/-- The fixed bits of pacibsp. -/
theorem EncodeRow.pacibsp : EncodeRow.Statement (.pacibsp) := rfl

/-- The fixed bits of autiaz. -/
theorem EncodeRow.autiaz : EncodeRow.Statement (.autiaz) := rfl

/-- The fixed bits of autiasp. -/
theorem EncodeRow.autiasp : EncodeRow.Statement (.autiasp) := rfl

/-- The fixed bits of autibz. -/
theorem EncodeRow.autibz : EncodeRow.Statement (.autibz) := rfl

/-- The fixed bits of autibsp. -/
theorem EncodeRow.autibsp : EncodeRow.Statement (.autibsp) := rfl

/-- The fixed bits of bti. -/
theorem EncodeRow.bti : EncodeRow.Statement (.bti) := rfl

/-- The fixed bits of btiC. -/
theorem EncodeRow.btiC : EncodeRow.Statement (.btiC) := rfl

/-- The fixed bits of btiJ. -/
theorem EncodeRow.btiJ : EncodeRow.Statement (.btiJ) := rfl

/-- The fixed bits of btiJC. -/
theorem EncodeRow.btiJC : EncodeRow.Statement (.btiJC) := rfl

/-- The fixed bits of wfet. -/
theorem EncodeRow.wfet : ∀ rd, EncodeRow.Statement (.wfet rd) :=
  fun _ => or_and_row (by decide : (0xD5031000 : Half) &&& 0xFFFFFFE0 = 0xD5031000) (place_and_eq_zero _ _ 0xFFFFFFE0 (by decide))

/-- The fixed bits of wfit. -/
theorem EncodeRow.wfit : ∀ rd, EncodeRow.Statement (.wfit rd) :=
  fun _ => or_and_row (by decide : (0xD5031020 : Half) &&& 0xFFFFFFE0 = 0xD5031020) (place_and_eq_zero _ _ 0xFFFFFFE0 (by decide))

/-- The fixed bits of sb. -/
theorem EncodeRow.sb : EncodeRow.Statement (.sb) := rfl

/-- The fixed bits of isb. -/
theorem EncodeRow.isb : EncodeRow.Statement (.isb) := rfl

/-- The fixed bits of dsb. -/
theorem EncodeRow.dsb : ∀ crm, EncodeRow.Statement (.dsb crm) :=
  fun _ => or_and_row (by decide : (0xD503309F : Half) &&& 0xFFFFF0FF = 0xD503309F) (place_and_eq_zero _ _ 0xFFFFF0FF (by decide))

/-- The fixed bits of dmb. -/
theorem EncodeRow.dmb : ∀ crm, EncodeRow.Statement (.dmb crm) :=
  fun _ => or_and_row (by decide : (0xD50330BF : Half) &&& 0xFFFFF0FF = 0xD50330BF) (place_and_eq_zero _ _ 0xFFFFF0FF (by decide))

/-- The fixed bits of dsbNXS. -/
theorem EncodeRow.dsbNXS : ∀ imm2, EncodeRow.Statement (.dsbNXS imm2) :=
  fun _ => or_and_row (by decide : (0xD503323F : Half) &&& 0xFFFFF3FF = 0xD503323F) (place_and_eq_zero _ _ 0xFFFFF3FF (by decide))

/-- The fixed bits of clrex. -/
theorem EncodeRow.clrex : ∀ crm, EncodeRow.Statement (.clrex crm) :=
  fun _ => or_and_row (by decide : (0xD503305F : Half) &&& 0xFFFFF0FF = 0xD503305F) (place_and_eq_zero _ _ 0xFFFFF0FF (by decide))

/-- The fixed bits of msrDaifSetImm. -/
theorem EncodeRow.msrDaifSetImm : ∀ crm, EncodeRow.Statement (.msrDaifSetImm crm) :=
  fun _ => or_and_row (by decide : (0xD50340DF : Half) &&& 0xFFFFF0FF = 0xD50340DF) (place_and_eq_zero _ _ 0xFFFFF0FF (by decide))

/-- The fixed bits of msrDaifClrImm. -/
theorem EncodeRow.msrDaifClrImm : ∀ crm, EncodeRow.Statement (.msrDaifClrImm crm) :=
  fun _ => or_and_row (by decide : (0xD50340FF : Half) &&& 0xFFFFF0FF = 0xD50340FF) (place_and_eq_zero _ _ 0xFFFFF0FF (by decide))

/-- The fixed bits of msrSsbsImm. -/
theorem EncodeRow.msrSsbsImm : ∀ crm, EncodeRow.Statement (.msrSsbsImm crm) :=
  fun _ => or_and_row (by decide : (0xD503403F : Half) &&& 0xFFFFF0FF = 0xD503403F) (place_and_eq_zero _ _ 0xFFFFF0FF (by decide))

/-- The fixed bits of msrDitImm. -/
theorem EncodeRow.msrDitImm : ∀ crm, EncodeRow.Statement (.msrDitImm crm) :=
  fun _ => or_and_row (by decide : (0xD503405F : Half) &&& 0xFFFFF0FF = 0xD503405F) (place_and_eq_zero _ _ 0xFFFFF0FF (by decide))

/-- The fixed bits of msrTcoImm. -/
theorem EncodeRow.msrTcoImm : ∀ crm, EncodeRow.Statement (.msrTcoImm crm) :=
  fun _ => or_and_row (by decide : (0xD503409F : Half) &&& 0xFFFFF0FF = 0xD503409F) (place_and_eq_zero _ _ 0xFFFFF0FF (by decide))

/-- The fixed bits of msrSpselImm. -/
theorem EncodeRow.msrSpselImm : ∀ crm, EncodeRow.Statement (.msrSpselImm crm) :=
  fun _ => or_and_row (by decide : (0xD50040BF : Half) &&& 0xFFFFF0FF = 0xD50040BF) (place_and_eq_zero _ _ 0xFFFFF0FF (by decide))

/-- The fixed bits of mrs. -/
theorem EncodeRow.mrs : ∀ o0 op1 crn crm op2 rt, EncodeRow.Statement (.mrs o0 op1 crn crm op2 rt) :=
  fun _ _ _ _ _ _ => or_and_row (or_and_row (or_and_row (or_and_row (or_and_row (or_and_row (by decide : (0xD5300000 : Half) &&& 0xFFF00000 = 0xD5300000) (place_and_eq_zero _ _ 0xFFF00000 (by decide))) (place_and_eq_zero _ _ 0xFFF00000 (by decide))) (place_and_eq_zero _ _ 0xFFF00000 (by decide))) (place_and_eq_zero _ _ 0xFFF00000 (by decide))) (place_and_eq_zero _ _ 0xFFF00000 (by decide))) (place_and_eq_zero _ _ 0xFFF00000 (by decide))

/-- The fixed bits of msr. -/
theorem EncodeRow.msr : ∀ o0 op1 crn crm op2 rt, EncodeRow.Statement (.msr o0 op1 crn crm op2 rt) :=
  fun _ _ _ _ _ _ => or_and_row (or_and_row (or_and_row (or_and_row (or_and_row (or_and_row (by decide : (0xD5100000 : Half) &&& 0xFFF00000 = 0xD5100000) (place_and_eq_zero _ _ 0xFFF00000 (by decide))) (place_and_eq_zero _ _ 0xFFF00000 (by decide))) (place_and_eq_zero _ _ 0xFFF00000 (by decide))) (place_and_eq_zero _ _ 0xFFF00000 (by decide))) (place_and_eq_zero _ _ 0xFFF00000 (by decide))) (place_and_eq_zero _ _ 0xFFF00000 (by decide))

/-- The fixed bits of sys. -/
theorem EncodeRow.sys : ∀ op1 crn crm op2 rt, EncodeRow.Statement (.sys op1 crn crm op2 rt) :=
  fun _ _ _ _ _ => or_and_row (or_and_row (or_and_row (or_and_row (or_and_row (by decide : (0xD5080000 : Half) &&& 0xFFF80000 = 0xD5080000) (place_and_eq_zero _ _ 0xFFF80000 (by decide))) (place_and_eq_zero _ _ 0xFFF80000 (by decide))) (place_and_eq_zero _ _ 0xFFF80000 (by decide))) (place_and_eq_zero _ _ 0xFFF80000 (by decide))) (place_and_eq_zero _ _ 0xFFF80000 (by decide))

/-- The fixed bits of sysl. -/
theorem EncodeRow.sysl : ∀ op1 crn crm op2 rt, EncodeRow.Statement (.sysl op1 crn crm op2 rt) :=
  fun _ _ _ _ _ => or_and_row (or_and_row (or_and_row (or_and_row (or_and_row (by decide : (0xD5280000 : Half) &&& 0xFFF80000 = 0xD5280000) (place_and_eq_zero _ _ 0xFFF80000 (by decide))) (place_and_eq_zero _ _ 0xFFF80000 (by decide))) (place_and_eq_zero _ _ 0xFFF80000 (by decide))) (place_and_eq_zero _ _ 0xFFF80000 (by decide))) (place_and_eq_zero _ _ 0xFFF80000 (by decide))

/-- The fixed bits of dcZva. -/
theorem EncodeRow.dcZva : ∀ rt, EncodeRow.Statement (.dcZva rt) :=
  fun _ => or_and_row (by decide : (0xD50B7420 : Half) &&& 0xFFFFFFE0 = 0xD50B7420) (place_and_eq_zero _ _ 0xFFFFFFE0 (by decide))

/-- The fixed bits of dcGva. -/
theorem EncodeRow.dcGva : ∀ rt, EncodeRow.Statement (.dcGva rt) :=
  fun _ => or_and_row (by decide : (0xD50B7460 : Half) &&& 0xFFFFFFE0 = 0xD50B7460) (place_and_eq_zero _ _ 0xFFFFFFE0 (by decide))

/-- The fixed bits of dcGzva. -/
theorem EncodeRow.dcGzva : ∀ rt, EncodeRow.Statement (.dcGzva rt) :=
  fun _ => or_and_row (by decide : (0xD50B7480 : Half) &&& 0xFFFFFFE0 = 0xD50B7480) (place_and_eq_zero _ _ 0xFFFFFFE0 (by decide))

/-- The fixed bits of dcCivac. -/
theorem EncodeRow.dcCivac : ∀ rt, EncodeRow.Statement (.dcCivac rt) :=
  fun _ => or_and_row (by decide : (0xD50B7E20 : Half) &&& 0xFFFFFFE0 = 0xD50B7E20) (place_and_eq_zero _ _ 0xFFFFFFE0 (by decide))

/-- The fixed bits of dcCigvac. -/
theorem EncodeRow.dcCigvac : ∀ rt, EncodeRow.Statement (.dcCigvac rt) :=
  fun _ => or_and_row (by decide : (0xD50B7E60 : Half) &&& 0xFFFFFFE0 = 0xD50B7E60) (place_and_eq_zero _ _ 0xFFFFFFE0 (by decide))

/-- The fixed bits of dcCigdvac. -/
theorem EncodeRow.dcCigdvac : ∀ rt, EncodeRow.Statement (.dcCigdvac rt) :=
  fun _ => or_and_row (by decide : (0xD50B7EA0 : Half) &&& 0xFFFFFFE0 = 0xD50B7EA0) (place_and_eq_zero _ _ 0xFFFFFFE0 (by decide))

/-- The fixed bits of icIvau. -/
theorem EncodeRow.icIvau : ∀ rt, EncodeRow.Statement (.icIvau rt) :=
  fun _ => or_and_row (by decide : (0xD50B7520 : Half) &&& 0xFFFFFFE0 = 0xD50B7520) (place_and_eq_zero _ _ 0xFFFFFFE0 (by decide))

/-- The fixed bits of dcCipae. -/
theorem EncodeRow.dcCipae : ∀ rt, EncodeRow.Statement (.dcCipae rt) :=
  fun _ => or_and_row (by decide : (0xD50C7E00 : Half) &&& 0xFFFFFFE0 = 0xD50C7E00) (place_and_eq_zero _ _ 0xFFFFFFE0 (by decide))

/-- The fixed bits of dcCigdpae. -/
theorem EncodeRow.dcCigdpae : ∀ rt, EncodeRow.Statement (.dcCigdpae rt) :=
  fun _ => or_and_row (by decide : (0xD50C7EE0 : Half) &&& 0xFFFFFFE0 = 0xD50C7EE0) (place_and_eq_zero _ _ 0xFFFFFFE0 (by decide))

/-- The fixed bits of tlbiAlle1. -/
theorem EncodeRow.tlbiAlle1 : EncodeRow.Statement (.tlbiAlle1) := rfl

/-- The fixed bits of tlbiAlle1nxs. -/
theorem EncodeRow.tlbiAlle1nxs : EncodeRow.Statement (.tlbiAlle1nxs) := rfl

/-- The fixed bits of tlbiRvae1. -/
theorem EncodeRow.tlbiRvae1 : ∀ rt, EncodeRow.Statement (.tlbiRvae1 rt) :=
  fun _ => or_and_row (by decide : (0xD5088620 : Half) &&& 0xFFFFFFE0 = 0xD5088620) (place_and_eq_zero _ _ 0xFFFFFFE0 (by decide))

/-- The fixed bits of tlbiRvaae1. -/
theorem EncodeRow.tlbiRvaae1 : ∀ rt, EncodeRow.Statement (.tlbiRvaae1 rt) :=
  fun _ => or_and_row (by decide : (0xD5088660 : Half) &&& 0xFFFFFFE0 = 0xD5088660) (place_and_eq_zero _ _ 0xFFFFFFE0 (by decide))

/-- The fixed bits of tlbiRipas2e1. -/
theorem EncodeRow.tlbiRipas2e1 : ∀ rt, EncodeRow.Statement (.tlbiRipas2e1 rt) :=
  fun _ => or_and_row (by decide : (0xD50C8440 : Half) &&& 0xFFFFFFE0 = 0xD50C8440) (place_and_eq_zero _ _ 0xFFFFFFE0 (by decide))

/-- The fixed bits of tlbiRpaos. -/
theorem EncodeRow.tlbiRpaos : ∀ rt, EncodeRow.Statement (.tlbiRpaos rt) :=
  fun _ => or_and_row (by decide : (0xD50E8460 : Half) &&& 0xFFFFFFE0 = 0xD50E8460) (place_and_eq_zero _ _ 0xFFFFFFE0 (by decide))

/-- The fixed bits of cfpRctx. -/
theorem EncodeRow.cfpRctx : ∀ rt, EncodeRow.Statement (.cfpRctx rt) :=
  fun _ => or_and_row (by decide : (0xD50B7380 : Half) &&& 0xFFFFFFE0 = 0xD50B7380) (place_and_eq_zero _ _ 0xFFFFFFE0 (by decide))

/-- The fixed bits of dvpRctx. -/
theorem EncodeRow.dvpRctx : ∀ rt, EncodeRow.Statement (.dvpRctx rt) :=
  fun _ => or_and_row (by decide : (0xD50B73A0 : Half) &&& 0xFFFFFFE0 = 0xD50B73A0) (place_and_eq_zero _ _ 0xFFFFFFE0 (by decide))

/-- The fixed bits of cppRctx. -/
theorem EncodeRow.cppRctx : ∀ rt, EncodeRow.Statement (.cppRctx rt) :=
  fun _ => or_and_row (by decide : (0xD50B73E0 : Half) &&& 0xFFFFFFE0 = 0xD50B73E0) (place_and_eq_zero _ _ 0xFFFFFFE0 (by decide))

/-- The fixed bits of atS1e1r. -/
theorem EncodeRow.atS1e1r : ∀ rt, EncodeRow.Statement (.atS1e1r rt) :=
  fun _ => or_and_row (by decide : (0xD5087800 : Half) &&& 0xFFFFFFE0 = 0xD5087800) (place_and_eq_zero _ _ 0xFFFFFFE0 (by decide))

/-- The fixed bits of mrsRndr. -/
theorem EncodeRow.mrsRndr : ∀ rt, EncodeRow.Statement (.mrsRndr rt) :=
  fun _ => or_and_row (by decide : (0xD53B2400 : Half) &&& 0xFFFFFFE0 = 0xD53B2400) (place_and_eq_zero _ _ 0xFFFFFFE0 (by decide))

/-- The fixed bits of mrsRndrrs. -/
theorem EncodeRow.mrsRndrrs : ∀ rt, EncodeRow.Statement (.mrsRndrrs rt) :=
  fun _ => or_and_row (by decide : (0xD53B2420 : Half) &&& 0xFFFFFFE0 = 0xD53B2420) (place_and_eq_zero _ _ 0xFFFFFFE0 (by decide))

/-- The fixed bits of mrsCntpctEl0. -/
theorem EncodeRow.mrsCntpctEl0 : ∀ rt, EncodeRow.Statement (.mrsCntpctEl0 rt) :=
  fun _ => or_and_row (by decide : (0xD53BE020 : Half) &&& 0xFFFFFFE0 = 0xD53BE020) (place_and_eq_zero _ _ 0xFFFFFFE0 (by decide))

/-- The fixed bits of mrsCntvctEl0. -/
theorem EncodeRow.mrsCntvctEl0 : ∀ rt, EncodeRow.Statement (.mrsCntvctEl0 rt) :=
  fun _ => or_and_row (by decide : (0xD53BE040 : Half) &&& 0xFFFFFFE0 = 0xD53BE040) (place_and_eq_zero _ _ 0xFFFFFFE0 (by decide))

/-- The fixed bits of mrsCntpctssEl0. -/
theorem EncodeRow.mrsCntpctssEl0 : ∀ rt, EncodeRow.Statement (.mrsCntpctssEl0 rt) :=
  fun _ => or_and_row (by decide : (0xD53BE0A0 : Half) &&& 0xFFFFFFE0 = 0xD53BE0A0) (place_and_eq_zero _ _ 0xFFFFFFE0 (by decide))

/-- The fixed bits of mrsCntvctssEl0. -/
theorem EncodeRow.mrsCntvctssEl0 : ∀ rt, EncodeRow.Statement (.mrsCntvctssEl0 rt) :=
  fun _ => or_and_row (by decide : (0xD53BE0C0 : Half) &&& 0xFFFFFFE0 = 0xD53BE0C0) (place_and_eq_zero _ _ 0xFFFFFFE0 (by decide))

/-- The fixed bits of mrsIdAa64smfr0El1. -/
theorem EncodeRow.mrsIdAa64smfr0El1 : ∀ rt, EncodeRow.Statement (.mrsIdAa64smfr0El1 rt) :=
  fun _ => or_and_row (by decide : (0xD53804A0 : Half) &&& 0xFFFFFFE0 = 0xD53804A0) (place_and_eq_zero _ _ 0xFFFFFFE0 (by decide))

/-- The fixed bits of mrsCcsidrEl1. -/
theorem EncodeRow.mrsCcsidrEl1 : ∀ rt, EncodeRow.Statement (.mrsCcsidrEl1 rt) :=
  fun _ => or_and_row (by decide : (0xD5390000 : Half) &&& 0xFFFFFFE0 = 0xD5390000) (place_and_eq_zero _ _ 0xFFFFFFE0 (by decide))

/-- The fixed bits of mrsIsrEl1. -/
theorem EncodeRow.mrsIsrEl1 : ∀ rt, EncodeRow.Statement (.mrsIsrEl1 rt) :=
  fun _ => or_and_row (by decide : (0xD538C100 : Half) &&& 0xFFFFFFE0 = 0xD538C100) (place_and_eq_zero _ _ 0xFFFFFFE0 (by decide))

/-- The fixed bits of mrsNzcv. -/
theorem EncodeRow.mrsNzcv : ∀ rt, EncodeRow.Statement (.mrsNzcv rt) :=
  fun _ => or_and_row (by decide : (0xD53B4200 : Half) &&& 0xFFFFFFE0 = 0xD53B4200) (place_and_eq_zero _ _ 0xFFFFFFE0 (by decide))

/-- The fixed bits of msrNzcv. -/
theorem EncodeRow.msrNzcv : ∀ rt, EncodeRow.Statement (.msrNzcv rt) :=
  fun _ => or_and_row (by decide : (0xD51B4200 : Half) &&& 0xFFFFFFE0 = 0xD51B4200) (place_and_eq_zero _ _ 0xFFFFFFE0 (by decide))

/-- The fixed bits of mrsDaif. -/
theorem EncodeRow.mrsDaif : ∀ rt, EncodeRow.Statement (.mrsDaif rt) :=
  fun _ => or_and_row (by decide : (0xD53B4220 : Half) &&& 0xFFFFFFE0 = 0xD53B4220) (place_and_eq_zero _ _ 0xFFFFFFE0 (by decide))

/-- The fixed bits of msrDaif. -/
theorem EncodeRow.msrDaif : ∀ rt, EncodeRow.Statement (.msrDaif rt) :=
  fun _ => or_and_row (by decide : (0xD51B4220 : Half) &&& 0xFFFFFFE0 = 0xD51B4220) (place_and_eq_zero _ _ 0xFFFFFFE0 (by decide))

/-- The fixed bits of mrsDit. -/
theorem EncodeRow.mrsDit : ∀ rt, EncodeRow.Statement (.mrsDit rt) :=
  fun _ => or_and_row (by decide : (0xD53B42A0 : Half) &&& 0xFFFFFFE0 = 0xD53B42A0) (place_and_eq_zero _ _ 0xFFFFFFE0 (by decide))

/-- The fixed bits of msrDit. -/
theorem EncodeRow.msrDit : ∀ rt, EncodeRow.Statement (.msrDit rt) :=
  fun _ => or_and_row (by decide : (0xD51B42A0 : Half) &&& 0xFFFFFFE0 = 0xD51B42A0) (place_and_eq_zero _ _ 0xFFFFFFE0 (by decide))

/-- The fixed bits of mrsRmrEl1. -/
theorem EncodeRow.mrsRmrEl1 : ∀ rt, EncodeRow.Statement (.mrsRmrEl1 rt) :=
  fun _ => or_and_row (by decide : (0xD538C040 : Half) &&& 0xFFFFFFE0 = 0xD538C040) (place_and_eq_zero _ _ 0xFFFFFFE0 (by decide))

/-- The fixed bits of msrRmrEl1. -/
theorem EncodeRow.msrRmrEl1 : ∀ rt, EncodeRow.Statement (.msrRmrEl1 rt) :=
  fun _ => or_and_row (by decide : (0xD518C040 : Half) &&& 0xFFFFFFE0 = 0xD518C040) (place_and_eq_zero _ _ 0xFFFFFFE0 (by decide))

/-- The fixed bits of mrsRmrEl2. -/
theorem EncodeRow.mrsRmrEl2 : ∀ rt, EncodeRow.Statement (.mrsRmrEl2 rt) :=
  fun _ => or_and_row (by decide : (0xD53CC040 : Half) &&& 0xFFFFFFE0 = 0xD53CC040) (place_and_eq_zero _ _ 0xFFFFFFE0 (by decide))

/-- The fixed bits of msrRmrEl2. -/
theorem EncodeRow.msrRmrEl2 : ∀ rt, EncodeRow.Statement (.msrRmrEl2 rt) :=
  fun _ => or_and_row (by decide : (0xD51CC040 : Half) &&& 0xFFFFFFE0 = 0xD51CC040) (place_and_eq_zero _ _ 0xFFFFFFE0 (by decide))

/-- The fixed bits of mrsRmrEl3. -/
theorem EncodeRow.mrsRmrEl3 : ∀ rt, EncodeRow.Statement (.mrsRmrEl3 rt) :=
  fun _ => or_and_row (by decide : (0xD53EC040 : Half) &&& 0xFFFFFFE0 = 0xD53EC040) (place_and_eq_zero _ _ 0xFFFFFFE0 (by decide))

/-- The fixed bits of msrRmrEl3. -/
theorem EncodeRow.msrRmrEl3 : ∀ rt, EncodeRow.Statement (.msrRmrEl3 rt) :=
  fun _ => or_and_row (by decide : (0xD51EC040 : Half) &&& 0xFFFFFFE0 = 0xD51EC040) (place_and_eq_zero _ _ 0xFFFFFFE0 (by decide))

/-- The fixed bits of pacga. -/
theorem EncodeRow.pacga : ∀ rm rn rd, EncodeRow.Statement (.pacga rm rn rd) :=
  fun _ _ _ => or_and_row (or_and_row (or_and_row (by decide : (0x9AC03000 : Half) &&& 0xFFE0FC00 = 0x9AC03000) (place_and_eq_zero _ _ 0xFFE0FC00 (by decide))) (place_and_eq_zero _ _ 0xFFE0FC00 (by decide))) (place_and_eq_zero _ _ 0xFFE0FC00 (by decide))

/-- The fixed bits of pacia. -/
theorem EncodeRow.pacia : ∀ rn rd, EncodeRow.Statement (.pacia rn rd) :=
  fun _ _ => or_and_row (or_and_row (by decide : (0xDAC10000 : Half) &&& 0xFFFFFC00 = 0xDAC10000) (place_and_eq_zero _ _ 0xFFFFFC00 (by decide))) (place_and_eq_zero _ _ 0xFFFFFC00 (by decide))

/-- The fixed bits of pacib. -/
theorem EncodeRow.pacib : ∀ rn rd, EncodeRow.Statement (.pacib rn rd) :=
  fun _ _ => or_and_row (or_and_row (by decide : (0xDAC10400 : Half) &&& 0xFFFFFC00 = 0xDAC10400) (place_and_eq_zero _ _ 0xFFFFFC00 (by decide))) (place_and_eq_zero _ _ 0xFFFFFC00 (by decide))

/-- The fixed bits of pacda. -/
theorem EncodeRow.pacda : ∀ rn rd, EncodeRow.Statement (.pacda rn rd) :=
  fun _ _ => or_and_row (or_and_row (by decide : (0xDAC10800 : Half) &&& 0xFFFFFC00 = 0xDAC10800) (place_and_eq_zero _ _ 0xFFFFFC00 (by decide))) (place_and_eq_zero _ _ 0xFFFFFC00 (by decide))

/-- The fixed bits of pacdb. -/
theorem EncodeRow.pacdb : ∀ rn rd, EncodeRow.Statement (.pacdb rn rd) :=
  fun _ _ => or_and_row (or_and_row (by decide : (0xDAC10C00 : Half) &&& 0xFFFFFC00 = 0xDAC10C00) (place_and_eq_zero _ _ 0xFFFFFC00 (by decide))) (place_and_eq_zero _ _ 0xFFFFFC00 (by decide))

/-- The fixed bits of autia. -/
theorem EncodeRow.autia : ∀ rn rd, EncodeRow.Statement (.autia rn rd) :=
  fun _ _ => or_and_row (or_and_row (by decide : (0xDAC11000 : Half) &&& 0xFFFFFC00 = 0xDAC11000) (place_and_eq_zero _ _ 0xFFFFFC00 (by decide))) (place_and_eq_zero _ _ 0xFFFFFC00 (by decide))

/-- The fixed bits of autib. -/
theorem EncodeRow.autib : ∀ rn rd, EncodeRow.Statement (.autib rn rd) :=
  fun _ _ => or_and_row (or_and_row (by decide : (0xDAC11400 : Half) &&& 0xFFFFFC00 = 0xDAC11400) (place_and_eq_zero _ _ 0xFFFFFC00 (by decide))) (place_and_eq_zero _ _ 0xFFFFFC00 (by decide))

/-- The fixed bits of autda. -/
theorem EncodeRow.autda : ∀ rn rd, EncodeRow.Statement (.autda rn rd) :=
  fun _ _ => or_and_row (or_and_row (by decide : (0xDAC11800 : Half) &&& 0xFFFFFC00 = 0xDAC11800) (place_and_eq_zero _ _ 0xFFFFFC00 (by decide))) (place_and_eq_zero _ _ 0xFFFFFC00 (by decide))

/-- The fixed bits of autdb. -/
theorem EncodeRow.autdb : ∀ rn rd, EncodeRow.Statement (.autdb rn rd) :=
  fun _ _ => or_and_row (or_and_row (by decide : (0xDAC11C00 : Half) &&& 0xFFFFFC00 = 0xDAC11C00) (place_and_eq_zero _ _ 0xFFFFFC00 (by decide))) (place_and_eq_zero _ _ 0xFFFFFC00 (by decide))

/-- The fixed bits of paciza. -/
theorem EncodeRow.paciza : ∀ rd, EncodeRow.Statement (.paciza rd) :=
  fun _ => or_and_row (by decide : (0xDAC123E0 : Half) &&& 0xFFFFFFE0 = 0xDAC123E0) (place_and_eq_zero _ _ 0xFFFFFFE0 (by decide))

/-- The fixed bits of pacizb. -/
theorem EncodeRow.pacizb : ∀ rd, EncodeRow.Statement (.pacizb rd) :=
  fun _ => or_and_row (by decide : (0xDAC127E0 : Half) &&& 0xFFFFFFE0 = 0xDAC127E0) (place_and_eq_zero _ _ 0xFFFFFFE0 (by decide))

/-- The fixed bits of pacdza. -/
theorem EncodeRow.pacdza : ∀ rd, EncodeRow.Statement (.pacdza rd) :=
  fun _ => or_and_row (by decide : (0xDAC12BE0 : Half) &&& 0xFFFFFFE0 = 0xDAC12BE0) (place_and_eq_zero _ _ 0xFFFFFFE0 (by decide))

/-- The fixed bits of pacdzb. -/
theorem EncodeRow.pacdzb : ∀ rd, EncodeRow.Statement (.pacdzb rd) :=
  fun _ => or_and_row (by decide : (0xDAC12FE0 : Half) &&& 0xFFFFFFE0 = 0xDAC12FE0) (place_and_eq_zero _ _ 0xFFFFFFE0 (by decide))

/-- The fixed bits of autiza. -/
theorem EncodeRow.autiza : ∀ rd, EncodeRow.Statement (.autiza rd) :=
  fun _ => or_and_row (by decide : (0xDAC133E0 : Half) &&& 0xFFFFFFE0 = 0xDAC133E0) (place_and_eq_zero _ _ 0xFFFFFFE0 (by decide))

/-- The fixed bits of autizb. -/
theorem EncodeRow.autizb : ∀ rd, EncodeRow.Statement (.autizb rd) :=
  fun _ => or_and_row (by decide : (0xDAC137E0 : Half) &&& 0xFFFFFFE0 = 0xDAC137E0) (place_and_eq_zero _ _ 0xFFFFFFE0 (by decide))

/-- The fixed bits of autdza. -/
theorem EncodeRow.autdza : ∀ rd, EncodeRow.Statement (.autdza rd) :=
  fun _ => or_and_row (by decide : (0xDAC13BE0 : Half) &&& 0xFFFFFFE0 = 0xDAC13BE0) (place_and_eq_zero _ _ 0xFFFFFFE0 (by decide))

/-- The fixed bits of autdzb. -/
theorem EncodeRow.autdzb : ∀ rd, EncodeRow.Statement (.autdzb rd) :=
  fun _ => or_and_row (by decide : (0xDAC13FE0 : Half) &&& 0xFFFFFFE0 = 0xDAC13FE0) (place_and_eq_zero _ _ 0xFFFFFFE0 (by decide))

/-- The fixed bits of ret. -/
theorem EncodeRow.ret : ∀ rn, EncodeRow.Statement (.ret rn) :=
  fun _ => or_and_row (by decide : (0xD65F0000 : Half) &&& 0xFFFFFC1F = 0xD65F0000) (place_and_eq_zero _ _ 0xFFFFFC1F (by decide))

/-- The fixed bits of retaa. -/
theorem EncodeRow.retaa : EncodeRow.Statement (.retaa) := rfl

/-- The fixed bits of retab. -/
theorem EncodeRow.retab : EncodeRow.Statement (.retab) := rfl

/-- The fixed bits of braaz. -/
theorem EncodeRow.braaz : ∀ rn, EncodeRow.Statement (.braaz rn) :=
  fun _ => or_and_row (by decide : (0xD61F081F : Half) &&& 0xFFFFFC1F = 0xD61F081F) (place_and_eq_zero _ _ 0xFFFFFC1F (by decide))

/-- The fixed bits of brabz. -/
theorem EncodeRow.brabz : ∀ rn, EncodeRow.Statement (.brabz rn) :=
  fun _ => or_and_row (by decide : (0xD61F0C1F : Half) &&& 0xFFFFFC1F = 0xD61F0C1F) (place_and_eq_zero _ _ 0xFFFFFC1F (by decide))

/-- The fixed bits of blraaz. -/
theorem EncodeRow.blraaz : ∀ rn, EncodeRow.Statement (.blraaz rn) :=
  fun _ => or_and_row (by decide : (0xD63F081F : Half) &&& 0xFFFFFC1F = 0xD63F081F) (place_and_eq_zero _ _ 0xFFFFFC1F (by decide))

/-- The fixed bits of blrabz. -/
theorem EncodeRow.blrabz : ∀ rn, EncodeRow.Statement (.blrabz rn) :=
  fun _ => or_and_row (by decide : (0xD63F0C1F : Half) &&& 0xFFFFFC1F = 0xD63F0C1F) (place_and_eq_zero _ _ 0xFFFFFC1F (by decide))

/-- The fixed bits of braa. -/
theorem EncodeRow.braa : ∀ rn rm, EncodeRow.Statement (.braa rn rm) :=
  fun _ _ => or_and_row (or_and_row (by decide : (0xD71F0800 : Half) &&& 0xFFFFFC00 = 0xD71F0800) (place_and_eq_zero _ _ 0xFFFFFC00 (by decide))) (place_and_eq_zero _ _ 0xFFFFFC00 (by decide))

/-- The fixed bits of brab. -/
theorem EncodeRow.brab : ∀ rn rm, EncodeRow.Statement (.brab rn rm) :=
  fun _ _ => or_and_row (or_and_row (by decide : (0xD71F0C00 : Half) &&& 0xFFFFFC00 = 0xD71F0C00) (place_and_eq_zero _ _ 0xFFFFFC00 (by decide))) (place_and_eq_zero _ _ 0xFFFFFC00 (by decide))

/-- The fixed bits of blraa. -/
theorem EncodeRow.blraa : ∀ rn rm, EncodeRow.Statement (.blraa rn rm) :=
  fun _ _ => or_and_row (or_and_row (by decide : (0xD73F0800 : Half) &&& 0xFFFFFC00 = 0xD73F0800) (place_and_eq_zero _ _ 0xFFFFFC00 (by decide))) (place_and_eq_zero _ _ 0xFFFFFC00 (by decide))

/-- The fixed bits of blrab. -/
theorem EncodeRow.blrab : ∀ rn rm, EncodeRow.Statement (.blrab rn rm) :=
  fun _ _ => or_and_row (or_and_row (by decide : (0xD73F0C00 : Half) &&& 0xFFFFFC00 = 0xD73F0C00) (place_and_eq_zero _ _ 0xFFFFFC00 (by decide))) (place_and_eq_zero _ _ 0xFFFFFC00 (by decide))

/-- The fixed bits of eret. -/
theorem EncodeRow.eret : EncodeRow.Statement (.eret) := rfl

/-- The fixed bits of eretaa. -/
theorem EncodeRow.eretaa : EncodeRow.Statement (.eretaa) := rfl

/-- The fixed bits of eretab. -/
theorem EncodeRow.eretab : EncodeRow.Statement (.eretab) := rfl

/-- The fixed bits of drps. -/
theorem EncodeRow.drps : EncodeRow.Statement (.drps) := rfl

/-- The fixed bits of ldra. -/
theorem EncodeRow.ldra : ∀ m sbit imm9 w rn rt, EncodeRow.Statement (.ldra m sbit imm9 w rn rt) :=
  fun _ _ _ _ _ _ => or_and_row (or_and_row (or_and_row (or_and_row (or_and_row (or_and_row (by decide : (0xF8200400 : Half) &&& 0xFF200400 = 0xF8200400) (place_and_eq_zero _ _ 0xFF200400 (by decide))) (place_and_eq_zero _ _ 0xFF200400 (by decide))) (place_and_eq_zero _ _ 0xFF200400 (by decide))) (place_and_eq_zero _ _ 0xFF200400 (by decide))) (place_and_eq_zero _ _ 0xFF200400 (by decide))) (place_and_eq_zero _ _ 0xFF200400 (by decide))

/-- The fixed bits of svc. -/
theorem EncodeRow.svc : ∀ imm16, EncodeRow.Statement (.svc imm16) :=
  fun _ => or_and_row (by decide : (0xD4000001 : Half) &&& 0xFFE0001F = 0xD4000001) (place_and_eq_zero _ _ 0xFFE0001F (by decide))

/-- The fixed bits of hvc. -/
theorem EncodeRow.hvc : ∀ imm16, EncodeRow.Statement (.hvc imm16) :=
  fun _ => or_and_row (by decide : (0xD4000002 : Half) &&& 0xFFE0001F = 0xD4000002) (place_and_eq_zero _ _ 0xFFE0001F (by decide))

/-- The fixed bits of smc. -/
theorem EncodeRow.smc : ∀ imm16, EncodeRow.Statement (.smc imm16) :=
  fun _ => or_and_row (by decide : (0xD4000003 : Half) &&& 0xFFE0001F = 0xD4000003) (place_and_eq_zero _ _ 0xFFE0001F (by decide))

/-- The fixed bits of brk. -/
theorem EncodeRow.brk : ∀ imm16, EncodeRow.Statement (.brk imm16) :=
  fun _ => or_and_row (by decide : (0xD4200000 : Half) &&& 0xFFE0001F = 0xD4200000) (place_and_eq_zero _ _ 0xFFE0001F (by decide))

/-- The fixed bits of hlt. -/
theorem EncodeRow.hlt : ∀ imm16, EncodeRow.Statement (.hlt imm16) :=
  fun _ => or_and_row (by decide : (0xD4400000 : Half) &&& 0xFFE0001F = 0xD4400000) (place_and_eq_zero _ _ 0xFFE0001F (by decide))

/-- The fixed bits of stgOffset. -/
theorem EncodeRow.stgOffset : ∀ imm9 rn rt, EncodeRow.Statement (.stgOffset imm9 rn rt) :=
  fun _ _ _ => or_and_row (or_and_row (or_and_row (by decide : (0xD9200800 : Half) &&& 0xFFE00C00 = 0xD9200800) (place_and_eq_zero _ _ 0xFFE00C00 (by decide))) (place_and_eq_zero _ _ 0xFFE00C00 (by decide))) (place_and_eq_zero _ _ 0xFFE00C00 (by decide))

/-- The fixed bits of stgPost. -/
theorem EncodeRow.stgPost : ∀ imm9 rn rt, EncodeRow.Statement (.stgPost imm9 rn rt) :=
  fun _ _ _ => or_and_row (or_and_row (or_and_row (by decide : (0xD9200400 : Half) &&& 0xFFE00C00 = 0xD9200400) (place_and_eq_zero _ _ 0xFFE00C00 (by decide))) (place_and_eq_zero _ _ 0xFFE00C00 (by decide))) (place_and_eq_zero _ _ 0xFFE00C00 (by decide))

/-- The fixed bits of stgPre. -/
theorem EncodeRow.stgPre : ∀ imm9 rn rt, EncodeRow.Statement (.stgPre imm9 rn rt) :=
  fun _ _ _ => or_and_row (or_and_row (or_and_row (by decide : (0xD9200C00 : Half) &&& 0xFFE00C00 = 0xD9200C00) (place_and_eq_zero _ _ 0xFFE00C00 (by decide))) (place_and_eq_zero _ _ 0xFFE00C00 (by decide))) (place_and_eq_zero _ _ 0xFFE00C00 (by decide))

/-- The fixed bits of stzgm. -/
theorem EncodeRow.stzgm : ∀ rn rt, EncodeRow.Statement (.stzgm rn rt) :=
  fun _ _ => or_and_row (or_and_row (by decide : (0xD9200000 : Half) &&& 0xFFFFFC00 = 0xD9200000) (place_and_eq_zero _ _ 0xFFFFFC00 (by decide))) (place_and_eq_zero _ _ 0xFFFFFC00 (by decide))

/-- The fixed bits of stgm. -/
theorem EncodeRow.stgm : ∀ rn rt, EncodeRow.Statement (.stgm rn rt) :=
  fun _ _ => or_and_row (or_and_row (by decide : (0xD9A00000 : Half) &&& 0xFFFFFC00 = 0xD9A00000) (place_and_eq_zero _ _ 0xFFFFFC00 (by decide))) (place_and_eq_zero _ _ 0xFFFFFC00 (by decide))

/-- The fixed bits of ldgm. -/
theorem EncodeRow.ldgm : ∀ rn rt, EncodeRow.Statement (.ldgm rn rt) :=
  fun _ _ => or_and_row (or_and_row (by decide : (0xD9E00000 : Half) &&& 0xFFFFFC00 = 0xD9E00000) (place_and_eq_zero _ _ 0xFFFFFC00 (by decide))) (place_and_eq_zero _ _ 0xFFFFFC00 (by decide))

/-- The fixed bits of ld64b. -/
theorem EncodeRow.ld64b : ∀ rn rt, EncodeRow.Statement (.ld64b rn rt) :=
  fun _ _ => or_and_row (or_and_row (by decide : (0xF83FD000 : Half) &&& 0xFFFFFC00 = 0xF83FD000) (place_and_eq_zero _ _ 0xFFFFFC00 (by decide))) (place_and_eq_zero _ _ 0xFFFFFC00 (by decide))

/-- The fixed bits of st64b. -/
theorem EncodeRow.st64b : ∀ rn rt, EncodeRow.Statement (.st64b rn rt) :=
  fun _ _ => or_and_row (or_and_row (by decide : (0xF83F9000 : Half) &&& 0xFFFFFC00 = 0xF83F9000) (place_and_eq_zero _ _ 0xFFFFFC00 (by decide))) (place_and_eq_zero _ _ 0xFFFFFC00 (by decide))

/-- The fixed bits of st64bv. -/
theorem EncodeRow.st64bv : ∀ rs rn rt, EncodeRow.Statement (.st64bv rs rn rt) :=
  fun _ _ _ => or_and_row (or_and_row (or_and_row (by decide : (0xF820B000 : Half) &&& 0xFFE0FC00 = 0xF820B000) (place_and_eq_zero _ _ 0xFFE0FC00 (by decide))) (place_and_eq_zero _ _ 0xFFE0FC00 (by decide))) (place_and_eq_zero _ _ 0xFFE0FC00 (by decide))

/-- The fixed bits of st64bv0. -/
theorem EncodeRow.st64bv0 : ∀ rs rn rt, EncodeRow.Statement (.st64bv0 rs rn rt) :=
  fun _ _ _ => or_and_row (or_and_row (or_and_row (by decide : (0xF820A000 : Half) &&& 0xFFE0FC00 = 0xF820A000) (place_and_eq_zero _ _ 0xFFE0FC00 (by decide))) (place_and_eq_zero _ _ 0xFFE0FC00 (by decide))) (place_and_eq_zero _ _ 0xFFE0FC00 (by decide))

/-- The fixed bits of ldxr. -/
theorem EncodeRow.ldxr : ∀ rn rt, EncodeRow.Statement (.ldxr rn rt) :=
  fun _ _ => or_and_row (or_and_row (by decide : (0xC85F7C00 : Half) &&& 0xFFFFFC00 = 0xC85F7C00) (place_and_eq_zero _ _ 0xFFFFFC00 (by decide))) (place_and_eq_zero _ _ 0xFFFFFC00 (by decide))

/-- The fixed bits of ldaxr. -/
theorem EncodeRow.ldaxr : ∀ rn rt, EncodeRow.Statement (.ldaxr rn rt) :=
  fun _ _ => or_and_row (or_and_row (by decide : (0xC85FFC00 : Half) &&& 0xFFFFFC00 = 0xC85FFC00) (place_and_eq_zero _ _ 0xFFFFFC00 (by decide))) (place_and_eq_zero _ _ 0xFFFFFC00 (by decide))

/-- The fixed bits of stxrb. -/
theorem EncodeRow.stxrb : ∀ rs rn rt, EncodeRow.Statement (.stxrb rs rn rt) :=
  fun _ _ _ => or_and_row (or_and_row (or_and_row (by decide : (0x08007C00 : Half) &&& 0xFFE0FC00 = 0x08007C00) (place_and_eq_zero _ _ 0xFFE0FC00 (by decide))) (place_and_eq_zero _ _ 0xFFE0FC00 (by decide))) (place_and_eq_zero _ _ 0xFFE0FC00 (by decide))

/-- The fixed bits of stlxrb. -/
theorem EncodeRow.stlxrb : ∀ rs rn rt, EncodeRow.Statement (.stlxrb rs rn rt) :=
  fun _ _ _ => or_and_row (or_and_row (or_and_row (by decide : (0x0800FC00 : Half) &&& 0xFFE0FC00 = 0x0800FC00) (place_and_eq_zero _ _ 0xFFE0FC00 (by decide))) (place_and_eq_zero _ _ 0xFFE0FC00 (by decide))) (place_and_eq_zero _ _ 0xFFE0FC00 (by decide))

/-- The fixed bits of stxrh. -/
theorem EncodeRow.stxrh : ∀ rs rn rt, EncodeRow.Statement (.stxrh rs rn rt) :=
  fun _ _ _ => or_and_row (or_and_row (or_and_row (by decide : (0x48007C00 : Half) &&& 0xFFE0FC00 = 0x48007C00) (place_and_eq_zero _ _ 0xFFE0FC00 (by decide))) (place_and_eq_zero _ _ 0xFFE0FC00 (by decide))) (place_and_eq_zero _ _ 0xFFE0FC00 (by decide))

/-- The fixed bits of stlxrh. -/
theorem EncodeRow.stlxrh : ∀ rs rn rt, EncodeRow.Statement (.stlxrh rs rn rt) :=
  fun _ _ _ => or_and_row (or_and_row (or_and_row (by decide : (0x4800FC00 : Half) &&& 0xFFE0FC00 = 0x4800FC00) (place_and_eq_zero _ _ 0xFFE0FC00 (by decide))) (place_and_eq_zero _ _ 0xFFE0FC00 (by decide))) (place_and_eq_zero _ _ 0xFFE0FC00 (by decide))

/-- The fixed bits of stxrW. -/
theorem EncodeRow.stxrW : ∀ rs rn rt, EncodeRow.Statement (.stxrW rs rn rt) :=
  fun _ _ _ => or_and_row (or_and_row (or_and_row (by decide : (0x88007C00 : Half) &&& 0xFFE0FC00 = 0x88007C00) (place_and_eq_zero _ _ 0xFFE0FC00 (by decide))) (place_and_eq_zero _ _ 0xFFE0FC00 (by decide))) (place_and_eq_zero _ _ 0xFFE0FC00 (by decide))

/-- The fixed bits of stlxrW. -/
theorem EncodeRow.stlxrW : ∀ rs rn rt, EncodeRow.Statement (.stlxrW rs rn rt) :=
  fun _ _ _ => or_and_row (or_and_row (or_and_row (by decide : (0x8800FC00 : Half) &&& 0xFFE0FC00 = 0x8800FC00) (place_and_eq_zero _ _ 0xFFE0FC00 (by decide))) (place_and_eq_zero _ _ 0xFFE0FC00 (by decide))) (place_and_eq_zero _ _ 0xFFE0FC00 (by decide))

/-- The fixed bits of stxrX. -/
theorem EncodeRow.stxrX : ∀ rs rn rt, EncodeRow.Statement (.stxrX rs rn rt) :=
  fun _ _ _ => or_and_row (or_and_row (or_and_row (by decide : (0xC8007C00 : Half) &&& 0xFFE0FC00 = 0xC8007C00) (place_and_eq_zero _ _ 0xFFE0FC00 (by decide))) (place_and_eq_zero _ _ 0xFFE0FC00 (by decide))) (place_and_eq_zero _ _ 0xFFE0FC00 (by decide))

/-- The fixed bits of stlxrX. -/
theorem EncodeRow.stlxrX : ∀ rs rn rt, EncodeRow.Statement (.stlxrX rs rn rt) :=
  fun _ _ _ => or_and_row (or_and_row (or_and_row (by decide : (0xC800FC00 : Half) &&& 0xFFE0FC00 = 0xC800FC00) (place_and_eq_zero _ _ 0xFFE0FC00 (by decide))) (place_and_eq_zero _ _ 0xFFE0FC00 (by decide))) (place_and_eq_zero _ _ 0xFFE0FC00 (by decide))

/-- The fixed bits of stxpW. -/
theorem EncodeRow.stxpW : ∀ rs rt2 rn rt, EncodeRow.Statement (.stxpW rs rt2 rn rt) :=
  fun _ _ _ _ => or_and_row (or_and_row (or_and_row (or_and_row (by decide : (0x88200000 : Half) &&& 0xFFE08000 = 0x88200000) (place_and_eq_zero _ _ 0xFFE08000 (by decide))) (place_and_eq_zero _ _ 0xFFE08000 (by decide))) (place_and_eq_zero _ _ 0xFFE08000 (by decide))) (place_and_eq_zero _ _ 0xFFE08000 (by decide))

/-- The fixed bits of stlxpW. -/
theorem EncodeRow.stlxpW : ∀ rs rt2 rn rt, EncodeRow.Statement (.stlxpW rs rt2 rn rt) :=
  fun _ _ _ _ => or_and_row (or_and_row (or_and_row (or_and_row (by decide : (0x88208000 : Half) &&& 0xFFE08000 = 0x88208000) (place_and_eq_zero _ _ 0xFFE08000 (by decide))) (place_and_eq_zero _ _ 0xFFE08000 (by decide))) (place_and_eq_zero _ _ 0xFFE08000 (by decide))) (place_and_eq_zero _ _ 0xFFE08000 (by decide))

/-- The fixed bits of stxpX. -/
theorem EncodeRow.stxpX : ∀ rs rt2 rn rt, EncodeRow.Statement (.stxpX rs rt2 rn rt) :=
  fun _ _ _ _ => or_and_row (or_and_row (or_and_row (or_and_row (by decide : (0xC8200000 : Half) &&& 0xFFE08000 = 0xC8200000) (place_and_eq_zero _ _ 0xFFE08000 (by decide))) (place_and_eq_zero _ _ 0xFFE08000 (by decide))) (place_and_eq_zero _ _ 0xFFE08000 (by decide))) (place_and_eq_zero _ _ 0xFFE08000 (by decide))

/-- The fixed bits of stlxpX. -/
theorem EncodeRow.stlxpX : ∀ rs rt2 rn rt, EncodeRow.Statement (.stlxpX rs rt2 rn rt) :=
  fun _ _ _ _ => or_and_row (or_and_row (or_and_row (or_and_row (by decide : (0xC8208000 : Half) &&& 0xFFE08000 = 0xC8208000) (place_and_eq_zero _ _ 0xFFE08000 (by decide))) (place_and_eq_zero _ _ 0xFFE08000 (by decide))) (place_and_eq_zero _ _ 0xFFE08000 (by decide))) (place_and_eq_zero _ _ 0xFFE08000 (by decide))

/-- The fixed bits of movzX. -/
theorem EncodeRow.movzX : ∀ hw imm16 rd, EncodeRow.Statement (.movzX hw imm16 rd) :=
  fun _ _ _ => or_and_row (or_and_row (or_and_row (by decide : (0xD2800000 : Half) &&& 0xFF800000 = 0xD2800000) (place_and_eq_zero _ _ 0xFF800000 (by decide))) (place_and_eq_zero _ _ 0xFF800000 (by decide))) (place_and_eq_zero _ _ 0xFF800000 (by decide))

/-- The fixed bits of movzW. -/
theorem EncodeRow.movzW : ∀ hw imm16 rd, EncodeRow.Statement (.movzW hw imm16 rd) :=
  fun _ _ _ => or_and_row (or_and_row (or_and_row (by decide : (0x52800000 : Half) &&& 0xFFC00000 = 0x52800000) (place_and_eq_zero _ _ 0xFFC00000 (by decide))) (place_and_eq_zero _ _ 0xFFC00000 (by decide))) (place_and_eq_zero _ _ 0xFFC00000 (by decide))

/-- The fixed bits of addX. -/
theorem EncodeRow.addX : ∀ sh imm12 rn rd, EncodeRow.Statement (.addX sh imm12 rn rd) :=
  fun _ _ _ _ => or_and_row (or_and_row (or_and_row (or_and_row (by decide : (0x91000000 : Half) &&& 0xFF800000 = 0x91000000) (place_and_eq_zero _ _ 0xFF800000 (by decide))) (place_and_eq_zero _ _ 0xFF800000 (by decide))) (place_and_eq_zero _ _ 0xFF800000 (by decide))) (place_and_eq_zero _ _ 0xFF800000 (by decide))

/-- The fixed bits of subX. -/
theorem EncodeRow.subX : ∀ sh imm12 rn rd, EncodeRow.Statement (.subX sh imm12 rn rd) :=
  fun _ _ _ _ => or_and_row (or_and_row (or_and_row (or_and_row (by decide : (0xD1000000 : Half) &&& 0xFF800000 = 0xD1000000) (place_and_eq_zero _ _ 0xFF800000 (by decide))) (place_and_eq_zero _ _ 0xFF800000 (by decide))) (place_and_eq_zero _ _ 0xFF800000 (by decide))) (place_and_eq_zero _ _ 0xFF800000 (by decide))

/-- The fixed bits of subsX. -/
theorem EncodeRow.subsX : ∀ sh imm12 rn rd, EncodeRow.Statement (.subsX sh imm12 rn rd) :=
  fun _ _ _ _ => or_and_row (or_and_row (or_and_row (or_and_row (by decide : (0xF1000000 : Half) &&& 0xFF800000 = 0xF1000000) (place_and_eq_zero _ _ 0xFF800000 (by decide))) (place_and_eq_zero _ _ 0xFF800000 (by decide))) (place_and_eq_zero _ _ 0xFF800000 (by decide))) (place_and_eq_zero _ _ 0xFF800000 (by decide))

/-- The fixed bits of addW. -/
theorem EncodeRow.addW : ∀ sh imm12 rn rd, EncodeRow.Statement (.addW sh imm12 rn rd) :=
  fun _ _ _ _ => or_and_row (or_and_row (or_and_row (or_and_row (by decide : (0x11000000 : Half) &&& 0xFF800000 = 0x11000000) (place_and_eq_zero _ _ 0xFF800000 (by decide))) (place_and_eq_zero _ _ 0xFF800000 (by decide))) (place_and_eq_zero _ _ 0xFF800000 (by decide))) (place_and_eq_zero _ _ 0xFF800000 (by decide))

/-- The fixed bits of subW. -/
theorem EncodeRow.subW : ∀ sh imm12 rn rd, EncodeRow.Statement (.subW sh imm12 rn rd) :=
  fun _ _ _ _ => or_and_row (or_and_row (or_and_row (or_and_row (by decide : (0x51000000 : Half) &&& 0xFF800000 = 0x51000000) (place_and_eq_zero _ _ 0xFF800000 (by decide))) (place_and_eq_zero _ _ 0xFF800000 (by decide))) (place_and_eq_zero _ _ 0xFF800000 (by decide))) (place_and_eq_zero _ _ 0xFF800000 (by decide))

/-- The fixed bits of subsW. -/
theorem EncodeRow.subsW : ∀ sh imm12 rn rd, EncodeRow.Statement (.subsW sh imm12 rn rd) :=
  fun _ _ _ _ => or_and_row (or_and_row (or_and_row (or_and_row (by decide : (0x71000000 : Half) &&& 0xFF800000 = 0x71000000) (place_and_eq_zero _ _ 0xFF800000 (by decide))) (place_and_eq_zero _ _ 0xFF800000 (by decide))) (place_and_eq_zero _ _ 0xFF800000 (by decide))) (place_and_eq_zero _ _ 0xFF800000 (by decide))

/-- The fixed bits of orrX. -/
theorem EncodeRow.orrX : ∀ shift rm imm6 rn rd, EncodeRow.Statement (.orrX shift rm imm6 rn rd) :=
  fun _ _ _ _ _ => or_and_row (or_and_row (or_and_row (or_and_row (or_and_row (by decide : (0xAA000000 : Half) &&& 0xFF200000 = 0xAA000000) (place_and_eq_zero _ _ 0xFF200000 (by decide))) (place_and_eq_zero _ _ 0xFF200000 (by decide))) (place_and_eq_zero _ _ 0xFF200000 (by decide))) (place_and_eq_zero _ _ 0xFF200000 (by decide))) (place_and_eq_zero _ _ 0xFF200000 (by decide))

/-- The fixed bits of cbzX. -/
theorem EncodeRow.cbzX : ∀ imm19 rt, EncodeRow.Statement (.cbzX imm19 rt) :=
  fun _ _ => or_and_row (or_and_row (by decide : (0xB4000000 : Half) &&& 0xFF000000 = 0xB4000000) (place_and_eq_zero _ _ 0xFF000000 (by decide))) (place_and_eq_zero _ _ 0xFF000000 (by decide))

/-- The fixed bits of cbnzX. -/
theorem EncodeRow.cbnzX : ∀ imm19 rt, EncodeRow.Statement (.cbnzX imm19 rt) :=
  fun _ _ => or_and_row (or_and_row (by decide : (0xB5000000 : Half) &&& 0xFF000000 = 0xB5000000) (place_and_eq_zero _ _ 0xFF000000 (by decide))) (place_and_eq_zero _ _ 0xFF000000 (by decide))

/-- The fixed bits of cbzW. -/
theorem EncodeRow.cbzW : ∀ imm19 rt, EncodeRow.Statement (.cbzW imm19 rt) :=
  fun _ _ => or_and_row (or_and_row (by decide : (0x34000000 : Half) &&& 0xFF000000 = 0x34000000) (place_and_eq_zero _ _ 0xFF000000 (by decide))) (place_and_eq_zero _ _ 0xFF000000 (by decide))

/-- The fixed bits of cbnzW. -/
theorem EncodeRow.cbnzW : ∀ imm19 rt, EncodeRow.Statement (.cbnzW imm19 rt) :=
  fun _ _ => or_and_row (or_and_row (by decide : (0x35000000 : Half) &&& 0xFF000000 = 0x35000000) (place_and_eq_zero _ _ 0xFF000000 (by decide))) (place_and_eq_zero _ _ 0xFF000000 (by decide))

/-- The fixed bits of bCond. -/
theorem EncodeRow.bCond : ∀ imm19 cond, EncodeRow.Statement (.bCond imm19 cond) :=
  fun _ _ => or_and_row (or_and_row (by decide : (0x54000000 : Half) &&& 0xFF000010 = 0x54000000) (place_and_eq_zero _ _ 0xFF000010 (by decide))) (place_and_eq_zero _ _ 0xFF000010 (by decide))

/-- The fixed bits of b. -/
theorem EncodeRow.b : ∀ imm26, EncodeRow.Statement (.b imm26) :=
  fun _ => or_and_row (by decide : (0x14000000 : Half) &&& 0xFC000000 = 0x14000000) (place_and_eq_zero _ _ 0xFC000000 (by decide))

/-- The fixed bits of strX. -/
theorem EncodeRow.strX : ∀ imm12 rn rt, EncodeRow.Statement (.strX imm12 rn rt) :=
  fun _ _ _ => or_and_row (or_and_row (or_and_row (by decide : (0xF9000000 : Half) &&& 0xFFC00000 = 0xF9000000) (place_and_eq_zero _ _ 0xFFC00000 (by decide))) (place_and_eq_zero _ _ 0xFFC00000 (by decide))) (place_and_eq_zero _ _ 0xFFC00000 (by decide))

/-- The fixed bits of ldrX. -/
theorem EncodeRow.ldrX : ∀ imm12 rn rt, EncodeRow.Statement (.ldrX imm12 rn rt) :=
  fun _ _ _ => or_and_row (or_and_row (or_and_row (by decide : (0xF9400000 : Half) &&& 0xFFC00000 = 0xF9400000) (place_and_eq_zero _ _ 0xFFC00000 (by decide))) (place_and_eq_zero _ _ 0xFFC00000 (by decide))) (place_and_eq_zero _ _ 0xFFC00000 (by decide))

/-- The fixed bits of ldrXPre. -/
theorem EncodeRow.ldrXPre : ∀ imm9 rn rt, EncodeRow.Statement (.ldrXPre imm9 rn rt) :=
  fun _ _ _ => or_and_row (or_and_row (or_and_row (by decide : (0xF8400C00 : Half) &&& 0xFFE00C00 = 0xF8400C00) (place_and_eq_zero _ _ 0xFFE00C00 (by decide))) (place_and_eq_zero _ _ 0xFFE00C00 (by decide))) (place_and_eq_zero _ _ 0xFFE00C00 (by decide))

/-- The fixed bits of movprfx. -/
theorem EncodeRow.movprfx : ∀ zn zd, EncodeRow.Statement (.movprfx zn zd) :=
  fun _ _ => or_and_row (or_and_row (by decide : (0x0420BC00 : Half) &&& 0xFFFFFC00 = 0x0420BC00) (place_and_eq_zero _ _ 0xFFFFFC00 (by decide))) (place_and_eq_zero _ _ 0xFFFFFC00 (by decide))

/-- The fixed bits of movprfxPred. -/
theorem EncodeRow.movprfxPred : ∀ size m pg zn zd, EncodeRow.Statement (.movprfxPred size m pg zn zd) :=
  fun _ _ _ _ _ => or_and_row (or_and_row (or_and_row (or_and_row (or_and_row (by decide : (0x04102000 : Half) &&& 0xFF3EE000 = 0x04102000) (place_and_eq_zero _ _ 0xFF3EE000 (by decide))) (place_and_eq_zero _ _ 0xFF3EE000 (by decide))) (place_and_eq_zero _ _ 0xFF3EE000 (by decide))) (place_and_eq_zero _ _ 0xFF3EE000 (by decide))) (place_and_eq_zero _ _ 0xFF3EE000 (by decide))

/-- The fixed bits of fmmlaS. -/
theorem EncodeRow.fmmlaS : ∀ zm zn zda, EncodeRow.Statement (.fmmlaS zm zn zda) :=
  fun _ _ _ => or_and_row (or_and_row (or_and_row (by decide : (0x64A0E400 : Half) &&& 0xFFE0FC00 = 0x64A0E400) (place_and_eq_zero _ _ 0xFFE0FC00 (by decide))) (place_and_eq_zero _ _ 0xFFE0FC00 (by decide))) (place_and_eq_zero _ _ 0xFFE0FC00 (by decide))

/-- The fixed bits of fmmlaD. -/
theorem EncodeRow.fmmlaD : ∀ zm zn zda, EncodeRow.Statement (.fmmlaD zm zn zda) :=
  fun _ _ _ => or_and_row (or_and_row (or_and_row (by decide : (0x64E0E400 : Half) &&& 0xFFE0FC00 = 0x64E0E400) (place_and_eq_zero _ _ 0xFFE0FC00 (by decide))) (place_and_eq_zero _ _ 0xFFE0FC00 (by decide))) (place_and_eq_zero _ _ 0xFFE0FC00 (by decide))

/-- The fixed bits of fmaxS. -/
theorem EncodeRow.fmaxS : ∀ rm rn rd, EncodeRow.Statement (.fmaxS rm rn rd) :=
  fun _ _ _ => or_and_row (or_and_row (or_and_row (by decide : (0x1E204800 : Half) &&& 0xFFE0FC00 = 0x1E204800) (place_and_eq_zero _ _ 0xFFE0FC00 (by decide))) (place_and_eq_zero _ _ 0xFFE0FC00 (by decide))) (place_and_eq_zero _ _ 0xFFE0FC00 (by decide))

/-- The fixed bits of fmaxD. -/
theorem EncodeRow.fmaxD : ∀ rm rn rd, EncodeRow.Statement (.fmaxD rm rn rd) :=
  fun _ _ _ => or_and_row (or_and_row (or_and_row (by decide : (0x1E604800 : Half) &&& 0xFFE0FC00 = 0x1E604800) (place_and_eq_zero _ _ 0xFFE0FC00 (by decide))) (place_and_eq_zero _ _ 0xFFE0FC00 (by decide))) (place_and_eq_zero _ _ 0xFFE0FC00 (by decide))

/-- The fixed bits of fminS. -/
theorem EncodeRow.fminS : ∀ rm rn rd, EncodeRow.Statement (.fminS rm rn rd) :=
  fun _ _ _ => or_and_row (or_and_row (or_and_row (by decide : (0x1E205800 : Half) &&& 0xFFE0FC00 = 0x1E205800) (place_and_eq_zero _ _ 0xFFE0FC00 (by decide))) (place_and_eq_zero _ _ 0xFFE0FC00 (by decide))) (place_and_eq_zero _ _ 0xFFE0FC00 (by decide))

/-- The fixed bits of fminD. -/
theorem EncodeRow.fminD : ∀ rm rn rd, EncodeRow.Statement (.fminD rm rn rd) :=
  fun _ _ _ => or_and_row (or_and_row (or_and_row (by decide : (0x1E605800 : Half) &&& 0xFFE0FC00 = 0x1E605800) (place_and_eq_zero _ _ 0xFFE0FC00 (by decide))) (place_and_eq_zero _ _ 0xFFE0FC00 (by decide))) (place_and_eq_zero _ _ 0xFFE0FC00 (by decide))

/-- The fixed bits of fmaxnmS. -/
theorem EncodeRow.fmaxnmS : ∀ rm rn rd, EncodeRow.Statement (.fmaxnmS rm rn rd) :=
  fun _ _ _ => or_and_row (or_and_row (or_and_row (by decide : (0x1E206800 : Half) &&& 0xFFE0FC00 = 0x1E206800) (place_and_eq_zero _ _ 0xFFE0FC00 (by decide))) (place_and_eq_zero _ _ 0xFFE0FC00 (by decide))) (place_and_eq_zero _ _ 0xFFE0FC00 (by decide))

/-- The fixed bits of fmaxnmD. -/
theorem EncodeRow.fmaxnmD : ∀ rm rn rd, EncodeRow.Statement (.fmaxnmD rm rn rd) :=
  fun _ _ _ => or_and_row (or_and_row (or_and_row (by decide : (0x1E606800 : Half) &&& 0xFFE0FC00 = 0x1E606800) (place_and_eq_zero _ _ 0xFFE0FC00 (by decide))) (place_and_eq_zero _ _ 0xFFE0FC00 (by decide))) (place_and_eq_zero _ _ 0xFFE0FC00 (by decide))

/-- The fixed bits of fminnmS. -/
theorem EncodeRow.fminnmS : ∀ rm rn rd, EncodeRow.Statement (.fminnmS rm rn rd) :=
  fun _ _ _ => or_and_row (or_and_row (or_and_row (by decide : (0x1E207800 : Half) &&& 0xFFE0FC00 = 0x1E207800) (place_and_eq_zero _ _ 0xFFE0FC00 (by decide))) (place_and_eq_zero _ _ 0xFFE0FC00 (by decide))) (place_and_eq_zero _ _ 0xFFE0FC00 (by decide))

/-- The fixed bits of fminnmD. -/
theorem EncodeRow.fminnmD : ∀ rm rn rd, EncodeRow.Statement (.fminnmD rm rn rd) :=
  fun _ _ _ => or_and_row (or_and_row (or_and_row (by decide : (0x1E607800 : Half) &&& 0xFFE0FC00 = 0x1E607800) (place_and_eq_zero _ _ 0xFFE0FC00 (by decide))) (place_and_eq_zero _ _ 0xFFE0FC00 (by decide))) (place_and_eq_zero _ _ 0xFFE0FC00 (by decide))

/-- The fixed bits of vmovlA32. -/
theorem EncodeRow.vmovlA32 : ∀ u d imm3H vd m vm, EncodeRow.Statement (.vmovlA32 u d imm3H vd m vm) :=
  fun _ _ _ _ _ _ => or_and_row (or_and_row (or_and_row (or_and_row (or_and_row (or_and_row (by decide : (0xF2800A10 : Half) &&& 0xFE870FD0 = 0xF2800A10) (place_and_eq_zero _ _ 0xFE870FD0 (by decide))) (place_and_eq_zero _ _ 0xFE870FD0 (by decide))) (place_and_eq_zero _ _ 0xFE870FD0 (by decide))) (place_and_eq_zero _ _ 0xFE870FD0 (by decide))) (place_and_eq_zero _ _ 0xFE870FD0 (by decide))) (place_and_eq_zero _ _ 0xFE870FD0 (by decide))

/-- The fixed bits of vmovlT32. -/
theorem EncodeRow.vmovlT32 : ∀ u d imm3H vd m vm, EncodeRow.Statement (.vmovlT32 u d imm3H vd m vm) :=
  fun _ _ _ _ _ _ => or_and_row (or_and_row (or_and_row (or_and_row (or_and_row (or_and_row (by decide : (0xEF800A10 : Half) &&& 0xEF870FD0 = 0xEF800A10) (place_and_eq_zero _ _ 0xEF870FD0 (by decide))) (place_and_eq_zero _ _ 0xEF870FD0 (by decide))) (place_and_eq_zero _ _ 0xEF870FD0 (by decide))) (place_and_eq_zero _ _ 0xEF870FD0 (by decide))) (place_and_eq_zero _ _ 0xEF870FD0 (by decide))) (place_and_eq_zero _ _ 0xEF870FD0 (by decide))

/-- The fixed bits of csdbA32. -/
theorem EncodeRow.csdbA32 : ∀ cond, EncodeRow.Statement (.csdbA32 cond) :=
  fun _ => or_and_row (by decide : (0x0320F014 : Half) &&& 0x0FFFFFFF = 0x0320F014) (place_and_eq_zero _ _ 0x0FFFFFFF (by decide))

/-- The fixed bits of csdbT32. -/
theorem EncodeRow.csdbT32 : EncodeRow.Statement (.csdbT32) := rfl

/-- The fixed bits of sbA32. -/
theorem EncodeRow.sbA32 : EncodeRow.Statement (.sbA32) := rfl

/-- The fixed bits of sbT32. -/
theorem EncodeRow.sbT32 : EncodeRow.Statement (.sbT32) := rfl

/-- The fixed bits of mrcDbgdscrint. -/
theorem EncodeRow.mrcDbgdscrint : ∀ cond rt, EncodeRow.Statement (.mrcDbgdscrint cond rt) :=
  fun _ _ => or_and_row (or_and_row (by decide : (0x0E100E11 : Half) &&& 0x0FFF0FFF = 0x0E100E11) (place_and_eq_zero _ _ 0x0FFF0FFF (by decide))) (place_and_eq_zero _ _ 0x0FFF0FFF (by decide))

/-- The fixed bits of mcrPar. -/
theorem EncodeRow.mcrPar : ∀ cond rt, EncodeRow.Statement (.mcrPar cond rt) :=
  fun _ _ => or_and_row (or_and_row (by decide : (0x0E070F14 : Half) &&& 0x0FFF0FFF = 0x0E070F14) (place_and_eq_zero _ _ 0x0FFF0FFF (by decide))) (place_and_eq_zero _ _ 0x0FFF0FFF (by decide))

end Sys2Proof.Laws
end

