-- ==== Sys2Proof/Laws/SysAccess.lean ====
section
/-! SUPPORT. Reading and writing System registers by name: what the gates before an access leave. -/

namespace Sys2Proof.Laws

open Sys2Proof.Machine Sys2Proof.Safety

variable {sel : BitVec 15} {rt : BitVec 5} {r : RegName} {s : State} {w : Bool}

/-- Nested virtualization says nothing of a name outside EL1, without HCR_EL2.NV, or whose op1 is neither 0 nor 4. -/
theorem nvPermission_none
    (h : s.ps.el ≠ .el1 ∨ hcr s 42 = false ∨ (selOp1 sel ≠ 4 ∧ selOp1 sel ≠ 0)) :
    nvPermission sel s = none := by
  unfold nvPermission nvNames
  rcases h with h | h | ⟨h, h'⟩
  · simp [h]
  · simp [h]
  · rw [if_neg (by simp only [Bool.and_eq_true, beq_iff_eq]; exact fun e => h e.2)]
    exact if_neg (fun e => h' e.2.2.2.2)

/-- What is left of the permission once the common gates are passed. -/
theorem permission_own (h1 : nvPermission sel s = none) (h2 : minLevel sel ≤ elNum s.ps.el)
    (h3 : nameExists r w s = true) (h4 : firstTrap sel r w s = false) :
    permission sel r w s = ownTrap r w s := by
  simp [permission, h1, h3, h4, Nat.not_lt.mpr h2]

/-- No trap comes first of a write of a register that neither HCR_EL2.EnSCXT nor ATA names, nor of a read outside the
identification space. -/
theorem firstTrap_none (h1 : w = true ∨ tid3Traps sel (some r) s = false)
    (h2 : ∀ q, r = .stored q → scxtReg q = false ∧ ataReg q = false) : firstTrap sel r w s = false := by
  have e : (!w && tid3Traps sel (some r) s) = false := by rcases h1 with h | h <;> simp [h]
  unfold firstTrap
  rw [e]
  cases r with
  | stored q => simp [h2 q rfl]
  | _ => rfl

/-- An allowed read is performed: only SVCR has a gate of its own. -/
theorem readSys_allowed (h1 : nameOf sel = some r) (h2 : (halted s && isPstateView r) = false)
    (h3 : permission sel r false s = .allowed) (h4 : r ≠ .view .SVCR) :
    readSys sel rt s = performRead sel r rt s := by
  simp only [readSys, h1, h2, h3, if_false, Bool.false_eq_true, accessGate, h4]

/-- An allowed write is performed: only SVCR has a gate of its own. -/
theorem writeSys_allowed (h1 : nameOf sel = some r) (h2 : (halted s && isPstateView r) = false)
    (h3 : permission sel r true s = .allowed) (h4 : r ≠ .view .SVCR) :
    writeSys sel rt s = .next (advance (performWrite sel r (readX rt s) s)) := by
  simp only [writeSys, h1, h2, h3, if_false, Bool.false_eq_true, accessGate, h4]

/-- A read that may not be made is UNDEFINED. -/
theorem readSys_undefined (h1 : nameOf sel = some r) (h2 : (halted s && isPstateView r) = false)
    (h3 : permission sel r false s = .undefined) : readSys sel rt s = undefined s := by
  simp only [readSys, h1, h2, h3, if_false, Bool.false_eq_true]

/-- A write that may not be made is UNDEFINED. -/
theorem writeSys_undefined (h1 : nameOf sel = some r) (h2 : (halted s && isPstateView r) = false)
    (h3 : permission sel r true s = .undefined) : writeSys sel rt s = undefined s := by
  simp only [writeSys, h1, h2, h3, if_false, Bool.false_eq_true]

/-- A trap of an access is an exception with EC 0x18, unless it is UNDEFINED. -/
theorem sysTrap_eq {el : EL} {rd : Bool} (h : ¬(el = .el3 ∧ el3SddUndef s = true)) :
    ∃ iss, sysTrap el sel rt rd s = raise (syncExc el 0x18 iss s) s := by
  unfold sysTrap
  rw [if_neg h]
  exact ⟨_, rfl⟩

/-- A trapped read. -/
theorem readSys_trap {el : EL} (h1 : nameOf sel = some r) (h2 : (halted s && isPstateView r) = false)
    (h3 : permission sel r false s = .trap el) : readSys sel rt s = sysTrap el sel rt true s := by
  simp only [readSys, h1, h2, h3, if_false, Bool.false_eq_true]

/-- A trapped write. -/
theorem writeSys_trap {el : EL} (h1 : nameOf sel = some r) (h2 : (halted s && isPstateView r) = false)
    (h3 : permission sel r true s = .trap el) : writeSys sel rt s = sysTrap el sel rt false s := by
  simp only [writeSys, h1, h2, h3, if_false, Bool.false_eq_true]

/-- A name that is not redirected reaches its own register. -/
theorem reached_same (h : s.ps.el ≠ .el2 ∨ redirect r = r) : reached sel r s = r := by
  unfold reached
  split
  · rename_i e
    exact h.elim (fun c => absurd e.1 c) id
  · rfl

/-- A read of a view, other than a random number, gives the value shown. -/
theorem performRead_view {v : View} (h1 : v ≠ .RNDR) (h2 : v ≠ .RNDRRS)
    (h3 : s.ps.el ≠ .el2 ∨ redirect (.view v) = .view v) :
    performRead sel (.view v) rt s = .next (advance (writeX rt (viewValue v s) s)) := by
  have e : performRead sel (.view v) rt s = .next (advance (writeX rt (regValue (reached sel (.view v) s) s) s)) := by
    cases v <;> first | rfl | (exact absurd rfl h1) | (exact absurd rfl h2)
  rw [e, reached_same h3]
  rfl

/-- A read of a register, other than those with a rule of their own, gives the value it shows. -/
theorem performRead_stored {q : SysReg} (h1 : q ≠ .CCSIDR_EL1) (h2 : q ≠ .CCSIDR2_EL1) (h4 : q ≠ .CNTKCTL_EL1)
    (h3 : s.ps.el ≠ .el2 ∨ redirect (.stored q) = .stored q) :
    performRead sel (.stored q) rt s = .next (advance (writeX rt (storedValue q s) s)) := by
  have e : performRead sel (.stored q) rt s =
      .next (advance (writeX rt (regValue (reached sel (.stored q) s) s) s)) := by
    unfold performRead
    split <;> simp_all
  rw [e, reached_same h3]
  rfl

/-- A write of a view. -/
theorem performWrite_view {v : View} {a : Word} (h3 : s.ps.el ≠ .el2 ∨ redirect (.view v) = .view v) :
    performWrite sel (.view v) a s = writeView v a s := by
  have e : performWrite sel (.view v) a s = writeName (reached sel (.view v) s) a s := rfl
  rw [e, reached_same h3]
  rfl

/-- A write of a register. -/
theorem performWrite_stored {q : SysReg} {a : Word} (h4 : q ≠ .CNTKCTL_EL1)
    (h3 : s.ps.el ≠ .el2 ∨ redirect (.stored q) = .stored q) :
    performWrite sel (.stored q) a s = countWrite q (writeStored q a s) := by
  have e : performWrite sel (.stored q) a s = countWrite q (writeName (reached sel (.stored q) s) a s) := by
    unfold performWrite
    split <;> simp_all
  rw [e, reached_same h3]
  rfl

/-- A write by MSR is a write of the one register. -/
theorem sreg_writeReg_same (q : SysReg) (v : Word) (s : State) (h : sysIdx q < sysRegCount) :
    sreg (writeReg q v s) q = v := by
  unfold writeReg
  split
  · exact sreg_setReg_same q v s h
  · exact sreg_setReg_same q v s h

/-- The others keep their values. -/
theorem sreg_writeReg_other (q p : SysReg) (v : Word) (s : State) (h : sysIdx q ≠ sysIdx p) :
    sreg (writeReg q v s) p = sreg s p := by
  unfold writeReg
  split
  · exact sreg_setReg_other q p v s h
  · exact sreg_setReg_other q p v s h

/-- A write by MSR changes the System registers and the writes not yet synchronised, no more. -/
theorem writeReg_eq (q : SysReg) (v : Word) (s : State) :
    writeReg q v s = { s with sys := (writeReg q v s).sys, pend := (writeReg q v s).pend } := by
  unfold writeReg
  split <;> rfl

/-- The place of every System register is one of the machine's. -/
theorem sysIdx_lt (q : SysReg) : sysIdx q < sysRegCount := by cases q <;> decide

/-- Two System registers have two places. -/
theorem sysIdx_inj {q p : SysReg} (h : sysIdx q = sysIdx p) : q = p := by
  rw [← SysReg.ofNat_ctorIdx q, ← SysReg.ofNat_ctorIdx p]
  exact congrArg SysReg.ofNat h

/-- Counting a write of a register changes the event counters and what was counted, for three names alone. -/
theorem countWrite_eq (q : SysReg) (s : State) :
    countWrite q s = { s with pmevcntr := (countWrite q s).pmevcntr, counted := (countWrite q s).counted } ∧
      (q ∉ [.CONTEXTIDR_EL1, .TTBR0_EL1, .TTBR1_EL1] → countWrite q s = s) := by
  constructor
  · unfold countWrite countOnce
    cases q <;> simp <;> split <;> (try split) <;> first | rfl | (rw [countEvent_eq])
  · intro h
    cases q <;> simp at h <;> rfl

/-- A write of a stored register but PMCR_EL0 and RMR_ELx is that of the value `msrValue` gives. -/
theorem writeStored_eq {p : SysReg} (h : p ≠ .PMCR_EL0) (hr : p ∉ rmrRegs) (v : Word) (s : State) :
    writeStored p v s = writeReg p (msrValue p v s) s := by
  have e : v &&& 18446744073709551615#64 = v := by
    rw [show 18446744073709551615#64 = BitVec.allOnes 64 from rfl, BitVec.and_allOnes]
  cases p <;> simp [writeStored, msrValue, rmrRegs, pointerValue, implMask, e] at h hr ⊢

end Sys2Proof.Laws
end

