-- ==== Sys2Proof/Tests/Slice0.lean ====
section
/-! SUPPORT. Tests: the well-formedness checks refuse, the words of the table decode, single steps give what the spec
says, and the hypotheses of the statements can be met. -/

namespace Sys2Proof.Tests

set_option Elab.async false

open Sys2Proof.Machine Sys2Proof.Safety

/-! ### Well-formedness: an ill-formed term for each check -/

theorem test_wf_refuses_generic_mrs_of_named : Instr.wf (.mrs 1 3 4 2 0 1) = false ∧ Instr.wf (.mrs 1 0 1 0 0 1) = true := by
  decide

theorem test_wf_refuses_generic_msr_of_named : Instr.wf (.msr 1 6 12 0 2 1) = false ∧ Instr.wf (.msr 1 0 1 0 0 1) = true := by
  decide

theorem test_wf_refuses_generic_sys_of_named : Instr.wf (.sys 3 7 4 1 5) = false ∧ Instr.wf (.sys 0 7 1 0 31) = true := by
  decide

theorem test_wf_refuses_generic_sys_without_register : Instr.wf (.sys 4 8 7 4 31) = false ∧
    Instr.wf (.sys 4 8 7 4 0) = true := by decide

theorem test_wf_refuses_vmovl_of_size_zero : Instr.wf (.vmovlA32 0 0 0 0 0 0) = false ∧
    Instr.wf (.vmovlT32 1 0 0 2 0 1) = false ∧ Instr.wf (.vmovlA32 0 0 1 0 0 0) = true := by decide

theorem test_wf_refuses_condition_15 : Instr.wf (.csdbA32 15) = false ∧ Instr.wf (.mrcDbgdscrint 15 0) = false ∧
    Instr.wf (.mcrPar 15 0) = false ∧ Instr.wf (.mcrPar 14 0) = true := by decide

/-! ### Decoding: a word of each row, written from the opcode table -/

/-- Each word of a list decodes to the instruction beside it. -/
def readsAs (l : List (Nat × Instr)) : Bool := l.all fun p => decodeTableWord 32 p.1 == some p.2

theorem test_words_hints_and_barriers : readsAs [
  (0xD503201F, .nop),
  (0xD503205F, .wfe),
  (0xD503207F, .wfi),
  (0xD503229F, .csdb),
  (0xD503241F, .bti),
  (0xD503245F, .btiC),
  (0xD503249F, .btiJ),
  (0xD50324DF, .btiJC),
  (0xD5031011, .wfet 17),
  (0xD5031031, .wfit 17),
  (0xD50330FF, .sb),
  (0xD5033FDF, .isb),
  (0xD503399F, .dsb 9),
  (0xD50339BF, .dmb 9),
  (0xD503363F, .dsbNXS 1),
  (0xD503395F, .clrex 9)] = true := by decide +kernel

theorem test_words_pointer_authentication_1 : readsAs [
  (0xD503211F, .pacia1716),
  (0xD503215F, .pacib1716),
  (0xD503219F, .autia1716),
  (0xD50321DF, .autib1716),
  (0xD503231F, .paciaz),
  (0xD503233F, .paciasp),
  (0xD503235F, .pacibz),
  (0xD503237F, .pacibsp),
  (0xD503239F, .autiaz),
  (0xD50323BF, .autiasp),
  (0xD50323DF, .autibz),
  (0xD50323FF, .autibsp),
  (0x9AD13145, .pacga 17 10 5),
  (0xDAC1022A, .pacia 17 10),
  (0xDAC1062A, .pacib 17 10),
  (0xDAC10A2A, .pacda 17 10),
  (0xDAC10E2A, .pacdb 17 10),
  (0xDAC1122A, .autia 17 10),
  (0xDAC1162A, .autib 17 10),
  (0xDAC11A2A, .autda 17 10),
  (0xDAC11E2A, .autdb 17 10),
  (0xDAC123F1, .paciza 17),
  (0xDAC127F1, .pacizb 17),
  (0xDAC12BF1, .pacdza 17)] = true := by decide +kernel

theorem test_words_pointer_authentication_2 : readsAs [
  (0xDAC12FF1, .pacdzb 17),
  (0xDAC133F1, .autiza 17),
  (0xDAC137F1, .autizb 17),
  (0xDAC13BF1, .autdza 17),
  (0xDAC13FF1, .autdzb 17)] = true := by decide +kernel

theorem test_words_system_registers_1 : readsAs [
  (0xD50349DF, .msrDaifSetImm 9),
  (0xD50349FF, .msrDaifClrImm 9),
  (0xD503493F, .msrSsbsImm 9),
  (0xD503495F, .msrDitImm 9),
  (0xD503499F, .msrTcoImm 9),
  (0xD50049BF, .msrSpselImm 9),
  (0xD53BD045, .mrs 1 3 13 0 2 5),
  (0xD51BD045, .msr 1 3 13 0 2 5),
  (0xD53B2411, .mrsRndr 17),
  (0xD53B2431, .mrsRndrrs 17),
  (0xD53BE031, .mrsCntpctEl0 17),
  (0xD53BE051, .mrsCntvctEl0 17),
  (0xD53BE0B1, .mrsCntpctssEl0 17),
  (0xD53BE0D1, .mrsCntvctssEl0 17),
  (0xD53804B1, .mrsIdAa64smfr0El1 17),
  (0xD5390011, .mrsCcsidrEl1 17),
  (0xD538C111, .mrsIsrEl1 17),
  (0xD53B4211, .mrsNzcv 17),
  (0xD51B4211, .msrNzcv 17),
  (0xD53B4231, .mrsDaif 17),
  (0xD51B4231, .msrDaif 17),
  (0xD53B42B1, .mrsDit 17),
  (0xD51B42B1, .msrDit 17),
  (0xD538C051, .mrsRmrEl1 17)] = true := by decide +kernel

theorem test_words_system_registers_2 : readsAs [
  (0xD518C051, .msrRmrEl1 17),
  (0xD53CC051, .mrsRmrEl2 17),
  (0xD51CC051, .msrRmrEl2 17),
  (0xD53EC051, .mrsRmrEl3 17),
  (0xD51EC051, .msrRmrEl3 17)] = true := by decide +kernel

theorem test_words_system_instructions : readsAs [
  (0xD5087827, .sys 0 7 8 1 7),
  (0xD52B7529, .sysl 3 7 5 1 9),
  (0xD50B7431, .dcZva 17),
  (0xD50B7471, .dcGva 17),
  (0xD50B7491, .dcGzva 17),
  (0xD50B7E31, .dcCivac 17),
  (0xD50B7E71, .dcCigvac 17),
  (0xD50B7EB1, .dcCigdvac 17),
  (0xD50B7531, .icIvau 17),
  (0xD50C7E11, .dcCipae 17),
  (0xD50C7EF1, .dcCigdpae 17),
  (0xD50C879F, .tlbiAlle1),
  (0xD50C979F, .tlbiAlle1nxs),
  (0xD5088631, .tlbiRvae1 17),
  (0xD5088671, .tlbiRvaae1 17),
  (0xD50C8451, .tlbiRipas2e1 17),
  (0xD50E8471, .tlbiRpaos 17),
  (0xD50B7391, .cfpRctx 17),
  (0xD50B73B1, .dvpRctx 17),
  (0xD50B73F1, .cppRctx 17),
  (0xD5087811, .atS1e1r 17)] = true := by decide +kernel

theorem test_words_branches_and_exceptions_1 : readsAs [
  (0xD65F0220, .ret 17),
  (0xD65F0BFF, .retaa),
  (0xD65F0FFF, .retab),
  (0xD61F0A3F, .braaz 17),
  (0xD61F0E3F, .brabz 17),
  (0xD63F0A3F, .blraaz 17),
  (0xD63F0E3F, .blrabz 17),
  (0xD71F0A2A, .braa 17 10),
  (0xD71F0E2A, .brab 17 10),
  (0xD73F0A2A, .blraa 17 10),
  (0xD73F0E2A, .blrab 17 10),
  (0xD69F03E0, .eret),
  (0xD69F0BFF, .eretaa),
  (0xD69F0FFF, .eretab),
  (0xD6BF03E0, .drps),
  (0xD417DDE1, .svc 48879),
  (0xD417DDE2, .hvc 48879),
  (0xD417DDE3, .smc 48879),
  (0xD437DDE0, .brk 48879),
  (0xD457DDE0, .hlt 48879),
  (0xB4B4B4B1, .cbzX 370085 17),
  (0xB5B4B4B1, .cbnzX 370085 17),
  (0x34B4B4B1, .cbzW 370085 17),
  (0x35B4B4B1, .cbnzW 370085 17)] = true := by decide +kernel

theorem test_words_branches_and_exceptions_2 : readsAs [
  (0x54B4B4A9, .bCond 370085 9),
  (0x16ABCDEF, .b 44813807)] = true := by decide +kernel

theorem test_words_base_subset : readsAs [
  (0xF8B55E2A, .ldra 1 0 341 1 17 10),
  (0xD2B7DDF1, .movzX 1 48879 17),
  (0x52B7DDF1, .movzW 1 48879 17),
  (0x916AF22A, .addX 1 2748 17 10),
  (0xD16AF22A, .subX 1 2748 17 10),
  (0xF16AF22A, .subsX 1 2748 17 10),
  (0x116AF22A, .addW 1 2748 17 10),
  (0x516AF22A, .subW 1 2748 17 10),
  (0x716AF22A, .subsW 1 2748 17 10),
  (0xAA519545, .orrX 1 17 37 10 5),
  (0xF92AF22A, .strX 2748 17 10),
  (0xF96AF22A, .ldrX 2748 17 10),
  (0xF8555E2A, .ldrXPre 341 17 10)] = true := by decide +kernel

theorem test_words_tags_and_exclusives : readsAs [
  (0xD9355A2A, .stgOffset 341 17 10),
  (0xD935562A, .stgPost 341 17 10),
  (0xD9355E2A, .stgPre 341 17 10),
  (0xD920022A, .stzgm 17 10),
  (0xD9A0022A, .stgm 17 10),
  (0xD9E0022A, .ldgm 17 10),
  (0xF83FD22A, .ld64b 17 10),
  (0xF83F922A, .st64b 17 10),
  (0xF831B145, .st64bv 17 10 5),
  (0xF831A145, .st64bv0 17 10 5),
  (0xC85F7E2A, .ldxr 17 10),
  (0xC85FFE2A, .ldaxr 17 10),
  (0x08117D45, .stxrb 17 10 5),
  (0x0811FD45, .stlxrb 17 10 5),
  (0x48117D45, .stxrh 17 10 5),
  (0x4811FD45, .stlxrh 17 10 5),
  (0x88117D45, .stxrW 17 10 5),
  (0x8811FD45, .stlxrW 17 10 5),
  (0xC8117D45, .stxrX 17 10 5),
  (0xC811FD45, .stlxrX 17 10 5),
  (0x883128AC, .stxpW 17 10 5 12),
  (0x8831A8AC, .stlxpW 17 10 5 12),
  (0xC83128AC, .stxpX 17 10 5 12),
  (0xC831A8AC, .stlxpX 17 10 5 12)] = true := by decide +kernel

theorem test_words_vectors : readsAs [
  (0x0420BE2A, .movprfx 17 10),
  (0x04913551, .movprfxPred 2 1 5 10 17),
  (0x64B1E545, .fmmlaS 17 10 5),
  (0x64F1E545, .fmmlaD 17 10 5),
  (0x1E314945, .fmaxS 17 10 5),
  (0x1E714945, .fmaxD 17 10 5),
  (0x1E315945, .fminS 17 10 5),
  (0x1E715945, .fminD 17 10 5),
  (0x1E316945, .fmaxnmS 17 10 5),
  (0x1E716945, .fmaxnmD 17 10 5),
  (0x1E317945, .fminnmS 17 10 5),
  (0x1E717945, .fminnmD 17 10 5)] = true := by decide +kernel

theorem test_words_aarch32 : readsAs [
  (0xF3884A37, .vmovlA32 1 0 1 4 1 7),
  (0xFFA02A37, .vmovlT32 1 0 4 2 1 7),
  (0x9320F014, .csdbA32 9),
  (0xF3AF8014, .csdbT32),
  (0xF57FF070, .sbA32),
  (0xF3BF8F70, .sbT32),
  (0x9E103E11, .mrcDbgdscrint 9 3),
  (0x9E073F14, .mcrPar 9 3)] = true := by decide +kernel

theorem test_reserved_words_refused : decodeTableWord 32 0xFFFFFFFF = none ∧ decodeTableWord 32 0xD503221F = none ∧
    decode .a64 [0, 0, 0, 0] = .error .udf ∧ decode .t32 [0, 0xBF, 0, 0] = .error .narrowT32 := ⟨rfl, rfl, rfl, rfl⟩

theorem test_encode_bytes : encode (.movzX 0 3 1) = [0x61, 0x00, 0x80, 0xD2] ∧
    encode .csdbT32 = [0xAF, 0xF3, 0x14, 0x80] := by decide

/-! ### Small states -/

/-- The machine after reset. -/
abbrev r0 : State := .reset

/-- It at another Exception level. -/
def atEL (el : EL) : State := { r0 with ps := { r0.ps with el := el } }

/-- A System register made a value. -/
def put (r : SysReg) (v : Word) (s : State) : State := setReg r v s

/-- EL1 and EL0 with the lower levels in AArch64 and SCTLR_EL1 a value. -/
def low (el : EL) (sctlr : Word) : State := put .SCR_EL3 0x401 (put .HCR_EL2 0x20080000000 (put .SCTLR_EL1 sctlr (atEL el)))

/-- In Debug state. -/
def debugged (s : State) : State := { s with dbg := { s.dbg with edscr := 0x13, edprsr := 0x10 } }

/-- Registers that all hold one value. -/
def allX (v : Word) (s : State) : State := { s with x := .replicate 31 v }

/-- Other implementation parameters. -/
def cfgBy (f : Config → Config) (s : State) : State := { s with cfg := f s.cfg }

/-- All of memory of one type. -/
def memType (t : MemType) (s : State) : State := cfgBy (fun c => { c with memMap := [⟨0, 2 ^ 52, t, true, none⟩] }) s

/-- The next state of a result, tested. -/
def goesTo (p : State → Bool) : Result → Bool
  | .next t => p t
  | _ => false

/-- A result that is tested true goes on. -/
theorem goesTo_next {p : State → Bool} : {r : Result} → goesTo p r = true → ∃ t, r = .next t ∧ p t = true
  | .next t => fun h => ⟨t, rfl, h⟩
  | .fault _ => nofun
  | .refused _ => nofun

/-- A location computation, tested. -/
def locates {α : Type} (p : α → State → Bool) : Loc α → Bool
  | .ok a s => p a s
  | .fault _ _ _ => false

/-- A location computation that is tested true gives a value. -/
theorem locates_ok {α : Type} {p : α → State → Bool} : {m : Loc α} → locates p m = true →
    ∃ a s, m = .ok a s ∧ p a s = true
  | .ok a s => fun h => ⟨a, s, rfl, h⟩
  | .fault _ _ _ => nofun

/-- A computation that faults, tested. -/
def faults {α : Type} (p : AbortKind → Word → State → Bool) : Loc α → Bool
  | .ok _ _ => false
  | .fault k va s => p k va s

/-- A location computation that is tested to fault does. -/
theorem faults_with {α : Type} {p : AbortKind → Word → State → Bool} : {m : Loc α} → faults p m = true →
    ∃ k va s, m = .fault k va s ∧ p k va s = true
  | .fault k va s => fun h => ⟨k, va, s, rfl, h⟩
  | .ok _ _ => nofun

/-! ### Single steps; the expected values are those of the rules' worked examples or computed by hand from them -/

/-- 45_base_subset.md R187: a W result is zero-extended, and `0 - 1` wraps. -/
theorem test_subW_wraps : goesTo (fun t => readX 2 t == 0xFFFFFFFF && t.pc == 4) (exec (.subW 0 1 1 2) r0) = true := by
  decide +kernel

/-- 45_base_subset.md R194: `0 - 1` has N 1, Z 0, C 0 (a borrow), V 0; register 31 discards the result. -/
theorem test_subs_flags : goesTo (fun t => flagsOf t == [true, false, false, false] && t.sp == r0.sp && readX 31 t == 0)
    (exec (.subsX 0 1 1 31) r0) = true := by decide +kernel

/-- 45_base_subset.md R193: X1 = 0x1000, memory[0x1008..0x100F] = 0x1122334455667788, LDR X0, [X1, #8]!. -/
theorem test_ldr_pre : goesTo (fun t => readX 0 t == 0x1122334455667788 && readX 1 t == 0x1008)
    (exec (.ldrXPre 8 1 0) (loadBytes [0x88, 0x77, 0x66, 0x55, 0x44, 0x33, 0x22, 0x11] (physKey .root 0x1008)
      (writeX 1 0x1000 r0))) = true := by decide +kernel

/-- 45_base_subset.md R188: MSR RMR_EL3, X1 with X1 = 3 requests a Warm reset. -/
theorem test_msr_rmr : goesTo (fun t => t.warmReset == .requested && sreg t .RMR_EL3 == 3)
    (exec (.msrRmrEl3 1) (writeX 1 3 r0)) = true := by decide +kernel

/-- 60_exceptions.md R200: SVC at EL3 with SP_EL3 goes to VBAR_EL3 + 0x200 and saves the address of the next
instruction; the syndrome is EC 0x15, IL, the immediate. -/
theorem test_svc : goesTo (fun t => t.pc == 0x10200 && sreg t .ELR_EL3 == 4 && sreg t .ESR_EL3 == 0x5600002A)
    (exec (.svc 42) (put .VBAR_EL3 0x10000 r0)) = true := by decide +kernel

/-- 60_exceptions.md R200: from EL0 the group is 0x400, the target EL1. -/
theorem test_brk_from_el0 : goesTo (fun t => t.pc == 0x400 && t.ps.el == .el1 && sreg t .ESR_EL1 == 0xF2000001)
    (exec (.brk 1) (low .el0 0)) = true := by decide +kernel

/-- 60_exceptions.md R201: ERET to EL1 with SP_EL1. -/
theorem test_eret : goesTo (fun t => t.pc == 0x2000 && t.ps.el == .el1 && t.ps.spsel && t.ps.n)
    (exec .eret (put .ELR_EL3 0x2000 (put .SPSR_EL3 0x80000005 (put .SCR_EL3 0x400 r0)))) = true := by decide +kernel

/-- 42_loadstore_mte_atomics.md R160: a store-exclusive to an address that is not a multiple of its size takes an
Alignment fault, whatever SCTLR_ELx.A is. -/
theorem test_stxr_unaligned : goesTo (fun t => sreg t .ESR_EL3 == 0x96000061 && sreg t .FAR_EL3 == 4)
    (exec (.stxrX 0 2 1) (writeX 2 4 r0)) = true := by decide +kernel

/-- 45_base_subset.md R195: without a reservation STXR writes 1 to Ws and stores nothing. -/
theorem test_stxr_fails : goesTo (fun t => readX 0 t == 1 && t.mem == []) (exec (.stxrX 0 2 1) (allX 8 r0)) = true := by
  decide +kernel

/-- 41_system_instructions.md R144: DC ZVA zeroes the whole 64-byte block and no byte beside it. -/
theorem test_dc_zva : goesTo (fun t => t.mem == [(physKey .root 0x7F, 9), (physKey .root 0xC0, 9)])
    (exec (.dcZva 1) (loadBytes [9] (physKey .root 0xC0) (loadBytes [9, 9] (physKey .root 0x7F)
      (writeX 1 0x8B r0)))) = true := by decide +kernel

/-- 43_fp_sve_sme.md R181: with AH 0 the larger of -0 and +0 is +0; with AH 1 FMAX gives its second operand. -/
theorem test_fmax_zeros : fpMinMax true false false 0x80000000#32 0 = 0 ∧
    fpMinMax true true false (0 : BitVec 32) 0x80000000 = 0x80000000 ∧
    fpMinMaxNum true false false 0x7FC00000#32 0x3F800000 = 0x3F800000 := by decide +kernel

/-- 92_eei_decisions.md D3: execution that runs off the top of the address space stops. -/
theorem test_off_top : finish (exec .nop { r0 with pc := 0xFFFFFFFFFFFFFFFC }) = .fault .pcOffTop := rfl

/-- 45_base_subset.md R190: a wait goes on until an interrupt is pending; 60_exceptions.md R249: or, of WFE, the Event Register is set. -/
theorem test_waits : wakesNow ⟨false, none⟩ r0 = false ∧
    wakesNow ⟨false, none⟩ { r0 with intr := { r0.intr with irq := true } } = true ∧
    wakesNow ⟨true, none⟩ { r0 with eventReg := true } = true ∧ wakesNow ⟨false, none⟩ { r0 with eventReg := true } = false := by
  decide +kernel

/-- 61_debug_pmu_trace.md R309: LDST is 0 for an atomic operation that returns a value, 1 for a store; R287: 384 bits are rounded up. -/
theorem test_spe_operation : speOperation (.access true 0x21) r0 = some (.loadStore, 0x20) ∧
    speOperation (.access false 0) r0 = some (.loadStore, 1) ∧ speEvlLength 384 = 512 := by decide +kernel

/-- 61_debug_pmu_trace.md R257: a predicated load without zeroing has PRED 0, a predicated store 1. -/
theorem test_spe_pred : spePred true true false r0 = false ∧ spePred true false false r0 = true := by decide +kernel

/-- 61_debug_pmu_trace.md R260: an event of exception entry is counted there alone. -/
theorem test_counted_elsewhere : countedElsewhere 0x0081 = true ∧ countedElsewhere 0x008F = true ∧ countedElsewhere 0x0011 = false := by
  decide +kernel

/-- 61_debug_pmu_trace.md R282: CFI, bits [11:10], is defined with FI 0b10. -/
theorem test_err_cfi : errCfi ⟨0xC80, 0⟩ = some 3 ∧ errCfi ⟨0xC40, 0⟩ = none := by
  decide +kernel

/-! ### The hypotheses of the statements can be met: a witness for each statement and clause -/

theorem witness_StepKeepsCanonical : ∃ s t, Canonical s ∧ step s = .next t := by
  obtain ⟨t, h, _⟩ := goesTo_next (p := fun _ => true) (r := step r0) (by decide +kernel)
  exact ⟨r0, t, .intro (by decide +kernel) (by decide +kernel), h⟩

theorem witness_StepKeepsHaltedAgrees : (∃ s t, HaltedAgrees s ∧ halted s = false ∧ step s = .next t) ∧
    (∃ s t, HaltedAgrees s ∧ halted s = true ∧ step s = .next t) := by
  obtain ⟨t, h, _⟩ := goesTo_next (p := fun _ => true) (r := step r0) (by decide +kernel)
  obtain ⟨u, g, _⟩ := goesTo_next (p := fun _ => true) (r := step (debugged r0)) (by decide +kernel)
  exact ⟨⟨r0, t, by unfold HaltedAgrees; decide +kernel, by decide +kernel, h⟩, ⟨debugged r0, u, by unfold HaltedAgrees; decide +kernel, by decide +kernel, g⟩⟩

theorem witness_LevelRisesOnlyByException : ∃ s t, s.warmReset = .none ∧ s.movprfx = none ∧ step s = .next t ∧
    elNum s.ps.el < elNum t.ps.el := by
  obtain ⟨t, h, e⟩ := goesTo_next (p := fun t => elNum t.ps.el == 1) (r := step (low .el0 0)) (by decide +kernel)
  exact ⟨low .el0 0, t, by decide +kernel, rfl, h, by rw [beq_iff_eq.mp e]; decide +kernel⟩

theorem witness_PrivilegedRegistersKeptAtEL0 : ∃ s t r, s.ps.el = .el0 ∧ s.warmReset = .none ∧ step s = .next t ∧
    r ∈ privileged := by
  obtain ⟨t, h, _⟩ := goesTo_next (p := fun _ => true) (r := step (low .el0 0)) (by decide +kernel)
  exact ⟨low .el0 0, t, .SCTLR_EL1, by decide +kernel, by decide +kernel, h, by decide +kernel⟩

theorem witness_DecodeEncode : Instr.wf (.ldra 1 1 0x1FF 1 31 31) = true ∧ Instr.wf (.mrs 1 7 15 15 7 31) = true ∧
    Instr.wf (.vmovlT32 1 1 7 15 1 15) = true ∧ Instr.wf (.mcrPar 14 15) = true := by decide +kernel

theorem witness_StepRunsDecodedInstruction : ∃ s s1 xs i,
    (s.agents = [] ∧ halted s = false ∧ s.warmReset = .none ∧ chosenInterrupt s = none ∧ s.waiting = none ∧ softStep s = false ∧
      s.ps.il = false ∧ pcAligned s = true) ∧ fetchLocs s = .ok xs s1 ∧ breakpointEvent s1 = none ∧ (∀ x ∈ xs, staleAt x s1 = false) ∧
    decode (curIsa s) (xs.map fun x => readByte x.key s1) = .ok (i, []) ∧ i.wf = true ∧
    (xs.any (·.guarded) = false ∨ btiCompatible i s1 = true) ∧ s1.movprfx = none ∧
    ∃ t, exec i s1 = .next t ∧ t.offTop = false := by
  have hd : decode .a64 [0x1F#8, 0x20#8, 0x03#8, 0xD5#8] = .ok (.nop, []) := rfl
  obtain ⟨xs, s1, h, p⟩ := locates_ok (m := fetchLocs (r0.withFetchWord 32 0xD503201F))
    (p := fun xs u => (breakpointEvent u).isNone && xs.all (!staleAt · u) && !xs.any (·.guarded) && u.movprfx.isNone && !lastPc u && !u.offTop &&
      (xs.map fun x => readByte x.key u) == [0x1F#8, 0x20#8, 0x03#8, 0xD5#8]) (by decide +kernel)
  simp only [Bool.and_eq_true, Bool.not_eq_true', List.all_eq_true, beq_iff_eq, Option.isNone_iff_eq_none] at p
  obtain ⟨⟨⟨⟨⟨⟨p0, p1⟩, p2⟩, p3⟩, p4⟩, p5⟩, p6⟩ := p
  refine ⟨r0.withFetchWord 32 0xD503201F, s1, xs, .nop, by decide +kernel, h, p0, p1, ?_, by decide, .inl p2, p3, _, rfl, ?_⟩
  · rw [p6]; exact hd
  · have := (Sys2Proof.Laws.nextPc_advance (s := s1) (u := s1) rfl rfl rfl rfl).2.1
    rw [this, p4, p5]; rfl

/-- A Warm reset leaves the implementation parameters. -/
theorem takeWarmReset_cfg (ro : SysReg → Bool) (all : List SysReg) (s : State) : (takeWarmReset ro all s).cfg = s.cfg := by
  have fold : ∀ (l : List SysReg) (a : State), (l.foldl (fun acc r => setReg r (resetSysReg ro r s) acc) a).cfg = a.cfg := by
    intro l
    induction l with
    | nil => intro a; rfl
    | cons r l ih => intro a; exact (ih _).trans rfl
  unfold takeWarmReset
  simp only [smeStateChange, resetMicro, resetRegisters, Bool.false_eq_true, if_false]
  split <;> exact fold all s

theorem witness_ResetLeaves : ∃ s t, t = takeWarmReset sysReadOnly allSysRegs s ∧ has .PAuth_LR t = true :=
  ⟨r0, _, rfl, by unfold has; rw [takeWarmReset_cfg]; decide +kernel⟩

theorem witness_TakingAnException : ∃ (r : ExcReq) (s : State), halted s = false ∧ elUsesA32 r.target s = false ∧
    r.kind = .sync ∧ r.far = some 5 ∧ s.ps.nRW = false ∧ r.target ≠ s.ps.el :=
  ⟨{ syncExc .el1 0x24 0 r0 with far := some 5 }, low .el0 0, by decide +kernel, by decide +kernel, rfl, rfl,
    by decide +kernel⟩

theorem witness_TakingAnException_synchronises (b : Bool) : ∃ (r : ExcReq) (s : State), halted s = false ∧
    elUsesA32 r.target s = false ∧ entrySynchronises r.target s = b := by
  refine ⟨syncExc .el3 0 0 r0, put .SCTLR_EL3 (if b then 0x400000 else 0) r0, ?_⟩
  cases b <;> decide +kernel

theorem witness_ExceptionEntrySynchronises :
    (∃ (r : ExcReq) (s : State), has .ExS s = true ∧ ibit s (sctlrAt r.target) 22 = true) ∧
    (∃ (r : ExcReq) (s : State), has .ExS s = true ∧ ibit s (sctlrAt r.target) 22 = false) ∧
    (∃ s, has .ExS s = false) :=
  ⟨⟨syncExc .el3 0 0 r0, put .SCTLR_EL3 0x400000 r0, by decide +kernel⟩,
   ⟨syncExc .el3 0 0 r0, r0, by decide +kernel⟩, ⟨cfgBy (fun c => { c with feats := [] }) r0, by decide +kernel⟩⟩

/-- With no PAC field every pointer is correct. -/
theorem pacCorrect_of_empty {k : PacKey} {p m : Word} {s : State} (h : pacField false p s = 0) :
    pacCorrect k p m s = true := by
  simp [pacCorrect, h]

theorem witness_ExceptionReturns : ∃ (s : State) (el : EL) (sp : Bool) (spsr : Word),
    halted s = false ∧ s.ps.el ≠ .el0 ∧ eretTrapped s = false ∧ intReady .serror s = false ∧ has .PAuth s = true ∧
    sctlr s PacKey.ib.enable = false ∧ sctlr s PacKey.ia.enable = true ∧ apiTraps s = false ∧
    pacCorrect .ia (sreg s (elrReg s.ps.el)) (readSP s) s = true ∧ spsr = sreg s (spsrReg s.ps.el) ∧
    bitAt spsr 4 = false ∧ illegalReturn spsr (if returnSynchronises s then syncContext s else s) = false ∧
    modeTarget (field spsr 0 4) = some (el, sp) ∧ elNum el < elNum s.ps.el :=
  let s := put .SCR_EL3 0x400 (put .SCTLR_EL3 0x80000000 (put .TCR_EL3 0x100000 (put .SPSR_EL3 5 r0)))
  have h : halted s = false ∧ s.ps.el ≠ .el0 ∧ eretTrapped s = false ∧ intReady .serror s = false ∧ has .PAuth s = true := by
    decide +kernel
  have k : sctlr s PacKey.ib.enable = false ∧ sctlr s PacKey.ia.enable = true ∧ apiTraps s = false := by decide +kernel
  ⟨s, .el1, true, 5, h.1, h.2.1, h.2.2.1, h.2.2.2.1, h.2.2.2.2, k.1, k.2.1, k.2.2, pacCorrect_of_empty (by decide +kernel),
    by decide +kernel⟩

theorem witness_IllegalReturnSetsIL : ∀ m ∈ [0b0001#64, 0b1101, 0b1000], ∃ (s : State) (spsr : Word),
    halted s = false ∧ s.ps.el ≠ .el0 ∧ s.ps.nRW = false ∧ eretTrapped s = false ∧ intReady .serror s = false ∧
    spsr = sreg s (spsrReg s.ps.el) ∧ spsr = m ∧ bitAt spsr 4 = false ∧
    (modeTarget (field spsr 0 4) = none ∨
      ∃ el sp, modeTarget (field spsr 0 4) = some (el, sp) ∧ (elNum s.ps.el < elNum el ∨ haveEL el s = false)) := by
  intro m hm
  refine ⟨cfgBy (fun c => { c with hasEL2 := false }) (put .SPSR_EL1 m (atEL .el1)), m, ?_⟩
  fin_cases hm <;> and_intros <;> first
    | decide +kernel
    | exact .inl (by decide +kernel)
    | exact .inr ⟨.el3, true, by decide +kernel⟩
    | exact .inr ⟨.el2, false, by decide +kernel⟩

theorem witness_WaitsCompleteOrTrap :
    (∃ s, s.eventReg = true ∧ has .WFxT s = true) ∧
    (∃ s, s.eventReg = false ∧ waitTrap true s = none ∧ has .WFxT s = true) ∧
    (∃ s, wakePending s = true ∧ has .WFxT s = true) ∧
    (∃ s, waitTrap false s = none ∧ ¬(s.warmReset = .synchronised ∧ s.resetSeq = .isb s.pc) ∧ has .WFxT s = true) ∧
    (∀ b : Bool, ∃ s w, s.waiting = some w ∧ s.agents = [] ∧ halted s = false ∧ s.warmReset = .none ∧
      chosenInterrupt s = none ∧ s.offTop = false ∧ (WaitEnds w s ↔ b = true)) ∧
    (∃ s el, s.eventReg = false ∧ waitTrap true s = some el ∧ el3SddUndef s = false) ∧
    (∃ s el, wakePending s = false ∧ waitTrap false s = some el ∧ el3SddUndef s = false) ∧
    (∃ s, s.eventReg = false ∧ has .WFxT s = true ∧ (readX 1 s).toNat ≤ (readCntvct s).toNat ∧
      waitTrap true s ≠ none ∧ waitTrap false s ≠ none) ∧
    (∃ s el, s.eventReg = false ∧ wakePending s = false ∧ has .WFxT s = true ∧
      (readCntvct s).toNat < (readX 1 s).toNat ∧ waitTrap true s = some el ∧ waitTrap false s = some el ∧
      el3SddUndef s = false) :=
  ⟨⟨{ r0 with eventReg := true }, rfl, by decide +kernel⟩, ⟨r0, by decide +kernel⟩,
   ⟨{ r0 with intr := { r0.intr with irq := true } }, by decide +kernel⟩, ⟨r0, by decide +kernel⟩,
   fun b => ⟨{ r0 with eventReg := b, waiting := some ⟨true, none⟩ }, ⟨true, none⟩, rfl, by
     rw [← Laws.wakesNow_iff]; cases b <;> decide +kernel⟩,
   ⟨low .el0 0, .el1, by decide +kernel⟩, ⟨low .el0 0, .el1, by decide +kernel⟩, ⟨low .el0 0, by decide +kernel⟩,
   ⟨allX 1 (low .el0 0), .el1, by decide +kernel⟩⟩

theorem witness_PstateImmediates :
    (∃ s, halted s = false ∧ s.ps.el ≠ .el0 ∧ has .MTE s = true) ∧
    (∃ s, halted s = false ∧ s.ps.el = .el0 ∧ umaAllows s = true) ∧
    (∃ s, halted s = false ∧ s.ps.el = .el0 ∧ umaAllows s = false) :=
  ⟨⟨r0, by decide +kernel⟩, ⟨low .el0 0x200, by decide +kernel⟩,
   ⟨low .el0 0, by decide +kernel⟩⟩

theorem witness_PstateRegistersReadAndWrite :
    (∃ s, halted s = false ∧ s.ps.el ≠ .el0) ∧ (∃ s, halted s = false ∧ s.ps.el = .el0 ∧ umaAllows s = true) ∧
    (∃ s, halted s = false ∧ s.ps.el = .el0 ∧ umaAllows s = false) :=
  ⟨⟨r0, by decide +kernel⟩, ⟨low .el0 0x200, by decide +kernel⟩,
   ⟨low .el0 0, by decide +kernel⟩⟩

theorem witness_ResetRequestRegister : (∃ s, s.ps.el = .el3 ∧ highestEL s = .el3) ∧
    (∃ s, s.ps.el = .el2 ∧ highestEL s = .el2) ∧ (∃ s, s.ps.el = .el1 ∧ highestEL s = .el1) ∧
    (∃ s : State, s.ps.el ≠ .el3) :=
  ⟨⟨r0, by decide +kernel⟩, ⟨cfgBy (fun c => { c with hasEL3 := false }) (atEL .el2), by decide +kernel⟩,
   ⟨cfgBy (fun c => { c with hasEL3 := false, hasEL2 := false }) (atEL .el1), by decide +kernel⟩,
   ⟨atEL .el2, by decide +kernel⟩⟩

theorem witness_CounterReads :
    (∃ s, el0CounterTrap false s = false ∧ el2CounterTrap false s = false ∧ has .ECV s = true) ∧
    (∃ s, el0CounterTrap true s = false ∧ el2CounterTrap true s = false ∧ has .ECV s = true) ∧
    (∃ s, s.ps.el = .el1 ∧ el2Enabled s = true ∧ e2hTge s = false ∧ ibit s .CNTHCTL_EL2 14 = true) :=
  ⟨⟨r0, by decide +kernel⟩, ⟨r0, by decide +kernel⟩,
   ⟨put .CNTHCTL_EL2 0x4000 (low .el1 0), by decide +kernel⟩⟩

theorem witness_IdentificationReads :
    (∃ s, s.ps.el ≠ .el0 ∧ (s.ps.el = .el1 → hcr s 42 = false) ∧
      tid3Traps (selReg 1 0 0 4 5) (some (.stored .ID_AA64SMFR0_EL1)) s = false ∧
      s.cfg.ccsidr.lookup (field (ireg s .CSSELR_EL1) 0 5) ≠ none) ∧
    (∃ s, s.ps.el ≠ .el0 ∧ (s.ps.el = .el1 → hcr s 42 = false) ∧
      s.cfg.ccsidr.lookup (field (ireg s .CSSELR_EL1) 0 5) = none) ∧
    (∃ s, s.ps.el = .el1 ∧ hcr s 42 = false ∧ el2Enabled s = true ∧ ibit s .HCR_EL2 18 = true ∧ has .FGT s = true ∧
      tid3Traps (selReg 1 0 0 4 5) (some (.stored .ID_AA64SMFR0_EL1)) s = true) :=
  ⟨⟨r0, by decide +kernel⟩, ⟨put .CSSELR_EL1 31 r0, by decide +kernel⟩,
   ⟨put .HCR_EL2 0x40000 (low .el1 0), by decide +kernel⟩⟩

theorem witness_RandomNumberReads :
    (∃ s, has .RNG s = true ∧ s.ps.el = .el3) ∧
    (∃ s, has .RNG s = true ∧ has .RNG_TRAP s = true ∧ s.cfg.hasEL3 = true ∧ s.ps.el ≠ .el3 ∧
      ibit s .SCR_EL3 40 = true ∧ el3SddUndef s = false) :=
  ⟨⟨r0, by decide +kernel⟩,
   ⟨put .SCR_EL3 0x10000000000 (atEL .el0), by decide +kernel⟩⟩

theorem witness_SystemRegisterAccess :
    (∃ s o0 op1 crn crm op2 r, nameOf (selReg o0 op1 crn crm op2) = some r ∧ (halted s && isPstateView r) = false ∧
      permission (selReg o0 op1 crn crm op2) r false s = .allowed ∧
      permission (selReg o0 op1 crn crm op2) r true s = .allowed ∧ r ≠ .stored .CCSIDR_EL1 ∧
      r ≠ .stored .CCSIDR2_EL1 ∧ r ≠ .view .RNDR ∧ r ≠ .view .RNDRRS ∧ r ≠ .stored .CNTKCTL_EL1 ∧ r ≠ .view .SVCR) ∧
    (∃ s, nameOf (selReg 1 3 4 2 2) = some (.view .SVCR) ∧ halted s = false ∧ vecTrap [.sme] s = none ∧
      permission (selReg 1 3 4 2 2) (.view .SVCR) true s = .allowed) ∧
    (∀ n ∈ [(selReg 1 0 1 0 0, RegName.stored .SCTLR_EL1), (selReg 1 6 12 0 2, .stored .RMR_EL3),
        (selReg 1 3 4 2 6, .view .SSBS), (selReg 1 0 4 1 0, .view .SP_EL0), (selReg 1 3 14 2 0, .view .CNTP_TVAL_EL0),
        (selReg 1 3 9 12 2, .view .PMCNTENCLR_EL0), (selReg 1 3 14 8 0, .pmevcntr 0)],
      nameOf n.1 = some n.2 ∧ permission n.1 n.2 true r0 = .allowed ∧ reached n.1 n.2 r0 = n.2 ∧
        (match n.2 with
          | .stored q => decide (q ≠ .CNTKCTL_EL1 ∧ q ≠ .PMCR_EL0)
          | .view k => (viewWritten k 1 r0).isSome || (viewStores k 1 r0).isSome
          | r => (numberedWritten r 1 r0).isSome) = true) ∧
    (∃ s o0 op1 crn crm op2 r, nameOf (selReg o0 op1 crn crm op2) = some r ∧ (halted s && isPstateView r) = false ∧
      permission (selReg o0 op1 crn crm op2) r false s = .undefined ∧
      permission (selReg o0 op1 crn crm op2) r true s = .undefined) ∧
    (∃ s o0 op1 crn crm op2 r el, nameOf (selReg o0 op1 crn crm op2) = some r ∧
      (halted s && isPstateView r) = false ∧ permission (selReg o0 op1 crn crm op2) r false s = .trap el ∧
      permission (selReg o0 op1 crn crm op2) r true s = .trap el ∧ el3SddUndef s = false) ∧
    (∃ s o0 op1 crn crm op2, nameOf (selReg o0 op1 crn crm op2) = none ∧
      idSpace (selReg o0 op1 crn crm op2) = true ∧ s.ps.el ≠ .el0 ∧
      tid3Traps (selReg o0 op1 crn crm op2) none s = false) :=
  ⟨⟨r0, 1, 0, 1, 0, 0, .stored .SCTLR_EL1, by decide +kernel⟩,
   ⟨put .CPTR_EL3 0x1000 r0, by decide +kernel⟩,
   by decide +kernel,
   ⟨atEL .el0, 1, 0, 1, 0, 0, .stored .SCTLR_EL1, by decide +kernel⟩,
   ⟨low .el1 0, 1, 3, 13, 0, 7, .stored .SCXTNUM_EL0, .el2, by decide +kernel⟩,
   ⟨r0, 1, 0, 0, 3, 3, by decide +kernel⟩⟩

theorem witness_MsrWritesTheRegister : (∃ (s : State) (r : SysReg), s.ps.el = .el3 ∧ (selReg 1 0 1 0 0, r) ∈ plainRegs ∧
    pendingOf r s.pend = []) ∧ (∃ (s : State) (r : SysReg), s.ps.el = .el3 ∧ (selReg 1 6 12 0 0, r) ∈ plainRegs ∧
    pendingOf r s.pend = []) :=
  ⟨⟨r0, .SCTLR_EL1, by decide +kernel⟩, ⟨r0, .VBAR_EL3, by decide +kernel⟩⟩

/-- Every operation of a generic SYS has a number, and a state whose level and features allow it; an operation that may be
unallocated is so only by the opaque `Config.unallocatedSys`. -/
theorem witness_GenericSystemInstructions :
    ((sysOpOf 0 7 6 2 = some .setWay ∧ sysOpOf 0 7 5 0 = some .icAll ∧ sysOpOf 3 7 10 1 = some .cleanVa ∧
      sysOpOf 0 7 6 1 = some .invalidateVa ∧ sysOpOf 3 7 10 3 = some .tagVa ∧
      sysOpOf 0 7 8 1 = some (.at ⟨.el1, true, false, false⟩) ∧ sysOpOf 4 8 7 0 = some .tlbi ∧
      sysOpOf 0 8 2 1 = some (.tlbiRange .rva .el1) ∧ sysOpOf 4 8 0 2 = some (.tlbiRange .ripas2 .el1) ∧
      sysOpOf 6 8 4 3 = some (.gptRange true) ∧ sysOpOf 6 8 4 7 = some (.gptRange false) ∧
      sysOpOf 6 8 1 4 = some .gptAll ∧ sysOpOf 6 9 1 4 = some .gptAll ∧ sysOpOf 0 15 0 0 = none) ∧
    (∀ o ∈ [SysOp.setWay, .icAll, .cleanVa, .invalidateVa, .tagVa, .at ⟨.el1, true, false, false⟩,
      .tlbiRange .rva .el1, .gptRange true, .gptAll], mayBeUnallocated o 8 = false) ∧
    mayBeUnallocated .gptAll 9 = true ∧ mayBeUnallocated .tlbi 8 = true ∧
    tagSysOp .tagVa 3 = true ∧ has .MTE r0 = true ∧ has .RME r0 = true ∧ tlbiReserved r0 = false ∧
    (∀ op1 ∈ [0, 3, 4, 6], sysMinLevel op1 ≤ elNum r0.ps.el) ∧ elNum (atEL .el0).ps.el < sysMinLevel 0 ∧
    tlbiReserved (put .SCR_EL3 0x4000000000000000 r0) = true) ∧
    (∃ x u, translate (cacheDesc false) (readX 1 r0) r0 = .ok x u) ∧
    (∃ x u, atTranslate ⟨.el1, true, false, false⟩ (readX 1 r0) r0 = .ok x u) ∧
    (∃ k va u, atTranslate ⟨.el1, true, false, false⟩ (readX 1 (allX (1#64 <<< 60) r0)) (allX (1#64 <<< 60) r0) =
      .fault k va u ∧ atRaises k = false) := by
  obtain ⟨x, u, hx, _⟩ := locates_ok (p := fun _ _ => true) (m := translate (cacheDesc false) (readX 1 r0) r0)
    (by decide +kernel)
  obtain ⟨y, v, hy, _⟩ := locates_ok (p := fun _ _ => true)
    (m := atTranslate ⟨.el1, true, false, false⟩ (readX 1 r0) r0) (by decide +kernel)
  obtain ⟨k, va, w, hk, pk⟩ := faults_with (p := fun k _ _ => !atRaises k)
    (m := atTranslate ⟨.el1, true, false, false⟩ (readX 1 (allX (1#64 <<< 60) r0)) (allX (1#64 <<< 60) r0))
    (by decide +kernel)
  exact ⟨by decide +kernel, ⟨x, u, hx⟩, ⟨y, v, hy⟩, ⟨k, va, w, hk, by simpa using pk⟩⟩

/-- A restriction at EL2 for EL1, while two predictions are held. -/
def restricting : State :=
  { allX 0x1000000 (atEL .el2) with predictions := [⟨.dataValue, .el1, .nonSecure, 4⟩, ⟨.dataValue, .el2, .secure, 4⟩] }

theorem witness_HintsAreNops : (∃ s rt, rctxNop (readX rt s) s = true) ∧
    ∃ s rt, (Config.rctxSpace (readX rt s) ≠ .root → rctxNop (readX rt s) s = false) ∧
      ⟨PredKind.dataValue, .el1, .nonSecure, 4⟩ ∈ s.predictions ∧ (field (readX rt s) 24 2).toNat = 1 := by
  refine ⟨⟨allX 0x2000000 (atEL .el1), 1, by decide +kernel⟩, restricting, 1, ?_, by decide +kernel⟩
  unfold rctxNop
  generalize Config.rctxSpace (readX 1 restricting) = sp
  cases sp <;> intro h <;> first | exact absurd rfl h | decide +kernel


theorem canonical_r0 : Canonical r0 := ⟨by decide, by decide⟩

/-- A state with the memory and tags of reset is canonical. -/
theorem canonical_of {s : State} (h1 : s.mem = []) (h2 : s.tags = []) : Canonical s := by
  unfold Canonical; rw [h1, h2]; exact ⟨rfl, rfl⟩

/-- All of memory is Device memory. -/
abbrev rDev : State := memType .deviceGRE r0

theorem witness_ZeroingABlock :
    (∃ s, Canonical s ∧ dczProhibited s = false ∧ has .MTE s = true ∧
      (∃ xs u, locateGranules (dcZeroDesc false) .faults (dcBlock s / 16) (alignDown (readX 1 s) (dcBlock s)) s =
        .ok xs u ∧ ∀ x ∈ xs, x.frame = none) ∧
      (∃ xs u, locateGranules (dcZeroDesc true) .faults (dcBlock s / 16) (alignDown (readX 1 s) (dcBlock s)) s =
        .ok xs u ∧ ∀ x ∈ xs, x.frame = none) ∧
      ∃ xs u, locateGranules dcTagDesc (gvaDev s) (dcBlock s / 16) (alignDown (readX 1 s) (dcBlock s)) s = .ok xs u) ∧
    (∃ s, Canonical s ∧ dczProhibited s = false ∧ has .MTE s = true ∧
      BlockIsDevice (dcZeroDesc false) (dcBlock s / 16) (alignDown (readX 1 s) (dcBlock s)) s ∧
      BlockIsDevice (dcZeroDesc true) (dcBlock s / 16) (alignDown (readX 1 s) (dcBlock s)) s) ∧
    (∃ s, Canonical s ∧ dczProhibited s = true) := by
  obtain ⟨a, u, ha, pa⟩ := locates_ok (p := fun xs _ => xs.all (·.frame.isNone)) (m := locateGranules (dcZeroDesc false) .faults
    (dcBlock r0 / 16) (alignDown (readX 1 r0) (dcBlock r0)) r0) (by decide +kernel)
  obtain ⟨b, v, hb, pb⟩ := locates_ok (p := fun xs _ => xs.all (·.frame.isNone)) (m := locateGranules (dcZeroDesc true) .faults
    (dcBlock r0 / 16) (alignDown (readX 1 r0) (dcBlock r0)) r0) (by decide +kernel)
  have hc : ∀ g, locates (fun _ _ => true) (locateGranules dcTagDesc g (dcBlock r0 / 16)
      (alignDown (readX 1 r0) (dcBlock r0)) r0) = true := by intro g; cases g <;> decide +kernel
  obtain ⟨c, w, hc, _⟩ := locates_ok (hc (gvaDev r0))
  have dev : ∀ d ∈ [dcZeroDesc false, dcZeroDesc true],
      BlockIsDevice d (dcBlock rDev / 16) (alignDown (readX 1 rDev) (dcBlock rDev)) rDev := by
    intro d hd k hk
    refine ⟨?_, locates_ok (p := fun x : Xlat => fun _ => isDevice x.type) ?_⟩ <;> revert k <;> fin_cases hd <;> decide +kernel
  have h1 : has .MTE r0 = true := by decide +kernel
  have h2 : dczProhibited r0 = false := by decide +kernel
  exact ⟨⟨r0, canonical_r0, h2, h1, ⟨a, u, ha, by simpa using pa⟩, ⟨b, v, hb, by simpa using pb⟩, c, w, hc⟩,
    ⟨rDev, canonical_of rfl rfl, by decide +kernel, by decide +kernel, dev _ (by simp), dev _ (by simp)⟩,
    ⟨low .el0 0, canonical_of rfl rfl, by decide +kernel⟩⟩

theorem witness_TagStoresToDevice : ∃ s, has .MTE s = true ∧ dczProhibited s = false ∧ has .MTE2 s = true ∧
    s.ps.el ≠ .el0 ∧ baseReg 1 s = .ok 0 s ∧
    ((∃ xs u, locateGranules dcTagDesc .goesOn (dcBlock s / 16) (alignDown (readX 1 s) (dcBlock s)) s = .ok xs u ∧
      ∀ x ∈ xs, isDevice x.type = true) ∧
      BlockIsDevice dcTagDesc (dcBlock s / 16) (alignDown (readX 1 s) (dcBlock s)) s) ∧
    (∃ xs u, locateGranules stzgmDesc .goesOn (tagBlock s / 16) (alignDown 0 (tagBlock s)) s = .ok xs u ∧
      ∀ x ∈ xs, deviceOnly x = true) ∧
    BlockIsDevice stzgmDesc (tagBlock s / 16) (alignDown 0 (tagBlock s)) s := by
  obtain ⟨a, u, ha, pa⟩ := locates_ok (p := fun xs _ => xs.all (isDevice ·.type)) (m := locateGranules dcTagDesc
    .goesOn (dcBlock rDev / 16) (alignDown (readX 1 rDev) (dcBlock rDev)) rDev) (by decide +kernel)
  obtain ⟨b, v, hb, pb⟩ := locates_ok (p := fun xs _ => xs.all deviceOnly) (m := locateGranules stzgmDesc
    .goesOn (tagBlock rDev / 16) (alignDown 0 (tagBlock rDev)) rDev) (by decide +kernel)
  have h : has .MTE rDev = true ∧ dczProhibited rDev = false ∧ has .MTE2 rDev = true ∧ rDev.ps.el ≠ .el0 := by decide +kernel
  refine ⟨rDev, h.1, h.2.1, h.2.2.1, h.2.2.2, rfl, ⟨⟨a, u, ha, by simpa using pa⟩, ?_⟩, ⟨b, v, hb, by simpa using pb⟩, ?_⟩
  all_goals
    intro k hk
    refine ⟨?_, locates_ok (p := fun x : Xlat => fun _ => isDevice x.type) ?_⟩ <;> revert k <;> decide +kernel

/-- A TLB entry for all addresses at EL0 and EL1, without any permission for EL0. -/
def closedEntry : TLBEntry :=
  { (default : TLBEntry) with regime := .el10, ss := .nonSecure, includesS1 := true, blocksize := 52, global := true, af := true, level := 3 }

/-- EL0 with that entry and stage 1 on, without FEAT_ETS2. -/
def closed : State :=
  cfgBy (fun c => { c with feats := c.feats.filter (· != .ETS2) }) { low .el0 0x4001 with tlb := [closedEntry] }

/-- Whichever value of TCR_EL1 a TLB entry holds, it is the register's here. -/
theorem closed_tcr : accessTcr closedEntry closed = 0 := by
  unfold accessTcr
  generalize Config.freeBool .tlbTcr closed.free = b
  cases b <;> decide +kernel

/-- The entry is the one that maps an address. -/
theorem closed_find (c : Bool) : find (cacheDesc c) 0 closed = lookupIn [closedEntry] (cacheDesc c) 0 0 closed := by
  have h : tlbHits (cacheDesc c) 0 closed closedEntry = true := by
    unfold tlbHits
    rw [closed_tcr]
    cases c <;> decide +kernel
  have e : closed.tlb = [closedEntry] := rfl
  have la : lookupAddr (cacheDesc c) 0 closed = 0 := if_pos (by cases c <;> decide +kernel)
  unfold find findWith hitsOf
  rw [if_neg (by cases c <;> decide +kernel), e, la, List.filter_cons_of_pos h, List.filter_nil]

/-- At EL0 a clean of an address that EL0 may not read gives a Permission fault. -/
theorem closed_faults (c : Bool) : faults (fun k _ _ => k matches .walk .permission _ _ _)
    (Machine.translate (cacheDesc c) (readX 1 closed) closed) = true := by
  rw [show readX 1 closed = 0 by decide +kernel]
  unfold Machine.translate lookup lookupWith
  rw [show findWith closed.tlb (cacheDesc c) 0 closed = _ from closed_find c]
  unfold lookupIn hitView useCached useEntry
  simp only [closed_tcr]
  cases c <;> decide +kernel

theorem witness_CacheMaintenanceByAddress : (∃ s x u, has .MTE s = true ∧ translate (cacheDesc true) (readX 1 s) s = .ok x u) ∧
    (∃ s level st2 ipa va u, translate (cacheDesc true) (readX 1 s) s = .fault (.walk .permission level st2 ipa) va u) := by
  obtain ⟨x, u, hx, _⟩ := locates_ok (p := fun _ _ => true) (m := translate (cacheDesc true) (readX 1 r0) r0) (by decide +kernel)
  obtain ⟨k, va, v, hk, pk⟩ := faults_with (p := fun k _ _ => k matches .walk .permission _ _ _)
    (closed_faults true)
  cases k with
  | walk f level st2 ipa =>
    cases f with
    | permission => exact ⟨⟨r0, x, u, by decide +kernel, hx⟩, closed, level, st2, ipa, va, v, hk⟩
    | _ => cases pk
  | _ => cases pk

/-- The maintenance of a generic SYS meets a Permission fault there too. -/
theorem witness_GenericMaintenanceFault : sysMinLevel 3 ≤ elNum closed.ps.el ∧ sysOpOf 3 7 10 1 = some .cleanVa ∧
    ∃ level st2 ipa va u,
      translate (cacheDesc false) (readX 1 closed) closed = .fault (.walk .permission level st2 ipa) va u := by
  obtain ⟨k, va, v, hk, pk⟩ := faults_with (p := fun k _ _ => k matches .walk .permission _ _ _) (closed_faults false)
  cases k with
  | walk f level st2 ipa =>
    cases f with
    | permission => exact ⟨by decide +kernel, by decide +kernel, level, st2, ipa, va, v, hk⟩
    | _ => cases pk
  | _ => cases pk

theorem witness_CleanToPointOfEncryption : (∃ s : State, s.ps.el = .el1) ∧
    (∃ s : State, s.ps.el = .el2 ∧ curSpace s ≠ .realm) ∧
    (∃ s, has .MEC s = true ∧ has .MTE s = true ∧ s.ps.el = .el3) ∧
    (∃ s, has .MEC s = true ∧ has .MTE s = true ∧ s.ps.el = .el2 ∧ curSpace s = .realm) :=
  ⟨⟨atEL .el1, rfl⟩, ⟨atEL .el2, rfl, by decide +kernel⟩, ⟨r0, by decide +kernel, by decide +kernel, rfl⟩,
   ⟨put .SCR_EL3 0x4000000000000001 (atEL .el2), by decide +kernel, by decide +kernel, rfl, by decide +kernel⟩⟩

theorem witness_TlbInvalidations : ∀ el ∈ [EL.el1, .el2, .el3], ∃ s, s.ps.el = el ∧ tlbiReserved s = false ∧
    has .RME s = true ∧ 1 ≤ elNum s.ps.el ∧ (el = .el3 → ∃ s, s.ps.el = .el3 ∧ has .RME s = true ∧ tlbiReserved s = true) := by
  intro el h
  have r : ∃ s, s.ps.el = .el3 ∧ has .RME s = true ∧ tlbiReserved s = true :=
    ⟨put .SCR_EL3 0x4000000000000000 r0, by decide +kernel⟩
  have q : tlbiReserved (atEL el) = false ∧ has .RME (atEL el) = true ∧ 1 ≤ elNum (atEL el).ps.el := by
    fin_cases h <;> decide +kernel
  exact ⟨atEL el, rfl, q.1, q.2.1, q.2.2, fun _ => r⟩

theorem witness_TlbiForReservedStateIsNop : ∃ s, has .RME s = true ∧ s.ps.el = .el3 ∧
    ibit s .SCR_EL3 62 = true ∧ ibit s .SCR_EL3 0 = false :=
  ⟨put .SCR_EL3 0x4000000000000000 r0, by decide +kernel⟩

theorem witness_AddressTranslationReports : (∃ s : State, s.ps.el = .el0) ∧
    (∃ s x u, s.ps.el ≠ .el0 ∧ atTranslate ⟨.el1, false, false, false⟩ (readX 1 s) s = .ok x u) ∧
    (∃ s k va u, s.ps.el ≠ .el0 ∧ atTranslate ⟨.el1, false, false, false⟩ (readX 1 s) s = .fault k va u ∧
      atRaises k = false) := by
  obtain ⟨x, u, hx, _⟩ := locates_ok (p := fun _ _ => true)
    (m := atTranslate ⟨.el1, false, false, false⟩ (readX 1 r0) r0) (by decide +kernel)
  obtain ⟨k, va, v, hk, pk⟩ := faults_with (p := fun k _ _ => !atRaises k)
    (m := atTranslate ⟨.el1, false, false, false⟩ (readX 1 (allX (1#64 <<< 60) r0)) (allX (1#64 <<< 60) r0)) (by decide +kernel)
  exact ⟨⟨atEL .el0, rfl⟩, ⟨r0, x, u, by decide, hx⟩, ⟨_, k, va, v, by decide +kernel, hk, by simpa using pk⟩⟩

/-- Every key enabled at EL3. -/
def keysOn : State := put .SCTLR_EL3 0xC8002000 r0

/-- Every key enabled at EL3, and no pointer bit left for a PAC. -/
def noField : State := put .TCR_EL3 0x100000 keysOn

/-- Without FEAT_PAuth. -/
def noPAuth : State := cfgBy (fun c => { c with feats := [] }) r0

/-- FEAT_PAuth and no other feature, every key enabled. -/
def onlyPAuth : State := cfgBy (fun c => { c with feats := [.PAuth] }) keysOn

/-- Of two pointers that differ in the PAC field only, one is not correct. -/
theorem pac_incorrect (k : PacKey) (m : Word) (s : State)
    (h0 : pacField false 0 s = 0xFF00000000000000) (h1 : pacField false 0x100000000000000 s = 0xFF00000000000000) :
    ∃ v, pacCorrect k v m s = false := by
  by_contra hn
  simp only [not_exists, Bool.not_eq_false] at hn
  have a := hn 0
  have b := hn 0x100000000000000
  simp only [pacCorrect, h0, h1, beq_iff_eq] at a b
  have e : pacStrip 0xFF00000000000000 0x100000000000000 = pacStrip 0xFF00000000000000 0 := by decide
  rw [e, a] at b
  exact absurd b (by decide)

theorem witness_PacInsertion :
    (∃ s, ∃ p ∈ pacInserts 2 1 s, has .PAuth s = true ∧ sctlr s p.key.enable = false) ∧
    (∃ s, ∃ p ∈ pacInserts 2 1 s, has .PAuth s = false ∧ p.hint = true) ∧
    (∃ s, ∃ p ∈ pacInserts 2 1 s, has .PAuth s = false ∧ p.hint = false) ∧
    (∃ s, ∃ p ∈ pacInserts 2 1 s, has .PAuth s = true ∧ sctlr s p.key.enable = true ∧ apiTraps s = false ∧
      pacStrip (pacField true (readX p.rd s) s) (readX p.rd s) = readX p.rd s) := by
  refine ⟨⟨r0, ⟨.pacia 2 1, .ia, false, 1, readXSP 2 r0⟩, by simp [pacInserts], by decide +kernel⟩,
    ⟨noPAuth, ⟨.paciaz, .ia, true, 30, 0⟩, by simp [pacInserts], by decide +kernel, rfl⟩,
    ⟨noPAuth, ⟨.paciza 1, .ia, false, 1, 0⟩, by simp [pacInserts], by decide +kernel, rfl⟩,
    ⟨keysOn, ⟨.paciza 1, .ia, false, 1, 0⟩, by simp [pacInserts], by decide +kernel⟩⟩

theorem witness_PacChecking :
    (∃ s, ∃ p ∈ pacChecks 2 1 s, has .PAuth s = true ∧ sctlr s p.key.enable = false) ∧
    (∃ s, ∃ p ∈ pacChecks 2 1 s, has .PAuth s = false ∧ p.hint = true) ∧
    (∃ s, ∃ p ∈ pacChecks 2 1 s, has .PAuth s = false ∧ p.hint = false) ∧
    (∃ s, ∃ p ∈ pacChecks 2 1 s, has .PAuth s = true ∧ sctlr s p.key.enable = true ∧ apiTraps s = false ∧
      pacCorrect p.key (readX p.rd s) p.modifier s = true) ∧
    (∃ s, ∃ p ∈ pacChecks 2 1 s, has .PAuth s = true ∧ sctlr s p.key.enable = true ∧ apiTraps s = false ∧
      pacCorrect p.key (readX p.rd s) p.modifier s = false ∧ has .FPAC s = true) ∧
    (∃ s, ∃ p ∈ pacChecks 2 1 s, has .PAuth s = true ∧ sctlr s p.key.enable = true ∧ apiTraps s = false ∧
      pacCorrect p.key (readX p.rd s) p.modifier s = false ∧ has .FPAC s = false) := by
  obtain ⟨v, hv⟩ := pac_incorrect .ia 0 keysOn (by decide +kernel) (by decide +kernel)
  obtain ⟨w, hw⟩ := pac_incorrect .ia 0 onlyPAuth (by decide +kernel)
    (by decide +kernel)
  refine ⟨⟨r0, ⟨.autiza 1, .ia, false, 1, 0⟩, by simp [pacChecks], by decide +kernel⟩,
    ⟨noPAuth, ⟨.autiaz, .ia, true, 30, 0⟩, by simp [pacChecks], by decide +kernel, rfl⟩,
    ⟨noPAuth, ⟨.autiza 1, .ia, false, 1, 0⟩, by simp [pacChecks], by decide +kernel, rfl⟩,
    ⟨noField, ⟨.autiza 1, .ia, false, 1, 0⟩, by simp [pacChecks], by decide +kernel, by decide +kernel, by decide +kernel,
      pacCorrect_of_empty (by decide +kernel)⟩,
    ⟨allX v keysOn, ⟨.autiza 1, .ia, false, 1, 0⟩, by simp [pacChecks], ?_⟩,
    ⟨allX w onlyPAuth, ⟨.autiza 1, .ia, false, 1, 0⟩, by simp [pacChecks], ?_⟩⟩
  · exact ⟨show has .PAuth keysOn = true by decide +kernel, show sctlr keysOn 31 = true by decide +kernel,
      show apiTraps keysOn = false by decide +kernel, hv, show has .FPAC keysOn = true by decide +kernel⟩
  · exact ⟨show has .PAuth onlyPAuth = true by decide +kernel, show sctlr onlyPAuth 31 = true by decide +kernel,
      show apiTraps onlyPAuth = false by decide +kernel, hw, show has .FPAC onlyPAuth = false by decide +kernel⟩

theorem witness_PacRoundTrip : ∃ (ptr : Word) (s : State), pacField true ptr s ≠ 0 ∧ pacStrip (pacField true ptr s) ptr = ptr :=
  ⟨0x1234, keysOn, by decide +kernel⟩

theorem witness_GenericAuthenticationCode : ∃ s, has .PAuth s = true ∧ apiTraps s = false :=
  ⟨r0, by decide +kernel⟩

/-- EL2 enabled, HCR_EL2.API 0, every key enabled, at a lower level. -/
def apiOff (el : EL) : State := put .SCR_EL3 0x401 (put .SCTLR_EL1 0xC8002000 (atEL el))

theorem witness_PacInstructionsTrapped : ∀ el ∈ [EL.el1, .el0], ∃ s, s.ps.el = el ∧ has .PAuth s = true ∧
    el2Enabled s = true ∧ ibit s .HCR_EL2 41 = false ∧ (s.ps.el = .el1 ∨ (s.ps.el = .el0 ∧ e2hTge s = false)) ∧
    (∀ p ∈ pacInserts 2 1 s ++ pacChecks 2 1 s, sctlr s p.key.enable = true) ∧ halted s = false ∧
    (∀ b ∈ authBranches 2 3 s, sctlr s b.key.enable = true) ∧ eretTrapped s = false ∧ baseReg 2 s = .ok 0 s ∧
    sctlr s PacKey.da.enable = true := by
  have keys : ∀ k : PacKey, sctlr (apiOff .el1) k.enable = true ∧ sctlr (apiOff .el0) k.enable = true := by
    intro k; cases k <;> exact by decide +kernel
  intro el h
  refine ⟨apiOff el, rfl, ?_⟩
  have key : ∀ k : PacKey, sctlr (apiOff el) k.enable = true := by
    fin_cases h
    · exact fun k => (keys k).1
    · exact fun k => (keys k).2
  have q : has .PAuth (apiOff el) = true ∧ el2Enabled (apiOff el) = true ∧ ibit (apiOff el) .HCR_EL2 41 = false ∧
      (el = .el1 ∨ (el = .el0 ∧ e2hTge (apiOff el) = false)) ∧ halted (apiOff el) = false ∧ eretTrapped (apiOff el) = false := by
    fin_cases h <;> decide +kernel
  exact ⟨q.1, q.2.1, q.2.2.1, q.2.2.2.1, fun p _ => key p.key, q.2.2.2.2.1, fun b _ => key b.key, q.2.2.2.2.2, rfl, key .da⟩

theorem witness_AuthenticatedBranches :
    (∃ s, halted s = false ∧ has .PAuth s = true ∧ ∃ b ∈ authBranches 2 3 s, sctlr s b.key.enable = false) ∧
    (∃ s, halted s = false ∧ has .PAuth s = true ∧ ∃ b ∈ authBranches 2 3 s, sctlr s b.key.enable = true ∧
      apiTraps s = false ∧ pacCorrect b.key b.address b.modifier s = true) ∧
    (∃ s, halted s = false ∧ has .PAuth s = true ∧ ∃ b ∈ authBranches 2 3 s, sctlr s b.key.enable = true ∧
      apiTraps s = false ∧ pacCorrect b.key b.address b.modifier s = false ∧ has .FPACCOMBINE s = true) := by
  obtain ⟨v, hv⟩ := pac_incorrect .ia 0 keysOn (by decide +kernel) (by decide +kernel)
  refine ⟨⟨r0, by decide +kernel, by decide +kernel, ⟨.blraaz 2, .ia, readX 2 r0, 0, true, 0b10⟩, by simp [authBranches],
      by decide +kernel⟩,
    ⟨noField, by decide +kernel, by decide +kernel, ⟨.blraaz 2, .ia, readX 2 noField, 0, true, 0b10⟩, by simp [authBranches],
      by decide +kernel, by decide +kernel, pacCorrect_of_empty (by decide +kernel)⟩,
    ⟨allX v keysOn, show halted keysOn = false by decide +kernel, show has .PAuth keysOn = true by decide +kernel,
      ⟨.blraaz 2, .ia, readX 2 (allX v keysOn), 0, true, 0b10⟩, by simp [authBranches],
      show sctlr keysOn 31 = true by decide +kernel, show apiTraps keysOn = false by decide +kernel, hv,
      show has .FPACCOMBINE keysOn = true by decide +kernel⟩⟩

theorem witness_PlainBranches : ∃ s, halted s = false ∧ condHolds 0 s.ps = false ∧ condHolds 1 s.ps = true ∧
    decide (readX 1 s = 0) = true ∧ decide ((readX 1 s).setWidth 32 ≠ 0#32) = false :=
  ⟨r0, by decide +kernel⟩

theorem witness_SystemCallsAndBreakpoint :
    (∃ s, halted s = false ∧ elUsesA32 (ownTarget s) s = false ∧ s.ps.el = .el0) ∧
    (∃ s, s.ps.el = .el1 ∧ s.cfg.hasEL2 = true ∧ el2Enabled s = true ∧ s.cfg.hasEL3 = true ∧ halted s = false ∧
      elUsesA32 .el2 s = false ∧ elUsesA32 .el3 s = false) ∧
    (∃ s, s.ps.el = .el3 ∧ s.cfg.hasEL2 = true ∧ halted s = false ∧ elUsesA32 .el3 s = false) :=
  ⟨⟨low .el0 0, by decide +kernel, by decide +kernel, rfl⟩,
   ⟨low .el1 0, rfl, rfl, by decide +kernel, rfl, by decide +kernel⟩,
   ⟨r0, rfl, rfl, by decide +kernel⟩⟩

theorem witness_HaltingAndRestoring :
    (∃ s : State, bitAt s.dbg.edscr 14 = true ∧ haltingAllowed s = true) ∧
    (∃ s : State, bitAt s.dbg.edscr 14 = false) ∧ (∃ s : State, bitAt s.dbg.edscr 14 = true ∧ haltingAllowed s = false) ∧
    (∃ s, halted s = false) ∧ (∃ s, halted s = true ∧ s.ps.el = .el0) ∧
    (∃ s el sp, halted s = true ∧ s.ps.el ≠ .el0 ∧ bitAt (sreg s (spsrReg s.ps.el)) 4 = false ∧
      illegalReturn (sreg s (spsrReg s.ps.el)) (syncContext s) = false ∧
      modeTarget (field (sreg s (spsrReg s.ps.el)) 0 4) = some (el, sp)) :=
  ⟨⟨{ r0 with dbg := { r0.dbg with edscr := 0x4002, rootDebug := true } }, by decide +kernel⟩,
   ⟨{ r0 with dbg := { r0.dbg with edscr := 2 } }, by decide +kernel⟩,
   ⟨{ r0 with dbg := { r0.dbg with edscr := 0x4013 } }, by decide +kernel⟩, ⟨r0, by decide +kernel⟩,
   ⟨debugged (atEL .el0), by decide +kernel, rfl⟩,
   ⟨debugged (put .SCR_EL3 0x400 (put .SPSR_EL3 5 r0)), .el1, true, by decide +kernel⟩⟩

theorem witness_StoreAllocationTag : (∃ s x u, Canonical s ∧ has .MTE s = true ∧ baseReg 1 s = .ok 0 s ∧
      locateGranule (tagDesc true) .goesOn 0 s = .ok x u) ∧
    (∃ s, Canonical s ∧ has .MTE s = true ∧ baseReg 1 s = .ok 8 s ∧ (8 : Word).toNat % 16 ≠ 0) := by
  obtain ⟨x, u, hx, _⟩ := locates_ok (p := fun _ _ => true) (m := locateGranule (tagDesc true) .goesOn 0 r0)
    (by decide +kernel)
  exact ⟨⟨r0, x, u, canonical_r0, by decide +kernel, rfl, hx⟩,
    ⟨allX 8 r0, canonical_of rfl rfl, by decide +kernel, rfl, by decide⟩⟩

theorem witness_BlocksOfTags : (∃ s, Canonical s ∧ s.ps.el = .el0) ∧
    ∃ s, Canonical s ∧ has .MTE2 s = true ∧ s.ps.el ≠ .el0 ∧ baseReg 1 s = .ok 0 s ∧
    (∃ xs u, locateGranules stzgmDesc (stzgmDev s) (tagBlock s / 16) (alignDown 0 (tagBlock s)) s = .ok xs u ∧
      ∀ x ∈ xs, ordinary x = true) ∧
    (∃ xs u, locateGranules (tagDesc true) .goesOn (tagBlock s / 16) (alignDown 0 (tagBlock s)) s = .ok xs u) ∧
    ∃ xs u, locateGranules (tagDesc false) .goesOn (tagBlock s / 16) (alignDown 0 (tagBlock s)) s = .ok xs u ∧
      xs.length = 4 := by
  have hs : ∀ g, locates (fun xs _ => xs.all ordinary) (locateGranules stzgmDesc g
      (tagBlock r0 / 16) (alignDown 0 (tagBlock r0)) r0) = true := by intro g; cases g <;> decide +kernel
  obtain ⟨a, u, ha, pa⟩ := locates_ok (hs (stzgmDev r0))
  obtain ⟨b, v, hb, _⟩ := locates_ok (p := fun _ _ => true) (m := locateGranules (tagDesc true) .goesOn
    (tagBlock r0 / 16) (alignDown 0 (tagBlock r0)) r0) (by decide +kernel)
  obtain ⟨c, w, hc, pc⟩ := locates_ok (p := fun xs _ => xs.length == 4) (m := locateGranules (tagDesc false) .goesOn
    (tagBlock r0 / 16) (alignDown 0 (tagBlock r0)) r0) (by decide +kernel)
  exact ⟨⟨atEL .el0, canonical_of rfl rfl, rfl⟩, r0, canonical_r0, by decide +kernel, by decide, rfl,
    ⟨a, u, ha, by simpa using pa⟩, ⟨b, v, hb⟩, c, w, hc, by simpa using pc⟩

/-- EL3 with stage 1 on and an entry for all addresses. -/
def mapped : State :=
  cfgBy (fun c => { c with ls64PerStage := true, feats := c.feats.filter (· != .ETS2) }) { put .SCTLR_EL3 1 r0 with
    tlb := [{ closedEntry with regime := .el3, ss := .root, space := .root }] }

theorem witness_SixtyFourByteAccesses :
    (∃ s, Canonical s ∧ bitAt (22 : BitVec 5) 0 = false ∧ (22 : BitVec 5).toNat ≤ 22 ∧ baseReg 1 s = .ok 0 s ∧
      (ls64Trap .plain s = none ∧ ls64Trap .status s = none ∧ ls64Trap .status0 s = none) ∧
      (∃ xs u, ls64Locate (dataDesc false 1) 0 s = .ok xs u) ∧ ∃ xs u, ls64Locate (dataDesc true 1) 0 s = .ok xs u) ∧
    (∃ s x u, Canonical s ∧ baseReg 1 s = .ok 0 s ∧ ls64Trap .plain s = none ∧ unaligned 0 64 = false ∧
      lookup (dataDesc false 1) 0 s = .ok x u ∧ (∀ k, rereads k (dataDesc false 1) 0 s = false) ∧
      u.cfg.ls64PerStage = false ∧ ls64Type x.type = false) ∧
    (∃ s x u, Canonical s ∧ baseReg 1 s = .ok 0 s ∧ ls64Trap .plain s = none ∧
      lookup (dataDesc false 1) 0 s = .ok x u ∧ (∀ k, rereads k (dataDesc false 1) 0 s = false) ∧
      u.cfg.ls64PerStage = true ∧ stage1On u = true ∧ ls64Type x.s1Type = false) := by
  have again : ∀ k s, has .ETS2 s = false ∨ flat (dataDesc false 1) s = true → rereads k (dataDesc false 1) 0 s = false := by
    intro k s h; rcases h with h | h <;> unfold rereads <;> rw [h] <;> simp
  obtain ⟨a, u, ha, _⟩ := locates_ok (p := fun _ _ => true) (m := ls64Locate (dataDesc false 1) 0 (memType .normalNC r0))
    (by decide +kernel)
  obtain ⟨b, v, hb, _⟩ := locates_ok (p := fun _ _ => true) (m := ls64Locate (dataDesc true 1) 0 (memType .normalNC r0))
    (by decide +kernel)
  obtain ⟨x, w, hx, px⟩ := locates_ok (p := fun x u => !u.cfg.ls64PerStage && !ls64Type x.type)
    (m := lookup (dataDesc false 1) 0 (cfgBy (fun c => { c with ls64PerStage := false }) r0)) (by decide +kernel)
  obtain ⟨y, z, hy, py⟩ := locates_ok (p := fun x u => u.cfg.ls64PerStage && (stage1On u && !ls64Type x.s1Type))
    (m := lookup (dataDesc false 1) 0 mapped) (by decide +kernel)
  simp only [Bool.and_eq_true, Bool.not_eq_true'] at px py
  exact ⟨⟨memType .normalNC r0, canonical_of rfl rfl, by decide, by decide, rfl, by decide +kernel,
    ⟨a, u, ha⟩, b, v, hb⟩,
    ⟨_, x, w, canonical_of rfl rfl, rfl, by decide +kernel, by decide, hx, fun k => again k _ (.inr (by decide +kernel)), px.1, px.2⟩,
    ⟨_, y, z, canonical_of rfl rfl, rfl, by decide +kernel, hy, fun k => again k mapped (.inl (by decide +kernel)), py.1, py.2⟩⟩

theorem witness_LoadExclusives : ∃ s xs u, baseReg 1 s = .ok 0 s ∧ locateAll (exclusiveDesc false 1) 8 0 s = .ok xs u := by
  obtain ⟨a, u, ha, _⟩ := locates_ok (p := fun _ _ => true) (m := locateAll (exclusiveDesc false 1) 8 0 r0)
    (by decide +kernel)
  exact ⟨r0, a, u, rfl, ha⟩

theorem witness_StoreExclusives : (∃ s, Canonical s ∧ ∃ e ∈ storeExclusives 2 3 1 2 s, e.clash = true) ∧
    ∃ s x u y v, Canonical s ∧ baseReg 1 s = .ok 0 s ∧ u.exLocal = some (monitorBlock x u) ∧
      ¬((0 : BitVec 5) = 1 ∧ (1 : BitVec 5) ≠ 31) ∧ lookup (exclusiveDesc true 1) 0 s = .ok x u ∧
      locateBy (exclusiveDesc true 1) 8 (fun _ _ => none) 0 u = .ok y v ∧
      ∀ e ∈ storeExclusives 0 3 1 2 s, e.clash = false ∧ unaligned 0 e.size = false := by
  let s : State := { r0 with exLocal := some (2 ^ 47), exGlobal := some (2 ^ 47) }
  obtain ⟨x, u, hx, px⟩ := locates_ok (p := fun x u => u.exLocal == some (monitorBlock x u) &&
    locates (fun _ _ => true) (locateBy (exclusiveDesc true 1) 8 (fun _ _ => none) 0 u)) (m := lookup (exclusiveDesc true 1) 0 s)
    (by decide +kernel)
  simp only [Bool.and_eq_true, beq_iff_eq] at px
  obtain ⟨y, v, hv, _⟩ := locates_ok px.2
  refine ⟨⟨r0, canonical_r0, ⟨.stxrX 2 1 2, 8, byteOrder (bigEndian r0) (bytesOf 8 (readX 2 r0)), 2#5 == 2⟩,
      by unfold storeExclusives; simp, rfl⟩,
    s, x, u, y, v, canonical_of rfl rfl, rfl, px.1, by decide, hx, hv, ?_⟩
  simp [storeExclusives, unaligned]

theorem witness_ExclusivesAlwaysCheckAlignment : ∃ s, baseReg 1 s = .ok 1 s ∧ unaligned 1 8 = true ∧
    (∃ e ∈ storeExclusives 0 3 1 2 s, e.clash = false ∧ unaligned 1 e.size = true) ∧
    ¬((0 : BitVec 5) = 1 ∧ (1 : BitVec 5) ≠ 31) :=
  ⟨allX 1 r0, rfl, by decide, ⟨⟨.stxrX 0 1 2, 8, byteOrder (bigEndian (allX 1 r0)) (bytesOf 8 (readX 2 (allX 1 r0))), 0#5 == 2⟩,
      by unfold storeExclusives; simp, rfl, by decide⟩,
    by decide⟩

theorem witness_LoadsAndStores :
    (∃ s, Canonical s ∧ baseReg 1 s = .ok 0 s ∧ (∃ xs u, locateAll (dataDesc true 1) 8 (0 + (1#12).setWidth 64 <<< 3) s =
        .ok xs u) ∧ (∃ xs u, locateAll (dataDesc false 1) 8 (0 + (1#12).setWidth 64 <<< 3) s = .ok xs u) ∧
      ∃ xs u, locateAll (writebackDesc false) 8 (0 + (3#9).signExtend 64) s = .ok xs u) ∧
    (∃ s va u, Canonical s ∧ baseReg 1 s = .ok 4 s ∧
      locateAll (dataDesc true 1) 8 (4 + (0#12).setWidth 64 <<< 3) s = .fault .alignment va u) ∧
    (∃ s va u, Canonical s ∧ baseReg 1 s = .ok 4 s ∧
      locateAll (dataDesc false 1) 8 (4 + (0#12).setWidth 64 <<< 3) s = .fault .alignment va u) := by
  obtain ⟨a, u, ha, _⟩ := locates_ok (p := fun _ _ => true)
    (m := locateAll (dataDesc true 1) 8 (0 + (1#12).setWidth 64 <<< 3) r0) (by decide +kernel)
  obtain ⟨b, v, hb, _⟩ := locates_ok (p := fun _ _ => true)
    (m := locateAll (dataDesc false 1) 8 (0 + (1#12).setWidth 64 <<< 3) r0) (by decide +kernel)
  obtain ⟨c, w, hc, _⟩ := locates_ok (p := fun _ _ => true)
    (m := locateAll (writebackDesc false) 8 (0 + (3#9).signExtend 64) r0) (by decide +kernel)
  obtain ⟨k, va, x, hk, pk⟩ := faults_with (p := fun k _ _ => k == .alignment)
    (m := locateAll (dataDesc true 1) 8 (4 + (0#12).setWidth 64 <<< 3) (put .SCTLR_EL3 2 (allX 4 r0))) (by decide +kernel)
  obtain ⟨l, vb, y, hl, pl⟩ := faults_with (p := fun k _ _ => k == .alignment)
    (m := locateAll (dataDesc false 1) 8 (4 + (0#12).setWidth 64 <<< 3) (put .SCTLR_EL3 2 (allX 4 r0))) (by decide +kernel)
  rw [beq_iff_eq] at pk pl
  subst pk pl
  exact ⟨⟨r0, canonical_r0, rfl, ⟨a, u, ha⟩, ⟨b, v, hb⟩, c, w, hc⟩, ⟨_, va, x, canonical_of rfl rfl, rfl, hk⟩,
    ⟨_, vb, y, canonical_of rfl rfl, rfl, hl⟩⟩

theorem witness_AuthenticatedLoads :
    (∃ s xs u ys v, has .PAuth s = true ∧ baseReg 1 s = .ok 0 s ∧ sctlr s PacKey.da.enable = false ∧
      locateAll (dataDesc false 1) 8 0 s = .ok xs u ∧ locateAll (writebackDesc false) 8 0 s = .ok ys v) ∧
    (∃ s xs u, has .PAuth s = true ∧ baseReg 1 s = .ok 0 s ∧ sctlr s PacKey.da.enable = true ∧ apiTraps s = false ∧
      pacCorrect .da 0 0 s = true ∧
      locateAll (dataDesc false 1) 8 (pacStrip (pacField false 0 s) 0 + 0) s = .ok xs u) ∧
    (∃ s base, has .PAuth s = true ∧ baseReg 1 s = .ok base s ∧ sctlr s PacKey.da.enable = true ∧ apiTraps s = false ∧
      pacCorrect .da base 0 s = false ∧ has .FPACCOMBINE s = true) := by
  obtain ⟨a, u, ha, _⟩ := locates_ok (p := fun _ _ => true) (m := locateAll (dataDesc false 1) 8 0 r0) (by decide +kernel)
  obtain ⟨b, v, hb, _⟩ := locates_ok (p := fun _ _ => true) (m := locateAll (writebackDesc false) 8 0 r0)
    (by decide +kernel)
  obtain ⟨c, w, hc, _⟩ := locates_ok (p := fun _ _ => true)
    (m := locateAll (dataDesc false 1) 8 (pacStrip (pacField false 0 noField) 0 + 0) noField) (by decide +kernel)
  obtain ⟨p, hp⟩ := pac_incorrect .da 0 keysOn (by decide +kernel) (by decide +kernel)
  exact ⟨⟨r0, a, u, b, v, by decide +kernel, rfl, by decide +kernel, ha, hb⟩,
    ⟨noField, c, w, by decide +kernel, rfl, by decide +kernel, by decide +kernel, pacCorrect_of_empty (by decide +kernel), hc⟩,
    ⟨allX p keysOn, p, show has .PAuth keysOn = true by decide +kernel, rfl, show sctlr keysOn 27 = true by decide +kernel,
      show apiTraps keysOn = false by decide +kernel, hp, show has .FPACCOMBINE keysOn = true by decide +kernel⟩⟩

theorem witness_LocatingAnAccess : ∃ s xs u, Canonical s ∧ flat (dataDesc true 1) s = true ∧
    locateAll (dataDesc true 1) 8 3 s = .ok xs u := by
  obtain ⟨a, u, ha, _⟩ := locates_ok (p := fun _ _ => true) (m := locateAll (dataDesc true 1) 8 3 r0) (by decide +kernel)
  exact ⟨r0, a, u, canonical_r0, by decide +kernel, ha⟩

/-- A computation, tested. -/
def goesOn {α : Type} (p : α → State → Bool) : Acc α → Bool
  | .ok a s => p a s
  | .stop _ => false

/-- A computation that is tested true gives a value. -/
theorem goesOn_ok {α : Type} {p : α → State → Bool} : {m : Acc α} → goesOn p m = true →
    ∃ a s, m = .ok a s ∧ p a s = true
  | .ok a s => fun h => ⟨a, s, rfl, h⟩
  | .stop _ => nofun

theorem witness_StoreThenLoad : ∃ s xs v t w t', Canonical s ∧ flat (dataDesc true 1) s = true ∧
    locateAll (dataDesc true 1) 8 3 s = .ok xs v ∧ (∀ x ∈ xs, ordinary x = true) ∧
    memWrite (dataDesc true 1) 8 3 (5 : Word) s = .ok () t ∧ memRead (dataDesc false 1) 8 64 3 id t = .ok w t' := by
  obtain ⟨a, u, ha, pa⟩ := locates_ok (p := fun xs _ => xs.all ordinary) (m := locateAll (dataDesc true 1) 8 3 r0)
    (by decide +kernel)
  obtain ⟨⟨⟩, t, ht, pt⟩ := goesOn_ok (p := fun _ t => goesOn (fun _ _ => true) (memRead (dataDesc false 1) 8 64 3 id t))
    (m := memWrite (dataDesc true 1) 8 3 (5 : Word) r0) (by decide +kernel)
  obtain ⟨w, t', hw, _⟩ := goesOn_ok pt
  exact ⟨r0, a, u, t, w, t', canonical_r0, by decide +kernel, ha, by simpa using pa, ht, hw⟩

/-- SVE is not trapped, the vector length is the largest. -/
def sveOn : State := put .ZCR_EL3 15 (put .CPTR_EL3 0x1100 r0)

theorem witness_SveInstructions :
    (∃ s, sveExists s = true ∧ vecTrap (sveUnits s) s = none ∧ has .SVE s = true ∧ s.ps.sm = false ∧ has .F64MM s = true ∧
      256 ≤ s.cfg.maxVL ∧ 256 ≤ vl s) ∧
    (∃ s, has .SVE s = true ∧ s.ps.sm = false ∧ vecTrap (sveUnits s) s = none ∧ vl s < 256) ∧
    (∃ s, s.ps.sm = true ∧ sveExists s = true ∧ vecTrap (sveUnits s) s = none) ∧ (∃ s : State, s.cfg.maxVL < 256) :=
  ⟨⟨sveOn, by decide +kernel⟩,
   ⟨put .ZCR_EL3 0 sveOn, by decide +kernel⟩,
   ⟨{ sveOn with ps := { sveOn.ps with sm := true } }, rfl, by decide +kernel⟩,
   ⟨cfgBy (fun c => { c with maxVL := 128 }) r0, by decide +kernel⟩⟩

theorem witness_MinimumAndMaximum : ∃ s c, vecTrap [.fp] s = none ∧ c = ireg s .FPCR := ⟨r0, _, by decide +kernel, rfl⟩

theorem witness_MinMaxOfZerosAndNaNs : isNaN 0xFF800001#32 = true ∧ isNaN 0x7F800000#32 = false ∧
    isNaN 0x7FF0000000000001#64 = true ∧ isZeroFp 0x80000000#32 = true ∧ isZeroFp 0x8000000000000000#64 = true := by
  decide +kernel

theorem witness_VectorMoveLong : bitAt (15 : BitVec 4) 0 = true ∧ bitAt (14 : BitVec 4) 0 = false ∧
    (∃ s, elUsesA32 .el1 s = true ∧ a32SimdDisabled s = true) ∧
    (∃ s, elUsesA32 .el1 s = false ∧ vecTrap [.fp] s = none) ∧
    (∃ s, elUsesA32 .el1 s = true ∧ a32SimdDisabled s = false ∧ hcptrTraps s = false) :=
  let a32 : State := { r0 with ps := { r0.ps with el := .el1, nRW := true } }
  ⟨by decide, by decide, ⟨a32, by decide +kernel⟩,
   ⟨put .SCR_EL3 0x400 r0, by decide +kernel⟩,
   ⟨put .FPEXC32_EL2 0x40000000 { a32 with a32 := { a32.a32 with cpacr := 0x300000 } }, by decide +kernel⟩⟩

theorem witness_DebugStatusRead : (∃ s : State, condHolds 0 s.ps = false) ∧
    (∃ s, condHolds 14 s.ps = true ∧ halted s = false) ∧ (∃ s, condHolds 14 s.ps = true ∧ halted s = true) :=
  ⟨⟨r0, by decide +kernel⟩, ⟨r0, by decide +kernel⟩, ⟨debugged r0, by decide +kernel⟩⟩

theorem witness_PhysicalAddressRegisterWrite : (∃ s : State, condHolds 0 s.ps = false) ∧
    (∀ b : Bool, ∃ s, condHolds 14 s.ps = true ∧ halted s = true ∧ parTraps s = b) ∧
    (∃ s : State, condHolds 14 s.ps = true ∧ halted s = false ∧ (15 : BitVec 4) ≠ 3) ∧
    (∃ s : State, condHolds 14 s.ps = true ∧ s.ps.el = .el0) ∧
    (∃ s, condHolds 14 s.ps = true ∧ s.ps.el = .el1 ∧ el2Enabled s = true ∧ elUsesA32 .el2 s = false ∧
      ibit s .HSTR_EL2 7 = true) ∧
    (∃ s : State, condHolds 14 s.ps = true ∧ s.ps.el = .el3 ∧ ictlBit s .scr 0 = false) ∧
    (∃ s : State, condHolds 14 s.ps = true ∧ s.ps.el = .el3 ∧ ictlBit s .scr 0 = true) ∧
    (∃ s, condHolds 14 s.ps = true ∧ parBanked s = true ∧ s.ps.el = .el2) ∧
    (∃ s, condHolds 14 s.ps = true ∧ parBanked s = true ∧ s.ps.el = .el1 ∧ el2Enabled s = false) ∧
    (∃ s, condHolds 14 s.ps = true ∧ parBanked s = false ∧ s.ps.el = .el1 ∧ el2Enabled s = true ∧
      ibit s .HSTR_EL2 7 = false ∧ elUsesA32 .el2 s = false) :=
  ⟨⟨r0, by decide +kernel⟩, fun b => ⟨put .HSTR_EL2 (if b then 0x80 else 0) (debugged (low .el1 0)), by cases b <;> decide +kernel⟩,
   ⟨r0, by decide +kernel⟩, ⟨atEL .el0, by decide +kernel, rfl⟩,
   ⟨put .HSTR_EL2 0x80 (low .el1 0), by decide +kernel, rfl, by decide +kernel⟩,
   ⟨{ r0 with a32 := { r0.a32 with scr := 0 } }, by decide +kernel, rfl, by decide +kernel⟩,
   ⟨{ r0 with a32 := { r0.a32 with scr := 1 } }, by decide +kernel, rfl, by decide +kernel⟩,
   ⟨cfgBy (fun c => { c with el3AArch32 := true }) (atEL .el2), by decide +kernel, by decide +kernel, rfl⟩,
   ⟨cfgBy (fun c => { c with el3AArch32 := true }) (atEL .el1), by decide +kernel, by decide +kernel, rfl, by decide +kernel⟩,
   ⟨low .el1 0, by decide +kernel, by decide +kernel, rfl, by decide +kernel⟩⟩

theorem witness_BranchRecordAddresses : has .LVA r0 = true ∧ has .LVA noPAuth = false ∧
    (0x000FFFFFFFFFFFFF : Word) >>> 52 = 0 ∧ (0xFFF0000000000000 : Word) >>> 52 = BitVec.allOnes 64 >>> 52 ∧
    (0x0010000000000000 : Word) >>> 52 ≠ 0 ∧ (0x0010000000000000 : Word) >>> 52 ≠ BitVec.allOnes 64 >>> 52 := by
  decide +kernel

end Sys2Proof.Tests
end

