-- ==== Sys2Proof/Proofs/StepRuns.lean ====
section
/-! The stages a step passes through before the instruction runs, each where nothing intervenes, and the end of a step
that stays below the top of the address space. -/

namespace Sys2Proof.Proofs

open Sys2Proof.Machine Sys2Proof.Laws

/-! ### Before the fetch -/

/-- With no Warm reset requested and no interrupt taken, nothing comes from outside. -/
theorem beforeStep_quiet {s : State} (hreset : s.warmReset = .none) (hint : chosenInterrupt s = none)
    (k : State → Result) : beforeStep s k = k s := by
  simp [beforeStep, mayReset, hreset, hint]

/-- Where moreover no wait is in progress, the PE steps the instruction at pc. -/
theorem stepRun_quiet {s : State} (hreset : s.warmReset = .none) (hint : chosenInterrupt s = none)
    (hwait : s.waiting = none) : stepRun s = stepInstr s := by
  rw [stepRun, beforeStep_quiet hreset hint, hwait]

/-- Outside Debug state the PE's own step is that of `stepRun`. -/
theorem stepPe_running {s : State} (h : halted s = false) : stepPe s = stepRun s := by
  simp [stepPe, h]

/-- No synchronous event comes before the fetch: no Software Step, no Illegal Execution state, no misaligned pc. -/
theorem beforeFetch_clear {s : State} (hsoft : softStep s = false) (hil : s.ps.il = false)
    (hpc : pcAligned s = true) (k : State → Result) : beforeFetch s k = k s := by
  simp [beforeFetch, hsoft, hil, hpc]

/-- Without software step, PSTATE.SS is left as the instruction leaves it. -/
theorem endSoftStep_inactive {s : State} (h : softStep s = false) (r : Result) : endSoftStep s r = r := by
  cases r <;> simp [endSoftStep, h]

/-! ### Fetch and decode -/

/-- Bytes that a row of the decoder takes are its instruction. -/
theorem decodeCode_base {isa : ISA} {bs rest : List Byte} {i : Instr} (h : decode isa bs = .ok (i, rest)) (s : State) :
    decodeCode isa bs s = .ok (.base i) s := by
  simp [decodeCode, h]

/-- Bytes located and synchronised, with no breakpoint on them, are fetched as the instruction they decode to. -/
theorem fetchInstr_base {s s1 : State} {xs : List Xlat} {i : Instr} {rest : List Byte} (hloc : fetchLocs s = .ok xs s1)
    (hbreak : breakpointEvent s1 = none) (hsync : ∀ x ∈ xs, staleAt x s1 = false)
    (hdec : decode (curIsa s) (xs.map fun x => readByte x.key s1) = .ok (i, rest)) :
    fetchInstr s = .ok (.base i, xs.any (·.guarded)) s1 := by
  have hstale : xs.any (staleAt · s1) = false := by simpa using hsync
  simp [fetchInstr, hloc, Loc.toAcc, Acc.bind, hbreak, hstale, decodeCode_base hdec]

/-! ### Before the instruction runs -/

/-- In a page that is not guarded, or at a landing pad, there is no Branch Target exception. -/
theorem beforeInstr_lands {c : Code} {guarded : Bool} {s : State} (h : guarded = false ∨ landingPad c s = true)
    (k : State → Result) : beforeInstr c guarded s k = k s := by
  rcases h with h | h <;> simp [beforeInstr, h]

/-- No MOVPRFX before, no pairing to check. -/
theorem withPrefix_none {s : State} (h : s.movprfx = none) (c : Code) (trap control : State → Option Result)
    (k : State → Result) : withPrefix c trap control s k = k s := by
  simp [withPrefix, h]

/-- The step of the instruction at pc, once it is fetched: no check before it intervenes, so that it is run. -/
theorem stepInstr_exec {s s1 : State} {i : Instr} {guarded : Bool} (hsoft : softStep s = false)
    (hil : s.ps.il = false) (hpc : pcAligned s = true) (hfetch : fetchInstr s = .ok (.base i, guarded) s1)
    (hland : guarded = false ∨ btiCompatible i s1 = true) (hmovprfx : s1.movprfx = none) :
    stepInstr s = exec i s1 := by
  have hpad : guarded = false ∨ landingPad (.base i) s1 = true := hland
  rw [stepInstr, endSoftStep_inactive hsoft, beforeFetch_clear hsoft hil hpc, hfetch, andThen_value,
    beforeInstr_lands hpad, withPrefix_none hmovprfx]
  rfl

/-! ### The end of a step -/

/-- The end of a step that has not run off the top goes on; it advances the counts, may set the Event Register, trains
predictions and draws new free values, and of the System registers writes the cycle counter alone. -/
theorem afterStep_next {t : State} (htop : t.offTop = false) :
    ∃ u, afterStep t = .next u ∧
      u = { t with sys := u.sys, count := t.count + Config.ticks t.free, eventReg := u.eventReg
                   predictions := u.predictions, free := t.free + 1 } ∧
      (t.eventReg = true → u.eventReg = true) ∧ ∀ r, r ≠ .PMCCNTR_EL0 → sreg u r = sreg t r := by
  have hcycles (v : Word) (r : SysReg) (hr : r ≠ .PMCCNTR_EL0) : sreg (setReg .PMCCNTR_EL0 v t) r = sreg t r :=
    sreg_setReg_other _ _ _ _ fun h => hr (sysIdx_inj h).symm
  rw [afterStep, if_neg (by simp [htop])]
  refine ⟨_, rfl, ?_, fun h => by simp [h], fun r hr => ?_⟩
  · split <;> rfl
  · split
    · exact hcycles _ r hr
    · rfl

/-- Settles O8: each stage before the instruction passes it on, and `afterStep_next` says what the end of the step
changes. -/
theorem stepRunsDecodedInstruction : Obligations.StepRunsDecodedInstruction := by
  unfold Obligations.StepRunsDecodedInstruction
  intro s s1 xs i hagents hrun hreset hint hwait hsoft hil hpc hloc hbreak hsync hdec _ hland hmovprfx
  have hfetch := fetchInstr_base hloc hbreak hsync hdec
  have hstep : step s = finish (exec i s1) := by
    rw [step_body, stepBody_pe hagents, stepPe_running hrun, stepRun_quiet hreset hint hwait,
      stepInstr_exec hsoft hil hpc hfetch hland hmovprfx]
  refine ⟨hstep, fun t hexec htop => ?_⟩
  rw [hstep, hexec]
  exact afterStep_next htop

end Sys2Proof.Proofs
end

