-- ==== Sys2Proof/Proofs/PstateViews.lean ====
section
/-! MRS and MSR of the PSTATE fields that software at EL0 names: which check remains before the access, and what a
permitted or a trapped access does. -/

namespace Sys2Proof.Proofs

open Sys2Proof.Machine Sys2Proof.Safety Sys2Proof.Laws

/-! ### Names of PSTATE fields for every level -/

/-- The selector names a PSTATE view with op1 3, which no feature, no direction and no redirection makes an exception
of; SVCR, which has a gate of its own, is not meant. -/
structure UserPstateName (sel : BitVec 15) (v : View) : Prop where
  name : nameOf sel = some (.view v)
  op1 : selOp1 sel = 3
  pstate : isPstateView (.view v) = true
  noFeature : viewFeature v = none
  writable : viewReadOnly v = false
  notRedirected : redirect (.view v) = .view v
  ungated : v ≠ .SVCR

theorem userPstateName_NZCV : UserPstateName 0x5A10 .NZCV := by constructor <;> decide

theorem userPstateName_DAIF : UserPstateName 0x5A11 .DAIF := by constructor <;> decide

theorem userPstateName_DIT : UserPstateName 0x5A15 .DIT := by constructor <;> decide

section
variable {sel : BitVec 15} {v : View} {rt : BitVec 5} {s : State} {i : Instr}

/-- No check but the trap of the view itself stands before an access to such a name. -/
theorem UserPstateName.permission_eq (hn : UserPstateName sel v) (w : Bool) (s : State) :
    permission sel (.view v) w s = viewTrap v s := by
  have hnv : nvPermission sel s = none := nvPermission_none (.inr (.inr (by simp [hn.op1])))
  have hlevel : minLevel sel ≤ elNum s.ps.el := by simp [minLevel, hn.op1]
  have hexists : nameExists (.view v) w s = true := by simp [nameExists, hn.noFeature, hn.writable]
  have htid3 : tid3Traps sel (some (.view v)) s = false := by simp [tid3Traps, idSpace, hn.op1]
  exact permission_own hnv hlevel hexists (firstTrap_none (.inr htid3) nofun)

/-- Outside Debug state the use of a PSTATE view is defined. -/
theorem pstateView_defined (r : RegName) (hrun : halted s = false) : (halted s && isPstateView r) = false := by
  simp [hrun]

/-- A read that its view does not trap completes with the value of the view. -/
theorem UserPstateName.completes_read (hn : UserPstateName sel v) (hrun : halted s = false)
    (hview : viewTrap v s = .allowed) (hexec : exec i s = readSys sel rt s) :
    ∃ t, Completes i [rt] false false s s t ∧ Holds rt (viewValue v s) t := by
  have hallowed : permission sel (.view v) false s = .allowed := (hn.permission_eq false s).trans hview
  have hrnd : v ≠ .RNDR ∧ v ≠ .RNDRRS := by constructor <;> rintro rfl <;> exact nomatch hn.pstate
  have hwrite : exec i s = .next (advance (writeX rt (viewValue v s) s)) := by
    rw [hexec, readSys_allowed hn.name (pstateView_defined _ hrun) hallowed (by simpa using hn.ungated),
      performRead_view hrnd.1 hrnd.2 (.inr hn.notRedirected)]
  exact ⟨_, completes_writeX hwrite false false⟩

/-- A write that its view does not trap, of PSTATE fields but the Execution state, completes with those fields written. -/
theorem UserPstateName.completes_write {p : PState} (hn : UserPstateName sel v) (hrun : halted s = false)
    (hview : viewTrap v s = .allowed) (hexec : exec i s = writeSys sel rt s)
    (hwrites : writeView v (readX rt s) s = { s with ps := p }) (hstate : p.nRW = s.ps.nRW) :
    ∃ t, Completes i [] false false s { s with ps := p } t := by
  have hallowed : permission sel (.view v) true s = .allowed := (hn.permission_eq true s).trans hview
  have hwrite : exec i s = .next (advance { s with ps := p }) := by
    rw [hexec, writeSys_allowed hn.name (pstateView_defined _ hrun) hallowed (by simpa using hn.ungated),
      performWrite_view (.inr hn.notRedirected), hwrites]
  exact ⟨_, completes_advance hwrite (frame_refl _ _ _ _) rfl rfl rfl hstate⟩

/-- A read that its view traps is an exception with EC 0x18. -/
theorem UserPstateName.traps_read {el : EL} (hn : UserPstateName sel v) (hrun : halted s = false)
    (hview : viewTrap v s = .trap el) (hexec : exec i s = readSys sel rt s) :
    ∃ iss, exec i s = raise (syncExc el 0x18 iss s) s := by
  have htrap : permission sel (.view v) false s = .trap el := (hn.permission_eq false s).trans hview
  rw [hexec, readSys_trap hn.name (pstateView_defined _ hrun) htrap]
  exact sysTrap_eq (by simp [el3SddUndef, hrun])

/-- A write that its view traps is an exception with EC 0x18. -/
theorem UserPstateName.traps_write {el : EL} (hn : UserPstateName sel v) (hrun : halted s = false)
    (hview : viewTrap v s = .trap el) (hexec : exec i s = writeSys sel rt s) :
    ∃ iss, exec i s = raise (syncExc el 0x18 iss s) s := by
  have htrap : permission sel (.view v) true s = .trap el := (hn.permission_eq true s).trans hview
  rw [hexec, writeSys_trap hn.name (pstateView_defined _ hrun) htrap]
  exact sysTrap_eq (by simp [el3SddUndef, hrun])

end

/-! ### The trap of DAIF -/

/-- Above EL0, or where SCTLR_EL1.UMA allows it, DAIF is not trapped. -/
theorem viewTrap_DAIF_allowed {s : State} (h : s.ps.el ≠ .el0 ∨ umaAllows s = true) :
    viewTrap .DAIF s = .allowed := by
  rcases h with h | h <;> simp [viewTrap, h]

/-- At EL0, where SCTLR_EL1.UMA does not allow it, DAIF is trapped to the level that EL0's exceptions go to. -/
theorem viewTrap_DAIF_trap {s : State} (hel : s.ps.el = .el0) (huma : umaAllows s = false) :
    viewTrap .DAIF s = .trap (ownTarget s) := by
  simp [viewTrap, hel, huma]

/-- Settles O18: NZCV and DIT have no trap, so that each access completes; DAIF has the one that `viewTrap` decides. -/
theorem pstateRegistersReadAndWrite : Obligations.PstateRegistersReadAndWrite := by
  unfold Obligations.PstateRegistersReadAndWrite
  intro s rt hrun
  refine ⟨?readNzcv, ?writeNzcv, ?readDit, ?writeDit, fun hallowed => ?daifAllowed, fun hel huma => ?daifTrapped⟩
  case readNzcv => exact userPstateName_NZCV.completes_read hrun rfl rfl
  case writeNzcv => exact userPstateName_NZCV.completes_write hrun rfl rfl rfl rfl
  case readDit => exact userPstateName_DIT.completes_read hrun rfl rfl
  case writeDit => exact userPstateName_DIT.completes_write hrun rfl rfl rfl rfl
  case daifAllowed =>
    have hview := viewTrap_DAIF_allowed hallowed
    exact ⟨userPstateName_DAIF.completes_read hrun hview rfl,
      userPstateName_DAIF.completes_write hrun hview rfl rfl rfl⟩
  case daifTrapped =>
    have hview := viewTrap_DAIF_trap hel huma
    exact ⟨userPstateName_DAIF.traps_read hrun hview rfl, userPstateName_DAIF.traps_write hrun hview rfl⟩

end Sys2Proof.Proofs
end

