-- ==== Sys2Proof/Proofs/Encoding.lean ====
section
/-! The decoder gives back every well-formed instruction from its encoding: an instruction's row reads the operands
from where the encoder places them, and no row before it matches. -/

namespace Sys2Proof.Proofs

open Sys2Proof.Laws

/-! ### Fields of a word -/

theorem slice_or (a b : Half) (lo len : Nat) : slice (a ||| b) lo len = slice a lo len ||| slice b lo len :=
  BitVec.extractLsb'_or

/-- A field that fits into the word is read back from the place it was put at. -/
theorem slice_place_same {n : Nat} (f : BitVec n) (lo : Nat) (h : lo + n ≤ 32) : slice (place f lo) lo n = f := by
  ext k hk
  simp [slice, place, show lo + k < 32 by omega, hk]

/-- Bits beside a field have nothing of it. -/
theorem slice_place_apart {n : Nat} (f : BitVec n) (lo at' len : Nat) (h : lo + n ≤ at' ∨ at' + len ≤ lo) :
    slice (place f lo) at' len = 0#len := by
  ext k hk
  have hbit : at' + k < lo ∨ n ≤ at' + k - lo := by omega
  rcases hbit with hbelow | habove
  · simp [slice, place, hbelow]
  · simp [slice, place, BitVec.getLsbD_of_ge f _ habove]

/-- Where the fixed bits of a row are zero, they leave the operand as it is. -/
theorem slice_fixed_or {lo len : Nat} (w : Half) (f : BitVec len) (h : slice w lo len = 0#len) :
    slice w lo len ||| f = f := by
  simp [h]

/-! ### The row of an instruction -/

/-- Every instruction's word has the fixed bits of its row. -/
theorem encodeRow : ∀ i, EncodeRow.Statement i
  | .nop => EncodeRow.nop | .wfe => EncodeRow.wfe | .wfi => EncodeRow.wfi | .pacia1716 => EncodeRow.pacia1716
  | .pacib1716 => EncodeRow.pacib1716 | .autia1716 => EncodeRow.autia1716 | .autib1716 => EncodeRow.autib1716
  | .csdb => EncodeRow.csdb | .paciaz => EncodeRow.paciaz | .paciasp => EncodeRow.paciasp
  | .pacibz => EncodeRow.pacibz | .pacibsp => EncodeRow.pacibsp | .autiaz => EncodeRow.autiaz
  | .autiasp => EncodeRow.autiasp | .autibz => EncodeRow.autibz | .autibsp => EncodeRow.autibsp
  | .bti => EncodeRow.bti | .btiC => EncodeRow.btiC | .btiJ => EncodeRow.btiJ | .btiJC => EncodeRow.btiJC
  | .wfet _ => EncodeRow.wfet _ | .wfit _ => EncodeRow.wfit _ | .sb => EncodeRow.sb | .isb => EncodeRow.isb
  | .dsb _ => EncodeRow.dsb _ | .dmb _ => EncodeRow.dmb _ | .dsbNXS _ => EncodeRow.dsbNXS _
  | .clrex _ => EncodeRow.clrex _ | .msrDaifSetImm _ => EncodeRow.msrDaifSetImm _
  | .msrDaifClrImm _ => EncodeRow.msrDaifClrImm _ | .msrSsbsImm _ => EncodeRow.msrSsbsImm _
  | .msrDitImm _ => EncodeRow.msrDitImm _ | .msrTcoImm _ => EncodeRow.msrTcoImm _
  | .msrSpselImm _ => EncodeRow.msrSpselImm _ | .mrs _ _ _ _ _ _ => EncodeRow.mrs _ _ _ _ _ _
  | .msr _ _ _ _ _ _ => EncodeRow.msr _ _ _ _ _ _ | .sys _ _ _ _ _ => EncodeRow.sys _ _ _ _ _
  | .sysl _ _ _ _ _ => EncodeRow.sysl _ _ _ _ _ | .dcZva _ => EncodeRow.dcZva _ | .dcGva _ => EncodeRow.dcGva _
  | .dcGzva _ => EncodeRow.dcGzva _ | .dcCivac _ => EncodeRow.dcCivac _ | .dcCigvac _ => EncodeRow.dcCigvac _
  | .dcCigdvac _ => EncodeRow.dcCigdvac _ | .icIvau _ => EncodeRow.icIvau _ | .dcCipae _ => EncodeRow.dcCipae _
  | .dcCigdpae _ => EncodeRow.dcCigdpae _ | .tlbiAlle1 => EncodeRow.tlbiAlle1
  | .tlbiAlle1nxs => EncodeRow.tlbiAlle1nxs | .tlbiRvae1 _ => EncodeRow.tlbiRvae1 _
  | .tlbiRvaae1 _ => EncodeRow.tlbiRvaae1 _ | .tlbiRipas2e1 _ => EncodeRow.tlbiRipas2e1 _
  | .tlbiRpaos _ => EncodeRow.tlbiRpaos _ | .cfpRctx _ => EncodeRow.cfpRctx _ | .dvpRctx _ => EncodeRow.dvpRctx _
  | .cppRctx _ => EncodeRow.cppRctx _ | .atS1e1r _ => EncodeRow.atS1e1r _ | .mrsRndr _ => EncodeRow.mrsRndr _
  | .mrsRndrrs _ => EncodeRow.mrsRndrrs _ | .mrsCntpctEl0 _ => EncodeRow.mrsCntpctEl0 _
  | .mrsCntvctEl0 _ => EncodeRow.mrsCntvctEl0 _ | .mrsCntpctssEl0 _ => EncodeRow.mrsCntpctssEl0 _
  | .mrsCntvctssEl0 _ => EncodeRow.mrsCntvctssEl0 _ | .mrsIdAa64smfr0El1 _ => EncodeRow.mrsIdAa64smfr0El1 _
  | .mrsCcsidrEl1 _ => EncodeRow.mrsCcsidrEl1 _ | .mrsIsrEl1 _ => EncodeRow.mrsIsrEl1 _
  | .mrsNzcv _ => EncodeRow.mrsNzcv _ | .msrNzcv _ => EncodeRow.msrNzcv _ | .mrsDaif _ => EncodeRow.mrsDaif _
  | .msrDaif _ => EncodeRow.msrDaif _ | .mrsDit _ => EncodeRow.mrsDit _ | .msrDit _ => EncodeRow.msrDit _
  | .mrsRmrEl1 _ => EncodeRow.mrsRmrEl1 _ | .msrRmrEl1 _ => EncodeRow.msrRmrEl1 _
  | .mrsRmrEl2 _ => EncodeRow.mrsRmrEl2 _ | .msrRmrEl2 _ => EncodeRow.msrRmrEl2 _
  | .mrsRmrEl3 _ => EncodeRow.mrsRmrEl3 _ | .msrRmrEl3 _ => EncodeRow.msrRmrEl3 _
  | .pacga _ _ _ => EncodeRow.pacga _ _ _ | .pacia _ _ => EncodeRow.pacia _ _ | .pacib _ _ => EncodeRow.pacib _ _
  | .pacda _ _ => EncodeRow.pacda _ _ | .pacdb _ _ => EncodeRow.pacdb _ _ | .autia _ _ => EncodeRow.autia _ _
  | .autib _ _ => EncodeRow.autib _ _ | .autda _ _ => EncodeRow.autda _ _ | .autdb _ _ => EncodeRow.autdb _ _
  | .paciza _ => EncodeRow.paciza _ | .pacizb _ => EncodeRow.pacizb _ | .pacdza _ => EncodeRow.pacdza _
  | .pacdzb _ => EncodeRow.pacdzb _ | .autiza _ => EncodeRow.autiza _ | .autizb _ => EncodeRow.autizb _
  | .autdza _ => EncodeRow.autdza _ | .autdzb _ => EncodeRow.autdzb _ | .ret _ => EncodeRow.ret _
  | .retaa => EncodeRow.retaa | .retab => EncodeRow.retab | .braaz _ => EncodeRow.braaz _
  | .brabz _ => EncodeRow.brabz _ | .blraaz _ => EncodeRow.blraaz _ | .blrabz _ => EncodeRow.blrabz _
  | .braa _ _ => EncodeRow.braa _ _ | .brab _ _ => EncodeRow.brab _ _ | .blraa _ _ => EncodeRow.blraa _ _
  | .blrab _ _ => EncodeRow.blrab _ _ | .eret => EncodeRow.eret | .eretaa => EncodeRow.eretaa
  | .eretab => EncodeRow.eretab | .drps => EncodeRow.drps | .ldra _ _ _ _ _ _ => EncodeRow.ldra _ _ _ _ _ _
  | .svc _ => EncodeRow.svc _ | .hvc _ => EncodeRow.hvc _ | .smc _ => EncodeRow.smc _ | .brk _ => EncodeRow.brk _
  | .hlt _ => EncodeRow.hlt _ | .stgOffset _ _ _ => EncodeRow.stgOffset _ _ _
  | .stgPost _ _ _ => EncodeRow.stgPost _ _ _ | .stgPre _ _ _ => EncodeRow.stgPre _ _ _
  | .stzgm _ _ => EncodeRow.stzgm _ _ | .stgm _ _ => EncodeRow.stgm _ _ | .ldgm _ _ => EncodeRow.ldgm _ _
  | .ld64b _ _ => EncodeRow.ld64b _ _ | .st64b _ _ => EncodeRow.st64b _ _ | .st64bv _ _ _ => EncodeRow.st64bv _ _ _
  | .st64bv0 _ _ _ => EncodeRow.st64bv0 _ _ _ | .ldxr _ _ => EncodeRow.ldxr _ _ | .ldaxr _ _ => EncodeRow.ldaxr _ _
  | .stxrb _ _ _ => EncodeRow.stxrb _ _ _ | .stlxrb _ _ _ => EncodeRow.stlxrb _ _ _
  | .stxrh _ _ _ => EncodeRow.stxrh _ _ _ | .stlxrh _ _ _ => EncodeRow.stlxrh _ _ _
  | .stxrW _ _ _ => EncodeRow.stxrW _ _ _ | .stlxrW _ _ _ => EncodeRow.stlxrW _ _ _
  | .stxrX _ _ _ => EncodeRow.stxrX _ _ _ | .stlxrX _ _ _ => EncodeRow.stlxrX _ _ _
  | .stxpW _ _ _ _ => EncodeRow.stxpW _ _ _ _ | .stlxpW _ _ _ _ => EncodeRow.stlxpW _ _ _ _
  | .stxpX _ _ _ _ => EncodeRow.stxpX _ _ _ _ | .stlxpX _ _ _ _ => EncodeRow.stlxpX _ _ _ _
  | .movzX _ _ _ => EncodeRow.movzX _ _ _ | .movzW _ _ _ => EncodeRow.movzW _ _ _
  | .addX _ _ _ _ => EncodeRow.addX _ _ _ _ | .subX _ _ _ _ => EncodeRow.subX _ _ _ _
  | .subsX _ _ _ _ => EncodeRow.subsX _ _ _ _ | .addW _ _ _ _ => EncodeRow.addW _ _ _ _
  | .subW _ _ _ _ => EncodeRow.subW _ _ _ _ | .subsW _ _ _ _ => EncodeRow.subsW _ _ _ _
  | .orrX _ _ _ _ _ => EncodeRow.orrX _ _ _ _ _ | .cbzX _ _ => EncodeRow.cbzX _ _ | .cbnzX _ _ => EncodeRow.cbnzX _ _
  | .cbzW _ _ => EncodeRow.cbzW _ _ | .cbnzW _ _ => EncodeRow.cbnzW _ _ | .bCond _ _ => EncodeRow.bCond _ _
  | .b _ => EncodeRow.b _ | .strX _ _ _ => EncodeRow.strX _ _ _ | .ldrX _ _ _ => EncodeRow.ldrX _ _ _
  | .ldrXPre _ _ _ => EncodeRow.ldrXPre _ _ _ | .movprfx _ _ => EncodeRow.movprfx _ _
  | .movprfxPred _ _ _ _ _ => EncodeRow.movprfxPred _ _ _ _ _ | .fmmlaS _ _ _ => EncodeRow.fmmlaS _ _ _
  | .fmmlaD _ _ _ => EncodeRow.fmmlaD _ _ _ | .fmaxS _ _ _ => EncodeRow.fmaxS _ _ _
  | .fmaxD _ _ _ => EncodeRow.fmaxD _ _ _ | .fminS _ _ _ => EncodeRow.fminS _ _ _
  | .fminD _ _ _ => EncodeRow.fminD _ _ _ | .fmaxnmS _ _ _ => EncodeRow.fmaxnmS _ _ _
  | .fmaxnmD _ _ _ => EncodeRow.fmaxnmD _ _ _ | .fminnmS _ _ _ => EncodeRow.fminnmS _ _ _
  | .fminnmD _ _ _ => EncodeRow.fminnmD _ _ _ | .vmovlA32 _ _ _ _ _ _ => EncodeRow.vmovlA32 _ _ _ _ _ _
  | .vmovlT32 _ _ _ _ _ _ => EncodeRow.vmovlT32 _ _ _ _ _ _ | .csdbA32 _ => EncodeRow.csdbA32 _
  | .csdbT32 => EncodeRow.csdbT32 | .sbA32 => EncodeRow.sbA32 | .sbT32 => EncodeRow.sbT32
  | .mrcDbgdscrint _ _ => EncodeRow.mrcDbgdscrint _ _ | .mcrPar _ _ => EncodeRow.mcrPar _ _

/-- Where the row of an instruction stands among the rows of its instruction set: in the order of the constructors, but
for the generic rows, which stand last, and the A32 and T32 rows. -/
def rowIndex : Instr → Nat
  | .mrs _ _ _ _ _ _ => 166
  | .msr _ _ _ _ _ _ => 167
  | .sys _ _ _ _ _ => 168
  | .sysl _ _ _ _ _ => 169
  | .vmovlA32 _ _ _ _ _ _ => 0
  | .csdbA32 _ => 1
  | .sbA32 => 2
  | .mrcDbgdscrint _ _ => 3
  | .mcrPar _ _ => 4
  | .vmovlT32 _ _ _ _ _ _ => 0
  | .csdbT32 => 1
  | .sbT32 => 2
  | i => if i.ctorIdx < 34 then i.ctorIdx else i.ctorIdx - 4

/-- The row there has the instruction's mask and value, and reads the instruction from its word: each operand was
placed where the row takes it from, the other operands and the fixed bits apart from it. -/
theorem row_reads_back (i : Instr) : ∃ r, (rowsOf i.isa)[rowIndex i]? = some r ∧ r.mask = (rowBits i).1 ∧
    r.value = (rowBits i).2 ∧ r.build (encodeWord i) = i := by
  cases i <;> exact ⟨_, rfl, rfl, rfl, by
    simp (disch := decide) [encodeWord, slice_or, slice_place_same, slice_place_apart, slice_fixed_or]⟩

/-! ### The first row that matches -/

/-- Where a word has the fixed bits of a row, it has the row's value under the row's mask. -/
theorem row_matches_iff {r : Row} {w : Half} : r.matches w = true ↔ w &&& r.mask = r.value := by
  simp [Row.matches]

/-- Two rows fix a bit that they share to different values. -/
def fixedBitsDiffer (r q : Row) : Bool := (r.value ^^^ q.value) &&& (r.mask &&& q.mask) != 0

/-- No word has the fixed bits of both of them. -/
theorem not_matches_of_fixedBitsDiffer {r q : Row} {w : Half} (h : fixedBitsDiffer r q = true)
    (hq : q.matches w = true) : r.matches w = false := by
  refine Bool.eq_false_iff.mpr fun hr => ?_
  have hzero : (r.value ^^^ q.value) &&& (r.mask &&& q.mask) = 0 := by
    rw [← row_matches_iff.mp hr, ← row_matches_iff.mp hq]
    ext k hk
    simp only [BitVec.getElem_and, BitVec.getElem_xor]
    cases w[k] <;> cases r.mask[k] <;> simp
  simp [fixedBitsDiffer, hzero] at h

/-- A row that names a register or an operation which the generic row with the fixed bits `v` would also read: the row
fixes all of the selector, or for the operations without Xt the selector and an Rt of 31. -/
def namesPartOf (r : Row) (v : Half) : Bool :=
  if v = 0xD5300000 then r.mask == 0xFFFFFFE0 && namedMrs.contains (slice r.value 5 15)
  else if v = 0xD5100000 then r.mask == 0xFFFFFFE0 && namedMsr.contains (slice r.value 5 15)
  else if v = 0xD5080000 then
    (r.mask == 0xFFFFFFE0 && namedSys.contains (slice r.value 5 14)) ||
      (r.mask == 0xFFFFFFFF && namedSysNoReg.contains (slice r.value 5 14) && slice r.value 0 5 == 31)
  else false

/-- Of two rows of an instruction set no word matches both, but for a named row and the generic row after it. -/
theorem rows_pairwise (isa : ISA) :
    (rowsOf isa).Pairwise fun r q => fixedBitsDiffer r q = true ∨ namesPartOf r q.value = true := by
  cases isa <;> decide +kernel

/-- Bits that a matched row fixes are those of its value. -/
theorem slice_eq_of_matches {r : Row} {w : Half} {lo len : Nat} (hm : r.matches w = true)
    (hmask : slice r.mask lo len = BitVec.allOnes len) : slice w lo len = slice r.value lo len := by
  have hand : slice (w &&& r.mask) lo len = slice w lo len &&& slice r.mask lo len := BitVec.extractLsb'_and
  rw [← row_matches_iff.mp hm, hand, hmask, BitVec.and_allOnes]

/-- Two neighbouring fields are one. -/
theorem slice_append (w : Half) (lo m n : Nat) : slice w (lo + m) n ++ slice w lo m = slice w lo (n + m) :=
  BitVec.extractLsb'_append_extractLsb'_eq_extractLsb' rfl

theorem selReg_slices (w : Half) :
    selReg (slice w 19 1) (slice w 16 3) (slice w 12 4) (slice w 8 4) (slice w 5 3) = slice w 5 15 := by
  rw [selReg, slice_append w 5 3 4, slice_append w 5 7 4, slice_append w 5 11 3, slice_append w 5 14 1]

theorem selSys_slices (w : Half) :
    selSys (slice w 16 3) (slice w 12 4) (slice w 8 4) (slice w 5 3) = slice w 5 14 := by
  rw [selSys, slice_append w 5 3 4, slice_append w 5 7 4, slice_append w 5 11 3]

/-- A generic MRS has its selector in bits [19:5]. -/
theorem slice_mrs (o0 : BitVec 1) (op1 : BitVec 3) (crn crm : BitVec 4) (op2 : BitVec 3) (rt : BitVec 5) :
    slice (encodeWord (.mrs o0 op1 crn crm op2 rt)) 5 15 = selReg o0 op1 crn crm op2 := by
  obtain ⟨_, hr, _, _, hback⟩ := row_reads_back (.mrs o0 op1 crn crm op2 rt)
  cases hr
  obtain ⟨h1, h2, h3, h4, h5, _⟩ := Instr.mrs.inj hback
  rw [← selReg_slices, h1, h2, h3, h4, h5]

/-- So has a generic MSR. -/
theorem slice_msr (o0 : BitVec 1) (op1 : BitVec 3) (crn crm : BitVec 4) (op2 : BitVec 3) (rt : BitVec 5) :
    slice (encodeWord (.msr o0 op1 crn crm op2 rt)) 5 15 = selReg o0 op1 crn crm op2 := by
  obtain ⟨_, hr, _, _, hback⟩ := row_reads_back (.msr o0 op1 crn crm op2 rt)
  cases hr
  obtain ⟨h1, h2, h3, h4, h5, _⟩ := Instr.msr.inj hback
  rw [← selReg_slices, h1, h2, h3, h4, h5]

/-- A generic SYS has its operation in bits [18:5] and Xt in bits [4:0]. -/
theorem slice_sys (op1 : BitVec 3) (crn crm : BitVec 4) (op2 : BitVec 3) (rt : BitVec 5) :
    slice (encodeWord (.sys op1 crn crm op2 rt)) 5 14 = selSys op1 crn crm op2 ∧
      slice (encodeWord (.sys op1 crn crm op2 rt)) 0 5 = rt := by
  obtain ⟨_, hr, _, _, hback⟩ := row_reads_back (.sys op1 crn crm op2 rt)
  cases hr
  obtain ⟨h1, h2, h3, h4, h5⟩ := Instr.sys.inj hback
  rw [← selSys_slices, h1, h2, h3, h4]
  exact ⟨rfl, h5⟩

/-- A well-formed instruction of a generic row is none that a named row names. -/
theorem not_matches_of_namesPartOf {i : Instr} {r : Row} (hwf : i.wf = true)
    (h : namesPartOf r (rowBits i).2 = true) : r.matches (encodeWord i) = false := by
  refine Bool.eq_false_iff.mpr fun hm => ?_
  cases i with
  | mrs o0 op1 crn crm op2 rt =>
    obtain ⟨hmask, hnamed⟩ : r.mask = 0xFFFFFFE0 ∧ namedMrs.contains (slice r.value 5 15) = true := by
      simpa [namesPartOf, rowBits] using h
    rw [← slice_eq_of_matches hm (by rw [hmask]; decide), slice_mrs] at hnamed
    rw [Instr.wf, hnamed] at hwf
    cases hwf
  | msr o0 op1 crn crm op2 rt =>
    obtain ⟨hmask, hnamed⟩ : r.mask = 0xFFFFFFE0 ∧ namedMsr.contains (slice r.value 5 15) = true := by
      simpa [namesPartOf, rowBits] using h
    rw [← slice_eq_of_matches hm (by rw [hmask]; decide), slice_msr] at hnamed
    rw [Instr.wf, hnamed] at hwf
    cases hwf
  | sys op1 crn crm op2 rt =>
    obtain ⟨hsel, hrt⟩ := slice_sys op1 crn crm op2 rt
    obtain ⟨hmask, hnamed⟩ | ⟨hmask, hnamed, h31⟩ :
        (r.mask = 0xFFFFFFE0 ∧ namedSys.contains (slice r.value 5 14) = true) ∨
          (r.mask = 0xFFFFFFFF ∧ namedSysNoReg.contains (slice r.value 5 14) = true ∧ slice r.value 0 5 = 31) := by
      simpa [namesPartOf, rowBits, and_assoc] using h
    · rw [← slice_eq_of_matches hm (by rw [hmask]; decide), hsel] at hnamed
      rw [Instr.wf, hnamed] at hwf
      cases hwf
    · rw [← slice_eq_of_matches hm (by rw [hmask]; decide), hsel] at hnamed
      rw [← slice_eq_of_matches hm (by rw [hmask]; decide), hrt] at h31
      rw [Instr.wf, hnamed, h31, Bool.true_and, beq_self_eq_true, Bool.not_true, Bool.and_false] at hwf
      cases hwf
  | _ => cases h

/-- The decoder finds the row of a well-formed instruction first, and reads the instruction from it. -/
theorem decodeWord_encodeWord {i : Instr} (hwf : i.wf = true) : decodeWord i.isa (encodeWord i) = some i := by
  obtain ⟨r, hrow, hmask, hvalue, hback⟩ := row_reads_back i
  obtain ⟨hlen, hget⟩ := List.getElem?_eq_some_iff.mp hrow
  have hmatch : r.matches (encodeWord i) = true := by
    rw [row_matches_iff, hmask, hvalue]
    exact encodeRow i
  have hearlier (k : Nat) (hk : k < rowIndex i) : (rowsOf i.isa)[k].matches (encodeWord i) = false := by
    have hpair := List.pairwise_iff_getElem.mp (rows_pairwise i.isa) k (rowIndex i) (hk.trans hlen) hlen hk
    rw [hget, hvalue] at hpair
    exact hpair.elim (not_matches_of_fixedBitsDiffer · hmatch) (not_matches_of_namesPartOf hwf)
  have hfind : (rowsOf i.isa).find? (·.matches (encodeWord i)) = some r :=
    List.find?_eq_some_iff_getElem.mpr ⟨hmatch, rowIndex i, hlen, hget, fun k hk => by simp [hearlier k hk]⟩
  simp [decodeWord, hfind, hback, hwf]

/-! ### The bytes of a word -/

theorem wordOfBytes_slices (w : Half) : wordOfBytes (slice w 0 8) (slice w 8 8) (slice w 16 8) (slice w 24 8) = w := by
  rw [wordOfBytes, slice_append w 0 8 8, slice_append w 0 16 8, slice_append w 0 24 8]
  exact BitVec.extractLsb'_eq_self

theorem wordOfHalves_slices (w : Half) :
    wordOfHalves (slice w 16 8) (slice w 24 8) (slice w 0 8) (slice w 8 8) = w := by
  rw [wordOfHalves, slice_append w 0 8 8, slice_append w 0 16 8, slice_append w 0 24 8]
  exact BitVec.extractLsb'_eq_self

/-- The first halfword of the T32 instructions begins an instruction of 32 bits. -/
theorem wideT32_encodeWord {i : Instr} (h : i.isa = .t32) : wideT32 (slice (encodeWord i) 24 8) = true := by
  cases i with
  | vmovlT32 u d imm3H vd m vm =>
    have hfirst : slice (encodeWord (.vmovlT32 u d imm3H vd m vm)) 24 8 =
        slice 0xEF800A10 24 8 ||| slice (place u 28) 24 8 := by
      simp (disch := decide) [encodeWord, slice_or, slice_place_apart]
    rw [hfirst]
    clear hfirst h
    revert u
    decide
  | csdbT32 => decide
  | sbT32 => decide
  | _ => cases h

/-- The bytes laid out for a word decode to what the word decodes to. -/
theorem decode_layoutWord {isa : ISA} {w : Half} {i : Instr} (hword : decodeWord isa w = some i)
    (hwide : isa = .t32 → wideT32 (slice w 24 8) = true) : decode isa (layoutWord isa w) = .ok (i, []) := by
  cases isa with
  | t32 => simp [decode, layoutWord, hwide rfl, wordOfHalves_slices, hword]
  | a64 => simp [decode, layoutWord, wordOfBytes_slices, hword]
  | a32 => simp [decode, layoutWord, wordOfBytes_slices, hword]

/-- Settles O6: the row of an instruction is the first that its word matches, and reads every operand back. -/
theorem decodeEncode : Obligations.DecodeEncode := by
  unfold Obligations.DecodeEncode
  intro i hwf
  exact decode_layoutWord (decodeWord_encodeWord hwf) wideT32_encodeWord

/-- Bytes that are the encoding of a well-formed instruction decode to it. -/
theorem decode_of_encode {i : Instr} {isa : ISA} {bs : List Byte} (hwf : i.wf = true) (hisa : i.isa = isa)
    (hbytes : encode i = bs) : decode isa bs = .ok (i, []) := by
  subst hisa hbytes
  exact decodeEncode i hwf

/-- Settles O7: the bytes are what the encoder gives for the instructions they stand for. -/
theorem decodeSampleWords : Obligations.DecodeSampleWords := by
  unfold Obligations.DecodeSampleWords
  refine ⟨?_, ?_, ?_, ?_, ?_, ?_, ?_, ?_, ?_, ?_, ?_, ?_, ?_⟩ <;> exact decode_of_encode rfl rfl (by decide)

end Sys2Proof.Proofs
end

