-- ==== Sys2Proof/Proofs/Translation.lean ====
section
/-! What a translation that succeeds leaves unchanged, and the Data Abort of one that fails. -/

namespace Sys2Proof.Proofs

open Sys2Proof.Machine Sys2Proof.Safety Sys2Proof.Laws

/-! ### What a translation changes -/

/-- `s` with the memory, the staleness of code and the cached translations of `u`. -/
def withTables (s u : State) : State := { s with mem := u.mem, stale := u.stale, tlb := u.tlb, gptTlb := u.gptTlb }

/-- The update of a descriptor writes memory. -/
theorem updateDescriptor_eq (d : DescUpdate) (s : State) :
    updateDescriptor d s =
      { s with mem := (updateDescriptor d s).mem, stale := (updateDescriptor d s).stale } := by
  unfold updateDescriptor
  cases d.af <;> cases d.dirty <;> rfl

theorem updateDescriptors_eq (ds : List DescUpdate) (s : State) :
    updateDescriptors ds s =
      { s with mem := (updateDescriptors ds s).mem, stale := (updateDescriptors ds s).stale } := by
  induction ds generalizing s with
  | nil => rfl
  | cons d ds ih =>
    have hfirst := updateDescriptor_eq d s
    have hrest := ih (updateDescriptor d s)
    rw [show updateDescriptors (d :: ds) s = updateDescriptors ds (updateDescriptor d s) from rfl]
    generalize updateDescriptor d s = t at hfirst hrest ⊢
    rw [hrest, hfirst]

/-- Caching an entry changes the TLB and the cached GPT entries. -/
theorem fillTlb_eq (old : List TLBEntry) (e : TLBEntry) (s : State) :
    fillTlb old e s = { s with tlb := (fillTlb old e s).tlb, gptTlb := (fillTlb old e s).gptTlb } := by
  unfold fillTlb
  split <;> rfl

section
variable {d : AccDesc} {va a : Word} {s u : State} {x : Xlat} {e : TLBEntry} {old : List TLBEntry}

/-- The use of an entry that gives a location changes nothing: its descriptors are updated later. -/
theorem useEntry_ok {late : Option LateFault} (h : useEntry late d va a e s = .ok x u) : u = s := by
  simp only [useEntry, useEntry.lateFault] at h
  split_ifs at h
  cases h
  rfl

theorem walkAccess_ok (h : walkAccess d va a old s = .ok x u) :
    u = { s with tlb := u.tlb, gptTlb := u.gptTlb } := by
  unfold walkAccess at h
  split at h
  · cases h
  · rw [useEntry_ok h]
  · rw [useEntry_ok h]
    exact fillTlb_eq _ _ s

theorem useCached_ok (h : useCached d va a old e s = .ok x u) :
    u = { s with tlb := u.tlb, gptTlb := u.gptTlb } := by
  unfold useCached at h
  split at h
  case h_1 huse =>
    cases h
    rw [useEntry_ok huse]
  case h_2 =>
    split at h
    · exact walkAccess_ok h
    · cases h

theorem lookupIn_ok {hits : List TLBEntry} (h : lookupIn hits d va a s = .ok x u) :
    u = { s with tlb := u.tlb, gptTlb := u.gptTlb } := by
  unfold lookupIn at h
  split at h
  case h_1 => cases h
  case h_2 =>
    split at h
    case h_1 => exact useCached_ok h
    case h_2 =>
      split at h
      · cases h
      · exact useCached_ok h
    case h_3 =>
      split at h
      · cases h
      · exact walkAccess_ok h

theorem findWith_ok {tlb : List TLBEntry} (h : findWith tlb d va s = .ok x u) :
    u = { s with tlb := u.tlb, gptTlb := u.gptTlb } := by
  unfold findWith at h
  split at h
  · split at h
    · cases h
      rfl
    · cases h
  · exact lookupIn_ok h

/-- A translation that succeeds may update descriptors and cache what it read, and changes nothing else. -/
theorem translate_ok (h : translate d va s = .ok x u) : u = withTables s u := by
  obtain ⟨y, v, hlookup, hcommit⟩ := loc_bind_ok h
  have hv : v = { s with tlb := v.tlb, gptTlb := v.gptTlb } := findWith_ok (settled_ok.mp hlookup).1
  obtain ⟨rfl, hu⟩ : y = x ∧ commit y v = u := by simpa using hcommit
  have hcommit : commit y v = _ := updateDescriptors_eq y.updates v
  rw [← hu, withTables]
  generalize commit y v = t at hcommit ⊢
  rw [hcommit, hv]

end

/-! ### Bits of a register that is put together from fields -/

theorem getLsbD_bitTo (n j : Nat) (b : Bool) : (bitTo n b).getLsbD j = (b && decide (j = n) && decide (j < 64)) := by
  cases b
  · simp [bitTo]
  · simp only [bitTo, BitVec.getLsbD_shiftLeft, BitVec.getLsbD_one, if_true]
    grind

theorem getLsbD_fieldTo {n : Nat} (lo j : Nat) (f : BitVec n) :
    (fieldTo lo f).getLsbD j = (decide (lo ≤ j) && decide (j < 64) && f.getLsbD (j - lo)) := by
  simp only [fieldTo, BitVec.getLsbD_shiftLeft, BitVec.getLsbD_setWidth]
  grind

theorem getLsbD_maskOf (w lo hi j : Nat) :
    (maskOf w lo hi).getLsbD j = (decide (lo ≤ j) && decide (j < hi) && decide (j < w)) := by
  simp only [maskOf, BitVec.getLsbD_and, BitVec.getLsbD_not, BitVec.getLsbD_shiftLeft, BitVec.getLsbD_allOnes]
  grind

theorem getLsbD_ite (c : Bool) (a : Word) (j : Nat) : (if c then a else 0 : Word).getLsbD j = (c && a.getLsbD j) := by
  cases c <;> simp

/-! ### Aborts -/

/-- The fault status code stands in the low bits of the ISS, below every other field. -/
theorem field_abortIss (d : AccDesc) (k : AbortKind) (vncr : Bool) (s : State) :
    field (abortIss d k vncr s) 0 6 = faultStatus k := by
  ext j hj
  have hbit (n : Nat) (b : Bool) (hn : 6 ≤ n) : (bitTo n b).getLsbD j = false := by
    simp [getLsbD_bitTo, show j ≠ n by omega]
  simp only [field, abortIss, BitVec.getElem_extractLsb', BitVec.getLsbD_or, BitVec.getLsbD_setWidth, getLsbD_ite,
    getLsbD_fieldTo, Nat.zero_add]
  simp [hbit, show ¬11 ≤ j by omega, show j < 25 by omega, hj]

/-- A Permission fault of an access other than a fetch is taken as a Data Abort. -/
theorem abort_permission {α : Type} {d : AccDesc} (hd : d.access ≠ .fetch) (level : Nat) (st2 : Bool)
    (ipa : BitVec 52) (va : Word) (s : State) :
    ∃ r, abort (α := α) d (.walk .permission level st2 ipa) va s = .stop r ∧
      DataAbort (faultStatus (.walk .permission level st2 ipa)) va s r := by
  refine ⟨_, rfl, _, rfl, rfl, ?_, field_abortIss _ _ _ _, rfl, rfl⟩
  have hgpc : isGpc (.walk .permission level st2 ipa) = false := rfl
  simp only [abortEc, hgpc, Bool.false_and, Bool.false_eq_true, if_false, beq_iff_eq, hd]
  split <;> simp

end Sys2Proof.Proofs
end

