-- ==== Sys2Proof/Proofs/SystemInstructions.lean ====
section
/-! The generic SYS and SYSL: when an operation is UNDEFINED, and what each operation does where it is not. -/

namespace Sys2Proof.Proofs

open Sys2Proof.Machine Sys2Proof.Safety Sys2Proof.Laws

/-! ### Completing -/

/-- An instruction that makes the state `v` from one with the same pc and Execution state, and moves on. -/
theorem completes_made {i : Instr} {s u v : State} (h : exec i s = .next (advance v)) (hu : u = v)
    (hpc : v.pc = s.pc) (htop : v.offTop = s.offTop) (hdbg : halted v = halted s) (hstate : v.ps.nRW = s.ps.nRW) :
    Completes i [] false false s u (advance v) :=
  completes_advance h (hu ▸ frame_refl _ _ _ _) hpc htop hdbg hstate

/-! ### Cache maintenance by address -/

section
variable {i : Instr} {s u : State} {x : Xlat} {cmow : Bool} {va : Word} {k : Xlat → State → State}

/-- Where the address translates, the maintenance acts on the line, or the instruction is a NOP after the translation;
either way only how far written code is from being fetched changes. -/
theorem cacheByVa_completes (hexec : exec i s = cacheByVa cmow va s k) (hx : translate (cacheDesc cmow) va s = .ok x u)
    (hk : k x u = { u with stale := (k x u).stale }) :
    ∃ t, exec i s = .next t ∧ NextPc s t ∧ Frame [] false false { u with stale := t.stale } t ∧
      (t.stale = u.stale ∨ t.stale = (k x u).stale) := by
  have hu : u = withTables s u := translate_ok hx
  have hnext : exec i s = .next (advance (if s.cfg.cmoNop then u else k x u)) := by simp [hexec, cacheByVa, hx]
  obtain ⟨v, hv, hmade, hstale⟩ : ∃ v, (if s.cfg.cmoNop then u else k x u) = v ∧
      v = { u with stale := v.stale } ∧ (v.stale = u.stale ∨ v.stale = (k x u).stale) := by
    split
    · exact ⟨u, rfl, rfl, .inl rfl⟩
    · exact ⟨_, rfl, hk, .inr rfl⟩
  rw [hv] at hnext
  have hsame : v = { withTables s u with stale := v.stale } := hu ▸ hmade
  obtain ⟨-, hframe, hpc⟩ := completes_made (u := { u with stale := (advance v).stale }) hnext
    (by rw [advance_stale, ← hmade]) (by rw [hsame]; rfl) (by rw [hsame]; rfl) (by rw [hsame]; rfl)
    (by rw [hsame]; rfl)
  exact ⟨_, hnext, hpc, hframe, by rwa [advance_stale]⟩

/-- A Permission fault of the translation is taken, whether or not the instruction is a NOP. -/
theorem cacheByVa_permission {level : Nat} {st2 : Bool} {ipa : BitVec 52} {va' : Word}
    (hx : translate (cacheDesc cmow) va s = .fault (.walk .permission level st2 ipa) va' u) :
    DataAbort (faultStatus (.walk .permission level st2 ipa)) va' u (cacheByVa cmow va s k) := by
  obtain ⟨r, habort, hdata⟩ :=
    abort_permission (α := Unit) (d := cacheDesc cmow) (by simp [cacheDesc]) level st2 ipa va' u
  simpa [cacheByVa, hx, habort] using hdata

end

/-! ### Address translation -/

/-- PAR_EL1 after a success: F is 0, and bits [51:12] are those of the physical address. -/
theorem parSuccess_bits (x : Xlat) (s : State) :
    bitAt (parSuccess x s) 0 = false ∧ field (parSuccess x s) 12 40 = field (BitVec.ofNat 64 x.pa) 12 40 := by
  have hbits (j : Nat) (hlow : j = 0 ∨ 12 ≤ j) (hhigh : j < 52) :
      (parSuccess x s).getLsbD j = ((BitVec.ofNat 64 x.pa).getLsbD j && decide (12 ≤ j)) := by
    have hshare : (fieldTo 7 (0b11#2)).getLsbD j = false := by
      rw [getLsbD_fieldTo]
      rcases hlow with rfl | h12
      · rfl
      · simp [BitVec.getLsbD_of_ge (0b11#2) (j - 7) (by omega)]
    simp only [parSuccess, BitVec.getLsbD_or, BitVec.getLsbD_and, getLsbD_ite, hshare, getLsbD_fieldTo, getLsbD_bitTo,
      getLsbD_maskOf]
    simp [show ¬56 ≤ j by omega, show j ≠ 9 by omega, show j ≠ 11 by omega, hhigh, show j < 64 by omega]
  refine ⟨(hbits 0 (.inl rfl) (by omega)).trans (by simp), ?_⟩
  ext j hj
  simp [field, hbits, show 12 + j < 52 by omega]

/-- PAR_EL1 after a fault: F is 1, and FST is the fault status. -/
theorem parFault_bits (k : AbortKind) : bitAt (parFault k) 0 = true ∧ field (parFault k) 1 6 = faultStatus k := by
  refine ⟨by simp [bitAt, parFault, bitTo], ?_⟩
  ext j hj
  simp only [field, parFault, BitVec.getElem_extractLsb', BitVec.getLsbD_or, getLsbD_bitTo, getLsbD_fieldTo]
  simp [show 1 + j ≠ 9 by omega, show 1 + j ≠ 11 by omega, show 1 + j < 64 by omega, hj]

section
variable {i : Instr} {s u : State} {op : AtOp} {v : Word}

/-- A report in PAR_EL1 leaves the other System registers, and moves on. -/
theorem completes_report (m : State) (w : Word) (h : exec i s = .next (advance (setReg .PAR_EL1 w (atMemory m s)))) :
    ∃ t, Completes i [] false false s { s with sys := t.sys, mem := m.mem, stale := m.stale } t ∧
      sreg t .PAR_EL1 = w ∧ ∀ q, q ≠ .PAR_EL1 → sreg t q = sreg s q := by
  have hsreg (q : SysReg) :
      sreg (advance (setReg .PAR_EL1 w (atMemory m s))) q = sreg (setReg .PAR_EL1 w (atMemory m s)) q := by
    simp [sreg]
  refine ⟨_, completes_made h ?_ rfl rfl rfl rfl, ?_, fun q hq => ?_⟩
  · rw [advance_sys]
    rfl
  · rw [hsreg, sreg_setReg_same _ _ _ (sysIdx_lt _)]
  · rw [hsreg, sreg_setReg_other _ _ _ _ fun h => hq (sysIdx_inj h).symm]
    rfl

/-- An address translation that succeeds reports the physical address, and may have set Access flags. -/
theorem addressTranslate_ok {x : Xlat} (hexec : exec i s = addressTranslate op v s)
    (hx : atTranslate op v s = .ok x u) :
    ∃ t, Completes i [] false false s { s with
        sys := t.sys, mem := (faultUpdates x.updates u).mem, stale := (faultUpdates x.updates u).stale } t ∧
      bitAt (sreg t .PAR_EL1) 0 = false ∧ field (sreg t .PAR_EL1) 12 40 = field (BitVec.ofNat 64 x.pa) 12 40 ∧
      ∀ q, q ≠ .PAR_EL1 → sreg t q = sreg s q := by
  obtain ⟨t, hdone, hpar, hother⟩ := completes_report (i := i) (s := s) (faultUpdates x.updates u) (parSuccess x s)
    (by simp only [hexec, addressTranslate, hx])
  obtain ⟨hbit, hpa⟩ := parSuccess_bits x s
  exact ⟨t, hdone, hpar ▸ hbit, hpar ▸ hpa, hother⟩

/-- A fault that it does not take as an exception is reported. -/
theorem addressTranslate_fault {k : AbortKind} {va : Word} (hexec : exec i s = addressTranslate op v s)
    (hx : atTranslate op v s = .fault k va u) (hraises : atRaises k = false) :
    ∃ t, Completes i [] false false s { s with sys := t.sys, mem := u.mem, stale := u.stale } t ∧
      bitAt (sreg t .PAR_EL1) 0 = true ∧ field (sreg t .PAR_EL1) 1 6 = faultStatus k ∧
      ∀ q, q ≠ .PAR_EL1 → sreg t q = sreg s q := by
  obtain ⟨t, hdone, hpar, hother⟩ :=
    completes_report (i := i) (s := s) u (parFault k) (by simp [hexec, addressTranslate, hx, hraises])
  obtain ⟨hbit, hstatus⟩ := parFault_bits k
  exact ⟨t, hdone, hpar ▸ hbit, hpar ▸ hstatus, hother⟩

end

/-! ### TLB invalidation -/

section
variable {i : Instr} {s : State} {p : TLBEntry → Bool}

/-- An invalidation drops the entries it matches, and may clear the monitors. -/
theorem tlbInvalidate_completes (h : exec i s = .next (advance (tlbInvalidate p s))) :
    ∃ t, Completes i [] false false s
        { s with tlb := t.tlb, exLocal := t.exLocal, exGlobal := t.exGlobal, exTlbi := true } t ∧
      (∀ e, e ∈ t.tlb ↔ e ∈ s.tlb ∧ p e = false) ∧
      (t.exLocal = s.exLocal ∨ t.exLocal = none) ∧ (t.exGlobal = s.exGlobal ∨ t.exGlobal = none) := by
  refine ⟨_, completes_made h ?_ rfl rfl rfl rfl, by simpa using tlbInvalidate_spec p s⟩
  simp only [advance_tlb, advance_exLocal, advance_exGlobal]
  rfl

/-- The same with cached GPT entries dropped too. -/
theorem gptInvalidate_completes {g : List GptEntry}
    (h : exec i s = .next (advance { tlbInvalidate p s with gptTlb := g })) :
    ∃ t, Completes i [] false false s { s with
        tlb := t.tlb, gptTlb := t.gptTlb, exLocal := t.exLocal, exGlobal := t.exGlobal, exTlbi := true } t ∧
      (∀ e, e ∈ t.tlb ↔ e ∈ s.tlb ∧ p e = false) ∧ t.gptTlb = g := by
  refine ⟨_, completes_made h ?_ rfl rfl rfl rfl, by simpa using (tlbInvalidate_spec p s).1, by simp⟩
  simp only [advance_tlb, advance_gptTlb, advance_exLocal, advance_exGlobal]
  rfl

end

/-- An entry that an operation by range of virtual or intermediate addresses matches is one whose block it overlaps. -/
theorem overlaps_of_tlbiMatch {op : RangeOp} {num : Nat} {v lo hi : Word} {e : TLBEntry} (hop : op ≠ .rpa)
    (h : tlbiMatch op num v lo hi e = true) :
    Overlaps (if op = .ripas2 then 52 else 56) lo hi e.ia e.blocksize := by
  cases op <;> simp_all [tlbiMatch, rangeOverlaps_iff]

/-- An operation by range of physical addresses matches the entries with GPT information whose block it overlaps. -/
theorem tlbiMatch_rpa_iff {num : Nat} {v lo hi : Word} {e : TLBEntry} :
    tlbiMatch .rpa num v lo hi e = true ↔
      e.includesGpt = true ∧ Overlaps 52 lo hi (e.oa.setWidth 64) e.blocksize := by
  simp [tlbiMatch, rangeOverlaps_iff]

theorem gptMatch_iff {anyLevel : Bool} {lo hi : Word} {e : GptEntry} :
    gptMatch anyLevel lo hi e = true ↔
      Overlaps 52 lo hi (e.pa.setWidth 64) e.size ∧ (anyLevel = true ∨ e.level = 1) := by
  simp [gptMatch, rangeOverlaps_iff]

/-- Those of physical addresses are operations of their own. -/
theorem sysOpOf_ne_rpa (op1 : BitVec 3) (crn crm : BitVec 4) (op2 : BitVec 3) (el : EL) :
    sysOpOf op1 crn crm op2 ≠ some (.tlbiRange .rpa el) := by
  have hat : atSysOp op1 crm op2 ≠ some (.tlbiRange .rpa el) := by
    unfold atSysOp
    split_ifs <;> [skip; skip; split] <;> simp
  have hcache : cacheSysOp op1 crm op2 ≠ some (.tlbiRange .rpa el) := by
    unfold cacheSysOp
    split <;> simp
  have htlbi : tlbiSysOp op1 crm op2 ≠ .tlbiRange .rpa el := by
    unfold tlbiSysOp
    dsimp only
    split <;> (try split) <;> simp
  unfold sysOpOf
  split_ifs
  · split
    · rename_i hsome
      exact hsome ▸ hat
    · exact hcache
  · simpa using htlbi
  · simp
  · simp

/-! ### UNDEFINED operations -/

/-- An operation is UNDEFINED for its level, its allocation, or a feature that it needs. -/
theorem sysUndefined_iff (o : SysOp) (op1 : BitVec 3) (crn crm : BitVec 4) (op2 : BitVec 3) (s : State) :
    sysUndefined o op1 crn crm op2 s = true ↔
      elNum s.ps.el < sysMinLevel op1 ∨
        (mayBeUnallocated o crn = true ∧ Config.unallocatedSys (selSys op1 crn crm op2) = true) ∨
        (tagSysOp o op2 = true ∧ has .MTE s = false) ∨
        (o ∈ [.gptAll, .gptRange true, .gptRange false] ∧ has .RME s = false) := by
  cases o with
  | gptRange b => cases b <;> simp [sysUndefined, or_assoc]
  | _ => simp [sysUndefined, or_assoc]

section
variable {s : State} {op1 : BitVec 3} {crn crm : BitVec 4} {op2 : BitVec 3} {rt : BitVec 5} {o : SysOp}

/-- At its level, allocated and with its features an operation is not UNDEFINED. -/
theorem sysUndefined_eq_false (hlevel : sysMinLevel op1 ≤ elNum s.ps.el)
    (halloc : mayBeUnallocated o crn = true → Config.unallocatedSys (selSys op1 crn crm op2) = false)
    (htag : tagSysOp o op2 = true → has .MTE s = true)
    (hrme : o ∈ [.gptAll, .gptRange true, .gptRange false] → has .RME s = true) :
    sysUndefined o op1 crn crm op2 s = false := by
  refine Bool.eq_false_iff.mpr fun h => ?_
  rcases (sysUndefined_iff ..).mp h with h | ⟨h, h'⟩ | ⟨h, h'⟩ | ⟨h, h'⟩
  · omega
  · simp [halloc h] at h'
  · simp [htag h] at h'
  · simp [hrme h] at h'

theorem exec_sys (op1 : BitVec 3) (crn crm : BitVec 4) (op2 : BitVec 3) (rt : BitVec 5) (s : State) :
    exec (.sys op1 crn crm op2 rt) s = execSys op1 crn crm op2 rt s := by
  rfl

theorem exec_sysl (op1 : BitVec 3) (crn crm : BitVec 4) (op2 : BitVec 3) (rt : BitVec 5) (s : State) :
    exec (.sysl op1 crn crm op2 rt) s = execSysl op1 crn crm op2 rt s := by
  rfl

theorem sys_undefined (ho : sysOpOf op1 crn crm op2 = some o) (hundef : sysUndefined o op1 crn crm op2 s = true) :
    exec (.sys op1 crn crm op2 rt) s = undefined s := by
  simp [exec_sys, execSys, ho, hundef]

theorem sys_notNamed (ho : sysOpOf op1 crn crm op2 = none) :
    exec (.sys op1 crn crm op2 rt) s =
      if Config.unallocatedSys (selSys op1 crn crm op2) then undefined s else .refused .sysInstrNotInSpec := by
  simp [exec_sys, execSys, ho]

/-! ### Each operation where it is defined -/

theorem sys_setWay (ho : sysOpOf op1 crn crm op2 = some .setWay)
    (hdef : sysUndefined .setWay op1 crn crm op2 s = false) :
    exec (.sys op1 crn crm op2 rt) s = .next (advance s) := by
  simp [exec_sys, execSys, ho, hdef]

theorem sys_icAll (ho : sysOpOf op1 crn crm op2 = some .icAll) (hdef : sysUndefined .icAll op1 crn crm op2 s = false) :
    exec (.sys op1 crn crm op2 rt) s = .next (advance (invalidateICache s)) := by
  simp [exec_sys, execSys, ho, hdef]

/-- What maintenance by VA does to the line: a clean moves its code on, the others nothing. -/
def lineEffect : SysOp → Xlat → State → State
  | .cleanVa => cleanLine
  | _ => fun _ s => s

theorem lineEffect_eq (o : SysOp) (x : Xlat) (s : State) :
    lineEffect o x s = { s with stale := (lineEffect o x s).stale } := by
  cases o <;> rfl

theorem lineEffect_of_not_clean (h : o ≠ .cleanVa) (x : Xlat) (s : State) : lineEffect o x s = s := by
  cases o with
  | cleanVa => exact absurd rfl h
  | _ => rfl

/-- It moves the stages of written code and forgets none. -/
theorem lineEffect_stale_keys (o : SysOp) (x : Xlat) (s : State) :
    (lineEffect o x s).stale.map (·.1) = s.stale.map (·.1) := by
  by_cases h : o = .cleanVa
  · subst h
    simp only [lineEffect, cleanLine, moveStages, List.map_map]
    refine List.map_congr_left fun e _ => ?_
    simp only [Function.comp]
    split <;> rfl
  · rw [lineEffect_of_not_clean h]

theorem sys_byVa (ho : sysOpOf op1 crn crm op2 = some o) (hdef : sysUndefined o op1 crn crm op2 s = false)
    (hva : o ∈ [.cleanVa, .invalidateVa, .tagVa]) :
    exec (.sys op1 crn crm op2 rt) s = cacheByVa false (readX rt s) s (lineEffect o) := by
  fin_cases hva <;> simp [exec_sys, execSys, ho, hdef, lineEffect]

theorem sys_at {op : AtOp} (ho : sysOpOf op1 crn crm op2 = some (.at op))
    (hdef : sysUndefined (.at op) op1 crn crm op2 s = false) :
    exec (.sys op1 crn crm op2 rt) s = addressTranslate op (readX rt s) s := by
  simp [exec_sys, execSys, ho, hdef]

/-- A TLB invalidation for a reserved Security state is a NOP. -/
theorem sys_tlb_reserved (ho : sysOpOf op1 crn crm op2 = some o) (hdef : sysUndefined o op1 crn crm op2 s = false)
    (htlbi : o = .tlbi ∨ ∃ op el, o = .tlbiRange op el) (hop1 : op1 ≠ 6) (hres : tlbiReserved s = true) :
    exec (.sys op1 crn crm op2 rt) s = .next (advance s) := by
  have hstops : (op1 != 6 && tlbiReserved s) = true := by rw [hres, Bool.and_true, bne_iff_ne]; exact hop1
  obtain rfl | ⟨op, el, rfl⟩ := htlbi <;>
    simp only [exec_sys, execSys, ho, hdef, hstops, Bool.false_eq_true, if_false, if_true]

theorem sys_tlbi (ho : sysOpOf op1 crn crm op2 = some .tlbi) (hdef : sysUndefined .tlbi op1 crn crm op2 s = false)
    (hres : op1 = 6 ∨ tlbiReserved s = false) :
    exec (.sys op1 crn crm op2 rt) s = .next (advance
      (tlbInvalidate (Config.tlbiElided (16 + (selSys op1 crn crm op2).toNat) (readX rt s)) s)) := by
  have hgoes : (op1 != 6 && tlbiReserved s) = false := by rcases hres with h | h <;> simp [h]
  simp only [exec_sys, execSys, ho, hdef, hgoes, Bool.false_eq_true, if_false]

theorem sys_tlbiRange {op : RangeOp} {el : EL} (ho : sysOpOf op1 crn crm op2 = some (.tlbiRange op el))
    (hdef : sysUndefined (.tlbiRange op el) op1 crn crm op2 s = false) (hres : op1 = 6 ∨ tlbiReserved s = false) :
    exec (.sys op1 crn crm op2 rt) s = .next (advance
      (tlbiRangeOp op (16 + (selSys op1 crn crm op2).toNat) el rt s)) := by
  have hgoes : (op1 != 6 && tlbiReserved s) = false := by rcases hres with h | h <;> simp [h]
  simp only [exec_sys, execSys, ho, hdef, hgoes, Bool.false_eq_true, if_false]

theorem sys_gptRange {anyLevel : Bool} (ho : sysOpOf op1 crn crm op2 = some (.gptRange anyLevel))
    (hdef : sysUndefined (.gptRange anyLevel) op1 crn crm op2 s = false) :
    exec (.sys op1 crn crm op2 rt) s = .next (advance (gptRangeOp anyLevel rt s)) := by
  simp [exec_sys, execSys, ho, hdef]

theorem sys_gptAll (ho : sysOpOf op1 crn crm op2 = some .gptAll)
    (hdef : sysUndefined .gptAll op1 crn crm op2 s = false) :
    exec (.sys op1 crn crm op2 rt) s = .next (advance (gptAllOp (16 + (selSys op1 crn crm op2).toNat) rt s)) := by
  simp [exec_sys, execSys, ho, hdef]

end

/-- Settles O26: `sysUndefined_iff` decides whether the operation is UNDEFINED; where it is not, `sys_setWay` to
`sys_gptAll` say what runs, and the lemmas about maintenance, translation and invalidation what that does. -/
theorem genericSystemInstructions : Obligations.GenericSystemInstructions := by
  unfold Obligations.GenericSystemInstructions
  intro s u op1 crn crm op2 rt i v hi hv
  subst hi hv
  refine ⟨fun o ho => ⟨fun h => sys_undefined ho ((sysUndefined_iff ..).mpr h), fun hlevel halloc htag => ?defined⟩,
    sys_notNamed, fun halloc => ?sysl, fun h => ?syslUndefined⟩
  case sysl =>
    exact ⟨_, (completes_writeX (by simp [exec_sysl, execSysl, halloc]; rfl) false false).1⟩
  case syslUndefined => simp [exec_sysl, execSysl, h]
  case defined =>
    have hdef := sysUndefined_eq_false (o := o) (crn := crn) (crm := crm) hlevel halloc htag
    refine ⟨?setWay, ?icAll, ?byVa, ?translation, ?reserved, ?tlbi, ?tlbiRange, ?gptRange, ?gptAll⟩
    case setWay =>
      rintro rfl
      exact ⟨_, completes_nop (sys_setWay ho (hdef (by simp))) _ _ _⟩
    case icAll =>
      rintro rfl
      refine ⟨_, completes_made (sys_icAll ho (hdef (by simp))) ?_ rfl rfl rfl rfl, by rw [advance_stale]; rfl⟩
      rw [advance_stale]
      rfl
    case byVa =>
      intro hva
      have hexec := sys_byVa (rt := rt) ho (hdef (by fin_cases hva <;> simp)) hva
      refine ⟨fun x hx => ?_, fun level st2 ipa va hx => hexec ▸ cacheByVa_permission hx⟩
      obtain ⟨t, hnext, hpc, hframe, hstale⟩ := cacheByVa_completes hexec hx (lineEffect_eq o x u)
      refine ⟨t, hnext, hpc, hframe, ?_, fun hclean => ?_⟩
      · rcases hstale with h | h <;> rw [h]
        exact lineEffect_stale_keys o x u
      · rwa [lineEffect_of_not_clean hclean, or_self] at hstale
    case translation =>
      rintro op rfl
      have hexec := sys_at (rt := rt) ho (hdef (by simp))
      exact ⟨fun x hx => addressTranslate_ok hexec hx, fun k va hx hraises => addressTranslate_fault hexec hx hraises⟩
    case reserved =>
      intro op el htlbi hop1 hres
      exact ⟨_, completes_nop (sys_tlb_reserved ho (hdef (by rcases htlbi with rfl | rfl <;> simp))
        (htlbi.imp_right fun h => ⟨op, el, h⟩) hop1 hres) _ _ _⟩
    case tlbi =>
      rintro rfl hres
      exact tlbInvalidate_completes (sys_tlbi ho (hdef (by simp)) hres)
    case tlbiRange =>
      rintro op el rfl hres
      obtain ⟨t, hdone, htlb, hmonitors⟩ := tlbInvalidate_completes (sys_tlbiRange ho (hdef (by simp)) hres)
      refine ⟨t, hdone, fun e he => ((htlb e).mp he).1, fun e he hapart => (htlb e).mpr ⟨he, ?_⟩, hmonitors⟩
      have hop : op ≠ .rpa := by
        rintro rfl
        exact sysOpOf_ne_rpa _ _ _ _ _ ho
      exact Bool.eq_false_iff.mpr fun h => hapart (overlaps_of_tlbiMatch hop h)
    case gptRange =>
      rintro hrme anyLevel lo hi rfl hrange
      obtain ⟨t, hdone, htlb, hgpt⟩ := gptInvalidate_completes (sys_gptRange ho (hdef fun _ => hrme))
      refine ⟨t, hdone, fun e => ?_, fun e => ?_⟩
      · rw [htlb, ← Bool.not_eq_true, tlbiMatch_rpa_iff, ← hrange]
      · rw [hgpt, List.mem_filter, Bool.not_eq_true', ← Bool.not_eq_true, gptMatch_iff, ← hrange]
        exact Iff.rfl
    case gptAll =>
      rintro hrme rfl
      obtain ⟨t, hdone, htlb, hgpt⟩ := gptInvalidate_completes (g := []) (sys_gptAll ho (hdef fun _ => hrme))
      rw [hgpt] at hdone
      refine ⟨t, hdone, fun e he => ((htlb e).mp he).1, fun e he hno => (htlb e).mpr ⟨he, by simp [hno]⟩⟩

end Sys2Proof.Proofs
end

