-- ==== Sys2Proof/Proofs/PointerAuth.lean ====
section
/-! The pointer authentication code: which bits of a pointer its field takes, what inserting one and authenticating it
give, and the PAC*, AUT* and PACGA instructions. -/

namespace Sys2Proof.Proofs

open Sys2Proof.Machine Sys2Proof.Safety Sys2Proof.Laws

/-! ### Bits taken from one of two values -/

section
variable {w : Nat}

/-- Outside the mask of a merge stands the first value. -/
theorem merge_and_not (a b m : BitVec w) : (a &&& ~~~m ||| b &&& m) &&& ~~~m = a &&& ~~~m := by
  ext j
  simp
  grind

/-- Under the mask of a merge stands the second value. -/
theorem merge_and (a b m : BitVec w) : (a &&& ~~~m ||| b &&& m) &&& m = b &&& m := by
  ext j
  simp
  grind

/-- Values that agree outside a mask agree in each bit that the mask leaves out. -/
theorem bitAt_eq_of_and_not_eq {a b m : BitVec w} {j : Nat} (h : a &&& ~~~m = b &&& ~~~m) (hm : bitAt m j = false) :
    bitAt a j = bitAt b j := by
  have hm' : m.getLsbD j = false := hm
  by_cases hj : j < w
  · have hbit : (a &&& ~~~m).getLsbD j = (b &&& ~~~m).getLsbD j := by rw [h]
    simp only [BitVec.getLsbD_and, BitVec.getLsbD_not, hm', hj, decide_true, Bool.not_false, Bool.and_true] at hbit
    exact hbit
  · simp only [bitAt, BitVec.getLsbD_of_ge _ _ (Nat.le_of_not_lt hj)]

/-- A bit of a copied range is the new one, another bit the old one. -/
theorem getLsbD_copyBits (old new : BitVec w) (lo hi j : Nat) :
    (copyBits old new lo hi).getLsbD j = if lo ≤ j ∧ j < hi then new.getLsbD j else old.getLsbD j := by
  by_cases hj : j < w
  · simp only [copyBits, BitVec.getLsbD_or, BitVec.getLsbD_and, BitVec.getLsbD_not, getLsbD_maskOf, hj]
    by_cases hlo : lo ≤ j <;> by_cases hhi : j < hi <;> simp [hlo, hhi]
  · simp [BitVec.getLsbD_of_ge _ _ (Nat.le_of_not_lt hj)]

end

/-! ### The PAC field -/

section
variable {ptr p q m : Word} {s : State}

/-- Bit [55] is never in the PAC field. -/
theorem bitAt_pacField_55 (inserting : Bool) (ptr : Word) (s : State) : bitAt (pacField inserting ptr s) 55 = false := by
  simp only [bitAt, pacField, BitVec.getLsbD_or, getLsbD_maskOf]
  split
  · simp
  · rw [getLsbD_maskOf]
    simp

/-- Where address tagging is not used, bit [63] is in the PAC field. -/
theorem bitAt_pacField_63 (inserting : Bool) (h : tbi s (regime s) ptr = false) :
    bitAt (pacField inserting ptr s) 63 = true := by
  simp only [bitAt, pacField, h, BitVec.getLsbD_or, Bool.false_eq_true, if_false, getLsbD_maskOf]
  simp

/-- Every bit of a stripped field is bit [55]. -/
theorem bitAt_pacStrip_of_mem {j : Nat} (hm : bitAt m j = true) : bitAt (pacStrip m ptr) j = bitAt ptr 55 := by
  have hm' : m.getLsbD j = true := hm
  rw [bitAt, pacStrip, BitVec.getLsbD_or, getLsbD_ite, BitVec.getLsbD_and, BitVec.getLsbD_not, hm']
  simp

/-- Stripping looks only at what stands outside the field. -/
theorem pacStrip_congr (h : p &&& ~~~m = q &&& ~~~m) (h55 : bitAt m 55 = false) : pacStrip m p = pacStrip m q := by
  unfold pacStrip
  rw [h, bitAt_eq_of_and_not_eq h h55]

/-- The field of a pointer that is authenticated depends on its bit [55] alone. -/
theorem pacField_congr (h : bitAt p 55 = bitAt q 55) (s : State) : pacField false p s = pacField false q s := by
  have hselect : pacSelect false p s = pacSelect false q s := by simp [pacSelect, h]
  have htbi : tbi s (regime s) p = tbi s (regime s) q := by rw [tbi, tbi, h]
  simp only [pacField, pacBottom, hselect, htbi]

/-- In a canonical pointer bit [63] is bit [55] where it would choose the range, so that inserting and authenticating
take one field, with FEAT_CONSTPACFIELD and without. -/
theorem pacField_inserting (h : pacStrip (pacField true ptr s) ptr = ptr) :
    pacField true ptr s = pacField false ptr s := by
  have hselect : pacSelect true ptr s = pacSelect false ptr s := by
    cases htbi : tbi s (regime s) ptr with
    | true => simp [pacSelect, htbi]
    | false =>
      have h63 : bitAt ptr 63 = bitAt ptr 55 := by
        have hstrip := bitAt_pacStrip_of_mem (ptr := ptr) (bitAt_pacField_63 true htbi)
        rwa [h] at hstrip
      simp [pacSelect, h63]
  simp [pacField, pacBottom, hselect]

end

/-! ### Inserting and authenticating -/

section
variable {k : PacKey} {ptr modifier : Word} {s : State}

/-- Inserting a PAC leaves what stands outside the field. -/
theorem addPac_outside (k : PacKey) (ptr modifier : Word) (s : State) :
    addPac k ptr modifier s &&& ~~~(pacField true ptr s) = ptr &&& ~~~(pacField true ptr s) :=
  merge_and_not ..

/-- The field of a canonical pointer takes the bits of ComputePAC. -/
theorem addPac_inside (h : pacStrip (pacField true ptr s) ptr = ptr) :
    addPac k ptr modifier s &&& pacField true ptr s =
      Config.computePAC ptr modifier (k.value s).1 (k.value s).2 &&& pacField true ptr s := by
  simp only [addPac, if_pos h]
  exact merge_and ..

/-- Inserting a PAC leaves bit [55]. -/
theorem bitAt_addPac_55 : bitAt (addPac k ptr modifier s) 55 = bitAt ptr 55 :=
  bitAt_eq_of_and_not_eq (addPac_outside k ptr modifier s) (bitAt_pacField_55 true ptr s)

/-- What is inserted in a canonical pointer stands in the field that authentication looks at. -/
theorem pacField_addPac (h : pacStrip (pacField true ptr s) ptr = ptr) :
    pacField false (addPac k ptr modifier s) s = pacField true ptr s := by
  rw [pacField_congr bitAt_addPac_55, pacField_inserting h]

/-- Stripping gives the canonical pointer back. -/
theorem pacStrip_addPac (h : pacStrip (pacField true ptr s) ptr = ptr) :
    pacStrip (pacField true ptr s) (addPac k ptr modifier s) = ptr := by
  rw [pacStrip_congr (addPac_outside k ptr modifier s) (bitAt_pacField_55 true ptr s), h]

theorem authResult_of_correct (h : pacCorrect k ptr modifier s = true) :
    authResult k ptr modifier s = pacStrip (pacField false ptr s) ptr := by
  simp [authResult, h]

theorem authResult_of_incorrect (h : pacCorrect k ptr modifier s = false) :
    authResult k ptr modifier s =
      copyBits (pacStrip (pacField false ptr s) ptr) (fieldTo 53 (errorCode s)) 53 55 := by
  simp [authResult, h]

/-- After a failure bits [54:53] are the error code. -/
theorem field_authResult_of_incorrect (h : pacCorrect k ptr modifier s = false) :
    field (authResult k ptr modifier s) 53 2 = errorCode s := by
  rw [authResult_of_incorrect h]
  ext j hj
  have hrange : 53 ≤ 53 + j ∧ 53 + j < 55 := by omega
  rw [field, BitVec.getElem_extractLsb', getLsbD_copyBits, if_pos hrange, getLsbD_fieldTo]
  simp [show 53 + j < 64 by omega, hj]

/-- After a failure the other bits are those of the stripped pointer. -/
theorem bitAt_authResult_of_incorrect (h : pacCorrect k ptr modifier s = false) {n : Nat} (hn : n < 53 ∨ 55 ≤ n) :
    bitAt (authResult k ptr modifier s) n = bitAt (pacStrip (pacField false ptr s) ptr) n := by
  rw [authResult_of_incorrect h, bitAt, getLsbD_copyBits, if_neg (by omega), bitAt]

theorem errorCode_cases (s : State) : errorCode s = 0b01#2 ∨ errorCode s = 0b10#2 := by
  unfold errorCode
  split
  · exact .inr rfl
  · exact .inl rfl

end

/-- Settles O36: authentication looks at the field the PAC was inserted in, and stripping undoes the insertion. -/
theorem pacRoundTrip : Obligations.PacRoundTrip := by
  unfold Obligations.PacRoundTrip
  intro k ptr modifier s hcanonical
  have hfield := pacField_addPac (k := k) (modifier := modifier) hcanonical
  have hstrip := pacStrip_addPac (k := k) (modifier := modifier) hcanonical
  have hcorrect : pacCorrect k (addPac k ptr modifier s) modifier s = true := by
    simp only [pacCorrect, hfield, hstrip, beq_iff_eq]
    exact (addPac_inside hcanonical).symm
  exact ⟨hcorrect, by rw [authResult_of_correct hcorrect, hfield, hstrip]⟩

/-! ### The gate of PAC* and AUT* -/

section
variable {p : PacOp} {s : State} {r : Result}

theorem completes_of_pacDisabled (hexec : exec p.instr s = pacGate p.key p.hint s r) (hpauth : has .PAuth s = true)
    (hdisabled : sctlr s p.key.enable = false) : ∃ t, Completes p.instr [] false false s s t :=
  ⟨_, completes_nop (hexec.trans (pacGate_disabled hpauth hdisabled)) _ _ _⟩

theorem completes_of_pacHint (hexec : exec p.instr s = pacGate p.key p.hint s r) (hpauth : has .PAuth s = false)
    (hhint : p.hint = true) : ∃ t, Completes p.instr [] false false s s t :=
  ⟨_, completes_nop (by rw [hexec]; simp [pacGate, hpauth, hhint]) _ _ _⟩

theorem undefined_of_noPAuth (hexec : exec p.instr s = pacGate p.key p.hint s r) (hpauth : has .PAuth s = false)
    (hhint : p.hint = false) : exec p.instr s = undefined s := by
  rw [hexec]
  simp [pacGate, hpauth, hhint]

end

/-! ### PAC* -/

/-- Each PAC* instruction inserts a PAC with its key and modifier in its register. -/
theorem exec_pacInserts (rn rd : BitVec 5) (s : State) :
    ∀ p ∈ pacInserts rn rd s, exec p.instr s = pacInsert p.key p.hint p.rd p.modifier s := by
  simp only [pacInserts, List.forall_mem_cons]
  exact ⟨rfl, rfl, rfl, rfl, rfl, rfl, rfl, rfl, rfl, rfl, rfl, rfl, rfl, rfl, nofun⟩

/-- Settles O34: behind the gate a PAC* instruction writes its register with the PAC inserted. -/
theorem pacInsertion : Obligations.PacInsertion := by
  unfold Obligations.PacInsertion
  intro s rn rd p hp
  have hexec := exec_pacInserts rn rd s p hp
  refine ⟨completes_of_pacDisabled hexec, completes_of_pacHint hexec, undefined_of_noPAuth hexec,
    fun hpauth henabled htrap => ?enabled⟩
  obtain ⟨hcompletes, hholds⟩ :=
    completes_writeX (hexec.trans (pacGate_enabled hpauth henabled htrap)) false false
  exact ⟨_, _, hcompletes, hholds, addPac_outside .., addPac_inside⟩

/-! ### AUT* -/

/-- Each AUT* instruction checks the PAC of its register with its key and modifier. -/
theorem exec_pacChecks (rn rd : BitVec 5) (s : State) :
    ∀ p ∈ pacChecks rn rd s, exec p.instr s = pacCheck p.key p.hint p.rd p.modifier s := by
  simp only [pacChecks, List.forall_mem_cons]
  exact ⟨rfl, rfl, rfl, rfl, rfl, rfl, rfl, rfl, rfl, rfl, rfl, rfl, rfl, rfl, nofun⟩

section
variable {k : PacKey} {hint : Bool} {rd : BitVec 5} {modifier : Word} {s : State}

/-- An enabled check that does not take an exception writes the result of the authentication. -/
theorem pacCheck_writes (hpauth : has .PAuth s = true) (henabled : sctlr s k.enable = true) (htrap : apiTraps s = false)
    (h : pacCorrect k (readX rd s) modifier s = true ∨ has .FPAC s = false) :
    pacCheck k hint rd modifier s = .next (advance (writeX rd (authResult k (readX rd s) modifier s) s)) := by
  rw [pacCheck, pacGate_enabled hpauth henabled htrap]
  rcases h with h | h <;> simp [h]

/-- An enabled check that fails takes a PAC Fail exception with FEAT_FPAC. -/
theorem pacCheck_fails (hpauth : has .PAuth s = true) (henabled : sctlr s k.enable = true) (htrap : apiTraps s = false)
    (hwrong : pacCorrect k (readX rd s) modifier s = false) (hfpac : has .FPAC s = true) :
    pacCheck k hint rd modifier s = pacFail k s := by
  rw [pacCheck, pacGate_enabled hpauth henabled htrap]
  simp [hwrong, hfpac]

end

/-- Settles O35: behind the gate an AUT* instruction writes the result of the authentication or takes PAC Fail. -/
theorem pacChecking : Obligations.PacChecking := by
  unfold Obligations.PacChecking
  intro s rn rd p hp
  have hexec := exec_pacChecks rn rd s p hp
  refine ⟨completes_of_pacDisabled hexec, completes_of_pacHint hexec, undefined_of_noPAuth hexec,
    fun hpauth henabled htrap => ⟨fun hcorrect => ?correct, fun hwrong hfpac => ?fails, fun hwrong hfpac => ?errorCode⟩⟩
  case correct =>
    have hwrites := hexec.trans (pacCheck_writes hpauth henabled htrap (.inl hcorrect))
    rw [authResult_of_correct hcorrect] at hwrites
    exact ⟨_, completes_writeX hwrites false false⟩
  case fails => exact ⟨_, hexec.trans (pacCheck_fails hpauth henabled htrap hwrong hfpac)⟩
  case errorCode =>
    obtain ⟨hcompletes, hholds⟩ :=
      completes_writeX (hexec.trans (pacCheck_writes hpauth henabled htrap (.inr hfpac))) false false
    refine ⟨_, _, hcompletes, hholds, ?_, fun n hn => bitAt_authResult_of_incorrect hwrong hn⟩
    rw [field_authResult_of_incorrect hwrong]
    exact errorCode_cases s

/-! ### PACGA -/

/-- Settles O37: past the trap PACGA writes the masked code to Xd. -/
theorem genericAuthenticationCode : Obligations.GenericAuthenticationCode := by
  unfold Obligations.GenericAuthenticationCode
  intro s rm rn rd hpauth htrap
  have hmask : maskOf 64 32 64 = 0xFFFFFFFF00000000#64 := by decide
  have hwrites : exec (.pacga rm rn rd) s = .next (advance (writeX rd (Config.computePAC (readX rn s) (readXSP rm s)
      (ireg s .APGAKeyHi_EL1) (ireg s .APGAKeyLo_EL1) &&& 0xFFFFFFFF00000000) s)) := by
    rw [show exec (.pacga rm rn rd) s = execPacga rm rn rd s from rfl]
    simp [execPacga, hpauth, htrap, hmask]
  exact ⟨_, completes_writeX hwrites false false⟩

end Sys2Proof.Proofs
end

