-- ==== Sys2Proof/Proofs/AuthBranches.lean ====
section
/-! Authentication inside another instruction, and the branches to an authenticated address. -/

namespace Sys2Proof.Proofs

open Sys2Proof.Machine Sys2Proof.Safety Sys2Proof.Laws

/-! ### Authentication inside another instruction -/

section
variable {k : PacKey} {ptr modifier a : Word} {s : State} {onFail : State → State} {cont : Word → Result}

/-- The instruction goes on with the address where the key is disabled, and with the stripped one where the PAC is
correct. -/
theorem authCombined_goesOn (hpauth : has .PAuth s = true)
    (ha : sctlr s k.enable = false ∧ a = ptr ∨ sctlr s k.enable = true ∧ apiTraps s = false ∧
      pacCorrect k ptr modifier s = true ∧ a = pacStrip (pacField false ptr s) ptr) :
    authCombined k ptr modifier s onFail cont = cont a := by
  rcases ha with ⟨hdisabled, rfl⟩ | ⟨henabled, htrap, hcorrect, rfl⟩
  · exact authCombined_disabled hpauth hdisabled
  · exact authCombined_correct hpauth henabled htrap hcorrect

/-- With FEAT_FPACCOMBINE an incorrect PAC is a PAC Fail exception. -/
theorem authCombined_fails (hpauth : has .PAuth s = true) (henabled : sctlr s k.enable = true)
    (htrap : apiTraps s = false) (hwrong : pacCorrect k ptr modifier s = false) (hcombine : has .FPACCOMBINE s = true) :
    authCombined k ptr modifier s onFail cont = pacFail k (onFail s) := by
  simp [authCombined, hpauth, henabled, htrap, hwrong, hcombine]

end

/-! ### Branches -/

section
variable {s : State}

theorem branchAuth_eq (hrun : halted s = false) (hpauth : has .PAuth s = true) (k : PacKey) (rn : BitVec 5)
    (modifier : Word) : branchAuth k rn modifier s =
      authCombined k (readX rn s) modifier s id fun a => .next (branchTo a (branchType rn s) s) := by
  rw [branchAuth, needsPAuth, if_pos hpauth, notHalted_eq hrun]

theorem linkAuth_eq (hrun : halted s = false) (hpauth : has .PAuth s = true) (k : PacKey) (rn : BitVec 5)
    (modifier : Word) : linkAuth k rn modifier s =
      authCombined k (readX rn s) modifier s id fun a => .next (branchTo a 0b10 (writeX 30 (s.pc + 4) s)) := by
  rw [linkAuth, needsPAuth, if_pos hpauth, notHalted_eq hrun]

theorem returnAuth_eq (hrun : halted s = false) (hpauth : has .PAuth s = true) (k : PacKey) : returnAuth k s =
      authCombined k (readX 30 s) (readSP s) s id fun a => .next (branchTo a 0 s) := by
  rw [returnAuth, needsPAuth, if_pos hpauth, notHalted_eq hrun]

/-- What a branch writes before it goes to its target: a linking form the address of the next instruction to X30. -/
def linked (link : Bool) (s : State) : State := if link then writeX 30 (s.pc + 4) s else s

/-- Each branch authenticates its address with its key and modifier, and goes there. -/
theorem exec_authBranches (hrun : halted s = false) (hpauth : has .PAuth s = true) (rn rm : BitVec 5) :
    ∀ b ∈ authBranches rn rm s, exec b.instr s =
      authCombined b.key b.address b.modifier s id fun a => .next (branchTo a b.btype (linked b.link s)) := by
  simp only [authBranches, List.forall_mem_cons]
  exact ⟨returnAuth_eq hrun hpauth _, returnAuth_eq hrun hpauth _,
    branchAuth_eq hrun hpauth _ _ _, branchAuth_eq hrun hpauth _ _ _,
    linkAuth_eq hrun hpauth _ _ _, linkAuth_eq hrun hpauth _ _ _,
    branchAuth_eq hrun hpauth _ _ _, branchAuth_eq hrun hpauth _ _ _,
    linkAuth_eq hrun hpauth _ _ _, linkAuth_eq hrun hpauth _ _ _, nofun⟩

/-- A branch, linking or not, changes the pc, BTYPE, and X30 if it links. -/
theorem branchTo_linked (a : Word) (btype : BitVec 2) (link : Bool) (s : State) :
    BranchedTo a btype s (branchTo a btype (linked link s)) ∧
      Frame (if link then [30] else []) false false s (branchTo a btype (linked link s)) ∧
      (link = true → readX 30 (branchTo a btype (linked link s)) = s.pc + 4) := by
  cases link with
  | false => exact ⟨⟨rfl, rfl, rfl⟩, frame_branchTo _ _ _ _ _ _, nofun⟩
  | true =>
    exact ⟨⟨rfl, rfl, rfl⟩,
      frame_trans (frame_writeX (List.mem_singleton.mpr rfl) _ _ _ _) (frame_branchTo _ _ _ _ _ _),
      fun _ => readX_writeX_same _ _ _ (by decide)⟩

end

/-- Settles O39: a branch goes to the address that its authentication gives, or takes the PAC Fail exception. -/
theorem authenticatedBranches : Obligations.AuthenticatedBranches := by
  unfold Obligations.AuthenticatedBranches
  intro s rn rm hrun hpauth b hb
  have hexec := exec_authBranches hrun hpauth rn rm b hb
  refine ⟨fun a ha => ?goesOn, fun henabled htrap hwrong hcombine => ?fails⟩
  case goesOn => exact ⟨_, hexec.trans (authCombined_goesOn hpauth ha), branchTo_linked a b.btype b.link s⟩
  case fails => exact ⟨_, hexec.trans (authCombined_fails hpauth henabled htrap hwrong hcombine)⟩

end Sys2Proof.Proofs
end

