-- ==== Sys2Proof/Proofs/Locating.lean ====
section
/-! What locating the bytes of an access and reading them leave unchanged. -/

namespace Sys2Proof.Proofs

open Sys2Proof.Machine Sys2Proof.Safety Sys2Proof.Laws

/-! ### Locating an access -/

/-- `s` with the memory, the staleness of code, the cached translations and the System registers of `u`. -/
def withChecks (s u : State) : State := { withTables s u with sys := u.sys }

section
variable {d : AccDesc} {n g : Nat} {va stride : Word} {s t u : State} {x : Xlat} {xs : List Xlat}

theorem withChecks_trans (h : t = withChecks s t) (h' : u = withChecks t u) : u = withChecks s u := by
  rw [h', h]
  rfl

/-- The checks of the final address may record a Tag Check Fault. -/
theorem finalChecks_ok {y : Xlat} (h : finalChecks d n x s = .ok y u) : u = { s with sys := u.sys } := by
  simp only [finalChecks] at h
  split at h
  case h_1 => cases h
  case h_2 => split at h <;> cases h
  case h_3 => cases h
  case h_4 =>
    obtain ⟨-, hu⟩ : x = y ∧ _ = u := by simpa using h
    rw [← hu]
    split <;> rfl

/-- An access that passes its checks updates its descriptors. -/
theorem checked_ok {y : Xlat} (h : checked d n x s = .ok y u) : u = withChecks s u := by
  unfold checked at h
  split at h
  case h_2 => cases h
  case h_1 z v hfinal =>
    obtain ⟨-, hu⟩ : z = y ∧ commit z v = u := by simpa using h
    have hcommit : commit z v = _ := updateDescriptors_eq z.updates v
    rw [← hu, hcommit, finalChecks_ok hfinal]
    rfl

theorem attempt_ok {bad : Xlat → State → Option AbortKind} (h : attempt d n bad va s = .ok x u) :
    u = withChecks s u := by
  obtain ⟨y, v, hfind, hrest⟩ := loc_bind_ok h
  have hv : v = withChecks s v := by
    rw [findWith_ok hfind]
    rfl
  split at hrest
  · cases hrest
  · exact withChecks_trans hv (checked_ok hrest)

theorem locateBy_ok {bad : Xlat → State → Option AbortKind} (h : locateBy d n bad va s = .ok x u) :
    u = withChecks s u := by
  unfold locateBy at h
  split at h
  case h_1 hattempt =>
    cases h
    exact attempt_ok hattempt
  case h_2 =>
    split at h
    · rw [attempt_ok h]
      rfl
    · cases h

theorem locateSeq_ok {f : Word → State → Loc Xlat} {first : Bool}
    (hf : ∀ a v x w, f a v = .ok x w → w = withChecks v w) (h : locateSeq f stride g first n va s = .ok xs u) :
    u = withChecks s u := by
  induction n generalizing first va s xs with
  | zero =>
    cases h
    rfl
  | succ n ih =>
    rw [locateSeq] at h
    split at h
    · cases h
    · obtain ⟨x, v, hx, hrest⟩ := loc_bind_ok h
      obtain ⟨ys, w, hys, hend⟩ := loc_bind_ok hrest
      cases hend
      exact withChecks_trans (hf _ _ _ _ hx) (ih hys)

/-- Where the bytes of an access are located, the state differs in memory, in what is cached, and in System registers. -/
theorem locateNth_ok (h : locateNth d n g va s = .ok xs u) : u = withChecks s u := by
  unfold locateNth at h
  split at h
  · cases h
  · split at h
    · exact locateSeq_ok (fun _ _ _ _ => locateBy_ok) h
    · obtain ⟨x, v, hx, hend⟩ := loc_bind_ok h
      cases hend
      exact locateBy_ok hx

theorem locateAll_ok (h : locateAll d n va s = .ok xs u) : u = withChecks s u := locateNth_ok h

end

/-! ### Reading located bytes -/

/-- A read of a register frame leaves the PE in Debug state or outside it. -/
theorem halted_afterFrameRead (f : RegFrame) (off : Nat) (sp : Space) (s : State) :
    halted (afterFrameRead f off sp s) = halted s := by
  unfold afterFrameRead afterExtRead
  split
  · split_ifs <;> rfl
  · rfl

/-- A read changes the log of Device accesses and, through a register frame, the debug registers. -/
theorem readLoc_state (x : Xlat) (k : Nat) (s : State) : (readLoc x k s).2 = loaded s (readLoc x k s).2 := by
  unfold readLoc
  split
  · dsimp only
    rw [afterFrameRead_eq]
    rfl
  · split <;> rfl

theorem halted_readLoc (x : Xlat) (k : Nat) (s : State) : halted (readLoc x k s).2 = halted s := by
  unfold readLoc
  split
  · exact halted_afterFrameRead _ _ _ s
  · split <;> rfl

theorem readLoc_ordinary {x : Xlat} (h : ordinary x = true) (k : Nat) (s : State) :
    readLoc x k s = (readByte x.key s, s) := by
  obtain ⟨hdevice, hframe⟩ : isDevice x.type = false ∧ x.frame = none := by simpa [ordinary] using h
  simp [readLoc, hdevice, hframe]

theorem readLoc_dbg {x : Xlat} (h : x.frame = none) (k : Nat) (s : State) : (readLoc x k s).2.dbg = s.dbg := by
  unfold readLoc
  rw [h]
  dsimp only
  split <;> rfl

theorem readLocs_cons (x : Xlat) (xs : List Xlat) (k : Nat) (s : State) :
    readLocs (x :: xs) k s = ((readLoc x k s).1 :: (readLocs xs (k + 1) (readLoc x k s).2).1,
      (readLocs xs (k + 1) (readLoc x k s).2).2) := rfl

theorem readLocs_state (xs : List Xlat) (k : Nat) (s : State) :
    (readLocs xs k s).2 = loaded s (readLocs xs k s).2 := by
  induction xs generalizing k s with
  | nil => rfl
  | cons x xs ih =>
    rw [readLocs_cons]
    dsimp only
    rw [ih, readLoc_state]
    rfl

theorem halted_readLocs (xs : List Xlat) (k : Nat) (s : State) : halted (readLocs xs k s).2 = halted s := by
  induction xs generalizing k s with
  | nil => rfl
  | cons x xs ih => exact (ih _ _).trans (halted_readLoc x k s)

theorem readLocs_length (xs : List Xlat) (k : Nat) (s : State) : (readLocs xs k s).1.length = xs.length := by
  induction xs generalizing k s with
  | nil => rfl
  | cons x xs ih => rw [readLocs_cons, List.length_cons, ih, List.length_cons]

theorem readLocs_ordinary {xs : List Xlat} (h : ∀ x ∈ xs, ordinary x = true) (k : Nat) (s : State) :
    readLocs xs k s = (xs.map fun x => readByte x.key s, s) := by
  induction xs generalizing k with
  | nil => rfl
  | cons x xs ih =>
    obtain ⟨hx, hxs⟩ := List.forall_mem_cons.mp h
    rw [readLocs_cons, readLoc_ordinary hx, ih hxs, List.map_cons]

theorem readLocs_dbg {xs : List Xlat} (h : ∀ x ∈ xs, x.frame = none) (k : Nat) (s : State) :
    (readLocs xs k s).2.dbg = s.dbg := by
  induction xs generalizing k s with
  | nil => rfl
  | cons x xs ih =>
    obtain ⟨hx, hxs⟩ := List.forall_mem_cons.mp h
    exact (ih hxs _ _).trans (readLoc_dbg hx k s)

/-- Reading located bytes is a read in the terms of Safety, whatever state comes after it that has its debug registers
and its log. -/
theorem didRead_readLocs (xs : List Xlat) (u t : State) (hlog : t.devLog = (readLocs xs 0 u).2.devLog)
    (hdbg : t.dbg = (readLocs xs 0 u).2.dbg) : DidRead xs (readLocs xs 0 u).1 u t where
  length := readLocs_length xs 0 u
  normal h := by
    rw [hlog, readLocs_ordinary h]
    exact ⟨rfl, rfl⟩
  frames h := hdbg.trans (readLocs_dbg h 0 u)

/-- An instruction that reads located bytes, writes registers and moves on. -/
theorem read_then_advance {d : AccDesc} {n : Nat} {va : Word} {s t u : State} {xs : List Xlat} {ds : List (BitVec 5)}
    {sp fl : Bool} (hloc : locateAll d n va s = .ok xs u) (hframe : Frame ds sp fl (readLocs xs 0 u).2 t)
    (hpc : t.pc = (readLocs xs 0 u).2.pc) (htop : t.offTop = (readLocs xs 0 u).2.offTop) :
    NextPc s (advance t) ∧ Frame ds sp fl (loaded u (advance t)) (advance t) ∧
      DidRead xs (readLocs xs 0 u).1 u (advance t) := by
  have hlocated := locateAll_ok hloc
  have hread := readLocs_state xs 0 u
  have hdbg : t.dbg = (readLocs xs 0 u).2.dbg := by rw [hframe.rest]
  have hlog : t.devLog = (readLocs xs 0 u).2.devLog := by rw [hframe.rest]
  have hstate : t.ps.nRW = (readLocs xs 0 u).2.ps.nRW := by rw [hframe.rest]
  have hhalted : halted t = halted s := by
    rw [halted, hdbg, ← halted, halted_readLocs, hlocated]
    rfl
  have hloaded : loaded u (advance t) = (readLocs xs 0 u).2 := by
    rw [hread, loaded, advance_devLog, advance_dbg, hlog, hdbg, loaded]
  refine ⟨nextPc_advance ?_ ?_ hhalted ?_, ?_, ?_⟩
  · rw [hpc, hread, hlocated]
    rfl
  · rw [htop, hread, hlocated]
    rfl
  · rw [hstate, hread, hlocated]
    rfl
  · rw [hloaded]
    exact frame_trans hframe (frame_advance _ _ _ _)
  · exact didRead_readLocs xs u _ (by rw [advance_devLog, hlog]) (by rw [advance_dbg, hdbg])

end Sys2Proof.Proofs
end

