-- ==== Sys2Proof/Proofs/AuthLoads.lean ====
section
/-! The load of one register, and LDRAA and LDRAB, whose base is authenticated. -/

namespace Sys2Proof.Proofs

open Sys2Proof.Machine Sys2Proof.Safety Sys2Proof.Laws

/-! ### A load of one register -/

/-- A register that is written and read, 31 being the stack pointer. -/
theorem readXSP_writeXSP (n : BitVec 5) (v : Word) (s : State) : readXSP n (writeXSP n v s) = v := by
  unfold readXSP writeXSP
  split
  · exact Vector.getElem_set_self _
  · rename_i h
    exact readX_writeX_same n v s h

theorem readXSP_advance (n : BitVec 5) (s : State) : readXSP n (advance s) = readXSP n s := by
  simp [readXSP, readSP, spIdx]

/-- A write with 31 as the stack pointer leaves the other general registers. -/
theorem readX_writeXSP_other {n m : BitVec 5} (v : Word) (s : State) (h : n ≠ m ∨ n = 31) :
    readX m (writeXSP n v s) = readX m s := by
  unfold writeXSP
  split
  · rfl
  · rename_i hn
    exact readX_writeX_other n m v s (h.resolve_right hn).symm

theorem holds_writeX (n : BitVec 5) (v : Word) (s : State) : Holds n v (writeX n v s) := by
  unfold Holds
  split
  · rename_i h
    rw [h, readX_31]
  · rename_i h
    exact readX_writeX_same n v s h

/-- The registers a load writes: its destination, and its base where it writes that back. -/
def loadRegs (addr : Word) (writeback : Bool) (rn rt : BitVec 5) (v : Word) (s : State) : State :=
  if writeback then writeXSP rn addr (writeX rt v s) else writeX rt v s

section
variable {addr v : Word} {writeback : Bool} {rn rt : BitVec 5} {s : State}

theorem frame_loadRegs : Frame (if writeback then [rt, rn] else [rt]) (writeback && rn == 31) false s
    (loadRegs addr writeback rn rt v s) := by
  cases writeback with
  | false => exact frame_writeX (List.mem_singleton.mpr rfl) _ _ _ _
  | true =>
    exact frame_trans (frame_writeX (by simp) _ _ _ _) (frame_writeXSP (by simp) (by simp) _ _ _)

theorem loadRegs_pc (addr : Word) (writeback : Bool) (rn rt : BitVec 5) (v : Word) (s : State) :
    (loadRegs addr writeback rn rt v s).pc = s.pc := by
  unfold loadRegs
  split <;> simp

theorem loadRegs_offTop (addr : Word) (writeback : Bool) (rn rt : BitVec 5) (v : Word) (s : State) :
    (loadRegs addr writeback rn rt v s).offTop = s.offTop := by
  unfold loadRegs
  split <;> simp

theorem readXSP_loadRegs (h : writeback = true) : readXSP rn (loadRegs addr writeback rn rt v s) = addr := by
  rw [loadRegs, if_pos h, readXSP_writeXSP]

/-- The destination holds the value, but for a base that is the same register and is written back. -/
theorem holds_loadRegs (h : writeback = false ∨ rn ≠ rt ∨ rn = 31) :
    Holds rt v (loadRegs addr writeback rn rt v s) := by
  cases writeback with
  | false => exact holds_writeX rt v s
  | true =>
    have hother : readX rt (writeXSP rn addr (writeX rt v s)) = readX rt (writeX rt v s) :=
      readX_writeXSP_other _ _ (h.resolve_left nofun)
    rw [loadRegs, if_pos rfl, Holds, hother]
    exact holds_writeX rt v s

end

section
variable {d : AccDesc} {addr : Word} {writeback : Bool} {rn rt : BitVec 5} {s u : State} {xs : List Xlat}

/-- A load whose bytes are located reads them, writes its registers and moves on. -/
theorem loadAt_eq (hloc : locateAll d 8 addr s = .ok xs u) : loadAt d addr writeback rn rt s =
    .next (advance (loadRegs addr writeback rn rt (ofBytes 64 (byteOrder (bigEndian s) (readLocs xs 0 u).1))
      (readLocs xs 0 u).2)) := by
  have hend : bigEndian u = bigEndian s := by
    rw [locateAll_ok hloc]
    rfl
  rw [loadAt, memRead_eq hloc, andThen_value, hend]
  rfl

/-- What such a load leaves. -/
theorem loadAt_completes (hloc : locateAll d 8 addr s = .ok xs u) :
    ∃ t bs, loadAt d addr writeback rn rt s = .next t ∧ NextPc s t ∧
      Frame (if writeback then [rt, rn] else [rt]) (writeback && rn == 31) false (loaded u t) t ∧ DidRead xs bs u t ∧
      (writeback = true → readXSP rn t = addr) ∧
      (writeback = false ∨ rn ≠ rt ∨ rn = 31 → Holds rt (ofBytes 64 (byteOrder (bigEndian s) bs)) t) := by
  obtain ⟨hpc, hframe, hdid⟩ := read_then_advance hloc frame_loadRegs (loadRegs_pc ..) (loadRegs_offTop ..)
  refine ⟨_, _, loadAt_eq hloc, hpc, hframe, hdid, fun h => ?base, fun h => ?dest⟩
  case base => rw [readXSP_advance, readXSP_loadRegs h]
  case dest =>
    rw [Holds, readX_advance]
    exact holds_loadRegs h

end

/-! ### LDRAA and LDRAB -/

/-- What a failed load does to Device memory leaves the general registers, the stack pointers and the pc. -/
theorem failedLoad_regs (d : AccDesc) (addr : Word) (s : State) :
    (failedLoad d addr s).x = s.x ∧ (failedLoad d addr s).sp = s.sp ∧ (failedLoad d addr s).pc = s.pc := by
  unfold failedLoad
  split
  · split
    case h_1 xs u hloc =>
      split
      · rw [readLocs_state, locateAll_ok hloc]
        exact ⟨rfl, rfl, rfl⟩
      · exact ⟨rfl, rfl, rfl⟩
    case h_2 => exact ⟨rfl, rfl, rfl⟩
  · exact ⟨rfl, rfl, rfl⟩

/-- The key of LDRAA and LDRAB. -/
def ldraKey (m : BitVec 1) : PacKey := if m = 1 then .db else .da

/-- The access of LDRAA and LDRAB. -/
def ldraDesc (w : BitVec 1) (rn : BitVec 5) : AccDesc := if w = 1 then writebackDesc false else dataDesc false rn

/-- What a failed LDRAA or LDRAB leaves of its location. -/
def ldraFailed (sbit : BitVec 1) (imm9 : BitVec 9) (w : BitVec 1) (rn : BitVec 5) (base : Word) (s : State) :
    State → State := failedLoad (ldraDesc w rn) (ldraTarget base (simm10 sbit imm9) s)

section
variable {m sbit w : BitVec 1} {imm9 : BitVec 9} {rn rt : BitVec 5} {base : Word} {s : State}

/-- With a usable base the load is of the authenticated base plus the offset. -/
theorem exec_ldra (hpauth : has .PAuth s = true) (hbase : baseReg rn s = .ok base s) :
    exec (.ldra m sbit imm9 w rn rt) s =
      authCombined (ldraKey m) base 0 s (ldraFailed sbit imm9 w rn base s) fun a =>
        loadAt (ldraDesc w rn) (a + simm10 sbit imm9) (w == 1) rn rt
          (if authFails (ldraKey m) base 0 s then ldraFailed sbit imm9 w rn base s s else s) := by
  rw [show exec (.ldra m sbit imm9 w rn rt) s = execLdra m sbit imm9 w rn rt s from rfl, execLdra, hpauth, hbase]
  rfl

end

/-- Settles O51: the load is that of `loadAt` at the authenticated address, or the PAC Fail exception comes before it. -/
theorem authenticatedLoads : Obligations.AuthenticatedLoads := by
  unfold Obligations.AuthenticatedLoads
  intro s u m sbit imm9 w rn rt base a addr xs k hpauth hbase hk
  obtain rfl : k = ldraKey m := hk
  have hexec := exec_ldra (m := m) (sbit := sbit) (imm9 := imm9) (w := w) (rt := rt) hpauth hbase
  refine ⟨fun ha haddr hloc => ?loads, fun henabled htrap hwrong hcombine => ?fails⟩
  case loads =>
    have hgood : authFails (ldraKey m) base 0 s = false := by
      rcases ha with ⟨hdisabled, -⟩ | ⟨-, -, hcorrect, -⟩
      · rw [authFails, hdisabled, Bool.false_and]
      · rw [authFails, hcorrect, Bool.not_true, Bool.and_false]
    have hload : exec (.ldra m sbit imm9 w rn rt) s = loadAt (ldraDesc w rn) addr (w == 1) rn rt s := by
      rw [hexec, authCombined_goesOn hpauth ha, hgood, haddr]
      rfl
    obtain ⟨t, bs, hnext, hpc, hframe, hread, hback, hdest⟩ :=
      loadAt_completes (writeback := w == 1) (rn := rn) (rt := rt) hloc
    refine ⟨t, bs, hload.trans hnext, hpc, ?_, hread, fun hw => hback (beq_iff_eq.mpr hw), fun h => hdest ?_⟩
    · simpa only [beq_iff_eq] using hframe
    · exact h.imp_left fun hw => by rw [hw]; rfl
  case fails =>
    obtain ⟨hx, hsp, hpc⟩ := failedLoad_regs (ldraDesc w rn) (ldraTarget base (simm10 sbit imm9) s) s
    exact ⟨_, _, hexec.trans (authCombined_fails hpauth henabled htrap hwrong hcombine), rfl, hpc, hx, hsp⟩

end Sys2Proof.Proofs
end

