-- ==== Sys2Proof/Proofs/PstateImmediates.lean ====
section
/-! MSR (immediate): the one check before each write of PSTATE. -/

namespace Sys2Proof.Proofs

open Sys2Proof.Machine Sys2Proof.Safety Sys2Proof.Laws

section
variable {s : State} {i : Instr}

/-- An instruction that writes fields of PSTATE, but not the Execution state, and moves on. -/
theorem completes_pstate {p : PState} (h : exec i s = .next (advance { s with ps := p })) (hstate : p.nRW = s.ps.nRW) :
    ∃ t, Completes i [] false false s { s with ps := p } t :=
  ⟨_, completes_made h rfl rfl rfl rfl hstate⟩

/-- Above EL0, or where SCTLR_EL1.UMA allows it, DAIFSet and DAIFClr are not trapped. -/
theorem daifAccess_allowed {crm : BitVec 4} {op2 : BitVec 3} {k : Result} (hrun : halted s = false)
    (h : s.ps.el ≠ .el0 ∨ umaAllows s = true) : daifAccess crm op2 s k = k := by
  have hnone : daifTrap crm op2 s = none := by rcases h with h | h <;> simp [daifTrap, h]
  rw [daifAccess, notHalted_eq hrun, hnone, Option.getD_none]

/-- At EL0, where SCTLR_EL1.UMA does not allow them, they are trapped with EC 0x18. -/
theorem daifAccess_trapped {crm : BitVec 4} {op2 : BitVec 3} {k : Result} (hrun : halted s = false)
    (hel : s.ps.el = .el0) (huma : umaAllows s = false) :
    ∃ iss, daifAccess crm op2 s k = raise (syncExc (ownTarget s) 0x18 iss s) s := by
  have hsome : daifTrap crm op2 s =
      some (raise (syncExc (ownTarget s) 0x18 (sysTrapIss 0 3 4 crm op2 31 false) s) s) := by
    simp [daifTrap, hel, huma]
  exact ⟨_, by rw [daifAccess, notHalted_eq hrun, hsome, Option.getD_some]⟩

end

/-- Settles O17: outside Debug state the one check before each write is the trap of DAIF, FEAT_MTE of TCO, or the level
of SPSel. -/
theorem pstateImmediates : Obligations.PstateImmediates := by
  unfold Obligations.PstateImmediates
  intro s crm hrun
  refine ⟨fun hallowed => ?daifAllowed, fun hel huma => ?daifTrapped, ?ssbs, ?dit, fun hmte => ?tco, fun hel => ?spsel,
    fun hel => ?spselEl0⟩
  case daifAllowed =>
    exact ⟨completes_pstate (daifAccess_allowed hrun hallowed) rfl,
      completes_pstate (daifAccess_allowed hrun hallowed) rfl⟩
  case daifTrapped => exact ⟨daifAccess_trapped hrun hel huma, daifAccess_trapped hrun hel huma⟩
  case ssbs => exact completes_pstate (notHalted_eq hrun) rfl
  case dit => exact completes_pstate (notHalted_eq hrun) rfl
  case tco =>
    have hexec : exec (.msrTcoImm crm) s = notHalted none s (.next (advance (setTco (bitAt crm 0) s))) := by
      rw [show exec (.msrTcoImm crm) s = execMsrTcoImm crm s from rfl, execMsrTcoImm, hmte]
      rfl
    exact completes_pstate (hexec.trans (notHalted_eq hrun)) rfl
  case spsel =>
    exact completes_pstate ((notHalted_eq (k := if s.ps.el = .el0 then _ else _) hrun).trans (if_neg hel)) rfl
  case spselEl0 => exact (notHalted_eq (k := if s.ps.el = .el0 then _ else _) hrun).trans (if_pos hel)

end Sys2Proof.Proofs
end

