-- ==== Sys2Proof/Proofs/SystemRegisterReads.lean ====
section
/-! MRS of the registers with a row of their own: identification, pending interrupts, caches, random numbers; which trap stands
before the read, and what it gives. -/

namespace Sys2Proof.Proofs

open Sys2Proof.Machine Sys2Proof.Safety Sys2Proof.Laws

/-! ### Reads that HCR_EL2.TID3 may trap -/

/-- The selector names a register for EL1 and above that exists on every implementation and has no control of its own
but HCR_EL2.TID3. -/
structure El1Name (sel : BitVec 15) (r : RegName) : Prop where
  name : nameOf sel = some r
  level : minLevel sel = 1
  pstate : isPstateView r = false
  present : ∀ s, nameExists r false s = true
  unlisted : ∀ q, r = .stored q → scxtReg q = false ∧ ataReg q = false
  ungated : r ≠ .view .SVCR
  untrapped : ∀ s : State, s.ps.el ≠ .el0 → ownTrap r false s = .allowed

theorem el1Name_ID_AA64SMFR0 : El1Name 0x4025 (.stored .ID_AA64SMFR0_EL1) where
  name := by decide
  level := by decide
  pstate := rfl
  present _ := rfl
  unlisted := by rintro q ⟨⟩; decide
  ungated := nofun
  untrapped _ h := if_neg fun hel => h hel.1

theorem el1Name_CCSIDR : El1Name 0x4800 (.stored .CCSIDR_EL1) where
  name := by decide
  level := by decide
  pstate := rfl
  present _ := rfl
  unlisted := by rintro q ⟨⟩; decide
  ungated := nofun
  untrapped _ h := if_neg fun hel => h hel.1

theorem el1Name_ISR : El1Name 0x4608 (.view .ISR_EL1) where
  name := by decide
  level := by decide
  pstate := rfl
  present _ := rfl
  unlisted := nofun
  ungated := nofun
  untrapped _ _ := rfl

/-- A level above EL0 has a number of its own, 1 or more. -/
theorem one_le_elNum {el : EL} (h : el ≠ .el0) : 1 ≤ elNum el := by
  cases el with
  | el0 => exact absurd rfl h
  | _ => decide

section
variable {sel : BitVec 15} {r : RegName} {rt : BitVec 5} {s : State}

/-- Above EL0 and not redirected, what TID3 does not trap is read. -/
theorem El1Name.readSys_eq (hn : El1Name sel r) (hel : s.ps.el ≠ .el0) (hnv : s.ps.el = .el1 → hcr s 42 = false)
    (htid3 : tid3Traps sel (some r) s = false) : readSys sel rt s = performRead sel r rt s := by
  have hredirect : nvPermission sel s = none :=
    nvPermission_none ((Decidable.em (s.ps.el = .el1)).elim (fun h => .inr (.inl (hnv h))) .inl)
  have hlevel : minLevel sel ≤ elNum s.ps.el := hn.level ▸ one_le_elNum hel
  have hallowed : permission sel r false s = .allowed :=
    (permission_own hredirect hlevel (hn.present s) (firstTrap_none (.inr htid3) hn.unlisted)).trans
      (hn.untrapped s hel)
  exact readSys_allowed hn.name (by rw [hn.pstate, Bool.and_false]) hallowed hn.ungated

/-- What TID3 traps is an exception to EL2 with EC 0x18. -/
theorem El1Name.readSys_tid3 (hn : El1Name sel r) (hel : s.ps.el ≠ .el0) (htid3 : tid3Traps sel (some r) s = true) :
    ∃ iss, readSys sel rt s = raise (syncExc .el2 0x18 iss s) s := by
  have hlevel : minLevel sel ≤ elNum s.ps.el := hn.level ▸ one_le_elNum hel
  have htrap : permission sel r false s = .trap .el2 := by
    simp [permission, hn.present s, Nat.not_lt.mpr hlevel, firstTrap, htid3]
  rw [readSys_trap hn.name (by rw [hn.pstate, Bool.and_false]) htrap]
  exact sysTrap_eq (by simp)

end

/-- Outside the identification space TID3 traps the registers of its first list alone. -/
theorem tid3Traps_outside {sel : BitVec 15} {r : RegName} (s : State) (hspace : idSpace sel = false)
    (hlist : ∀ q, r = .stored q → tid3Always q = false) : tid3Traps sel (some r) s = false := by
  cases r with
  | stored q => simp [tid3Traps, hspace, hlist q rfl]
  | _ => simp [tid3Traps, hspace]

/-! ### ISR_EL1 -/

theorem isrVirtual_iff (n : Nat) (s : State) :
    (el2Enabled s && ibit s .HCR_EL2 n && s.ps.el == .el1) = true ↔ IsrVirtual n s := by
  simp only [Bool.and_eq_true, beq_iff_eq, IsrVirtual]
  exact ⟨fun ⟨⟨h2, hb⟩, h1⟩ => ⟨h1, h2, hb⟩, fun ⟨h1, h2, hb⟩ => ⟨⟨h2, hb⟩, h1⟩⟩

/-- Each bit of ISR_EL1 is the field that stands there, or zero. -/
theorem bitAt_isrValue (s : State) (k : Nat) : bitAt (isrValue s) k =
    if k = 8 then (if IsrVirtual 5 s then s.intr.vSError else s.intr.serror)
    else if k = 7 then (if IsrVirtual 4 s then s.intr.vIrq else s.intr.irq)
    else if k = 6 then (if IsrVirtual 3 s then s.intr.vFiq else s.intr.fiq)
    else if k = 10 then
      has .NMI s && (if IsrVirtual 4 s then s.intr.vIrq && s.intr.vIrqSuper else s.intr.irq && s.intr.irqSuper)
    else if k = 9 then
      has .NMI s && (if IsrVirtual 3 s then s.intr.vFiq && s.intr.vFiqSuper else s.intr.fiq && s.intr.fiqSuper)
    else false := by
  simp only [isrValue, bitAt, BitVec.getLsbD_or, getLsbD_bitTo, isrVirtual_iff]
  split_ifs <;> simp_all

/-! ### CCSIDR_EL1 -/

section
variable {sel : BitVec 15} {rt : BitVec 5} {s : State} {i : Instr}

/-- For a cache level that is not implemented the read does one of the four things that R152 lets it. -/
theorem readCcsidr_unimplemented (hexec : exec i s = readCcsidr sel false rt s)
    (hlevel : s.cfg.ccsidr.lookup (field (ireg s .CSSELR_EL1) 0 5) = none) :
    (∃ t, Completes i [] false false s s t) ∨ exec i s = undefined s ∨
      (has .IDST s = true ∧ ∃ iss, exec i s = raise (syncExc (ownTarget s) 0x18 iss s) s) ∨
      (∃ t, Completes i [rt] false false s s t) := by
  simp only [readCcsidr, hlevel] at hexec
  split_ifs at hexec with hnop hundef hec
  · exact .inl ⟨_, completes_nop hexec _ _ _⟩
  · obtain ⟨hidst, -⟩ : has .IDST s = true ∧ _ := by simpa using hec
    by_cases hsdd : ownTarget s = .el3 ∧ el3SddUndef s = true
    · rw [sysTrap, if_pos hsdd] at hexec
      exact .inr (.inl hexec)
    · obtain ⟨iss, htrap⟩ := sysTrap_eq (sel := sel) (rt := rt) (rd := true) hsdd
      exact .inr (.inr (.inl ⟨hidst, iss, hexec.trans htrap⟩))
  · exact .inr (.inl hexec)
  · exact .inr (.inr (.inr ⟨_, (completes_writeX hexec false false).1⟩))

end

/-- Settles O22: only TID3 stands before the three reads, of ID_AA64SMFR0_EL1 alone; `bitAt_isrValue` says what ISR_EL1
shows, `readCcsidr` what CCSIDR_EL1 gives. -/
theorem identificationReads : Obligations.IdentificationReads := by
  unfold Obligations.IdentificationReads
  intro s rt hel hnv
  have hsel : selReg 1 0 0 4 5 = 0x4025 := by decide
  have hccsidr : exec (.mrsCcsidrEl1 rt) s = readCcsidr 0x4800 false rt s :=
    el1Name_CCSIDR.readSys_eq hel hnv (tid3Traps_outside s (by decide) (by rintro q ⟨⟩; rfl))
  rw [hsel]
  refine ⟨fun htid3 => ?smfr, fun htid3 => ?smfrTrapped, ?isr, bitAt_isrValue s, fun v hlevel => ?ccsidr,
    readCcsidr_unimplemented hccsidr⟩
  case smfr =>
    have hvalue : storedValue .ID_AA64SMFR0_EL1 s = sreg s .ID_AA64SMFR0_EL1 := BitVec.and_allOnes
    have hread : exec (.mrsIdAa64smfr0El1 rt) s = .next (advance (writeX rt (storedValue .ID_AA64SMFR0_EL1 s) s)) :=
      (el1Name_ID_AA64SMFR0.readSys_eq hel hnv htid3).trans (performRead_stored nofun nofun nofun (.inr rfl))
    rw [hvalue] at hread
    exact ⟨_, completes_writeX hread false false⟩
  case smfrTrapped =>
    have htraps : tid3Traps 0x4025 (some (.stored .ID_AA64SMFR0_EL1)) s = true := by
      rcases htid3 with h | ⟨h1, h2, hbit, hfgt⟩
      · exact h
      · simp [tid3Traps, h1, h2, hbit, hfgt, show idSpace 0x4025#15 = true by decide]
    exact el1Name_ID_AA64SMFR0.readSys_tid3 hel htraps
  case isr =>
    have hread : exec (.mrsIsrEl1 rt) s = .next (advance (writeX rt (isrValue s) s)) :=
      (el1Name_ISR.readSys_eq hel hnv (tid3Traps_outside s (by decide) nofun)).trans
        (performRead_view nofun nofun (.inr rfl))
    exact ⟨_, completes_writeX hread false false⟩
  case ccsidr =>
    have hread : exec (.mrsCcsidrEl1 rt) s = .next (advance (writeX rt v s)) := by
      simp [hccsidr, readCcsidr, hlevel]
    exact ⟨_, completes_writeX hread false false⟩

/-! ### RNDR and RNDRRS -/

/-- The selector names RNDR or RNDRRS. -/
structure RandomName (sel : BitVec 15) (v : View) : Prop where
  name : nameOf sel = some (.view v)
  op1 : selOp1 sel = 3
  outside : idSpace sel = false
  view : v = .RNDR ∨ v = .RNDRRS

theorem randomName_RNDR : RandomName 0x5920 .RNDR := ⟨by decide, by decide, by decide, .inl rfl⟩

theorem randomName_RNDRRS : RandomName 0x5921 .RNDRRS := ⟨by decide, by decide, by decide, .inr rfl⟩

section
variable {sel : BitVec 15} {v : View} {rt : BitVec 5} {s : State} {i : Instr}

/-- The two have one trap, that of SCR_EL3.TRNDR. -/
theorem RandomName.viewTrap_eq (hn : RandomName sel v) : viewTrap v s = viewTrap .RNDR s := by
  rcases hn.view with rfl | rfl <;> rfl

/-- With FEAT_RNG only that trap stands before the read. -/
theorem RandomName.permission_eq (hn : RandomName sel v) (hrng : has .RNG s = true) :
    permission sel (.view v) false s = viewTrap .RNDR s := by
  have hnv : nvPermission sel s = none := nvPermission_none (.inr (.inr (by simp [hn.op1])))
  have hlevel : minLevel sel ≤ elNum s.ps.el := by simp [minLevel, hn.op1]
  have hexists : nameExists (.view v) false s = true := by
    rcases hn.view with rfl | rfl <;> simp [nameExists, viewFeature, hrng]
  have htid3 : tid3Traps sel (some (.view v)) s = false := tid3Traps_outside s hn.outside nofun
  exact (permission_own hnv hlevel hexists (firstTrap_none (.inr htid3) nofun)).trans hn.viewTrap_eq

theorem RandomName.defined (hn : RandomName sel v) : (halted s && isPstateView (.view v)) = false := by
  rcases hn.view with rfl | rfl <;> exact Bool.and_false _

/-- A read that is allowed draws a number or fails. -/
theorem RandomName.readSys_eq (hn : RandomName sel v) (hallowed : permission sel (.view v) false s = .allowed) :
    readSys sel rt s = readRandom rt s := by
  rw [readSys_allowed hn.name hn.defined hallowed (by rcases hn.view with rfl | rfl <;> nofun)]
  rcases hn.view with rfl | rfl <;> rfl

/-- SCR_EL3.TRNDR traps neither at EL3 nor without EL3 or FEAT_RNG_TRAP. -/
theorem viewTrap_RNDR_allowed (h : has .RNG_TRAP s = false ∨ s.cfg.hasEL3 = false ∨ s.ps.el = .el3 ∨
    ibit s .SCR_EL3 40 = false) : viewTrap .RNDR s = .allowed := by
  rcases h with h | h | h | h <;> simp [viewTrap, h]

theorem viewTrap_RNDR_trap (htrap : has .RNG_TRAP s = true) (hel3 : s.cfg.hasEL3 = true) (hel : s.ps.el ≠ .el3)
    (hbit : ibit s .SCR_EL3 40 = true) (hsdd : el3SddUndef s = false) : viewTrap .RNDR s = .trap .el3 := by
  simp [viewTrap, htrap, hel3, hel, hbit, hsdd]

/-- A read of a random number writes Xt and the flags: a value with NZCV 0000, or 0 with NZCV 0100. -/
theorem readRandom_completes (hexec : exec i s = readRandom rt s) :
    ∃ t, Completes i [rt] false true s s t ∧ t.ps.n = false ∧ t.ps.c = false ∧ t.ps.v = false ∧
      ((t.ps.z = false ∧ ∃ v, Holds rt v t) ∨ (t.ps.z = true ∧ Holds rt 0 t)) := by
  rw [readRandom] at hexec
  generalize Config.freeBool .randomFails s.free = fails at hexec
  generalize Config.freeWord .random s.free = v at hexec
  have hframe (w : Word) (f : NZCV) : Frame [rt] false true s (setFlags f (writeX rt w s)) :=
    frame_trans (frame_writeX (List.mem_singleton.mpr rfl) _ _ _ _) (frame_setFlags _ _ _ _)
  have hholds (w : Word) (f : NZCV) : Holds rt w (advance (setFlags f (writeX rt w s))) := by
    rw [Holds, readX_advance, readX_setFlags]
    exact holds_writeX rt w s
  have hflags (f : NZCV) (w : Word) : flagsOf (advance (setFlags f (writeX rt w s))) = [f.n, f.z, f.c, f.v] :=
    (frame_advance [] false false _).nzcv rfl
  refine ⟨_, completes_advance hexec (hframe _ _) (by simp) (by simp) (by simp [halted]) (by simp), ?_⟩
  have hflags := hflags ⟨false, fails, false, false⟩ (if fails then 0 else v)
  simp only [flagsOf, List.cons.injEq, and_true] at hflags
  obtain ⟨hN, hZ, hC, hV⟩ := hflags
  refine ⟨hN, hC, hV, ?_⟩
  cases fails with
  | false => exact .inl ⟨hZ, _, hholds _ _⟩
  | true => exact .inr ⟨hZ, hholds _ _⟩

end

/-- Settles O23: the one check before the read is SCR_EL3.TRNDR, and `readRandom_completes` says what the read does. -/
theorem randomNumberReads : Obligations.RandomNumberReads := by
  unfold Obligations.RandomNumberReads
  intro s rt hrng i hi
  obtain ⟨sel, v, hn, hexec⟩ : ∃ sel v, RandomName sel v ∧ exec i s = readSys sel rt s := by
    simp only [List.mem_cons, List.not_mem_nil, or_false] at hi
    rcases hi with rfl | rfl
    · exact ⟨_, _, randomName_RNDR, rfl⟩
    · exact ⟨_, _, randomName_RNDRRS, rfl⟩
  have hpermission := hn.permission_eq hrng
  refine ⟨fun hclear => ?read, fun htrap hel3 hel hbit hsdd => ?trapped⟩
  case read =>
    exact readRandom_completes (hexec.trans (hn.readSys_eq (hpermission.trans (viewTrap_RNDR_allowed hclear))))
  case trapped =>
    rw [hexec, readSys_trap hn.name hn.defined (hpermission.trans (viewTrap_RNDR_trap htrap hel3 hel hbit hsdd))]
    exact sysTrap_eq (by simp [hsdd])

end Sys2Proof.Proofs
end

