-- ==== Sys2Proof/Proofs/Maintenance.lean ====
section
/-! The cache maintenance and TLB invalidation instructions with a row of their own. -/

namespace Sys2Proof.Proofs

open Sys2Proof.Machine Sys2Proof.Safety Sys2Proof.Laws

/-! ### Cache maintenance -/

/-- Moving stages on forgets no location. -/
theorem moveStages_keys (line key : Nat) (before after : Stage) (s : State) :
    (moveStages line key before after s).stale.map (·.1) = s.stale.map (·.1) := by
  rw [moveStages, List.map_map]
  refine List.map_congr_left fun e _ => ?_
  simp only [Function.comp]
  split <;> rfl

/-- What an instruction does to a line changes at most the stages of written code. -/
structure MovesStages (k : Xlat → State → State) : Prop where
  only : ∀ x u, k x u = { u with stale := (k x u).stale }
  keys : ∀ x u, (k x u).stale.map (·.1) = u.stale.map (·.1)

theorem movesStages_cleanLine : MovesStages cleanLine := ⟨fun _ _ => rfl, fun _ _ => moveStages_keys ..⟩

theorem movesStages_invalidateLine : MovesStages invalidateLine := ⟨fun _ _ => rfl, fun _ _ => moveStages_keys ..⟩

theorem movesStages_none : MovesStages fun _ u => u := ⟨fun _ _ => rfl, fun _ _ => rfl⟩

/-- Each of the four instructions is maintenance by VA that CMOW acts on. -/
theorem exec_cacheRow {s : State} {rt : BitVec 5} {i : Instr}
    (hi : i ∈ [Instr.dcCivac rt, .icIvau rt] ++ (if has .MTE s then [.dcCigvac rt, .dcCigdvac rt] else [])) :
    ∃ k, MovesStages k ∧ exec i s = cacheByVa true (readX rt s) s k := by
  rcases List.mem_append.mp hi with hi | hi
  · simp only [List.mem_cons, List.not_mem_nil, or_false] at hi
    rcases hi with rfl | rfl
    · exact ⟨_, movesStages_cleanLine, rfl⟩
    · exact ⟨_, movesStages_invalidateLine, rfl⟩
  · obtain ⟨hmte, hi⟩ := List.mem_ite_nil_right.mp hi
    simp only [List.mem_cons, List.not_mem_nil, or_false] at hi
    rcases hi with rfl | rfl
    · exact ⟨_, movesStages_none, if_pos hmte⟩
    · exact ⟨_, movesStages_cleanLine, if_pos hmte⟩

/-- Settles O29: each of the four is `cacheByVa`, of which `cacheByVa_completes` and `cacheByVa_permission` speak. -/
theorem cacheMaintenanceByAddress : Obligations.CacheMaintenanceByAddress := by
  unfold Obligations.CacheMaintenanceByAddress
  intro s u rt i hi
  obtain ⟨k, hk, hexec⟩ := exec_cacheRow hi
  refine ⟨fun x hx => ?completes, fun level st2 ipa va hx => hexec ▸ cacheByVa_permission hx⟩
  case completes =>
    obtain ⟨t, hnext, hpc, hframe, hstale⟩ := cacheByVa_completes hexec hx (hk.only x u)
    refine ⟨t, hnext, hpc, hframe, ?_⟩
    rcases hstale with h | h <;> rw [h]
    exact hk.keys x u

/-- DC CIPAE and DC CIGDPAE are UNDEFINED at EL1, and at EL2 outside Realm state. -/
theorem paeUndefined_below {s : State} (h : s.ps.el = .el1 ∨ (s.ps.el = .el2 ∧ curSpace s ≠ .realm)) :
    paeUndefined s = true := by
  rcases h with h | ⟨h, hspace⟩
  · simp [paeUndefined, h]
  · simp [paeUndefined, h, hspace]

/-- With FEAT_MEC they are not at EL3, and at EL2 in Realm state. -/
theorem paeUndefined_eq_false {s : State} (hmec : has .MEC s = true)
    (h : s.ps.el = .el3 ∨ (s.ps.el = .el2 ∧ curSpace s = .realm)) : paeUndefined s = false := by
  rcases h with h | ⟨h, hspace⟩
  · simp [paeUndefined, hmec, h]
  · simp [paeUndefined, hmec, h, hspace]

theorem cleanByPa_keys (v : Word) (s : State) : (cleanByPa v s).stale.map (·.1) = s.stale.map (·.1) := by
  simp only [cleanByPa]
  split
  · exact moveStages_keys ..
  · rfl

/-- Settles O30: `paeUndefined` decides; where it lets the clean be made only the stages of written code change. -/
theorem cleanToPointOfEncryption : Obligations.CleanToPointOfEncryption := by
  unfold Obligations.CleanToPointOfEncryption
  intro s rt
  refine ⟨fun h => ?undefined, fun hmec h i hi => ?completes⟩
  case undefined =>
    have hundef := paeUndefined_below h
    exact ⟨if_pos hundef, if_pos (by rw [hundef, Bool.true_or])⟩
  case completes =>
    have hdef := paeUndefined_eq_false hmec h
    have hexec : exec i s = .next (advance (cleanByPa (readX rt s) s)) := by
      rcases List.mem_append.mp hi with hi | hi
      · obtain rfl := List.mem_singleton.mp hi
        exact if_neg (by simp [hdef])
      · obtain ⟨hmte, hi⟩ := List.mem_ite_nil_right.mp hi
        obtain rfl := List.mem_singleton.mp hi
        exact if_neg (by simp [hdef, hmte])
    refine ⟨_, completes_made hexec ?_ rfl rfl rfl rfl, ?_⟩
    · rw [advance_stale]
      rfl
    · rw [advance_stale]
      exact cleanByPa_keys _ s

/-! ### TLB invalidation -/

/-- A TLBI of the EL1&0 regime: its instruction, the least level that may execute it, the entries it drops. -/
structure TlbiRow where
  instr : Instr
  least : Nat
  drops : TLBEntry → Bool

/-- An invalidation by range of `rangeOf`. -/
def rangeDrops (op : RangeOp) (rt : BitVec 5) (s : State) : TLBEntry → Bool :=
  tlbiMatch op op.num (readX rt s) (rangeOf op .el1 (readX rt s) s).1 (rangeOf op .el1 (readX rt s) s).2

/-- The rows that a reserved Security state of EL1 makes NOPs. -/
def tlbiRows (rt : BitVec 5) (s : State) : List TlbiRow := [
  ⟨.tlbiAlle1, 2, alle1Match s⟩, ⟨.tlbiAlle1nxs, 2, alle1Match s⟩, ⟨.tlbiRvae1 rt, 1, rangeDrops .rva rt s⟩,
  ⟨.tlbiRvaae1 rt, 1, rangeDrops .rvaa rt s⟩, ⟨.tlbiRipas2e1 rt, 2, rangeDrops .ripas2 rt s⟩]

theorem ne_el0_of_one_le {el : EL} (h : 1 ≤ elNum el) : el ≠ .el0 := by
  rintro rfl
  exact absurd h (by decide)

/-- At a level that may execute it, a row drops its entries, or is a NOP for a reserved Security state. -/
theorem exec_tlbiRow {r : TlbiRow} {rt : BitVec 5} {s : State} (hr : r ∈ tlbiRows rt s)
    (hlevel : r.least ≤ elNum s.ps.el) :
    exec r.instr s = if tlbiReserved s then .next (advance s) else .next (advance (tlbInvalidate r.drops s)) := by
  simp only [tlbiRows, List.mem_cons, List.not_mem_nil, or_false] at hr
  rcases hr with rfl | rfl | rfl | rfl | rfl
  · exact if_neg (Nat.not_lt.mpr hlevel)
  · exact if_neg (Nat.not_lt.mpr hlevel)
  · exact if_neg (ne_el0_of_one_le hlevel)
  · exact if_neg (ne_el0_of_one_le hlevel)
  · exact if_neg (Nat.not_lt.mpr hlevel)

section
variable {num : Nat} {v lo hi : Word} {e : TLBEntry}

theorem alle1Match_iff {s : State} : alle1Match s e = true ↔ e.regime = .el10 ∧ e.ss = lowerSpace s := by
  simp [alle1Match]

/-- By VA and ASID: in a regime with two ranges a global entry, or one of the final level with the ASID. -/
theorem tlbiMatch_rva_iff : tlbiMatch .rva num v lo hi e = true ↔
    e.includesS1 = true ∧ Overlaps 56 lo hi e.ia e.blocksize ∧ Config.tlbiElided num v e = true ∧
      (twoRanges e.regime = true → e.global = true ∨ e.finalLevel = true ∧ e.asid = field v 48 16) := by
  have hscope : (!twoRanges e.regime || asidScope (field v 48 16) e) = true ↔
      (twoRanges e.regime = true → e.global = true ∨ e.finalLevel = true ∧ e.asid = field v 48 16) := by
    cases htwo : twoRanges e.regime <;> cases hglobal : e.global <;> simp [asidScope, htwo, hglobal]
  simp only [tlbiMatch, Bool.and_eq_true, rangeOverlaps_iff, hscope]
  tauto

theorem tlbiMatch_rvaa_iff : tlbiMatch .rvaa num v lo hi e = true ↔
    e.includesS1 = true ∧ Overlaps 56 lo hi e.ia e.blocksize ∧ Config.tlbiElided num v e = true := by
  simp only [tlbiMatch, Bool.and_eq_true, rangeOverlaps_iff]
  tauto

theorem tlbiMatch_ripas2_iff : tlbiMatch .ripas2 num v lo hi e = true ↔
    e.includesS1 = false ∧ e.includesS2 = true ∧ Overlaps 52 lo hi e.ia e.blocksize ∧
      Config.tlbiElided num v e = true := by
  simp only [tlbiMatch, Bool.and_eq_true, Bool.not_eq_true', rangeOverlaps_iff]
  tauto

end

/-- An invalidation of TLB entries and of cached GPT entries: what it drops, what it may do to the monitors. -/
theorem invalidate_completes {i : Instr} {s : State} {p : TLBEntry → Bool} {g : List GptEntry}
    (h : exec i s = .next (advance { tlbInvalidate p s with gptTlb := g })) :
    ∃ t, Completes i [] false false s { s with
        tlb := t.tlb, gptTlb := t.gptTlb, exLocal := t.exLocal, exGlobal := t.exGlobal, exTlbi := true } t ∧
      (∀ e, e ∈ t.tlb ↔ e ∈ s.tlb ∧ p e = false) ∧ t.gptTlb = g ∧
      (t.exLocal = s.exLocal ∨ t.exLocal = none) ∧ (t.exGlobal = s.exGlobal ∨ t.exGlobal = none) := by
  obtain ⟨htlb, hlocal, hglobal⟩ := tlbInvalidate_spec p s
  refine ⟨_, completes_made h ?_ rfl rfl rfl rfl, by simpa using htlb, by simp, by simpa using hlocal,
    by simpa using hglobal⟩
  simp only [advance_tlb, advance_gptTlb, advance_exLocal, advance_exGlobal]
  rfl

/-- RPAOS at EL3 with FEAT_RME, whatever the Security state of EL1. -/
theorem exec_tlbiRpaos {rt : BitVec 5} {s : State} (hlevel : 3 ≤ elNum s.ps.el) (hrme : has .RME s = true) :
    exec (.tlbiRpaos rt) s = .next (advance (gptRangeOp true rt s)) := by
  have hel : s.ps.el = .el3 := by
    generalize s.ps.el = el at hlevel
    cases el <;> simp [elNum] at hlevel ⊢
  exact if_neg (by simp [hel, hrme])

/-- Settles O31: a row drops the entries of its match, which the lemmas `tlbiMatch_*_iff` spell out; RPAOS drops cached
GPT entries too. -/
theorem tlbInvalidations : Obligations.TlbInvalidations := by
  unfold Obligations.TlbInvalidations
  intro s rt i least lo hi v M hv hrow hlevel
  subst hv
  rcases hrow with ⟨hres, hrow⟩ | ⟨rfl, rfl, hrme, hrange, rfl⟩
  case inl =>
    obtain ⟨r, hr, rfl, rfl, hmatch⟩ : ∃ r ∈ tlbiRows rt s, r.instr = i ∧ r.least = least ∧
        ∀ e, r.drops e = true ↔ M e := by
      rcases hrow with ⟨rfl | rfl, rfl, rfl⟩ | ⟨rfl, rfl, hrange, rfl⟩ | ⟨rfl, rfl, hrange, rfl⟩ |
        ⟨rfl, rfl, hrange, rfl⟩
      · exact ⟨⟨.tlbiAlle1, 2, alle1Match s⟩, by simp [tlbiRows], rfl, rfl, fun _ => alle1Match_iff⟩
      · exact ⟨⟨.tlbiAlle1nxs, 2, alle1Match s⟩, by simp [tlbiRows], rfl, rfl, fun _ => alle1Match_iff⟩
      · refine ⟨⟨.tlbiRvae1 rt, 1, rangeDrops .rva rt s⟩, by simp [tlbiRows], rfl, rfl, fun _ => ?_⟩
        rw [rangeDrops, ← hrange]
        exact tlbiMatch_rva_iff
      · refine ⟨⟨.tlbiRvaae1 rt, 1, rangeDrops .rvaa rt s⟩, by simp [tlbiRows], rfl, rfl, fun _ => ?_⟩
        rw [rangeDrops, ← hrange]
        exact tlbiMatch_rvaa_iff
      · refine ⟨⟨.tlbiRipas2e1 rt, 2, rangeDrops .ripas2 rt s⟩, by simp [tlbiRows], rfl, rfl, fun _ => ?_⟩
        rw [rangeDrops, ← hrange]
        exact tlbiMatch_ripas2_iff
    have hexec : exec r.instr s = .next (advance { tlbInvalidate r.drops s with gptTlb := s.gptTlb }) := by
      rw [exec_tlbiRow hr hlevel, hres]
      rfl
    have hother : r.instr ≠ .tlbiRpaos rt := by
      simp only [tlbiRows, List.mem_cons, List.not_mem_nil, or_false] at hr
      rcases hr with rfl | rfl | rfl | rfl | rfl <;> nofun
    obtain ⟨t, hdone, htlb, hgpt, hmonitors⟩ := invalidate_completes hexec
    refine ⟨t, hdone, fun e => ?_, fun e => ?_, hmonitors⟩
    · rw [htlb, ← Bool.not_eq_true, hmatch]
    · rw [hgpt]
      exact ⟨fun h => ⟨h, fun hi => absurd hi hother⟩, And.left⟩
  case inr =>
    obtain ⟨t, hdone, htlb, hgpt, hmonitors⟩ := invalidate_completes (exec_tlbiRpaos hlevel hrme)
    refine ⟨t, hdone, fun e => ?_, fun e => ?_, hmonitors⟩
    · rw [htlb, ← Bool.not_eq_true, tlbiMatch_rpa_iff, ← hrange]
    · rw [hgpt, List.mem_filter, Bool.not_eq_true', ← Bool.not_eq_true, gptMatch_iff, ← hrange]
      rw [show (tlbiRangeOp .rpa RangeOp.rpa.num .el3 rt s).gptTlb = s.gptTlb from rfl]
      simp

/-- Settles O32: {NSE, NS} = {1, 0} is the reserved state, for which every row is a NOP. -/
theorem tlbiForReservedStateIsNop : Obligations.TlbiForReservedStateIsNop := by
  unfold Obligations.TlbiForReservedStateIsNop
  intro s rt hrme hel hnse hns i hi
  have hres : tlbiReserved s = true := by simp [tlbiReserved, validLowerState, hel, hrme, hnse, hns]
  obtain ⟨r, hr, rfl⟩ : ∃ r ∈ tlbiRows rt s, r.instr = i := by simpa [tlbiRows, eq_comm] using hi
  have hlevel : r.least ≤ elNum s.ps.el := by
    simp only [tlbiRows, List.mem_cons, List.not_mem_nil, or_false] at hr
    rcases hr with rfl | rfl | rfl | rfl | rfl <;> simp [hel, elNum]
  exact ⟨_, completes_nop ((exec_tlbiRow hr hlevel).trans (if_pos hres)) _ _ _⟩

end Sys2Proof.Proofs
end

