-- ==== Sys2Proof/Proofs/TranslationFaults.lean ====
section
/-! Address translation by AT: which Access flags a translation that faults may leave set. -/

namespace Sys2Proof.Proofs

open Sys2Proof.Machine Sys2Proof.Safety Sys2Proof.Laws

/-! ### Access flags of a translation that faults -/

/-- An update of a descriptor depends on the memory and the staleness of code alone. -/
theorem updateDescriptor_congr (d : DescUpdate) {s t : State} (hmem : t.mem = s.mem) (hstale : t.stale = s.stale) :
    (updateDescriptor d t).mem = (updateDescriptor d s).mem ∧
      (updateDescriptor d t).stale = (updateDescriptor d s).stale := by
  unfold updateDescriptor
  cases d.af <;> cases d.dirty <;> simp [writeByte, readByte, hmem, hstale]

theorem updateDescriptors_congr (ds : List DescUpdate) {s t : State} (hmem : t.mem = s.mem)
    (hstale : t.stale = s.stale) : (updateDescriptors ds t).mem = (updateDescriptors ds s).mem ∧
      (updateDescriptors ds t).stale = (updateDescriptors ds s).stale := by
  induction ds generalizing s t with
  | nil => exact ⟨hmem, hstale⟩
  | cons d ds ih =>
    obtain ⟨hmem', hstale'⟩ := updateDescriptor_congr d hmem hstale
    exact ih hmem' hstale'

/-- The memory of `u` is that of `s` with the Access flags of some of the updates set. -/
def FlagsSet (us : List DescUpdate) (s u : State) : Prop :=
  ∃ ds : List DescUpdate, ds.Sublist us ∧ u.mem = (updateDescriptors (ds.map flagOnly) s).mem ∧
    u.stale = (updateDescriptors (ds.map flagOnly) s).stale

theorem flagsSet_none (us : List DescUpdate) {s u : State} (hmem : u.mem = s.mem) (hstale : u.stale = s.stale) :
    FlagsSet us s u :=
  ⟨[], List.nil_sublist us, hmem, hstale⟩

/-- A state that differs elsewhere is as good a start. -/
theorem flagsSet_congr {us : List DescUpdate} {s t u : State} (hmem : t.mem = s.mem) (hstale : t.stale = s.stale)
    (h : FlagsSet us t u) : FlagsSet us s u := by
  obtain ⟨ds, hsub, hm, hs⟩ := h
  obtain ⟨hmem', hstale'⟩ := updateDescriptors_congr (ds.map flagOnly) hmem hstale
  exact ⟨ds, hsub, hm.trans hmem', hs.trans hstale'⟩

/-- The drawn updates are some of those given, without their dirty state. -/
theorem drawnUpdates_eq (s : State) (n : Nat) (us : List DescUpdate) :
    ∃ ds : List DescUpdate, ds.Sublist us ∧ drawnUpdates s n us = ds.map flagOnly := by
  induction us generalizing n with
  | nil => exact ⟨[], List.nil_sublist _, rfl⟩
  | cons u us ih =>
    obtain ⟨ds, hsub, hds⟩ := ih (n + 1)
    rw [drawnUpdates]
    split
    · exact ⟨u :: ds, hsub.cons_cons u, by rw [hds]; rfl⟩
    · exact ⟨ds, hsub.cons u, hds⟩

/-- A fault sets some of the Access flags of the descriptors read before it. -/
theorem flagsSet_faultUpdates {ws us : List DescUpdate} (h : ws.Sublist us) (s : State) :
    FlagsSet us s (faultUpdates ws s) := by
  obtain ⟨ds, hsub, hds⟩ := drawnUpdates_eq s 0 ws
  exact ⟨ds, hsub.trans h, by rw [faultUpdates, hds], by rw [faultUpdates, hds]⟩

section
variable {d : AccDesc} {va a va' : Word} {s u : State} {x : Xlat} {e : TLBEntry} {old : List TLBEntry} {k : AbortKind}

/-- The updates that an access by an entry may ask for, under the TCR_ELx that it uses. -/
def usedUpdates (d : AccDesc) (e : TLBEntry) (s : State) : List DescUpdate :=
  entryUpdates d e (withTcr (accessTcr e s) s)

/-- The use of an entry that faults may have set the Access flags of stage 1, or of both stages. -/
theorem useEntry_fault {late : Option LateFault} (h : useEntry late d va a e s = .fault k va' u) :
    FlagsSet (usedUpdates d e s) s u := by
  have hstage1 : FlagsSet (usedUpdates d e s) s (faultUpdates (s1Updates d e (withTcr (accessTcr e s) s)) s) :=
    flagsSet_faultUpdates (List.sublist_append_left _ _) s
  have hboth : FlagsSet (usedUpdates d e s) s (faultUpdates (entryUpdates d e (withTcr (accessTcr e s) s)) s) :=
    flagsSet_faultUpdates (List.Sublist.refl _) s
  simp only [useEntry, useEntry.lateFault] at h
  split_ifs at h with honWalk hamec hflag1 hperm1 hlate hflag2 hperm2 <;> cases h
  · exact hstage1
  · exact flagsSet_none _ rfl rfl
  · exact flagsSet_none _ rfl rfl
  · exact hstage1
  · exact hstage1
  · exact hstage1
  · exact hboth

theorem entryXlat_updates (d : AccDesc) (va a : Word) (e : TLBEntry) (s : State) :
    (entryXlat d va a e s).updates = entryUpdates d e s := by
  simp only [entryXlat]
  generalize regionAt _ _ = region
  cases region <;> rfl

/-- The location that an entry gives asks for its updates. -/
theorem useEntry_updates {late : Option LateFault} (h : useEntry late d va a e s = .ok x u) :
    x.updates = usedUpdates d e s := by
  simp only [useEntry, useEntry.lateFault] at h
  split_ifs at h
  cases h
  exact entryXlat_updates ..

/-- Caching an entry does not change what an access by it updates. -/
theorem usedUpdates_fillTlb : usedUpdates d e (fillTlb old e s) = usedUpdates d e s := by
  rw [fillTlb_eq]
  rfl

/-- A walk that stops after stage 1, or answers an entry, may ask for the updates of that entry. -/
theorem walkUpdates_stopped {w : TLBEntry} {l : LateFault}
    (h : Config.walk (walkReq d a s) (viewSys s) s.mem = .stopped w l) :
    walkUpdates d a s = usedUpdates d (walkedEntry d a w s) s := by
  rw [walkUpdates, h]
  rfl

theorem walkUpdates_entry {w : TLBEntry} (h : Config.walk (walkReq d a s) (viewSys s) s.mem = .entry w) :
    walkUpdates d a s = usedUpdates d (walkedEntry d a w s) s := by
  rw [walkUpdates, h]
  rfl

/-- A walk that faults may have set Access flags of its descriptors. -/
theorem walkAccess_fault (h : walkAccess d va a old s = .fault k va' u) : FlagsSet (walkUpdates d a s) s u := by
  unfold walkAccess at h
  split at h
  case h_1 =>
    cases h
    exact flagsSet_none _ rfl rfl
  case h_2 hwalk =>
    rw [walkUpdates_stopped hwalk]
    exact useEntry_fault h
  case h_3 w hwalk =>
    have hflags := useEntry_fault h
    rw [usedUpdates_fillTlb] at hflags
    have hmem : (fillTlb old (walkedEntry d a w s) s).mem = s.mem := by rw [fillTlb_eq]
    have hstale : (fillTlb old (walkedEntry d a w s) s).stale = s.stale := by rw [fillTlb_eq]
    rw [walkUpdates_entry hwalk]
    exact flagsSet_congr hmem hstale hflags

/-- One that does not gives a location that asks for its updates. -/
theorem walkAccess_updates (h : walkAccess d va a old s = .ok x u) : x.updates = walkUpdates d a s := by
  unfold walkAccess at h
  split at h
  case h_1 => cases h
  case h_2 hwalk => exact (useEntry_updates h).trans (walkUpdates_stopped hwalk).symm
  case h_3 hwalk => exact ((useEntry_updates h).trans usedUpdates_fillTlb).trans (walkUpdates_entry hwalk).symm

/-- Without a TLB a translation faults before its walk, and changes nothing, or the walk faults. -/
theorem findWith_nil_fault (h : findWith [] d va s = .fault k va' u) :
    FlagsSet (walkUpdates d (lookupAddr d va s) s) s u := by
  unfold findWith at h
  split at h
  · split at h <;> cases h
    exact flagsSet_none _ rfl rfl
  · rw [show hitsOf [] d va s = [] from rfl] at h
    unfold lookupIn at h
    split at h
    · cases h
      exact flagsSet_none _ rfl rfl
    · dsimp only at h
      split at h
      · cases h
        exact flagsSet_none _ rfl rfl
      · exact walkAccess_fault h

/-- Without a TLB a location comes from flat addresses, without a fault of the final access, or from the walk. -/
theorem findWith_nil_updates (h : findWith [] d va s = .ok x u) :
    x.finalFault = none ∨ x.updates = walkUpdates d (lookupAddr d va s) s := by
  unfold findWith at h
  split at h
  · split at h <;> cases h
    exact .inl (flatXlat_finalFault ..)
  · rw [show hitsOf [] d va s = [] from rfl] at h
    unfold lookupIn at h
    split at h
    · cases h
    · dsimp only at h
      split at h
      · cases h
      · exact .inr (walkAccess_updates h)

/-- The fault of the final access comes after all updates of the walk could be made. -/
theorem lookupWith_nil_fault (h : lookupWith [] d va s = .fault k va' u) :
    FlagsSet (walkUpdates d (lookupAddr d va s) s) s u := by
  rw [lookupWith] at h
  cases hfind : findWith [] d va s with
  | fault f v t =>
    rw [hfind] at h
    cases h
    exact findWith_nil_fault hfind
  | ok y t =>
    rw [hfind] at h
    simp only [Loc.settled, Loc.bind] at h
    split at h
    case h_2 => cases h
    case h_1 hfinal =>
      cases h
      have hupdates := (findWith_nil_updates hfind).resolve_left (by simp [hfinal])
      have hstart : t = { s with tlb := t.tlb, gptTlb := t.gptTlb } := findWith_ok hfind
      rw [← hupdates]
      exact flagsSet_congr (by rw [hstart]) (by rw [hstart]) (flagsSet_faultUpdates (List.Sublist.refl _) t)

end

/-- AT S1E1R above EL0. -/
theorem exec_atS1e1r {s : State} (rt : BitVec 5) (hel : s.ps.el ≠ .el0) :
    exec (.atS1e1r rt) s = addressTranslate ⟨.el1, false, false, false⟩ (readX rt s) s := if_neg hel

/-- A translation by AT that succeeds leaves memory as it is: the updates come with the report. -/
theorem atTranslate_ok {op : AtOp} {va : Word} {s u : State} {x : Xlat} (h : atTranslate op va s = .ok x u) :
    u.mem = s.mem ∧ u.stale = s.stale := by
  have hu : u = { atContext op s with tlb := u.tlb, gptTlb := u.gptTlb } := findWith_ok (settled_ok.mp h).1
  exact ⟨by rw [hu]; rfl, by rw [hu]; rfl⟩

/-- Settles O33: `addressTranslate_ok` and `addressTranslate_fault` say what is reported, `lookupWith_nil_fault` which
Access flags a fault may leave set. -/
theorem addressTranslationReports : Obligations.AddressTranslationReports := by
  unfold Obligations.AddressTranslationReports
  intro s rt
  refine ⟨fun hel => if_pos hel, fun hel => ⟨fun x u hx => ?ok, fun k va u d c hx hraises hd hc => ?fault⟩⟩
  case ok =>
    obtain ⟨hmem, hstale⟩ := atTranslate_ok hx
    exact ⟨hmem, hstale, addressTranslate_ok (exec_atS1e1r rt hel) hx⟩
  case fault =>
    subst hd hc
    exact ⟨flagsSet_congr (t := atContext _ s) rfl rfl (lookupWith_nil_fault hx),
      addressTranslate_fault (exec_atS1e1r rt hel) hx hraises⟩

end Sys2Proof.Proofs
end

