-- ==== Sys2Proof/Proofs/Granules.lean ====
section
/-! Blocks of granules: what locating them leaves unchanged, what zeroing them and storing their tags writes. -/

namespace Sys2Proof.Proofs

open Sys2Proof.Machine Sys2Proof.Safety Sys2Proof.Laws

/-! ### Locating granules -/

section
variable {d : AccDesc} {n : Nat} {va first : Word} {s u : State} {x : Xlat} {xs : List Xlat} {dev : OnDevice}

/-- The checks of the final address give the location they were made of. -/
theorem finalChecks_same {y : Xlat} (h : finalChecks d n x s = .ok y u) : y = x := by
  simp only [finalChecks] at h
  split at h
  case h_1 => cases h
  case h_2 => split at h <;> cases h
  case h_3 => cases h
  case h_4 =>
    cases h
    rfl

/-- An attempt that succeeds found its location, without a fault by memory type, and made the updates of descriptors. -/
theorem attempt_found {bad : Xlat → State → Option AbortKind} (h : attempt d n bad va s = .ok x u) :
    (∃ v, bad x v = none) ∧ u.mem = (updateDescriptors x.updates s).mem := by
  obtain ⟨y, v, hfind, hrest⟩ := loc_bind_ok h
  split at hrest
  case h_1 => cases hrest
  case h_2 hbad =>
    unfold checked at hrest
    split at hrest
    case h_2 => cases hrest
    case h_1 z w hfinal =>
      obtain rfl := finalChecks_same hfinal
      obtain ⟨rfl, rfl⟩ : z = x ∧ commit z w = u := by simpa using hrest
      have hv : v = { s with tlb := v.tlb, gptTlb := v.gptTlb } := findWith_ok hfind
      have hw : w = { v with sys := w.sys } := finalChecks_ok hfinal
      refine ⟨⟨v, hbad⟩, (updateDescriptors_congr z.updates ?_ ?_).1⟩ <;> rw [hw, hv]

theorem locateBy_found {bad : Xlat → State → Option AbortKind} (h : locateBy d n bad va s = .ok x u) :
    (∃ v, bad x v = none) ∧ u.mem = (updateDescriptors x.updates s).mem := by
  unfold locateBy at h
  split at h
  case h_1 hattempt =>
    cases h
    exact attempt_found hattempt
  case h_2 =>
    split at h
    · obtain ⟨hbad, hmem⟩ := attempt_found h
      exact ⟨hbad, hmem.trans (updateDescriptors_congr (s := s) (t := dropHits d va s) x.updates rfl rfl).1⟩
    · cases h

/-- What holds of every location that is found holds of all that are. -/
theorem locateSeq_forall {f : Word → State → Loc Xlat} {stride : Word} {g : Nat} {first : Bool} {p : Xlat → Prop}
    (hf : ∀ a v x w, f a v = .ok x w → p x) (h : locateSeq f stride g first n va s = .ok xs u) : ∀ x ∈ xs, p x := by
  induction n generalizing first va s xs with
  | zero =>
    cases h
    exact List.forall_mem_nil _
  | succ n ih =>
    rw [locateSeq] at h
    split at h
    · cases h
    · obtain ⟨x, v, hx, hrest⟩ := loc_bind_ok h
      obtain ⟨ys, w, hys, hend⟩ := loc_bind_ok hrest
      cases hend
      exact List.forall_mem_cons.mpr ⟨hf _ _ _ _ hx, ih hys⟩

/-- What each location keeps of the state, all keep. -/
theorem locateSeq_keeps {f : Word → State → Loc Xlat} {stride : Word} {g : Nat} {first : Bool} {p : State → Prop}
    (hf : ∀ a v x w, f a v = .ok x w → p v → p w) (h : locateSeq f stride g first n va s = .ok xs u) (hs : p s) :
    p u := by
  induction n generalizing first va s xs with
  | zero =>
    cases h
    exact hs
  | succ n ih =>
    rw [locateSeq] at h
    split at h
    · cases h
    · obtain ⟨x, v, hx, hrest⟩ := loc_bind_ok h
      obtain ⟨ys, w, hys, hend⟩ := loc_bind_ok hrest
      cases hend
      exact ih hys (hf _ _ _ _ hx hs)

/-- Granules are located one after another. -/
theorem locateGranules_seq (h : locateGranules d dev n first s = .ok xs u) :
    locateSeq (locateGranule d dev) 16 0 true n first s = .ok xs u := by
  unfold locateGranules at h
  split at h
  case h_1 hseq =>
    cases h
    exact hseq
  case h_2 => cases h
  case h_3 =>
    dsimp only at h
    split at h <;> cases h

/-- Where the granules of a block are located, the state differs in memory, in what is cached, and in System
registers. -/
theorem locateGranules_ok (h : locateGranules d dev n first s = .ok xs u) : u = withChecks s u :=
  locateSeq_ok (fun _ _ _ _ => locateBy_ok) (locateGranules_seq h)

/-- Locating granules keeps the canonical form of memory and tags. -/
theorem locateGranules_canonical (h : locateGranules d dev n first s = .ok xs u) (hs : Canonical s) : Canonical u := by
  obtain ⟨hmem, htags⟩ := hs
  refine ⟨locateSeq_keeps (p := fun v => Memory.wf v.mem = true) (fun a v x w hx hv => ?_) (locateGranules_seq h) hmem,
    ?_⟩
  · rw [(locateBy_found hx).2]
    exact updateDescriptors_wf _ _ hv
  · rw [locateGranules_ok h]
    exact htags

/-- Where Device memory faults, no granule that is located is in it. -/
theorem locateGranules_notDevice (h : locateGranules d .faults n first s = .ok xs u) :
    ∀ x ∈ xs, isDevice x.type = false := by
  refine locateSeq_forall (fun a v x w hx => ?_) (locateGranules_seq h)
  obtain ⟨⟨v', hbad⟩, -⟩ := locateBy_found hx
  simpa using hbad

/-- Each is in ordinary memory, where none is in a register frame. -/
theorem locateGranules_ordinary (h : locateGranules d .faults n first s = .ok xs u)
    (hframe : ∀ x ∈ xs, x.frame = none) : ∀ x ∈ xs, ordinary x = true := fun x hx => by
  simp [ordinary, locateGranules_notDevice h x hx, hframe x hx]

end

/-! ### Writing located bytes -/

section
variable {x : Xlat} {s : State}

theorem plus_key (x : Xlat) (k : Nat) : (x.plus k).key = x.key + k := by
  simp [Xlat.plus, Xlat.key, physKey, Nat.add_assoc]

/-- The bytes of a granule. -/
def granuleBytes (x : Xlat) : List Xlat := (List.range 16).map x.plus

theorem mem_granuleBytes_key {a : Nat} : a ∈ (granuleBytes x).map Xlat.key ↔ x.key ≤ a ∧ a < x.key + 16 := by
  simp only [granuleBytes, List.map_map, List.mem_map, List.mem_range, Function.comp, plus_key]
  exact ⟨fun ⟨k, hk, ha⟩ => by omega, fun h => ⟨a - x.key, by omega, by omega⟩⟩

theorem granuleBytes_ordinary (h : ordinary x = true) : ∀ y ∈ granuleBytes x, ordinary y = true := by
  simp only [granuleBytes, List.mem_map]
  rintro _ ⟨k, -, rfl⟩
  simpa [ordinary, Xlat.plus] using h

theorem granuleBytes_deviceOnly (h : deviceOnly x = true) : ∀ y ∈ granuleBytes x, deviceOnly y = true := by
  simp only [granuleBytes, List.mem_map]
  rintro _ ⟨k, -, rfl⟩
  simpa [deviceOnly, Xlat.plus] using h

/-- A write of a located byte changes memory, the log of Device accesses, or the registers of a frame. -/
theorem writeLoc_stored (x : Xlat) (b : Byte) (s : State) : writeLoc x b s = stored s (writeLoc x b s) := by
  unfold writeLoc
  split
  · rw [writeFrameByte_eq]
    rfl
  · split <;> rfl

theorem writeLocs_stored (ys : List Xlat) (bs : List Byte) (s : State) :
    writeLocs ys bs s = stored s (writeLocs ys bs s) := by
  induction ys generalizing bs s with
  | nil => rfl
  | cons y ys ih =>
    cases bs with
    | nil => rfl
    | cons b bs =>
      rw [show writeLocs (y :: ys) (b :: bs) s = writeLocs ys bs (writeLoc y b s) from rfl, ih, writeLoc_stored]
      rfl

theorem writeLoc_ordinary (h : ordinary x = true) (b : Byte) (s : State) : writeLoc x b s = writeByte x.key b s := by
  obtain ⟨hdevice, hframe⟩ : isDevice x.type = false ∧ x.frame = none := by simpa [ordinary] using h
  simp [writeLoc, hdevice, hframe]

theorem writeLoc_deviceOnly (h : deviceOnly x = true) (b : Byte) (s : State) :
    writeLoc x b s = { s with devLog := ⟨true, x.key, b⟩ :: s.devLog } := by
  obtain ⟨hdevice, hframe⟩ : isDevice x.type = true ∧ x.frame = none := by simpa [deviceOnly] using h
  simp [writeLoc, hdevice, hframe]

/-- In ordinary memory a write changes memory and the staleness of code. -/
theorem writeLocs_ordinary {ys : List Xlat} (h : ∀ y ∈ ys, ordinary y = true) (bs : List Byte) (s : State) :
    writeLocs ys bs s = { s with mem := (writeLocs ys bs s).mem, stale := (writeLocs ys bs s).stale } := by
  induction ys generalizing bs s with
  | nil => rfl
  | cons y ys ih =>
    obtain ⟨hy, hys⟩ := List.forall_mem_cons.mp h
    cases bs with
    | nil => rfl
    | cons b bs =>
      rw [show writeLocs (y :: ys) (b :: bs) s = writeLocs ys bs (writeLoc y b s) from rfl, ih hys,
        writeLoc_ordinary hy]
      rfl

/-- Zeroes written to ordinary memory read back, and leave the other bytes. -/
theorem readByte_writeLocs_zeroes {ys : List Xlat} (h : ∀ y ∈ ys, ordinary y = true) (a : Nat) {s : State}
    (hs : Memory.wf s.mem = true) : readByte a (writeLocs ys (List.replicate ys.length 0) s) =
      if a ∈ ys.map Xlat.key then 0 else readByte a s := by
  induction ys generalizing s with
  | nil => rfl
  | cons y ys ih =>
    obtain ⟨hy, hys⟩ := List.forall_mem_cons.mp h
    rw [show writeLocs (y :: ys) (List.replicate (y :: ys).length 0) s =
        writeLocs ys (List.replicate ys.length 0) (writeLoc y 0 s) from rfl, writeLoc_ordinary hy,
      ih hys (writeByte_wf _ _ s hs)]
    by_cases ha : a = y.key
    · simp [ha, readByte_writeByte_same _ _ s hs]
    · simp [ha, readByte_writeByte_other _ _ _ s ha hs]

/-- Zeroes written to Device memory are logged. -/
theorem writeLocs_deviceOnly {ys : List Xlat} (h : ∀ y ∈ ys, deviceOnly y = true) (s : State) :
    writeLocs ys (List.replicate ys.length 0) s =
      { s with devLog := (ys.map fun y => (⟨true, y.key, 0⟩ : DeviceAccess)).reverse ++ s.devLog } := by
  induction ys generalizing s with
  | nil => rfl
  | cons y ys ih =>
    obtain ⟨hy, hys⟩ := List.forall_mem_cons.mp h
    rw [show writeLocs (y :: ys) (List.replicate (y :: ys).length 0) s =
        writeLocs ys (List.replicate ys.length 0) (writeLoc y 0 s) from rfl, writeLoc_deviceOnly hy, ih hys]
    simp

end

/-! ### Zeroing granules -/

section
variable {x : Xlat} {xs : List Xlat} {s : State}

theorem zeroGranules_cons (x : Xlat) (xs : List Xlat) (s : State) : zeroGranules (x :: xs) s =
    zeroGranules xs (writeLocs (granuleBytes x) (List.replicate (granuleBytes x).length 0) s) := rfl

theorem zeroGranules_stored (xs : List Xlat) (s : State) : zeroGranules xs s = stored s (zeroGranules xs s) := by
  induction xs generalizing s with
  | nil => rfl
  | cons x xs ih =>
    rw [zeroGranules_cons, ih, writeLocs_stored]
    rfl

/-- Zeroing granules of ordinary memory changes memory and the staleness of code. -/
theorem zeroGranules_ordinary (h : ∀ x ∈ xs, ordinary x = true) (s : State) : zeroGranules xs s =
    { s with mem := (zeroGranules xs s).mem, stale := (zeroGranules xs s).stale } := by
  induction xs generalizing s with
  | nil => rfl
  | cons x xs ih =>
    obtain ⟨hx, hxs⟩ := List.forall_mem_cons.mp h
    rw [zeroGranules_cons, ih hxs, writeLocs_ordinary (granuleBytes_ordinary hx)]

theorem readByte_zeroGranules (h : ∀ x ∈ xs, ordinary x = true) (a : Nat) (hs : Memory.wf s.mem = true) :
    readByte a (zeroGranules xs s) = if ∃ x ∈ xs, x.key ≤ a ∧ a < x.key + 16 then 0 else readByte a s := by
  induction xs generalizing s with
  | nil => simp [zeroGranules]
  | cons x xs ih =>
    obtain ⟨hx, hxs⟩ := List.forall_mem_cons.mp h
    rw [zeroGranules_cons, ih hxs (writeLocs_wf _ _ s hs), readByte_writeLocs_zeroes (granuleBytes_ordinary hx) a hs]
    simp only [mem_granuleBytes_key, List.exists_mem_cons_iff]
    rw [← ite_or]
    exact if_congr or_comm rfl rfl

/-- What Safety says of zeroing. -/
theorem zeroed_zeroGranules (h : ∀ x ∈ xs, ordinary x = true) (hs : Memory.wf s.mem = true) {t : State}
    (ht : t.mem = (zeroGranules xs s).mem) : Zeroed xs s t := by
  have hread (a : Nat) : readByte a t = if ∃ x ∈ xs, x.key ≤ a ∧ a < x.key + 16 then 0 else readByte a s := by
    rw [← readByte_zeroGranules h a hs, readByte, readByte, ht]
  refine ⟨fun x hx k hk => ?_, fun a hapart => ?_⟩
  · exact (hread _).trans (if_pos ⟨x, hx, by omega, by omega⟩)
  · rw [hread, if_neg]
    rintro ⟨x, hx, hlo, hhi⟩
    have := hapart x hx
    omega

/-- Zeroing granules of Device memory adds to the log alone. -/
theorem zeroGranules_deviceOnly (h : ∀ x ∈ xs, deviceOnly x = true) (s : State) :
    zeroGranules xs s = { s with devLog := (zeroGranules xs s).devLog } ∧
      (∀ a ∈ s.devLog, a ∈ (zeroGranules xs s).devLog) ∧
      ∀ x ∈ xs, ∀ k < 16, (⟨true, x.key + k, 0⟩ : DeviceAccess) ∈ (zeroGranules xs s).devLog := by
  induction xs generalizing s with
  | nil => exact ⟨rfl, fun _ => id, List.forall_mem_nil _⟩
  | cons x xs ih =>
    obtain ⟨hx, hxs⟩ := List.forall_mem_cons.mp h
    rw [zeroGranules_cons, writeLocs_deviceOnly (granuleBytes_deviceOnly hx)]
    obtain ⟨hstate, hkeeps, hsent⟩ := ih hxs
      { s with devLog := ((granuleBytes x).map fun y => (⟨true, y.key, 0⟩ : DeviceAccess)).reverse ++ s.devLog }
    refine ⟨hstate, fun a ha => hkeeps a (List.mem_append_right _ ha), List.forall_mem_cons.mpr ⟨fun k hk => ?_, hsent⟩⟩
    refine hkeeps _ (List.mem_append_left _ (List.mem_reverse.mpr (List.mem_map.mpr ⟨x.plus k, ?_, ?_⟩)))
    · exact List.mem_map.mpr ⟨k, List.mem_range.mpr hk, rfl⟩
    · rw [plus_key]

end

/-! ### Storing Allocation Tags -/

section
variable {x : Xlat} {xs : List Xlat} {g : BitVec 4} {s : State}

theorem storeTag_eq (x : Xlat) (g : BitVec 4) (s : State) :
    storeTag x g s = { s with tags := (storeTag x g s).tags } := by
  unfold storeTag
  split <;> rfl

theorem storeTags_eq (g : BitVec 4) (xs : List Xlat) (s : State) :
    storeTags g xs s = { s with tags := (storeTags g xs s).tags } := by
  induction xs generalizing s with
  | nil => rfl
  | cons x xs ih =>
    rw [show storeTags g (x :: xs) s = storeTags g xs (storeTag x g s) from rfl, ih, storeTag_eq]

/-- A location that is not Tagged stores no tag. -/
theorem storeTags_untagged (h : ∀ x ∈ xs, tagged x s = false) : storeTags g xs s = s := by
  induction xs with
  | nil => rfl
  | cons x xs ih =>
    obtain ⟨hx, hxs⟩ := List.forall_mem_cons.mp h
    rw [show storeTags g (x :: xs) s = storeTags g xs (storeTag x g s) from rfl, storeTag, hx]
    exact ih hxs

/-- Device memory is not Tagged. -/
theorem tagged_device (h : isDevice x.type = true) (s : State) : tagged x s = false := by
  have htype : (x.type == .normalWB) = false := by
    rw [beq_eq_false_iff_ne]
    intro hwb
    simp [hwb, isDevice] at h
  simp [tagged, htype]

/-- Whether a location is Tagged depends on no tag. -/
theorem tagged_storeTag (y : Xlat) : tagged y (storeTag x g s) = tagged y s := by
  rw [storeTag_eq]
  rfl

theorem storeTag_wf (h : sparseWf (0 : BitVec 4) s.tags = true) :
    sparseWf (0 : BitVec 4) (storeTag x g s).tags = true := by
  unfold storeTag
  split
  · exact writeTag_wf _ _ s h
  · exact h

theorem readTag_storeTag (k : Nat) (h : sparseWf (0 : BitVec 4) s.tags = true) :
    readTag k (storeTag x g s) = if tagged x s = true ∧ x.key / 16 = k / 16 then g else readTag k s := by
  unfold storeTag
  by_cases htagged : tagged x s = true
  · by_cases hk : x.key / 16 = k / 16
    · have hsame : readTag k (writeTag x.key g s) = readTag x.key (writeTag x.key g s) := by rw [readTag, readTag, hk]
      rw [if_pos htagged, if_pos ⟨htagged, hk⟩, hsame, readTag_writeTag_same _ _ s h]
    · rw [if_pos htagged, if_neg (hk ·.2), readTag_writeTag_other _ _ _ s (Ne.symm hk) h]
  · rw [if_neg htagged, if_neg (htagged ·.1)]

theorem readTag_storeTags (k : Nat) (h : sparseWf (0 : BitVec 4) s.tags = true) :
    readTag k (storeTags g xs s) =
      if ∃ x ∈ xs, tagged x s = true ∧ x.key / 16 = k / 16 then g else readTag k s := by
  induction xs generalizing s with
  | nil => simp [storeTags]
  | cons x xs ih =>
    rw [show storeTags g (x :: xs) s = storeTags g xs (storeTag x g s) from rfl, ih (storeTag_wf h),
      readTag_storeTag k h]
    simp only [tagged_storeTag, List.exists_mem_cons_iff]
    rw [← ite_or]
    exact if_congr or_comm rfl rfl

/-- What Safety says of storing one tag for each granule; zeroing may have come before. -/
theorem tagsStored_storeTags {u v : State} (hv : v.tags = u.tags) (htagged : ∀ x, tagged x v = tagged x u)
    (hu : sparseWf (0 : BitVec 4) u.tags = true) {t : State} (ht : t.tags = (storeTags g xs v).tags) :
    TagsStored xs (fun _ => g) u t := by
  have hread (k : Nat) : readTag k t =
      if ∃ x ∈ xs, tagged x u = true ∧ x.key / 16 = k / 16 then g else readTag k u := by
    have hsame : readTag k t = readTag k (storeTags g xs v) := by rw [readTag, readTag, ht]
    rw [hsame, readTag_storeTags k (hv ▸ hu)]
    simp only [htagged, readTag, hv]
  refine ⟨fun _ i hi htag => ?_, fun k hapart => ?_⟩
  · exact (hread _).trans (if_pos ⟨xs[i], List.getElem_mem hi, htag, rfl⟩)
  · rw [hread, if_neg]
    rintro ⟨x, hx, htag, hkey⟩
    exact hapart x hx htag hkey

end

end Sys2Proof.Proofs
end

