-- ==== Sys2Proof/Proofs/GranuleFaults.lean ====
section
/-! Blocks of granules in Device memory: when locating them gives an Alignment fault. -/

namespace Sys2Proof.Proofs

open Sys2Proof.Machine Sys2Proof.Safety Sys2Proof.Laws

/-! ### Alignment faults of granules in Device memory -/

/-- An Alignment fault of an access other than a fetch is taken as a Data Abort. -/
theorem dataAbort_alignment {d : AccDesc} (hd : d.access ≠ .fetch) (va : Word) (s : State) :
    DataAbort alignmentStatus va s ((abort (α := Unit) d .alignment va s).andThen fun _ t => .next t) := by
  refine ⟨_, rfl, rfl, ?_, field_abortIss _ _ _ _, rfl, rfl⟩
  have hgpc : isGpc .alignment = false := rfl
  simp only [abortEc, hgpc, Bool.false_and, Bool.false_eq_true, if_false, beq_iff_eq, hd]
  split <;> simp

theorem granuleAt_zero (first : Word) : granuleAt first 0 = first := by simp [granuleAt]

theorem granuleAt_succ (first : Word) (k : Nat) : granuleAt (first + 16) k = granuleAt first (k + 1) := by
  have hsum : BitVec.ofNat 64 (16 * (k + 1)) = 16 + BitVec.ofNat 64 (16 * k) := by
    rw [Nat.mul_succ, Nat.add_comm, BitVec.ofNat_add]
    rfl
  rw [granuleAt, granuleAt, hsum, BitVec.add_assoc]

section
variable {d : AccDesc} {n : Nat} {va first : Word} {s : State}

theorem faultUpdates_pc (us : List DescUpdate) (s : State) : (faultUpdates us s).pc = s.pc := by
  rw [faultUpdates, updateDescriptors_eq]

theorem blockIsDevice_head (h : BlockIsDevice d (n + 1) first s) : BlockIsDevice d 1 first s :=
  fun k hk => h k (by omega)

theorem blockIsDevice_tail (h : BlockIsDevice d (n + 1) first s) : BlockIsDevice d n (first + 16) s := by
  intro k hk
  rw [granuleAt_succ]
  exact h (k + 1) (by omega)

/-- A granule in Device memory, by a translation that is not made again, faults where Device memory does. -/
theorem locateGranule_device (h : BlockIsDevice d 1 va s) :
    ∃ t, locateGranule d .faults va s = .fault .alignment va t ∧ t.pc = s.pc := by
  obtain ⟨hreread, x, v, hlookup, hdevice⟩ := h 0 Nat.one_pos
  rw [granuleAt_zero] at hreread hlookup
  have hfind : find d va s = .ok x v := (settled_ok.mp hlookup).1
  have hpc : v.pc = s.pc := by rw [findWith_ok hfind]
  refine ⟨faultUpdates x.updates v, ?_, (faultUpdates_pc ..).trans hpc⟩
  simp [locateGranule, locateBy, attempt, hfind, Loc.bind, hdevice, hreread]

theorem granuleFaults_cons {t : State} (h : locateGranule d .faults first s = .fault .alignment first t) :
    granuleFaults d .faults (n + 1) first s =
      (.alignment, first, t) :: granuleFaults d .faults n (first + 16) s := by
  rw [granuleFaults, h]

/-- Every granule of a block in Device memory has its Alignment fault. -/
theorem granuleFaults_device (h : BlockIsDevice d n first s) :
    ∀ g ∈ granuleFaults d .faults n first s,
      ∃ k t, g = (.alignment, granuleAt first k, t) ∧ k < n ∧ t.pc = s.pc := by
  induction n generalizing first with
  | zero => exact List.forall_mem_nil _
  | succ n ih =>
    obtain ⟨t, hfault, hpc⟩ := locateGranule_device (blockIsDevice_head h)
    rw [granuleFaults_cons hfault]
    refine List.forall_mem_cons.mpr ⟨⟨0, t, by rw [granuleAt_zero], by omega, hpc⟩, fun g hg => ?_⟩
    obtain ⟨k, v, rfl, hk, hv⟩ := ih (blockIsDevice_tail h) g hg
    exact ⟨k + 1, v, by rw [granuleAt_succ], by omega, hv⟩

/-- Locating such a block reports the fault of one of its granules. -/
theorem locateGranules_device (hn : 0 < n) (h : BlockIsDevice d n first s) :
    ∃ k t, k < n ∧ t.pc = s.pc ∧ locateGranules d .faults n first s = .fault .alignment (granuleAt first k) t := by
  obtain ⟨m, rfl⟩ := Nat.exists_eq_succ_of_ne_zero hn.ne'
  obtain ⟨t, hfault, hpc⟩ := locateGranule_device (blockIsDevice_head h)
  have hseq : locateSeq (locateGranule d .faults) 16 0 true (m + 1) first s = .fault .alignment first t := by
    simp [locateSeq, hfault, Loc.bind]
  unfold locateGranules
  rw [hseq]
  dsimp only
  split
  case h_1 f hdrawn =>
    obtain ⟨k, v, rfl, hk, hv⟩ := granuleFaults_device h f (List.mem_of_getElem? hdrawn)
    exact ⟨k, v, hk, hv, rfl⟩
  case h_2 => exact ⟨0, t, hn, hpc, by rw [granuleAt_zero]⟩

end

/-! ### What a store to granules that is stopped has done -/

theorem spoilLocs_stored (ts : List Xlat) (k : Nat) (s : State) : spoilLocs ts k s = stored s (spoilLocs ts k s) := by
  induction ts generalizing k s with
  | nil => rfl
  | cons x ts ih =>
    rw [spoilLocs, ih]
    split
    · rw [writeLoc_stored]
      rfl
    · rfl

theorem spoilTags_eq (ts : List Xlat) (k : Nat) (s : State) :
    spoilTags ts k s = { s with tags := (spoilTags ts k s).tags } := by
  induction ts generalizing k s with
  | nil => rfl
  | cons x ts ih =>
    rw [spoilTags, ih]
    split
    · rw [storeTag_eq]
    · rfl

theorem partialGranules_pc {f : List Xlat → State → State} (hf : ∀ xs s, (f xs s).pc = s.pc) (data tags : Bool)
    (xs ts : List Xlat) (s : State) : (partialGranules f data tags xs ts s).pc = s.pc := by
  have hdata (l : List Xlat) (v : State) : (spoilLocs l 0 v).pc = v.pc := by
    rw [spoilLocs_stored]
    rfl
  have htags (v : State) : (spoilTags ts 0 v).pc = v.pc := by rw [spoilTags_eq]
  simp only [partialGranules]
  split_ifs <;> simp only [hdata, htags, hf]

theorem zeroGranules_pc (xs : List Xlat) (s : State) : (zeroGranules xs s).pc = s.pc := by
  rw [zeroGranules_stored]
  rfl

theorem storeTags_pc (g : BitVec 4) (xs : List Xlat) (s : State) : (storeTags g xs s).pc = s.pc := by
  rw [storeTags_eq]

theorem zeroAndTag_pc (g : BitVec 4) (xs : List Xlat) (s : State) : (zeroAndTag g xs s).pc = s.pc :=
  (storeTags_pc ..).trans (zeroGranules_pc ..)

/-- Zeroing granules of ordinary memory and storing their tags. -/
theorem zeroAndTag_ordinary {xs : List Xlat} (h : ∀ x ∈ xs, ordinary x = true) (g : BitVec 4) (s : State) :
    zeroAndTag g xs s = { s with
      mem := (zeroGranules xs s).mem, stale := (zeroGranules xs s).stale, tags := (zeroAndTag g xs s).tags } := by
  rw [zeroAndTag, storeTags_eq, zeroGranules_ordinary h]

/-- Granules of Device memory are zeroed, and store no tag. -/
theorem zeroAndTag_device {xs : List Xlat} (h : ∀ x ∈ xs, isDevice x.type = true) (g : BitVec 4) (s : State) :
    zeroAndTag g xs s = zeroGranules xs s :=
  storeTags_untagged fun x hx => tagged_device (h x hx) _

/-! ### DC ZVA, DC GVA and DC GZVA -/

theorem dczTrap_allowed {s : State} (h : dczProhibited s = false) (op2 : BitVec 3) (rt : BitVec 5) (k : Result) :
    dczTrap op2 rt s k = k := by
  simp [dczTrap, dczException, h]

theorem dczTrap_prohibited {s : State} (h : dczProhibited s = true) (op2 : BitVec 3) (rt : BitVec 5) (k : Result) :
    ∃ el iss, dczTrap op2 rt s k = raise (syncExc el 0x18 iss s) s := by
  simp only [dczTrap, dczException, h, if_true, Option.getD_some]
  exact ⟨_, _, rfl⟩

/-- A block has a granule. -/
theorem blockBytes_granules (bs : BitVec 4) : 0 < blockBytes bs / 16 :=
  Nat.div_pos (Nat.le_max_left ..) (by decide)

theorem dcBlock_granules (s : State) : 0 < dcBlock s / 16 := blockBytes_granules _

theorem tagBlock_granules (s : State) : 0 < tagBlock s / 16 := blockBytes_granules _

section
variable {d : AccDesc} {dev : OnDevice} {va : Word} {f : List Xlat → State → State} {tags : Bool} {s u v : State}
  {xs : List Xlat} {k : List Xlat → State → Result}

/-- A block that is located is acted on. -/
theorem withBlock_located (h : locateGranules d dev (dcBlock s / 16) (alignDown va (dcBlock s)) s = .ok xs u) :
    withBlock d dev va f tags s k = k xs (f xs u) := by
  simp [withBlock, h]

/-- A block in Device memory has an Alignment fault. -/
theorem withBlock_device (hd : d.access ≠ .fetch) (hf : ∀ xs s, (f xs s).pc = s.pc)
    (h : BlockIsDevice d (dcBlock s / 16) (alignDown va (dcBlock s)) s) :
    BlockAborts (dcBlock s / 16) (alignDown va (dcBlock s)) s (withBlock d .faults va f tags s k) := by
  obtain ⟨j, t, hj, hpc, hlocate⟩ := locateGranules_device (dcBlock_granules s) h
  simp only [withBlock, hlocate]
  exact ⟨j, _, hj, (partialGranules_pc hf ..).trans hpc, dataAbort_alignment hd _ _⟩

/-- An instruction that acts on a located block goes on to the next one. -/
theorem nextPc_located (hu : u = withChecks s u)
    (hv : v = { u with mem := v.mem, stale := v.stale, tags := v.tags, devLog := v.devLog }) :
    NextPc s (advance v) := by
  apply nextPc_advance <;> rw [hv, hu] <;> rfl

end

section
variable {s : State} {rt : BitVec 5} {k : Result}

theorem exec_dcZva (h : dczProhibited s = false) : exec (.dcZva rt) s =
    withBlock (dcZeroDesc false) .faults (readX rt s) zeroGranules false s fun _ t => .next (advance t) :=
  dczTrap_allowed h ..

theorem exec_dcGva (hmte : has .MTE s = true) (h : dczProhibited s = false) : exec (.dcGva rt) s =
    withBlock dcTagDesc (gvaDev s) (readX rt s) (storeTags (field (readX rt s) 56 4)) true s fun _ t =>
      .next (advance t) :=
  (if_neg (by simp [hmte])).trans (dczTrap_allowed h ..)

theorem exec_dcGzva (hmte : has .MTE s = true) (h : dczProhibited s = false) : exec (.dcGzva rt) s =
    withBlock (dcZeroDesc true) .faults (readX rt s) (zeroAndTag (field (readX rt s) 56 4)) true s fun _ t =>
      .next (advance t) :=
  (if_neg (by simp [hmte])).trans (dczTrap_allowed h ..)

end

/-- Settles O27: a located block is acted on (`withBlock_located`), as `zeroed_zeroGranules` and `tagsStored_storeTags`
say; one in Device memory faults (`withBlock_device`). -/
theorem zeroingABlock : Obligations.ZeroingABlock := by
  unfold Obligations.ZeroingABlock
  intro s u rt xs hs
  refine ⟨fun hallowed => ⟨fun hloc hframe => ?zva, fun hmte hloc hframe => ?gzva, fun hmte hloc => ?gva,
    fun hdevice => ?zvaDevice, fun hmte hdevice => ?gzvaDevice⟩, fun hprohibited i hi => ?prohibited⟩
  case zva =>
    have hordinary := locateGranules_ordinary hloc hframe
    have hzero := zeroGranules_ordinary hordinary u
    refine ⟨advance (zeroGranules xs u), (exec_dcZva hallowed).trans (withBlock_located hloc),
      nextPc_located (locateGranules_ok hloc) (by rw [hzero]), ?_,
      zeroed_zeroGranules hordinary (locateGranules_canonical hloc hs).1 (advance_mem _)⟩
    rw [advance_mem, advance_stale, ← hzero]
    exact frame_advance ..
  case gzva =>
    have hordinary := locateGranules_ordinary hloc hframe
    have hboth := zeroAndTag_ordinary hordinary (field (readX rt s) 56 4) u
    have hmem : (zeroAndTag (field (readX rt s) 56 4) xs u).mem = (zeroGranules xs u).mem := by rw [hboth]
    have hstale : (zeroAndTag (field (readX rt s) 56 4) xs u).stale = (zeroGranules xs u).stale := by rw [hboth]
    obtain ⟨hwf, htags⟩ := locateGranules_canonical hloc hs
    refine ⟨advance (zeroAndTag (field (readX rt s) 56 4) xs u),
      (exec_dcGzva hmte hallowed).trans (withBlock_located hloc),
      nextPc_located (locateGranules_ok hloc) (by rw [hboth]), ?_,
      zeroed_zeroGranules hordinary hwf ((advance_mem _).trans hmem),
      tagsStored_storeTags (v := zeroGranules xs u) ?_ (fun x => ?_) htags (advance_tags _)⟩
    · rw [advance_mem, advance_stale, advance_tags, hmem, hstale, ← hboth]
      exact frame_advance ..
    · rw [zeroGranules_ordinary hordinary]
    · rw [zeroGranules_ordinary hordinary]
      rfl
  case gva =>
    have hstore := storeTags_eq (field (readX rt s) 56 4) xs u
    refine ⟨advance (storeTags (field (readX rt s) 56 4) xs u),
      (exec_dcGva hmte hallowed).trans (withBlock_located hloc),
      nextPc_located (locateGranules_ok hloc) (by rw [hstore]), ?_,
      tagsStored_storeTags rfl (fun _ => rfl) (locateGranules_canonical hloc hs).2 (advance_tags _)⟩
    rw [advance_tags, ← hstore]
    exact frame_advance ..
  case zvaDevice => exact exec_dcZva (rt := rt) hallowed ▸ withBlock_device nofun zeroGranules_pc hdevice
  case gzvaDevice =>
    exact exec_dcGzva (rt := rt) hmte hallowed ▸ withBlock_device nofun (zeroAndTag_pc _) hdevice
  case prohibited =>
    have hexec : ∃ op2 k, exec i s = dczTrap op2 rt s k := by
      rcases List.mem_append.mp hi with hi | hi
      · obtain rfl := List.mem_singleton.mp hi
        exact ⟨_, _, rfl⟩
      · obtain ⟨hmte, hi⟩ := List.mem_ite_nil_right.mp hi
        simp only [List.mem_cons, List.not_mem_nil, or_false] at hi
        rcases hi with rfl | rfl
        · exact ⟨_, _, if_neg (by simp [hmte])⟩
        · exact ⟨_, _, if_neg (by simp [hmte])⟩
    obtain ⟨op2, k, hexec⟩ := hexec
    exact hexec ▸ dczTrap_prohibited hprohibited op2 rt k

/-! ### STZGM to Device memory -/

section
variable {d : AccDesc} {dev : OnDevice} {rn : BitVec 5} {s u : State} {base : Word} {xs : List Xlat}
  {part : Word → List Xlat → List Xlat → State → State} {far : AbortKind → Word → Word → State → Word}
  {k : Word → List Xlat → State → Result}

/-- With FEAT_MTE2, above EL0 and with a usable base a multiple-tag form acts on the block that is located. -/
theorem tagMultiple_located (hmte2 : has .MTE2 s = true) (hel : s.ps.el ≠ .el0) (hbase : baseReg rn s = .ok base s)
    (hloc : locateGranules d dev (tagBlock s / 16) (alignDown base (tagBlock s)) s = .ok xs u) :
    tagMultiple d dev rn s part far k = k base xs u := by
  simp [tagMultiple, hmte2, hel, hbase, hloc]

/-- Where its block has a fault it takes that, in a state that it may have acted on before. -/
theorem tagMultiple_fault {f : AbortKind} {va : Word} (hmte2 : has .MTE2 s = true) (hel : s.ps.el ≠ .el0)
    (hbase : baseReg rn s = .ok base s)
    (hloc : locateGranules d dev (tagBlock s / 16) (alignDown base (tagBlock s)) s = .fault f va u) :
    ∃ ys ts, tagMultiple d dev rn s part far k =
      (abort (α := Unit) d f (far f va base s) (part base ys ts u)).andThen fun _ v => .next v := by
  have hgoes : (!has .MTE2 s || s.ps.el == .el0) = false := by simp [hmte2, hel]
  simp only [tagMultiple, hgoes, Bool.false_eq_true, if_false, hbase, andThen_value, hloc]
  exact ⟨_, _, rfl⟩

end

section
variable {s u : State} {rn rt : BitVec 5} {base : Word} {xs : List Xlat}

/-- The lowest fault of a block in Device memory is that of its first granule. -/
theorem lowestFault_device {first va : Word} (hdev : stzgmDev s = .faults)
    (h : BlockIsDevice stzgmDesc (tagBlock s / 16) first s) :
    lowestFault stzgmDesc .alignment va first s = first := by
  obtain ⟨m, hm⟩ := Nat.exists_eq_succ_of_ne_zero (tagBlock_granules s).ne'
  rw [hm] at h
  obtain ⟨t, hfault, -⟩ := locateGranule_device (blockIsDevice_head h)
  rw [lowestFault, hdev, hm, granuleFaults_cons hfault]
  simp

/-- Where Device memory faults, the address is the lowest of the block or the base, as the implementation chooses. -/
theorem stzgm_faults (hmte2 : has .MTE2 s = true) (hel : s.ps.el ≠ .el0) (hbase : baseReg rn s = .ok base s)
    (hdev : stzgmDev s = .faults)
    (h : BlockIsDevice stzgmDesc (tagBlock s / 16) (alignDown base (tagBlock s)) s) :
    ∃ v, v.pc = s.pc ∧ DataAbort alignmentStatus (if s.cfg.stzgmFarLowest then alignDown base (tagBlock s) else base) v
      (exec (.stzgm rn rt) s) := by
  obtain ⟨j, t, -, hpc, hlocate⟩ := locateGranules_device (tagBlock_granules s) h
  have hfar : stzgmFar .alignment (granuleAt (alignDown base (tagBlock s)) j) base s =
      if s.cfg.stzgmFarLowest then alignDown base (tagBlock s) else base := by
    rw [stzgmFar, lowestFault_device hdev h]
    nofun
  rw [← hdev] at hlocate
  obtain ⟨ys, ts, hexec⟩ : ∃ ys ts, exec (.stzgm rn rt) s = (abort (α := Unit) stzgmDesc .alignment _
      (partialGranules (zeroAndTag (field (readX rt s) 0 4)) true true ys ts t)).andThen fun _ v => .next v :=
    tagMultiple_fault hmte2 hel hbase hlocate
  rw [hexec, hfar]
  exact ⟨_, (partialGranules_pc (zeroAndTag_pc _) ..).trans hpc, dataAbort_alignment (d := stzgmDesc) nofun _ _⟩

/-- Where it does not, the block is sent zeroes, and no tag changes. -/
theorem stzgm_zeroes (hmte2 : has .MTE2 s = true) (hel : s.ps.el ≠ .el0) (hbase : baseReg rn s = .ok base s)
    (hdev : stzgmDev s = .goesOn)
    (hloc : locateGranules stzgmDesc .goesOn (tagBlock s / 16) (alignDown base (tagBlock s)) s = .ok xs u)
    (hdevice : ∀ x ∈ xs, deviceOnly x = true) :
    ∃ t, exec (.stzgm rn rt) s = .next t ∧ NextPc s t ∧ Frame [] false false { u with devLog := t.devLog } t ∧
      ∀ x ∈ xs, ∀ k < 16, (⟨true, x.key + k, 0⟩ : DeviceAccess) ∈ t.devLog := by
  have hexec : exec (.stzgm rn rt) s = .next (advance (zeroAndTag (field (readX rt s) 0 4) xs u)) :=
    tagMultiple_located hmte2 hel hbase (hdev ▸ hloc)
  rw [zeroAndTag_device fun x hx => (Bool.and_eq_true_iff.mp (hdevice x hx)).1] at hexec
  obtain ⟨hstate, -, hsent⟩ := zeroGranules_deviceOnly hdevice u
  refine ⟨_, hexec, nextPc_located (locateGranules_ok hloc) (by rw [hstate]), ?_, by rwa [advance_devLog]⟩
  rw [advance_devLog, ← hstate]
  exact frame_advance ..

end

/-- Settles O28: whether Device memory faults is drawn (`gvaDev`, `stzgmDev`); where it does the block aborts, where it
does not no location of it is Tagged. -/
theorem tagStoresToDevice : Obligations.TagStoresToDevice := by
  unfold Obligations.TagStoresToDevice
  intro s u rt rn xs base
  refine ⟨fun hmte hallowed hloc hdevice hblock => ?gva, fun hmte2 hel hbase hloc hdevice hblock => ?stzgm⟩
  case gva =>
    have hexec := exec_dcGva (rt := rt) hmte hallowed
    cases hdev : gvaDev s with
    | faults =>
      rw [hdev] at hexec
      exact .inr (hexec ▸ withBlock_device nofun (storeTags_pc _) hblock)
    | goesOn =>
      rw [hdev, withBlock_located hloc, storeTags_untagged fun x hx => tagged_device (hdevice x hx) u] at hexec
      exact .inl ⟨_, hexec, nextPc_located (locateGranules_ok hloc) rfl, frame_advance ..⟩
  case stzgm =>
    cases hdev : stzgmDev s with
    | faults => exact .inr (stzgm_faults hmte2 hel hbase hdev hblock)
    | goesOn => exact .inl (stzgm_zeroes hmte2 hel hbase hdev hloc hdevice)

end Sys2Proof.Proofs
end

