-- ==== Sys2Proof/Proofs/Exclusives.lean ====
section
/-! Load-Exclusives and Store-Exclusives: a misaligned address faults before it is translated. -/

namespace Sys2Proof.Proofs

open Sys2Proof.Machine Sys2Proof.Safety Sys2Proof.Laws

section
variable {rs rt2 rn rt : BitVec 5} {base : Word} {s : State}

/-- A Store-Exclusive stores its size of data by way of `storeExclusive`. -/
theorem exec_storeExclusives {e : StoreEx} (he : e ∈ storeExclusives rs rt2 rn rt s) :
    ∃ (w : Nat) (data : BitVec w), exec e.instr s = storeExclusive e.size data e.clash rs rn s := by
  simp only [storeExclusives, List.mem_cons, List.not_mem_nil, or_false] at he
  rcases he with rfl | rfl | rfl | rfl | rfl | rfl | rfl | rfl | rfl | rfl | rfl | rfl <;> exact ⟨_, _, rfl⟩

/-- The whole size counts for the alignment of a Store-Exclusive, and it is checked first. -/
theorem storeExclusive_misaligned {w n : Nat} {data : BitVec w} (hsource : ¬(rs = rn ∧ rn ≠ 31))
    (hbase : baseReg rn s = .ok base s) (h : unaligned base n = true) :
    DataAbort alignmentStatus base s (storeExclusive n data false rs rn s) := by
  have hfree : (false || rs == rn && rn != 31) = false := by simpa using hsource
  have hlocate : exclusiveLocate n rn base s = abort (exclusiveDesc true rn) .alignment base s := by
    rw [exclusiveLocate, if_pos h]
    rfl
  rw [storeExclusive, hfree, hbase, if_neg Bool.false_ne_true, andThen_value, hlocate]
  exact dataAbort_alignment (d := exclusiveDesc true rn) nofun base s

/-- A misaligned Load-Exclusive is located nowhere: an exclusive access always has its alignment checked. -/
theorem loadExclusive_misaligned (hbase : baseReg rn s = .ok base s) (h : unaligned base 8 = true) :
    DataAbort alignmentStatus base s (loadExclusive rn rt s) := by
  have hlocate : locateAll (exclusiveDesc false rn) 8 base s = .fault .alignment base s :=
    if_pos (by rw [alignmentFaults, h]; rfl)
  rw [loadExclusive, hbase, andThen_value, hlocate]
  exact dataAbort_alignment (d := exclusiveDesc false rn) nofun base s

end

/-- Settles O48: both kinds check their alignment before anything is translated, `storeExclusive_misaligned` and
`loadExclusive_misaligned`. -/
theorem exclusivesAlwaysCheckAlignment : Obligations.ExclusivesAlwaysCheckAlignment := by
  unfold Obligations.ExclusivesAlwaysCheckAlignment
  intro s rs rt2 rn rt base hbase
  refine ⟨fun e he hclash hsource hmis => ?store, fun hmis i hi => ?load⟩
  case store =>
    obtain ⟨w, data, hexec⟩ := exec_storeExclusives he
    rw [hexec, hclash]
    exact storeExclusive_misaligned hsource hbase hmis
  case load =>
    simp only [List.mem_cons, List.not_mem_nil, or_false] at hi
    have hexec : exec i s = loadExclusive rn rt s := by rcases hi with rfl | rfl <;> rfl
    exact hexec ▸ loadExclusive_misaligned hbase hmis

end Sys2Proof.Proofs
end

