-- ==== Sys2Proof/Proofs/TagBlocks.lean ====
section
/-! The tags of a block: a word of tags stored granule by granule (STGM), and put together (LDGM). -/

namespace Sys2Proof.Proofs

open Sys2Proof.Machine Sys2Proof.Safety Sys2Proof.Laws

/-! ### Storing a word of tags -/

section
variable {v : Word} {i : Nat} {xs : List Xlat} {s u t : State}

theorem storeTagList_cons (v : Word) (i : Nat) (x : Xlat) (xs : List Xlat) (s : State) :
    storeTagList v i (x :: xs) s = storeTagList v (i + 1) xs (storeTag x (nthTag v i) s) := rfl

theorem storeTagList_eq (v : Word) (i : Nat) (xs : List Xlat) (s : State) :
    storeTagList v i xs s = { s with tags := (storeTagList v i xs s).tags } := by
  induction xs generalizing i s with
  | nil => rfl
  | cons x xs ih => rw [storeTagList_cons, ih, storeTag_eq]

/-- The tag of a granule of no Tagged location stays. -/
theorem readTag_storeTagList_other {k : Nat} (hs : sparseWf (0 : BitVec 4) s.tags = true)
    (h : ∀ x ∈ xs, tagged x s = true → x.key / 16 ≠ k / 16) : readTag k (storeTagList v i xs s) = readTag k s := by
  induction xs generalizing i s with
  | nil => rfl
  | cons x xs ih =>
    obtain ⟨hx, hxs⟩ := List.forall_mem_cons.mp h
    rw [storeTagList_cons, ih (storeTag_wf hs) (by simpa only [tagged_storeTag] using hxs), readTag_storeTag k hs,
      if_neg fun hsame => hx hsame.1 hsame.2]

/-- The tag of a Tagged location is the one at its place in the word, where no other location is in its granule. -/
theorem readTag_storeTagList_same (hs : sparseWf (0 : BitVec 4) s.tags = true)
    (hnodup : (xs.map (·.key / 16)).Nodup) {k : Nat} (hk : k < xs.length) (htag : tagged xs[k] s = true) :
    readTag xs[k].key (storeTagList v i xs s) = nthTag v (i + k) := by
  induction xs generalizing i k s with
  | nil => cases hk
  | cons x xs ih =>
    obtain ⟨hx, hxs⟩ := List.nodup_cons.mp hnodup
    rw [storeTagList_cons]
    cases k with
    | zero =>
      have hapart : ∀ y ∈ xs, tagged y (storeTag x (nthTag v i) s) = true → y.key / 16 ≠ x.key / 16 :=
        fun y hy _ hkey => hx (List.mem_map.mpr ⟨y, hy, hkey⟩)
      exact (readTag_storeTagList_other (storeTag_wf hs) hapart).trans
        ((readTag_storeTag _ hs).trans (if_pos ⟨htag, rfl⟩))
    | succ k =>
      have hlater := ih (i := i + 1) (storeTag_wf (x := x) (g := nthTag v i) hs) hxs (Nat.lt_of_succ_lt_succ hk)
        ((tagged_storeTag _).trans htag)
      rwa [Nat.add_assoc, Nat.add_comm 1] at hlater

/-- What Safety says of storing a word of tags. -/
theorem tagsStored_storeTagList (hu : sparseWf (0 : BitVec 4) u.tags = true)
    (ht : t.tags = (storeTagList v i xs u).tags) : TagsStored xs (fun k => field v (4 * (i + k)) 4) u t := by
  have hread (k : Nat) : readTag k t = readTag k (storeTagList v i xs u) := by rw [readTag, readTag, ht]
  exact ⟨fun hnodup k hk htag => (hread _).trans (readTag_storeTagList_same hu hnodup hk htag),
    fun k hapart => (hread k).trans (readTag_storeTagList_other hu hapart)⟩

end

/-! ### A word of loaded tags -/

theorem field_or {w : Nat} (a b : BitVec w) (lo n : Nat) : field (a ||| b) lo n = field a lo n ||| field b lo n :=
  BitVec.extractLsb'_or

/-- A field that was put into a word is found where it was put. -/
theorem field_fieldTo_same {n lo : Nat} (f : BitVec n) (h : lo + n ≤ 64) : field (fieldTo lo f) lo n = f := by
  ext j hj
  simp only [field, BitVec.getElem_extractLsb', getLsbD_fieldTo]
  simp [show lo + j < 64 by omega, BitVec.getLsbD_eq_getElem hj]

/-- Beside its place the word is zero. -/
theorem field_fieldTo_apart {n lo lo' m : Nat} (f : BitVec n) (h : lo' + m ≤ lo ∨ lo + n ≤ lo') :
    field (fieldTo lo f) lo' m = 0#m := by
  ext j hj
  simp only [field, BitVec.getElem_extractLsb', getLsbD_fieldTo]
  rcases h with h | h
  · simp [show ¬lo ≤ lo' + j by omega]
  · simp [BitVec.getLsbD_of_ge f _ (show n ≤ lo' + j - lo by omega)]

section
variable {s : State} {xs : List Xlat} {i : Nat}

/-- Below the place of the first granule the word is zero. -/
theorem field_loadTagList_below {lo m : Nat} (h : lo + m ≤ 4 * i) : field (loadTagList s i xs) lo m = 0#m := by
  induction xs generalizing i with
  | nil => exact BitVec.extractLsb'_zero
  | cons x xs ih =>
    rw [loadTagList, field_or, field_fieldTo_apart _ (.inl h), ih (by omega), BitVec.or_zero]

/-- Each granule whose place is in the word has its tag there. -/
theorem field_loadTagList {k : Nat} (hk : k < xs.length) (hplace : i + k < 16) :
    field (loadTagList s i xs) (4 * (i + k)) 4 = loadTag xs[k] s := by
  induction xs generalizing i k with
  | nil => cases hk
  | cons x xs ih =>
    rw [loadTagList, field_or]
    cases k with
    | zero =>
      rw [Nat.add_zero, field_fieldTo_same _ (by omega), field_loadTagList_below (by omega), BitVec.or_zero,
        List.getElem_cons_zero]
    | succ k =>
      rw [field_fieldTo_apart _ (.inr (by omega)), BitVec.zero_or, ← Nat.add_assoc, Nat.add_right_comm,
        ih (Nat.lt_of_succ_lt_succ hk) (by omega), List.getElem_cons_succ]

end

/-! ### STZGM, STGM and LDGM -/

/-- At EL0 the multiple-tag forms are UNDEFINED. -/
theorem tagMultiple_el0 {d : AccDesc} {dev : OnDevice} {rn : BitVec 5} {s : State}
    {part : Word → List Xlat → List Xlat → State → State} {far : AbortKind → Word → Word → State → Word}
    {k : Word → List Xlat → State → Result} (h : s.ps.el = .el0) :
    tagMultiple d dev rn s part far k = undefined s :=
  if_pos (by simp [h])

section
variable {s u : State} {rn rt : BitVec 5} {base : Word} {xs : List Xlat}

theorem exec_ldgm : exec (.ldgm rn rt) s = execLdgm rn rt s := rfl

theorem stzgm_located (hmte2 : has .MTE2 s = true) (hel : s.ps.el ≠ .el0) (hbase : baseReg rn s = .ok base s)
    (hs : Canonical s)
    (hloc : locateGranules stzgmDesc (stzgmDev s) (tagBlock s / 16) (alignDown base (tagBlock s)) s = .ok xs u)
    (hordinary : ∀ x ∈ xs, ordinary x = true) :
    ∃ t, exec (.stzgm rn rt) s = .next t ∧ NextPc s t ∧
      Frame [] false false { u with mem := t.mem, stale := t.stale, tags := t.tags } t ∧ Zeroed xs u t ∧
      TagsStored xs (fun _ => field (readX rt s) 0 4) u t := by
  have hboth := zeroAndTag_ordinary hordinary (field (readX rt s) 0 4) u
  have hmem : (zeroAndTag (field (readX rt s) 0 4) xs u).mem = (zeroGranules xs u).mem := by rw [hboth]
  have hstale : (zeroAndTag (field (readX rt s) 0 4) xs u).stale = (zeroGranules xs u).stale := by rw [hboth]
  obtain ⟨hwf, htags⟩ := locateGranules_canonical hloc hs
  refine ⟨advance (zeroAndTag (field (readX rt s) 0 4) xs u), tagMultiple_located hmte2 hel hbase hloc,
    nextPc_located (locateGranules_ok hloc) (by rw [hboth]), ?_,
    zeroed_zeroGranules hordinary hwf ((advance_mem _).trans hmem),
    tagsStored_storeTags (v := zeroGranules xs u) ?_ (fun x => ?_) htags (advance_tags _)⟩
  · rw [advance_mem, advance_stale, advance_tags, hmem, hstale, ← hboth]
    exact frame_advance ..
  · rw [zeroGranules_ordinary hordinary]
  · rw [zeroGranules_ordinary hordinary]
    rfl

theorem stgm_located (hmte2 : has .MTE2 s = true) (hel : s.ps.el ≠ .el0) (hbase : baseReg rn s = .ok base s)
    (hs : Canonical s)
    (hloc : locateGranules (tagDesc true) .goesOn (tagBlock s / 16) (alignDown base (tagBlock s)) s = .ok xs u) :
    ∃ t, exec (.stgm rn rt) s = .next t ∧ NextPc s t ∧ Frame [] false false { u with tags := t.tags } t ∧
      TagsStored xs (fun k => field (readX rt s) (4 * (tagIndex base s + k)) 4) u t := by
  have hstore := storeTagList_eq (readX rt s) (tagIndex base s) xs u
  refine ⟨advance (storeTagList (readX rt s) (tagIndex base s) xs u), tagMultiple_located hmte2 hel hbase hloc,
    nextPc_located (locateGranules_ok hloc) (by rw [hstore]), ?_,
    tagsStored_storeTagList (locateGranules_canonical hloc hs).2 (advance_tags _)⟩
  rw [advance_tags, ← hstore]
  exact frame_advance ..

theorem ldgm_located (hmte2 : has .MTE2 s = true) (hel : s.ps.el ≠ .el0) (hbase : baseReg rn s = .ok base s)
    (hloc : locateGranules (tagDesc false) .goesOn (tagBlock s / 16) (alignDown base (tagBlock s)) s = .ok xs u) :
    ∃ t v, exec (.ldgm rn rt) s = .next t ∧ NextPc s t ∧ Frame [rt] false false u t ∧ Holds rt v t ∧
      ∀ k, ∀ h : k < xs.length, tagIndex base s + k < 16 →
        field v (4 * (tagIndex base s + k)) 4 = (if tagged xs[k] u then readTag xs[k].key u else 0) := by
  have hu := locateGranules_ok hloc
  have hexec : exec (.ldgm rn rt) s = .next (advance (writeX rt (loadTagList u (tagIndex base s) xs) u)) :=
    exec_ldgm.trans (tagMultiple_located hmte2 hel hbase hloc)
  refine ⟨_, _, hexec, ?_, ?_, ?_, fun k hk hplace => field_loadTagList hk hplace⟩
  · apply nextPc_advance <;> simp only [writeX_pc, writeX_offTop, halted_writeX, writeX_ps] <;> rw [hu] <;> rfl
  · exact frame_trans (frame_writeX (List.mem_singleton.mpr rfl) _ _ _ _) (frame_advance ..)
  · rw [Holds, readX_advance]
    exact holds_writeX ..

end

/-- Settles O44: what each form does with a located block is `stzgm_located`, `stgm_located` and `ldgm_located`. -/
theorem blocksOfTags : Obligations.BlocksOfTags := by
  unfold Obligations.BlocksOfTags
  intro s u rn rt base xs hs
  refine ⟨fun hel0 => ⟨tagMultiple_el0 hel0, tagMultiple_el0 hel0, exec_ldgm.trans (tagMultiple_el0 hel0)⟩,
    fun hmte2 hel hbase => ⟨stzgm_located hmte2 hel hbase hs, stgm_located hmte2 hel hbase hs,
      ldgm_located hmte2 hel hbase⟩⟩

end Sys2Proof.Proofs
end

