-- ==== Sys2Proof/Proofs/LocatedStores.lean ====
section
/-! Stores to located bytes: what they write, and that they leave the PE in Debug state or outside it. -/

namespace Sys2Proof.Proofs

open Sys2Proof.Machine Sys2Proof.Safety Sys2Proof.Laws

/-! ### What a store leaves of the state -/

section
variable {s t u v : State}

/-- A change of one bit leaves the others. -/
theorem getLsbD_setBit_other {w n j : Nat} (v : BitVec w) (b : Bool) (h : j ≠ n) :
    (setBit v n b).getLsbD j = v.getLsbD j := by
  have hmask : (1#w <<< n).getLsbD j = false := by
    simp only [BitVec.getLsbD_shiftLeft, BitVec.getLsbD_one]
    grind
  cases b with
  | true => simp [setBit, hmask]
  | false =>
    simp only [setBit, Bool.false_eq_true, if_false, BitVec.getLsbD_and, BitVec.getLsbD_not, hmask]
    by_cases hj : j < w
    · simp [hj]
    · simp [BitVec.getLsbD_of_ge v j (by omega)]

/-- STATUS, EDSCR[5:0], decides whether the PE is in Debug state. -/
theorem halted_congr (h : field t.dbg.edscr 0 6 = field s.dbg.edscr 0 6) : halted t = halted s := by
  rw [halted, h, halted]

/-- A debugger's write of EDSCR leaves STATUS. -/
theorem halted_writeEdscr (v : Half) (s : State) : halted (writeEdscr v s) = halted s := by
  refine halted_congr ?_
  ext j hj
  simp only [writeEdscr, setEdscr, field, BitVec.getElem_extractLsb']
  exact getLsbD_setBit_other _ _ (by omega)

theorem halted_writeFeatureReg (r : ExtReg) (v : Word) (s : State) :
    halted { s with dbg := writeFeatureReg r v s.dbg } = halted s :=
  halted_congr (by cases r <;> rfl)

theorem pmcrResets_dbg (v : Word) (s : State) : (pmcrResets v s).dbg = s.dbg := by rw [pmcrResets_eq]

theorem halted_extWrite (r : ExtReg) (v : Word) (s : State) : halted (extWrite r v s) = halted s := by
  have hfeature (c : Bool) : halted (if c then { s with dbg := writeFeatureReg r v s.dbg } else s) = halted s := by
    rw [apply_ite halted, halted_writeFeatureReg, ite_self]
  cases r with
  | edscr => exact halted_writeEdscr _ s
  | pmcr => exact halted_congr (by simp [extWrite, writeExternalPmcr, setReg, pmcrResets_dbg])
  | trcconfigr | trcacvr | pmevcntr | pmevtyper | pmccntr | pmcntenset | pmcntenclr | pmovsset | pmovsclr | errstatus => rfl
  | _ => exact hfeature _

theorem halted_writeFrameReg (r : FrameReg) (v : Word) (s : State) : halted (writeFrameReg r v s) = halted s := by
  cases r with
  | ext q => exact halted_extWrite q v s
  | timer n q => cases q <;> rfl
  | _ => rfl

theorem halted_writeLoc (x : Xlat) (b : Byte) (s : State) : halted (writeLoc x b s) = halted s := by
  unfold writeLoc
  split
  · unfold writeFrameByte
    split
    · rfl
    · rw [apply_ite halted, halted_writeFrameReg, ite_self]
  · split <;> rfl

theorem writeLocs_cons (x : Xlat) (xs : List Xlat) (b : Byte) (bs : List Byte) (s : State) :
    writeLocs (x :: xs) (b :: bs) s = writeLocs xs bs (writeLoc x b s) := rfl

theorem halted_writeLocs (xs : List Xlat) (bs : List Byte) (s : State) : halted (writeLocs xs bs s) = halted s := by
  induction xs generalizing bs s with
  | nil => rfl
  | cons x xs ih =>
    cases bs with
    | nil => rfl
    | cons b bs => rw [writeLocs_cons, ih, halted_writeLoc]

/-- The end of an instruction changes nothing that a store may. -/
theorem stored_advance (u v : State) : stored u (advance v) = stored u v := by simp [stored]

/-- An instruction that locates its bytes, loads or stores, and writes registers goes on to the next one. -/
theorem nextPc_accessed (hu : u = withChecks s u) (hv : v = { stored u v with x := v.x }) (hhalted : halted v = halted u) :
    NextPc s (advance v) := by
  have hstart : halted v = halted s := by
    rw [hhalted, hu]
    rfl
  refine nextPc_advance ?_ ?_ hstart ?_ <;> rw [hv, hu] <;> rfl

/-- What an instruction leaves that has stored, then written registers, and moves on. -/
theorem stored_completes {ds : List (BitVec 5)} (hu : u = withChecks s u) (hv : v = stored u v)
    (hhalted : halted v = halted u) (ht : t = { v with x := t.x }) (hframe : Frame ds false false v t) :
    NextPc s (advance t) ∧ Frame ds false false (stored u (advance t)) (advance t) ∧ stored u (advance t) = v := by
  have hsame : stored u (advance t) = v := by
    rw [stored_advance, ht]
    exact hv.symm
  refine ⟨nextPc_accessed hu ?_ ?_, ?_, hsame⟩
  · rw [ht, hv]
    rfl
  · rw [← hhalted]
    exact halted_congr (by rw [ht])
  · rw [hsame]
    exact frame_trans hframe (frame_advance ..)

end

/-! ### The bytes that are written -/

section
variable {x : Xlat} {xs : List Xlat} {bs : List Byte} {s t u : State}

/-- Bytes written to ordinary memory read back, where no two locations are the same byte. -/
theorem readByte_writeLocs_same (hordinary : ∀ x ∈ xs, ordinary x = true) (hnodup : (xs.map Xlat.key).Nodup)
    (hlength : bs.length = xs.length) (hs : Memory.wf s.mem = true) :
    xs.map (fun x => readByte x.key (writeLocs xs bs s)) = bs := by
  induction xs generalizing bs s with
  | nil => exact (List.eq_nil_of_length_eq_zero hlength).symm
  | cons x xs ih =>
    obtain ⟨hx, hxs⟩ := List.forall_mem_cons.mp hordinary
    obtain ⟨hkey, hkeys⟩ := List.nodup_cons.mp hnodup
    cases bs with
    | nil => cases hlength
    | cons b bs =>
      have hwf := writeLoc_wf x b s hs
      have hfirst : readByte x.key (writeLocs xs bs (writeLoc x b s)) = b := by
        rw [readByte_writeLocs_other _ _ _ _ (fun y hy h => hkey (List.mem_map.mpr ⟨y, hy, h.symm⟩)) hwf,
          writeLoc_ordinary hx, readByte_writeByte_same _ _ s hs]
      rw [writeLocs_cons, List.map_cons, hfirst, ih hxs hkeys (Nat.succ.inj hlength) hwf]

/-- Bytes written to Device memory are sent in order. -/
theorem writeLocs_device (h : ∀ x ∈ xs, deviceOnly x = true) (bs : List Byte) (s : State) : writeLocs xs bs s =
    { s with devLog := ((xs.zip bs).map fun p => (⟨true, p.1.key, p.2⟩ : DeviceAccess)).reverse ++ s.devLog } := by
  induction xs generalizing bs s with
  | nil => rfl
  | cons x xs ih =>
    obtain ⟨hx, hxs⟩ := List.forall_mem_cons.mp h
    cases bs with
    | nil => rfl
    | cons b bs =>
      rw [writeLocs_cons, ih hxs, writeLoc_deviceOnly hx]
      simp

theorem writeLoc_noFrame (h : x.frame = none) (b : Byte) (s : State) : writeLoc x b s =
    { s with mem := (writeLoc x b s).mem, stale := (writeLoc x b s).stale, devLog := (writeLoc x b s).devLog } := by
  unfold writeLoc
  rw [h]
  dsimp only
  split <;> rfl

/-- Outside the register frames a store changes memory, the staleness of code and the log of Device accesses. -/
theorem writeLocs_noFrame (h : ∀ x ∈ xs, x.frame = none) (bs : List Byte) (s : State) : writeLocs xs bs s =
    { s with mem := (writeLocs xs bs s).mem, stale := (writeLocs xs bs s).stale, devLog := (writeLocs xs bs s).devLog } := by
  induction xs generalizing bs s with
  | nil => rfl
  | cons x xs ih =>
    obtain ⟨hx, hxs⟩ := List.forall_mem_cons.mp h
    cases bs with
    | nil => rfl
    | cons b bs => rw [writeLocs_cons, ih hxs, writeLoc_noFrame hx]

/-- Writing located bytes is a write in the terms of Safety, whatever else differs in the state after it. -/
theorem wrote_writeLocs (hlength : bs.length = xs.length) (hu : Memory.wf u.mem = true)
    (ht : stored u t = writeLocs xs bs u) : Wrote xs bs u t := by
  have hmem : t.mem = (writeLocs xs bs u).mem := (congrArg State.mem ht :)
  have hlog : t.devLog = (writeLocs xs bs u).devLog := (congrArg State.devLog ht :)
  have hstale : t.stale = (writeLocs xs bs u).stale := (congrArg State.stale ht :)
  have hread (k : Nat) : readByte k t = readByte k (writeLocs xs bs u) := by rw [readByte, readByte, hmem]
  refine ⟨fun k hk => ?others, fun hordinary => ⟨?_, fun hnodup => ?normal⟩, fun hdevice => ?device, fun hframe => ?frames⟩
  case others =>
    exact (hread k).trans
      (readByte_writeLocs_other k xs bs u (fun x hx h => hk (List.mem_map.mpr ⟨x, hx, h.symm⟩)) hu)
  · rw [hlog, writeLocs_ordinary hordinary]
  case normal => simp only [hread, readByte_writeLocs_same hordinary hnodup hlength hu]
  case device =>
    rw [hmem, hstale, hlog, writeLocs_device hdevice]
    exact ⟨rfl, rfl, rfl⟩
  case frames =>
    rw [ht, hmem, hstale, hlog]
    exact writeLocs_noFrame hframe bs u

end

end Sys2Proof.Proofs
end

