-- ==== Sys2Proof/Proofs/SixtyFourBytes.lean ====
section
/-! LD64B, ST64B, ST64BV and ST64BV0: eight registers, 64 located bytes, and the abort of a cacheable type. -/

namespace Sys2Proof.Proofs

open Sys2Proof.Machine Sys2Proof.Safety Sys2Proof.Laws

/-! ### Eight registers -/

section
variable {rt : BitVec 5} {n k : Nat}

/-- The eight registers from an Xt up to X22 do not wrap round. -/
theorem nthReg_toNat (hrt : rt.toNat ≤ 22) (hn : n < 8) : (nthReg rt n).toNat = rt.toNat + n := by
  simp only [nthReg, BitVec.toNat_add, BitVec.toNat_ofNat]
  omega

theorem nthReg_ne_31 (hrt : rt.toNat ≤ 22) (hn : n < 8) : nthReg rt n ≠ 31 := by
  intro h
  have hnat := nthReg_toNat hrt hn
  rw [h, show (31 : BitVec 5).toNat = 31 from rfl] at hnat
  omega

theorem nthReg_inj (hrt : rt.toNat ≤ 22) (hn : n < 8) (hk : k < 8) (h : nthReg rt n = nthReg rt k) : n = k := by
  have hnat := congrArg BitVec.toNat h
  rw [nthReg_toNat hrt hn, nthReg_toNat hrt hk] at hnat
  omega

/-- Write the registers after Xt whose numbers are listed, each with its value. -/
def writeNths (rt : BitVec 5) (f : Nat → Word) (ns : List Nat) (s : State) : State :=
  ns.foldl (fun acc n => writeX (nthReg rt n) (f n) acc) s

/-- The value of the eight bytes of register number `n`. -/
def nthWord (big : Bool) (bs : List Byte) (n : Nat) : Word := ofBytes 64 (byteOrder big ((bs.drop (8 * n)).take 8))

theorem writeEight_eq_writeNths (rt : BitVec 5) (bs : List Byte) (big : Bool) (s : State) :
    writeEight rt bs big s = writeNths rt (nthWord big bs) (List.range 8) s := rfl

theorem writeNths_cons (rt : BitVec 5) (f : Nat → Word) (n : Nat) (ns : List Nat) (s : State) :
    writeNths rt f (n :: ns) s = writeNths rt f ns (writeX (nthReg rt n) (f n) s) := rfl

theorem writeX_eq (n : BitVec 5) (v : Word) (s : State) : writeX n v s = { s with x := (writeX n v s).x } := by
  unfold writeX
  split <;> rfl

theorem writeNths_eq (rt : BitVec 5) (f : Nat → Word) (ns : List Nat) (s : State) :
    writeNths rt f ns s = { s with x := (writeNths rt f ns s).x } := by
  induction ns generalizing s with
  | nil => rfl
  | cons n ns ih => rw [writeNths_cons, ih, writeX_eq]

theorem frame_writeNths {ds : List (BitVec 5)} {ns : List Nat} (h : ∀ n ∈ ns, nthReg rt n ∈ ds) (sp fl : Bool)
    (f : Nat → Word) (s : State) : Frame ds sp fl s (writeNths rt f ns s) := by
  induction ns generalizing s with
  | nil => exact frame_refl ..
  | cons n ns ih =>
    obtain ⟨hn, hns⟩ := List.forall_mem_cons.mp h
    exact frame_trans (frame_writeX hn ..) (ih hns _)

/-- Each of eight registers that are written holds its own value. -/
theorem readX_writeNths (hrt : rt.toNat ≤ 22) {ns : List Nat} (hns : ∀ n ∈ ns, n < 8) (hnodup : ns.Nodup)
    (hk : k ∈ ns) (f : Nat → Word) (s : State) : readX (nthReg rt k) (writeNths rt f ns s) = f k := by
  induction ns generalizing s with
  | nil => cases hk
  | cons n ns ih =>
    obtain ⟨hn, hlater⟩ := List.forall_mem_cons.mp hns
    obtain ⟨hfresh, hrest⟩ := List.nodup_cons.mp hnodup
    rw [writeNths_cons]
    rcases List.mem_cons.mp hk with rfl | hk
    · have hkept : Frame (ns.map (nthReg rt)) false false _ _ :=
        frame_writeNths (fun _ => List.mem_map_of_mem) _ _ f (writeX (nthReg rt k) (f k) s)
      have hapart : nthReg rt k ∉ ns.map (nthReg rt) := fun h => by
        obtain ⟨m, hm, hsame⟩ := List.mem_map.mp h
        exact hfresh (nthReg_inj hrt (hlater m hm) hn hsame ▸ hm)
      exact (hkept.regs _ hapart).trans (readX_writeX_same _ _ _ (nthReg_ne_31 hrt hn))
    · exact ih hlater hrest hk _

end

theorem byteOrder_length (big : Bool) (bs : List Byte) : (byteOrder big bs).length = bs.length := by
  cases big <;> simp [byteOrder]

theorem eightBytes_length (vs : List Word) (big : Bool) : (eightBytes vs big).length = 8 * vs.length := by
  simp [eightBytes, List.length_flatMap, byteOrder_length, bytesOf, Nat.mul_comm]

theorem readEight_length (rt : BitVec 5) (s : State) : (readEight rt s).length = 8 := by simp [readEight]

theorem accdataValues_length (vs : List Word) (acc : Word) : (accdataValues vs acc).length = vs.length := by
  cases vs <;> rfl

/-! ### The 64 locations -/

section
variable {d : AccDesc} {va : Word} {s u : State} {x : Xlat} {xs : List Xlat}

/-- The 64 locations are those of one single-copy atomic access. -/
theorem ls64Locate_ok (h : ls64Locate d va s = .ok xs u) :
    ∃ bad y, locateBy d 64 bad va s = .ok y u ∧ xs = (List.range 64).map y.plus := by
  unfold ls64Locate at h
  split at h
  · cases h
  · obtain ⟨y, v, hy, hend⟩ := loc_bind_ok h
    cases hend
    exact ⟨_, y, hy, rfl⟩

theorem ls64Locate_length (h : ls64Locate d va s = .ok xs u) : xs.length = 64 := by
  obtain ⟨bad, y, -, rfl⟩ := ls64Locate_ok h
  simp

theorem ls64Locate_state (h : ls64Locate d va s = .ok xs u) : u = withChecks s u := by
  obtain ⟨bad, y, hy, -⟩ := ls64Locate_ok h
  exact locateBy_ok hy

theorem ls64Locate_wf (h : ls64Locate d va s = .ok xs u) (hs : Memory.wf s.mem = true) : Memory.wf u.mem = true := by
  obtain ⟨bad, y, hy, -⟩ := ls64Locate_ok h
  rw [(locateBy_found hy).2]
  exact updateDescriptors_wf _ _ hs

/-- A location that is found and faults by its type faults, where the fault need not be read again. -/
theorem locateBy_bad {n : Nat} {bad : Xlat → State → Option AbortKind} {k : AbortKind}
    (hlookup : lookup d va s = .ok x u) (hbad : bad x u = some k) (hreread : rereads k d va s = false) :
    locateBy d n bad va s = .fault k va (faultUpdates x.updates u) := by
  have hfind : find d va s = .ok x u := (settled_ok.mp hlookup).1
  simp [locateBy, attempt, hfind, Loc.bind, hbad, hreread]

/-- A cacheable type, of the whole translation or of an enabled stage, is reported for some stage. -/
theorem ls64BadStage_cacheable
    (h : u.cfg.ls64PerStage = false ∧ ls64Type x.type = false ∨
      u.cfg.ls64PerStage = true ∧ (stage1On u = true ∧ ls64Type x.s1Type = false ∨
        stage2On u = true ∧ ls64Type x.s2Type = false)) : ∃ stage2, ls64BadStage x u = some stage2 := by
  rcases h with ⟨hwhole, htype⟩ | ⟨hstages, ⟨hon, htype⟩ | ⟨hon, htype⟩⟩
  · exact ⟨stage2On u, by simp [ls64BadStage, hwhole, htype]⟩
  · exact ⟨false, by simp [ls64BadStage, hstages, hon, htype]⟩
  · rw [ls64BadStage, if_pos hstages, if_pos hon, htype]
    split
    · exact ⟨false, rfl⟩
    · exact ⟨true, rfl⟩

/-- A fault for an unsupported atomic access, other than a fetch, is taken as a Data Abort. -/
theorem dataAbort_unsupportedAtomic (hd : d.access ≠ .fetch) (stage2 : Bool) (ipa : BitVec 52) (va : Word) (s : State) :
    DataAbort 0b110101 va s
      ((abort (α := List Xlat) d (.unsupportedAtomic stage2 ipa) va s).andThen fun _ t => .next t) := by
  refine ⟨_, rfl, rfl, ?_, field_abortIss _ _ _ _, rfl, rfl⟩
  have hgpc : isGpc (.unsupportedAtomic stage2 ipa) = false := rfl
  simp only [abortEc, hgpc, Bool.false_and, Bool.false_eq_true, if_false, beq_iff_eq, hd]
  split <;> simp

end

/-! ### The instructions -/

section
variable {k : Ls64} {rs rn rt : BitVec 5} {base : Word} {s u : State} {xs : List Xlat}

/-- An even Xt up to X22 and no trap: the instruction has its effect. -/
theorem ls64Gate_open {r : Result} (heven : bitAt rt 0 = false) (hrt : rt.toNat ≤ 22) (htrap : ls64Trap k s = none) :
    ls64Gate k rt s r = r := by
  simp [ls64Gate, heven, Nat.not_lt.mpr hrt, ls64Exception, htrap]

theorem storeEight_located {vs : List Word} {cont : List Xlat → State → State → Result}
    (hbase : baseReg rn s = .ok base s) (hloc : ls64Locate (dataDesc true rn) base s = .ok xs u) :
    storeEight vs rn s cont = cont xs u (writeLocs xs (eightBytes vs (bigEndian s)) u) := by
  rw [storeEight, hbase, andThen_value, hloc]
  rfl

/-- What a load of eight registers from 64 located bytes leaves. -/
theorem ld64b_located (heven : bitAt rt 0 = false) (hrt : rt.toNat ≤ 22) (hbase : baseReg rn s = .ok base s)
    (htrap : ls64Trap .plain s = none) (hloc : ls64Locate (dataDesc false rn) base s = .ok xs u) :
    ∃ t bs, exec (.ld64b rn rt) s = .next t ∧ NextPc s t ∧
      Frame ((List.range 8).map (nthReg rt)) false false (loaded u t) t ∧ DidRead xs bs u t ∧
      ∀ k < 8, readX (nthReg rt k) t = ofBytes 64 (byteOrder (bigEndian s) ((bs.drop (8 * k)).take 8)) := by
  have hread := readLocs_state xs 0 u
  have hhalted := halted_readLocs xs 0 u
  have hdid := didRead_readLocs xs u
  have hexec : exec (.ld64b rn rt) s =
      .next (advance (writeEight rt (readLocs xs 0 u).1 (bigEndian s) (readLocs xs 0 u).2)) := by
    rw [show exec (.ld64b rn rt) s = execLd64b rn rt s from rfl, execLd64b, ls64Gate_open heven hrt htrap, hbase,
      andThen_value, hloc]
    rfl
  generalize (readLocs xs 0 u).1 = bs, (readLocs xs 0 u).2 = r at hread hhalted hdid hexec
  generalize ht : writeEight rt bs (bigEndian s) r = t at hexec
  rw [writeEight_eq_writeNths] at ht
  have hregs : t = { r with x := t.x } := ht ▸ writeNths_eq rt _ _ r
  have hlog : (advance t).devLog = r.devLog := by rw [advance_devLog, hregs]
  have hdbg : (advance t).dbg = r.dbg := by rw [advance_dbg, hregs]
  refine ⟨advance t, bs, hexec, nextPc_accessed (ls64Locate_state hloc) ?_ ?_, ?_, hdid _ hlog hdbg, fun k hk => ?_⟩
  · rw [hregs, hread]
    rfl
  · exact (halted_congr (by rw [hregs])).trans hhalted
  · rw [loaded, hlog, hdbg, ← loaded, ← hread, ← ht]
    exact frame_trans (frame_writeNths (fun _ => List.mem_map_of_mem) ..) (frame_advance ..)
  · rw [readX_advance, ← ht,
      readX_writeNths hrt (fun n => List.mem_range.mp) List.nodup_range (List.mem_range.mpr hk), nthWord]

/-- A cacheable type gives the load its Data Abort. -/
theorem ld64b_cacheable {x : Xlat} (heven : bitAt rt 0 = false) (hrt : rt.toNat ≤ 22) (hbase : baseReg rn s = .ok base s)
    (htrap : ls64Trap .plain s = none) (haligned : unaligned base 64 = false)
    (hlookup : lookup (dataDesc false rn) base s = .ok x u)
    (hreread : ∀ k, rereads k (dataDesc false rn) base s = false)
    (hbad : ∃ stage2, ls64BadStage x u = some stage2) :
    ∃ v, v.pc = s.pc ∧ DataAbort 0b110101 base v (exec (.ld64b rn rt) s) := by
  obtain ⟨stage2, hbad⟩ := hbad
  have hlocate : ls64Locate (dataDesc false rn) base s =
      .fault (.unsupportedAtomic stage2 x.ipa) base (faultUpdates x.updates u) := by
    rw [ls64Locate, haligned, if_neg Bool.false_ne_true, locateBy_bad hlookup (by rw [hbad]; rfl) (hreread _)]
    rfl
  have hexec : exec (.ld64b rn rt) s = (abort (α := List Xlat) (dataDesc false rn) (.unsupportedAtomic stage2 x.ipa) base
      (faultUpdates x.updates u)).andThen fun _ t => .next t := by
    rw [show exec (.ld64b rn rt) s = execLd64b rn rt s from rfl, execLd64b, ls64Gate_open heven hrt htrap, hbase,
      andThen_value, hlocate]
    rfl
  have hpc : u.pc = s.pc := by rw [findWith_ok (settled_ok.mp hlookup).1]
  exact ⟨_, (faultUpdates_pc ..).trans hpc, hexec ▸ dataAbort_unsupportedAtomic (d := dataDesc false rn) nofun _ _ _ _⟩

theorem st64b_located (heven : bitAt rt 0 = false) (hrt : rt.toNat ≤ 22) (hbase : baseReg rn s = .ok base s)
    (hs : Canonical s) (htrap : ls64Trap .plain s = none) (hloc : ls64Locate (dataDesc true rn) base s = .ok xs u) :
    ∃ t, exec (.st64b rn rt) s = .next t ∧ NextPc s t ∧ Frame [] false false (stored u t) t ∧
      Wrote xs (eightBytes (readEight rt s) (bigEndian s)) u t := by
  generalize hbs : eightBytes (readEight rt s) (bigEndian s) = bs
  have hlength : bs.length = xs.length := by
    rw [← hbs, eightBytes_length, readEight_length, ls64Locate_length hloc]
  have hexec : exec (.st64b rn rt) s = .next (advance (writeLocs xs bs u)) := by
    rw [show exec (.st64b rn rt) s = execSt64b rn rt s from rfl, execSt64b, ls64Gate_open heven hrt htrap,
      storeEight_located hbase hloc, hbs]
  obtain ⟨hpc, hframe, hstored⟩ := stored_completes (ls64Locate_state hloc) (writeLocs_stored xs bs u)
    (halted_writeLocs xs bs u) rfl (frame_refl [] ..)
  exact ⟨_, hexec, hpc, hframe, wrote_writeLocs hlength (ls64Locate_wf hloc hs.1) hstored⟩

/-- A store with a status writes it, and its bytes or none. -/
theorem storeStatus_located {vs : List Word} (hvs : vs.length = 8) (hbase : baseReg rn s = .ok base s) (hs : Canonical s)
    (hloc : ls64Locate (dataDesc true rn) base s = .ok xs u) :
    ∃ t status, storeStatus vs rs rn s = .next t ∧ NextPc s t ∧ Holds rs status t ∧
      Frame [rs] false false (stored u t) t ∧
      (Wrote xs (eightBytes vs (bigEndian s)) u t ∨ stored u t = u) := by
  generalize hbs : eightBytes vs (bigEndian s) = bs
  have hlength : bs.length = xs.length := by rw [← hbs, eightBytes_length, hvs, ls64Locate_length hloc]
  generalize hstatus : Config.freeWord .st64bStatus s.free = status
  obtain ⟨v, hexec, hv, hhalted, houtcome⟩ : ∃ v, storeStatus vs rs rn s = .next (advance (writeX rs status v)) ∧
      v = stored u v ∧ halted v = halted u ∧ (v = writeLocs xs bs u ∨ v = u) := by
    rw [storeStatus, storeEight_located hbase hloc, hbs, hstatus]
    split
    · exact ⟨_, rfl, writeLocs_stored xs bs u, halted_writeLocs xs bs u, .inl rfl⟩
    · exact ⟨_, rfl, rfl, rfl, .inr rfl⟩
  obtain ⟨hpc, hframe, hstored⟩ := stored_completes (ls64Locate_state hloc) hv hhalted (writeX_eq rs status v)
    (frame_writeX (List.mem_singleton.mpr rfl) ..)
  refine ⟨_, status, hexec, hpc, ?_, hframe, houtcome.imp (fun h => ?_) fun h => hstored.trans h⟩
  · rw [Holds, readX_advance]
    exact holds_writeX ..
  · exact wrote_writeLocs hlength (ls64Locate_wf hloc hs.1) (hstored.trans h)

end

/-- Settles O45: the load is `ld64b_located` and `ld64b_cacheable`, the stores are `st64b_located` and
`storeStatus_located`. -/
theorem sixtyFourByteAccesses : Obligations.SixtyFourByteAccesses := by
  unfold Obligations.SixtyFourByteAccesses
  intro s u rs rn rt base xs hs heven hrt hbase
  refine ⟨fun htrap => ⟨ld64b_located heven hrt hbase htrap, st64b_located heven hrt hbase hs htrap,
    fun x haligned hlookup hreread htype => ?cacheable⟩, fun i k vs hi htrap hloc => ?status⟩
  case cacheable =>
    exact ld64b_cacheable heven hrt hbase htrap haligned hlookup hreread (ls64BadStage_cacheable htype)
  case status =>
    obtain ⟨hvs, hexec⟩ : vs.length = 8 ∧ exec i s = ls64Gate k rt s (storeStatus vs rs rn s) := by
      rcases hi with ⟨rfl, rfl, rfl⟩ | ⟨rfl, rfl, rfl⟩
      · exact ⟨readEight_length .., rfl⟩
      · exact ⟨(accdataValues_length ..).trans (readEight_length ..), rfl⟩
    rw [hexec, ls64Gate_open heven hrt htrap]
    exact storeStatus_located hvs hbase hs hloc

end Sys2Proof.Proofs
end

