-- ==== Sys2Proof/Proofs/Vectors.lean ====
section
/-! MOVPRFX and FMMLA, and what every instruction shares whose result is one vector register: the register, the flags of FPSR, the
frame. -/

namespace Sys2Proof.Proofs

open Sys2Proof.Machine Sys2Proof.Safety Sys2Proof.Laws

/-! ### A write of a vector register -/

section
variable {i : Instr} {rd : BitVec 5} {v : VReg} {s t : State}

/-- A write puts the value below the vector length; above it the old bits stay or are zero, by a free choice. -/
theorem readZ_writeZ_same (n : BitVec 5) (v : VReg) (s : State) :
    readZ n (writeZ n v s) = readZ n s &&& ~~~(maskOf 2048 0 (vecLen s)) ||| v &&& maskOf 2048 0 (vecLen s) ∨
      readZ n (writeZ n v s) = v &&& maskOf 2048 0 (vecLen s) := by
  have hread : readZ n (writeZ n v s) = (v &&& maskOf 2048 0 (vecLen s)) |||
      if Config.freeBool (.unknown 7) s.free then 0 else readZ n s &&& ~~~(maskOf 2048 0 (vecLen s)) :=
    getD_set_same _ _ _ _ n.isLt
  rw [hread]
  split
  · exact .inr BitVec.or_zero
  · exact .inl (BitVec.or_comm ..)

theorem readZ_writeZ_other {n m : BitVec 5} (h : m ≠ n) (v : VReg) (s : State) : readZ m (writeZ n v s) = readZ m s :=
  getD_set_other _ _ _ _ _ fun e => h (BitVec.eq_of_toNat_eq e.symm)

theorem vecWritten_writeZ (rd : BitVec 5) (v : VReg) (s : State) : VecWritten rd v s (writeZ rd v s) := by
  have hothers (n : BitVec 5) (hn : n ≠ rd) : readZ n (writeZ rd v s) = readZ n s := readZ_writeZ_other hn v s
  rcases readZ_writeZ_same rd v s with hkept | hzero
  · exact ⟨by rw [hkept, merge_and], .inr (by rw [hkept, merge_and_not]), hothers⟩
  · exact ⟨by rw [hzero, BitVec.and_assoc, BitVec.and_self], .inl (by simp [hzero, BitVec.and_assoc]), hothers⟩

theorem vecWritten_of_z (hz : t.z = (writeZ rd v s).z) : VecWritten rd v s t := by
  have hread (n : BitVec 5) : readZ n t = readZ n (writeZ rd v s) := congrArg (·.getD n.toNat 0) hz
  obtain ⟨hlow, hhigh, hothers⟩ := vecWritten_writeZ rd v s
  exact ⟨by rwa [hread], by rwa [hread], fun n hn => (hread n).trans (hothers n hn)⟩

/-! ### FPSR -/

theorem and_not_or_self {w : Nat} (a b : BitVec w) : a &&& ~~~(a ||| b) = 0 := by
  ext j
  simp
  grind

/-- A result that sets bits of FPSR clears none of it and leaves the other System registers. -/
theorem sreg_setBits {r : SysReg} {bits : Word} (hsys : t.sys = (setReg r (sreg s r ||| bits) s).sys) :
    sreg s r &&& ~~~(sreg t r) = 0 ∧ ∀ q, q ≠ r → sreg t q = sreg s q := by
  have hread (q : SysReg) : sreg t q = sreg (setReg r (sreg s r ||| bits) s) q := congrArg (·.getD (sysIdx q) 0) hsys
  refine ⟨?_, fun q hq => ?_⟩
  · rw [hread, sreg_setReg_same _ _ _ (sysIdx_lt r), and_not_or_self]
  · rw [hread, sreg_setReg_other _ _ _ _ fun h => hq (sysIdx_inj h).symm]

/-- What an instruction leaves that writes one vector register, sets bits of FPSR, and moves on. -/
theorem vectorResult {bits : Word}
    (hexec : exec i s = .next (advance (setReg .FPSR (sreg s .FPSR ||| bits) (writeZ rd v s)))) :
    ∃ t, exec i s = .next t ∧ NextPc s t ∧ Frame [] false false { s with z := t.z, sys := t.sys } t ∧
      VecWritten rd v s t ∧ sreg s .FPSR &&& ~~~(sreg t .FPSR) = 0 ∧ ∀ q, q ≠ .FPSR → sreg t q = sreg s q := by
  obtain ⟨hnext, hframe, hpc⟩ := completes_made
    (u := { s with
      z := (advance (setReg .FPSR (sreg s .FPSR ||| bits) (writeZ rd v s))).z
      sys := (advance (setReg .FPSR (sreg s .FPSR ||| bits) (writeZ rd v s))).sys })
    hexec (by rw [advance_z, advance_sys]; rfl) rfl rfl rfl rfl
  exact ⟨_, hnext, hpc, hframe, vecWritten_of_z (advance_z _), sreg_setBits (advance_sys _)⟩

end

/-! ### MOVPRFX -/

section
variable {i : Instr} {rd : BitVec 5} {v : VReg} {s : State} {p : Option Prefix}

/-- The end of an instruction does not read what MOVPRFX recorded. -/
theorem advance_withMovprfx (p : Option Prefix) (s : State) :
    { advance s with movprfx := p } = advance { s with movprfx := p } := by
  unfold advance
  rw [show halted { s with movprfx := p } = halted s from rfl]
  split
  · rfl
  · split <;> rfl

/-- What an instruction leaves that writes one vector register, records a MOVPRFX, and moves on. -/
theorem movprfxResult (hexec : exec i s = .next { advance (writeZ rd v s) with movprfx := p }) :
    ∃ t, exec i s = .next t ∧ NextPc s t ∧ Frame [] false false { s with z := t.z, movprfx := p } t ∧
      VecWritten rd v s t := by
  rw [advance_withMovprfx] at hexec
  obtain ⟨hnext, hframe, hpc⟩ := completes_made
    (u := { s with z := (advance { writeZ rd v s with movprfx := p }).z, movprfx := p })
    hexec (by rw [advance_z]; rfl) rfl rfl rfl rfl
  exact ⟨_, hnext, hpc, hframe, vecWritten_of_z (advance_z _)⟩

end

/-! ### FMMLA -/

section
variable {zm zn zd : BitVec 5} {s : State} {long : Bool}

/-- Enables that raise nothing, also in Debug state, where the UNDEFINED of a trap to EL3 may come first. -/
theorem vecException_none {us : List VecUnit} (h : vecTrap us s = none) : vecException us s = none := by
  have hgate (k : Result) : (vecException us s).getD k = k := vecGate_none h
  cases hexc : vecException us s with
  | none => rfl
  | some r =>
    rw [hexc] at hgate
    exact nomatch (hgate (.next s)).symm.trans (hgate (.refused .unpredictable))

/-- An SVE instruction that is not legal in Streaming mode runs outside it, where the vectors are as long as it needs. -/
theorem sveException_none (hsve : has .SVE s = true) (hsm : s.ps.sm = false) (htrap : vecTrap (sveUnits s) s = none)
    (hlong : long = true → has .F64MM s = true ∧ 256 ≤ s.cfg.maxVL ∧ 256 ≤ vl s) : sveException long s = none := by
  cases long with
  | false => simp [sveException, hsve, vecException_none htrap, hsm]
  | true =>
    obtain ⟨hf64, hmax, hvl⟩ := hlong rfl
    simp [sveException, hsve, hf64, Nat.not_lt.mpr hmax, vecException_none htrap, hsm, Nat.not_lt.mpr hvl]

/-- One that needs 256 bits is UNDEFINED where no vector length reaches them, whatever the enables say. -/
theorem sveException_shortMax (hmax : s.cfg.maxVL < 256) : sveException true s = some (undefined s) := by
  simp [sveException, hmax]

/-- Where only the Effective length does not reach them, the enables come first. -/
theorem sveException_shortVl (hsm : s.ps.sm = false) (htrap : vecTrap (sveUnits s) s = none) (hvl : vl s < 256) :
    sveException true s = some (undefined s) := by
  rw [sveException, vecException_none htrap]
  split
  · rfl
  · simp [hsm, hvl]

/-- The tail of FMMLA is above the whole segments. -/
theorem or_segmentTail_and (v : VReg) (s : State) :
    (v ||| segmentTail s) &&& maskOf 2048 0 (256 * (vl s / 256)) = v &&& maskOf 2048 0 (256 * (vl s / 256)) := by
  apply BitVec.eq_of_getLsbD_eq
  intro j hj
  simp only [segmentTail, BitVec.getLsbD_and, BitVec.getLsbD_or, getLsbD_maskOf, hj]
  grind

theorem exec_fmmlaS (h : sveException false s = none) :
    exec (.fmmlaS zm zn zd) s = .next (advance (fmmlaFpsr (writeZ zd
      (fmmla (Config.fmmlaS (ireg s .FPCR)) (vl s / 128) (readZ zd s) (readZ zn s) (readZ zm s)) s))) := by
  rw [show exec (.fmmlaS zm zn zd) s = execFmmlaS zm zn zd s from rfl, execFmmlaS, h]
  rfl

theorem exec_fmmlaD (h : sveException true s = none) :
    exec (.fmmlaD zm zn zd) s = .next (advance (fmmlaFpsr (writeZ zd
      (fmmla (Config.fmmlaD (ireg s .FPCR)) (vl s / 256) (readZ zd s) (readZ zn s) (readZ zm s) ||| segmentTail s) s))) := by
  rw [show exec (.fmmlaD zm zn zd) s = execFmmlaD zm zn zd s from rfl, execFmmlaD, h]
  rfl

theorem fmmlaD_undefined (h : sveException true s = some (undefined s)) : exec (.fmmlaD zm zn zd) s = undefined s := by
  rw [show exec (.fmmlaD zm zn zd) s = execFmmlaD zm zn zd s from rfl, execFmmlaD, h]
  rfl

end

/-- Settles O54: MOVPRFX by `movprfxResult`, FMMLA by `vectorResult` where `sveException` raises nothing. -/
theorem sveInstructions : Obligations.SveInstructions := by
  unfold Obligations.SveInstructions
  intro s size m pg zm zn zd
  refine ⟨fun hexists htrap => ⟨movprfxResult ?plain, movprfxResult ?predicated⟩,
    fun hsve hsm htrap => ⟨?single, fun hf64 hmax hvl => ?double, fun hvl => ?shortVl⟩, fun hmax => ?shortMax⟩
  case plain =>
    rw [show exec (.movprfx zn zd) s = execMovprfx zn zd s from rfl, execMovprfx, hexists, vecGate_none htrap]
    rfl
  case predicated =>
    rw [show exec (.movprfxPred size m pg zn zd) s = execMovprfxPred size m pg zn zd s from rfl, execMovprfxPred, hexists,
      vecGate_none htrap]
    rfl
  case single => exact vectorResult (exec_fmmlaS (sveException_none hsve hsm htrap (fun h => nomatch h)))
  case double =>
    obtain ⟨t, hexec, hpc, hframe, hz, hfpsr, hothers⟩ :=
      vectorResult (exec_fmmlaD (zm := zm) (zn := zn) (zd := zd)
        (sveException_none hsve hsm htrap fun _ => ⟨hf64, hmax, hvl⟩))
    exact ⟨t, _, hexec, hpc, hframe, hz, or_segmentTail_and _ s, hfpsr, hothers⟩
  case shortVl => exact fmmlaD_undefined (sveException_shortVl hsm htrap hvl)
  case shortMax => exact fmmlaD_undefined (sveException_shortMax hmax)

end Sys2Proof.Proofs
end

