-- ==== Sys2Proof/Proofs/FpMinMax.lean ====
section
/-! FMAX, FMIN, FMAXNM and FMINNM: the result of the scalar instructions, and FMAX and FMIN of zeros and NaNs. -/

namespace Sys2Proof.Proofs

open Sys2Proof.Machine Sys2Proof.Safety Sys2Proof.Laws

/-! ### The scalar instructions -/

section
variable {w : Nat} {i : Instr} {op : FpOp} {rm rn rd : BitVec 5} {s : State} {f : BitVec w → BitVec w → BitVec w}
  {flushes : Bool}

/-- `r` is the result `x`, or, where results are flushed, the zero of its sign that a denormal one may count as where FPCR.FZ,
bit [24], is 1. -/
def MayFlush (flushes : Bool) (s : State) (x r : BitVec w) : Prop :=
  r = x ∨ flushes = true ∧ bitAt (ireg s .FPCR) 24 = true ∧ isDenormal x = true ∧ r = signedZero x

/-- FPCR.FZ16 is the control of half precision alone. -/
theorem flushOn_fz (hw : w ≠ 16) (c : Word) : flushOn w c = bitAt c 24 := by
  rw [flushOn, if_neg hw]

theorem fpSource_flushInput (hw : w ≠ 16) (v : VReg) (s : State) :
    FpSource v (flushInput (ireg s .FPCR) (v.setWidth w) s) s := by
  rw [flushInput, flushOn_fz hw]
  split
  · rename_i h
    rw [Bool.and_eq_true, Bool.and_eq_true] at h
    obtain ⟨⟨hfpcr, hdenormal⟩, -⟩ := h
    exact .inr ⟨hfpcr, hdenormal, rfl⟩
  · exact .inl rfl

theorem mayFlush_flushOutput (hw : w ≠ 16) (x : BitVec w) (s : State) :
    MayFlush true s x (flushOutput (ireg s .FPCR) x s) := by
  rw [flushOutput, flushOn_fz hw]
  split
  · rename_i h
    rw [Bool.and_eq_true, Bool.and_eq_true] at h
    obtain ⟨⟨hfz, hdenormal⟩, -⟩ := h
    exact .inr ⟨rfl, hfz, hdenormal, rfl⟩
  · exact .inl rfl

/-- The flags of an operation are bits set in FPSR. -/
theorem fpFlags_writeZ (a b : BitVec w) (rd : BitVec 5) (v : VReg) (s : State) :
    ∃ bits, fpFlags a b (writeZ rd v s) = setReg .FPSR (sreg s .FPSR ||| bits) (writeZ rd v s) :=
  ⟨_, congrArg (setReg .FPSR · (writeZ rd v s)) (BitVec.or_assoc ..)⟩

/-- A scalar instruction of two sources whose value is `f` of the inputs, flushed or not. -/
theorem fpScalar_written (hw : w ≠ 16) (hexec : exec i s = fpScalar w op rm rn rd s) (htrap : vecTrap [.fp] s = none)
    (hvalue : ∀ a b : BitVec w, MayFlush flushes s (f (flushInput (ireg s .FPCR) a s) (flushInput (ireg s .FPCR) b s))
      (fpValue op (ireg s .FPCR) a b s)) :
    ∃ t, exec i s = .next t ∧ FpWritten rn rm rd f flushes s t := by
  rw [fpScalar, vecGate_none htrap, fpScalarEffect] at hexec
  obtain ⟨bits, hflags⟩ := fpFlags_writeZ ((readZ rn s).setWidth w) ((readZ rm s).setWidth w) rd
    ((fpValue op (ireg s .FPCR) ((readZ rn s).setWidth w) ((readZ rm s).setWidth w) s).setWidth 2048) s
  rw [hflags] at hexec
  obtain ⟨t, hnext, hpc, hframe, hz, hfpsr, hothers⟩ := vectorResult hexec
  exact ⟨t, hnext, hpc, hframe, ⟨_, _, _, fpSource_flushInput hw _ s, fpSource_flushInput hw _ s, hvalue _ _, hz⟩,
    hfpsr, hothers⟩

end

/-- Settles O55: each row is `fpScalar_written`; FMAX and FMIN do not flush their result, FMAXNM and FMINNM may. -/
theorem minimumAndMaximum : Obligations.MinimumAndMaximum := by
  unfold Obligations.MinimumAndMaximum
  rintro s rm rn rd _ htrap rfl
  have h32 : 32 ≠ 16 := by decide
  have h64 : 64 ≠ 16 := by decide
  exact ⟨fpScalar_written h32 rfl htrap fun _ _ => .inl rfl, fpScalar_written h64 rfl htrap fun _ _ => .inl rfl,
    fpScalar_written h32 rfl htrap fun _ _ => .inl rfl, fpScalar_written h64 rfl htrap fun _ _ => .inl rfl,
    fpScalar_written h32 rfl htrap fun _ _ => mayFlush_flushOutput h32 _ s,
    fpScalar_written h64 rfl htrap fun _ _ => mayFlush_flushOutput h64 _ s,
    fpScalar_written h32 rfl htrap fun _ _ => mayFlush_flushOutput h32 _ s,
    fpScalar_written h64 rfl htrap fun _ _ => mayFlush_flushOutput h64 _ s⟩

/-! ### Zeros and NaNs -/

section
variable {w : Nat} {largest dn : Bool} {a b x z : BitVec w}

/-- Negative zero, whose key is -1, is below positive zero. -/
theorem fpMinMax_zeros (hnan : isNaN z = false) (hkey : orderKey z = -1) :
    fpMinMax largest false dn z 0 = (if largest then 0 else z) ∧
      fpMinMax largest false dn 0 z = (if largest then 0 else z) := by
  have hnan0 : isNaN 0#w = false := by simp [isNaN, magnitude]
  have hkey0 : orderKey 0#w = 0 := by simp [orderKey, magnitude]
  cases largest <;> simp [fpMinMax, hnan, hnan0, orderedPick, hkey, hkey0]

/-- With AH 0 a NaN input gives the NaN result. -/
theorem fpMinMax_nan (h : isNaN a = true ∨ isNaN b = true) :
    fpMinMax largest false dn a b = nanResult false dn a b := by
  rw [← Bool.or_eq_true] at h
  simp [fpMinMax, h]

/-- With AH 1 it gives the second input. -/
theorem fpMinMax_ah_nan (h : isNaN a = true ∨ isNaN b = true) : fpMinMax largest true dn a b = b := by
  rw [← Bool.or_eq_true] at h
  simp [fpMinMax, h]

/-- With AH 1 two zeros give the second. -/
theorem fpMinMax_ah_zeros (ha : isZeroFp a = true) (hb : isZeroFp b = true) : fpMinMax largest true dn a b = b := by
  simp [fpMinMax, ha, hb]

/-- The top fraction bit stands below the sign: setting it leaves a NaN a NaN, and makes it quiet. -/
theorem isQuiet_quieted (hfrac : fracBits w < w) (hpos : 0 < fracBits w) (h : isNaN x = true) :
    isQuiet (quieted x) = true := by
  have hmagnitude : magnitude x ≤ magnitude (quieted x) := by
    simp only [quieted, setBit, if_true, magnitude, BitVec.toNat_or, Nat.or_mod_two_pow]
    exact Nat.left_le_or
  have hnan : isNaN (quieted x) = true := decide_eq_true (Nat.lt_of_lt_of_le (of_decide_eq_true h) hmagnitude)
  have hbit : bitAt (quieted x) (fracBits w - 1) = true := by
    simp [quieted, setBit, bitAt, show fracBits w - 1 < w by omega]
  rw [isQuiet, hnan, hbit, Bool.and_self]

/-- Whichever NaN is chosen, it is quieted. -/
theorem isQuiet_chosenNaN (hfrac : fracBits w < w) (hpos : 0 < fracBits w) (h : isNaN a = true ∨ isNaN b = true) :
    isQuiet (chosenNaN a b) = true := by
  have hquiet {x : BitVec w} : isNaN x = true → isQuiet (quieted x) = true := isQuiet_quieted hfrac hpos
  have hsignaling {x : BitVec w} (hx : isSignaling x = true) : isNaN x = true := (Bool.and_eq_true_iff.mp hx).1
  unfold chosenNaN
  split
  · exact hquiet (hsignaling ‹_›)
  · split
    · exact hquiet (hsignaling ‹_›)
    · split
      · exact hquiet ‹_›
      · exact hquiet (h.resolve_left ‹_›)

/-- FMAX and FMIN in a format with negative zero `z` and Default NaN `x`. -/
theorem fpMinMax_zerosAndNaNs (hfrac : fracBits w < w) (hpos : 0 < fracBits w) (hnan : isNaN z = false)
    (hkey : orderKey z = -1) (hdefault : defaultNaN w false = x) (largest dn : Bool) (a b : BitVec w) :
    fpMinMax largest false dn z 0 = (if largest then 0 else z) ∧
    fpMinMax largest false dn 0 z = (if largest then 0 else z) ∧
    (isNaN a = true ∨ isNaN b = true → isQuiet (fpMinMax largest false false a b) = true ∧
      fpMinMax largest false true a b = x ∧ fpMinMax largest true dn a b = b) ∧
    (isZeroFp a = true → isZeroFp b = true → fpMinMax largest true dn a b = b) := by
  obtain ⟨hleft, hright⟩ := fpMinMax_zeros (largest := largest) (dn := dn) hnan hkey
  refine ⟨hleft, hright, fun h => ⟨?_, ?_, fpMinMax_ah_nan h⟩, fpMinMax_ah_zeros⟩
  · rw [fpMinMax_nan h]
    exact isQuiet_chosenNaN hfrac hpos h
  · rw [fpMinMax_nan h]
    exact hdefault

end

/-- Settles O56: `fpMinMax_zerosAndNaNs` in the two formats. -/
theorem minMaxOfZerosAndNaNs : Obligations.MinMaxOfZerosAndNaNs := by
  unfold Obligations.MinMaxOfZerosAndNaNs
  exact ⟨fpMinMax_zerosAndNaNs (by decide) (by decide) (by decide) (by decide) (by decide),
    fpMinMax_zerosAndNaNs (by decide) (by decide) (by decide) (by decide) (by decide)⟩

end Sys2Proof.Proofs
end

