-- ==== Sys2Proof/Proofs/AArch32.lean ====
section
/-! The A32 and T32 instructions: VMOVL and the elements it makes, MRC of DBGDSCRint, MCR to PAR. -/

namespace Sys2Proof.Proofs

open Sys2Proof.Machine Sys2Proof.Safety Sys2Proof.Laws

/-! ### A register put together from elements of one size -/

section
variable {n w e k : Nat}

/-- An element put at its place is found there, and at no other element's place. -/
theorem field_placed (y : BitVec n) (d : Nat) (h : n * (e + 1) ≤ w) :
    field (y.setWidth w <<< (n * d)) (n * e) n = if e = d then y else 0 := by
  rw [Nat.mul_succ] at h
  ext j hj
  simp only [field, BitVec.getElem_extractLsb', BitVec.getLsbD_shiftLeft, BitVec.getLsbD_setWidth]
  rcases Nat.lt_trichotomy e d with hlt | rfl | hgt
  · have hbelow : n * (e + 1) ≤ n * d := Nat.mul_le_mul_left n hlt
    rw [Nat.mul_succ] at hbelow
    simp [hlt.ne, show n * e + j < n * d by omega]
  · simp [show n * e + j < w by omega, show j < w by omega, BitVec.getLsbD_eq_getElem hj]
  · have habove : n * (d + 1) ≤ n * e := Nat.mul_le_mul_left n hgt
    rw [Nat.mul_succ] at habove
    simp [hgt.ne', BitVec.getLsbD_of_ge y _ (show n ≤ n * e + j - n * d by omega)]

/-- Of the first `k` elements put together each stands at its place. -/
theorem field_elements (y : Nat → BitVec n) (h : n * (e + 1) ≤ w) :
    field ((List.range k).foldl (fun r d => r ||| (y d).setWidth w <<< (n * d)) 0) (n * e) n =
      if e < k then y e else 0 := by
  induction k with
  | zero => exact BitVec.extractLsb'_zero
  | succ k ih =>
    rw [List.range_succ, List.foldl_append, List.foldl_cons, List.foldl_nil, field_or, ih, field_placed _ _ h]
    rcases Nat.lt_trichotomy e k with hlt | rfl | hgt
    · simp [hlt, hlt.ne, Nat.lt_succ_of_lt hlt]
    · simp
    · simp [hgt.ne', Nat.not_lt.mpr hgt.le, Nat.not_lt.mpr hgt]

end

/-! ### VMOVL -/

/-- Where imm3H names the element size alone there is no shift: each element is extended in place. -/
theorem field_vmovlValue {imm3H : BitVec 3} {e : Nat} (un : Bool) (m : Word)
    (hsize : 8 * imm3H.toNat = vmovlSize imm3H) (he : e < 64 / vmovlSize imm3H) :
    field (vmovlValue un imm3H m) (2 * vmovlSize imm3H * e) (2 * vmovlSize imm3H) =
      if un then (field m (vmovlSize imm3H * e) (vmovlSize imm3H)).setWidth (2 * vmovlSize imm3H)
      else (field m (vmovlSize imm3H * e) (vmovlSize imm3H)).signExtend (2 * vmovlSize imm3H) := by
  have hfits : 2 * vmovlSize imm3H * (e + 1) ≤ 128 := by
    have hmul : vmovlSize imm3H * (e + 1) ≤ 64 := (Nat.mul_le_mul_left _ he).trans (Nat.mul_div_le 64 _)
    rw [Nat.mul_assoc]
    omega
  rw [vmovlValue, field_elements _ hfits, if_pos he, hsize, Nat.sub_self, BitVec.shiftLeft_zero]

section
variable {i : Instr} {rd : BitVec 5} {v : VReg} {s : State} {k : Result}

/-- What an instruction leaves that writes one vector register, and moves on. -/
theorem vectorWriteResult (hexec : exec i s = .next (advance (writeZ rd v s))) :
    ∃ t, exec i s = .next t ∧ NextPc s t ∧ Frame [] false false { s with z := t.z } t ∧ VecWritten rd v s t := by
  obtain ⟨hnext, hframe, hpc⟩ := completes_made (u := { s with z := (advance (writeZ rd v s)).z })
    hexec (by rw [advance_z]; rfl) rfl rfl rfl rfl
  exact ⟨_, hnext, hpc, hframe, vecWritten_of_z (advance_z _)⟩

theorem a32SimdGate_disabled (hA32 : elUsesA32 .el1 s = true) (hdisabled : a32SimdDisabled s = true) :
    a32SimdGate s k = undefined s := by
  simp [a32SimdGate, hA32, hdisabled]

theorem a32SimdGate_enabled (h : elUsesA32 .el1 s = false ∧ vecTrap [.fp] s = none ∨
    elUsesA32 .el1 s = true ∧ a32SimdDisabled s = false ∧ hcptrTraps s = false) : a32SimdGate s k = k := by
  rcases h with ⟨hA64, htrap⟩ | ⟨hA32, henabled, htrap⟩
  · simp [a32SimdGate, hA64, vecGate_none htrap]
  · simp [a32SimdGate, hA32, henabled, htrap]

/-- The two encodings are one instruction. -/
theorem exec_vmovl {u d : BitVec 1} {imm3H : BitVec 3} {vd : BitVec 4} {m : BitVec 1} {vm : BitVec 4}
    (hi : i ∈ [Instr.vmovlA32 u d imm3H vd m vm, .vmovlT32 u d imm3H vd m vm]) :
    exec i s = vmovl u d imm3H vd m vm s := by
  rw [List.mem_pair] at hi
  rcases hi with rfl | rfl <;> rfl

end

/-- Settles O57: the odd Vd and the enables come first, then `vectorWriteResult`; the elements by `field_vmovlValue`. -/
theorem vectorMoveLong : Obligations.VectorMoveLong := by
  unfold Obligations.VectorMoveLong
  intro s u d imm3H vd m vm
  refine ⟨fun i hi => ?_, fun un v e => ⟨field_vmovlValue (imm3H := 1) un v rfl, field_vmovlValue (imm3H := 2) un v rfl,
    field_vmovlValue (imm3H := 4) un v rfl⟩⟩
  refine ⟨fun hodd => ?odd, fun heven hA32 hdisabled => ?disabled, fun heven henabled => vectorWriteResult ?enabled⟩
  case odd => rw [exec_vmovl hi, vmovl, hodd, if_pos rfl]
  case disabled => rw [exec_vmovl hi, vmovl, heven, if_neg Bool.false_ne_true, a32SimdGate_disabled hA32 hdisabled]
  case enabled => rw [exec_vmovl hi, vmovl, heven, if_neg Bool.false_ne_true, a32SimdGate_enabled henabled]

/-! ### Conditions, and register 15 in Debug state -/

section
variable {cond rt : BitVec 4} {s : State} {k : Result} {own : Refusal} {trap : Option Result}

theorem ifCond_failed (h : condHolds cond s.ps = false) : ifCond cond s k = .next (advance s) := by
  rw [ifCond, ifCondOf, h, if_neg Bool.false_ne_true, advanceOf_false]

theorem ifCond_passed (h : condHolds cond s.ps = true) : ifCond cond s k = k := by
  rw [ifCond, ifCondOf, h, if_pos rfl]

theorem noR15InDebug_defined (h : ¬(halted s = true ∧ rt = 15)) : noR15InDebug own [rt] trap s k = k :=
  if_neg fun hboth => h (by simpa [@eq_comm _ 15#4] using hboth)

theorem noR15InDebug_unpredictable (hdebug : halted s = true) (hrt : rt = 15) :
    noR15InDebug own [rt] trap s k = unpredictable trap own s :=
  if_pos (by simp [hdebug, hrt])

end

/-! ### The halves of a register -/

section
variable (old : Word) (v : Half)

theorem field_withLow32_low : field (withLow32 old v) 0 32 = v := by
  ext j hj
  simp only [field, withLow32, BitVec.getElem_extractLsb', getLsbD_copyBits, BitVec.getLsbD_setWidth]
  simp [hj, show j < 64 by omega]

theorem field_withLow32_high : field (withLow32 old v) 32 32 = field old 32 32 := by
  ext j hj
  simp only [field, withLow32, BitVec.getElem_extractLsb', getLsbD_copyBits]
  simp

end

/-- No AArch32 register is held in the zero register: the model names a number up to 30, `n` itself, or `n + 16` with `n` at
most 12. -/
theorem a32Index_ne_31 (n : BitVec 4) (s : State) : a32Index n s ≠ 31 := by
  refine fun h => Nat.ne_of_lt (?_ : (a32Index n s).toNat < 31) (congrArg BitVec.toNat h)
  have hn : n.toNat < 16 := n.isLt
  simp only [a32Index]
  split_ifs <;> simp <;> omega

/-! ### MRC of DBGDSCRint -/

/-- Settles O58: past the condition and the rule of register 15 it writes the low half of a register, or the flags. -/
theorem debugStatusRead : Obligations.DebugStatusRead := by
  unfold Obligations.DebugStatusRead
  intro s cond rt
  have hexec : exec (.mrcDbgdscrint cond rt) s = ifCond cond s (mrcOf none rt s.a32.dbgdscrint s) := rfl
  refine ⟨fun hfail => ?failed, fun hcond hrt => ?register, fun hcond hrt hrun => ?flags, fun hcond hrt hdebug => ?debug⟩
  case failed => exact ⟨_, completes_nop (hexec.trans (ifCond_failed hfail)) _ _ _⟩
  case register =>
    have hwrite : mrcTo rt s.a32.dbgdscrint s = .next (advance (writeX (a32Index rt s)
        (withLow32 (readX (a32Index rt s) s) s.a32.dbgdscrint) s)) := by
      rw [mrcTo, if_neg hrt, writeR, if_neg hrt]
    rw [ifCond_passed hcond, mrcOf, noR15InDebug_defined (fun h => hrt h.2), Option.getD_none, hwrite] at hexec
    obtain ⟨hcompletes, hholds⟩ := completes_writeX hexec false false
    rw [Holds, if_neg (a32Index_ne_31 rt s)] at hholds
    exact ⟨_, hcompletes, by rw [hholds, field_withLow32_low], by rw [hholds, field_withLow32_high]⟩
  case flags =>
    rw [ifCond_passed hcond, mrcOf, noR15InDebug_defined (by simp [hrun]), Option.getD_none, mrcTo, if_pos hrt] at hexec
    exact ⟨_, completes_advance hexec (frame_setFlags _ _ _ _) rfl rfl rfl rfl, by simp [setFlags]⟩
  case debug => rw [hexec, ifCond_passed hcond, mrcOf, noR15InDebug_unpredictable hdebug hrt, unpredictable]

/-! ### MCR to PAR -/

section
variable {i : Instr} {cond rt : BitVec 4} {s : State} {v : Half}

theorem parTraps_of_ne_el1 (h : s.ps.el ≠ .el1) : parTraps s = false := by
  simp [parTraps, h]

/-- At EL2, or at EL1 where no enabled EL2 sets T7, an MCR to PAR is not trapped. -/
theorem parTraps_belowEl3 (h : s.ps.el = .el2 ∨ s.ps.el = .el1 ∧ (el2Enabled s = true →
    (if elUsesA32 .el2 s then ictlBit s .hstr 7 else ibit s .HSTR_EL2 7) = false)) : parTraps s = false := by
  rcases h with hel | ⟨-, hT7⟩
  · exact parTraps_of_ne_el1 (by simp [hel])
  · cases hel2 : el2Enabled s with
    | false => simp [parTraps, hel2]
    | true => rw [parTraps, hT7 hel2, Bool.and_false]

theorem parTrap_some (h : parTraps s = true) :
    ∃ iss, parTrap cond rt s = some (raise (syncExc .el2 0x03 iss s) s) :=
  ⟨_, if_pos h⟩

theorem parTrap_none (h : parTraps s = false) : parTrap cond rt s = none := by
  rw [parTrap, h, if_neg Bool.false_ne_true]

theorem exec_mcrPar_failed (h : condHolds cond s.ps = false) : exec (.mcrPar cond rt) s = .next (advance s) :=
  ifCond_failed h

theorem exec_mcrPar_debug (hcond : condHolds cond s.ps = true) (hdebug : halted s = true) (hrt : rt = 15) :
    exec (.mcrPar cond rt) s = unpredictable (parTrap cond rt s) .pcOrPstateInDebugState s :=
  (ifCond_passed hcond).trans (noR15InDebug_unpredictable hdebug hrt)

theorem exec_mcrPar_trapped (hcond : condHolds cond s.ps = true) (hdefined : ¬(halted s = true ∧ rt = 15))
    (htrap : parTraps s = true) : ∃ iss, exec (.mcrPar cond rt) s = raise (syncExc .el2 0x03 iss s) s := by
  obtain ⟨iss, hsome⟩ := parTrap_some (cond := cond) (rt := rt) htrap
  exact ⟨iss, (ifCond_passed hcond).trans ((noR15InDebug_defined hdefined).trans (by rw [hsome, Option.getD_some]))⟩

theorem exec_mcrPar (hcond : condHolds cond s.ps = true) (hdefined : ¬(halted s = true ∧ rt = 15))
    (htrap : parTraps s = false) : exec (.mcrPar cond rt) s = mcrPar (readR rt s) s :=
  (ifCond_passed hcond).trans ((noR15InDebug_defined hdefined).trans (by rw [parTrap_none htrap, Option.getD_none]))

/-- Below EL3 the PAR that the level has is PAR_NS where EL3 banks it, else the one PAR. -/
theorem mcrPar_belowEl3 (h : s.ps.el = .el2 ∨ s.ps.el = .el1) :
    mcrPar v s = .next (advance (if parBanked s then writeParNS v s else writePar v s)) := by
  rcases h with h | h <;> simp only [mcrPar, h]

/-! What a write of each of the three leaves. -/

theorem writeParS_completes (h : exec i s = .next (advance (writeParS v s))) :
    ∃ t, Completes i [] false false s { s with a32 := { s.a32 with parS := t.a32.parS } } t ∧
      field t.a32.parS 0 32 = v ∧ field t.a32.parS 32 32 = field s.a32.parS 32 32 := by
  refine ⟨_, completes_made h ?_ rfl rfl rfl rfl, ?_⟩ <;> rw [advance_a32]
  · rfl
  · exact ⟨field_withLow32_low _ _, field_withLow32_high _ _⟩

theorem writeParNS_completes (h : exec i s = .next (advance (writeParNS v s))) :
    ∃ t, Completes i [] false false s { s with a32 := { s.a32 with parNS := t.a32.parNS } } t ∧
      field t.a32.parNS 0 32 = v ∧ field t.a32.parNS 32 32 = field s.a32.parNS 32 32 := by
  refine ⟨_, completes_made h ?_ rfl rfl rfl rfl, ?_⟩ <;> rw [advance_a32]
  · rfl
  · exact ⟨field_withLow32_low _ _, field_withLow32_high _ _⟩

theorem writePar_completes (h : exec i s = .next (advance (writePar v s))) :
    ∃ t, Completes i [] false false s { s with sys := t.sys } t ∧
      field (sreg t .PAR_EL1) 0 32 = v ∧ field (sreg t .PAR_EL1) 32 32 = field (sreg s .PAR_EL1) 32 32 ∧
      ∀ q, q ≠ .PAR_EL1 → sreg t q = sreg s q := by
  have hread (q : SysReg) : sreg (advance (writePar v s)) q = sreg (writePar v s) q :=
    congrArg (·.getD (sysIdx q) 0) (advance_sys _)
  have hpar : sreg (advance (writePar v s)) .PAR_EL1 = withLow32 (sreg s .PAR_EL1) v :=
    (hread _).trans (sreg_setReg_same _ _ _ (sysIdx_lt _))
  refine ⟨_, completes_made h (by rw [advance_sys]; rfl) rfl rfl rfl rfl, ?_, ?_, fun q hq => ?_⟩
  · rw [hpar, field_withLow32_low]
  · rw [hpar, field_withLow32_high]
  · exact (hread q).trans (sreg_setReg_other _ _ _ _ fun h => hq (sysIdx_inj h).symm)

end

/-- Settles O59: past the condition, the rule of register 15 and the trap, the level and the Security state choose the
PAR. -/
theorem physicalAddressRegisterWrite : Obligations.PhysicalAddressRegisterWrite := by
  unfold Obligations.PhysicalAddressRegisterWrite
  rintro s cond rt _ rfl
  refine ⟨fun hfail => ⟨_, completes_nop (exec_mcrPar_failed hfail) _ _ _⟩, fun hcond hdebug hrt => ?debug,
    fun hcond hdefined => ⟨fun hel => ?el0, fun hel hel2 hA64 htrap => ?trapped, fun hel hns => ?secure, ?banked, ?one⟩⟩
  case debug =>
    rw [exec_mcrPar_debug hcond hdebug hrt]
    cases htrap : parTraps s with
    | false => exact .inl (by rw [parTrap_none htrap, unpredictable])
    | true =>
      obtain ⟨iss, hsome⟩ := parTrap_some (cond := cond) (rt := rt) htrap
      rw [hsome, unpredictable]
      split
      · exact .inr ⟨rfl, iss, rfl⟩
      · exact .inl rfl
  case el0 => rw [exec_mcrPar hcond hdefined (parTraps_of_ne_el1 (by simp [hel])), mcrPar, hel]
  case trapped => exact exec_mcrPar_trapped hcond hdefined (by simp [parTraps, hel, hel2, hA64, htrap])
  case secure =>
    refine writeParS_completes ((exec_mcrPar hcond hdefined (parTraps_of_ne_el1 (by simp [hel]))).trans ?_)
    simp only [mcrPar, hel, hns, Bool.false_eq_true, if_false]
  case banked =>
    rintro (⟨hel, hns⟩ | ⟨hbanked, hbelow⟩)
    · refine writeParNS_completes ((exec_mcrPar hcond hdefined (parTraps_of_ne_el1 (by simp [hel]))).trans ?_)
      simp only [mcrPar, hel, hns, if_true]
    · have hexec := exec_mcrPar hcond hdefined (parTraps_belowEl3 hbelow)
      rw [mcrPar_belowEl3 (hbelow.imp_right And.left), hbanked, if_pos rfl] at hexec
      exact writeParNS_completes hexec
  case one =>
    rintro ⟨hbanked, hbelow⟩
    have hexec := exec_mcrPar hcond hdefined (parTraps_belowEl3 hbelow)
    rw [mcrPar_belowEl3 (hbelow.imp_right And.left), hbanked, if_neg Bool.false_ne_true] at hexec
    exact writePar_completes hexec

end Sys2Proof.Proofs
end

