-- ==== Sys2Proof/Proofs/Arithmetic.lean ====
section
/-! MOVZ, ADD, SUB, SUBS and ORR: the immediates in 64 and in 32 bits, and an instruction that writes one register. -/

namespace Sys2Proof.Proofs

open Sys2Proof.Machine Sys2Proof.Safety Sys2Proof.Laws

/-! ### Immediates and the W forms -/

/-- The low 32 bits of a difference are the difference of the low 32 bits. -/
theorem setWidth_sub {w k : Nat} (a b : BitVec w) (h : k ≤ w) :
    (a - b).setWidth k = a.setWidth k - b.setWidth k := by
  rw [BitVec.sub_eq_add_neg, BitVec.setWidth_add _ _ h, BitVec.setWidth_neg_of_le h, ← BitVec.sub_eq_add_neg]

/-- The immediate of ADD and SUB in 32 bits is the low part of the one in 64. -/
theorem addImm_32 (sh : BitVec 1) (imm12 : BitVec 12) : addImm 32 sh imm12 = (addImm 64 sh imm12).setWidth 32 := by
  unfold addImm
  split <;> ext j hj <;> simp

/-- The immediate of MOVZ fits in 32 bits where its shift is 0 or 16. -/
theorem movImm_32 (hw : BitVec 1) (imm16 : BitVec 16) :
    (movImm 32 hw imm16).setWidth 64 = imm16.setWidth 64 <<< (16 * hw.toNat) := by
  have hshift : 16 * hw.toNat ≤ 16 := by have := hw.isLt; omega
  ext j hj
  simp only [movImm, BitVec.getElem_setWidth, BitVec.getLsbD_shiftLeft, BitVec.getElem_shiftLeft, BitVec.getLsbD_setWidth]
  by_cases h : j < 32
  · simp [h, show j - 16 * hw.toNat < 32 by omega]
  · simp [h, BitVec.getLsbD_of_ge imm16 (j - 16 * hw.toNat) (by omega)]

/-! ### One register written -/

section
variable {i : Instr} {n : BitVec 5} {v : Word} {s : State}

/-- An instruction that writes one register, 31 being the stack pointer, and moves on. -/
theorem completes_writeXSP (h : exec i s = .next (advance (writeXSP n v s))) :
    ∃ t, Completes i [n] (n == 31) false s s t ∧ readXSP n t = v := by
  refine ⟨_, completes_advance h (frame_writeXSP (List.mem_singleton.mpr rfl) (by simp) ..) (by simp) (by simp) ?_
    (by simp), ?_⟩
  · exact halted_congr (by simp)
  · rw [readXSP_advance, readXSP_writeXSP]

/-- An instruction that writes one register and the flags, and moves on. -/
theorem completes_writeFlags {f : NZCV} (h : exec i s = .next (advance (setFlags f (writeX n v s)))) :
    ∃ t, Completes i [n] false true s s t ∧ Holds n v t ∧
      t.ps.n = f.n ∧ t.ps.z = f.z ∧ t.ps.c = f.c ∧ t.ps.v = f.v := by
  have hframe : Frame [n] false true s (setFlags f (writeX n v s)) :=
    frame_trans (frame_writeX (List.mem_singleton.mpr rfl) ..) (frame_setFlags ..)
  refine ⟨_, completes_advance h hframe (by simp) (by simp) (halted_congr (by simp)) (by simp), ?_, by simp⟩
  rw [Holds, readX_advance, readX_setFlags]
  exact holds_writeX n v s

end

/-- A difference is zero where its sides are equal. -/
theorem sub_beq_zero {w : Nat} (a b : BitVec w) : (a - b == 0) = decide (a = b) := by
  rw [Bool.eq_iff_iff, beq_iff_eq, decide_eq_true_eq]
  exact BitVec.sub_eq_iff_eq_add.trans (by simp)

/-- Settles O49: each form writes one register and moves on, `completes_writeX`, `completes_writeXSP` and
`completes_writeFlags`; the W forms compute the low part of what the X forms do. -/
theorem integerArithmetic : Obligations.IntegerArithmetic := by
  unfold Obligations.IntegerArithmetic
  rintro s hw hw1 sh imm16 imm12 shift imm6 rm rn rd _ rfl b hb
  obtain rfl : b = addImm 64 sh imm12 := hb
  refine ⟨⟨_, completes_writeX rfl _ _⟩, ?movzW, completes_writeXSP rfl, completes_writeXSP rfl, ?addW, ?subW,
    ⟨_, completes_writeX rfl _ _⟩, ?subsX, ?subsW⟩
  case movzW => exact movImm_32 hw1 imm16 ▸ ⟨_, completes_writeX rfl _ _⟩
  case addW =>
    rw [BitVec.setWidth_add _ _ (by decide), ← addImm_32]
    exact completes_writeXSP rfl
  case subW =>
    rw [setWidth_sub _ _ (by decide), ← addImm_32]
    exact completes_writeXSP rfl
  case subsX =>
    rw [← sub_beq_zero]
    exact completes_writeFlags (f := (subWithFlags (readXSP rn s) (addImm 64 sh imm12)).2) rfl
  case subsW =>
    rw [← addImm_32, ← sub_beq_zero]
    exact completes_writeFlags (f := (subWithFlags ((readXSP rn s).setWidth 32) (addImm 32 sh imm12)).2) rfl

end Sys2Proof.Proofs
end

