-- ==== Sys2Proof/Proofs/Branches.lean ====
section
/-! The plain branches: the target or the next instruction. -/

namespace Sys2Proof.Proofs

open Sys2Proof.Machine Sys2Proof.Safety Sys2Proof.Laws

section
variable {i : Instr} {a : Word} {s : State}

/-- Outside Debug state a branch goes to its target and leaves everything else. -/
theorem branch_taken (hrun : halted s = false) (h : exec i s = notHalted none s (.next (branchTo a 0 s))) :
    ∃ t, exec i s = .next t ∧ BranchedTo a 0 s t ∧ Frame [] false false s t :=
  ⟨_, h.trans (notHalted_eq hrun), ⟨rfl, rfl, rfl⟩, frame_branchTo ..⟩

/-- A conditional branch goes to its target where the condition holds, else to the next instruction. -/
theorem branchIf_completes {c : Bool} {imm : BitVec 19} (hrun : halted s = false) (h : exec i s = branchIf c imm s) :
    ∃ t, exec i s = .next t ∧ Frame [] false false s t ∧
      (c = true → BranchedTo (s.pc + (imm.signExtend 64 <<< 2)) 0 s t) ∧ (c = false → NextPc s t) := by
  rw [branchIf, notHalted_eq hrun] at h
  cases c with
  | true => exact ⟨_, h, frame_branchTo .., fun _ => ⟨rfl, rfl, rfl⟩, nofun⟩
  | false => exact ⟨_, h, frame_advance .., nofun, fun _ => nextPc_advance rfl rfl rfl rfl⟩

end

/-- Settles O40: B and RET are `branch_taken`, the four conditional branches `branchIf_completes`. -/
theorem plainBranches : Obligations.PlainBranches := by
  unfold Obligations.PlainBranches
  intro s imm26 imm19 cond rt hrun
  refine ⟨branch_taken hrun rfl, branch_taken hrun rfl, fun i taken hi => branchIf_completes hrun ?_⟩
  simp only [List.mem_cons, List.not_mem_nil, or_false, Prod.mk.injEq] at hi
  rcases hi with ⟨rfl, rfl⟩ | ⟨rfl, rfl⟩ | ⟨rfl, rfl⟩ | ⟨rfl, rfl⟩ | ⟨rfl, rfl⟩
  · rfl
  · rfl
  · exact congrArg (branchIf · imm19 s) (decide_not ..).symm
  · rfl
  · exact congrArg (branchIf · imm19 s) (decide_not ..).symm

end Sys2Proof.Proofs
end

