-- ==== Sys2Proof/Proofs/Barriers.lean ====
section
/-! ISB, DSB and CLREX: what a Context synchronization event and a completed barrier leave. -/

namespace Sys2Proof.Proofs

open Sys2Proof.Machine Sys2Proof.Safety Sys2Proof.Laws

section
variable {s t : State}

/-- With no write to a System register pending, an indirect read sees the register's value. -/
theorem ireg_of_synchronised (h : t.pend = []) (r : SysReg) : ireg t r = sreg t r := by
  rw [ireg, h]
  rfl

/-- The same of the control registers beside the System registers. -/
theorem ictl_of_synchronised (h : t.pendCtl = []) (r : CtlReg) : ictl t r = ctlReg t r := by
  rw [ictl, h]
  rfl

/-- A Context synchronization event leaves no Warm reset requested and not yet synchronised. -/
theorem syncContext_not_requested (s : State) : (syncContext s).warmReset ≠ .requested := by
  unfold syncContext
  dsimp only
  split
  · nofun
  · assumption

/-- Nor any written code whose maintenance is complete. -/
theorem syncContext_stale {e : Nat × Stage} (h : e ∈ (syncContext s).stale) : e.2 ≠ .invalidComplete := by
  simpa using (List.mem_filter.mp h).2

theorem completeAccesses_keys (s : State) : (completeAccesses s).stale.map (·.1) = s.stale.map (·.1) := by
  simp [completeAccesses]

/-- A barrier is a full one for CRm 0b1111 alone. -/
theorem isFullDsb_iff (crm : BitVec 4) : isFullDsb crm = true ↔ crm = 0b1111#4 := by simp [isFullDsb]

/-- What a barrier makes of the state, of part of the accesses or of all. -/
theorem barrier_eq (c : Bool) (s : State) : (if c then dataSync s else completeAccesses s) =
    { s with stale := (completeAccesses s).stale, resetSeq := if c then .dsb s.free else s.resetSeq } := by
  cases c <;> rfl

/-- What a completed barrier leaves, of part of the accesses or of all. -/
theorem barrier_completes {i : Instr} {c : Bool} {p : Prop} [Decidable p] (hp : c = true ↔ p)
    (h : exec i s = .next (advance (if c then dataSync s else completeAccesses s))) :
    ∃ t, Completes i [] false false s
        { s with stale := t.stale, resetSeq := if p then .dsb s.free else s.resetSeq } t ∧
      t.stale.map (·.1) = s.stale.map (·.1) := by
  rw [barrier_eq] at h
  refine ⟨_, completes_made h ?_ rfl rfl rfl rfl, ?_⟩
  · rw [advance_stale, if_congr hp.symm rfl rfl]
  · rw [advance_stale]
    exact completeAccesses_keys s

end

/-- What ISB makes of the state, before it moves on. -/
def isbState (s : State) : State := { syncContext s with resetSeq := isbSeq s }

theorem exec_isb (s : State) : exec .isb s = .next (advance (isbState s)) := rfl

/-- Settles O16: ISB is `syncContext`, which leaves nothing pending; DSB is `barrier_completes`. -/
theorem barriersSynchronise : Obligations.BarriersSynchronise := by
  unfold Obligations.BarriersSynchronise
  intro s crm imm2
  refine ⟨?isb, barrier_completes (isFullDsb_iff crm) rfl, barrier_completes (c := isFullDsb (imm2 ++ 0b11#2)) ?nxs rfl,
    ⟨_, completes_made rfl rfl rfl rfl rfl rfl⟩⟩
  case isb =>
    have hpend : (advance (isbState s)).pend = [] := advance_pend _
    have hpendCtl : (advance (isbState s)).pendCtl = [] := advance_pendCtl _
    refine ⟨_, completes_made (exec_isb s) ?_ rfl rfl rfl rfl, hpend, hpendCtl, fun r => ?_, fun r => ?_, ?_, fun e he => ?_⟩
    · rw [advance_pend, advance_pendCtl, advance_stale, advance_warmReset, advance_resetSeq]
      rfl
    · rw [ireg_of_synchronised hpend, sreg, advance_sys]
      rfl
    · rw [ictl_of_synchronised hpendCtl]
      cases r <;> simp [ctlReg, isbState]
    · rw [advance_warmReset]
      exact syncContext_not_requested s
    · rw [advance_stale] at he
      exact syncContext_stale he
  case nxs =>
    rw [isFullDsb_iff]
    revert imm2
    decide

end Sys2Proof.Proofs
end

