-- ==== Sys2Proof/Proofs/LoadsStores.lean ====
section
/-! STR, LDR and the pre-indexed LDR: what they leave where their bytes are located, and their Alignment faults. -/

namespace Sys2Proof.Proofs

open Sys2Proof.Machine Sys2Proof.Safety Sys2Proof.Laws

/-! ### Located bytes -/

section
variable {d : AccDesc} {n g : Nat} {va stride : Word} {s u : State} {x : Xlat} {xs : List Xlat}

theorem locateBy_wf {bad : Xlat → State → Option AbortKind} (h : locateBy d n bad va s = .ok x u)
    (hs : Memory.wf s.mem = true) : Memory.wf u.mem = true := by
  rw [(locateBy_found h).2]
  exact updateDescriptors_wf _ _ hs

theorem locateAll_wf (h : locateAll d n va s = .ok xs u) (hs : Memory.wf s.mem = true) : Memory.wf u.mem = true := by
  unfold locateAll locateNth at h
  split at h
  · cases h
  · split at h
    · exact locateSeq_keeps (p := fun v => Memory.wf v.mem = true) (fun _ _ _ _ => locateBy_wf) h hs
    · obtain ⟨x, v, hx, hend⟩ := loc_bind_ok h
      cases hend
      exact locateBy_wf hx hs

theorem locateSeq_length {f : Word → State → Loc Xlat} {first : Bool}
    (h : locateSeq f stride g first n va s = .ok xs u) : xs.length = n := by
  induction n generalizing first va s xs with
  | zero =>
    cases h
    rfl
  | succ n ih =>
    rw [locateSeq] at h
    split at h
    · cases h
    · obtain ⟨x, v, hx, hrest⟩ := loc_bind_ok h
      obtain ⟨ys, w, hys, hend⟩ := loc_bind_ok hrest
      cases hend
      rw [List.length_cons, ih hys]

/-- An access of `n` bytes has `n` locations. -/
theorem locateAll_length (h : locateAll d n va s = .ok xs u) : xs.length = n := by
  unfold locateAll locateNth at h
  split at h
  · cases h
  · split at h
    · exact locateSeq_length h
    · obtain ⟨x, v, hx, hend⟩ := loc_bind_ok h
      cases hend
      simp

/-- Locating bytes leaves the byte order of the level. -/
theorem bigEndian_located (h : u = withChecks s u) : bigEndian u = bigEndian s := by
  rw [h]
  rfl

end

theorem bytesOf_length {w : Nat} (n : Nat) (v : BitVec w) : (bytesOf n v).length = n := by simp [bytesOf]

/-! ### Accesses that are stopped -/

theorem memRead_fault {d : AccDesc} {n w : Nat} {va va' : Word} {f : State → State} {s u : State} {k : AbortKind}
    (h : locateAll d n va s = .fault k va' u) : memRead d n w va f s =
      abort d k va' (if isMultiple d n va s then f (partialRead (reachedLocs d n 0 va s) u) else u) := by
  simp [memRead, h]

theorem memWrite_fault {d : AccDesc} {n w : Nat} {va va' : Word} {v : BitVec w} {s u : State} {k : AbortKind}
    (h : locateAll d n va s = .fault k va' u) : memWrite d n va v s = abort d k va'
      (partialWrite (reachedLocs d n 0 va s) (targetLocs d n va s) (byteOrder (bigEndian u) (bytesOf n v)) u) := by
  simp [memWrite, h]

/-- A store that is stopped leaves the pc. -/
theorem partialWrite_pc (xs ts : List Xlat) (bs : List Byte) (s : State) : (partialWrite xs ts bs s).pc = s.pc := by
  unfold partialWrite
  split
  · rw [spoilLocs_stored, writeLocs_stored]
    rfl
  · rfl

/-- So does a load. -/
theorem partialRead_pc (xs : List Xlat) (s : State) : (partialRead xs s).pc = s.pc := by
  unfold partialRead
  split
  · rw [readLocs_state]
    rfl
  · rfl

theorem spoilReg_pc (rt base : BitVec 5) (s : State) : (spoilReg rt base s).pc = s.pc := by
  unfold spoilReg
  split <;> simp

/-! ### The instructions -/

section
variable {imm12 : BitVec 12} {imm9 : BitVec 9} {rn rt : BitVec 5} {base va : Word} {s u : State} {xs : List Xlat}

theorem strX_located (hs : Canonical s) (hbase : baseReg rn s = .ok base s)
    (hloc : locateAll (dataDesc true rn) 8 (base + (imm12.setWidth 64 <<< 3)) s = .ok xs u) :
    ∃ t, exec (.strX imm12 rn rt) s = .next t ∧ NextPc s t ∧ Frame [] false false (stored u t) t ∧
      Wrote xs (byteOrder (bigEndian s) (bytesOf 8 (readX rt s))) u t := by
  have hlocated := locateAll_ok hloc
  have hexec : exec (.strX imm12 rn rt) s =
      .next (advance (writeLocs xs (byteOrder (bigEndian s) (bytesOf 8 (readX rt s))) u)) := by
    rw [show exec (.strX imm12 rn rt) s = execStrX imm12 rn rt s from rfl, execStrX, hbase, andThen_value, pimm8,
      memWrite_eq hloc, andThen_value, bigEndian_located hlocated]
  obtain ⟨hpc, hframe, hstored⟩ := stored_completes hlocated (writeLocs_stored ..) (halted_writeLocs ..) rfl
    (frame_refl [] ..)
  refine ⟨_, hexec, hpc, hframe, wrote_writeLocs ?_ (locateAll_wf hloc hs.1) hstored⟩
  rw [byteOrder_length, bytesOf_length, locateAll_length hloc]

theorem exec_ldrX (hbase : baseReg rn s = .ok base s) : exec (.ldrX imm12 rn rt) s =
    loadAt (dataDesc false rn) (base + (imm12.setWidth 64 <<< 3)) false rn rt s := by
  rw [show exec (.ldrX imm12 rn rt) s = execLdrX imm12 rn rt s from rfl, execLdrX, hbase]
  rfl

theorem exec_ldrXPre (hregs : ¬(rn = rt ∧ rn ≠ 31)) (hbase : baseReg rn s = .ok base s) :
    exec (.ldrXPre imm9 rn rt) s = loadAt (writebackDesc false) (base + imm9.signExtend 64) true rn rt s := by
  rw [show exec (.ldrXPre imm9 rn rt) s = execLdrXPre imm9 rn rt s from rfl, execLdrXPre, if_neg hregs, hbase]
  rfl

theorem strX_misaligned (hbase : baseReg rn s = .ok base s)
    (hloc : locateAll (dataDesc true rn) 8 (base + (imm12.setWidth 64 <<< 3)) s = .fault .alignment va u) :
    ∃ v, v.pc = u.pc ∧ DataAbort alignmentStatus va v (exec (.strX imm12 rn rt) s) := by
  have hexec : exec (.strX imm12 rn rt) s = execStrX imm12 rn rt s := rfl
  rw [hexec, execStrX, hbase, andThen_value, pimm8, memWrite_fault hloc]
  exact ⟨_, partialWrite_pc .., dataAbort_alignment (d := dataDesc true rn) nofun va _⟩

theorem ldrX_misaligned (hbase : baseReg rn s = .ok base s)
    (hloc : locateAll (dataDesc false rn) 8 (base + (imm12.setWidth 64 <<< 3)) s = .fault .alignment va u) :
    ∃ v, v.pc = u.pc ∧ DataAbort alignmentStatus va v (exec (.ldrX imm12 rn rt) s) := by
  rw [exec_ldrX hbase, loadAt, memRead_fault hloc]
  refine ⟨_, ?_, dataAbort_alignment (d := dataDesc false rn) nofun va _⟩
  split
  · rw [spoilReg_pc, partialRead_pc]
  · rfl

end

/-- Settles O50: the store is `strX_located`, both loads `loadAt_completes`. -/
theorem loadsAndStores : Obligations.LoadsAndStores := by
  unfold Obligations.LoadsAndStores
  intro s u imm12 imm9 rn rt base xs hs hbase
  refine ⟨strX_located hs hbase, fun hloc => ?ldr, fun hregs hloc => ?pre, fun hsame hsp => if_pos ⟨hsame, hsp⟩,
    fun va => strX_misaligned hbase, fun va => ldrX_misaligned hbase⟩
  case ldr =>
    obtain ⟨t, bs, hexec, hpc, hframe, hdid, -, hholds⟩ := loadAt_completes (writeback := false) (rt := rt) hloc
    exact ⟨t, bs, (exec_ldrX hbase).trans hexec, hpc, hframe, hdid, hholds (.inl rfl)⟩
  case pre =>
    obtain ⟨t, bs, hexec, hpc, hframe, hdid, hback, hholds⟩ := loadAt_completes (writeback := true) (rt := rt) hloc
    have hdest : rn ≠ rt ∨ rn = 31 := (not_and_or.mp hregs).imp_right not_not.mp
    exact ⟨t, bs, (exec_ldrXPre hregs hbase).trans hexec, hpc, hframe, hdid, hholds (.inr hdest), hback rfl⟩

end Sys2Proof.Proofs
end

