-- ==== Sys2Proof/Proofs/Monitors.lean ====
section
/-! Load-Exclusives and Store-Exclusives with an aligned address: the marks in the monitors, the data and the status. -/

namespace Sys2Proof.Proofs

open Sys2Proof.Machine Sys2Proof.Safety Sys2Proof.Laws

/-! ### The bytes of a Store-Exclusive -/

section
variable {w n k : Nat}

theorem bytesOf_setWidth (v : BitVec w) (h : 8 * n ≤ k) : bytesOf n (v.setWidth k) = bytesOf n v := by
  refine List.map_congr_left fun j hj => BitVec.extractLsb'_setWidth_of_le ?_
  have := List.mem_range.mp hj
  omega

/-- The bytes of two values put together are those of the low one, then those of the high one. -/
theorem bytesOf_append (hi lo : BitVec (8 * n)) : bytesOf (n + n) (hi ++ lo) = bytesOf n lo ++ bytesOf n hi := by
  rw [bytesOf, List.range_add, List.map_append, List.map_map]
  refine congrArg₂ _ (List.map_congr_left fun j hj => ?_) (List.map_congr_left fun j hj => ?_)
  · have := List.mem_range.mp hj
    exact BitVec.extractLsb'_append_eq_of_add_le (by omega)
  · rw [Function.comp, BitVec.extractLsb'_append_eq_of_le (by omega)]
    congr 1
    omega

/-- A pair is stored with its first register at the lower address, each in the byte order of the level. -/
theorem byteOrder_pairData (lo hi : BitVec (8 * n)) (s : State) :
    byteOrder (bigEndian s) (bytesOf (n + n) (pairData lo hi s)) =
      byteOrder (bigEndian s) (bytesOf n lo) ++ byteOrder (bigEndian s) (bytesOf n hi) := by
  unfold pairData
  cases bigEndian s with
  | false => exact bytesOf_append hi lo
  | true => exact (congrArg List.reverse (bytesOf_append lo hi)).trans (List.reverse_append ..)

end

section
variable {rs rt2 rn rt : BitVec 5} {base : Word} {s u v : State} {x y : Xlat}

/-- A Store-Exclusive is `storeExclusive` of the data that its bytes are. -/
theorem exec_storeExclusives_bytes {e : StoreEx} (he : e ∈ storeExclusives rs rt2 rn rt s) :
    ∃ (w : Nat) (data : BitVec w), exec e.instr s = storeExclusive e.size data e.clash rs rn s ∧
      byteOrder (bigEndian s) (bytesOf e.size data) = e.bytes := by
  have hone (n k : Nat) (h : 8 * n ≤ k) : byteOrder (bigEndian s) (bytesOf n ((readX rt s).setWidth k)) =
      byteOrder (bigEndian s) (bytesOf n (readX rt s)) := by rw [bytesOf_setWidth _ h]
  have hpair : byteOrder (bigEndian s) (bytesOf 8 (pairData (readW rt s) (readW rt2 s) s)) =
      byteOrder (bigEndian s) (bytesOf 4 (readX rt s)) ++ byteOrder (bigEndian s) (bytesOf 4 (readX rt2 s)) := by
    rw [byteOrder_pairData (n := 4), readW, readW, bytesOf_setWidth _ le_rfl, bytesOf_setWidth _ le_rfl]
  have hpairX := byteOrder_pairData (n := 8) (readX rt s) (readX rt2 s) s
  simp only [storeExclusives, List.mem_cons, List.not_mem_nil, or_false] at he
  rcases he with rfl | rfl | rfl | rfl | rfl | rfl | rfl | rfl | rfl | rfl | rfl | rfl
  · exact ⟨_, _, rfl, hone 1 8 le_rfl⟩
  · exact ⟨_, _, rfl, hone 1 8 le_rfl⟩
  · exact ⟨_, _, rfl, hone 2 16 le_rfl⟩
  · exact ⟨_, _, rfl, hone 2 16 le_rfl⟩
  · exact ⟨_, _, rfl, hone 4 32 le_rfl⟩
  · exact ⟨_, _, rfl, hone 4 32 le_rfl⟩
  · exact ⟨_, _, rfl, rfl⟩
  · exact ⟨_, _, rfl, rfl⟩
  · exact ⟨_, _, rfl, hpair⟩
  · exact ⟨_, _, rfl, hpair⟩
  · exact ⟨_, _, rfl, hpairX⟩
  · exact ⟨_, _, rfl, hpairX⟩

/-! ### Load-Exclusives -/

/-- Past the read, a Load-Exclusive changes the monitors and its destination. -/
theorem loaded_of_marked {r t : State} {value : Word} (hread : r = loaded u r)
    (ht : t = advance (writeX rt value (markExclusive x r))) :
    { loaded u t with exLocal := t.exLocal, exGlobal := t.exGlobal, exTlbi := false } = markExclusive x r := by
  simp only [ht, loaded, advance_devLog, advance_dbg, advance_exLocal, advance_exGlobal, writeX_devLog, writeX_dbg,
    writeX_exLocal, writeX_exGlobal]
  rw [hread]
  rfl

/-- A Load-Exclusive whose bytes are located reads them and marks the block of the first. -/
theorem loadExclusive_located {xs : List Xlat} (hbase : baseReg rn s = .ok base s)
    (hloc : locateAll (exclusiveDesc false rn) 8 base s = .ok xs u) :
    ∃ t bs x, loadExclusive rn rt s = .next t ∧ NextPc s t ∧
      Frame [rt] false false { loaded u t with exLocal := t.exLocal, exGlobal := t.exGlobal, exTlbi := false } t ∧
      DidRead xs bs u t ∧ Holds rt (ofBytes 64 (byteOrder (bigEndian s) bs)) t ∧ xs.head? = some x ∧
      t.exLocal = some (monitorBlock x u) ∧
      t.exGlobal = if x.shareable then some (monitorBlock x u) else u.exGlobal := by
  have hlocated := locateAll_ok hloc
  have hlength := locateAll_length hloc
  obtain ⟨x, rest, rfl⟩ : ∃ x rest, xs = x :: rest := by
    cases xs with
    | nil => cases hlength
    | cons x rest => exact ⟨x, rest, rfl⟩
  have hread := readLocs_state (x :: rest) 0 u
  have hhalted := halted_readLocs (x :: rest) 0 u
  have hdid := didRead_readLocs (x :: rest) u
  have hexec : loadExclusive rn rt s =
      .next (advance (writeX rt (ofBytes 64 (byteOrder (bigEndian s) (readLocs (x :: rest) 0 u).1))
        (markExclusive x (readLocs (x :: rest) 0 u).2))) := by
    rw [loadExclusive, hbase, andThen_value, hloc, ← bigEndian_located hlocated]
    rfl
  generalize (readLocs (x :: rest) 0 u).1 = bs, (readLocs (x :: rest) 0 u).2 = r at hread hhalted hdid hexec
  have hblock : monitorBlock x r = monitorBlock x u := by
    rw [hread]
    rfl
  have hglobal : r.exGlobal = u.exGlobal := by rw [hread]; rfl
  refine ⟨_, bs, x, hexec, nextPc_advance ?_ ?_ ?_ ?_, ?_, hdid _ (by simp) (by simp), ?_, rfl, ?_, ?_⟩
  · rw [writeX_pc, markExclusive_pc, hread, hlocated]
    rfl
  · rw [writeX_offTop, markExclusive_offTop, hread, hlocated]
    rfl
  · rw [halted_writeX]
    refine (halted_congr rfl).trans (hhalted.trans ?_)
    rw [hlocated]
    rfl
  · rw [writeX_ps, markExclusive_ps, hread, hlocated]
    rfl
  · rw [loaded_of_marked hread rfl]
    exact frame_trans (frame_writeX (List.mem_singleton.mpr rfl) ..) (frame_advance ..)
  · rw [Holds, readX_advance]
    exact holds_writeX ..
  · rw [advance_exLocal, writeX_exLocal, ← hblock]
    rfl
  · rw [advance_exGlobal, writeX_exGlobal, ← hblock, ← hglobal]
    rfl

end

/-- Settles O46: both are `loadExclusive_located`. -/
theorem loadExclusives : Obligations.LoadExclusives := by
  unfold Obligations.LoadExclusives
  intro s u rn rt base xs hbase hloc i hi
  simp only [List.mem_cons, List.not_mem_nil, or_false] at hi
  rcases hi with rfl | rfl
  · exact loadExclusive_located hbase hloc
  · exact loadExclusive_located hbase hloc

/-! ### Store-Exclusives -/

section
variable {w n : Nat} {data : BitVec w} {rs rn : BitVec 5} {base : Word} {s u v : State} {x y : Xlat}

/-- The alignment fault of the base is what the control raises. -/
theorem baseReg_of_baseException {r : Result} (h : baseException rn s = some r) : baseReg rn s = .stop r := by
  unfold baseException at h
  split at h
  · rename_i heq
    cases h
    exact heq
  · cases h

/-- A status register that is a source or the base: refused, or the fault of the base. -/
theorem storeExclusive_clashes {clash : Bool} (h : clash = true ∨ rs = rn ∧ rn ≠ 31) :
    storeExclusive n data clash rs rn s = .refused .unpredictable ∨
      ∃ r, baseReg rn s = .stop r ∧ storeExclusive n data clash rs rn s = r := by
  have hclash : (clash || rs == rn && rn != 31) = true := by simpa using h
  rw [storeExclusive, if_pos hclash]
  unfold unpredictable
  cases hbase : baseException rn s with
  | none => exact .inl rfl
  | some r =>
    dsimp only
    split
    · exact .inr ⟨r, baseReg_of_baseException hbase, rfl⟩
    · exact .inl rfl

/-- A monitor that passes held the block, or, after a TLB invalidation, some block. -/
theorem monitorsPass_held (h : monitorsPass x u = true) :
    u.exLocal = some (monitorBlock x u) ∨ u.exTlbi = true ∧ u.exLocal.isSome = true := by
  unfold monitorsPass at h
  dsimp only at h
  split at h
  · rename_i htlbi
    exact .inr (by simpa using htlbi)
  · simp only [Bool.and_eq_true, beq_iff_eq] at h
    exact .inl h.1.1

/-- What a Store-Exclusive leaves that ends with a status. -/
theorem status_written {m : State} {passed : Bool} (status : Word) (hpc : m.pc = s.pc) (htop : m.offTop = s.offTop)
    (hhalted : halted m = halted s) (hstate : m.ps.nRW = s.ps.nRW) :
    NextPc s (advance (writeX rs status (clearMonitors passed m))) ∧
      (advance (writeX rs status (clearMonitors passed m))).exLocal = none ∧
      Holds rs status (advance (writeX rs status (clearMonitors passed m))) ∧
      Frame [rs] false false (clearMonitors passed m) (advance (writeX rs status (clearMonitors passed m))) := by
  refine ⟨nextPc_advance ?_ ?_ ?_ ?_, ?_, ?_, ?_⟩
  · simpa using hpc
  · simpa using htop
  · rw [halted_writeX, ← hhalted]
    exact halted_congr rfl
  · simpa using hstate
  · simp
  · rw [Holds, readX_advance]
    exact holds_writeX ..
  · exact frame_trans (frame_writeX (List.mem_singleton.mpr rfl) ..) (frame_advance ..)

/-- Past the store, a Store-Exclusive that passes changes the monitors and its status register. -/
theorem stored_of_cleared {m t : State} {status : Word} (hm : m = stored v m)
    (ht : t = advance (writeX rs status (clearMonitors true m))) :
    { stored v t with exLocal := t.exLocal, exGlobal := t.exGlobal } = clearMonitors true m := by
  refine Eq.trans ?_ (congrArg (clearMonitors true) hm.symm)
  rw [ht, stored_advance, advance_exLocal, advance_exGlobal, writeX_eq]
  rfl

/-- A Store-Exclusive whose location is found for the monitors stores where they pass. -/
theorem storeExclusive_eq (hsource : ¬(rs = rn ∧ rn ≠ 31)) (hbase : baseReg rn s = .ok base s)
    (haligned : unaligned base n = false) (hlookup : lookup (exclusiveDesc true rn) base s = .ok x u)
    (hstore : locateBy (exclusiveDesc true rn) n (fun _ _ => none) base u = .ok y v) :
    storeExclusive n data false rs rn s =
      if monitorsPass x u then
        .next (advance (writeX rs 0 (clearMonitors true
          (writeLocs ((List.range n).map y.plus) (byteOrder (bigEndian v) (bytesOf n data)) v))))
      else .next (advance (writeX rs 1 (clearMonitors false (commit x u)))) := by
  have hfree : (false || rs == rn && rn != 31) = false := by simpa using hsource
  have hlocate : exclusiveLocate n rn base s = .ok x u := by
    rw [exclusiveLocate, haligned, if_neg Bool.false_ne_true, hlookup]
    rfl
  have hlocated : exclusiveStore n rn base u = .ok y v := by
    rw [exclusiveStore, hstore]
    rfl
  rw [storeExclusive, hfree, if_neg Bool.false_ne_true, hbase, andThen_value, hlocate, andThen_value, hlocated,
    andThen_value]

theorem storeExclusive_located (hs : Canonical s) (hsource : ¬(rs = rn ∧ rn ≠ 31)) (hbase : baseReg rn s = .ok base s)
    (haligned : unaligned base n = false) (hlookup : lookup (exclusiveDesc true rn) base s = .ok x u)
    (hstore : locateBy (exclusiveDesc true rn) n (fun _ _ => none) base u = .ok y v) :
    ∃ t, storeExclusive n data false rs rn s = .next t ∧ NextPc s t ∧ t.exLocal = none ∧
      ((u.exLocal = some (monitorBlock x u) ∨ u.exTlbi = true ∧ u.exLocal.isSome = true) ∧ Holds rs 0 t ∧
        Wrote ((List.range n).map y.plus) (byteOrder (bigEndian s) (bytesOf n data)) v t ∧
        Frame [rs] false false { stored v t with exLocal := t.exLocal, exGlobal := t.exGlobal } t ∨
       Holds rs 1 t ∧ Frame [rs] false false { commit x u with exLocal := none } t) := by
  have hu : u = { s with tlb := u.tlb, gptTlb := u.gptTlb } := findWith_ok (settled_ok.mp hlookup).1
  have hlocated : v = withChecks s v := withChecks_trans (t := u) (by rw [hu]; rfl) (locateBy_ok hstore)
  rw [storeExclusive_eq hsource hbase haligned hlookup hstore, bigEndian_located hlocated]
  generalize hbs : byteOrder (bigEndian s) (bytesOf n data) = bs
  split
  case isTrue hpass =>
    have hstored := writeLocs_stored ((List.range n).map y.plus) bs v
    have hhalted := halted_writeLocs ((List.range n).map y.plus) bs v
    have hwf : Memory.wf v.mem = true := locateBy_wf hstore (by rw [hu]; exact hs.1)
    have hlength : bs.length = ((List.range n).map y.plus).length := by
      rw [← hbs, byteOrder_length, bytesOf_length, List.length_map, List.length_range]
    have hwrote := wrote_writeLocs (t := advance (writeX rs 0 (clearMonitors true
      (writeLocs ((List.range n).map y.plus) bs v)))) hlength hwf (by simpa [stored] using hstored.symm)
    generalize writeLocs ((List.range n).map y.plus) bs v = m at hstored hhalted hwrote
    obtain ⟨hpc, hclear, hholds, hframe⟩ := status_written (rs := rs) (s := s) (m := m) (passed := true) 0
      (by rw [hstored, hlocated]; rfl) (by rw [hstored, hlocated]; rfl) (by rw [hhalted, hlocated]; rfl)
      (by rw [hstored, hlocated]; rfl)
    refine ⟨_, rfl, hpc, hclear, .inl ⟨monitorsPass_held hpass, hholds, hwrote, ?_⟩⟩
    rw [stored_of_cleared hstored rfl]
    exact hframe
  case isFalse =>
    have hcommit : commit x u = _ := updateDescriptors_eq x.updates u
    obtain ⟨hpc, hclear, hholds, hframe⟩ := status_written (rs := rs) (s := s) (m := commit x u) (passed := false) 1
      (by rw [hcommit, hu]) (by rw [hcommit, hu]) (by rw [hcommit, hu]; rfl) (by rw [hcommit, hu])
    exact ⟨_, rfl, hpc, hclear, .inr ⟨hholds, hframe⟩⟩

end

/-- Settles O47: a clash is `storeExclusive_clashes`, else the monitors decide, `storeExclusive_located`. -/
theorem storeExclusives : Obligations.StoreExclusives := by
  unfold Obligations.StoreExclusives
  intro s u v rs rt2 rn rt base x y hs e he
  obtain ⟨w, data, hexec, hbytes⟩ := exec_storeExclusives_bytes he
  rw [hexec, ← hbytes]
  refine ⟨storeExclusive_clashes, fun hclash hsource hbase haligned hlookup hstore => ?_⟩
  rw [hclash]
  exact storeExclusive_located hs hsource hbase haligned hlookup hstore

end Sys2Proof.Proofs
end

