-- ==== Sys2Proof/Proofs/SystemRegisterWrites.lean ====
section
/-! MRS and MSR of the registers with a name: what a permitted access reads and writes. -/

namespace Sys2Proof.Proofs

open Sys2Proof.Machine Sys2Proof.Safety Sys2Proof.Laws

/-! ### A permitted access -/

section
variable {sel : BitVec 15} {rt : BitVec 5} {r : RegName} {q p : SysReg} {v k : View} {a val : Word} {s u : State}

/-- SVCR alone has a gate of its own, the SME enable. -/
theorem accessGate_open {res : Result} (h : r = .view .SVCR → vecTrap [.sme] s = none) : accessGate r s res = res := by
  unfold accessGate
  split
  · rename_i hr
    exact vecGate_none (h hr)
  · rfl

theorem readSys_performs (hname : nameOf sel = some r) (hstate : (halted s && isPstateView r) = false)
    (hallowed : permission sel r false s = .allowed) (hgate : r = .view .SVCR → vecTrap [.sme] s = none) :
    readSys sel rt s = performRead sel r rt s := by
  simp only [readSys, hname, hstate, hallowed, Bool.false_eq_true, if_false, accessGate_open hgate]

theorem writeSys_performs (hname : nameOf sel = some r) (hstate : (halted s && isPstateView r) = false)
    (hallowed : permission sel r true s = .allowed) (hgate : r = .view .SVCR → vecTrap [.sme] s = none) :
    writeSys sel rt s = .next (advance (performWrite sel r (readX rt s) s)) := by
  simp only [writeSys, hname, hstate, hallowed, Bool.false_eq_true, if_false, accessGate_open hgate]

/-- A read gives the value of the register that is reached, but for the names with a rule of their own. -/
theorem performRead_reached (hccsidr : r ≠ .stored .CCSIDR_EL1) (hccsidr2 : r ≠ .stored .CCSIDR2_EL1)
    (hrndr : r ≠ .view .RNDR) (hrndrrs : r ≠ .view .RNDRRS) (hcntkctl : r ≠ .stored .CNTKCTL_EL1) :
    performRead sel r rt s = .next (advance (writeX rt (regValue (reached sel r s) s) s)) := by
  unfold performRead
  split
  · exact absurd rfl hccsidr
  · exact absurd rfl hccsidr2
  · exact absurd rfl hrndr
  · exact absurd rfl hrndrrs
  · exact absurd rfl hcntkctl
  · rfl

/-- A write of a register acts on the one that is reached, and may be counted. -/
theorem performWrite_reached (hcntkctl : q ≠ .CNTKCTL_EL1) (hreached : reached sel (.stored q) s = .stored p) :
    performWrite sel (.stored q) a s = countWrite q (writeStored p a s) := by
  rw [performWrite, hreached]
  · rfl
  · rintro ⟨⟩
    exact hcntkctl rfl

theorem reached_SVCR : reached sel (.view .SVCR) s = .view .SVCR := by
  unfold reached
  split <;> rfl

/-! ### Stored registers -/

/-- A write of RMR_ELx changes the register and may request a Warm reset. -/
theorem writeRmr_eq (p : SysReg) (a : Word) (s : State) : writeRmr p a s =
    { setReg p (a &&& 0b11) s with warmReset := (writeRmr p a s).warmReset, resetSeq := (writeRmr p a s).resetSeq } := by
  unfold writeRmr
  split <;> rfl

/-- The write of RMR_ELx by its name is that of the reset request. -/
theorem writeStored_rmr (h : p ∈ rmrRegs) (a : Word) (s : State) : writeStored p a s = writeRmr p a s := by
  simp only [rmrRegs, List.mem_cons, List.not_mem_nil, or_false] at h
  rcases h with rfl | rfl | rfl <;> rfl

/-- A write of a stored register: which parts of the state it may change. -/
theorem writeStored_state (hpmcr : p ≠ .PMCR_EL0) (a : Word) (s : State) : writeStored p a s =
    { s with sys := (writeStored p a s).sys, pend := (writeStored p a s).pend
             warmReset := (writeStored p a s).warmReset, resetSeq := (writeStored p a s).resetSeq } := by
  by_cases hrmr : p ∈ rmrRegs
  · rw [writeStored_rmr hrmr, writeRmr_eq]
    rfl
  · rw [writeStored_eq hpmcr hrmr, writeReg_eq]

/-- Only a write of RMR_ELx requests a Warm reset. -/
theorem writeStored_reset (hpmcr : p ≠ .PMCR_EL0) (hrmr : p ∉ rmrRegs) (a : Word) (s : State) :
    (writeStored p a s).warmReset = s.warmReset ∧ (writeStored p a s).resetSeq = s.resetSeq := by
  rw [writeStored_eq hpmcr hrmr, writeReg_eq]
  exact ⟨rfl, rfl⟩

/-- The register written holds `msrValue`, the others what they held. -/
theorem sreg_writeStored (hpmcr : p ≠ .PMCR_EL0) (a : Word) (s : State) :
    sreg (writeStored p a s) p = msrValue p a s ∧ ∀ q, q ≠ p → sreg (writeStored p a s) q = sreg s q := by
  by_cases hrmr : p ∈ rmrRegs
  · have hsreg (q : SysReg) : sreg (writeStored p a s) q = sreg (setReg p (a &&& 0b11) s) q := by
      rw [writeStored_rmr hrmr, writeRmr_eq]
      rfl
    refine ⟨?_, fun q hq => (hsreg q).trans (sreg_setReg_other _ _ _ _ fun h => hq (sysIdx_inj h).symm)⟩
    rw [hsreg, sreg_setReg_same _ _ _ (sysIdx_lt p), msrValue, if_pos (List.mem_append_left _ hrmr)]
  · rw [writeStored_eq hpmcr hrmr]
    exact ⟨sreg_writeReg_same _ _ _ (sysIdx_lt p),
      fun q hq => sreg_writeReg_other _ _ _ _ fun h => hq (sysIdx_inj h).symm⟩

theorem sreg_advance (s : State) (q : SysReg) : sreg (advance s) q = sreg s q := by rw [sreg, advance_sys, sreg]

/-- What an instruction leaves that writes one stored register, under a name whose write may be counted. -/
theorem writeStored_completes {i : Instr} (hpmcr : p ≠ .PMCR_EL0)
    (hexec : exec i s = .next (advance (countWrite q (writeStored p a s)))) :
    ∃ t, exec i s = .next t ∧ NextPc s t ∧
      Frame [] false false
        { s with sys := t.sys, pend := t.pend, warmReset := t.warmReset, resetSeq := t.resetSeq
                 pmevcntr := t.pmevcntr, counted := t.counted } t ∧
      (∀ k, k ≠ p → sreg t k = sreg s k) ∧ sreg t p = msrValue p a s ∧
      (p ∉ rmrRegs → t.warmReset = s.warmReset ∧ t.resetSeq = s.resetSeq) ∧
      (q ∉ [.CONTEXTIDR_EL1, .TTBR0_EL1, .TTBR1_EL1] → t.pmevcntr = s.pmevcntr ∧ t.counted = s.counted) := by
  have hwrite := writeStored_state hpmcr a s
  have hreset := fun h => writeStored_reset (p := p) hpmcr h a s
  obtain ⟨hsame, hother⟩ := sreg_writeStored hpmcr a s
  generalize writeStored p a s = w at hwrite hreset hsame hother hexec
  obtain ⟨hcount, huncounted⟩ := countWrite_eq q w
  generalize countWrite q w = m at hcount huncounted hexec
  have hsreg (k : SysReg) : sreg (advance m) k = sreg w k := by
    rw [sreg_advance, hcount]
    rfl
  obtain ⟨hnext, hframe, hpc⟩ := completes_made (s := s) (u := { s with
      sys := (advance m).sys, pend := (advance m).pend, warmReset := (advance m).warmReset
      resetSeq := (advance m).resetSeq, pmevcntr := (advance m).pmevcntr, counted := (advance m).counted }) hexec
    (by simp only [advance_sys, advance_pend, advance_warmReset, advance_resetSeq, advance_pmevcntr, advance_counted]
        rw [hcount, hwrite])
    (by rw [hcount, hwrite]) (by rw [hcount, hwrite]) (halted_congr (by rw [hcount, hwrite])) (by rw [hcount, hwrite])
  refine ⟨_, hnext, hpc, hframe, fun k hk => (hsreg k).trans (hother k hk), (hsreg p).trans hsame, fun hrmr => ?_,
    fun hq => ?_⟩
  · rw [advance_warmReset, advance_resetSeq, hcount]
    exact hreset hrmr
  · rw [advance_pmevcntr, advance_counted, huncounted hq, hwrite]
    exact ⟨rfl, rfl⟩

/-! ### One register written -/

/-- An indirect read after one write of a register sees its new value or its old one. -/
theorem ireg_writeReg (hpend : pendingOf p s.pend = []) :
    ireg (writeReg p val s) p = sreg (writeReg p val s) p ∨ ireg (writeReg p val s) p = sreg s p := by
  unfold writeReg
  split
  · rw [ireg, show (setReg p val s).pend = s.pend from rfl, hpend]
    exact .inl rfl
  · rw [ireg, show pendingOf p ((p, sreg s p) :: s.pend) = [sreg s p] by rw [pendingOf, if_pos rfl, hpend]]
    unfold seenIndirectly
    dsimp only
    split
    · exact .inl rfl
    · exact .inr (by simp [Nat.mod_one])

theorem ireg_advance (s : State) (q : SysReg) : ireg (advance s) q = ireg s q := by
  rw [ireg, advance_pend, sreg_advance, ireg]
  simp [seenIndirectly]

/-- What an instruction leaves that writes one System register. -/
theorem writeReg_completes {i : Instr} (hexec : exec i s = .next (advance (writeReg p val s))) :
    ∃ t, Completes i [] false false s { s with sys := t.sys, pend := t.pend } t ∧
      sreg t p = val ∧ (∀ q, q ≠ p → sreg t q = sreg s q) ∧
      (pendingOf p s.pend = [] → ireg t p = sreg t p ∨ ireg t p = sreg s p) := by
  have hwrite := writeReg_eq p val s
  refine ⟨_, completes_made hexec ?_ (by rw [hwrite]) (by rw [hwrite]) (halted_congr (by rw [hwrite]))
    (by rw [hwrite]), ?_, fun q hq => ?_, fun hpend => ?_⟩
  · rw [advance_sys, advance_pend]
    exact hwrite.symm
  · rw [sreg_advance, sreg_writeReg_same _ _ _ (sysIdx_lt p)]
  · rw [sreg_advance, sreg_writeReg_other _ _ _ _ fun h => hq (sysIdx_inj h).symm]
  · rw [ireg_advance, sreg_advance]
    exact ireg_writeReg hpend

/-! ### Views and numbered registers -/

/-- A view that `viewWritten` gives a state for is written to it. -/
theorem writeView_eq_viewWritten (h : viewWritten k a s = some u) : writeView k a s = u := by
  cases k <;> cases h <;> rfl

/-- Such a write moves neither the pc nor the Execution state. -/
theorem viewWritten_keeps (h : viewWritten k a s = some u) :
    u.pc = s.pc ∧ u.offTop = s.offTop ∧ u.dbg = s.dbg ∧ u.ps.nRW = s.ps.nRW := by
  cases k <;> cases h <;> exact ⟨rfl, rfl, rfl, rfl⟩

/-- A view that `viewStores` gives a register for is a write of it. -/
theorem writeView_eq_writeReg (h : viewStores k a s = some (p, val)) : writeView k a s = writeReg p val s := by
  cases k <;> cases h <;> rfl

/-- A view is written where the name reaches one. -/
theorem performWrite_reached_view (h : reached sel (.view v) s = .view k) :
    performWrite sel (.view v) a s = writeView k a s := by
  rw [performWrite, h]
  · rfl
  all_goals nofun

/-- Only SVCR reaches SVCR. -/
theorem ne_SVCR_of_reached (hreached : reached sel (.view v) s = .view k) (hk : k ≠ .SVCR) :
    RegName.view v ≠ .view .SVCR := by
  intro hv
  rw [hv, reached_SVCR] at hreached
  cases hreached
  exact hk rfl

/-- A numbered register is reached by its own name. -/
theorem reached_numbered (h : numberedWritten r a s = some u) : reached sel r s = r := by
  unfold reached
  split
  · cases r with
    | stored _ | view _ => cases h
    | _ => rfl
  · rfl

/-- A numbered register takes the value. -/
theorem performWrite_numbered (h : numberedWritten r a s = some u) :
    performWrite sel r a s = u ∧ u.pc = s.pc ∧ u.offTop = s.offTop ∧ u.dbg = s.dbg ∧ u.ps.nRW = s.ps.nRW := by
  have hreached := reached_numbered (sel := sel) h
  cases r with
  | stored _ | view _ => cases h
  | _ =>
    cases h
    exact ⟨congrArg (writeName · a s) hreached, rfl, rfl, rfl, rfl⟩

end

/-- Settles O24: past `permission` a read is `performRead` and a write `performWrite`; what the latter leaves is
`writeStored_completes`, `writeReg_completes`, or a state given outright. -/
theorem systemRegisterAccess : Obligations.SystemRegisterAccess := by
  unfold Obligations.SystemRegisterAccess
  intro s o0 op1 crn crm op2 rt r
  generalize hsel : selReg o0 op1 crn crm op2 = sel
  have hmrs : exec (.mrs o0 op1 crn crm op2 rt) s = readSys sel rt s := hsel ▸ rfl
  have hmsr : exec (.msr o0 op1 crn crm op2 rt) s = writeSys sel rt s := hsel ▸ rfl
  refine ⟨fun hname hstate => ⟨fun hallowed hccsidr hccsidr2 hrndr hrndrrs hcntkctl hgate => ?read,
      fun hallowed hgate => ?write,
      fun hallowed => ⟨fun q p hr hcntkctl hreached hpmcr => ?stored, fun v k u hr hreached hu => ?view,
        fun v k p val hr hreached hval => ?viewStored, fun u hu => ?numbered⟩,
      fun hundef => hmrs.trans (readSys_undefined hname hstate hundef),
      fun hundef => hmsr.trans (writeSys_undefined hname hstate hundef), fun el htrap hsdd => ?readTrap,
      fun el htrap hsdd => ?writeTrap⟩, fun hname hid hel => ⟨fun htid3 => ?idRead, ?idWrite⟩⟩
  case read =>
    refine ⟨_, completes_writeX ?_ _ _⟩
    rw [hmrs, readSys_performs hname hstate hallowed hgate,
      performRead_reached hccsidr hccsidr2 hrndr hrndrrs hcntkctl]
  case write => exact hmsr.trans (writeSys_performs hname hstate hallowed hgate)
  case stored =>
    subst hr
    refine writeStored_completes hpmcr ?_
    rw [hmsr, writeSys_performs hname hstate hallowed nofun, performWrite_reached hcntkctl hreached]
  case view =>
    subst hr
    obtain ⟨hpc, htop, hdbg, hnRW⟩ := viewWritten_keeps hu
    refine ⟨_, completes_made ?_ rfl hpc htop (halted_congr (by rw [hdbg])) hnRW⟩
    rw [hmsr, writeSys_allowed hname hstate hallowed (ne_SVCR_of_reached hreached (by rintro rfl; cases hu)),
      performWrite_reached_view hreached, writeView_eq_viewWritten hu]
  case viewStored =>
    subst hr
    have hexec : exec (.msr o0 op1 crn crm op2 rt) s = .next (advance (writeReg p val s)) := by
      rw [hmsr, writeSys_allowed hname hstate hallowed (ne_SVCR_of_reached hreached (by rintro rfl; cases hval)),
        performWrite_reached_view hreached, writeView_eq_writeReg hval]
    obtain ⟨t, hcompletes, hsame, hother, -⟩ := writeReg_completes hexec
    exact ⟨t, hcompletes, hsame, hother⟩
  case numbered =>
    obtain ⟨hwrite, hpc, htop, hdbg, hnRW⟩ := performWrite_numbered (sel := sel) hu
    refine ⟨_, completes_made ?_ rfl hpc htop (halted_congr (by rw [hdbg])) hnRW⟩
    rw [hmsr, writeSys_allowed hname hstate hallowed (by rintro rfl; cases hu), hwrite]
  case readTrap =>
    rw [hmrs, readSys_trap hname hstate htrap]
    exact sysTrap_eq (by simp [hsdd])
  case writeTrap =>
    rw [hmsr, writeSys_trap hname hstate htrap]
    exact sysTrap_eq (by simp [hsdd])
  case idRead =>
    have hexec : exec (.mrs o0 op1 crn crm op2 rt) s = .next (advance (writeX rt 0 s)) := by
      simp only [hmrs, readSys, hname, hid, hel, htid3, if_true, if_false, Bool.false_eq_true]
    exact ⟨_, completes_writeX hexec _ _⟩
  case idWrite =>
    have hexec : exec (.msr o0 op1 crn crm op2 rt) s = .next (advance s) := by
      simp only [hmsr, writeSys, hname, hid, hel, if_true, if_false]
    exact ⟨_, completes_nop hexec _ _ _⟩

/-! ### Plain registers at EL3 -/

/-- The selector names a register that needs no feature, whose accesses at EL3 meet no trap, and which holds what is
written, but for bits that are not implemented. -/
structure PlainName (sel : BitVec 15) (r : SysReg) : Prop where
  name : nameOf sel = some (.stored r)
  noFeature : sysFeature r = none
  writable : sysReadOnly r = false
  anyHighest (s : State) : ofHighestEL r s = true
  untrapped : scxtReg r = false ∧ ataReg r = false
  noOwnTrap (w : Bool) (s : State) (h : s.ps.el = .el3) : storedTrap r w s = .allowed
  ownRead : r ≠ .CCSIDR_EL1 ∧ r ≠ .CCSIDR2_EL1 ∧ r ≠ .CNTKCTL_EL1
  value (s : State) : storedValue r s = sreg s r &&& implMask r s
  writes (a : Word) (s : State) :
    writeStored r a s = writeReg r ((a &&& implMask r s) ||| (sreg s r &&& ~~~(implMask r s))) s
  uncounted (s : State) : countWrite r s = s
  wholeMask (s : State) (h : r ≠ .HCR_EL2) : implMask r s = BitVec.allOnes 64

theorem plainRegs_named : ∀ e ∈ plainRegs, PlainName e.1 e.2 := by
  simp only [plainRegs, List.forall_mem_cons]
  refine ⟨?_, ?_, ?_, ?_, ?_, ?_, ?_, ?_, ?_, ?_, ?_, ?_, ?_, ?_, ?_, List.forall_mem_nil _⟩ <;> exact {
    name := by decide
    noFeature := rfl
    writable := rfl
    anyHighest := fun _ => rfl
    untrapped := ⟨rfl, rfl⟩
    noOwnTrap := fun w s h => by simp [storedTrap, h]
    ownRead := by decide
    value := fun _ => rfl
    writes := fun _ _ => rfl
    uncounted := fun _ => rfl
    wholeMask := fun _ h => by simp [implMask] at h ⊢ }

section
variable {sel : BitVec 15} {r : SysReg} {i : Instr} {rt : BitVec 5} {s : State}

/-- At EL3 nothing stands before an access to a plain register. -/
theorem PlainName.permission_eq (hn : PlainName sel r) (hel : s.ps.el = .el3) (w : Bool) :
    permission sel (.stored r) w s = .allowed := by
  have hnv : nvPermission sel s = none := nvPermission_none (.inl (by simp [hel]))
  have hlevel : minLevel sel ≤ elNum s.ps.el := by
    rw [hel]
    unfold minLevel
    split <;> decide
  have hexists : nameExists (.stored r) w s = true := by
    simp [nameExists, hn.noFeature, hn.writable, hn.anyHighest]
  have htid3 : tid3Traps sel (some (.stored r)) s = false := by simp [tid3Traps, hel]
  rw [permission_own hnv hlevel hexists (firstTrap_none (.inr htid3) (by rintro _ ⟨⟩; exact hn.untrapped))]
  exact hn.noOwnTrap w s hel

/-- A stored register is no view of PSTATE: its use in Debug state is defined. -/
theorem storedName_defined (r : SysReg) (s : State) : (halted s && isPstateView (.stored r)) = false := by
  simp [isPstateView]

/-- A read gives the implemented bits. -/
theorem PlainName.completes_read (hn : PlainName sel r) (hel : s.ps.el = .el3) (hexec : exec i s = readSys sel rt s) :
    ∃ t, Completes i [rt] false false s s t ∧ Holds rt (sreg s r &&& implMask r s) t := by
  obtain ⟨hccsidr, hccsidr2, hcntkctl⟩ := hn.ownRead
  have hread : exec i s = .next (advance (writeX rt (storedValue r s) s)) := by
    rw [hexec, readSys_allowed hn.name (storedName_defined r s) (hn.permission_eq hel false) nofun,
      performRead_stored hccsidr hccsidr2 hcntkctl (.inl (by simp [hel]))]
  exact hn.value s ▸ ⟨_, completes_writeX hread _ _⟩

/-- A write is one of the register's implemented bits. -/
theorem PlainName.exec_write (hn : PlainName sel r) (hel : s.ps.el = .el3) (hexec : exec i s = writeSys sel rt s) :
    exec i s = .next (advance (writeReg r
      ((readX rt s &&& implMask r s) ||| (sreg s r &&& ~~~(implMask r s))) s)) := by
  rw [hexec, writeSys_allowed hn.name (storedName_defined r s) (hn.permission_eq hel true) nofun,
    performWrite_stored hn.ownRead.2.2 (.inl (by simp [hel])), hn.writes, hn.uncounted]

end

/-- Settles O25: nothing stands before the access, `PlainName.permission_eq`; the write is `writeReg_completes`. -/
theorem msrWritesTheRegister : Obligations.MsrWritesTheRegister := by
  unfold Obligations.MsrWritesTheRegister
  intro s o0 op1 crn crm op2 rt r hel hmem
  have hn : PlainName (selReg o0 op1 crn crm op2) r := plainRegs_named _ hmem
  obtain ⟨t, ⟨hexec, hframe, hpc⟩, hsame, hother, hindirect⟩ :=
    writeReg_completes (hn.exec_write (i := .msr o0 op1 crn crm op2 rt) (rt := rt) hel rfl)
  refine ⟨⟨t, hexec, hpc, hframe, hsame, fun hr => ?whole, hother, hindirect, ireg_of_synchronised rfl r⟩,
    hn.completes_read hel rfl⟩
  case whole =>
    rw [hsame, hn.wholeMask s hr, BitVec.not_allOnes, BitVec.and_allOnes, BitVec.and_zero, BitVec.or_zero]

end Sys2Proof.Proofs
end

