-- ==== Sys2Proof/Proofs/ExceptionEntry.lean ====
section
/-! What taking an exception saves, what it leaves alone, and where it goes. -/

namespace Sys2Proof.Proofs

open Sys2Proof.Machine Sys2Proof.Safety Sys2Proof.Laws

section
variable (r : ExcReq) (s : State) (q : SysReg)

/-! ### The System registers it saves to -/

/-- The registers that exception entry writes. -/
def entryRegs : List SysReg :=
  [.SPSR_EL1, .SPSR_EL2, .SPSR_EL3, .ELR_EL1, .ELR_EL2, .ELR_EL3, .ESR_EL1, .ESR_EL2, .ESR_EL3,
   .FAR_EL1, .FAR_EL2, .FAR_EL3, .HPFAR_EL2]

theorem savedReg_mem_entryRegs (el : EL) :
    spsrReg el ∈ entryRegs ∧ elrReg el ∈ entryRegs ∧ esrReg el ∈ entryRegs ∧ farReg el ∈ entryRegs := by
  cases el <;> decide

theorem savedRegs_distinct (el : EL) :
    elrReg el ≠ spsrReg el ∧ esrReg el ≠ spsrReg el ∧ farReg el ≠ spsrReg el ∧ .HPFAR_EL2 ≠ spsrReg el ∧
      esrReg el ≠ elrReg el ∧ farReg el ≠ elrReg el ∧ .HPFAR_EL2 ≠ elrReg el ∧
      farReg el ≠ esrReg el ∧ .HPFAR_EL2 ≠ esrReg el ∧ .HPFAR_EL2 ≠ farReg el := by
  cases el <;> decide

theorem sreg_setReg (p : SysReg) (v : Word) : sreg (setReg p v s) q = if p = q then v else sreg s q := by
  split
  · next h => rw [h, sreg_setReg_same _ _ _ (sysIdx_lt q)]
  · next h => exact sreg_setReg_other _ _ _ _ fun e => h (sysIdx_inj e)

/-- The value of a register after the writes of an exception entry, the last one first. -/
theorem sreg_saveForException : sreg (saveForException r s) q =
    if (r.hpfar.isSome = true ∧ r.target = .el2) ∧ SysReg.HPFAR_EL2 = q then r.hpfar.getD 0
    else if r.far.isSome = true ∧ farReg r.target = q then r.far.getD 0
    else if ¬(r.kind = .irq ∨ r.kind = .fiq) ∧ esrReg r.target = q then syndrome r
    else if elrReg r.target = q then r.ret
    else if spsrReg r.target = q then spsrOf s
    else sreg s q := by
  unfold saveForException
  by_cases hinterrupt : r.kind = .irq ∨ r.kind = .fiq <;> by_cases hel2 : r.target = .el2 <;>
    cases r.hpfar <;> cases r.far <;> simp [sreg_setReg, hinterrupt, hel2]

theorem takeException_sys : (takeException r s).sys = (saveForException r s).sys := by
  unfold takeException
  cases exceptionEvent r s with
  | none => cases entrySynchronises r.target s <;> rfl
  | some e =>
    dsimp only
    rw [countEvent_eq]
    cases entrySynchronises r.target s <;> rfl

theorem sreg_takeException : sreg (takeException r s) q = sreg (saveForException r s) q := by
  rw [sreg, takeException_sys, sreg]

variable {r s q}

/-- No other register is written. -/
theorem sreg_takeException_other (hq : q ∉ entryRegs) : sreg (takeException r s) q = sreg s q := by
  obtain ⟨hspsr, helr, hesr, hfar⟩ := savedReg_mem_entryRegs r.target
  have hne {p : SysReg} (hp : p ∈ entryRegs) : p ≠ q := fun h => hq (h ▸ hp)
  rw [sreg_takeException, sreg_saveForException]
  simp [hne hspsr, hne helr, hne hesr, hne hfar, hne (p := .HPFAR_EL2) (by decide)]

theorem sreg_takeException_spsr : sreg (takeException r s) (spsrReg r.target) = spsrOf s := by
  rw [sreg_takeException, sreg_saveForException]
  simp [savedRegs_distinct r.target]

theorem sreg_takeException_elr : sreg (takeException r s) (elrReg r.target) = r.ret := by
  rw [sreg_takeException, sreg_saveForException]
  simp [savedRegs_distinct r.target]

theorem sreg_takeException_esr (h : r.kind = .sync ∨ r.kind = .serror) :
    sreg (takeException r s) (esrReg r.target) = syndrome r := by
  have hkind : ¬(r.kind = .irq ∨ r.kind = .fiq) := by rcases h with h | h <;> simp [h]
  rw [sreg_takeException, sreg_saveForException]
  simp [savedRegs_distinct r.target, hkind]

theorem sreg_takeException_far {a : Word} (h : r.far = some a) : sreg (takeException r s) (farReg r.target) = a := by
  rw [sreg_takeException, sreg_saveForException]
  simp [savedRegs_distinct r.target, h]

/-! ### The context it is taken in -/

variable (r s)

theorem takeException_pc : (takeException r s).pc = vectorBase r.target s + vectorOffset r.target r.kind s := by
  rw [takeException_eq]

theorem takeException_ps : (takeException r s).ps = entryPState r.target s := by rw [takeException_eq]

/-- The context of the entry is that of `s` but for what synchronisation changes. -/
theorem entryContext_cases (el : EL) (s : State) :
    entrySynchronises el s = true ∧ entryContext el s = syncContext s ∨
      entrySynchronises el s = false ∧ entryContext el s = s := by
  unfold entryContext
  cases entrySynchronises el s <;> simp

theorem entrySynchronises_eq_true {el : EL} :
    entrySynchronises el s = true ↔ has .ExS s = false ∨ ibit s (sctlrAt el) 22 = true := by
  simp [entrySynchronises]

theorem entrySynchronises_eq_false {el : EL} :
    entrySynchronises el s = false ↔ has .ExS s = true ∧ ibit s (sctlrAt el) 22 = false := by
  simp [entrySynchronises]

variable {s} in
/-- Where the entry synchronises, what the entry sees is what the registers hold. -/
theorem ireg_entryContext {el : EL} (h : entrySynchronises el s = true) (q : SysReg) :
    ireg (entryContext el s) q = sreg s q := by
  rw [entryContext, if_pos h, ireg_of_synchronised (syncContext_pend s), sreg, syncContext_sys, sreg]

end

/-- Settles O10: the saved registers are read off `sreg_saveForException`, the rest off `takeException_eq`. -/
theorem takingAnException : Obligations.TakingAnException := by
  unfold Obligations.TakingAnException
  intro r s hrun hA64
  refine ⟨takeException r s, raise_eq hA64, sreg_takeException_spsr, sreg_takeException_elr,
    sreg_takeException_esr, fun a h => sreg_takeException_far h, takeException_pc r s, ?_, ?_,
    fun h => ⟨vectorBase_synchronised h, ireg_entryContext h⟩, vectorBase_unsynchronised, fun hnRW => ?_, ?rest⟩
  · rw [takeException_ps]; rfl
  · rw [takeException_ps]; rfl
  · rw [takeException_eq]
    simp [entryUpperHalves, hnRW]
  case rest =>
    rw [takeException_eq]
    obtain ⟨-, hctx⟩ | ⟨-, hctx⟩ := entryContext_cases r.target s <;> simp [hctx]

/-- The upper half of a general register is kept or lost. -/
theorem readX_takeException (r : ExcReq) (s : State) (n : BitVec 5) :
    readX n (takeException r s) = readX n s ∨
      (s.ps.nRW = true ∧ readX n (takeException r s) = ((readX n s).setWidth 32).setWidth 64) := by
  have hx : (takeException r s).x = entryUpperHalves s := by rw [takeException_eq]
  have hread (m : BitVec 5) (t : State) : readX m t = if m = 31 then 0 else t.x.getD m.toNat 0 := rfl
  rw [hread, hread, hx, entryUpperHalves]
  cases hnRW : s.ps.nRW
  · exact .inl rfl
  · by_cases hn : n = 31
    · simp [hn]
    · have hlt : n.toNat < 31 := by bv_omega
      have hget (v : Vector Word 31) : v.getD n.toNat 0 = v[n.toNat] := by simp [Vector.getD, Array.getD, hlt]
      simp only [hn, if_false, if_true, hget, Vector.getElem_mapIdx]
      split <;> simp

/-- Settles O11: an entry that synchronises leaves nothing unsynchronised; one that does not leaves it as it is. -/
theorem exceptionEntrySynchronises : Obligations.ExceptionEntrySynchronises := by
  unfold Obligations.ExceptionEntrySynchronises
  intro r s
  refine ⟨fun h => ?_, fun h => ?_, readX_takeException r s⟩
  · have hctx : entryContext r.target s = syncContext s := if_pos ((entrySynchronises_eq_true s).mpr h)
    have hpend : (takeException r s).pend = [] := by rw [takeException_eq, hctx, syncContext_pend]
    have hpendCtl : (takeException r s).pendCtl = [] := by rw [takeException_eq, hctx, syncContext_pendCtl]
    exact ⟨hpend, hpendCtl, ireg_of_synchronised hpend, ictl_of_synchronised hpendCtl⟩
  · have hctx : entryContext r.target s = s := by
      rw [entryContext, (entrySynchronises_eq_false s).mpr h, if_neg Bool.false_ne_true]
    rw [takeException_eq, hctx]
    exact ⟨rfl, rfl⟩

end Sys2Proof.Proofs
end

