-- ==== Sys2Proof/Proofs/Quiet.lean ====
section
/-! What the parts of an instruction leave as it is before an exception may be taken: all that exception entry reads or saves, and the
privileged registers. -/

namespace Sys2Proof.Proofs

open Sys2Proof.Machine Sys2Proof.Safety Sys2Proof.Laws

/-- The privileged registers hold what they held. -/
def PrivilegedKept (s u : State) : Prop := ∀ q ∈ privileged, sreg u q = sreg s q

/-- Nothing has changed that exception entry reads or saves, no privileged register, no MOVPRFX or reset that is due. -/
structure Quiet (s u : State) : Prop where
  cfg : u.cfg = s.cfg
  ps : u.ps = s.ps
  pend : u.pend = s.pend
  free : u.free = s.free
  movprfx : u.movprfx = s.movprfx
  warmReset : u.warmReset = s.warmReset
  kept : PrivilegedKept s u

section
variable {s t u : State}

theorem PrivilegedKept.trans (h : PrivilegedKept s t) (g : PrivilegedKept t u) : PrivilegedKept s u :=
  fun q hq => (g q hq).trans (h q hq)

theorem privilegedKept_of_sys (h : u.sys = s.sys) : PrivilegedKept s u := fun _ _ => by rw [sreg, h, sreg]

/-- A write of another register keeps them. -/
theorem privilegedKept_setReg {p : SysReg} (hp : p ∉ privileged) (v : Word) (s : State) :
    PrivilegedKept s (setReg p v s) :=
  fun _ hq => sreg_setReg_other _ _ _ _ fun h => hp (sysIdx_inj h ▸ hq)

theorem Quiet.refl (s : State) : Quiet s s := ⟨rfl, rfl, rfl, rfl, rfl, rfl, fun _ _ => rfl⟩

theorem Quiet.trans (h : Quiet s t) (g : Quiet t u) : Quiet s u where
  cfg := g.cfg.trans h.cfg
  ps := g.ps.trans h.ps
  pend := g.pend.trans h.pend
  free := g.free.trans h.free
  movprfx := g.movprfx.trans h.movprfx
  warmReset := g.warmReset.trans h.warmReset
  kept := h.kept.trans g.kept

theorem Quiet.ite {c : Prop} [Decidable c] (ht : Quiet s t) (hu : Quiet s u) : Quiet s (if c then t else u) := by
  split
  · exact ht
  · exact hu

theorem quiet_setReg {p : SysReg} (hp : p ∉ privileged) (v : Word) (s : State) : Quiet s (setReg p v s) :=
  ⟨rfl, rfl, rfl, rfl, rfl, rfl, privilegedKept_setReg hp v s⟩

theorem quiet_writeX (n : BitVec 5) (v : Word) (s : State) : Quiet s (writeX n v s) :=
  ⟨by simp, by simp, by simp, by simp, by simp, by simp, privilegedKept_of_sys (by simp)⟩

/-! ### Memory and the registers of frames -/

theorem quiet_writeByte (k : Nat) (b : Byte) (s : State) : Quiet s (writeByte k b s) :=
  ⟨rfl, rfl, rfl, rfl, rfl, rfl, fun _ _ => rfl⟩

theorem quiet_pmcrResets (v : Word) (s : State) : Quiet s (pmcrResets v s) := by
  have hcounters : Quiet s (if bitAt v 1 then { s with pmevcntr := .replicate 31 0 } else s) :=
    .ite ⟨rfl, rfl, rfl, rfl, rfl, rfl, fun _ _ => rfl⟩ (.refl s)
  unfold pmcrResets
  exact .ite (hcounters.trans (quiet_setReg (by decide) 0 _)) hcounters

theorem quiet_writeExternalPmcr (v : Word) (s : State) : Quiet s (writeExternalPmcr v s) :=
  ((quiet_pmcrResets v s).trans (quiet_setReg (p := .PMCR_EL0) (by decide) _ _)).trans
    ⟨rfl, rfl, rfl, rfl, rfl, rfl, fun _ _ => rfl⟩

/-- An outside agent's write reaches no privileged register. -/
theorem quiet_extWrite (r : ExtReg) (v : Word) (s : State) : Quiet s (extWrite r v s) := by
  cases r with
  | pmcr => exact quiet_writeExternalPmcr v s
  | trcconfigr | pmccntr | pmcntenset | pmcntenclr | pmovsset | pmovsclr => exact quiet_setReg (by decide) _ s
  | edscr | trcacvr | pmevcntr | pmevtyper | errstatus => exact ⟨rfl, rfl, rfl, rfl, rfl, rfl, fun _ _ => rfl⟩
  | _ =>
    simp only [extWrite]
    exact .ite ⟨rfl, rfl, rfl, rfl, rfl, rfl, fun _ _ => rfl⟩ (.refl s)

theorem quiet_writeFrameReg (r : FrameReg) (v : Word) (s : State) : Quiet s (writeFrameReg r v s) := by
  cases r with
  | ext q => exact quiet_extWrite q v s
  | timer n q => cases q <;> exact ⟨rfl, rfl, rfl, rfl, rfl, rfl, fun _ _ => rfl⟩
  | _ => exact ⟨rfl, rfl, rfl, rfl, rfl, rfl, fun _ _ => rfl⟩

theorem quiet_writeFrameByte (f : RegFrame) (off : Nat) (sp : Space) (b : Byte) (s : State) :
    Quiet s (writeFrameByte f off sp b s) := by
  unfold writeFrameByte
  split
  · exact .refl s
  · exact .ite (quiet_writeFrameReg _ _ s) (.refl s)

theorem quiet_afterFrameRead (f : RegFrame) (off : Nat) (sp : Space) (s : State) :
    Quiet s (afterFrameRead f off sp s) := by
  rw [afterFrameRead_eq]
  exact ⟨rfl, rfl, rfl, rfl, rfl, rfl, fun _ _ => rfl⟩

theorem quiet_readLoc (x : Xlat) (k : Nat) (s : State) : Quiet s (readLoc x k s).2 := by
  unfold readLoc
  split
  · exact quiet_afterFrameRead _ _ _ s
  · split
    · exact ⟨rfl, rfl, rfl, rfl, rfl, rfl, fun _ _ => rfl⟩
    · exact .refl s

theorem quiet_readLocs (xs : List Xlat) (k : Nat) (s : State) : Quiet s (readLocs xs k s).2 := by
  induction xs generalizing k s with
  | nil => exact .refl s
  | cons x xs ih =>
    rw [readLocs_cons]
    exact (quiet_readLoc x k s).trans (ih _ _)

theorem quiet_writeLoc (x : Xlat) (b : Byte) (s : State) : Quiet s (writeLoc x b s) := by
  unfold writeLoc
  split
  · exact quiet_writeFrameByte _ _ _ b s
  · exact .ite ⟨rfl, rfl, rfl, rfl, rfl, rfl, fun _ _ => rfl⟩ (quiet_writeByte _ _ s)

theorem quiet_writeLocs (xs : List Xlat) (bs : List Byte) (s : State) : Quiet s (writeLocs xs bs s) := by
  induction xs generalizing bs s with
  | nil => exact .refl s
  | cons x xs ih =>
    cases bs with
    | nil => exact .refl s
    | cons b bs => exact (quiet_writeLoc x b s).trans (ih _ _)

theorem quiet_spoilLocs (xs : List Xlat) (k : Nat) (s : State) : Quiet s (spoilLocs xs k s) := by
  induction xs generalizing k s with
  | nil => exact .refl s
  | cons x xs ih => exact (Quiet.ite (quiet_writeLoc x _ s) (.refl s)).trans (ih _ _)

theorem quiet_partialWrite (xs ts : List Xlat) (bs : List Byte) (s : State) : Quiet s (partialWrite xs ts bs s) :=
  .ite ((quiet_writeLocs xs bs s).trans (quiet_spoilLocs ts 0 _)) (.refl s)

theorem quiet_partialRead (xs : List Xlat) (s : State) : Quiet s (partialRead xs s) :=
  .ite (quiet_readLocs xs 0 s) (.refl s)

theorem quiet_spoilReg (rt base : BitVec 5) (s : State) : Quiet s (spoilReg rt base s) :=
  .ite (quiet_writeX rt _ s) (.refl s)

/-! ### Translation -/

/-- A location, or a fault, in a state where nothing of that has changed. -/
def LocQuiet {α : Type} (s : State) : Loc α → Prop
  | .ok _ u => Quiet s u
  | .fault _ _ u => Quiet s u

theorem LocQuiet.from {α : Type} {m : Loc α} (h : Quiet s t) (g : LocQuiet t m) : LocQuiet s m := by
  cases m <;> exact h.trans g

theorem LocQuiet.bind {α β : Type} {m : Loc α} {k : α → State → Loc β} (h : LocQuiet s m)
    (hk : ∀ a u, LocQuiet u (k a u)) : LocQuiet s (m.bind k) := by
  cases m with
  | ok a u => exact .from h (hk a u)
  | fault k va u => exact h

theorem LocQuiet.ite {α : Type} {c : Prop} [Decidable c] {m n : Loc α} (hm : LocQuiet s m) (hn : LocQuiet s n) :
    LocQuiet s (if c then m else n) := by
  split
  · exact hm
  · exact hn

theorem quiet_updateDescriptors (us : List DescUpdate) (s : State) : Quiet s (updateDescriptors us s) := by
  rw [updateDescriptors_eq]
  exact ⟨rfl, rfl, rfl, rfl, rfl, rfl, fun _ _ => rfl⟩

theorem quiet_faultUpdates (us : List DescUpdate) (s : State) : Quiet s (faultUpdates us s) :=
  quiet_updateDescriptors _ s

theorem quiet_commit (x : Xlat) (s : State) : Quiet s (commit x s) := quiet_updateDescriptors _ s

theorem quiet_fillTlb (old : List TLBEntry) (e : TLBEntry) (s : State) : Quiet s (fillTlb old e s) :=
  .ite ⟨rfl, rfl, rfl, rfl, rfl, rfl, fun _ _ => rfl⟩ (.refl s)

theorem useEntry_quiet (late : Option LateFault) (d : AccDesc) (va a : Word) (e : TLBEntry) (s : State) :
    LocQuiet s (useEntry late d va a e s) := by
  have hfault (us : List DescUpdate) : Quiet s (faultUpdates us s) := quiet_faultUpdates us s
  unfold useEntry useEntry.lateFault
  exact .ite (hfault _) (.ite (.refl s) (.ite (.refl s) (.ite (hfault _) (.ite (hfault _) (.ite (hfault _)
    (.ite (hfault _) (.refl s)))))))

theorem walkAccess_quiet (d : AccDesc) (va a : Word) (old : List TLBEntry) (s : State) :
    LocQuiet s (walkAccess d va a old s) := by
  unfold walkAccess
  split
  case h_1 => exact .refl s
  case h_2 => exact useEntry_quiet ..
  case h_3 => exact .from (quiet_fillTlb ..) (useEntry_quiet ..)

theorem useCached_quiet (d : AccDesc) (va a : Word) (old : List TLBEntry) (e : TLBEntry) (s : State) :
    LocQuiet s (useCached d va a old e s) := by
  have h := useEntry_quiet none d va a e s
  unfold useCached
  split
  case h_1 huse => rwa [huse] at h
  case h_2 huse =>
    rw [huse] at h
    exact .ite (walkAccess_quiet ..) h

theorem lookupIn_quiet (hits : List TLBEntry) (d : AccDesc) (va a : Word) (s : State) :
    LocQuiet s (lookupIn hits d va a s) := by
  unfold lookupIn
  split
  · exact .refl s
  · split
    · exact useCached_quiet ..
    · split
      · exact .refl s
      · exact useCached_quiet ..
    · exact .ite (.refl s) (walkAccess_quiet ..)

theorem findWith_quiet (tlb : List TLBEntry) (d : AccDesc) (va : Word) (s : State) :
    LocQuiet s (findWith tlb d va s) :=
  .ite (.ite (.refl s) (.refl s)) (lookupIn_quiet ..)

theorem settled_quiet {va : Word} {m : Loc Xlat} (h : LocQuiet s m) : LocQuiet s (m.settled va) := by
  refine h.bind fun x u => ?_
  split
  · exact quiet_faultUpdates _ u
  · exact .refl u

theorem lookupWith_quiet (tlb : List TLBEntry) (d : AccDesc) (va : Word) (s : State) :
    LocQuiet s (lookupWith tlb d va s) := settled_quiet (findWith_quiet tlb d va s)

theorem translate_quiet (d : AccDesc) (va : Word) (s : State) : LocQuiet s (translate d va s) :=
  (lookupWith_quiet s.tlb d va s).bind fun x u => quiet_commit x u

/-! ### Locating an access -/

theorem quiet_recordTagFault (va : Word) (s : State) : Quiet s (recordTagFault va s) :=
  quiet_setReg (by unfold tfsrReg; split <;> decide) _ s

theorem finalChecks_quiet (d : AccDesc) (n : Nat) (x : Xlat) (s : State) : LocQuiet s (finalChecks d n x s) := by
  simp only [finalChecks]
  split
  case h_1 => exact .refl s
  case h_2 => exact .ite (Quiet.ite (quiet_recordTagFault _ s) (.refl s)) (.refl s)
  all_goals exact Quiet.ite (quiet_recordTagFault _ s) (.refl s)

theorem checked_quiet (d : AccDesc) (n : Nat) (x : Xlat) (s : State) : LocQuiet s (checked d n x s) := by
  have h := finalChecks_quiet d n x s
  unfold checked
  split
  case h_1 hfinal =>
    rw [hfinal] at h
    exact h.trans (quiet_commit _ _)
  case h_2 hfinal =>
    rw [hfinal] at h
    exact h.trans (quiet_faultUpdates _ _)

theorem attempt_quiet (d : AccDesc) (n : Nat) (bad : Xlat → State → Option AbortKind) (va : Word) (s : State) :
    LocQuiet s (attempt d n bad va s) := by
  refine (findWith_quiet s.tlb d va s).bind fun x u => ?_
  split
  · exact quiet_faultUpdates _ u
  · exact checked_quiet ..

theorem quiet_dropHits (d : AccDesc) (va : Word) (s : State) : Quiet s (dropHits d va s) :=
  ⟨rfl, rfl, rfl, rfl, rfl, rfl, fun _ _ => rfl⟩

theorem locateBy_quiet (d : AccDesc) (n : Nat) (bad : Xlat → State → Option AbortKind) (va : Word) (s : State) :
    LocQuiet s (locateBy d n bad va s) := by
  have h := attempt_quiet d n bad va s
  unfold locateBy
  split
  case h_1 hattempt => rwa [hattempt] at h
  case h_2 hattempt =>
    rw [hattempt] at h
    exact .ite (.from (quiet_dropHits d va s) (attempt_quiet ..)) h

theorem locate_quiet (d : AccDesc) (n : Nat) (va : Word) (m : Bool) (s : State) : LocQuiet s (locate d n va m s) :=
  locateBy_quiet ..

theorem locateSeq_quiet {f : Word → State → Loc Xlat} (hf : ∀ a v, LocQuiet v (f a v)) (stride : Word) (g : Nat)
    (first : Bool) (n : Nat) (va : Word) (s : State) : LocQuiet s (locateSeq f stride g first n va s) := by
  induction n generalizing first va s with
  | zero => exact .refl s
  | succ n ih =>
    rw [locateSeq]
    split
    · exact .refl s
    · exact (hf va s).bind fun x u => (ih false _ u).bind fun xs v => .refl v

theorem locateNth_quiet (d : AccDesc) (n g : Nat) (va : Word) (s : State) : LocQuiet s (locateNth d n g va s) :=
  .ite (.refl s) (.ite (locateSeq_quiet (fun _ _ => locate_quiet ..) ..)
    ((locate_quiet d n va false s).bind fun _ u => .refl u))

end

end Sys2Proof.Proofs
end

