-- ==== Sys2Proof/Proofs/Fates.lean ====
section
/-! What a step can do to the Exception level and to the privileged registers: the two shapes of its end, and how the parts of an
instruction come to one of them. -/

namespace Sys2Proof.Proofs

open Sys2Proof.Machine Sys2Proof.Safety Sys2Proof.Laws

/-! ### The end of a step -/

/-- `t` stands at a vector of its Exception level, with the PSTATE of an exception entry and the PSTATE of `s` saved. -/
structure Entered (s t : State) : Prop where
  pc : ∃ k : VectorKind, t.pc = vectorBase t.ps.el s + vectorOffset t.ps.el k s
  masks : t.ps.d = true ∧ t.ps.a = true ∧ t.ps.i = true ∧ t.ps.f = true
  spsel : t.ps.spsel = true
  nRW : t.ps.nRW = false
  il : t.ps.il = false
  spsr : sreg t (spsrReg t.ps.el) = spsrOf s

/-- A step from `s` may end in `t`: from EL0 the privileged registers are kept, and the level rises by exceptions alone. -/
structure Fate (s t : State) : Prop where
  kept : s.ps.el = .el0 → PrivilegedKept s t
  level : s.movprfx = none → elNum t.ps.el ≤ elNum s.ps.el ∨ Entered s t

/-- What is computed ends a step from `s` as it may end. -/
structure Ends (s : State) (r : Result) : Prop where
  fate : ∀ t, r = .next t → Fate s t

/-- A computation goes on quietly, or ends the step as it may end. -/
def AccEnds {α : Type} (s : State) : Acc α → Prop
  | .ok _ u => Quiet s u
  | .stop r => Ends s r

section
variable {s t u : State} {r : Result}

/-! ### Exceptions -/

theorem Quiet.ireg (h : Quiet s u) {q : SysReg} (hq : q ∈ privileged) : ireg u q = ireg s q := by
  simp only [Machine.ireg, seenIndirectly, h.pend, h.kept q hq, h.free]

theorem controlRegs_privileged (el : EL) : sctlrAt el ∈ privileged ∧ vbarReg el ∈ privileged := by
  cases el <;> decide

theorem Quiet.vectorBase (h : Quiet s u) (el : EL) : vectorBase el u = vectorBase el s := by
  obtain ⟨hsctlr, hvbar⟩ := controlRegs_privileged el
  have hsync : entrySynchronises el u = entrySynchronises el s := by
    rw [entrySynchronises, entrySynchronises, ibit, ibit, has, has, h.cfg, h.ireg hsctlr]
  cases hs : entrySynchronises el s
  · rw [vectorBase_unsynchronised hs, vectorBase_unsynchronised (hsync.trans hs), h.ireg hvbar]
  · rw [vectorBase_synchronised hs, vectorBase_synchronised (hsync.trans hs), h.kept _ hvbar]

theorem Quiet.vectorOffset (h : Quiet s u) (el : EL) (k : VectorKind) :
    vectorOffset el k u = vectorOffset el k s := by
  simp only [Machine.vectorOffset, h.ps]

theorem Quiet.spsrOf (h : Quiet s u) : spsrOf u = spsrOf s := by
  simp only [Machine.spsrOf, modeBits, h.ps]

theorem entered_takeException (e : ExcReq) (s : State) : Entered s (takeException e s) where
  pc := ⟨e.kind, by rw [takeException_pc, takeException_ps]; rfl⟩
  masks := by rw [takeException_ps]; exact ⟨rfl, rfl, rfl, rfl⟩
  spsel := by rw [takeException_ps]; rfl
  nRW := by rw [takeException_ps]; rfl
  il := by rw [takeException_ps]; rfl
  spsr := by rw [takeException_ps]; exact sreg_takeException_spsr

theorem privilegedKept_takeException (e : ExcReq) (s : State) : PrivilegedKept s (takeException e s) :=
  fun _ hq => sreg_takeException_other ((by decide : ∀ q ∈ privileged, q ∉ entryRegs) _ hq)

theorem Entered.from (h : Quiet s u) (g : Entered u t) : Entered s t where
  pc := by
    obtain ⟨k, hk⟩ := g.pc
    exact ⟨k, by rw [hk, h.vectorBase, h.vectorOffset]⟩
  masks := g.masks
  spsel := g.spsel
  nRW := g.nRW
  il := g.il
  spsr := g.spsr.trans h.spsrOf

theorem Fate.from (h : Quiet s u) (g : Fate u t) : Fate s t where
  kept hel := h.kept.trans (g.kept (by rw [h.ps, hel]))
  level hpre := by
    rw [← h.ps]
    exact (g.level (h.movprfx.trans hpre)).imp_right (.from h)

theorem fate_calm (hlevel : elNum t.ps.el ≤ elNum s.ps.el) (hkept : PrivilegedKept s t) : Fate s t :=
  ⟨fun _ => hkept, fun _ => .inl hlevel⟩

/-- Of the next state only the level and the privileged registers count. -/
theorem fate_same (hel : t.ps.el = s.ps.el) (hsys : t.sys = s.sys) : Fate s t :=
  fate_calm (hel ▸ Nat.le_refl _) (privilegedKept_of_sys hsys)

/-! ### Results -/

theorem Ends.from (h : Quiet s u) (g : Ends u r) : Ends s r := ⟨fun t e => .from h (g.fate t e)⟩

theorem ends_raise (e : ExcReq) (s : State) : Ends s (raise e s) := by
  refine ⟨fun t h => ?_⟩
  obtain ⟨-, rfl⟩ := raise_next h
  exact ⟨fun _ => privilegedKept_takeException e s, fun _ => .inr (entered_takeException e s)⟩

theorem ends_undefined (s : State) : Ends s (undefined s) := ends_raise _ s

theorem ends_refused (f : Refusal) (s : State) : Ends s (.refused f) := ⟨fun _ h => by cases h⟩

theorem ends_next (h : Fate s t) : Ends s (.next t) := ⟨by rintro _ ⟨⟩; exact h⟩

theorem ends_calm (hlevel : elNum t.ps.el ≤ elNum s.ps.el) (hkept : PrivilegedKept s t) : Ends s (.next t) :=
  ends_next (fate_calm hlevel hkept)

theorem ends_same (hel : t.ps.el = s.ps.el) (hsys : t.sys = s.sys) : Ends s (.next t) :=
  ends_next (fate_same hel hsys)

theorem ends_advance (s : State) : Ends s (.next (advance s)) := ends_same (by simp) (by simp)

theorem ends_advanceOf (narrow : Bool) (s : State) : Ends s (.next (advanceOf narrow s)) := by
  cases narrow
  · exact ends_advance s
  · exact ends_same (by simp) (by simp)

theorem ends_branchTo (target : Word) (b : BitVec 2) (s : State) : Ends s (.next (branchTo target b s)) :=
  ends_same rfl rfl

theorem Ends.ite {c : Prop} [Decidable c] {q : Result} (hr : Ends s r) (hq : Ends s q) :
    Ends s (if c then r else q) := by
  split
  · exact hr
  · exact hq

/-- A trap that may apply ends a step as it may end. -/
structure TrapEnds (s : State) (trap : Option Result) : Prop where
  ends : ∀ r, trap = some r → Ends s r

theorem trapEnds_none (s : State) : TrapEnds s none := ⟨fun _ h => by cases h⟩

theorem trapEnds_some (h : Ends s r) : TrapEnds s (some r) := ⟨by rintro _ ⟨⟩; exact h⟩

theorem TrapEnds.ite {c : Prop} [Decidable c] {o p : Option Result} (ho : TrapEnds s o) (hp : TrapEnds s p) :
    TrapEnds s (if c then o else p) := by
  split
  · exact ho
  · exact hp

theorem TrapEnds.getD {o : Option Result} (ho : TrapEnds s o) (hr : Ends s r) : Ends s (o.getD r) := by
  cases o with
  | none => exact hr
  | some q => exact ho.ends q rfl

theorem TrapEnds.orElse {o p : Option Result} (ho : TrapEnds s o) (hp : TrapEnds s p) : TrapEnds s (o.or p) := by
  cases o with
  | none => exact hp
  | some q => exact ho

theorem ends_unpredictable {trap : Option Result} (h : TrapEnds s trap) (own : Refusal) :
    Ends s (unpredictable trap own s) := by
  exact ⟨fun t e => (h.ends _ (unpredictable_next e)).fate t rfl⟩

theorem ends_notHalted {trap : Option Result} (h : TrapEnds s trap) (hr : Ends s r) : Ends s (notHalted trap s r) :=
  .ite (ends_unpredictable h _) hr

/-! ### Computations -/

theorem AccEnds.from {α : Type} {m : Acc α} (h : Quiet s u) (g : AccEnds u m) : AccEnds s m := by
  cases m with
  | ok a v => exact h.trans g
  | stop r => exact Ends.from h g

theorem AccEnds.andThen {α : Type} {m : Acc α} {k : α → State → Result} (h : AccEnds s m) (hk : ∀ a u, Ends u (k a u)) :
    Ends s (m.andThen k) := by
  cases m with
  | ok a u => exact .from h (hk a u)
  | stop r => exact h

theorem AccEnds.bind {α β : Type} {m : Acc α} {k : α → State → Acc β} (h : AccEnds s m)
    (hk : ∀ a u, AccEnds u (k a u)) : AccEnds s (m.bind k) := by
  cases m with
  | ok a u => exact .from h (hk a u)
  | stop r => exact h

theorem AccEnds.ite {α : Type} {c : Prop} [Decidable c] {m n : Acc α} (hm : AccEnds s m) (hn : AccEnds s n) :
    AccEnds s (if c then m else n) := by
  split
  · exact hm
  · exact hn

/-! ### Debug state -/

theorem updateEDSCRFields_eq (s : State) : updateEDSCRFields s = { s with dbg := (updateEDSCRFields s).dbg } := by
  unfold updateEDSCRFields
  split <;> rfl

theorem halt_ps_el (reason : BitVec 6) (ret : Word) (s : State) : (halt reason ret s).ps.el = s.ps.el := by
  rw [halt, updateEDSCRFields_eq]
  rfl

theorem sreg_halt_other {q : SysReg} (hdlr : q ≠ .DLR_EL0) (hdspsr : q ≠ .DSPSR_EL0) (reason : BitVec 6) (ret : Word)
    (s : State) : sreg (halt reason ret s) q = sreg s q := by
  have hsys : (halt reason ret s).sys = (setReg .DSPSR_EL0 (spsrOf s) (setReg .DLR_EL0 ret s)).sys := by
    rw [halt, updateEDSCRFields_eq]
    rfl
  rw [sreg, hsys, ← sreg, sreg_setReg, if_neg hdspsr.symm, sreg_setReg, if_neg hdlr.symm]

theorem privilegedKept_halt (reason : BitVec 6) (ret : Word) (s : State) : PrivilegedKept s (halt reason ret s) := by
  have hother : ∀ q ∈ privileged, q ≠ .DLR_EL0 ∧ q ≠ .DSPSR_EL0 := by decide
  exact fun q hq => sreg_halt_other (hother q hq).1 (hother q hq).2 reason ret s

theorem ends_halt (reason : BitVec 6) (ret : Word) (s : State) : Ends s (.next (halt reason ret s)) :=
  ends_calm (by rw [halt_ps_el]) (privilegedKept_halt reason ret s)

/-! ### Interrupts and aborts -/

theorem quiet_intTaken (k : Interrupt) (s : State) : Quiet s (intTaken k s) := by
  cases k <;> exact ⟨rfl, rfl, rfl, rfl, rfl, rfl, fun _ _ => rfl⟩

theorem ends_takeInterrupt (k : Interrupt) (s : State) : Ends s (takeInterrupt k s) :=
  .from (quiet_intTaken k s) (ends_raise _ _)

theorem ends_takeUnmaskedSError {k : State → Result} (h : Ends s (k s)) : Ends s (takeUnmaskedSError s k) :=
  .ite (ends_takeInterrupt _ s) h

theorem ends_watchpointEvent (d : AccDesc) (n : Nat) (va : Word) (s : State) :
    Ends s (watchpointEvent d n va s) := by
  unfold watchpointEvent
  exact .ite (ends_calm (Nat.le_of_eq (congrArg elNum (halt_ps_el ..))) (privilegedKept_halt _ _ s)) (ends_raise _ s)

theorem abort_ends {α : Type} (d : AccDesc) (k : AbortKind) (va : Word) (s : State) :
    AccEnds s (abort d k va s : Acc α) := by
  unfold abort
  split
  · exact ends_watchpointEvent ..
  · exact ends_takeInterrupt _ s
  · exact ends_raise _ s

theorem toAcc_ends {α : Type} {m : Loc α} (h : LocQuiet s m) (d : AccDesc) : AccEnds s (m.toAcc d) := by
  cases m with
  | ok a u => exact h
  | fault k va u => exact .from h (abort_ends d k va u)

/-! ### Memory accesses -/

theorem memRead_ends (d : AccDesc) (n w : Nat) (va : Word) {spoil : State → State} (hspoil : ∀ v, Quiet v (spoil v))
    (s : State) : AccEnds s (memRead d n w va spoil s) := by
  have h := locateNth_quiet d n 0 va s
  unfold memRead locateAll
  split
  case h_1 hloc =>
    rw [hloc] at h
    exact h.trans (quiet_readLocs _ 0 _)
  case h_2 hloc =>
    rw [hloc] at h
    exact .from (h.trans (.ite ((quiet_partialRead _ _).trans (hspoil _)) (.refl _))) (abort_ends ..)

theorem memWrite_ends {w : Nat} (d : AccDesc) (n : Nat) (va : Word) (v : BitVec w) (s : State) :
    AccEnds s (memWrite d n va v s) := by
  have h := locateNth_quiet d n 0 va s
  unfold memWrite locateAll
  split
  case h_1 hloc =>
    rw [hloc] at h
    exact h.trans (quiet_writeLocs _ _ _)
  case h_2 hloc =>
    rw [hloc] at h
    exact .from (h.trans (quiet_partialWrite ..)) (abort_ends ..)

end

end Sys2Proof.Proofs
end

