-- ==== Sys2Proof/Proofs/VectorFates.lean ====
section
/-! The end of the vector, pointer authentication, load, store and SVE instructions. -/

namespace Sys2Proof.Proofs

open Sys2Proof.Machine Sys2Proof.Safety Sys2Proof.Laws

section
variable {s t u : State} {r : Result}

/-! ### General and vector registers -/

theorem quiet_writeXSP (n : BitVec 5) (v : Word) (s : State) : Quiet s (writeXSP n v s) :=
  ⟨by simp, by simp, by simp, by simp, by simp, by simp, privilegedKept_of_sys (by simp)⟩

theorem quiet_writeZ (n : BitVec 5) (v : VReg) (s : State) : Quiet s (writeZ n v s) :=
  ⟨rfl, rfl, rfl, rfl, rfl, rfl, fun _ _ => rfl⟩

theorem quiet_fpFlags {w : Nat} (a b : BitVec w) (s : State) : Quiet s (fpFlags a b s) := quiet_setReg (by decide) _ s

theorem quiet_roundFlags (s : State) : Quiet s (roundFlags s) := quiet_setReg (by decide) _ s

theorem quiet_fmmlaFpsr (s : State) : Quiet s (fmmlaFpsr s) := quiet_setReg (by decide) _ s

theorem quiet_countEventWhere (here : Nat → Bool) (e : BitVec 16) (s : State) : Quiet s (countEventWhere here e s) :=
  .ite ⟨rfl, rfl, rfl, rfl, rfl, rfl, fun _ _ => rfl⟩ (.refl s)

theorem quiet_countEvent (e : BitVec 16) (s : State) : Quiet s (countEvent e s) := quiet_countEventWhere _ e s

theorem quiet_countReduction (k : ReduceInstr) (s : State) : Quiet s (countReduction k s) := by
  rw [countReduction_eq]
  exact ⟨rfl, rfl, rfl, rfl, rfl, rfl, fun _ _ => rfl⟩

theorem quiet_elemFlags (size : BitVec 2) (l : List (Word × Word)) (s : State) : Quiet s (elemFlags size l s) := by
  unfold elemFlags
  induction l generalizing s with
  | nil => exact .refl s
  | cons ab l ih =>
    rw [List.foldl_cons]
    exact (Quiet.ite (quiet_fpFlags _ _ s) (.ite (quiet_fpFlags _ _ s) (quiet_fpFlags _ _ s))).trans (ih _)

theorem quiet_writeFpElems (op : FpOp) (size : BitVec 2) (l : List (Word × Word)) (zd : BitVec 5) (s : State) :
    Quiet s (writeFpElems op size l zd s) :=
  (quiet_writeZ zd _ s).trans (quiet_elemFlags size l _)

theorem quiet_svePredElems (op : FpOp) (size : BitVec 2) (pg : BitVec 3) (l : List (Word × Word)) (zdn : BitVec 5)
    (s : State) : Quiet s (svePredElems op size pg l zdn s) :=
  (quiet_writeZ zdn _ s).trans (quiet_elemFlags size l _)

/-- An instruction that prepares a state quietly and moves on. -/
theorem ends_advance_of (h : Quiet s u) : Ends s (.next (advance u)) := .from h (ends_advance u)

theorem ends_advanceOf_of (h : Quiet s u) (narrow : Bool) : Ends s (.next (advanceOf narrow u)) :=
  .from h (ends_advanceOf narrow u)

theorem ends_branchTo_of (h : Quiet s u) (target : Word) (b : BitVec 2) : Ends s (.next (branchTo target b u)) :=
  .from h (ends_branchTo target b u)

/-! ### The enables of the vector units -/

theorem vecTrapResult_ends (el : EL) (v : VecUnit) (s : State) : Ends s (vecTrapResult el v s) :=
  .ite (ends_undefined s) (ends_raise _ s)

theorem vecException_ends (us : List VecUnit) (s : State) : TrapEnds s (vecException us s) := by
  unfold vecException
  split
  · exact trapEnds_some (ends_undefined s)
  · cases vecTrap us s with
    | none => exact trapEnds_none s
    | some tu => exact trapEnds_some (vecTrapResult_ends tu.1 tu.2 s)

theorem vecGate_ends (us : List VecUnit) (h : Ends s r) : Ends s (vecGate us s r) := (vecException_ends us s).getD h

theorem sveException_ends (long : Bool) (s : State) : TrapEnds s (sveException long s) := by
  have hvec := vecException_ends (sveUnits s) s
  unfold sveException
  split
  · exact trapEnds_some (ends_undefined s)
  · split
    case h_1 hsome => rwa [hsome] at hvec
    case h_2 =>
      exact .ite (trapEnds_some (ends_raise _ s)) (.ite (trapEnds_some (ends_undefined s)) (trapEnds_none s))

theorem fpScalar_ends (w : Nat) (op : FpOp) (rm rn rd : BitVec 5) (s : State) : Ends s (fpScalar w op rm rn rd s) :=
  vecGate_ends _ (ends_advance_of ((quiet_writeZ rd _ s).trans (quiet_fpFlags _ _ _)))

theorem execMovprfx_ends (zn zd : BitVec 5) (s : State) : Ends s (execMovprfx zn zd s) :=
  .ite (ends_undefined s) (vecGate_ends _ (ends_same (by simp) (by simp)))

theorem execMovprfxPred_ends (size : BitVec 2) (m : BitVec 1) (pg : BitVec 3) (zn zd : BitVec 5) (s : State) :
    Ends s (execMovprfxPred size m pg zn zd s) :=
  .ite (ends_undefined s) (vecGate_ends _ (ends_same (advance_ps_el _) (advance_sys _)))

theorem execFmmlaS_ends (zm zn zda : BitVec 5) (s : State) : Ends s (execFmmlaS zm zn zda s) :=
  (sveException_ends false s).getD (ends_advance_of ((quiet_writeZ zda _ s).trans (quiet_fmmlaFpsr _)))

theorem execFmmlaD_ends (zm zn zda : BitVec 5) (s : State) : Ends s (execFmmlaD zm zn zda s) :=
  (sveException_ends true s).getD (ends_advance_of ((quiet_writeZ zda _ s).trans (quiet_fmmlaFpsr _)))

/-! ### Pointer authentication -/

theorem pacTrap_ends (k : PacKey) (s : State) : TrapEnds s (pacTrap k s) :=
  .ite (trapEnds_some (ends_raise _ s)) (trapEnds_none s)

theorem pacgaTrap_ends (s : State) : TrapEnds s (pacgaTrap s) :=
  .ite (trapEnds_some (ends_raise _ s)) (trapEnds_none s)

theorem pacGate_ends (k : PacKey) (hint : Bool) (h : Ends s r) : Ends s (pacGate k hint s r) :=
  .ite (.ite (ends_advance s) (ends_undefined s)) (.ite (ends_advance s) (.ite (ends_raise _ s) h))

theorem pacInsert_ends (k : PacKey) (hint : Bool) (rd : BitVec 5) (m : Word) (s : State) :
    Ends s (pacInsert k hint rd m s) :=
  pacGate_ends k hint (ends_advance_of (quiet_writeX rd _ s))

theorem pacCheck_ends (k : PacKey) (hint : Bool) (rd : BitVec 5) (m : Word) (s : State) :
    Ends s (pacCheck k hint rd m s) :=
  pacGate_ends k hint (.ite (ends_raise _ s) (ends_advance_of (quiet_writeX rd _ s)))

theorem authCombined_ends {k : PacKey} {ptr m : Word} {onFail : State → State} {cont : Word → Result}
    (hfail : Quiet s (onFail s)) (h : ∀ a, Ends s (cont a)) : Ends s (authCombined k ptr m s onFail cont) :=
  .ite (ends_undefined s) (.ite (h _) (.ite (ends_raise _ s) (.ite (.from hfail (ends_raise _ _)) (h _))))

theorem needsPAuth_ends (h : Ends s r) : Ends s (needsPAuth s r) := .ite h (ends_undefined s)

theorem execPacga_ends (rm rn rd : BitVec 5) (s : State) : Ends s (execPacga rm rn rd s) :=
  .ite (ends_undefined s) (.ite (ends_raise _ s) (ends_advance_of (quiet_writeX rd _ s)))

/-! ### Loads and stores -/

theorem baseReg_ends (n : BitVec 5) (s : State) : AccEnds s (baseReg n s) :=
  .ite (m := .stop _) (n := .ok _ s) (ends_raise _ s) (.refl s)

theorem baseException_ends (n : BitVec 5) (s : State) : TrapEnds s (baseException n s) := by
  have h := baseReg_ends n s
  unfold baseException
  cases hbase : baseReg n s with
  | ok v u => exact trapEnds_none s
  | stop q =>
    rw [hbase] at h
    exact trapEnds_some h

theorem execStrX_ends (imm12 : BitVec 12) (rn rt : BitVec 5) (s : State) : Ends s (execStrX imm12 rn rt s) :=
  (baseReg_ends rn s).andThen fun _ u => (memWrite_ends _ _ _ _ u).andThen fun _ v => ends_advance v

theorem execLdrX_ends (imm12 : BitVec 12) (rn rt : BitVec 5) (s : State) : Ends s (execLdrX imm12 rn rt s) :=
  (baseReg_ends rn s).andThen fun _ u =>
    (memRead_ends _ _ _ _ (quiet_spoilReg rt rn) u).andThen fun _ v => ends_advance_of (quiet_writeX rt _ v)

theorem loadAt_ends (d : AccDesc) (addr : Word) (writeback : Bool) (rn rt : BitVec 5) (s : State) :
    Ends s (loadAt d addr writeback rn rt s) :=
  (memRead_ends _ _ _ _ (quiet_spoilReg rt rn) s).andThen fun v u =>
    ends_advance_of (.ite ((quiet_writeX rt v u).trans (quiet_writeXSP rn addr _)) (quiet_writeX rt v u))

theorem execLdrXPre_ends (imm9 : BitVec 9) (rn rt : BitVec 5) (s : State) : Ends s (execLdrXPre imm9 rn rt s) :=
  .ite (ends_unpredictable (trapEnds_none s) _) ((baseReg_ends rn s).andThen fun _ u => loadAt_ends _ _ _ _ _ u)

theorem quiet_failedLoad (d : AccDesc) (addr : Word) (s : State) : Quiet s (failedLoad d addr s) := by
  have h := locateNth_quiet d 8 0 addr s
  unfold failedLoad locateAll
  split
  · split
    case h_1 hloc =>
      rw [hloc] at h
      exact .ite (h.trans (quiet_readLocs _ 0 _)) (.refl s)
    case h_2 => exact .refl s
  · exact .refl s

theorem execLdra_ends (m sbit : BitVec 1) (imm9 : BitVec 9) (w : BitVec 1) (rn rt : BitVec 5) (s : State) :
    Ends s (execLdra m sbit imm9 w rn rt s) :=
  .ite (ends_undefined s) ((baseReg_ends rn s).andThen fun _ u =>
    authCombined_ends (quiet_failedLoad _ _ u) fun _ =>
      .from (.ite (quiet_failedLoad _ _ u) (.refl u)) (loadAt_ends _ _ _ _ _ _))

/-! ### SVE loads and stores -/

theorem sveBase_ends (m : SveAccess) (s : State) : AccEnds s (m.base s) := by
  unfold SveAccess.base
  split
  · exact Quiet.refl s
  · exact baseReg_ends m.rn s

theorem locateList_quiet (d : AccDesc) (n more : Nat) (first : Bool) (as : List Word) (s : State) :
    LocQuiet s (locateList d n more first as s) := by
  induction as generalizing first s with
  | nil => exact Quiet.refl s
  | cons a as ih =>
    rw [locateList]
    split
    · exact Quiet.refl s
    · exact (locateNth_quiet ..).bind fun _ u => (ih false u).bind fun _ v => Quiet.refl v

theorem quiet_readElems (xss : List (List Xlat)) (s : State) : Quiet s (readElems xss s).2 := by
  induction xss generalizing s with
  | nil => exact .refl s
  | cons xs xss ih => exact (quiet_readLocs xs 0 s).trans (ih _)

theorem quiet_writeElems (bytes : Nat) (xss : List (List Xlat)) (vs : List Word) (s : State) :
    Quiet s (writeElems bytes xss vs s) := by
  induction xss generalizing vs s with
  | nil => exact .refl s
  | cons xs xss ih =>
    cases vs with
    | nil => exact .refl s
    | cons v vs => exact (quiet_writeLocs xs _ s).trans (ih _ _)

theorem quiet_spoilZ (zt : BitVec 5) (s : State) : Quiet s (spoilZ zt s) := .ite (quiet_writeZ zt _ s) (.refl s)

theorem quiet_spoilFaultLoad (zt : BitVec 5) (s : State) : Quiet s (spoilFaultLoad zt s) :=
  (quiet_spoilZ zt s).trans (.ite ⟨rfl, rfl, rfl, rfl, rfl, rfl, fun _ _ => rfl⟩ (.refl _))

theorem loadElems_ends (m : SveAccess) (whole : Nat) (es : List Nat) (others : Bool) (more : Nat)
    {spoil : State → State} (hspoil : ∀ v, Quiet v (spoil v)) (base : Word) (s : State) :
    AccEnds s (loadElems m whole es others more spoil base s) := by
  have h := locateList_quiet (m.desc false false) (sizeBytes m.msize) more true (es.map (m.addr whole base s)) s
  unfold loadElems
  dsimp only
  split
  case h_1 hloc =>
    rw [hloc] at h
    exact h.trans (quiet_readElems _ _)
  case h_2 hloc =>
    rw [hloc] at h
    exact .from (h.trans (.ite ((quiet_partialRead _ _).trans (hspoil _)) (.refl _))) (abort_ends ..)

theorem sveLoadRegular_ends (m : SveAccess) (signed : Bool) (zt : BitVec 5) (s : State) :
    Ends s (sveLoadRegular m signed zt s) :=
  (sveBase_ends m s).andThen fun _ u => (loadElems_ends m _ _ _ _ (quiet_spoilZ zt) _ u).andThen fun _ v =>
    ends_advance_of (quiet_writeZ zt _ v)

theorem sveStoreEffect_ends (m : SveAccess) (zt : BitVec 5) (s : State) : Ends s (sveStoreEffect m zt s) := by
  refine (sveBase_ends m s).andThen fun base u => ?_
  have h := locateList_quiet (m.desc true false) (sizeBytes m.msize) 0 true
    ((m.actives (elemCount m.esize u) u).map (m.addr (m.whole u) base u)) u
  dsimp only
  split
  case h_1 hloc =>
    rw [hloc] at h
    exact ends_advance_of (h.trans (quiet_writeElems _ _ _ _))
  case h_2 hloc =>
    rw [hloc] at h
    exact .from (h.trans (quiet_partialWrite _ _ _ _)) ((abort_ends ..).andThen fun _ v => ends_same rfl rfl)

theorem nonFaultElem_ends (m : SveAccess) (first : Bool) (left e : Nat) (zt : BitVec 5) (va : Word) (s : State) :
    AccEnds s (nonFaultElem m first left e zt va s) := by
  have h := locateNth_quiet (m.desc false true) (sizeBytes m.msize) (accessNumber 0 left) va s
  unfold nonFaultElem
  dsimp only
  split
  · exact .from (quiet_spoilFaultLoad zt s) (abort_ends ..)
  · split
    case h_1 hloc =>
      rw [hloc] at h
      exact .from ((h.trans (quiet_partialRead _ _)).trans (quiet_spoilFaultLoad zt _)) (abort_ends ..)
    case h_2 hloc =>
      rw [hloc] at h
      exact h
    case h_3 hloc =>
      rw [hloc] at h
      exact .ite (m := .ok _ _) (n := .ok _ _) (Quiet.refl s) (h.trans (quiet_readLocs _ 0 _))

theorem nonFaultElems_ends (m : SveAccess) (signed : Bool) (actives : List Nat) (zt : BitVec 5) (base : Word)
    (first : Bool) (es : List Nat) (ffr : PReg) (o : Bool) (s : State) :
    AccEnds s (nonFaultElems m signed actives zt base first es ffr o s) := by
  induction es generalizing ffr o s with
  | nil => exact Quiet.refl s
  | cons e es ih =>
    rw [nonFaultElems]
    refine AccEnds.bind (.ite (nonFaultElem_ends ..) (Quiet.refl s)) fun r u => ?_
    exact (ih _ _ u).bind fun _ v => Quiet.refl v

theorem endFaultLoad_ends (m : SveAccess) (zt : BitVec 5) (l : List (Nat × Word)) (ffr : PReg) (s : State) :
    Ends s (endFaultLoad m zt l ffr s) :=
  ends_same (by simp) (by simp)

theorem sveLoadNonFault_ends (m : SveAccess) (signed : Bool) (zt : BitVec 5) (s : State) :
    Ends s (sveLoadNonFault m signed zt s) :=
  (sveBase_ends m s).andThen fun _ u => (nonFaultElems_ends m _ _ _ _ _ _ _ _ u).andThen fun _ v =>
    endFaultLoad_ends _ _ _ _ v

theorem sveLoadFirstFault_ends (m : SveAccess) (signed : Bool) (zt : BitVec 5) (s : State) :
    Ends s (sveLoadFirstFault m signed zt s) := by
  refine (sveBase_ends m s).andThen fun base u => ?_
  dsimp only
  split
  · exact ends_advance_of (quiet_writeZ zt 0 u)
  · exact (loadElems_ends m _ _ _ _ (quiet_spoilFaultLoad zt) _ u).andThen fun _ v =>
      (nonFaultElems_ends m _ _ _ _ _ _ _ _ v).andThen fun _ w => endFaultLoad_ends _ _ _ _ w

theorem ld1roEffect_ends (m : SveAccess) (zt : BitVec 5) (s : State) : Ends s (ld1roEffect m zt s) :=
  (sveBase_ends m s).andThen fun _ u => (loadElems_ends m _ _ _ _ (quiet_spoilZ zt) _ u).andThen fun _ v =>
    ends_advance_of (quiet_writeZ zt _ v)

theorem permuteQEffect_ends (op : PermuteOp) (zm zn zd : BitVec 5) (s : State) :
    Ends s (permuteQEffect op zm zn zd s) := ends_advance_of (quiet_writeZ zd _ s)

end

end Sys2Proof.Proofs
end

