-- ==== Sys2Proof/Proofs/RegisterFates.lean ====
section
/-! The end of an access to a System register: no write by its name leaves the Exception level, and none at EL0 reaches a privileged
register. -/

namespace Sys2Proof.Proofs

open Sys2Proof.Machine Sys2Proof.Safety Sys2Proof.Laws

section
variable {s t u : State} {r : Result}

/-! ### What a write changes -/

theorem writeReg_ps (q : SysReg) (v : Word) (s : State) : (writeReg q v s).ps = s.ps := by rw [writeReg_eq]

theorem privilegedKept_writeReg {q : SysReg} (hq : q ∉ privileged) (v : Word) (s : State) :
    PrivilegedKept s (writeReg q v s) :=
  fun _ hp => sreg_writeReg_other _ _ _ _ fun h => hq (sysIdx_inj h ▸ hp)

theorem writeStored_ps (q : SysReg) (v : Word) (s : State) : (writeStored q v s).ps = s.ps := by
  by_cases hpmcr : q = .PMCR_EL0
  · subst hpmcr
    exact (writeReg_ps _ _ _).trans (quiet_pmcrResets v s).ps
  · rw [writeStored_state hpmcr]

theorem privilegedKept_writeStored {q : SysReg} (hq : q ∉ privileged) (v : Word) (s : State) :
    PrivilegedKept s (writeStored q v s) := by
  by_cases hpmcr : q = .PMCR_EL0
  · subst hpmcr
    exact (quiet_pmcrResets v s).kept.trans (privilegedKept_writeReg hq _ _)
  · exact fun p hp => (sreg_writeStored hpmcr v s).2 p fun h => hq (h ▸ hp)

theorem changeSM_calm (sm : Bool) (s : State) :
    (changeSM sm s).ps.el = s.ps.el ∧ (changeSM sm s).sys = s.sys := by
  unfold changeSM
  split <;> exact ⟨rfl, rfl⟩

theorem changeZA_calm (za : Bool) (s : State) :
    (changeZA za s).ps.el = s.ps.el ∧ (changeZA za s).sys = s.sys := by
  unfold changeZA smeStateChange
  split
  · exact ⟨rfl, rfl⟩
  · split <;> exact ⟨rfl, rfl⟩

/-- A write of a view keeps the level, and the privileged registers. -/
theorem writeView_calm (w : View) (v : Word) (s : State) :
    (writeView w v s).ps.el = s.ps.el ∧ PrivilegedKept s (writeView w v s) := by
  cases w with
  | SVCR =>
    have hsm := changeSM_calm (bitAt v 0) s
    have hza := changeZA_calm (bitAt v 1) (changeSM (bitAt v 0) s)
    exact ⟨hza.1.trans hsm.1, privilegedKept_of_sys (hza.2.trans hsm.2)⟩
  | CNTP_TVAL_EL0 | CNTV_TVAL_EL0 | CNTHP_TVAL_EL2 | CNTHV_TVAL_EL2 | CNTPS_TVAL_EL1 | PMCNTENCLR_EL0 | PMOVSCLR_EL0 =>
    exact ⟨congrArg PState.el (writeReg_ps _ _ s), privilegedKept_writeReg (by decide) _ s⟩
  | PMXEVTYPER_EL0 =>
    simp only [writeView]
    split
    · exact ⟨by simp, privilegedKept_of_sys (by simp)⟩
    · exact ⟨rfl, fun _ _ => rfl⟩
  | _ => exact ⟨rfl, fun _ _ => rfl⟩

theorem writeName_el (n : RegName) (v : Word) (s : State) : (writeName n v s).ps.el = s.ps.el := by
  cases n with
  | stored q => exact congrArg PState.el (writeStored_ps q v s)
  | view w => exact (writeView_calm w v s).1
  | _ => rfl

/-- A name that is not of a privileged register. -/
def unprivilegedName : RegName → Bool
  | .stored q => !privileged.contains q
  | _ => true

theorem privilegedKept_writeName {n : RegName} (h : unprivilegedName n = true) (v : Word) (s : State) :
    PrivilegedKept s (writeName n v s) := by
  cases n with
  | stored q => exact privilegedKept_writeStored (by simpa [unprivilegedName] using h) v s
  | view w => exact (writeView_calm w v s).2
  | _ => exact fun _ _ => rfl

theorem quiet_countWrite (q : SysReg) (s : State) : Quiet s (countWrite q s) := by
  rw [(countWrite_eq q s).1]
  exact ⟨rfl, rfl, rfl, rfl, rfl, rfl, fun _ _ => rfl⟩

theorem performWrite_el (sel : BitVec 15) (n : RegName) (v : Word) (s : State) :
    (performWrite sel n v s).ps.el = s.ps.el := by
  unfold performWrite
  split
  · split <;> rw [writeReg_ps]
  · rw [(quiet_countWrite _ _).ps, writeName_el]
  · exact writeName_el _ _ _

/-- A write at a level other than EL2 is one of the register named. -/
theorem privilegedKept_performWrite {sel : BitVec 15} {n : RegName} (h : unprivilegedName n = true) (v : Word)
    (hel : s.ps.el ≠ .el2) : PrivilegedKept s (performWrite sel n v s) := by
  unfold performWrite
  split
  · rw [if_neg fun c => hel c.1]
    exact privilegedKept_writeReg (by decide) v s
  · rw [reached_same (.inl hel)]
    exact (privilegedKept_writeName h v s).trans (quiet_countWrite _ _).kept
  · rw [reached_same (.inl hel)]
    exact privilegedKept_writeName h v s

/-! ### Names of EL0 -/

/-- A selector that is found has its name in the table. -/
theorem lookupName_mem {sel : BitVec 15} {n : RegName} {l : List (BitVec 15 × RegName)}
    (h : lookupName sel l = some n) : (sel, n) ∈ l := by
  induction l with
  | nil => cases h
  | cons e l ih =>
    obtain ⟨k, q⟩ := e
    rw [lookupName] at h
    split at h
    · next hk =>
      cases h
      rw [hk]
      exact List.mem_cons_self
    · exact List.mem_cons_of_mem _ (ih h)

/-- Where its op1 is 3, which EL0 may use, the name is of no privileged register. -/
def userSafe (e : BitVec 15 × RegName) : Bool := selOp1 e.1 != 3 || unprivilegedName e.2

theorem regNames_userSafe : regNames.all userSafe = true := by
  have ha : regNames_a.all userSafe = true := by decide
  have hb : regNames_b.all userSafe = true := by decide
  have hc : regNames_c.all userSafe = true := by decide
  have hd : regNames_d.all userSafe = true := by decide
  have he : regNames_e.all userSafe = true := by decide
  have hf : regNames_f.all userSafe = true := by decide
  simp only [regNames, List.all_append, ha, hb, hc, hd, he, hf, Bool.and_self]

/-- No privileged register has a name whose op1 is 3. -/
theorem unprivilegedName_of_user_name {e : BitVec 15 × RegName} (he : e ∈ regNames) (h : selOp1 e.1 = 3) :
    unprivilegedName e.2 = true := by
  simpa [userSafe, h] using List.all_eq_true.mp regNames_userSafe e he

theorem numberedName_unprivileged {sel : BitVec 15} {n : RegName} (h : numberedName sel = some n) :
    unprivilegedName n = true := by
  cases n with
  | stored q =>
    exfalso
    unfold numberedName at h
    dsimp only at h
    split at h
    · split_ifs at h <;> cases h
    · split at h
      · split at h
        · split at h <;> cases h
        · cases h
      · split_ifs at h
        cases h
  | _ => rfl

theorem selOp1_of_minLevel {sel : BitVec 15} (h : minLevel sel = 0) : selOp1 sel = 3 := by
  unfold minLevel at h
  split at h
  case h_1 h3 => exact BitVec.eq_of_toNat_eq h3
  all_goals cases h

/-- What EL0 may write by a name is no privileged register. -/
theorem unprivilegedName_of_user {sel : BitVec 15} {n : RegName} {write : Bool} (hname : nameOf sel = some n)
    (hel : s.ps.el = .el0) (h : permission sel n write s = .allowed) : unprivilegedName n = true := by
  have hlevel : minLevel sel = 0 := by
    unfold permission at h
    split at h
    · cases h
    · split at h
      · cases h
      · next hmin => simpa [nvNames, hel, elNum] using hmin
  unfold nameOf at hname
  split at hname
  case h_1 hlookup =>
    cases hname
    exact unprivilegedName_of_user_name (lookupName_mem hlookup) (selOp1_of_minLevel hlevel)
  case h_2 => exact numberedName_unprivileged hname

/-! ### MRS and MSR -/

/-- A step that keeps the level may end if, from EL0, it keeps the privileged registers. -/
theorem ends_writing (hel : t.ps.el = s.ps.el) (hkept : s.ps.el = .el0 → PrivilegedKept s t) : Ends s (.next t) :=
  ends_next ⟨hkept, fun _ => .inl (Nat.le_of_eq (congrArg elNum hel))⟩

theorem sysTrap_ends (el : EL) (sel : BitVec 15) (rt : BitVec 5) (read : Bool) (s : State) :
    Ends s (sysTrap el sel rt read s) := .ite (ends_undefined s) (ends_raise _ s)

theorem permissionTrap_ends (sel : BitVec 15) (n : RegName) (rt : BitVec 5) (write : Bool) (s : State) :
    TrapEnds s (permissionTrap sel n rt write s) := by
  unfold permissionTrap
  split
  · exact trapEnds_some (sysTrap_ends ..)
  · exact .ite (vecException_ends _ s) (trapEnds_none s)
  · exact trapEnds_none s

theorem accessGate_ends (n : RegName) (h : Ends s r) : Ends s (accessGate n s r) := .ite (vecGate_ends _ h) h

theorem unknownReg_ends (sel : BitVec 15) (s : State) : Ends s (unknownReg sel s) :=
  .ite (ends_undefined s) (ends_refused _ s)

/-- Back in the level of `s`, what was quiet in the context of EL2 is quiet from `s`. -/
theorem quiet_of_vncrContext (h : Quiet (vncrContext s) u) : Quiet s { u with ps := s.ps } :=
  ⟨h.cfg, rfl, h.pend, h.free, h.movprfx, h.warmReset, h.kept⟩

theorem vncrLocate_ends (write : Bool) (addr : Word) (s : State) : AccEnds s (vncrLocate write addr s) := by
  have h := locateNth_quiet (vncrDesc write) 8 0 addr (vncrContext s)
  unfold vncrLocate locateAll
  split
  case h_1 hloc =>
    rw [hloc] at h
    exact quiet_of_vncrContext h
  case h_2 hloc =>
    rw [hloc] at h
    exact .from (quiet_of_vncrContext h) (ends_raise _ _)

theorem readCcsidr_ends (sel : BitVec 15) (second : Bool) (rt : BitVec 5) (s : State) :
    Ends s (readCcsidr sel second rt s) := by
  unfold readCcsidr
  split
  · exact ends_advance_of (quiet_writeX rt _ s)
  · exact .ite (ends_advance s) (.ite (.ite (sysTrap_ends ..) (ends_undefined s)) (ends_advance_of (quiet_writeX rt _ s)))

theorem performRead_ends (sel : BitVec 15) (n : RegName) (rt : BitVec 5) (s : State) :
    Ends s (performRead sel n rt s) := by
  have hrandom : Ends s (readRandom rt s) := ends_same (by simp) (by simp)
  unfold performRead
  split
  · exact readCcsidr_ends ..
  · exact readCcsidr_ends ..
  · exact hrandom
  · exact hrandom
  · exact .ite (ends_advance_of (quiet_writeX rt _ s)) (ends_advance_of (quiet_writeX rt _ s))
  · exact ends_advance_of (quiet_writeX rt _ s)

theorem readSys_ends (sel : BitVec 15) (rt : BitVec 5) (s : State) : Ends s (readSys sel rt s) := by
  have hwrite (v : Word) (u : State) : Ends u (.next (advance (writeX rt v u))) := ends_advance_of (quiet_writeX rt v u)
  unfold readSys
  split
  · refine .ite (ends_unpredictable (permissionTrap_ends ..) _) ?_
    split
    · exact ends_undefined s
    · exact sysTrap_ends ..
    · exact (vncrLocate_ends ..).andThen fun xs u => .from (quiet_readLocs xs 0 u) (hwrite _ _)
    · exact accessGate_ends _ (performRead_ends ..)
  · refine .ite (.ite (ends_undefined s) (.ite (sysTrap_ends ..) (hwrite _ s))) ?_
    split
    · exact .ite (hwrite _ s) (ends_undefined s)
    · exact unknownReg_ends sel s

theorem writeSys_ends (sel : BitVec 15) (rt : BitVec 5) (s : State) : Ends s (writeSys sel rt s) := by
  unfold writeSys
  split
  next n hname =>
    refine .ite (ends_unpredictable (permissionTrap_ends ..) _) ?_
    split
    · exact ends_undefined s
    · exact sysTrap_ends ..
    · refine (vncrLocate_ends ..).andThen fun xs u => ?_
      split
      · exact ends_advance_of ((quiet_writeLocs xs _ u).trans (quiet_countWrite _ _))
      · exact ends_advance_of (quiet_writeLocs xs _ u)
    next hallowed =>
      refine accessGate_ends _ (ends_writing ((advance_ps_el _).trans (performWrite_el ..)) fun hel => ?_)
      exact (privilegedKept_performWrite (unprivilegedName_of_user hname hel hallowed) _ (by simp [hel])).trans
        (privilegedKept_of_sys (advance_sys _))
  · refine .ite (.ite (ends_undefined s) (ends_advance s)) ?_
    split
    next n hname =>
      split
      next hallowed =>
        refine ends_writing ((advance_ps_el _).trans (writeName_el ..)) fun hel => ?_
        simp [aliasAllowed, hel] at hallowed
      next => exact ends_undefined s
    · exact unknownReg_ends sel s

end

end Sys2Proof.Proofs
end

