-- ==== Sys2Proof/Proofs/ControlFates.lean ====
section
/-! The end of a branch, an exception generating instruction, an exception return, a wait, a move of PSTATE, an A32 instruction. -/

namespace Sys2Proof.Proofs

open Sys2Proof.Machine Sys2Proof.Safety Sys2Proof.Laws

section
variable {s t u : State} {r : Result}

/-! ### PSTATE and branches -/

theorem daifTrap_ends (crm : BitVec 4) (op2 : BitVec 3) (s : State) : TrapEnds s (daifTrap crm op2 s) :=
  .ite (trapEnds_some (ends_raise _ s)) (trapEnds_none s)

theorem daifAccess_ends (crm : BitVec 4) (op2 : BitVec 3) (h : Ends s r) : Ends s (daifAccess crm op2 s r) :=
  ends_notHalted (daifTrap_ends crm op2 s) ((daifTrap_ends crm op2 s).getD h)

/-- An instruction that writes the pc or PSTATE and that no control traps. -/
theorem ends_running (h : Ends s r) : Ends s (notHalted none s r) := ends_notHalted (trapEnds_none s) h

theorem branchAuth_ends (k : PacKey) (rn : BitVec 5) (m : Word) (s : State) : Ends s (branchAuth k rn m s) :=
  needsPAuth_ends (ends_notHalted (pacTrap_ends k s) (authCombined_ends (.refl s) fun _ => ends_branchTo ..))

theorem linkAuth_ends (k : PacKey) (rn : BitVec 5) (m : Word) (s : State) : Ends s (linkAuth k rn m s) :=
  needsPAuth_ends (ends_notHalted (pacTrap_ends k s)
    (authCombined_ends (.refl s) fun _ => ends_branchTo_of (quiet_writeX 30 _ s) ..))

theorem returnAuth_ends (k : PacKey) (s : State) : Ends s (returnAuth k s) :=
  needsPAuth_ends (ends_notHalted (pacTrap_ends k s) (authCombined_ends (.refl s) fun _ => ends_branchTo ..))

theorem branchIf_ends (c : Bool) (imm : BitVec 19) (s : State) : Ends s (branchIf c imm s) := by
  refine ends_running ?_
  split
  · exact ends_branchTo ..
  · exact ends_advance s

/-! ### Exceptions and returns -/

theorem execHvc_ends (imm16 : BitVec 16) (s : State) : Ends s (execHvc imm16 s) := .ite (ends_undefined s) (ends_raise _ s)

theorem execSmc_ends (imm16 : BitVec 16) (s : State) : Ends s (execSmc imm16 s) := .ite (ends_undefined s) (ends_raise _ s)

theorem execHlt_ends (imm16 : BitVec 16) (s : State) : Ends s (execHlt imm16 s) := .ite (ends_halt ..) (ends_undefined s)

@[simp] theorem restoreFlags64_el (v : Word) (s : State) (p : PState) : (restoreFlags64 v s p).el = p.el := by
  unfold restoreFlags64
  split <;> rfl

/-- A return that is not illegal names no higher level. -/
theorem elNum_pstateFromSpsr_le (v : Word) (s : State) : elNum (pstateFromSpsr v s).el ≤ elNum s.ps.el := by
  unfold pstateFromSpsr
  dsimp only
  split
  · simp [restoreFlags]
  next hlegal =>
    split
    next ha32 =>
      simp only [illegalReturn, ha32] at hlegal
      simp_all
    next ha64 =>
      simp only [illegalReturn, ha64] at hlegal
      split
      · simp [restoreFlags]
      next hmode =>
        simp only [hmode] at hlegal
        simp_all

theorem exceptionReturn_sys (target v : Word) (s : State) : (exceptionReturn target v s).sys = s.sys := by
  simp only [exceptionReturn, brbEntered_sys]
  split <;> rfl

theorem exceptionReturn_level (target v : Word) (s : State) :
    elNum (exceptionReturn target v s).ps.el ≤ elNum s.ps.el := by
  simp only [exceptionReturn, brbEntered_ps]
  split <;> exact elNum_pstateFromSpsr_le v _

theorem returnTo_ends (target : Word) (s : State) : Ends s (returnTo target s) :=
  ends_takeUnmaskedSError (ends_calm (exceptionReturn_level ..) (privilegedKept_of_sys (exceptionReturn_sys ..)))

theorem eretTrap_ends (iss : BitVec 25) (s : State) : TrapEnds s (eretTrap iss s) :=
  .ite (trapEnds_some (ends_raise _ s)) (trapEnds_none s)

theorem eretGate_ends {auth : Option Result} (iss : BitVec 25) (ha : TrapEnds s auth) (h : Ends s r) :
    Ends s (eretGate iss auth s r) :=
  ends_notHalted ((eretTrap_ends iss s).orElse ha) (.ite (ends_undefined s) ((eretTrap_ends iss s).getD h))

theorem returnAuthenticated_ends (k : PacKey) (s : State) : Ends s (returnAuthenticated k s) :=
  authCombined_ends (.refl s) fun t =>
    .ite (ends_takeUnmaskedSError (ends_calm (exceptionReturn_level t _ s)
      (privilegedKept_of_sys (exceptionReturn_sys t (sreg s (spsrReg s.ps.el)) s)))) (returnTo_ends t s)

theorem execEret_ends (s : State) : Ends s (execEret s) := eretGate_ends 0 (trapEnds_none s) (returnTo_ends _ s)

theorem eretAuth_ends (iss : BitVec 25) (k : PacKey) (s : State) :
    Ends s (needsPAuth s (eretGate iss (pacTrap k s) s (returnAuthenticated k s))) :=
  needsPAuth_ends (eretGate_ends iss (pacTrap_ends k s) (returnAuthenticated_ends k s))

theorem execDrps_ends (s : State) : Ends s (execDrps s) := by
  have hsame : (if drpsSynchronises s then synchronizeErrors s else s) = s := ite_self s
  unfold execDrps
  rw [hsame]
  refine .ite (ends_undefined s) (ends_calm ?_ (privilegedKept_of_sys ?_))
  · rw [debugRestorePsr, updateEDSCRFields_eq]
    exact elNum_pstateFromSpsr_le _ (syncContext s)
  · rw [debugRestorePsr, updateEDSCRFields_eq]
    rfl

/-! ### Waits -/

theorem quiet_beginWait (w : Wait) (s : State) : Quiet s (beginWait w s) :=
  .ite ⟨rfl, rfl, rfl, rfl, rfl, rfl, fun _ _ => rfl⟩ (.refl s)

theorem waitException_ends (narrow event : Bool) (ti : BitVec 2) (reg : Option (BitVec 5)) (s : State) :
    TrapEnds s (waitException narrow event ti reg s) := by
  unfold waitException
  refine .ite (trapEnds_some (ends_raise _ s)) ?_
  split
  · exact trapEnds_some (.ite (ends_raise _ s) (ends_raise _ s))
  · exact trapEnds_some (ends_raise _ s)
  · exact trapEnds_none s

theorem waitOrTrap_ends {narrow event : Bool} {ti : BitVec 2} {reg : Option (BitVec 5)} (h : Ends s r) :
    Ends s (waitOrTrap narrow event ti reg s r) := (waitException_ends ..).getD h

theorem quiet_clearEvent (s : State) : Quiet s { s with eventReg := false } := ⟨rfl, rfl, rfl, rfl, rfl, rfl, fun _ _ => rfl⟩

theorem wfeEffect_ends (narrow : Bool) (s : State) : Ends s (wfeEffect narrow s) :=
  .ite (ends_advanceOf_of (quiet_clearEvent s) narrow)
    (waitOrTrap_ends (ends_advanceOf_of (quiet_beginWait _ s) narrow))

theorem wfiEffect_ends (narrow : Bool) (h : s.warmReset = .none) : Ends s (wfiEffect narrow s) := by
  refine .ite (ends_advanceOf narrow s) (waitOrTrap_ends ?_)
  rw [suspend, if_neg (by simp [h])]
  exact ends_advanceOf_of (quiet_beginWait _ s) narrow

theorem execWfet_ends (rd : BitVec 5) (s : State) : Ends s (execWfet rd s) :=
  .ite (ends_undefined s) (.ite (ends_advance_of (quiet_clearEvent s))
    (.ite (ends_advance s) (waitOrTrap_ends (ends_advance_of (quiet_beginWait _ s)))))

theorem execWfit_ends (rd : BitVec 5) (s : State) : Ends s (execWfit rd s) :=
  .ite (ends_undefined s) (.ite (ends_advance s) (waitOrTrap_ends (ends_advance_of (quiet_beginWait _ s))))

/-! ### Barriers -/

theorem execIsb_ends (s : State) : Ends s (execIsb s) := ends_same (by simp) (by simp)

theorem quiet_completeAccesses (s : State) : Quiet s (completeAccesses s) := ⟨rfl, rfl, rfl, rfl, rfl, rfl, fun _ _ => rfl⟩

theorem quiet_dataSync (s : State) : Quiet s (dataSync s) := ⟨rfl, rfl, rfl, rfl, rfl, rfl, fun _ _ => rfl⟩

theorem dsb_ends (full : Bool) (s : State) :
    Ends s (.next (advance (if full then dataSync s else completeAccesses s))) :=
  ends_advance_of (.ite (quiet_dataSync s) (quiet_completeAccesses s))

/-! ### A32 -/

theorem ifCondOf_ends (narrow : Bool) (cond : BitVec 4) (h : Ends s r) : Ends s (ifCondOf narrow cond s r) :=
  .ite h (ends_advanceOf narrow s)

theorem ifCond_ends (cond : BitVec 4) (h : Ends s r) : Ends s (ifCond cond s r) := ifCondOf_ends false cond h

theorem noR15InDebug_ends {trap : Option Result} (own : Refusal) (rs : List (BitVec 4)) (ht : TrapEnds s trap)
    (h : Ends s r) : Ends s (noR15InDebug own rs trap s r) := .ite (ends_unpredictable ht own) h

theorem quiet_writeR (n : BitVec 4) (v : Half) (s : State) : Quiet s (writeR n v s) :=
  .ite (.refl s) (quiet_writeX ..)

theorem a32SimdGate_ends (h : Ends s r) : Ends s (a32SimdGate s r) :=
  .ite (vecGate_ends _ h) (.ite (ends_undefined s) (.ite (ends_raise _ s) h))

theorem vmovl_ends (w d : BitVec 1) (imm3H : BitVec 3) (vd : BitVec 4) (m : BitVec 1) (vm : BitVec 4) (s : State) :
    Ends s (vmovl w d imm3H vd m vm s) :=
  .ite (ends_undefined s) (a32SimdGate_ends (ends_advance_of (quiet_writeZ _ _ s)))

theorem mrcTo_ends (rt : BitVec 4) (v : Half) (s : State) : Ends s (mrcTo rt v s) :=
  .ite (ends_same (by simp) (by simp)) (ends_advance_of (quiet_writeR rt v s))

theorem mrcOf_ends {trap : Option Result} (h : TrapEnds s trap) (rt : BitVec 4) (v : Half) : Ends s (mrcOf trap rt v s) :=
  noR15InDebug_ends _ _ h (h.getD (mrcTo_ends rt v s))

theorem a32Move_ends {trap : Option Result} (ht : TrapEnds s trap) (rs : List (BitVec 4)) (h : Ends s r) :
    Ends s (a32Move trap rs s r) := noR15InDebug_ends _ _ ht (ht.getD h)

theorem parTrap_ends (cond rt : BitVec 4) (s : State) : TrapEnds s (parTrap cond rt s) :=
  .ite (trapEnds_some (ends_raise _ s)) (trapEnds_none s)

theorem quiet_writeParS (v : Half) (s : State) : Quiet s (writeParS v s) := ⟨rfl, rfl, rfl, rfl, rfl, rfl, fun _ _ => rfl⟩

theorem quiet_writeParNS (v : Half) (s : State) : Quiet s (writeParNS v s) := ⟨rfl, rfl, rfl, rfl, rfl, rfl, fun _ _ => rfl⟩

theorem mcrPar_ends (v : Half) (s : State) : Ends s (mcrPar v s) := by
  have hown : Quiet s (if parBanked s then writeParNS v s else writePar v s) :=
    .ite (quiet_writeParNS v s) (quiet_setReg (by decide) _ s)
  unfold mcrPar
  dsimp only
  split
  · exact ends_undefined s
  · exact ends_advance_of (.ite (quiet_writeParNS v s) (quiet_writeParS v s))
  · exact ends_advance_of hown

theorem execMcrPar_ends (cond rt : BitVec 4) (s : State) : Ends s (execMcrPar cond rt s) :=
  ifCond_ends cond (a32Move_ends (parTrap_ends cond rt s) _ (mcrPar_ends _ s))

end

end Sys2Proof.Proofs
end

