-- ==== Sys2Proof/Proofs/MemoryFates.lean ====
section
/-! The end of an instruction on granules, caches, TLBs, 64 bytes at once, or with an exclusive access. -/

namespace Sys2Proof.Proofs

open Sys2Proof.Machine Sys2Proof.Safety Sys2Proof.Laws

section
variable {s t u : State} {r : Result}

/-! ### Granules -/

theorem locateGranule_quiet (d : AccDesc) (dev : OnDevice) (va : Word) (s : State) :
    LocQuiet s (locateGranule d dev va s) := locateBy_quiet ..

theorem granuleFaults_quiet {d : AccDesc} {dev : OnDevice} {n : Nat} {va : Word} {s : State}
    {f : AbortKind × Word × State} (hf : f ∈ granuleFaults d dev n va s) : Quiet s f.2.2 := by
  induction n generalizing va with
  | zero => cases hf
  | succ n ih =>
    have h := locateGranule_quiet d dev va s
    rw [granuleFaults] at hf
    split at hf
    next => exact ih hf
    next hloc =>
      rw [hloc] at h
      rcases List.mem_cons.mp hf with rfl | hmem
      · exact h
      · exact ih hmem

theorem locateGranules_quiet (d : AccDesc) (dev : OnDevice) (n : Nat) (va : Word) (s : State) :
    LocQuiet s (locateGranules d dev n va s) := by
  have h := locateSeq_quiet (locateGranule_quiet d dev) 16 0 true n va s
  unfold locateGranules
  split
  case h_1 hloc => rwa [hloc] at h
  case h_2 hloc => rwa [hloc] at h
  case h_3 hloc =>
    rw [hloc] at h
    dsimp only
    split
    next hget => exact granuleFaults_quiet (List.mem_of_getElem? hget)
    next => exact h

theorem quiet_writeTag (k : Nat) (v : BitVec 4) (s : State) : Quiet s (writeTag k v s) :=
  ⟨rfl, rfl, rfl, rfl, rfl, rfl, fun _ _ => rfl⟩

theorem quiet_storeTag (x : Xlat) (v : BitVec 4) (s : State) : Quiet s (storeTag x v s) :=
  .ite (quiet_writeTag ..) (.refl s)

theorem quiet_zeroGranules (xs : List Xlat) (s : State) : Quiet s (zeroGranules xs s) := by
  induction xs generalizing s with
  | nil => exact .refl s
  | cons x xs ih => exact (quiet_writeLocs _ _ s).trans (ih _)

theorem quiet_spoilTags (xs : List Xlat) (k : Nat) (s : State) : Quiet s (spoilTags xs k s) := by
  induction xs generalizing k s with
  | nil => exact .refl s
  | cons x xs ih => exact (Quiet.ite (quiet_storeTag x _ s) (.refl s)).trans (ih _ _)

theorem quiet_storeTags (v : BitVec 4) (xs : List Xlat) (s : State) : Quiet s (storeTags v xs s) := by
  induction xs generalizing s with
  | nil => exact .refl s
  | cons x xs ih => exact (quiet_storeTag x v s).trans (ih _)

theorem quiet_storeTagList (v : Word) (i : Nat) (xs : List Xlat) (s : State) : Quiet s (storeTagList v i xs s) := by
  induction xs generalizing i s with
  | nil => exact .refl s
  | cons x xs ih => exact (quiet_storeTag x _ s).trans (ih _ _)

theorem quiet_zeroAndTag (v : BitVec 4) (xs : List Xlat) (s : State) : Quiet s (zeroAndTag v xs s) :=
  (quiet_zeroGranules xs s).trans (quiet_storeTags v xs _)

theorem quiet_partialGranules {f : List Xlat → State → State} (hf : ∀ xs v, Quiet v (f xs v)) (data tags : Bool)
    (xs ts : List Xlat) (s : State) : Quiet s (partialGranules f data tags xs ts s) := by
  have hdata : Quiet s (if data then spoilLocs (ts.flatMap fun x => (List.range 16).map x.plus) 0 (f xs s) else f xs s) :=
    .ite ((hf xs s).trans (quiet_spoilLocs ..)) (hf xs s)
  unfold partialGranules
  exact .ite (.ite (hdata.trans (quiet_spoilTags ..)) hdata) (.refl s)

/-- An abort ends the step. -/
theorem abortStep_ends (d : AccDesc) (k : AbortKind) (va : Word) (s : State) :
    Ends s ((abort (α := Unit) d k va s).andThen fun _ v => .next v) :=
  (abort_ends d k va s).andThen fun _ _ => ends_same rfl rfl

/-! ### Allocation Tags -/

theorem stg_ends (rn rt : BitVec 5) (addr : Word → Word) (writeback : Option (Word → Word)) (s : State) :
    Ends s (stg rn rt addr writeback s) := by
  refine .ite (ends_undefined s) ((baseReg_ends rn s).andThen fun base s1 => .ite (abortStep_ends ..) ?_)
  refine (toAcc_ends (locateGranule_quiet ..) _).andThen fun x s2 => ?_
  have htag := quiet_storeTag x (field (readXSP rt s) 56 4) s2
  cases writeback with
  | none => exact ends_advance_of htag
  | some f => exact ends_advance_of (htag.trans (quiet_writeXSP ..))

theorem tagMultiple_ends (d : AccDesc) (dev : OnDevice) (rn : BitVec 5) (s : State)
    {part : Word → List Xlat → List Xlat → State → State} (far : AbortKind → Word → Word → State → Word)
    {k : Word → List Xlat → State → Result} (hpart : ∀ b xs ts v, Quiet v (part b xs ts v))
    (hk : ∀ b xs v, Ends v (k b xs v)) : Ends s (tagMultiple d dev rn s part far k) := by
  refine .ite (ends_undefined s) ((baseReg_ends rn s).andThen fun base s1 => ?_)
  have h := locateGranules_quiet d dev (tagBlock s / 16) (alignDown base (tagBlock s)) s1
  split
  case h_1 hloc =>
    rw [hloc] at h
    exact .from h (hk ..)
  case h_2 hloc =>
    rw [hloc] at h
    exact .from (h.trans (hpart ..)) (abortStep_ends ..)

theorem execStzgm_ends (rn rt : BitVec 5) (s : State) : Ends s (execStzgm rn rt s) :=
  tagMultiple_ends _ _ rn s _ (fun _ _ _ _ => quiet_partialGranules (quiet_zeroAndTag _) ..)
    fun _ xs v => ends_advance_of (quiet_zeroAndTag _ xs v)

theorem execStgm_ends (rn rt : BitVec 5) (s : State) : Ends s (execStgm rn rt s) :=
  tagMultiple_ends _ _ rn s _ (fun _ _ _ _ => quiet_partialGranules (quiet_storeTagList _ _) ..)
    fun _ xs v => ends_advance_of (quiet_storeTagList _ _ xs v)

theorem execLdgm_ends (rn rt : BitVec 5) (s : State) : Ends s (execLdgm rn rt s) :=
  tagMultiple_ends _ _ rn s _ (fun _ _ _ v => .ite (.refl v) (quiet_spoilReg rt rn v))
    fun _ _ v => ends_advance_of (quiet_writeX rt _ v)

/-! ### Blocks and caches by address -/

theorem dczTrap_ends (op2 : BitVec 3) (rt : BitVec 5) (h : Ends s r) : Ends s (dczTrap op2 rt s r) :=
  TrapEnds.getD (.ite (trapEnds_some (ends_raise _ s)) (trapEnds_none s)) h

theorem withBlock_ends (d : AccDesc) (dev : OnDevice) (va : Word) {f : List Xlat → State → State} (tags : Bool)
    (hf : ∀ xs v, Quiet v (f xs v)) (s : State) :
    Ends s (withBlock d dev va f tags s fun _ v => .next (advance v)) := by
  have h := locateGranules_quiet d dev (dcBlock s / 16) (alignDown va (dcBlock s)) s
  unfold withBlock
  dsimp only
  split
  case h_1 hloc =>
    rw [hloc] at h
    exact ends_advance_of (h.trans (hf ..))
  case h_2 hloc =>
    rw [hloc] at h
    exact .from (h.trans (quiet_partialGranules hf ..)) (abortStep_ends ..)

theorem execDcZva_ends (rt : BitVec 5) (s : State) : Ends s (execDcZva rt s) :=
  dczTrap_ends 1 rt (withBlock_ends _ _ _ _ quiet_zeroGranules s)

theorem execDcGva_ends (rt : BitVec 5) (s : State) : Ends s (execDcGva rt s) :=
  .ite (ends_undefined s) (dczTrap_ends 3 rt (withBlock_ends _ _ _ _ (quiet_storeTags _) s))

theorem execDcGzva_ends (rt : BitVec 5) (s : State) : Ends s (execDcGzva rt s) :=
  .ite (ends_undefined s) (dczTrap_ends 4 rt (withBlock_ends _ _ _ _ (quiet_zeroAndTag _) s))

theorem cacheByVa_ends (cmow : Bool) (va : Word) {k : Xlat → State → State} (hk : ∀ x v, Quiet v (k x v)) (s : State) :
    Ends s (cacheByVa cmow va s k) := by
  have h := translate_quiet (cacheDesc cmow) va s
  unfold cacheByVa
  split
  case h_1 hloc =>
    rw [hloc] at h
    exact ends_advance_of (h.trans (.ite (.refl _) (hk _ _)))
  case h_2 hloc =>
    rw [hloc] at h
    exact .from h (.ite (abortStep_ends ..) (ends_advance _))

theorem quiet_cleanLine (x : Xlat) (s : State) : Quiet s (cleanLine x s) := ⟨rfl, rfl, rfl, rfl, rfl, rfl, fun _ _ => rfl⟩

theorem quiet_invalidateLine (x : Xlat) (s : State) : Quiet s (invalidateLine x s) :=
  ⟨rfl, rfl, rfl, rfl, rfl, rfl, fun _ _ => rfl⟩

theorem quiet_cleanByPa (v : Word) (s : State) : Quiet s (cleanByPa v s) := ⟨rfl, rfl, rfl, rfl, rfl, rfl, fun _ _ => rfl⟩

theorem quiet_invalidateICache (s : State) : Quiet s (invalidateICache s) := ⟨rfl, rfl, rfl, rfl, rfl, rfl, fun _ _ => rfl⟩

theorem tagVa_ends (rt : BitVec 5) {k : Xlat → State → State} (hk : ∀ x v, Quiet v (k x v)) (s : State) :
    Ends s (if has .MTE s then cacheByVa true (readX rt s) s k else undefined s) :=
  .ite (cacheByVa_ends _ _ hk s) (ends_undefined s)

theorem cleanByPa_ends (c : Bool) (v : Word) (s : State) :
    Ends s (if c then undefined s else .next (advance (cleanByPa v s))) :=
  .ite (ends_undefined s) (ends_advance_of (quiet_cleanByPa v s))

/-! ### TLBs, predictions and address translation -/

theorem quiet_tlbInvalidate (p : TLBEntry → Bool) (s : State) : Quiet s (tlbInvalidate p s) :=
  ⟨rfl, rfl, rfl, rfl, rfl, rfl, fun _ _ => rfl⟩

theorem quiet_gptRangeOp (anyLevel : Bool) (rt : BitVec 5) (s : State) : Quiet s (gptRangeOp anyLevel rt s) :=
  ⟨rfl, rfl, rfl, rfl, rfl, rfl, fun _ _ => rfl⟩

theorem quiet_gptAllOp (num : Nat) (rt : BitVec 5) (s : State) : Quiet s (gptAllOp num rt s) :=
  ⟨rfl, rfl, rfl, rfl, rfl, rfl, fun _ _ => rfl⟩

/-- A TLBI that may be UNDEFINED, and may be a NOP. -/
theorem tlbi_ends {c : Prop} [Decidable c] (h : Quiet s u) :
    Ends s (if c then undefined s else if tlbiReserved s then .next (advance s) else .next (advance u)) :=
  .ite (ends_undefined s) (.ite (ends_advance s) (ends_advance_of h))

theorem predRestrict_ends (kind : PredKind) (v : Word) (s : State) : Ends s (predRestrict kind v s) :=
  ends_advance_of (.ite (.refl s) ⟨rfl, rfl, rfl, rfl, rfl, rfl, fun _ _ => rfl⟩)

theorem quiet_atMemory (t s : State) : Quiet s (atMemory t s) := ⟨rfl, rfl, rfl, rfl, rfl, rfl, fun _ _ => rfl⟩

theorem addressTranslate_ends (op : AtOp) (va : Word) (s : State) : Ends s (addressTranslate op va s) := by
  have hpar (v : Word) (t : State) : Ends s (.next (advance (setReg .PAR_EL1 v (atMemory t s)))) :=
    ends_advance_of ((quiet_atMemory t s).trans (quiet_setReg (by decide) v _))
  unfold addressTranslate
  split
  · exact hpar ..
  · exact .ite (abortStep_ends ..) (hpar ..)

theorem execSys_ends (op1 : BitVec 3) (crn crm : BitVec 4) (op2 : BitVec 3) (rt : BitVec 5) (s : State) :
    Ends s (execSys op1 crn crm op2 rt s) := by
  unfold execSys
  split
  · exact .ite (ends_undefined s) (ends_refused _ s)
  next o _ =>
    refine .ite (ends_undefined s) ?_
    match o with
    | .cleanVa => exact cacheByVa_ends _ _ quiet_cleanLine s
    | .invalidateVa | .tagVa => exact cacheByVa_ends _ _ (fun _ v => .refl v) s
    | .icAll => exact ends_advance_of (quiet_invalidateICache s)
    | .setWay => exact ends_advance s
    | .at op => exact addressTranslate_ends op _ s
    | .tlbi => exact ends_advance_of (.ite (.refl s) (quiet_tlbInvalidate _ s))
    | .tlbiRange op el => exact ends_advance_of (.ite (.refl s) (quiet_tlbInvalidate _ s))
    | .gptRange anyLevel => exact ends_advance_of (quiet_gptRangeOp anyLevel rt s)
    | .gptAll => exact ends_advance_of (quiet_gptAllOp _ rt s)

theorem execSysl_ends (op1 : BitVec 3) (crn crm : BitVec 4) (op2 : BitVec 3) (rt : BitVec 5) (s : State) :
    Ends s (execSysl op1 crn crm op2 rt s) := .ite (ends_undefined s) (ends_advance_of (quiet_writeX rt _ s))

/-! ### 64 bytes at once -/

theorem ls64Exception_ends (k : Ls64) (s : State) : TrapEnds s (ls64Exception k s) := by
  unfold ls64Exception
  cases ls64Trap k s with
  | none => exact trapEnds_none s
  | some t => exact trapEnds_some (ends_raise _ s)

theorem ls64Gate_ends (k : Ls64) (rt : BitVec 5) (h : Ends s r) : Ends s (ls64Gate k rt s r) :=
  .ite (ends_undefined s) ((ls64Exception_ends k s).getD h)

theorem ls64Locate_quiet (d : AccDesc) (va : Word) (s : State) : LocQuiet s (ls64Locate d va s) :=
  .ite (.refl s) ((locateBy_quiet ..).bind fun _ v => .refl v)

theorem quiet_writeEight (rt : BitVec 5) (bs : List Byte) (big : Bool) (s : State) : Quiet s (writeEight rt bs big s) := by
  unfold writeEight
  induction List.range 8 generalizing s with
  | nil => exact .refl s
  | cons n l ih => exact (quiet_writeX _ _ s).trans (ih _)

theorem execLd64b_ends (rn rt : BitVec 5) (s : State) : Ends s (execLd64b rn rt s) :=
  ls64Gate_ends _ rt ((baseReg_ends rn s).andThen fun _ s1 =>
    (toAcc_ends (ls64Locate_quiet _ _ s1) _).andThen fun xs s2 =>
      ends_advance_of ((quiet_readLocs xs 0 s2).trans (quiet_writeEight ..)))

theorem storeEight_ends (vs : List Word) (rn : BitVec 5) (s : State) {k : List Xlat → State → State → Result}
    (hk : ∀ xs v w, Quiet v w → Ends v (k xs v w)) : Ends s (storeEight vs rn s k) :=
  (baseReg_ends rn s).andThen fun _ s1 =>
    (toAcc_ends (ls64Locate_quiet _ _ s1) _).andThen fun xs s2 => hk xs s2 _ (quiet_writeLocs xs _ s2)

theorem execSt64b_ends (rn rt : BitVec 5) (s : State) : Ends s (execSt64b rn rt s) :=
  ls64Gate_ends _ rt (storeEight_ends _ rn s fun _ _ _ h => ends_advance_of h)

theorem storeStatus_ends (vs : List Word) (rs rn : BitVec 5) (s : State) : Ends s (storeStatus vs rs rn s) :=
  storeEight_ends vs rn s fun _ v _ h => ends_advance_of ((Quiet.ite h (.refl v)).trans (quiet_writeX ..))

/-! ### Exclusive accesses -/

theorem quiet_markExclusive (x : Xlat) (s : State) : Quiet s (markExclusive x s) := ⟨rfl, rfl, rfl, rfl, rfl, rfl, fun _ _ => rfl⟩

theorem quiet_clearMonitors (passed : Bool) (s : State) : Quiet s (clearMonitors passed s) :=
  ⟨rfl, rfl, rfl, rfl, rfl, rfl, fun _ _ => rfl⟩

theorem loadExclusive_ends (rn rt : BitVec 5) (s : State) : Ends s (loadExclusive rn rt s) :=
  (baseReg_ends rn s).andThen fun va s1 =>
    (toAcc_ends (locateNth_quiet _ 8 0 va s1) _).andThen fun xs s2 => by
      have hread := quiet_readLocs xs 0 s2
      cases xs with
      | nil => exact ends_advance_of (hread.trans (quiet_writeX ..))
      | cons x xs => exact ends_advance_of ((hread.trans (quiet_markExclusive ..)).trans (quiet_writeX ..))

theorem watched_quiet {α : Type} {m : Loc α} (h : LocQuiet s m) (d : AccDesc) (n : Nat) (va : Word) :
    LocQuiet s (m.watched d n va) := by
  cases m with
  | ok a v => exact h
  | fault k va' v =>
    unfold Loc.watched
    dsimp only
    split
    · split <;> exact h
    · exact h

theorem exclusiveLocate_ends (n : Nat) (rn : BitVec 5) (va : Word) (s : State) : AccEnds s (exclusiveLocate n rn va s) :=
  toAcc_ends (.ite (m := .fault .alignment va s) (.refl s) (watched_quiet (lookupWith_quiet ..) ..)) _

theorem storeExclusive_ends {w : Nat} (n : Nat) (data : BitVec w) (clash : Bool) (rs rn : BitVec 5) (s : State) :
    Ends s (storeExclusive n data clash rs rn s) :=
  .ite (ends_unpredictable (baseException_ends rn s) _) ((baseReg_ends rn s).andThen fun va s1 =>
    (exclusiveLocate_ends n rn va s1).andThen fun x s2 =>
      .ite
        (AccEnds.andThen (toAcc_ends (locateBy_quiet ..) _) fun _ s3 =>
          ends_advance_of (((quiet_writeLocs _ _ s3).trans (quiet_clearMonitors ..)).trans (quiet_writeX ..)))
        (ends_advance_of (((quiet_commit x s2).trans (quiet_clearMonitors ..)).trans (quiet_writeX ..))))

end

end Sys2Proof.Proofs
end

