-- ==== Sys2Proof/Proofs/InstructionFates.lean ====
section
/-! The end of any instruction, and of the controls that trap it. -/

namespace Sys2Proof.Proofs

open Sys2Proof.Machine Sys2Proof.Safety Sys2Proof.Laws

section
variable {s t u : State} {r : Result}

/-! ### The classes without a row of their own -/

theorem atomicEffect_ends (op : AtomicOp) (size : BitVec 2) (rs rn rt : BitVec 5) (s : State) :
    Ends s (atomicEffect op size rs rn rt s) :=
  (baseReg_ends rn s).andThen fun va s1 =>
    (toAcc_ends (locateNth_quiet _ _ 0 va s1) _).andThen fun xs s2 =>
      have hread := quiet_readLocs xs 0 s2
      have hstore {c : Prop} [Decidable c] (bs : List Byte) :
          Quiet s2 (if c then writeLocs xs bs (readLocs xs 0 s2).2 else (readLocs xs 0 s2).2) :=
        .ite (hread.trans (quiet_writeLocs ..)) hread
      ends_advance_of ((Quiet.ite ((hstore _).trans (quiet_countEvent ..)) (hstore _)).trans (quiet_writeX ..))

theorem ldgEffect_ends (imm9 : BitVec 9) (rn rt : BitVec 5) (s : State) : Ends s (ldgEffect imm9 rn rt s) :=
  (baseReg_ends rn s).andThen fun _ _ =>
    (toAcc_ends (locateGranule_quiet ..) _).andThen fun _ s2 => ends_advance_of (quiet_writeX rt _ s2)

theorem quiet_writePair (rt rt2 : BitVec 4) (v : Word) (s : State) : Quiet s (writePair rt rt2 v s) :=
  (quiet_writeR ..).trans (quiet_writeR ..)

theorem countOnce_calm (event : BitVec 16) (key : SysReg × Nat) (s : State) : Quiet s (countOnce event key s) := by
  have hcount := quiet_countEvent event s
  refine .ite (.ite hcount (.refl s)) ?_
  exact hcount.trans ⟨rfl, rfl, rfl, rfl, rfl, rfl, fun _ _ => rfl⟩

theorem writeTtbr_el (one : Bool) (f : Word → Word) (s : State) : (writeTtbr one f s).ps.el = s.ps.el := by
  unfold writeTtbr
  dsimp only
  split
  · rw [(countOnce_calm _ _ _).ps]
  · rw [(quiet_countWrite _ _).ps, writeReg_ps]

/-- An access that EL0 does not make. -/
theorem ends_above (hel : t.ps.el = s.ps.el) (habove : s.ps.el ≠ .el0) : Ends s (.next (advance t)) :=
  ends_writing ((advance_ps_el t).trans hel) fun h => absurd h habove

theorem mcrrTtbr_ends (one : Bool) (rt rt2 : BitVec 4) (s : State) : Ends s (mcrrTtbr one rt rt2 s) := by
  refine a32Move_ends (trapEnds_none s) _ ?_
  split
  · exact ends_undefined s
  next habove => exact ends_above (writeTtbr_el ..) habove

theorem pmuA32Trap_ends (q : SysReg) (write : Bool) (s : State) : TrapEnds s (pmuA32Trap q write s) := by
  unfold pmuA32Trap
  split
  · exact trapEnds_some (ends_raise _ s)
  · exact trapEnds_none s

theorem mcrPmcr_ends (rt : BitVec 4) (s : State) : Ends s (mcrPmcr rt s) := by
  have hsame := quiet_pmcrResets (copyBits (sreg s .PMCR_EL0) ((readR rt s).setWidth 64) 0 11) s
  refine a32Move_ends (pmuA32Trap_ends ..) _ (ends_writing ?_ fun _ => ?_)
  · rw [advance_ps_el, writeA32Pmcr, writePmcr, writeReg_ps, hsame.ps]
  · exact (hsame.kept.trans (privilegedKept_writeReg (by decide) _ _)).trans (privilegedKept_of_sys (advance_sys _))

theorem cntvctTrap_ends (cond rt rt2 : BitVec 4) (s : State) : TrapEnds s (cntvctTrap cond rt rt2 s) :=
  .ite (trapEnds_some (.ite (ends_undefined s) (ends_raise _ s)))
    (.ite (trapEnds_some (ends_raise _ s)) (trapEnds_none s))

theorem mrrcCntvct_ends (cond rt rt2 : BitVec 4) (s : State) : Ends s (mrrcCntvct cond rt rt2 s) :=
  a32Move_ends (cntvctTrap_ends ..) _ (ends_advance_of (quiet_writePair ..))

theorem mrrcCntvoff_ends (rt rt2 : BitVec 4) (s : State) : Ends s (mrrcCntvoff rt rt2 s) :=
  a32Move_ends (trapEnds_none s) _ (.ite (ends_undefined s) (ends_advance_of (quiet_writePair ..)))

theorem mcrrCntvoff_ends (rt rt2 : BitVec 4) (s : State) : Ends s (mcrrCntvoff rt rt2 s) := by
  refine a32Move_ends (trapEnds_none s) _ ?_
  split
  · exact ends_undefined s
  next hlevel => exact ends_above (congrArg PState.el (writeReg_ps ..)) fun h => hlevel (by simp [h, elNum])

theorem mrcIsr_ends (rt : BitVec 4) (s : State) : Ends s (mrcIsr rt s) :=
  .ite (ends_undefined s) (mrcOf_ends (trapEnds_none s) rt _)

theorem a32NamedTrap_ends (n : A32Name) (write : Bool) (s : State) : TrapEnds s (a32NamedTrap n write s) := by
  unfold a32NamedTrap
  split
  · exact .ite (trapEnds_some (ends_raise _ s)) (trapEnds_none s)
  · exact pmuA32Trap_ends ..
  · exact trapEnds_none s

theorem mrcNamed_ends (n : A32Name) (rt : BitVec 4) (s : State) : Ends s (mrcNamed n rt s) :=
  .ite (ends_undefined s) (mrcOf_ends (a32NamedTrap_ends ..) rt _)

theorem a32Written_el {n : A32Name} {v : Half} (h : a32Written n v s = some t) : t.ps.el = s.ps.el := by
  cases n <;> cases h
  case contextidr => rw [(quiet_countWrite _ _).ps, writeReg_ps]
  case ttbr0 | ttbr1 => exact writeTtbr_el ..
  case cntkctl | fpexc => rw [writeReg_ps]
  case pmccntr => rfl
  all_goals rw [writeCtl_ps]

/-- Of these registers EL0 writes the cycle counter alone. -/
theorem a32Written_user {n : A32Name} {v : Half} (h : a32Written n v s = some t) (hlevel : a32MinLevel true n = 0) :
    t = setReg .PMCCNTR_EL0 (withLow32 (sreg s .PMCCNTR_EL0) v) s := by
  cases n <;> cases hlevel
  cases h
  rfl

theorem mcrNamed_ends (n : A32Name) (rt : BitVec 4) (s : State) : Ends s (mcrNamed n rt s) := by
  unfold mcrNamed
  split
  · exact ends_undefined s
  next hlevel =>
    refine a32Move_ends (a32NamedTrap_ends ..) _ ?_
    split
    next t hwritten =>
      refine ends_writing ((advance_ps_el t).trans (a32Written_el hwritten)) fun hel => ?_
      rw [a32Written_user hwritten (by simpa [hel, elNum] using hlevel)]
      exact (privilegedKept_setReg (by decide) _ s).trans (privilegedKept_of_sys (advance_sys _))
    next => exact ends_undefined s

theorem a32FpGate_ends (h : Ends s r) : Ends s (a32FpGate s r) :=
  .ite (vecGate_ends _ h) (.ite (ends_undefined s) h)

theorem eretA32_ends (s : State) : Ends s (eretA32 s) :=
  ends_running (.ite (ends_undefined s) (.ite (returnTo_ends ..) (.ite (returnTo_ends ..) (ends_refused _ s))))

theorem sveAnyException_ends (s : State) : TrapEnds s (sveAnyException s) :=
  .ite (trapEnds_some (ends_undefined s)) (vecException_ends _ s)

theorem fpSizeException_ends (size : BitVec 2) {o : Option Result} (h : TrapEnds s o) :
    TrapEnds s (fpSizeException size o s) := .ite (trapEnds_some (ends_undefined s)) h

theorem extraException_ends (e : ExtraInstr) (s : State) : TrapEnds s (extraException e s) := by
  have hundefined : TrapEnds s (some (undefined s)) := trapEnds_some (ends_undefined s)
  unfold extraException
  split
  case h_1 | h_3 => exact sveAnyException_ends s
  case h_2 | h_4 | h_5 => exact sveException_ends _ s
  case h_6 | h_7 => exact fpSizeException_ends _ (sveAnyException_ends s)
  case h_8 => exact fpSizeException_ends _ (.ite (sveAnyException_ends s) hundefined)
  case h_9 => exact .ite (vecException_ends _ s) hundefined
  case h_10 => exact vecException_ends _ s
  case h_18 => exact .ite (trapEnds_none s) hundefined
  case h_19 => exact trapEnds_none s
  all_goals exact fpSizeException_ends _ (vecException_ends _ s)

theorem quiet_fpPairs (k : ReduceInstr) (op : FpOp) (size : BitVec 2) (l : List (Word × Word)) (zd : BitVec 5)
    (s : State) : Quiet s (countReduction k (writeFpElems op size l zd s)) :=
  (quiet_writeFpElems ..).trans (quiet_countReduction ..)

theorem quiet_reduced (k : ReduceInstr) (size : BitVec 2) (l : List (Word × Word)) (zd : BitVec 5) (v : VReg)
    (s : State) : Quiet s (countReduction k (elemFlags size l (writeZ zd v s))) :=
  ((quiet_writeZ ..).trans (quiet_elemFlags ..)).trans (quiet_countReduction ..)

theorem quiet_roundedZ (zd : BitVec 5) (v : VReg) (s : State) : Quiet s (roundFlags (writeZ zd v s)) :=
  (quiet_writeZ ..).trans (quiet_roundFlags _)

theorem extraEffect_ends (e : ExtraInstr) (h : s.warmReset = .none) : Ends s (extraEffect e s) := by
  cases e with
  | sveLoad kind _ _ _ _ _ _ _ =>
    cases kind with
    | regular => exact sveLoadRegular_ends ..
    | firstFault => exact sveLoadFirstFault_ends ..
    | nonFault => exact sveLoadNonFault_ends ..
  | sveStore => exact sveStoreEffect_ends ..
  | ld1ro => exact ld1roEffect_ends ..
  | permuteQ => exact permuteQEffect_ends ..
  | svePred | sveImm => exact ends_advance_of (quiet_svePredElems ..)
  | svePair | across => exact ends_advance_of (quiet_reduced ..)
  | sme => exact ends_refused _ s
  | scalarH => exact ends_advance_of ((quiet_writeZ ..).trans (quiet_fpFlags ..))
  | vector => exact ends_advance_of (quiet_writeFpElems ..)
  | pairVector | pairScalar => exact ends_advance_of (quiet_fpPairs ..)
  | fsign => exact ends_advance_of (quiet_writeZ ..)
  | fcvta => exact ends_advance_of ((quiet_writeX ..).trans (quiet_roundFlags _))
  | frinta => exact ends_advance_of (quiet_roundedZ ..)
  | orrW => exact ends_advance_of (quiet_writeX ..)
  | atomic => exact atomicEffect_ends ..
  | prfm => exact ends_advance s
  | ldg => exact ldgEffect_ends ..
  | rctxA32 => exact ifCond_ends _ (a32Move_ends (trapEnds_none s) _ (predRestrict_ends ..))
  | mcrrTtbr => exact ifCond_ends _ (mcrrTtbr_ends ..)
  | mrrcCntvct => exact ifCond_ends _ (mrrcCntvct_ends ..)
  | mrrcCntvoff => exact ifCond_ends _ (mrrcCntvoff_ends ..)
  | mcrrCntvoff => exact ifCond_ends _ (mcrrCntvoff_ends ..)
  | mrcIsr => exact ifCond_ends _ (mrcIsr_ends ..)
  | mrcPmcr => exact ifCond_ends _ (mrcOf_ends (pmuA32Trap_ends ..) _ _)
  | mcrPmcr => exact ifCond_ends _ (mcrPmcr_ends ..)
  | mrcNamed => exact ifCond_ends _ (mrcNamed_ends ..)
  | mcrNamed => exact ifCond_ends _ (mcrNamed_ends ..)
  | vcvtBf16 => exact ifCond_ends _ (a32FpGate_ends (ends_advance_of (quiet_roundedZ ..)))
  | vcvtBf16Vec => exact .ite (ends_undefined s) (a32SimdGate_ends (ends_advance_of (quiet_roundedZ ..)))
  | wfeA32 => exact ifCondOf_ends _ _ (wfeEffect_ends ..)
  | wfiA32 => exact ifCondOf_ends _ _ (wfiEffect_ends _ h)
  | eretA32 => exact ifCond_ends _ (eretA32_ends s)

theorem execExtra_ends (e : ExtraInstr) (h : s.warmReset = .none) : Ends s (execExtra e s) :=
  (extraException_ends e s).getD (extraEffect_ends e h)

/-! ### The table -/

theorem quiet_writeW (n : BitVec 5) (v : Half) (s : State) : Quiet s (writeW n v s) := quiet_writeX ..

theorem ends_setFlags (f : NZCV) (h : Quiet s u) : Ends s (.next (advance (setFlags f u))) :=
  .from h (ends_same (by simp) (by simp))

theorem sysAccess_ends {i : Instr} {sel : BitVec 15} {rt : BitVec 5} {write : Bool}
    (h : sysAccessOf i = some (sel, rt, write)) (s : State) : Ends s (exec i s) := by
  have hexec : exec i s = if write then writeSys sel rt s else readSys sel rt s := by cases i <;> cases h <;> rfl
  rw [hexec]
  exact .ite (writeSys_ends sel rt s) (readSys_ends sel rt s)

/-- Any instruction with no Warm reset requested ends the step as it may end. -/
theorem exec_ends (i : Instr) (h : s.warmReset = .none) : Ends s (exec i s) := by
  cases i with
  | nop | csdb | bti | btiC | btiJ | btiJC | sb | dmb | csdbA32 | csdbT32 | sbA32 | sbT32 => exact ends_advance s
  | wfe => exact wfeEffect_ends ..
  | wfi => exact wfiEffect_ends _ h
  | wfet => exact execWfet_ends ..
  | wfit => exact execWfit_ends ..
  | pacia1716 | pacib1716 | paciaz | paciasp | pacibz | pacibsp | pacia | pacib | pacda | pacdb | paciza | pacizb | pacdza
  | pacdzb => exact pacInsert_ends ..
  | autia1716 | autib1716 | autiaz | autiasp | autibz | autibsp | autia | autib | autda | autdb | autiza | autizb | autdza
  | autdzb => exact pacCheck_ends ..
  | pacga => exact execPacga_ends ..
  | isb => exact execIsb_ends s
  | dsb | dsbNXS => exact dsb_ends ..
  | clrex => exact ends_same (by simp) (by simp)
  | msrDaifSetImm | msrDaifClrImm =>
    exact daifAccess_ends _ _ (ends_same (by simp [daifSet, daifClr]) (by simp [daifSet, daifClr]))
  | msrSsbsImm | msrDitImm => exact ends_running (ends_same (by simp) (by simp))
  | msrTcoImm => exact .ite (ends_undefined s) (ends_running (ends_same (by simp) (by simp)))
  | msrSpselImm => exact ends_running (.ite (ends_undefined s) (ends_same (by simp) (by simp)))
  | mrs | mrsRndr | mrsRndrrs | mrsCntpctEl0 | mrsCntvctEl0 | mrsCntpctssEl0 | mrsCntvctssEl0 | mrsIdAa64smfr0El1
  | mrsCcsidrEl1 | mrsIsrEl1 | mrsNzcv | mrsDaif | mrsDit | mrsRmrEl1 | mrsRmrEl2 | mrsRmrEl3 | msr | msrNzcv | msrDaif
  | msrDit | msrRmrEl1 | msrRmrEl2 | msrRmrEl3 => exact sysAccess_ends rfl s
  | sys => exact execSys_ends ..
  | sysl => exact execSysl_ends ..
  | dcZva => exact execDcZva_ends ..
  | dcGva => exact execDcGva_ends ..
  | dcGzva => exact execDcGzva_ends ..
  | dcCivac => exact cacheByVa_ends _ _ quiet_cleanLine s
  | icIvau => exact cacheByVa_ends _ _ quiet_invalidateLine s
  | dcCigvac => exact tagVa_ends _ (fun _ v => .refl v) s
  | dcCigdvac => exact tagVa_ends _ quiet_cleanLine s
  | dcCipae | dcCigdpae => exact cleanByPa_ends ..
  | tlbiAlle1 | tlbiAlle1nxs | tlbiRvae1 | tlbiRvaae1 | tlbiRipas2e1 => exact tlbi_ends (quiet_tlbInvalidate ..)
  | tlbiRpaos => exact .ite (ends_undefined s) (ends_advance_of (quiet_gptRangeOp ..))
  | cfpRctx | dvpRctx | cppRctx => exact predRestrict_ends ..
  | atS1e1r => exact .ite (ends_undefined s) (addressTranslate_ends ..)
  | ret | b => exact ends_running (ends_branchTo ..)
  | retaa | retab => exact returnAuth_ends ..
  | braaz | brabz | braa | brab => exact branchAuth_ends ..
  | blraaz | blrabz | blraa | blrab => exact linkAuth_ends ..
  | cbzX | cbnzX | cbzW | cbnzW | bCond => exact branchIf_ends ..
  | eret => exact execEret_ends s
  | eretaa | eretab => exact eretAuth_ends ..
  | drps => exact execDrps_ends s
  | svc | brk => exact ends_raise _ s
  | hvc => exact execHvc_ends ..
  | smc => exact execSmc_ends ..
  | hlt imm16 => exact execHlt_ends imm16 s
  | stgOffset | stgPost | stgPre => simp only [exec, execStgOffset, execStgPost, execStgPre, stg_ends]
  | stzgm => exact execStzgm_ends ..
  | stgm => exact execStgm_ends ..
  | ldgm => exact execLdgm_ends ..
  | ldra => exact execLdra_ends ..
  | ld64b => exact execLd64b_ends ..
  | st64b => exact execSt64b_ends ..
  | st64bv | st64bv0 => exact ls64Gate_ends _ _ (storeStatus_ends ..)
  | ldxr | ldaxr => exact loadExclusive_ends ..
  | stxrb | stlxrb | stxrh | stlxrh | stxrW | stlxrW | stxrX | stlxrX | stxpW | stlxpW | stxpX | stlxpX =>
    exact storeExclusive_ends ..
  | movzX | orrX => exact ends_advance_of (quiet_writeX ..)
  | movzW => exact ends_advance_of (quiet_writeW ..)
  | addX | subX | addW | subW => exact ends_advance_of (quiet_writeXSP ..)
  | subsX => exact ends_setFlags _ (quiet_writeX ..)
  | subsW => exact ends_setFlags _ (quiet_writeW ..)
  | strX => exact execStrX_ends ..
  | ldrX => exact execLdrX_ends ..
  | ldrXPre => exact execLdrXPre_ends ..
  | movprfx => exact execMovprfx_ends ..
  | movprfxPred => exact execMovprfxPred_ends ..
  | fmmlaS => exact execFmmlaS_ends ..
  | fmmlaD => exact execFmmlaD_ends ..
  | fmaxS | fmaxD | fminS | fminD | fmaxnmS | fmaxnmD | fminnmS | fminnmD => exact fpScalar_ends ..
  | vmovlA32 | vmovlT32 => exact vmovl_ends ..
  | mrcDbgdscrint => exact ifCond_ends _ (mrcOf_ends (trapEnds_none s) _ _)
  | mcrPar => exact execMcrPar_ends ..

theorem execCode_ends (c : Code) (h : s.warmReset = .none) : Ends s (execCode c s) := by
  cases c with
  | base i => exact exec_ends i h
  | extra e => exact execExtra_ends e h

/-! ### Controls -/

theorem sysControl_ends (sel : BitVec 15) (rt : BitVec 5) (write : Bool) (s : State) :
    TrapEnds s (sysControl sel rt write s) := by
  unfold sysControl
  split
  · exact permissionTrap_ends ..
  · exact .ite (trapEnds_some (sysTrap_ends ..)) (trapEnds_none s)

end

end Sys2Proof.Proofs
end

