-- ==== Sys2Proof/Proofs/StepFates.lean ====
section
/-! The end of a step, of the PE or of another agent: the Exception level rises only by an exception, and no step of EL0 writes a
privileged register. -/

namespace Sys2Proof.Proofs

open Sys2Proof.Machine Sys2Proof.Safety Sys2Proof.Laws

section
variable {s t u : State} {r : Result}

/-! ### What may still change after the fate is settled -/

/-- PSTATE.SS, the cycle counter and what is no System register are left out of it. -/
theorem Fate.later (h : Fate s t) (hpc : u.pc = t.pc) (hps : u.ps = { t.ps with ss := u.ps.ss })
    (hsys : ∀ q, q ≠ .PMCCNTR_EL0 → sreg u q = sreg t q) : Fate s u := by
  have hel : u.ps.el = t.ps.el := by rw [hps]
  have hspsr : spsrReg t.ps.el ≠ .PMCCNTR_EL0 := by cases t.ps.el <;> decide
  refine ⟨fun huser => (h.kept huser).trans fun q hq => hsys q ?_, fun hpre => ?_⟩
  · exact fun hcount => (by decide : SysReg.PMCCNTR_EL0 ∉ privileged) (hcount ▸ hq)
  · rw [hel]
    refine (h.level hpre).imp_right fun he => ?_
    exact {
      pc := by rw [hel, hpc]; exact he.pc
      masks := by rw [hps]; exact he.masks
      spsel := by rw [hps]; exact he.spsel
      nRW := by rw [hps]; exact he.nRW
      il := by rw [hps]; exact he.il
      spsr := by rw [hel, hsys _ hspsr]; exact he.spsr }

theorem ends_endSoftStep (h : Ends s r) : Ends s (endSoftStep s r) := by
  cases r with
  | next t =>
    have hfate := h.fate t rfl
    simp only [endSoftStep]
    split
    · exact ends_next (hfate.later rfl rfl fun _ _ => rfl)
    · exact h
  | _ => exact h

theorem ends_showDebugState (h : Ends s r) : Ends s (showDebugState r) := by
  cases r with
  | next t =>
    refine ends_next ((h.fate t rfl).later ?_ ?_ fun _ _ => ?_)
    · rw [updateEDSCRFields_eq]
    · rw [updateEDSCRFields_eq]
    · rw [updateEDSCRFields_eq]
      rfl
  | _ => exact h

/-! ### After a MOVPRFX -/

/-- Where a MOVPRFX came before, the rise of the level is left out. -/
theorem Ends.afterPrefix (hpre : s.movprfx ≠ none) (hel : u.ps.el = s.ps.el) (hkept : PrivilegedKept s u)
    (h : Ends u r) : Ends s r :=
  ⟨fun t e => ⟨fun huser => hkept.trans ((h.fate t e).kept (hel.trans huser)), fun hnone => absurd hnone hpre⟩⟩

theorem unitState_none (h : s.movprfx = none) : unitState s = s := by simp [unitState, h]

theorem unitState_calm (s : State) : (unitState s).ps.el = s.ps.el ∧ (unitState s).sys = s.sys := by
  unfold unitState
  split
  · split <;> exact ⟨rfl, rfl⟩
  · exact ⟨rfl, rfl⟩

/-- From the state before a MOVPRFX the step ends as it may end. -/
theorem ends_unitState (h : Ends (unitState s) r) : Ends s r := by
  by_cases hpre : s.movprfx = none
  · rwa [unitState_none hpre] at h
  · exact h.afterPrefix hpre (unitState_calm s).1 (privilegedKept_of_sys (unitState_calm s).2)

theorem pairException_ends (c : Code) (s : State) : TrapEnds s (pairException c s) := by
  unfold pairException
  split
  · exact sveException_ends false s
  · exact sveException_ends true s
  · exact trapEnds_none s
  · exact extraException_ends _ s

theorem runPair_ends {trap : State → Option Result} {k : State → Result} (hpre : s.movprfx ≠ none)
    (htrap : ∀ v, TrapEnds v (trap v)) (hk : Ends { s with movprfx := none } (k { s with movprfx := none })) :
    Ends s (runPair trap k s) := by
  unfold runPair
  split
  next r he => exact ends_unitState ((htrap _).ends r he)
  next => exact hk.afterPrefix (u := { s with movprfx := none }) hpre rfl fun _ _ => rfl

/-! ### Controls -/

theorem ownControl_ends (i : Instr) (s : State) : TrapEnds s (ownControl i s) := by
  have hwait {c : Prop} [Decidable c] {event : Bool} {ti : BitVec 2} {reg : Option (BitVec 5)} :
      TrapEnds s (if c then none else waitException false event ti reg s) :=
    .ite (trapEnds_none s) (waitException_ends ..)
  have hdcz (op2 : BitVec 3) (rt : BitVec 5) : TrapEnds s (dczException op2 rt s) :=
    .ite (trapEnds_some (ends_raise _ s)) (trapEnds_none s)
  have hbase (k : Ls64) (rn : BitVec 5) : TrapEnds s ((ls64Exception k s).or (baseException rn s)) :=
    (ls64Exception_ends k s).orElse (baseException_ends rn s)
  have hsve : TrapEnds s (if sveExists s then vecException (sveUnits s) s else none) :=
    .ite (vecException_ends _ s) (trapEnds_none s)
  cases i with
  | wfe => exact .ite (trapEnds_none s) (waitException_ends ..)
  | wfi => exact .ite (trapEnds_none s) (waitException_ends ..)
  | wfet rd => exact hwait
  | wfit rd => exact hwait
  | msrDaifSetImm | msrDaifClrImm => exact daifTrap_ends ..
  | dcZva => exact hdcz ..
  | dcGva | dcGzva => exact .ite (hdcz ..) (trapEnds_none s)
  | pacga => exact pacgaTrap_ends s
  | eret => exact eretTrap_ends 0 s
  | eretaa | eretab => exact (eretTrap_ends ..).orElse (pacTrap_ends ..)
  | ldra => exact (baseException_ends ..).orElse (pacTrap_ends ..)
  | ld64b | st64b | st64bv | st64bv0 => exact hbase ..
  | movprfx | movprfxPred => exact hsve
  | fmmlaS => exact sveException_ends false s
  | fmmlaD => exact sveException_ends true s
  | fmaxS | fmaxD | fminS | fminD | fmaxnmS | fmaxnmD | fminnmS | fminnmD => exact vecException_ends [.fp] s
  | _ => exact trapEnds_none s

theorem TrapEnds.bind {α : Type} {o : Option α} {f : α → Option Result} (h : ∀ a, TrapEnds s (f a)) :
    TrapEnds s (o.bind f) := by
  cases o with
  | none => exact trapEnds_none s
  | some a => exact h a

theorem controlException_ends (c : Code) (s : State) : TrapEnds s (controlException c s) := by
  cases c with
  | base i =>
    exact (ownControl_ends i s).orElse ((TrapEnds.bind fun k => pacTrap_ends k s).orElse
      ((TrapEnds.bind fun _ => sysControl_ends ..).orElse (.bind fun rn => baseException_ends rn s)))
  | extra e => exact extraException_ends e s

theorem withPrefix_ends (c : Code) (h : s.warmReset = .none) :
    Ends s (withPrefix c (pairException c) (controlException c) s (execCode c)) := by
  unfold withPrefix
  split
  · exact execCode_ends c h
  next hpre =>
    exact .ite (runPair_ends (by simp [hpre]) (pairException_ends c) (execCode_ends c h))
      (ends_unpredictable (controlException_ends c s) _)

/-! ### Fetch -/

theorem debugException_ends (ec : BitVec 6) (s : State) : Ends s (debugException ec s) := ends_raise _ s

theorem breakpointEvent_ends (s : State) : TrapEnds s (breakpointEvent s) := by
  unfold breakpointEvent
  refine .ite (.ite ?halts (.ite ?raises (trapEnds_none s))) (.ite (trapEnds_some (ends_raise _ s)) (trapEnds_none s))
  case halts => exact trapEnds_some (ends_unitState (ends_halt ..))
  case raises => exact trapEnds_some (ends_unitState (debugException_ends ..))

theorem decodeCode_ends (isa : ISA) (bs : List Byte) (s : State) : AccEnds s (decodeCode isa bs s) := by
  unfold decodeCode
  split
  · exact .refl s
  · exact ends_undefined s
  · split
    · exact .refl s
    · exact .ite (m := .stop _) (n := .stop _) (ends_undefined s) (ends_refused _ s)

theorem fetchUnit_quiet (n : Nat) (va : Word) (s : State) : LocQuiet s (fetchUnit n va s) :=
  (locate_quiet ..).bind fun _ v => .refl v

theorem fetchLocs_quiet (s : State) : LocQuiet s (fetchLocs s) :=
  .ite ((fetchUnit_quiet ..).bind fun xs v =>
    .ite (m := .ok xs v) (.refl v) ((fetchUnit_quiet ..).bind fun _ w => .refl w)) (fetchUnit_quiet ..)

theorem fetchInstr_ends (s : State) : AccEnds s (fetchInstr s) := by
  refine (toAcc_ends (fetchLocs_quiet s) _).bind fun xs u => ?_
  split
  next r he => exact (breakpointEvent_ends u).ends r he
  next =>
    exact .ite (m := .stop _) (ends_refused _ u) ((decodeCode_ends ..).bind fun c v => Quiet.refl v)

/-! ### The step of the PE -/

theorem stepInstr_ends (h : s.warmReset = .none) : Ends s (stepInstr s) := by
  have hrun : Ends s ((fetchInstr s).andThen fun cg v => beforeInstr cg.1 cg.2 v fun w =>
      withPrefix cg.1 (pairException cg.1) (controlException cg.1) w (execCode cg.1)) := by
    have hfetch := fetchInstr_ends s
    cases hf : fetchInstr s with
    | stop q =>
      rw [hf] at hfetch
      exact hfetch
    | ok cg v =>
      rw [hf] at hfetch
      exact .from hfetch (.ite (ends_raise _ v) (withPrefix_ends cg.1 (hfetch.warmReset.trans h)))
  exact ends_endSoftStep (.ite (debugException_ends ..) (.ite (ends_raise _ s) (.ite (ends_raise _ s) hrun)))

theorem ends_waitOn (w : Wait) (s : State) : Ends s (.next (waitOn w s)) := by
  unfold waitOn
  split <;> exact ends_same rfl rfl

theorem mayReset_none (h : s.warmReset = .none) (k : State → Result) : mayReset s k = k s := by simp [mayReset, h]

theorem quiet_endWait (s : State) : Quiet s { s with waiting := none } := ⟨rfl, rfl, rfl, rfl, rfl, rfl, fun _ _ => rfl⟩

theorem stepRun_ends (h : s.warmReset = .none) : Ends s (stepRun s) := by
  rw [stepRun, beforeStep, mayReset_none h]
  split
  · exact .from (quiet_endWait s) (ends_takeInterrupt ..)
  · split
    · exact ends_waitOn _ s
    · exact stepInstr_ends h

theorem stepDebug_ends (h : s.warmReset = .none) : Ends s (stepDebug s) := by
  rw [stepDebug, mayReset_none h]
  dsimp only
  split
  · exact ends_same rfl rfl
  next w rest _ =>
    have hitr : Quiet s { s with dbg := { s.dbg with itr := rest } } := ⟨rfl, rfl, rfl, rfl, rfl, rfl, fun _ _ => rfl⟩
    split
    next c _ => exact .from hitr (ends_showDebugState (withPrefix_ends c h))
    next => exact .from hitr (.ite (ends_showDebugState (ends_undefined _)) (ends_refused _ _))

theorem stepPe_ends (h : s.warmReset = .none) : Ends s (stepPe s) := .ite (stepDebug_ends h) (stepRun_ends h)

/-! ### The steps of other agents -/

theorem requestHalt_fate (s : State) : Fate s (requestHalt s) := by
  unfold requestHalt
  split
  · exact (ends_unitState (ends_halt 0b010011 (unitState s).pc (unitState s))).fate _ rfl
  · exact fate_same rfl rfl

theorem restart_fate (s : State) : Fate s (restart s) := by
  unfold restart
  split
  · refine fate_calm ?_ (privilegedKept_of_sys ?_)
    · rw [exitDebugState, updateEDSCRFields_eq]
      exact elNum_pstateFromSpsr_le _ (syncContext s)
    · rw [exitDebugState, updateEDSCRFields_eq]
      rfl
  · exact fate_same rfl rfl

theorem Quiet.fate (h : Quiet s t) : Fate s t := fate_calm (Nat.le_of_eq (by rw [h.ps])) h.kept

theorem quiet_answered (w : Option Word) (h : Quiet s t) : Quiet s (answered w t) :=
  h.trans ⟨rfl, rfl, rfl, rfl, rfl, rfl, fun _ _ => rfl⟩

theorem quiet_afterExtRead (q : ExtReg) (s : State) : Quiet s (afterExtRead q s) :=
  .ite ⟨rfl, rfl, rfl, rfl, rfl, rfl, fun _ _ => rfl⟩ (.refl s)

theorem quiet_afterAgentRead (q : FrameReg) (sp : Space) (s : State) : Quiet s (afterAgentRead q sp s) := by
  unfold afterAgentRead
  split
  · exact .ite (quiet_afterExtRead _ s) (.refl s)
  · exact .refl s

theorem quiet_agentFrameWrite (q : FrameReg) (sp : Space) (v : Word) (s : State) : Quiet s (agentFrameWrite q sp v s) :=
  .ite (quiet_writeFrameReg q v s) (.refl s)

theorem quiet_setCorePower (on : Bool) (s : State) : Quiet s (setCorePower on s) := by
  unfold setCorePower
  dsimp only
  split
  · exact ⟨rfl, rfl, rfl, rfl, rfl, rfl, fun _ _ => rfl⟩
  · split <;> exact ⟨rfl, rfl, rfl, rfl, rfl, rfl, fun _ _ => rfl⟩

theorem setInterrupts_fate (i : Interrupts) (s : State) : Fate s (setInterrupts i s) := by
  unfold setInterrupts
  dsimp only
  split
  · rw [updateEDSCRFields_eq]
    exact fate_same rfl rfl
  · exact fate_same rfl rfl

theorem quiet_observerWrite (key : Nat) (b : Byte) (s : State) : Quiet s (observerWrite key b s) := by
  have hbyte : Quiet s (observedByte key b s) := by
    unfold observedByte
    split
    · exact quiet_writeFrameByte ..
    · exact quiet_writeByte ..
  exact hbyte.trans ⟨rfl, rfl, rfl, rfl, rfl, rfl, fun _ _ => rfl⟩

theorem recordTaken_fate (n : Fin 32) (src tgt inf : Word) (s : State) : Fate s (recordTaken n src tgt inf s) := by
  unfold recordTaken
  split <;> exact fate_same rfl rfl

theorem recordException_fate (n : Fin 32) (src tgt inf : Word) (s : State) : Fate s (recordException n src tgt inf s) := by
  unfold recordException
  split <;> exact fate_same rfl rfl

theorem quiet_bufferWrite (access : Access) (bs : List Byte) (ptr : Word) (s : State) :
    Quiet s (bufferWrite access bs ptr s).2.2 := by
  induction bs generalizing ptr s with
  | nil => exact .refl s
  | cons b bs ih =>
    have h := locate_quiet (bufferDesc access) 1 ptr false s
    rw [bufferWrite]
    split
    next hloc =>
      rw [hloc] at h
      exact (h.trans (quiet_writeLoc ..)).trans (ih _ _)
    next hloc =>
      rw [hloc] at h
      exact h

theorem writeProfile_fate (bytes : List Byte) (s : State) : Fate s (writeProfile bytes s) := by
  unfold writeProfile
  split
  · exact fate_same rfl rfl
  · have h := quiet_bufferWrite .profile bytes (ireg s .PMBPTR_EL1) s
    exact fate_calm (Nat.le_of_eq (congrArg (elNum ·.el) h.ps))
      (h.kept.trans (privilegedKept_setReg (p := .PMBPTR_EL1) (by decide) _ _))

theorem profileSample_fate (p : SpeSample) (s : State) : Fate s (profileSample p s) := by
  unfold profileSample
  split
  · split
    · exact writeProfile_fate ..
    · exact fate_same rfl rfl
  · exact fate_same rfl rfl

theorem writeTrace_fate (bytes : List Byte) (s : State) : Fate s (writeTrace bytes s) := by
  unfold writeTrace
  split
  · exact fate_same rfl rfl
  · have h := quiet_bufferWrite .trace bytes (ireg s .TRBPTR_EL1) s
    exact fate_calm (Nat.le_of_eq (congrArg (elNum ·.el) h.ps))
      (h.kept.trans (privilegedKept_setReg (p := .TRBPTR_EL1) (by decide) _ _))

theorem quiet_countStall (slot available accepts : Bool) (s : State) : Quiet s (countStall slot available accepts s) := by
  have hbackend {c : Prop} [Decidable c] (e : BitVec 16) : Quiet s (if c then countEvent e s else s) :=
    .ite (quiet_countEvent e s) (.refl s)
  exact .ite (hbackend _) ((hbackend _).trans (quiet_countEvent ..))

/-- An event of another agent comes to an end that a step may have. -/
theorem agentEffect_fate (e : AgentEvent) (s : State) : Fate s (agentEffect e s) := by
  cases e with
  | pe | itr | debugInputs | debugEvents | wakeUp | inject | captureTimestamp | error => exact fate_same rfl rfl
  | haltRequest => exact requestHalt_fate s
  | restart => exact restart_fate s
  | extRead => exact (quiet_answered _ (quiet_afterExtRead ..)).fate
  | extWrite => exact (quiet_answered _ (quiet_extWrite ..)).fate
  | frameRead => exact (quiet_answered _ (quiet_afterAgentRead ..)).fate
  | frameWrite => exact (quiet_answered _ (quiet_agentFrameWrite ..)).fate
  | corePower => exact (quiet_setCorePower ..).fate
  | interrupts => exact setInterrupts_fate ..
  | observerWrite => exact (quiet_observerWrite ..).fate
  | branch => exact recordTaken_fate ..
  | exception => exact recordException_fate ..
  | profile => exact profileSample_fate ..
  | trace => exact writeTrace_fate ..
  | l2dTlb => exact ((quiet_countEvent 0x002F s).trans (quiet_countEvent ..)).fate
  | speculated => exact (quiet_countReduction ..).fate
  | speculatedSve | snoop => exact (Quiet.ite (quiet_countEvent ..) (.refl s)).fate
  | stall => exact (quiet_countStall ..).fate
  | microarchitectural => exact (Quiet.ite (.refl s) (quiet_countEvent ..)).fate
  | otherPE => exact (quiet_countEventWhere ..).fate

/-! ### The whole step -/

theorem quiet_nextAgent (rest : List AgentEvent) (s : State) : Quiet s { s with agents := rest } :=
  ⟨rfl, rfl, rfl, rfl, rfl, rfl, fun _ _ => rfl⟩

theorem stepBody_ends (h : s.warmReset = .none) : Ends s (stepBody s) := by
  unfold stepBody
  split
  · exact stepPe_ends h
  next rest _ => exact .from (quiet_nextAgent rest s) (stepPe_ends h)
  next e rest _ _ =>
    have hseq : Quiet s { s with agents := rest, resetSeq := laterSeq s.resetSeq } :=
      ⟨rfl, rfl, rfl, rfl, rfl, rfl, fun _ _ => rfl⟩
    exact .from hseq (ends_next (agentEffect_fate e _))

theorem step_fate (h : s.warmReset = .none) (hstep : step s = .next t) : Fate s t := by
  obtain ⟨u, hbody, htop, hafter⟩ := step_next hstep
  obtain ⟨v, hnext, heq, -, hsys⟩ := afterStep_next htop
  obtain rfl : v = t := by
    rw [hnext] at hafter
    exact Host.Outcome.next.inj hafter
  refine ((stepBody_ends h).fate u hbody).later ?_ ?_ hsys
  · rw [heq]
  · rw [heq]

end

/-- Settles O4: every end of a step either keeps the level from rising or is an exception entry (`step_fate`). -/
theorem levelRisesOnlyByException : Obligations.LevelRisesOnlyByException := by
  unfold Obligations.LevelRisesOnlyByException
  intro s t hreset hpre hstep hrises
  rcases (step_fate hreset hstep).level hpre with hle | he
  · omega
  · obtain ⟨hd, ha, hi, hf⟩ := he.masks
    exact ⟨he.pc, hd, ha, hi, hf, he.spsel, he.nRW, he.il, he.spsr⟩

/-- Settles O5: every end of a step from EL0 keeps the privileged registers (`step_fate`). -/
theorem privilegedRegistersKeptAtEL0 : Obligations.PrivilegedRegistersKeptAtEL0 := by
  unfold Obligations.PrivilegedRegistersKeptAtEL0
  intro s t r hel hreset hstep hr
  exact (step_fate hreset hstep).kept hel r hr

end Sys2Proof.Proofs
end

