-- ==== Sys2Proof/Proofs/TimerViews.lean ====
section
/-! The two views of a timer. -/

namespace Sys2Proof.Proofs

open Sys2Proof.Machine Sys2Proof.Safety Sys2Proof.Laws

section
variable {s u : State}

/-! ### The offset is of registers that no view of a timer writes -/

theorem Quiet.ibit (h : Quiet s u) {q : SysReg} (hq : q ∈ privileged) (n : Nat) : ibit u q n = ibit s q n := by
  rw [Machine.ibit, h.ireg hq, Machine.ibit]

theorem Quiet.has (h : Quiet s u) (f : Feature) : has f u = has f s := by rw [Machine.has, h.cfg, Machine.has]

theorem Quiet.el2Enabled (h : Quiet s u) : el2Enabled u = el2Enabled s := by
  simp only [Machine.el2Enabled, h.cfg, h.ibit (q := .SCR_EL3) (by decide)]

theorem Quiet.hcr (h : Quiet s u) (n : Nat) : hcr u n = hcr s n := by
  simp only [Machine.hcr, hcrImplemented, h.el2Enabled, h.has, h.ibit (q := .HCR_EL2) (by decide)]

theorem Quiet.e2hTge (h : Quiet s u) : e2hTge u = e2hTge s := by rw [Machine.e2hTge, h.hcr, h.hcr, Machine.e2hTge]

theorem Quiet.physOffsetApplies (h : Quiet s u) : physOffsetApplies u = physOffsetApplies s := by
  simp only [Machine.physOffsetApplies, h.has, h.el2Enabled, h.cfg, h.e2hTge, h.ibit (q := .SCR_EL3) (by decide),
    h.ibit (q := .CNTHCTL_EL2) (by decide)]

theorem Quiet.cntpoff (h : Quiet s u) : cntpoff u = cntpoff s := by
  simp only [Machine.cntpoff, cntpoffZero, h.cfg, h.ibit (q := .SCR_EL3) (by decide),
    h.ireg (q := .CNTPOFF_EL2) (by decide)]
  rfl

theorem Quiet.timerOffset (h : Quiet s u) (tm : Timer) : timerOffset tm u = timerOffset tm s := by
  cases tm with
  | el1Phys => simp only [Machine.timerOffset, h.physOffsetApplies, h.cntpoff]
  | el1Virt => exact h.ireg (by decide)
  | _ => rfl

theorem timerOffset_setCval (tm tm' : Timer) (v : Word) (s : State) :
    timerOffset tm' (setReg (timerCval tm) v s) = timerOffset tm' s :=
  (quiet_setReg (by cases tm <;> decide) v s).timerOffset tm'

/-! ### TimerValue -/

theorem readTval_setCval (tm : Timer) (v : Word) (s : State) :
    readTval tm (setReg (timerCval tm) v s) = ((v - (s.count - timerOffset tm s)).setWidth 32).setWidth 64 := by
  rw [readTval, sreg_setReg, if_pos rfl, timerOffset_setCval]
  rfl

end

/-- The low half of a value is not touched by extending it. -/
theorem setWidth_signExtend_low (v : Word) : (((v.setWidth 32).signExtend 64).setWidth 32) = v.setWidth 32 :=
  BitVec.eq_of_getLsbD_eq fun i hi => by
    simp only [BitVec.getLsbD_setWidth, BitVec.getLsbD_signExtend, hi, decide_true, Bool.true_and, if_true,
      show i < 64 by omega]

/-- Settles O21: both views use the same difference of the count and the Offset, which a write of CompareValue leaves as it is. -/
theorem timerViewsAgree : Obligations.TimerViewsAgree := by
  unfold Obligations.TimerViewsAgree
  intro s tm v
  refine ⟨rfl, rfl, ?_⟩
  rw [readTval_setCval, tvalToCval, add_comm, add_sub_cancel_right, setWidth_signExtend_low]

end Sys2Proof.Proofs
end

