-- ==== Sys2Proof/Proofs/SystemCalls.lean ====
section
/-! SVC, HVC, SMC and BRK. -/

namespace Sys2Proof.Proofs

open Sys2Proof.Machine Sys2Proof.Safety Sys2Proof.Laws

/-- The syndrome of an exception of an instruction of 32 bits holds an immediate of 16 bits as it is. -/
theorem syndrome_imm16 {e : ExcReq} {imm16 : BitVec 16} (hiss : e.iss = imm16.setWidth 25) (hwide : e.narrow = false) :
    syndrome e = (fieldTo 26 e.ec ||| bitTo 25 true ||| imm16.setWidth 64) := by
  have himm : fieldTo 0 (imm16.setWidth 25) = imm16.setWidth 64 := by
    rw [fieldTo, BitVec.shiftLeft_zero]
    exact BitVec.setWidth_setWidth (by decide)
  rw [syndrome, hiss, hwide, himm, Bool.not_false]

/-- Memory, its tags and, from AArch64 state, the general registers are not part of exception entry. -/
theorem takeException_frame (e : ExcReq) (s : State) :
    (takeException e s).mem = s.mem ∧ (takeException e s).tags = s.tags ∧
      (s.ps.nRW = false → (takeException e s).x = s.x) := by
  rw [takeException_eq]
  refine ⟨?_, ?_, fun hnRW => by simp [entryUpperHalves, hnRW]⟩ <;>
    obtain ⟨-, hctx⟩ | ⟨-, hctx⟩ := entryContext_cases e.target s <;> simp [hctx]

/-- What a synchronous exception with an immediate in its syndrome saves and leaves as it is, and where it goes. -/
theorem raise_imm16 {e : ExcReq} {imm16 : BitVec 16} {s : State} (hkind : e.kind = .sync)
    (hiss : e.iss = imm16.setWidth 25) (hwide : e.narrow = false) (hA64 : elUsesA32 e.target s = false) :
    ∃ t, raise e s = .next t ∧ t.ps.el = e.target ∧ sreg t (elrReg e.target) = e.ret ∧
      sreg t (spsrReg e.target) = spsrOf s ∧
      sreg t (esrReg e.target) = (fieldTo 26 e.ec ||| bitTo 25 true ||| imm16.setWidth 64) ∧
      t.pc = vectorBase e.target s + vectorOffset e.target .sync s ∧ t.mem = s.mem ∧ t.tags = s.tags ∧
      (s.ps.nRW = false → t.x = s.x) := by
  refine ⟨takeException e s, raise_eq hA64, ?_, sreg_takeException_elr, sreg_takeException_spsr, ?_, ?_,
    takeException_frame e s⟩
  · rw [takeException_ps]; rfl
  · rw [sreg_takeException_esr (.inl hkind), syndrome_imm16 hiss hwide]
  · rw [takeException_pc, hkind]

theorem el3SddUndef_running {s : State} (h : halted s = false) : el3SddUndef s = false := by simp [el3SddUndef, h]

/-- Settles O41: past its own checks each of the four raises one exception (`raise_imm16`). -/
theorem systemCallsAndBreakpoint : Obligations.SystemCallsAndBreakpoint := by
  unfold Obligations.SystemCallsAndBreakpoint
  intro s imm16
  refine ⟨?taken, fun hel => ⟨?_, ?_⟩, rfl⟩
  case taken =>
    intro i el ec ret hi hrun hA64
    suffices h : exec i s = raise { syncExc el ec (imm16.setWidth 25) s with ret := ret } s by
      rw [h]
      exact raise_imm16 (e := { syncExc el ec (imm16.setWidth 25) s with ret := ret }) rfl rfl rfl hA64
    rcases hi with ⟨rfl, rfl, rfl, rfl⟩ | ⟨rfl, hel, hel2, hen, rfl, rfl, rfl⟩ | ⟨rfl, hel, hel3, rfl, rfl, rfl⟩ |
      ⟨rfl, rfl, rfl, rfl⟩
    case inl | inr.inr.inr => rfl
    case inr.inl =>
      have hok : ¬(s.ps.el = .el0 ∨ ¬s.cfg.hasEL2 ∨ (s.ps.el = .el1 ∧ ¬el2Enabled s)) := by
        simp only [not_or, not_and, not_not]
        exact ⟨hel, hel2, hen⟩
      exact if_neg hok
    case inr.inr.inl =>
      have hok : ¬(s.ps.el = .el0 ∨ ¬s.cfg.hasEL3 ∨ el3SddUndef s) := by simp [hel, hel3, el3SddUndef_running hrun]
      exact if_neg hok
  · exact if_pos (.inl hel)
  · exact if_pos (.inl hel)

end Sys2Proof.Proofs
end

