-- ==== Sys2Proof/Proofs/Halting.lean ====
section
/-! HLT and DRPS: entry to Debug state, and PSTATE restored there. -/

namespace Sys2Proof.Proofs

open Sys2Proof.Machine Sys2Proof.Safety Sys2Proof.Laws

/-! ### EDSCR.STATUS, bits [5:0] -/

theorem status_setBit {n : Nat} (h : 6 ≤ n) (v : Half) (b : Bool) : field (setBit v n b) 0 6 = field v 0 6 := by
  refine BitVec.eq_of_getLsbD_eq fun i hi => ?_
  simp only [field, BitVec.getLsbD_extractLsb', hi, decide_true, Bool.true_and]
  exact getLsbD_setBit_other _ _ (by omega)

theorem status_withField {n lo : Nat} (h : 6 ≤ lo) (v : Half) (f : BitVec n) :
    field (withField v lo f) 0 6 = field v 0 6 := by
  refine BitVec.eq_of_getLsbD_eq fun i hi => ?_
  simp only [field, withField, BitVec.getLsbD_extractLsb', hi, decide_true, Bool.true_and, getLsbD_copyBits,
    show ¬ (lo ≤ 0 + i) by omega]
  simp

theorem status_withField_status (v : Half) (f : BitVec 6) : field (withField v 0 f) 0 6 = f := by
  refine BitVec.eq_of_getLsbD_eq fun i hi => ?_
  simp only [field, withField, BitVec.getLsbD_extractLsb', hi, decide_true, Bool.true_and, getLsbD_copyBits]
  simp [hi, show i < 32 by omega]

/-- What EDSCR shows of the current state is none of STATUS. -/
theorem status_updateEDSCRFields (s : State) :
    field (updateEDSCRFields s).dbg.edscr 0 6 = field s.dbg.edscr 0 6 := by
  unfold updateEDSCRFields
  split
  · cases has .RME s <;> simp [setEdscr, status_withField, status_setBit]
  · cases has .RME s <;> simp [setEdscr, status_withField, status_setBit]

theorem edprsr_updateEDSCRFields (s : State) : (updateEDSCRFields s).dbg.edprsr = s.dbg.edprsr := by
  unfold updateEDSCRFields
  split <;> rfl

theorem halted_updateEDSCRFields (s : State) : halted (updateEDSCRFields s) = halted s :=
  halted_congr (status_updateEDSCRFields s)

theorem bitAt_setBit_true {n : Nat} (h : n < 32) (v : Half) : bitAt (setBit v n true) n = true := by
  simp [bitAt, setBit, h]

/-! ### Entry to Debug state -/

section
variable (reason : BitVec 6) (ret : Word) (s : State)

theorem status_halt : field (halt reason ret s).dbg.edscr 0 6 = reason := by
  rw [halt, status_updateEDSCRFields]
  exact status_withField_status ..

theorem edprsr_halt : (halt reason ret s).dbg.edprsr = setBit s.dbg.edprsr 4 true := by
  rw [halt, edprsr_updateEDSCRFields]
  rfl

/-- Entry to Debug state leaves registers, the pc and memory. -/
theorem halt_frame : (halt reason ret s).pc = s.pc ∧ (halt reason ret s).x = s.x ∧ (halt reason ret s).sp = s.sp ∧
    (halt reason ret s).mem = s.mem ∧ (halt reason ret s).tags = s.tags := by
  rw [halt, updateEDSCRFields_eq]
  simp

theorem sreg_halt (q : SysReg) :
    sreg (halt reason ret s) q = sreg (setReg .DSPSR_EL0 (spsrOf s) (setReg .DLR_EL0 ret s)) q := by
  have hsys : (halt reason ret s).sys = (setReg .DSPSR_EL0 (spsrOf s) (setReg .DLR_EL0 ret s)).sys := by
    rw [halt, updateEDSCRFields_eq]
    rfl
  rw [sreg, hsys, sreg]

theorem sreg_halt_saved : sreg (halt reason ret s) .DLR_EL0 = ret ∧ sreg (halt reason ret s) .DSPSR_EL0 = spsrOf s := by
  rw [sreg_halt, sreg_halt]
  constructor
  · rw [sreg_setReg, if_neg (by decide), sreg_setReg, if_pos rfl]
  · rw [sreg_setReg, if_pos rfl]

end

/-! ### PSTATE restored -/

theorem restoreFlags64_flags (v : Word) (s : State) (p : PState) :
    (restoreFlags64 v s p).n = p.n ∧ (restoreFlags64 v s p).z = p.z ∧ (restoreFlags64 v s p).c = p.c ∧
      (restoreFlags64 v s p).v = p.v := by
  unfold restoreFlags64
  split <;> exact ⟨rfl, rfl, rfl, rfl⟩

/-- Whatever mode it names, an SPSR restores the flags. -/
theorem pstateFromSpsr_flags (v : Word) (s : State) :
    (pstateFromSpsr v s).n = bitAt v 31 ∧ (pstateFromSpsr v s).z = bitAt v 30 ∧ (pstateFromSpsr v s).c = bitAt v 29 ∧
      (pstateFromSpsr v s).v = bitAt v 28 := by
  unfold pstateFromSpsr
  dsimp only
  split
  · exact restoreFlags64_flags v s (restoreFlags v s.ps)
  · split
    · exact ⟨rfl, rfl, rfl, rfl⟩
    · split
      · exact ⟨rfl, rfl, rfl, rfl⟩
      · exact restoreFlags64_flags v s { restoreFlags v s.ps with nRW := false }

/-- PSTATE of a legal return to an AArch64 mode. -/
theorem pstateFromSpsr_legal {v : Word} {s : State} {el : EL} {sp : Bool} (h64 : bitAt v 4 = false)
    (hlegal : illegalReturn v s = false) (hmode : modeTarget (field v 0 4) = some (el, sp)) :
    pstateFromSpsr v s = { restoreFlags64 v s { restoreFlags v s.ps with nRW := false } with
      il := bitAt v 20, ss := bitAt v 21, t := false, el := el, spsel := sp, btype := field v 10 2
      pacm := if has .PAuth_LR s then bitAt v 35 else s.ps.pacm } := by
  simp only [pstateFromSpsr, hlegal, h64, hmode, Bool.false_eq_true, if_false]
  rfl

/-! ### DRPS -/

theorem execDrps_eq {s : State} (hhalted : halted s = true) (hel : s.ps.el ≠ .el0) :
    exec .drps s = .next (debugRestorePsr (syncContext s)) := by
  have hok : ¬(¬halted s ∨ s.ps.el = .el0) := by simp [hhalted, hel]
  have hsame : (if drpsSynchronises s then synchronizeErrors s else s) = s := ite_self s
  rw [show exec .drps s = execDrps s from rfl, execDrps, if_neg hok, hsame]

theorem debugRestorePsr_eq (s : State) : debugRestorePsr s =
    { s with ps := pstateFromSpsr (sreg s (spsrReg s.ps.el)) s, dbg := (debugRestorePsr s).dbg } := by
  rw [debugRestorePsr, updateEDSCRFields_eq]

theorem halted_debugRestorePsr (s : State) : halted (debugRestorePsr s) = halted s := by
  rw [debugRestorePsr, halted_updateEDSCRFields]
  exact halted_congr rfl

/-- Settles O42: `halt` and `debugRestorePsr` are each read off field by field. -/
theorem haltingAndRestoring : Obligations.HaltingAndRestoring := by
  unfold Obligations.HaltingAndRestoring
  intro s imm16
  refine ⟨fun hhde hallowed => ?halts, fun h => ?staysUndefined, fun h => ?drpsUndefined, fun hhalted hel => ?restores⟩
  case halts =>
    have hexec : exec (.hlt imm16) s = .next (halt 0b101111 s.pc s) := if_pos (by simp [hhde, hallowed])
    obtain ⟨hpc, hx, hsp, hmem, htags⟩ := halt_frame 0b101111 s.pc s
    obtain ⟨hdlr, hdspsr⟩ := sreg_halt_saved 0b101111 s.pc s
    refine ⟨_, hexec, ?_, status_halt .., ?_, hdlr, hdspsr, hpc, hx, hsp, hmem, htags,
      fun q h1 h2 => sreg_halt_other h1 h2 ..⟩
    · rw [halted, status_halt]
      rfl
    · rw [edprsr_halt]
      exact bitAt_setBit_true (by decide) _
  case staysUndefined =>
    have hno : ¬(bitAt s.dbg.edscr 14 && haltingAllowed s) = true := by
      rcases h with h | h <;> simp [h]
    exact if_neg hno
  case drpsUndefined => exact if_pos (by rcases h with h | h <;> simp [h])
  case restores =>
    obtain ⟨hn, hz, hc, hv⟩ := pstateFromSpsr_flags (sreg s (spsrReg s.ps.el)) (syncContext s)
    refine ⟨_, execDrps_eq hhalted hel, (halted_debugRestorePsr _).trans hhalted, ?_⟩
    rw [debugRestorePsr_eq]
    refine ⟨rfl, rfl, rfl, rfl, rfl, rfl, rfl, rfl, hn, hz, hc, hv, fun el sp h64 hlegal hmode => ?_⟩
    have hps := pstateFromSpsr_legal h64 hlegal hmode
    exact ⟨congrArg PState.el hps, congrArg PState.spsel hps⟩

end Sys2Proof.Proofs
end

