-- ==== Sys2Proof/Proofs/ExceptionReturn.lean ====
section
/-! ERET, ERETAA and ERETAB: the legal return to an AArch64 level, and the illegal one. -/

namespace Sys2Proof.Proofs

open Sys2Proof.Machine Sys2Proof.Safety Sys2Proof.Laws

section
variable {s : State} {v a : Word}

/-! ### The way to the return -/

/-- Nothing comes before an exception return that is not trapped. -/
theorem eretGate_eq (hrun : halted s = false) (hel : s.ps.el ≠ .el0) (htrap : eretTrapped s = false) (iss : BitVec 25)
    (auth : Option Result) (r : Result) : eretGate iss auth s r = r := by
  simp [eretGate, notHalted_eq hrun, hel, eretTrap, htrap]

theorem returnTo_eq (hserror : intReady .serror s = false) (a : Word) :
    returnTo a s = .next (exceptionReturn a (sreg s (spsrReg s.ps.el)) s) := by
  simp [returnTo, takeUnmaskedSError, hserror]

/-- An address that authenticates, or is not to be authenticated, is returned to. -/
theorem returnAuthenticated_eq {k : PacKey} (hpauth : has .PAuth s = true)
    (ha : sctlr s k.enable = false ∧ a = elrValue s ∨ sctlr s k.enable = true ∧ apiTraps s = false ∧
      pacCorrect k (elrValue s) (readSP s) s = true ∧ a = pacStrip (pacField false (elrValue s) s) (elrValue s)) :
    returnAuthenticated k s = returnTo a s := by
  have hfails : authFails k (elrValue s) (readSP s) s = false := by
    rcases ha with ⟨hdisabled, -⟩ | ⟨-, -, hcorrect, -⟩
    · simp [authFails, hdisabled]
    · simp [authFails, hcorrect]
  rw [returnAuthenticated, authCombined_goesOn hpauth ha, hfails, if_neg Bool.false_ne_true]

/-! ### What the return makes of the state -/

/-- The context of the return is that of `s` but for what synchronisation changes. -/
def returnContext (s : State) : State := if returnSynchronises s then syncContext s else s

theorem returnContext_cases (s : State) : returnContext s = syncContext s ∨ returnContext s = s := by
  unfold returnContext
  split
  · exact .inl rfl
  · exact .inr rfl

theorem exceptionReturn_ps (a v : Word) (s : State) :
    (exceptionReturn a v s).ps = pstateFromSpsr v (returnContext s) := rfl

theorem exceptionReturn_pc (hnRW : (pstateFromSpsr v (returnContext s)).nRW = false) (a : Word) :
    (exceptionReturn a v s).pc = a := by
  have hpc : (exceptionReturn a v s).pc =
      if (pstateFromSpsr v (returnContext s)).nRW then (a.setWidth 32).setWidth 64 else a := rfl
  rw [hpc, hnRW, if_neg Bool.false_ne_true]

theorem exceptionReturn_frame (a v : Word) (s : State) :
    (exceptionReturn a v s).exLocal = none ∧ (exceptionReturn a v s).x = s.x ∧ (exceptionReturn a v s).sp = s.sp ∧
      (exceptionReturn a v s).mem = s.mem ∧ (exceptionReturn a v s).tags = s.tags ∧
      (exceptionReturn a v s).sys = s.sys ∧ (exceptionReturn a v s).dbg = s.dbg := by
  unfold exceptionReturn
  obtain h | h := returnContext_cases s <;> rw [returnContext] at h <;> simp [h]

/-- A legal return to an AArch64 mode goes to the address with the fields of the SPSR. -/
theorem exceptionReturn_legal {t : State} {el : EL} {sp : Bool} (h64 : bitAt v 4 = false)
    (hlegal : illegalReturn v (returnContext s) = false) (hmode : modeTarget (field v 0 4) = some (el, sp))
    (ht : t = exceptionReturn a v s) :
    t.pc = a ∧ t.ps.el = el ∧ t.ps.spsel = sp ∧ t.ps.nRW = false ∧
      t.ps.n = bitAt v 31 ∧ t.ps.z = bitAt v 30 ∧ t.ps.c = bitAt v 29 ∧ t.ps.v = bitAt v 28 ∧
      t.ps.il = bitAt v 20 ∧ t.ps.d = bitAt v 9 ∧ t.ps.a = bitAt v 8 ∧ t.ps.i = bitAt v 7 ∧ t.ps.f = bitAt v 6 := by
  subst ht
  have hps := pstateFromSpsr_legal h64 hlegal hmode
  have hpc := exceptionReturn_pc (congrArg PState.nRW hps) a
  rw [exceptionReturn_ps, hps]
  exact ⟨hpc, rfl, rfl, rfl, rfl, rfl, rfl, rfl, rfl, rfl, rfl, rfl, rfl⟩

end

/-- Settles O12: nothing comes before the return, which is legal (`pstateFromSpsr_legal`). -/
theorem exceptionReturns : Obligations.ExceptionReturns := by
  unfold Obligations.ExceptionReturns
  intro s i a el sp hrun hel htrap hserror hi spsr hspsr h64 hlegal hmode
  subst hspsr
  have hexec : exec i s = returnTo a s := by
    rcases hi with ⟨rfl, rfl⟩ | ⟨k, ⟨rfl, rfl⟩ | ⟨rfl, rfl⟩, hpauth, ha⟩
    · exact eretGate_eq hrun hel htrap ..
    · exact (if_pos hpauth).trans ((eretGate_eq hrun hel htrap ..).trans (returnAuthenticated_eq hpauth ha))
    · exact (if_pos hpauth).trans ((eretGate_eq hrun hel htrap ..).trans (returnAuthenticated_eq hpauth ha))
  obtain ⟨hpc, hlevel, hspsel, hnRW, hn, hz, hc, hv, hil, hd, ha, hi, hf⟩ :=
    exceptionReturn_legal h64 hlegal hmode (a := a) rfl
  obtain ⟨hlocal, hx, hsp, hmem, htags, hsys, -⟩ := exceptionReturn_frame a (sreg s (spsrReg s.ps.el)) s
  exact ⟨_, hexec.trans (returnTo_eq hserror a), hpc, hlevel, hspsel, hnRW, hn, hz, hc, hv, hil, hd, ha, hi, hf, hlocal,
    hx, hsp, hmem, htags, hsys⟩

/-! ### The illegal return -/

section
variable {s : State} {v : Word}

/-- A mode that is reserved, or of a level above the current one or not implemented, makes a return illegal. -/
theorem illegalReturn_of_mode (h64 : bitAt v 4 = false)
    (hmode : modeTarget (field v 0 4) = none ∨
      ∃ el sp, modeTarget (field v 0 4) = some (el, sp) ∧ (elNum s.ps.el < elNum el ∨ haveEL el s = false)) :
    illegalReturn v s = true := by
  rcases hmode with hnone | ⟨el, sp, hsome, hbelow | hmissing⟩
  · simp [illegalReturn, h64, hnone]
  · simp [illegalReturn, h64, hsome, hbelow]
  · simp [illegalReturn, h64, hsome, hmissing]

/-- An illegal return sets PSTATE.IL and keeps the level, the stack pointer select and the Execution state. -/
theorem pstateFromSpsr_illegal (h : illegalReturn v s = true) :
    (pstateFromSpsr v s).il = true ∧ (pstateFromSpsr v s).el = s.ps.el ∧ (pstateFromSpsr v s).spsel = s.ps.spsel ∧
      (pstateFromSpsr v s).nRW = s.ps.nRW := by
  rw [pstateFromSpsr, if_pos h, restoreFlags64]
  split <;> exact ⟨rfl, rfl, rfl, rfl⟩

/-- With PSTATE.IL set the next instruction is an Illegal Execution state exception. -/
theorem beforeFetch_illegal {t : State} (hil : t.ps.il = true) (hstep : t.dbg.softwareStep = false)
    (k : State → Result) : beforeFetch t k = raise (syncExc (ownTarget t) 0x0E 0 t) t := by
  simp [beforeFetch, softStep, hstep, hil]

theorem returnContext_haveEL (el : EL) : haveEL el (returnContext s) = haveEL el s := by
  obtain h | h := returnContext_cases s <;> rw [h]
  rfl

theorem returnContext_ps (s : State) : (returnContext s).ps = s.ps := by
  obtain h | h := returnContext_cases s <;> rw [h]
  rfl

end

/-- Settles O13: an illegal return is still a return, to the address, with PSTATE.IL set (`pstateFromSpsr_illegal`). -/
theorem illegalReturnSetsIL : Obligations.IllegalReturnSetsIL := by
  unfold Obligations.IllegalReturnSetsIL
  intro s spsr hrun hel hA64 htrap hserror hspsr h64 hmode
  subst hspsr
  have hillegal : illegalReturn (sreg s (spsrReg s.ps.el)) (returnContext s) = true :=
    illegalReturn_of_mode h64 (by simpa only [returnContext_ps, returnContext_haveEL] using hmode)
  obtain ⟨hil, hlevel, hspsel, hnRW⟩ := pstateFromSpsr_illegal hillegal
  rw [returnContext_ps] at hlevel hspsel hnRW
  obtain ⟨-, -, -, -, -, -, hdbg⟩ := exceptionReturn_frame (elrValue s) (sreg s (spsrReg s.ps.el)) s
  have hexec : exec .eret s = returnTo (elrValue s) s := eretGate_eq hrun hel htrap ..
  exact ⟨_, hexec.trans (returnTo_eq hserror _), exceptionReturn_pc (hnRW.trans hA64) _, hil, hlevel, hspsel,
    hnRW.trans hA64, fun hstep k => beforeFetch_illegal hil (hdbg ▸ hstep) k⟩

end Sys2Proof.Proofs
end

