-- ==== Sys2Proof/Proofs/PointerAuthTraps.lean ====
section
/-! HCR_EL2.API traps every enabled instruction of pointer authentication. -/

namespace Sys2Proof.Proofs

open Sys2Proof.Machine Sys2Proof.Safety Sys2Proof.Laws

section
variable {s : State} {k : PacKey}

theorem apiTraps_of (hel2 : el2Enabled s = true) (hapi : ibit s .HCR_EL2 41 = false)
    (hel : s.ps.el = .el1 ∨ (s.ps.el = .el0 ∧ e2hTge s = false)) : apiTraps s = true := by
  rcases hel with hel | ⟨hel, htge⟩
  · simp [apiTraps, hel2, hapi, hel]
  · simp [apiTraps, hel2, hapi, hel, htge]

/-- An enabled PAC* or AUT* instruction is trapped. -/
theorem pacGate_trapped (hpauth : has .PAuth s = true) (henabled : sctlr s k.enable = true) (htrap : apiTraps s = true)
    (hint : Bool) (r : Result) : pacGate k hint s r = apiTrap s := by
  simp [pacGate, hpauth, henabled, htrap]

/-- An instruction that authenticates as part of something else is trapped. -/
theorem authCombined_trapped (hpauth : has .PAuth s = true) (henabled : sctlr s k.enable = true)
    (htrap : apiTraps s = true) (ptr m : Word) (f : State → State) (c : Word → Result) :
    authCombined k ptr m s f c = apiTrap s := by
  simp [authCombined, hpauth, henabled, htrap]

theorem eretAuth_trapped (hpauth : has .PAuth s = true) (henabled : sctlr s k.enable = true) (htrap : apiTraps s = true)
    (hrun : halted s = false) (hel : s.ps.el ≠ .el0) (heret : eretTrapped s = false) (iss : BitVec 25) :
    needsPAuth s (eretGate iss (pacTrap k s) s (returnAuthenticated k s)) = apiTrap s := by
  rw [needsPAuth, if_pos hpauth, eretGate_eq hrun hel heret]
  exact authCombined_trapped hpauth henabled htrap ..

theorem execLdra_trapped {m sbit w : BitVec 1} {imm9 : BitVec 9} {rn rt : BitVec 5} {base : Word}
    (hpauth : has .PAuth s = true) (henabled : sctlr s (if m = 1#1 then PacKey.db else PacKey.da).enable = true)
    (htrap : apiTraps s = true) (hbase : baseReg rn s = .ok base s) : execLdra m sbit imm9 w rn rt s = apiTrap s := by
  rw [execLdra, if_neg (by simp [hpauth]), hbase, andThen_value]
  exact authCombined_trapped hpauth henabled htrap ..

end

/-- Settles O38: each of the instructions meets the trap of `apiTraps` before its effect. -/
theorem pacInstructionsTrapped : Obligations.PacInstructionsTrapped := by
  unfold Obligations.PacInstructionsTrapped
  intro s rm rn rd hpauth hel2 hapi hel
  have htrap := apiTraps_of hel2 hapi hel
  have htrapped {r : Result} (h : r = apiTrap s) : ∃ iss, r = raise (syncExc .el2 0x09 iss s) s := ⟨0, h⟩
  refine ⟨htrapped ?pacga, fun p hp henabled => htrapped ?pac, fun hrun b hb henabled => htrapped ?branch,
    fun hrun habove heret => ⟨fun henabled => htrapped ?eretaa, fun henabled => htrapped ?eretab⟩,
    fun m sbit imm9 w base hbase henabled => htrapped (execLdra_trapped hpauth henabled htrap hbase)⟩
  case pacga =>
    have hexec : exec (.pacga rm rn rd) s = execPacga rm rn rd s := rfl
    rw [hexec, execPacga, if_neg (by simp [hpauth]), if_pos htrap]
  case pac =>
    rcases List.mem_append.mp hp with hp | hp
    · exact (exec_pacInserts rn rd s p hp).trans (pacGate_trapped hpauth henabled htrap ..)
    · exact (exec_pacChecks rn rd s p hp).trans (pacGate_trapped hpauth henabled htrap ..)
  case branch => exact (exec_authBranches hrun hpauth rn rm b hb).trans (authCombined_trapped hpauth henabled htrap ..)
  case eretaa => exact eretAuth_trapped hpauth henabled htrap hrun habove heret 2
  case eretab => exact eretAuth_trapped hpauth henabled htrap hrun habove heret 3

end Sys2Proof.Proofs
end

