-- ==== Sys2Proof/Proofs/CounterAccess.lean ====
section
/-! Reads of the physical and the virtual counter by their names. -/

namespace Sys2Proof.Proofs

open Sys2Proof.Machine Sys2Proof.Safety Sys2Proof.Laws

/-- The trap of a counter read: by the controls of EL0, then by those of EL2. -/
def counterTrap (virt : Bool) (s : State) : Permission :=
  if el0CounterTrap virt s then .trap (ownTarget s) else if el2CounterTrap virt s then .trap .el2 else .allowed

/-- What a counter read gives. -/
def counterValue (virt : Bool) (s : State) : Word := if virt then readCntvct s else readCntpct s

/-- The selector names a view of a counter, the virtual one or the physical one. -/
structure CounterName (sel : BitVec 15) (v : View) (virt : Bool) : Prop where
  name : nameOf sel = some (.view v)
  op1 : selOp1 sel = 3
  noPstate : isPstateView (.view v) = false
  ungated : v ≠ .SVCR
  noRandom : v ≠ .RNDR ∧ v ≠ .RNDRRS
  notRedirected : redirect (.view v) = .view v
  trap : ∀ s, viewTrap v s = counterTrap virt s
  value : ∀ s, viewValue v s = counterValue virt s

theorem counterName_CNTPCT : CounterName 0x5F01 .CNTPCT_EL0 false :=
  ⟨by decide, by decide, rfl, by decide, by decide, rfl, fun _ => rfl, fun _ => rfl⟩

theorem counterName_CNTVCT : CounterName 0x5F02 .CNTVCT_EL0 true :=
  ⟨by decide, by decide, rfl, by decide, by decide, rfl, fun _ => rfl, fun _ => rfl⟩

theorem counterName_CNTPCTSS : CounterName 0x5F05 .CNTPCTSS_EL0 false :=
  ⟨by decide, by decide, rfl, by decide, by decide, rfl, fun _ => rfl, fun _ => rfl⟩

theorem counterName_CNTVCTSS : CounterName 0x5F06 .CNTVCTSS_EL0 true :=
  ⟨by decide, by decide, rfl, by decide, by decide, rfl, fun _ => rfl, fun _ => rfl⟩

section
variable {sel : BitVec 15} {v : View} {virt : Bool} {rt : BitVec 5} {s : State} {i : Instr}

/-- No check but the trap of the counter stands before a read by a name that exists. -/
theorem CounterName.permission_eq (hn : CounterName sel v virt) (hexists : nameExists (.view v) false s = true) :
    permission sel (.view v) false s = counterTrap virt s := by
  have hnv : nvPermission sel s = none := nvPermission_none (.inr (.inr (by simp [hn.op1])))
  have hlevel : minLevel sel ≤ elNum s.ps.el := by simp [minLevel, hn.op1]
  have htid3 : tid3Traps sel (some (.view v)) s = false := by simp [tid3Traps, idSpace, hn.op1]
  exact (permission_own hnv hlevel hexists (firstTrap_none (.inr htid3) nofun)).trans (hn.trap s)

/-- A read that is not trapped completes with the count. -/
theorem CounterName.completes_read (hn : CounterName sel v virt) (hexists : nameExists (.view v) false s = true)
    (hel0 : el0CounterTrap virt s = false) (hel2 : el2CounterTrap virt s = false)
    (hexec : exec i s = readSys sel rt s) :
    ∃ t, Completes i [rt] false false s s t ∧ Holds rt (counterValue virt s) t := by
  have hallowed : permission sel (.view v) false s = .allowed := by
    rw [hn.permission_eq hexists, counterTrap, hel0, hel2]
    rfl
  have hwrite : exec i s = .next (advance (writeX rt (viewValue v s) s)) := by
    rw [hexec, readSys_allowed hn.name (by simp [hn.noPstate]) hallowed (by simpa using hn.ungated),
      performRead_view hn.noRandom.1 hn.noRandom.2 (.inr hn.notRedirected)]
  rw [← hn.value s]
  exact ⟨_, completes_writeX hwrite false false⟩

/-- A read that EL2 traps is an exception with EC 0x18. -/
theorem CounterName.traps_read (hn : CounterName sel v virt) (hexists : nameExists (.view v) false s = true)
    (hel0 : el0CounterTrap virt s = false) (hel2 : el2CounterTrap virt s = true)
    (hexec : exec i s = readSys sel rt s) : ∃ iss, exec i s = raise (syncExc .el2 0x18 iss s) s := by
  have htrap : permission sel (.view v) false s = .trap .el2 := by
    rw [hn.permission_eq hexists, counterTrap, hel0, hel2]
    rfl
  rw [hexec, readSys_trap hn.name (by simp [hn.noPstate]) htrap]
  exact sysTrap_eq (by simp)

/-! ### What the reads give -/

theorem physOffsetApplies_iff (s : State) : physOffsetApplies s = true ↔ has .ECV s = true ∧ el2Enabled s = true ∧
    (s.cfg.hasEL3 = true → ibit s .SCR_EL3 28 = true) ∧ ibit s .CNTHCTL_EL2 12 = true ∧ e2hTge s = false := by
  cases hel3 : s.cfg.hasEL3 <;> simp [physOffsetApplies, hel3, and_assoc]

/-- Where the physical offset applies it is CNTPOFF_EL2. -/
theorem cntpoff_of_applies {s : State} (h : physOffsetApplies s = true) : cntpoff s = ireg s .CNTPOFF_EL2 := by
  obtain ⟨-, -, hscr, -⟩ := (physOffsetApplies_iff s).mp h
  have hzero : cntpoffZero s = false := by
    cases hel3 : s.cfg.hasEL3
    · simp [cntpoffZero, hel3]
    · simp [cntpoffZero, hscr hel3]
  simp [cntpoff, hzero]

/-- The physical count is less the physical offset at EL0 and EL1 where that applies. -/
theorem counterValue_physical (s : State) : counterValue false s =
    if (s.ps.el = .el0 ∨ s.ps.el = .el1) ∧ has .ECV s = true ∧ el2Enabled s = true ∧
        (s.cfg.hasEL3 = true → ibit s .SCR_EL3 28 = true) ∧ ibit s .CNTHCTL_EL2 12 = true ∧ e2hTge s = false then
      s.count - ireg s .CNTPOFF_EL2
    else s.count := by
  simp only [← physOffsetApplies_iff, counterValue, Bool.false_eq_true, if_false, readCntpct,
    Bool.and_eq_true, Bool.or_eq_true, beq_iff_eq]
  split
  next h => rw [cntpoff_of_applies h.2]
  next => rfl

theorem virtOffsetApplies_iff (s : State) : virtOffsetApplies s = true ↔
    s.cfg.hasEL2 = true ∧ ((s.ps.el = .el0 ∧ e2hTge s = false) ∨ (s.ps.el = .el2 ∧ hcr s 34 = false) ∨
      s.ps.el = .el1 ∨ s.ps.el = .el3) := by
  cases hel : s.ps.el <;> simp [virtOffsetApplies, hel]

/-- The virtual count is less the virtual offset in the cases of R248. -/
theorem counterValue_virtual (s : State) : counterValue true s =
    if s.cfg.hasEL2 = true ∧ ((s.ps.el = .el0 ∧ e2hTge s = false) ∨ (s.ps.el = .el2 ∧ hcr s 34 = false) ∨
        s.ps.el = .el1 ∨ s.ps.el = .el3) then s.count - ireg s .CNTVOFF_EL2 else s.count := by
  simp only [← virtOffsetApplies_iff, counterValue, if_true, readCntvct]
  split
  · rfl
  · exact BitVec.sub_zero _

end

/-- Settles O20: a read by one of the four names meets the trap of its counter, and else gives its value. -/
theorem counterReads : Obligations.CounterReads := by
  unfold Obligations.CounterReads
  intro s rt
  have hecv {v : View} (hv : viewFeature v = some .ECV) (h : has .ECV s = true) :
      nameExists (.view v) false s = true := by simp [nameExists, hv, h]
  refine ⟨fun hel0 hel2 i hi => ?physical, fun hel0 hel2 i hi => ?virtual, fun hel hen htge htrap => ?trapped⟩
  case physical =>
    rw [← counterValue_physical]
    rcases List.mem_append.mp hi with hi | hi
    · obtain rfl := List.mem_singleton.mp hi
      exact counterName_CNTPCT.completes_read rfl hel0 hel2 rfl
    · split at hi
      next h =>
        obtain rfl := List.mem_singleton.mp hi
        exact counterName_CNTPCTSS.completes_read (hecv rfl h) hel0 hel2 rfl
      next => cases hi
  case virtual =>
    rw [← counterValue_virtual]
    rcases List.mem_append.mp hi with hi | hi
    · obtain rfl := List.mem_singleton.mp hi
      exact counterName_CNTVCT.completes_read rfl hel0 hel2 rfl
    · split at hi
      next h =>
        obtain rfl := List.mem_singleton.mp hi
        exact counterName_CNTVCTSS.completes_read (hecv rfl h) hel0 hel2 rfl
      next => cases hi
  case trapped =>
    have hel0 : el0CounterTrap true s = false := by simp [el0CounterTrap, hel]
    have hel2 : el2CounterTrap true s = true := by simp [el2CounterTrap, hel, hen, htge, htrap]
    exact counterName_CNTVCT.traps_read rfl hel0 hel2 rfl

end Sys2Proof.Proofs
end

