-- ==== Sys2Proof/Proofs/Waits.lean ====
section
/-! WFE, WFI, WFET and WFIT, and the PE that waits. -/

namespace Sys2Proof.Proofs

open Sys2Proof.Machine Sys2Proof.Safety Sys2Proof.Laws

section
variable {s t : State} {i : Instr} {w : Wait} {event : Bool}

/-! ### The trap of a wait -/

/-- Where no control traps a wait, none of its exceptions applies. -/
theorem waitException_none (h : waitTrap event s = none) (narrow : Bool) (ti : BitVec 2) (reg : Option (BitVec 5)) :
    waitException narrow event ti reg s = none := by
  have hel3 : waitTrapsToEL3 event s = false := by
    by_contra htraps
    rw [Bool.not_eq_false] at htraps
    simp only [waitTrap, htraps, if_true] at h
    split_ifs at h
  simp [waitException, h, hel3]

/-- Where a control traps a wait to a level that can be entered, it is an exception with EC 0x01. -/
theorem waitException_some {el : EL} (h : waitTrap event s = some el) (hsdd : el3SddUndef s = false) (ti : BitVec 2)
    (reg : Option (BitVec 5)) :
    waitException false event ti reg s = some (raise (syncExc el 0x01 (waitIss ti reg) s) s) := by
  have hpriority : el3SddUndefPriority s = false := by simp [el3SddUndefPriority, hsdd]
  cases el <;> simp [waitException, h, hsdd, hpriority] <;> rfl

theorem waitOrTrap_untrapped {ti : BitVec 2} {reg : Option (BitVec 5)} {narrow : Bool} (h : waitTrap event s = none)
    (r : Result) : waitOrTrap narrow event ti reg s r = r := by
  rw [waitOrTrap, waitException_none h, Option.getD_none]

theorem waitOrTrap_trapped {el : EL} {ti : BitVec 2} {reg : Option (BitVec 5)} (h : waitTrap event s = some el)
    (hsdd : el3SddUndef s = false) (r : Result) :
    waitOrTrap false event ti reg s r = raise (syncExc el 0x01 (waitIss ti reg) s) s := by
  rw [waitOrTrap, waitException_some h hsdd, Option.getD_some]

/-! ### The instructions -/

theorem exec_wfe (hclear : s.eventReg = false) : exec .wfe s =
    waitOrTrap false true 0b01 none s (.next (advance (beginWait ⟨true, none⟩ s))) := by
  have hexec : exec .wfe s = wfeEffect false s := rfl
  rw [hexec, wfeEffect, hclear, if_neg Bool.false_ne_true, advanceOf_false]

theorem exec_wfi (hidle : wakePending s = false) : exec .wfi s = waitOrTrap false false 0b00 none s (suspend false s) := by
  have hexec : exec .wfi s = wfiEffect false s := rfl
  rw [hexec, wfiEffect, hidle, if_neg Bool.false_ne_true]

theorem exec_wfi_pending (hpending : wakePending s = true) : exec .wfi s = .next (advance s) := by
  have hexec : exec .wfi s = wfiEffect false s := rfl
  rw [hexec, wfiEffect, if_pos hpending, advanceOf_false]

theorem exec_wfet (hfeat : has .WFxT s = true) (hclear : s.eventReg = false) (rd : BitVec 5) : exec (.wfet rd) s =
    if timedOut rd s then .next (advance s)
    else waitOrTrap false true 0b11 (some rd) s (.next (advance (beginWait ⟨true, some (readX rd s)⟩ s))) := by
  have hexec : exec (.wfet rd) s = execWfet rd s := rfl
  rw [hexec, execWfet, hfeat, hclear]
  rfl

theorem exec_wfit (hfeat : has .WFxT s = true) (rd : BitVec 5) : exec (.wfit rd) s =
    if wakePending s || timedOut rd s then .next (advance s)
    else waitOrTrap false false 0b10 (some rd) s (.next (advance (beginWait ⟨false, some (readX rd s)⟩ s))) := by
  have hexec : exec (.wfit rd) s = execWfit rd s := rfl
  rw [hexec, execWfit, hfeat]
  rfl

theorem timedOut_iff (rd : BitVec 5) (s : State) : timedOut rd s = true ↔ (readX rd s).toNat ≤ (readCntvct s).toNat :=
  decide_eq_true_iff

theorem timedOut_eq_false {rd : BitVec 5} (h : (readCntvct s).toNat < (readX rd s).toNat) : timedOut rd s = false := by
  rw [← Bool.not_eq_true, timedOut_iff]
  omega

/-! ### Completing and waiting -/

/-- An instruction that may begin a wait and moves on completes or waits. -/
theorem completesOrWaits_beginWait (h : exec i s = .next (advance (beginWait w s))) :
    ∃ t, CompletesOrWaits i w s t := by
  obtain hstays | ⟨hrun, hwaits⟩ := beginWait_cases w s
  · rw [hstays] at h
    have hwaiting : (advance s).waiting = s.waiting := by simp
    refine ⟨_, ?_, .inl hwaiting⟩
    rw [hwaiting]
    exact completes_nop h [] false false
  · rw [hwaits] at h
    have hwaiting : (advance { s with waiting := some w }).waiting = some w := by simp
    refine ⟨_, ?_, .inr ⟨hwaiting, hrun⟩⟩
    rw [hwaiting]
    exact completes_advance h (frame_refl ..) rfl rfl rfl rfl

/-- An instruction that completes and changes nothing may as well have waited. -/
theorem completesOrWaits_nop (h : exec i s = .next (advance s)) (w : Wait) : ∃ t, CompletesOrWaits i w s t := by
  have hwaiting : (advance s).waiting = s.waiting := by simp
  refine ⟨_, ?_, .inl hwaiting⟩
  rw [hwaiting]
  exact completes_nop h [] false false

/-- A set Event Register is consumed. -/
theorem completes_clearEvent (h : exec i s = .next (advance { s with eventReg := false })) :
    ∃ t, Completes i [] false false s { s with eventReg := false } t :=
  ⟨_, completes_advance h (frame_refl ..) rfl rfl rfl rfl⟩

/-! ### The step of a PE that waits -/

/-- A PE that waits, with nothing from outside, steps its wait. -/
theorem step_waiting (hwait : s.waiting = some w) (hagents : s.agents = []) (hrun : halted s = false)
    (hreset : s.warmReset = .none) (hint : chosenInterrupt s = none) : step s = afterStep (waitOn w s) := by
  rw [step_body, stepBody_pe hagents, stepPe_running hrun, stepRun, beforeStep_quiet hreset hint, hwait]
  rfl

theorem waiting_steps (hwait : s.waiting = some w) (hagents : s.agents = []) (hrun : halted s = false)
    (hreset : s.warmReset = .none) (hint : chosenInterrupt s = none) (htop : s.offTop = false) :
    ∃ t, step s = .next t ∧
      Frame [] false false { s with
        sys := t.sys, count := t.count, eventReg := t.eventReg, predictions := t.predictions, free := t.free
        waiting := t.waiting } t ∧ t.pc = s.pc ∧ (∀ r, r ≠ .PMCCNTR_EL0 → sreg t r = sreg s r) ∧
      (WaitEnds w s → t.waiting = none) ∧ (¬WaitEnds w s → t.waiting = some w) := by
  have hon := waitOn_eq w s
  obtain ⟨t, hnext, heq, -, hsys⟩ := afterStep_next (t := waitOn w s) (by rw [hon]; exact htop)
  have hwaiting : t.waiting = (waitOn w s).waiting := by rw [heq]
  refine ⟨t, (step_waiting hwait hagents hrun hreset hint).trans hnext, ?_, ?_, fun r hr => ?_, fun hends => ?_,
    fun hgoes => ?_⟩
  · have hsame : { s with
        sys := t.sys, count := t.count, eventReg := t.eventReg, predictions := t.predictions, free := t.free
        waiting := t.waiting } = t := by
      have hcount : t.count = (waitOn w s).count + Config.ticks (waitOn w s).free := by rw [heq]
      have hfree : t.free = (waitOn w s).free + 1 := by rw [heq]
      rw [hwaiting, hcount, hfree]
      conv_rhs => rw [heq]
      rw [hon]
    rw [hsame]
    exact frame_refl ..
  · rw [heq, hon]
  · rw [hsys r hr, hon]
    rfl
  · rw [hwaiting, waitOn_ends ((wakesNow_iff w s).mpr hends)]
  · have hnot : wakesNow w s = false := by simpa using mt (wakesNow_iff w s).mp hgoes
    rw [hwaiting, waitOn_goesOn hnot, hwait]

end

/-- Settles O15: each instruction completes, begins a wait, or takes the trap, by the Event Register, the pending interrupt and
the timeout; a PE that waits steps its wait (`waiting_steps`). -/
theorem waitsCompleteOrTrap : Obligations.WaitsCompleteOrTrap := by
  unfold Obligations.WaitsCompleteOrTrap
  intro s rd
  refine ⟨fun hset => ?wfeSet, fun hset hfeat => ?wfetSet, fun hclear htrap => ?wfeWaits,
    fun hclear htrap hfeat => ?wfetWaits, fun hpending => ?wfiPending, fun htrap hseq => ?wfiWaits,
    fun hpending hfeat => ?wfitPending, fun htrap hfeat => ?wfitWaits, fun w => waiting_steps,
    fun el hclear htrap hsdd => ?wfeTraps, fun el hpending htrap hsdd => ?wfiTraps, fun hclear hfeat hle => ?wfetOut,
    fun hfeat hle => ?wfitOut, fun el hclear hfeat hlt htrap hsdd => ?wfetTraps,
    fun el hpending hfeat hlt htrap hsdd => ?wfitTraps⟩
  case wfeSet => exact completes_clearEvent (if_pos hset)
  case wfetSet =>
    have hexec : exec (.wfet rd) s = execWfet rd s := rfl
    exact completes_clearEvent (by rw [hexec, execWfet, if_neg (by simp [hfeat]), if_pos hset])
  case wfeWaits =>
    exact completesOrWaits_beginWait ((exec_wfe hclear).trans (waitOrTrap_untrapped htrap _))
  case wfetWaits =>
    have hexec := exec_wfet hfeat hclear rd
    split at hexec
    · exact completesOrWaits_nop hexec _
    · exact completesOrWaits_beginWait (hexec.trans (waitOrTrap_untrapped htrap _))
  case wfiPending => exact ⟨_, completes_nop (exec_wfi_pending hpending) ..⟩
  case wfiWaits =>
    cases hpending : wakePending s
    · have hsuspend : suspend false s = .next (advance (beginWait ⟨false, none⟩ s)) := if_neg hseq
      exact completesOrWaits_beginWait ((exec_wfi hpending).trans ((waitOrTrap_untrapped htrap _).trans hsuspend))
    · exact completesOrWaits_nop (exec_wfi_pending hpending) _
  case wfitPending => exact ⟨_, completes_nop ((exec_wfit hfeat rd).trans (if_pos (by simp [hpending]))) ..⟩
  case wfitWaits =>
    have hexec := exec_wfit hfeat rd
    split at hexec
    · exact completesOrWaits_nop hexec _
    · exact completesOrWaits_beginWait (hexec.trans (waitOrTrap_untrapped htrap _))
  case wfeTraps => exact ⟨_, (exec_wfe hclear).trans (waitOrTrap_trapped htrap hsdd _)⟩
  case wfiTraps => exact ⟨_, (exec_wfi hpending).trans (waitOrTrap_trapped htrap hsdd _)⟩
  case wfetOut =>
    exact ⟨_, completes_nop ((exec_wfet hfeat hclear rd).trans (if_pos ((timedOut_iff rd s).mpr hle))) ..⟩
  case wfitOut =>
    exact ⟨_, completes_nop ((exec_wfit hfeat rd).trans (if_pos (by simp [(timedOut_iff rd s).mpr hle]))) ..⟩
  case wfetTraps =>
    exact ⟨_, (exec_wfet hfeat hclear rd).trans
      ((if_neg (by simp [timedOut_eq_false hlt])).trans (waitOrTrap_trapped htrap hsdd _))⟩
  case wfitTraps =>
    exact ⟨_, (exec_wfit hfeat rd).trans
      ((if_neg (by simp [hpending, timedOut_eq_false hlt])).trans (waitOrTrap_trapped htrap hsdd _))⟩

end Sys2Proof.Proofs
end

