-- ==== Sys2Proof/Proofs/Resets.lean ====
section
/-! What a reset leaves, and RMR_ELx, by which software requests one. -/

namespace Sys2Proof.Proofs

open Sys2Proof.Machine Sys2Proof.Safety Sys2Proof.Laws

/-! ### The state after a Warm reset -/

section
variable (ro : SysReg → Bool) (all : List SysReg) (s : State)

/-- The values of the System registers are written one by one, and with them none of these. -/
theorem resetValues_keeps (f : SysReg → Word) (t : State) :
    (all.foldl (fun acc r => setReg r (f r) acc) t).cfg = t.cfg ∧
      (all.foldl (fun acc r => setReg r (f r) acc) t).mem = t.mem ∧
      (all.foldl (fun acc r => setReg r (f r) acc) t).tags = t.tags := by
  induction all generalizing t with
  | nil => exact ⟨rfl, rfl, rfl⟩
  | cons r rest ih => exact ih (setReg r (f r) t)

/-- A Warm reset leaves the parameters, memory and tags. -/
theorem takeWarmReset_keeps : (takeWarmReset ro all s).cfg = s.cfg ∧ (takeWarmReset ro all s).mem = s.mem ∧
    (takeWarmReset ro all s).tags = s.tags := by
  have hregisters : (resetRegisters ro all s).cfg = s.cfg ∧ (resetRegisters ro all s).mem = s.mem ∧
      (resetRegisters ro all s).tags = s.tags := by
    simpa only [resetRegisters] using resetValues_keeps all (resetSysReg ro · s) s
  unfold takeWarmReset
  generalize resetRegisters ro all s = u at hregisters ⊢
  dsimp only
  split <;> exact hregisters

theorem takeWarmReset_pc : (takeWarmReset ro all s).pc = s.cfg.resetAddress := by
  unfold takeWarmReset
  split <;> rfl

theorem takeWarmReset_ps : (takeWarmReset ro all s).ps = resetPState s := by
  unfold takeWarmReset
  split <;> rfl

theorem takeWarmReset_dbg : (takeWarmReset ro all s).dbg = resetDebug (resetRegisters ro all s) := by
  unfold takeWarmReset
  split <;> rfl

end

/-- Settles O9: State.reset is one state; after a Warm reset PSTATE is `resetPState`. -/
theorem resetLeaves : Obligations.ResetLeaves := by
  unfold Obligations.ResetLeaves
  rintro s t ro all ht
  obtain ⟨hcfg, hmem, htags⟩ := takeWarmReset_keeps ro all s
  rcases ht with rfl | rfl
  case inl =>
    exact ⟨rfl, rfl, rfl, rfl, rfl, rfl, rfl, rfl, rfl, rfl, rfl, fun _ => rfl, rfl, rfl,
      fun hreset => hreset ▸ ⟨hmem, htags⟩⟩
  case inr =>
    have hlevel : highestEL (takeWarmReset ro all s) = highestEL s := by rw [highestEL, hcfg, highestEL]
    rw [takeWarmReset_ps, takeWarmReset_pc, hlevel, has, hcfg, ← has]
    exact ⟨rfl, rfl, rfl, rfl, rfl, rfl, rfl, rfl, rfl, rfl, rfl, fun hpacm => if_pos hpacm, rfl, rfl,
      fun _ => ⟨hmem, htags⟩⟩

/-- Settles O1: State.reset is one state, with nothing written in memory or tags. -/
theorem resetMeetsInvariants : Obligations.ResetMeetsInvariants := by
  unfold Obligations.ResetMeetsInvariants
  exact ⟨⟨rfl, rfl⟩, rfl, rfl⟩

/-! ### RMR_ELx -/

/-- The selector names RMR_ELx, the reset request register of one Exception level. -/
structure RmrName (el : EL) (sel : BitVec 15) (r : SysReg) : Prop where
  name : nameOf sel = some (.stored r)
  rmr : r ∈ rmrRegs
  noFeature : sysFeature r = none
  writable : sysReadOnly r = false
  level : minLevel sel = elNum el
  ofHighest (s : State) : ofHighestEL r s = (highestEL s == el)
  ownTrap (w : Bool) (s : State) :
    storedTrap r w s = if s.ps.el = el ∧ highestEL s = el then Permission.allowed else .undefined
  noFirstTrap : idSpace sel = false ∧ tid3Always r = false ∧ scxtReg r = false ∧ ataReg r = false
  ownRead : r ≠ .CCSIDR_EL1 ∧ r ≠ .CCSIDR2_EL1 ∧ r ≠ .CNTKCTL_EL1
  notRedirected : redirect (.stored r) = .stored r
  value (s : State) : storedValue r s = sreg s r &&& BitVec.allOnes 64
  uncounted (s : State) : countWrite r s = s

/-- RMR_ELx of each level, with its selector. -/
def rmrNames : List (EL × BitVec 15 × SysReg) :=
  [(.el1, 0x4602, .RMR_EL1), (.el2, 0x6602, .RMR_EL2), (.el3, 0x7602, .RMR_EL3)]

theorem rmrNames_named : ∀ e ∈ rmrNames, RmrName e.1 e.2.1 e.2.2 := by
  simp only [rmrNames, List.forall_mem_cons]
  refine ⟨?_, ?_, ?_, List.forall_mem_nil _⟩ <;> exact {
    name := by decide
    rmr := by decide
    noFeature := rfl
    writable := rfl
    level := rfl
    ofHighest := fun _ => rfl
    ownTrap := fun _ _ => rfl
    noFirstTrap := by decide
    ownRead := by decide
    notRedirected := rfl
    value := fun _ => rfl
    uncounted := fun _ => rfl }

/-- Where EL1 is the highest level HCR_EL2 has no effect. -/
theorem nvPermission_highest {el : EL} {s : State} (hel : s.ps.el = el) (hhighest : highestEL s = el)
    (sel : BitVec 15) : nvPermission sel s = none := by
  refine nvPermission_none ?_
  by_cases h1 : s.ps.el = .el1
  · have hno2 : s.cfg.hasEL2 = false := by
      rw [← hel, h1, highestEL] at hhighest
      split_ifs at hhighest with h3 h2
      simpa using h2
    exact .inr (.inl (by simp [hcr, el2Enabled, hno2]))
  · exact .inl h1

section
variable {el : EL} {sel : BitVec 15} {r : SysReg} {i : Instr} {rt : BitVec 5} {s : State}

/-- At the highest level nothing stands before an access to its RMR_ELx. -/
theorem RmrName.permission_eq (hn : RmrName el sel r) (hel : s.ps.el = el) (hhighest : highestEL s = el) (w : Bool) :
    permission sel (.stored r) w s = .allowed := by
  obtain ⟨hid, htid3, hscxt, hata⟩ := hn.noFirstTrap
  have hexists : nameExists (.stored r) w s = true := by
    simp [nameExists, hn.noFeature, hn.writable, hn.ofHighest, hhighest]
  have hfirst : firstTrap sel (.stored r) w s = false :=
    firstTrap_none (.inr (by simp [tid3Traps, htid3, hid])) (by rintro _ ⟨⟩; exact ⟨hscxt, hata⟩)
  rw [permission_own (nvPermission_highest hel hhighest sel) (by rw [hn.level, hel]) hexists hfirst]
  exact (hn.ownTrap w s).trans (if_pos ⟨hel, hhighest⟩)

theorem RmrName.completes_read (hn : RmrName el sel r) (hel : s.ps.el = el) (hhighest : highestEL s = el)
    (hexec : exec i s = readSys sel rt s) : ∃ t, Completes i [rt] false false s s t ∧ Holds rt (sreg s r) t := by
  obtain ⟨hccsidr, hccsidr2, hcntkctl⟩ := hn.ownRead
  have hread : exec i s = .next (advance (writeX rt (sreg s r) s)) := by
    rw [hexec, readSys_allowed hn.name (storedName_defined r s) (hn.permission_eq hel hhighest false) nofun,
      performRead_stored hccsidr hccsidr2 hcntkctl (.inr hn.notRedirected), hn.value, BitVec.and_allOnes]
  exact ⟨_, completes_writeX hread _ _⟩

theorem RmrName.exec_write (hn : RmrName el sel r) (hel : s.ps.el = el) (hhighest : highestEL s = el)
    (hexec : exec i s = writeSys sel rt s) : exec i s = .next (advance (writeRmr r (readX rt s) s)) := by
  rw [hexec, writeSys_allowed hn.name (storedName_defined r s) (hn.permission_eq hel hhighest true) nofun,
    performWrite_stored hn.ownRead.2.2 (.inr hn.notRedirected), writeStored_rmr hn.rmr, hn.uncounted]

/-- Below its level the register is UNDEFINED. -/
theorem RmrName.permission_below (hn : RmrName el sel r) (hop1 : selOp1 sel ≠ 4) (hbelow : elNum s.ps.el < elNum el)
    (w : Bool) : permission sel (.stored r) w s = .undefined := by
  have hnv : nvNames sel s = false := by simpa [nvNames] using fun _ _ => hop1
  rw [permission, hn.level, hnv, ite_eq_left_iff]
  exact fun _ => if_pos (by simpa using hbelow)

end

/-- What a write of RR leaves of the request. -/
theorem writeRmr_request (r : SysReg) (a : Word) (s : State) :
    (writeRmr r a s).warmReset = (if bitAt a 1 then .requested else s.warmReset) ∧
      (bitAt a 1 = false → (writeRmr r a s).resetSeq = s.resetSeq) := by
  unfold writeRmr
  split
  next h => exact ⟨rfl, fun hno => absurd (h.symm.trans hno) (by decide)⟩
  next => exact ⟨rfl, fun _ => rfl⟩

/-- An MSR of RMR_ELx: the register, the request, and nothing else. -/
theorem writeRmr_completes {i : Instr} {r : SysReg} {a : Word} {s : State}
    (hexec : exec i s = .next (advance (writeRmr r a s))) :
    ∃ t, Completes i [] false false s { s with sys := t.sys, warmReset := t.warmReset, resetSeq := t.resetSeq } t ∧
      sreg t r = a &&& 0b11 ∧ (∀ q, q ≠ r → sreg t q = sreg s q) ∧
      t.warmReset = (if bitAt a 1 then .requested else s.warmReset) ∧
      (bitAt a 1 = false → t.resetSeq = s.resetSeq) := by
  have hwrite := writeRmr_eq r a s
  obtain ⟨hreset, hseq⟩ := writeRmr_request r a s
  have hsreg (q : SysReg) : sreg (advance (writeRmr r a s)) q = sreg (setReg r (a &&& 0b11) s) q := by
    rw [sreg_advance, hwrite]
    rfl
  refine ⟨_, completes_made hexec ?_ (by rw [hwrite]; rfl) (by rw [hwrite]; rfl) (halted_congr (by rw [hwrite]; rfl))
    (by rw [hwrite]; rfl), ?_, fun q hq => ?_, ?_, fun hno => ?_⟩
  · rw [advance_sys, advance_warmReset, advance_resetSeq]
    conv_rhs => rw [hwrite]
    rw [hwrite]
    rfl
  · rw [hsreg, sreg_setReg_same _ _ _ (sysIdx_lt r)]
  · rw [hsreg, sreg_setReg_other _ _ _ _ fun h => hq (sysIdx_inj h).symm]
  · rw [advance_warmReset, hreset]
  · rw [advance_resetSeq, hseq hno]

/-- Settles O19: at the highest level RMR_ELx is read and written as it is (`RmrName.permission_eq`); below EL3 no access to
RMR_EL3 is defined. -/
theorem resetRequestRegister : Obligations.ResetRequestRegister := by
  unfold Obligations.ResetRequestRegister
  intro s rt
  refine ⟨fun el rd wr r hmem hel hhighest => ?accesses, fun hbelow => ?below⟩
  case accesses =>
    obtain ⟨sel, hn, hread, hwrite⟩ : ∃ sel, RmrName el sel r ∧ exec rd s = readSys sel rt s ∧
        exec wr s = writeSys sel rt s := by
      simp only [List.mem_cons, List.not_mem_nil, or_false, Prod.mk.injEq] at hmem
      rcases hmem with ⟨rfl, rfl, rfl, rfl⟩ | ⟨rfl, rfl, rfl, rfl⟩ | ⟨rfl, rfl, rfl, rfl⟩
      · exact ⟨_, rmrNames_named (_, 0x4602, _) (by decide), rfl, rfl⟩
      · exact ⟨_, rmrNames_named (_, 0x6602, _) (by decide), rfl, rfl⟩
      · exact ⟨_, rmrNames_named (_, 0x7602, _) (by decide), rfl, rfl⟩
    exact ⟨hn.completes_read hel hhighest hread, writeRmr_completes (hn.exec_write hel hhighest hwrite)⟩
  case below =>
    have hlow : elNum s.ps.el < elNum .el3 := by
      revert hbelow
      cases s.ps.el <;> simp [elNum]
    have hn : RmrName .el3 0x7602 .RMR_EL3 := rmrNames_named (_, _, _) (by decide)
    have hundefined := hn.permission_below (s := s) (by decide) hlow
    exact ⟨writeSys_undefined hn.name (storedName_defined _ s) (hundefined true),
      readSys_undefined hn.name (storedName_defined _ s) (hundefined false)⟩

end Sys2Proof.Proofs
end

