-- ==== Sys2Proof/Proofs/BranchRecords.lean ====
section
/-! The address that a branch record holds. -/

namespace Sys2Proof.Proofs

open Sys2Proof.Machine Sys2Proof.Safety Sys2Proof.Laws

section
variable {u v : Word} {s : State} {n : Nat}

/-! ### Bits [63:P] -/

theorem bitAt_setBit_same {w n : Nat} (h : n < w) (v : BitVec w) (b : Bool) : bitAt (setBit v n b) n = b := by
  cases b <;> simp [bitAt, setBit, h]

theorem addressP_cases (s : State) : addressP s = 48 ∨ addressP s = 52 := by
  unfold addressP
  split
  · exact .inr rfl
  · exact .inl rfl

theorem canonicalTop_iff (v : Word) (s : State) :
    canonicalTop v s = true ↔ v >>> addressP s = 0 ∨ v >>> addressP s = BitVec.allOnes 64 >>> addressP s := by
  simp [canonicalTop]

/-- Bits [63:P] that are all zeroes or all ones are all one bit. -/
theorem bitAt_of_canonicalTop (h : canonicalTop v s = true) (hlow : addressP s ≤ n) (hhigh : n < 64) :
    bitAt v n = bitAt v (addressP s) := by
  have hbit (m : Nat) (hm : addressP s ≤ m) (hm64 : m < 64) :
      bitAt v m = (v >>> addressP s).getLsbD (m - addressP s) := by
    rw [BitVec.getLsbD_ushiftRight, Nat.add_sub_cancel' hm, bitAt]
  have hp : addressP s < 64 := by omega
  rw [hbit n hlow hhigh, hbit _ (Nat.le_refl _) hp]
  rcases (canonicalTop_iff v s).mp h with h | h <;> rw [h]
  · simp
  · rw [BitVec.getLsbD_ushiftRight, BitVec.getLsbD_ushiftRight, BitVec.getLsbD_allOnes, BitVec.getLsbD_allOnes]
    simp
    omega

/-- With one of them changed they are neither. -/
theorem canonicalTop_flipped (h : canonicalTop u s = true) :
    canonicalTop (setBit u (addressP s) (!bitAt u (addressP s))) s = false := by
  by_contra hcanonical
  have hp : addressP s + 1 < 64 := by rcases addressP_cases s with h | h <;> omega
  have hnext := bitAt_of_canonicalTop (by simpa using hcanonical) (Nat.le_succ (addressP s)) hp
  have hsame := bitAt_of_canonicalTop h (Nat.le_succ (addressP s)) hp
  rw [bitAt, getLsbD_setBit_other _ _ (by omega), ← bitAt, hsame, bitAt_setBit_same (by omega)] at hnext
  simp at hnext

/-! ### The recorded address -/

theorem brbAddress_canonical (h : canonicalTop v s = true) : brbAddress v s = v := if_pos h

/-- Otherwise what is recorded is not canonical either. -/
theorem canonicalTop_brbAddress (h : canonicalTop v s = false) : canonicalTop (brbAddress v s) s = false := by
  rw [brbAddress, if_neg (by simp [h])]
  dsimp only
  split
  next hcopied => exact canonicalTop_flipped hcopied
  next hcopied => simpa using hcopied

/-- Bits [P-1:0] are those written. -/
theorem bitAt_brbAddress (h : n < addressP s) : bitAt (brbAddress v s) n = bitAt v n := by
  have hcopied : bitAt (copyBits v (Config.freeWord .addressTop s.free) (addressP s) 64) n = bitAt v n := by
    rw [bitAt, getLsbD_copyBits, if_neg (by omega), bitAt]
  unfold brbAddress
  dsimp only
  split
  · rfl
  · split
    · rwa [bitAt, getLsbD_setBit_other _ _ (by omega)]
    · exact hcopied

end

/-- Settles O60: the recorded address is the one written, or one whose bits [63:P] are not canonical. -/
theorem branchRecordAddresses : Obligations.BranchRecordAddresses := by
  unfold Obligations.BranchRecordAddresses
  intro v s p hp
  obtain rfl : p = addressP s := hp
  refine ⟨fun n hn => bitAt_brbAddress hn, fun htop => brbAddress_canonical ((canonicalTop_iff v s).mpr htop),
    fun hzero hones => ?_, fun n tgt inf => ⟨?_, ?_⟩⟩
  · have hnot : canonicalTop v s = false := by
      simpa using mt (canonicalTop_iff v s).mp (not_or.mpr ⟨hzero, hones⟩)
    have hrecorded := canonicalTop_brbAddress hnot
    exact not_or.mp (mt (canonicalTop_iff _ s).mpr (by simp [hrecorded]))
  · simp [recordBranch]
  · simp [recordBranch]

end Sys2Proof.Proofs
end

