-- ==== Sys2Proof/Proofs/HaltedStatus.lean ====
section
/-! EDPRSR.HALTED and EDSCR.STATUS: what the operations on registers, memory and the TLBs leave of their agreement. -/

namespace Sys2Proof.Proofs

open Sys2Proof.Machine Sys2Proof.Safety Sys2Proof.Laws

section
variable {s t u : State}

/-- HALTED and STATUS are all that the agreement is about. -/
theorem agrees_of_status (h : HaltedAgrees s) (hstatus : field t.dbg.edscr 0 6 = field s.dbg.edscr 0 6)
    (hhalted : bitAt t.dbg.edprsr 4 = bitAt s.dbg.edprsr 4) : HaltedAgrees t := by
  rw [HaltedAgrees, hhalted, halted_congr hstatus]
  exact h

theorem agrees_of_dbg (h : HaltedAgrees s) (hdbg : t.dbg = s.dbg) : HaltedAgrees t :=
  agrees_of_status h (by rw [hdbg]) (by rw [hdbg])

theorem agrees_ite {c : Prop} [Decidable c] (ht : HaltedAgrees t) (hu : HaltedAgrees u) :
    HaltedAgrees (if c then t else u) := by
  split
  · exact ht
  · exact hu

/-! ### Debug state entered, left and shown -/

theorem agrees_updateEDSCRFields (h : HaltedAgrees s) : HaltedAgrees (updateEDSCRFields s) :=
  agrees_of_status h (status_updateEDSCRFields s) (by rw [edprsr_updateEDSCRFields])

/-- Entry to Debug state sets both, whatever they were: no reason for it is one of the two values of Non-debug state. -/
theorem agrees_halt {reason : BitVec 6} (hreason : reason ≠ 1 ∧ reason ≠ 2) (ret : Word) (s : State) :
    HaltedAgrees (halt reason ret s) := by
  rw [HaltedAgrees, halted, status_halt, edprsr_halt, bitAt_setBit_true (by decide)]
  simpa using hreason

/-- A state whose HALTED is 0 and whose STATUS is 0b000010. -/
theorem agrees_of_running (hstatus : field s.dbg.edscr 0 6 = 0b000010) (hhalted : bitAt s.dbg.edprsr 4 = false) :
    HaltedAgrees s := by
  rw [HaltedAgrees, halted, hstatus, hhalted]
  decide

/-- Exit from Debug state sets both. -/
theorem agrees_exitDebugState (s : State) : HaltedAgrees (exitDebugState s) := by
  refine agrees_of_running ?_ ?_
  · rw [exitDebugState, status_updateEDSCRFields]
    exact status_withField_status ..
  · rw [exitDebugState, edprsr_updateEDSCRFields]
    exact bitAt_setBit_same (by decide) ..

theorem status_copyBits_other {lo hi : Nat} (h : 6 ≤ lo) (v w : Half) :
    field (copyBits v w lo hi) 0 6 = field v 0 6 := by
  refine BitVec.eq_of_getLsbD_eq fun i hi' => ?_
  simp only [field, BitVec.getLsbD_extractLsb', getLsbD_copyBits, show ¬(lo ≤ 0 + i ∧ 0 + i < hi) by omega, if_false]

theorem status_copyBits_status (v w : Half) : field (copyBits v w 0 6) 0 6 = field w 0 6 := by
  refine BitVec.eq_of_getLsbD_eq fun i hi => ?_
  simp only [field, BitVec.getLsbD_extractLsb', getLsbD_copyBits, show 0 ≤ 0 + i ∧ 0 + i < 6 by omega, if_true, and_self]

/-- So does a Warm reset. -/
theorem agrees_takeWarmReset (ro : SysReg → Bool) (all : List SysReg) (s : State) :
    HaltedAgrees (takeWarmReset ro all s) := by
  refine agrees_of_running ?_ ?_
  · rw [takeWarmReset_dbg, resetDebug, status_copyBits_other (by decide), status_copyBits_status]
    decide
  · rw [takeWarmReset_dbg, resetDebug]
    exact bitAt_setBit_same (by decide) ..

/-! ### The registers of the external interface and of frames -/

theorem agrees_afterExtRead (r : ExtReg) (h : HaltedAgrees s) : HaltedAgrees (afterExtRead r s) :=
  agrees_ite (agrees_of_status h rfl (getLsbD_setBit_other _ _ (by decide))) h

theorem agrees_writeFeatureReg (r : ExtReg) (v : Word) (h : HaltedAgrees s) :
    HaltedAgrees { s with dbg := writeFeatureReg r v s.dbg } :=
  agrees_of_status h (by cases r <;> rfl) (by cases r <;> rfl)

/-- A debugger's write reaches neither field. -/
theorem agrees_extWrite (r : ExtReg) (v : Word) (h : HaltedAgrees s) : HaltedAgrees (extWrite r v s) := by
  cases r with
  | edscr => exact agrees_of_status h (status_setBit (by decide) ..) rfl
  | pmcr =>
    have hresets : HaltedAgrees (pmcrResets v s) := agrees_of_dbg h (pmcrResets_dbg v s)
    exact agrees_of_status hresets rfl rfl
  | trcconfigr | trcacvr | pmevcntr | pmevtyper | pmccntr | pmcntenset | pmcntenclr | pmovsset | pmovsclr | errstatus =>
    exact h
  | _ => exact agrees_ite (agrees_writeFeatureReg _ v h) h

theorem agrees_writeFrameReg (r : FrameReg) (v : Word) (h : HaltedAgrees s) : HaltedAgrees (writeFrameReg r v s) := by
  cases r with
  | ext q => exact agrees_extWrite q v h
  | timer n q => cases q <;> exact h
  | _ => exact h

theorem agrees_writeFrameByte (f : RegFrame) (off : Nat) (sp : Space) (b : Byte) (h : HaltedAgrees s) :
    HaltedAgrees (writeFrameByte f off sp b s) := by
  unfold writeFrameByte
  split
  · exact h
  · exact agrees_ite (agrees_writeFrameReg _ _ h) h

theorem agrees_afterFrameRead (f : RegFrame) (off : Nat) (sp : Space) (h : HaltedAgrees s) :
    HaltedAgrees (afterFrameRead f off sp s) := by
  unfold afterFrameRead
  split
  · exact agrees_ite (agrees_afterExtRead _ h) h
  · exact h

/-! ### Located bytes -/

theorem agrees_readLoc (x : Xlat) (k : Nat) (h : HaltedAgrees s) : HaltedAgrees (readLoc x k s).2 := by
  unfold readLoc
  split
  · exact agrees_afterFrameRead _ _ _ h
  · split <;> exact h

theorem agrees_readLocs (xs : List Xlat) (k : Nat) (h : HaltedAgrees s) : HaltedAgrees (readLocs xs k s).2 := by
  induction xs generalizing k s with
  | nil => exact h
  | cons x xs ih => exact ih _ (agrees_readLoc x k h)

theorem agrees_writeLoc (x : Xlat) (b : Byte) (h : HaltedAgrees s) : HaltedAgrees (writeLoc x b s) := by
  unfold writeLoc
  split
  · exact agrees_writeFrameByte _ _ _ b h
  · exact agrees_ite h h

theorem agrees_writeLocs (xs : List Xlat) (bs : List Byte) (h : HaltedAgrees s) : HaltedAgrees (writeLocs xs bs s) := by
  induction xs generalizing bs s with
  | nil => exact h
  | cons x xs ih =>
    cases bs with
    | nil => exact h
    | cons b bs => exact ih bs (agrees_writeLoc x b h)

theorem agrees_spoilLocs (xs : List Xlat) (k : Nat) (h : HaltedAgrees s) : HaltedAgrees (spoilLocs xs k s) := by
  induction xs generalizing k s with
  | nil => exact h
  | cons x xs ih => exact ih _ (agrees_ite (agrees_writeLoc x _ h) h)

theorem agrees_partialWrite (xs ts : List Xlat) (bs : List Byte) (h : HaltedAgrees s) :
    HaltedAgrees (partialWrite xs ts bs s) :=
  agrees_ite (agrees_spoilLocs ts 0 (agrees_writeLocs xs bs h)) h

theorem agrees_partialRead (xs : List Xlat) (h : HaltedAgrees s) : HaltedAgrees (partialRead xs s) :=
  agrees_ite (agrees_readLocs xs 0 h) h

/-! ### Translation -/

/-- A location, or a fault, in a state where HALTED agrees. -/
def LocAgrees {α : Type} : Loc α → Prop
  | .ok _ u => HaltedAgrees u
  | .fault _ _ u => HaltedAgrees u

theorem LocAgrees.bind {α β : Type} {m : Loc α} {k : α → State → Loc β} (h : LocAgrees m)
    (hk : ∀ a u, HaltedAgrees u → LocAgrees (k a u)) : LocAgrees (m.bind k) := by
  cases m with
  | ok a u => exact hk a u h
  | fault k va u => exact h

theorem LocAgrees.ite {α : Type} {c : Prop} [Decidable c] {m n : Loc α} (hm : LocAgrees m) (hn : LocAgrees n) :
    LocAgrees (if c then m else n) := by
  split
  · exact hm
  · exact hn

@[simp] theorem updateDescriptors_dbg (us : List DescUpdate) (s : State) : (updateDescriptors us s).dbg = s.dbg := by
  rw [updateDescriptors_eq]

@[simp] theorem faultUpdates_dbg (us : List DescUpdate) (s : State) : (faultUpdates us s).dbg = s.dbg :=
  updateDescriptors_dbg _ s

@[simp] theorem commit_dbg (x : Xlat) (s : State) : (commit x s).dbg = s.dbg := updateDescriptors_dbg _ s

@[simp] theorem fillTlb_dbg (old : List TLBEntry) (e : TLBEntry) (s : State) : (fillTlb old e s).dbg = s.dbg := by
  rw [fillTlb_eq]

theorem agrees_faultUpdates (us : List DescUpdate) (h : HaltedAgrees s) : HaltedAgrees (faultUpdates us s) :=
  agrees_of_dbg h (by simp)

theorem agrees_commit (x : Xlat) (h : HaltedAgrees s) : HaltedAgrees (commit x s) := agrees_of_dbg h (by simp)

theorem useEntry_agrees (late : Option LateFault) (d : AccDesc) (va a : Word) (e : TLBEntry) (h : HaltedAgrees s) :
    LocAgrees (useEntry late d va a e s) := by
  have hfault (us : List DescUpdate) := agrees_faultUpdates us h
  unfold useEntry useEntry.lateFault
  exact .ite (hfault _) (.ite h (.ite h (.ite (hfault _) (.ite (hfault _) (.ite (hfault _) (.ite (hfault _) h))))))

theorem walkAccess_agrees (d : AccDesc) (va a : Word) (old : List TLBEntry) (h : HaltedAgrees s) :
    LocAgrees (walkAccess d va a old s) := by
  unfold walkAccess
  split
  case h_1 => exact h
  case h_2 => exact useEntry_agrees _ _ _ _ _ h
  case h_3 => exact useEntry_agrees _ _ _ _ _ (agrees_of_dbg h (by simp))

theorem useCached_agrees (d : AccDesc) (va a : Word) (old : List TLBEntry) (e : TLBEntry) (h : HaltedAgrees s) :
    LocAgrees (useCached d va a old e s) := by
  have huse := useEntry_agrees none d va a e h
  unfold useCached
  split
  case h_1 hok => rwa [hok] at huse
  case h_2 hfault =>
    rw [hfault] at huse
    exact .ite (walkAccess_agrees _ _ _ _ h) huse

theorem lookupIn_agrees (hits : List TLBEntry) (d : AccDesc) (va a : Word) (h : HaltedAgrees s) :
    LocAgrees (lookupIn hits d va a s) := by
  unfold lookupIn
  split
  · exact h
  · split
    · exact useCached_agrees _ _ _ _ _ h
    · split
      · exact h
      · exact useCached_agrees _ _ _ _ _ h
    · exact .ite h (walkAccess_agrees _ _ _ _ h)

theorem findWith_agrees (tlb : List TLBEntry) (d : AccDesc) (va : Word) (h : HaltedAgrees s) :
    LocAgrees (findWith tlb d va s) := .ite (.ite h h) (lookupIn_agrees _ d va _ h)

theorem lookupWith_agrees (tlb : List TLBEntry) (d : AccDesc) (va : Word) (h : HaltedAgrees s) :
    LocAgrees (lookupWith tlb d va s) := by
  refine (findWith_agrees tlb d va h).bind fun x u hu => ?_
  split
  · exact agrees_faultUpdates _ hu
  · exact hu

theorem translate_agrees (d : AccDesc) (va : Word) (h : HaltedAgrees s) : LocAgrees (translate d va s) :=
  (lookupWith_agrees s.tlb d va h).bind fun x _ hu => agrees_commit x hu

/-! ### Locating an access -/

theorem finalChecks_agrees (d : AccDesc) (n : Nat) (x : Xlat) (h : HaltedAgrees s) :
    LocAgrees (finalChecks d n x s) := by
  have hrecord {c : Prop} [Decidable c] (va : Word) : HaltedAgrees (if c then recordTagFault va s else s) :=
    agrees_ite h h
  simp only [finalChecks]
  split
  case h_1 => exact h
  case h_2 => exact .ite (hrecord _) h
  all_goals exact hrecord _

theorem checked_agrees (d : AccDesc) (n : Nat) (x : Xlat) (h : HaltedAgrees s) : LocAgrees (checked d n x s) := by
  have hchecks := finalChecks_agrees d n x h
  unfold checked
  split
  case h_1 hfinal =>
    rw [hfinal] at hchecks
    exact agrees_commit _ hchecks
  case h_2 hfinal =>
    rw [hfinal] at hchecks
    exact agrees_faultUpdates _ hchecks

theorem attempt_agrees (d : AccDesc) (n : Nat) (bad : Xlat → State → Option AbortKind) (va : Word) (h : HaltedAgrees s) :
    LocAgrees (attempt d n bad va s) := by
  refine (findWith_agrees s.tlb d va h).bind fun x u hu => ?_
  split
  · exact agrees_faultUpdates _ hu
  · exact checked_agrees _ _ _ hu

theorem locateBy_agrees (d : AccDesc) (n : Nat) (bad : Xlat → State → Option AbortKind) (va : Word)
    (h : HaltedAgrees s) : LocAgrees (locateBy d n bad va s) := by
  have hattempt := attempt_agrees d n bad va h
  have hdropped : HaltedAgrees (dropHits d va s) := h
  unfold locateBy
  split
  case h_1 hok => rwa [hok] at hattempt
  case h_2 hfault =>
    rw [hfault] at hattempt
    exact .ite (attempt_agrees d n bad va hdropped) hattempt

theorem locate_agrees (d : AccDesc) (n : Nat) (va : Word) (m : Bool) (h : HaltedAgrees s) :
    LocAgrees (locate d n va m s) := locateBy_agrees _ _ _ _ h

theorem locateSeq_agrees {f : Word → State → Loc Xlat} (hf : ∀ a v, HaltedAgrees v → LocAgrees (f a v)) (stride : Word)
    (g : Nat) (first : Bool) (n : Nat) (va : Word) (h : HaltedAgrees s) :
    LocAgrees (locateSeq f stride g first n va s) := by
  induction n generalizing first va s with
  | zero => exact h
  | succ n ih =>
    rw [locateSeq]
    split
    · exact h
    · exact (hf va s h).bind fun x u hu => (ih false _ hu).bind fun xs v hv => hv

theorem locateNth_agrees (d : AccDesc) (n g : Nat) (va : Word) (h : HaltedAgrees s) :
    LocAgrees (locateNth d n g va s) :=
  .ite h (.ite (locateSeq_agrees (fun _ _ hv => locate_agrees _ _ _ _ hv) _ _ _ _ _ h)
    ((locate_agrees d n va false h).bind fun _ _ hu => hu))

end

end Sys2Proof.Proofs
end

