-- ==== Sys2Proof/Proofs/HaltedResults.lean ====
section
/-! Where a computation goes on HALTED agrees: results, traps, exceptions, and accesses to memory. -/

namespace Sys2Proof.Proofs

open Sys2Proof.Machine Sys2Proof.Safety Sys2Proof.Laws

/-- If it goes on, HALTED agrees in the next state. -/
structure ResAgrees (r : Result) : Prop where
  next : ∀ t, r = .next t → HaltedAgrees t

/-- So does a trap, where one applies. -/
structure TrapAgrees (trap : Option Result) : Prop where
  taken : ∀ r, trap = some r → ResAgrees r

/-- A computation gives a value in such a state, or ends so. -/
def AccAgrees {α : Type} : Acc α → Prop
  | .ok _ u => HaltedAgrees u
  | .stop r => ResAgrees r

section
variable {s t u : State} {r q : Result} {o p : Option Result}

/-! ### Results -/

theorem resAgrees_next (h : HaltedAgrees t) : ResAgrees (.next t) := ⟨by rintro _ ⟨⟩; exact h⟩

/-- A next state with the debug registers as they were. -/
theorem resAgrees_of_dbg (h : HaltedAgrees s) (hdbg : t.dbg = s.dbg) : ResAgrees (.next t) :=
  resAgrees_next (agrees_of_dbg h hdbg)

theorem resAgrees_advance (h : HaltedAgrees s) : ResAgrees (.next (advance s)) := resAgrees_of_dbg h (by simp)

theorem resAgrees_advanceOf (narrow : Bool) (h : HaltedAgrees s) : ResAgrees (.next (advanceOf narrow s)) := by
  cases narrow <;> exact resAgrees_of_dbg h (by simp)

theorem resAgrees_refused (f : Refusal) : ResAgrees (.refused f) := ⟨fun _ h => by cases h⟩

theorem ResAgrees.ite {c : Prop} [Decidable c] (hr : ResAgrees r) (hq : ResAgrees q) :
    ResAgrees (if c then r else q) := by
  split
  · exact hr
  · exact hq

/-! ### Traps -/

theorem trapAgrees_none : TrapAgrees none := ⟨fun _ h => by cases h⟩

theorem trapAgrees_some (h : ResAgrees r) : TrapAgrees (some r) := ⟨by rintro _ ⟨⟩; exact h⟩

theorem TrapAgrees.ite {c : Prop} [Decidable c] (ho : TrapAgrees o) (hp : TrapAgrees p) :
    TrapAgrees (if c then o else p) := by
  split
  · exact ho
  · exact hp

theorem TrapAgrees.getD (ho : TrapAgrees o) (hr : ResAgrees r) : ResAgrees (o.getD r) := by
  cases o with
  | none => exact hr
  | some q => exact ho.taken q rfl

theorem TrapAgrees.orElse (ho : TrapAgrees o) (hp : TrapAgrees p) : TrapAgrees (o.or p) := by
  cases o with
  | none => exact hp
  | some q => exact ho

theorem TrapAgrees.bind {α : Type} {a : Option α} {f : α → Option Result} (h : ∀ x, TrapAgrees (f x)) :
    TrapAgrees (a.bind f) := by
  cases a with
  | none => exact trapAgrees_none
  | some x => exact h x

theorem resAgrees_unpredictable (h : TrapAgrees o) (own : Refusal) (s : State) : ResAgrees (unpredictable o own s) :=
  ⟨fun t e => (h.taken _ (unpredictable_next e)).next t rfl⟩

theorem resAgrees_notHalted (h : TrapAgrees o) (hr : ResAgrees r) (s : State) : ResAgrees (notHalted o s r) :=
  .ite (resAgrees_unpredictable h _ s) hr

/-- An instruction that no control traps. -/
theorem resAgrees_running (hr : ResAgrees r) (s : State) : ResAgrees (notHalted none s r) :=
  resAgrees_notHalted trapAgrees_none hr s

/-! ### Computations -/

theorem AccAgrees.andThen {α : Type} {m : Acc α} {k : α → State → Result} (h : AccAgrees m)
    (hk : ∀ a u, HaltedAgrees u → ResAgrees (k a u)) : ResAgrees (m.andThen k) := by
  cases m with
  | ok a u => exact hk a u h
  | stop r => exact h

theorem AccAgrees.bind {α β : Type} {m : Acc α} {k : α → State → Acc β} (h : AccAgrees m)
    (hk : ∀ a u, HaltedAgrees u → AccAgrees (k a u)) : AccAgrees (m.bind k) := by
  cases m with
  | ok a u => exact hk a u h
  | stop r => exact h

theorem AccAgrees.ite {α : Type} {c : Prop} [Decidable c] {m n : Acc α} (hm : AccAgrees m) (hn : AccAgrees n) :
    AccAgrees (if c then m else n) := by
  split
  · exact hm
  · exact hn

/-! ### Exceptions -/

@[simp] theorem takeException_dbg (e : ExcReq) (s : State) : (takeException e s).dbg = s.dbg := by
  rw [takeException_eq]
  unfold entryContext
  split <;> rfl

theorem resAgrees_raise (e : ExcReq) (h : HaltedAgrees s) : ResAgrees (raise e s) := by
  refine ⟨fun t hraise => ?_⟩
  obtain ⟨-, rfl⟩ := raise_next hraise
  exact agrees_of_dbg h (by simp)

theorem resAgrees_undefined (h : HaltedAgrees s) : ResAgrees (undefined s) := resAgrees_raise _ h

theorem trapAgrees_raise (e : ExcReq) (h : HaltedAgrees s) : TrapAgrees (some (raise e s)) :=
  trapAgrees_some (resAgrees_raise e h)

theorem takeInterrupt_agrees (k : Interrupt) (h : HaltedAgrees s) : ResAgrees (takeInterrupt k s) := by
  have htaken : HaltedAgrees (intTaken k s) := by cases k <;> exact h
  exact resAgrees_raise _ htaken

theorem takeUnmaskedSError_agrees {k : State → Result} (h : HaltedAgrees s) (hk : ResAgrees (k s)) :
    ResAgrees (takeUnmaskedSError s k) := .ite (takeInterrupt_agrees _ h) hk

theorem watchpointEvent_agrees (d : AccDesc) (n : Nat) (va : Word) (h : HaltedAgrees s) :
    ResAgrees (watchpointEvent d n va s) := by
  have hhalts : HaltedAgrees (halt 0b101011 s.pc s) := agrees_halt (by decide) ..
  unfold watchpointEvent
  exact .ite (resAgrees_next hhalts) (resAgrees_raise _ h)

theorem abort_agrees {α : Type} (d : AccDesc) (k : AbortKind) (va : Word) (h : HaltedAgrees s) :
    AccAgrees (abort d k va s : Acc α) := by
  unfold abort
  split
  · exact watchpointEvent_agrees _ _ _ h
  · exact takeInterrupt_agrees _ h
  · exact resAgrees_raise _ h

/-- An abort ends the step. -/
theorem abortStep_agrees (d : AccDesc) (k : AbortKind) (va : Word) (h : HaltedAgrees s) :
    ResAgrees ((abort (α := Unit) d k va s).andThen fun _ v => .next v) :=
  (abort_agrees d k va h).andThen fun _ _ hv => resAgrees_next hv

theorem toAcc_agrees {α : Type} {m : Loc α} (d : AccDesc) (h : LocAgrees m) : AccAgrees (m.toAcc d) := by
  cases m with
  | ok a u => exact h
  | fault k va u => exact abort_agrees d k va h

/-! ### Memory accesses -/

theorem memRead_agrees (d : AccDesc) (n w : Nat) (va : Word) {spoil : State → State}
    (hspoil : ∀ v, HaltedAgrees v → HaltedAgrees (spoil v)) (h : HaltedAgrees s) :
    AccAgrees (memRead d n w va spoil s) := by
  have hlocate := locateNth_agrees d n 0 va h
  unfold memRead locateAll
  split
  case h_1 hloc =>
    rw [hloc] at hlocate
    exact agrees_readLocs _ 0 hlocate
  case h_2 hloc =>
    rw [hloc] at hlocate
    exact abort_agrees _ _ _ (agrees_ite (hspoil _ (agrees_partialRead _ hlocate)) hlocate)

theorem memWrite_agrees {w : Nat} (d : AccDesc) (n : Nat) (va : Word) (v : BitVec w) (h : HaltedAgrees s) :
    AccAgrees (memWrite d n va v s) := by
  have hlocate := locateNth_agrees d n 0 va h
  unfold memWrite locateAll
  split
  case h_1 hloc =>
    rw [hloc] at hlocate
    exact agrees_writeLocs _ _ hlocate
  case h_2 hloc =>
    rw [hloc] at hlocate
    exact abort_agrees _ _ _ (agrees_partialWrite _ _ _ hlocate)

/-! ### Registers that several instructions write -/

@[simp] theorem writeReg_dbg (q : SysReg) (v : Word) (s : State) : (writeReg q v s).dbg = s.dbg := by rw [writeReg_eq]

@[simp] theorem countEventWhere_dbg (here : Nat → Bool) (e : BitVec 16) (s : State) :
    (countEventWhere here e s).dbg = s.dbg := by rw [countEventWhere_eq]

@[simp] theorem countEvent_dbg (e : BitVec 16) (s : State) : (countEvent e s).dbg = s.dbg := by rw [countEvent_eq]

@[simp] theorem countReduction_dbg (k : ReduceInstr) (s : State) : (countReduction k s).dbg = s.dbg := by
  rw [countReduction_eq]

@[simp] theorem countWrite_dbg (q : SysReg) (s : State) : (countWrite q s).dbg = s.dbg := by
  rw [(countWrite_eq q s).1]

theorem agrees_writeX (n : BitVec 5) (v : Word) (h : HaltedAgrees s) : HaltedAgrees (writeX n v s) :=
  agrees_of_dbg h (by simp)

theorem agrees_spoilReg (rt base : BitVec 5) (h : HaltedAgrees s) : HaltedAgrees (spoilReg rt base s) :=
  agrees_ite (agrees_writeX rt _ h) h

/-! ### The enables of the vector units -/

theorem vecException_agrees (us : List VecUnit) (h : HaltedAgrees s) : TrapAgrees (vecException us s) := by
  have htrap (tu : EL × VecUnit) : ResAgrees (vecTrapResult tu.1 tu.2 s) :=
    .ite (resAgrees_undefined h) (resAgrees_raise _ h)
  unfold vecException
  split
  · exact trapAgrees_some (resAgrees_undefined h)
  · cases vecTrap us s with
    | none => exact trapAgrees_none
    | some tu => exact trapAgrees_some (htrap tu)

theorem vecGate_agrees (us : List VecUnit) (h : HaltedAgrees s) (hr : ResAgrees r) : ResAgrees (vecGate us s r) :=
  (vecException_agrees us h).getD hr

/-! ### The base register -/

theorem baseReg_agrees (n : BitVec 5) (h : HaltedAgrees s) : AccAgrees (baseReg n s) :=
  .ite (m := .stop _) (n := .ok _ s) (resAgrees_raise _ h) h

theorem baseException_agrees (n : BitVec 5) (h : HaltedAgrees s) : TrapAgrees (baseException n s) := by
  have hstop := baseReg_agrees n h
  unfold baseException
  cases hbase : baseReg n s with
  | ok v u => exact trapAgrees_none
  | stop q =>
    rw [hbase] at hstop
    exact trapAgrees_some hstop

end

end Sys2Proof.Proofs
end

