-- ==== Sys2Proof/Proofs/HaltedVectors.lean ====
section
/-! HALTED agrees after a vector, pointer authentication, load, store or SVE instruction. -/

namespace Sys2Proof.Proofs

open Sys2Proof.Machine Sys2Proof.Safety Sys2Proof.Laws

section
variable {s t u : State} {r : Result}

/-! ### Floating-point elements -/

@[simp] theorem fpFlags_dbg {w : Nat} (a b : BitVec w) (s : State) : (fpFlags a b s).dbg = s.dbg := rfl

@[simp] theorem roundFlags_dbg (s : State) : (roundFlags s).dbg = s.dbg := rfl

@[simp] theorem fmmlaFpsr_dbg (s : State) : (fmmlaFpsr s).dbg = s.dbg := rfl

@[simp] theorem elemFlags_dbg (size : BitVec 2) (l : List (Word × Word)) (s : State) :
    (elemFlags size l s).dbg = s.dbg := by
  unfold elemFlags
  induction l generalizing s with
  | nil => rfl
  | cons ab l ih =>
    rw [List.foldl_cons, ih]
    split_ifs <;> rfl

@[simp] theorem writeFpElems_dbg (op : FpOp) (size : BitVec 2) (l : List (Word × Word)) (zd : BitVec 5) (s : State) :
    (writeFpElems op size l zd s).dbg = s.dbg := by simp [writeFpElems]

@[simp] theorem svePredElems_dbg (op : FpOp) (size : BitVec 2) (pg : BitVec 3) (l : List (Word × Word)) (zdn : BitVec 5)
    (s : State) : (svePredElems op size pg l zdn s).dbg = s.dbg := by simp [svePredElems]

theorem sveException_agrees (long : Bool) (h : HaltedAgrees s) : TrapAgrees (sveException long s) := by
  have hundefined : TrapAgrees (some (undefined s)) := trapAgrees_some (resAgrees_undefined h)
  have hvec := vecException_agrees (sveUnits s) h
  unfold sveException
  split
  · exact hundefined
  · split
    case h_1 hsome => rwa [hsome] at hvec
    case h_2 => exact .ite (trapAgrees_raise _ h) (.ite hundefined trapAgrees_none)

theorem fpScalar_agrees (w : Nat) (op : FpOp) (rm rn rd : BitVec 5) (h : HaltedAgrees s) :
    ResAgrees (fpScalar w op rm rn rd s) := vecGate_agrees _ h (resAgrees_advance (agrees_of_dbg h rfl))

theorem execMovprfx_agrees (zn zd : BitVec 5) (h : HaltedAgrees s) : ResAgrees (execMovprfx zn zd s) :=
  .ite (resAgrees_undefined h) (vecGate_agrees _ h (resAgrees_of_dbg h (by simp)))

theorem execMovprfxPred_agrees (size : BitVec 2) (m : BitVec 1) (pg : BitVec 3) (zn zd : BitVec 5)
    (h : HaltedAgrees s) : ResAgrees (execMovprfxPred size m pg zn zd s) :=
  .ite (resAgrees_undefined h) (vecGate_agrees _ h (resAgrees_of_dbg h (advance_dbg _)))

theorem execFmmlaS_agrees (zm zn zda : BitVec 5) (h : HaltedAgrees s) : ResAgrees (execFmmlaS zm zn zda s) :=
  (sveException_agrees false h).getD (resAgrees_of_dbg h (by simp))

theorem execFmmlaD_agrees (zm zn zda : BitVec 5) (h : HaltedAgrees s) : ResAgrees (execFmmlaD zm zn zda s) :=
  (sveException_agrees true h).getD (resAgrees_of_dbg h (by simp))

/-! ### Pointer authentication -/

theorem pacTrap_agrees (k : PacKey) (h : HaltedAgrees s) : TrapAgrees (pacTrap k s) :=
  .ite (trapAgrees_raise _ h) trapAgrees_none

theorem pacgaTrap_agrees (h : HaltedAgrees s) : TrapAgrees (pacgaTrap s) := .ite (trapAgrees_raise _ h) trapAgrees_none

theorem pacGate_agrees (k : PacKey) (hint : Bool) (h : HaltedAgrees s) (hr : ResAgrees r) :
    ResAgrees (pacGate k hint s r) :=
  .ite (.ite (resAgrees_advance h) (resAgrees_undefined h)) (.ite (resAgrees_advance h) (.ite (resAgrees_raise _ h) hr))

theorem pacInsert_agrees (k : PacKey) (hint : Bool) (rd : BitVec 5) (m : Word) (h : HaltedAgrees s) :
    ResAgrees (pacInsert k hint rd m s) := pacGate_agrees k hint h (resAgrees_of_dbg h (by simp))

theorem pacCheck_agrees (k : PacKey) (hint : Bool) (rd : BitVec 5) (m : Word) (h : HaltedAgrees s) :
    ResAgrees (pacCheck k hint rd m s) :=
  pacGate_agrees k hint h (.ite (resAgrees_raise _ h) (resAgrees_of_dbg h (by simp)))

theorem authCombined_agrees {k : PacKey} {ptr m : Word} {onFail : State → State} {cont : Word → Result}
    (h : HaltedAgrees s) (hfail : HaltedAgrees (onFail s)) (hcont : ∀ a, ResAgrees (cont a)) :
    ResAgrees (authCombined k ptr m s onFail cont) :=
  .ite (resAgrees_undefined h) (.ite (hcont _)
    (.ite (resAgrees_raise _ h) (.ite (resAgrees_raise _ hfail) (hcont _))))

theorem needsPAuth_agrees (h : HaltedAgrees s) (hr : ResAgrees r) : ResAgrees (needsPAuth s r) :=
  .ite hr (resAgrees_undefined h)

theorem execPacga_agrees (rm rn rd : BitVec 5) (h : HaltedAgrees s) : ResAgrees (execPacga rm rn rd s) :=
  .ite (resAgrees_undefined h) (.ite (resAgrees_raise _ h) (resAgrees_of_dbg h (by simp)))

/-! ### Loads and stores -/

theorem execStrX_agrees (imm12 : BitVec 12) (rn rt : BitVec 5) (h : HaltedAgrees s) :
    ResAgrees (execStrX imm12 rn rt s) :=
  (baseReg_agrees rn h).andThen fun _ _ hu => (memWrite_agrees _ _ _ _ hu).andThen fun _ _ hv => resAgrees_advance hv

theorem execLdrX_agrees (imm12 : BitVec 12) (rn rt : BitVec 5) (h : HaltedAgrees s) :
    ResAgrees (execLdrX imm12 rn rt s) :=
  (baseReg_agrees rn h).andThen fun _ _ hu => (memRead_agrees _ _ _ _ (fun _ => agrees_spoilReg rt rn) hu).andThen
    fun _ _ hv => resAgrees_of_dbg hv (by simp)

theorem loadAt_agrees (d : AccDesc) (addr : Word) (writeback : Bool) (rn rt : BitVec 5) (h : HaltedAgrees s) :
    ResAgrees (loadAt d addr writeback rn rt s) :=
  (memRead_agrees _ _ _ _ (fun _ => agrees_spoilReg rt rn) h).andThen fun _ _ hu =>
    resAgrees_advance (agrees_ite (agrees_of_dbg hu (by simp)) (agrees_writeX _ _ hu))

theorem execLdrXPre_agrees (imm9 : BitVec 9) (rn rt : BitVec 5) (h : HaltedAgrees s) :
    ResAgrees (execLdrXPre imm9 rn rt s) :=
  .ite (resAgrees_unpredictable trapAgrees_none _ s) ((baseReg_agrees rn h).andThen fun _ _ hu => loadAt_agrees _ _ _ _ _ hu)

theorem agrees_failedLoad (d : AccDesc) (addr : Word) (h : HaltedAgrees s) : HaltedAgrees (failedLoad d addr s) := by
  have hlocate := locateNth_agrees d 8 0 addr h
  unfold failedLoad locateAll
  split
  · split
    case h_1 hloc =>
      rw [hloc] at hlocate
      exact agrees_ite (agrees_readLocs _ 0 hlocate) h
    case h_2 => exact h
  · exact h

theorem execLdra_agrees (m sbit : BitVec 1) (imm9 : BitVec 9) (w : BitVec 1) (rn rt : BitVec 5) (h : HaltedAgrees s) :
    ResAgrees (execLdra m sbit imm9 w rn rt s) :=
  .ite (resAgrees_undefined h) ((baseReg_agrees rn h).andThen fun _ _ hu =>
    authCombined_agrees hu (agrees_failedLoad _ _ hu) fun _ =>
      loadAt_agrees _ _ _ _ _ (agrees_ite (agrees_failedLoad _ _ hu) hu))

/-! ### SVE loads and stores -/

theorem sveBase_agrees (m : SveAccess) (h : HaltedAgrees s) : AccAgrees (m.base s) := by
  unfold SveAccess.base
  split
  · exact h
  · exact baseReg_agrees m.rn h

theorem locateList_agrees (d : AccDesc) (n more : Nat) (first : Bool) (as : List Word) (h : HaltedAgrees s) :
    LocAgrees (locateList d n more first as s) := by
  induction as generalizing first s with
  | nil => exact h
  | cons a as ih =>
    rw [locateList]
    split
    · exact h
    · exact (locateNth_agrees _ _ _ _ h).bind fun _ _ hu => (ih false hu).bind fun _ _ hv => hv

theorem agrees_readElems (xss : List (List Xlat)) (h : HaltedAgrees s) : HaltedAgrees (readElems xss s).2 := by
  induction xss generalizing s with
  | nil => exact h
  | cons xs xss ih => exact ih (agrees_readLocs xs 0 h)

theorem agrees_writeElems (bytes : Nat) (xss : List (List Xlat)) (vs : List Word) (h : HaltedAgrees s) :
    HaltedAgrees (writeElems bytes xss vs s) := by
  induction xss generalizing vs s with
  | nil => exact h
  | cons xs xss ih =>
    cases vs with
    | nil => exact h
    | cons v vs => exact ih vs (agrees_writeLocs xs _ h)

theorem agrees_spoilZ (zt : BitVec 5) (h : HaltedAgrees s) : HaltedAgrees (spoilZ zt s) := agrees_ite h h

theorem agrees_spoilFaultLoad (zt : BitVec 5) (h : HaltedAgrees s) : HaltedAgrees (spoilFaultLoad zt s) :=
  have hspoilt := agrees_spoilZ zt h
  agrees_ite hspoilt hspoilt

theorem loadElems_agrees (m : SveAccess) (whole : Nat) (es : List Nat) (others : Bool) (more : Nat)
    {spoil : State → State} (hspoil : ∀ v, HaltedAgrees v → HaltedAgrees (spoil v)) (base : Word) (h : HaltedAgrees s) :
    AccAgrees (loadElems m whole es others more spoil base s) := by
  have hlocate := locateList_agrees (m.desc false false) (sizeBytes m.msize) more true (es.map (m.addr whole base s)) h
  unfold loadElems
  dsimp only
  split
  case h_1 hloc =>
    rw [hloc] at hlocate
    exact agrees_readElems _ hlocate
  case h_2 hloc =>
    rw [hloc] at hlocate
    exact abort_agrees _ _ _ (agrees_ite (hspoil _ (agrees_partialRead _ hlocate)) hlocate)

/-- The regular loads and LD1RO: the elements loaded, then a vector written. -/
theorem loadElems_writeZ_agrees {m : SveAccess} {whole : Nat} {es : List Nat} {others : Bool} {more : Nat} {base : Word}
    {z : List (Nat × Word) → State → VReg} (zt : BitVec 5) (h : HaltedAgrees s) :
    ResAgrees ((loadElems m whole es others more (spoilZ zt) base s).andThen fun l v =>
      .next (advance (writeZ zt (z l v) v))) :=
  (loadElems_agrees m _ _ _ _ (fun _ => agrees_spoilZ zt) _ h).andThen fun _ _ hv => resAgrees_of_dbg hv (by simp)

theorem sveLoadRegular_agrees (m : SveAccess) (signed : Bool) (zt : BitVec 5) (h : HaltedAgrees s) :
    ResAgrees (sveLoadRegular m signed zt s) :=
  (sveBase_agrees m h).andThen fun _ _ hu => loadElems_writeZ_agrees zt hu

theorem ld1roEffect_agrees (m : SveAccess) (zt : BitVec 5) (h : HaltedAgrees s) : ResAgrees (ld1roEffect m zt s) :=
  (sveBase_agrees m h).andThen fun _ _ hu => loadElems_writeZ_agrees zt hu

theorem sveStoreEffect_agrees (m : SveAccess) (zt : BitVec 5) (h : HaltedAgrees s) :
    ResAgrees (sveStoreEffect m zt s) := by
  refine (sveBase_agrees m h).andThen fun base u hu => ?_
  have hlocate := locateList_agrees (m.desc true false) (sizeBytes m.msize) 0 true
    ((m.actives (elemCount m.esize u) u).map (m.addr (m.whole u) base u)) hu
  dsimp only
  split
  case h_1 hloc =>
    rw [hloc] at hlocate
    exact resAgrees_advance (agrees_writeElems _ _ _ hlocate)
  case h_2 hloc =>
    rw [hloc] at hlocate
    exact abortStep_agrees _ _ _ (agrees_partialWrite _ _ _ hlocate)

theorem nonFaultElem_agrees (m : SveAccess) (first : Bool) (left e : Nat) (zt : BitVec 5) (va : Word)
    (h : HaltedAgrees s) : AccAgrees (nonFaultElem m first left e zt va s) := by
  have hlocate := locateNth_agrees (m.desc false true) (sizeBytes m.msize) (accessNumber 0 left) va h
  unfold nonFaultElem
  dsimp only
  split
  · exact abort_agrees _ _ _ (agrees_spoilFaultLoad zt h)
  · split
    case h_1 hloc =>
      rw [hloc] at hlocate
      exact abort_agrees _ _ _ (agrees_spoilFaultLoad zt (agrees_partialRead _ hlocate))
    case h_2 hloc => rwa [hloc] at hlocate
    case h_3 hloc =>
      rw [hloc] at hlocate
      exact .ite (m := .ok _ _) (n := .ok _ _) h (agrees_readLocs _ 0 hlocate)

theorem nonFaultElems_agrees (m : SveAccess) (signed : Bool) (actives : List Nat) (zt : BitVec 5) (base : Word)
    (first : Bool) (es : List Nat) (ffr : PReg) (o : Bool) (h : HaltedAgrees s) :
    AccAgrees (nonFaultElems m signed actives zt base first es ffr o s) := by
  induction es generalizing ffr o s with
  | nil => exact h
  | cons e es ih =>
    rw [nonFaultElems]
    refine AccAgrees.bind (.ite (nonFaultElem_agrees _ _ _ _ _ _ h) h) fun r u hu => ?_
    exact (ih _ _ hu).bind fun _ _ hv => hv

theorem endFaultLoad_agrees (m : SveAccess) (zt : BitVec 5) (l : List (Nat × Word)) (ffr : PReg) (h : HaltedAgrees s) :
    ResAgrees (endFaultLoad m zt l ffr s) := resAgrees_of_dbg h (by simp)

/-- The elements after which the First-fault Register is written. -/
theorem faultLoad_agrees {m : SveAccess} {signed first : Bool} {actives es : List Nat} {zt : BitVec 5} {base : Word}
    {ffr : PReg} {o : Bool} {l : List (Nat × Word) × PReg → State → List (Nat × Word)}
    (h : HaltedAgrees s) :
    ResAgrees ((nonFaultElems m signed actives zt base first es ffr o s).andThen fun a v =>
      endFaultLoad m zt (l a v) a.2 v) :=
  (nonFaultElems_agrees m _ _ _ _ _ _ _ _ h).andThen fun _ _ hv => endFaultLoad_agrees _ _ _ _ hv

theorem sveLoadNonFault_agrees (m : SveAccess) (signed : Bool) (zt : BitVec 5) (h : HaltedAgrees s) :
    ResAgrees (sveLoadNonFault m signed zt s) :=
  (sveBase_agrees m h).andThen fun _ _ hu => faultLoad_agrees hu

theorem sveLoadFirstFault_agrees (m : SveAccess) (signed : Bool) (zt : BitVec 5) (h : HaltedAgrees s) :
    ResAgrees (sveLoadFirstFault m signed zt s) := by
  refine (sveBase_agrees m h).andThen fun base u hu => ?_
  dsimp only
  split
  · exact resAgrees_of_dbg hu (by simp)
  · exact (loadElems_agrees m _ _ _ _ (fun _ => agrees_spoilFaultLoad zt) _ hu).andThen fun _ _ hv => faultLoad_agrees hv

end

end Sys2Proof.Proofs
end

