-- ==== Sys2Proof/Proofs/HaltedRegisters.lean ====
section
/-! HALTED agrees after an access to a System register, a branch, an exception return, a wait, an A32 move. -/

namespace Sys2Proof.Proofs

open Sys2Proof.Machine Sys2Proof.Safety Sys2Proof.Laws

section
variable {s t u : State} {r : Result}

/-! ### Writes by name -/

@[simp] theorem writeStored_dbg (q : SysReg) (v : Word) (s : State) : (writeStored q v s).dbg = s.dbg := by
  by_cases hpmcr : q = .PMCR_EL0
  · subst hpmcr
    exact (writeReg_dbg _ _ _).trans (pmcrResets_dbg v s)
  · rw [writeStored_state hpmcr]

@[simp] theorem changeSM_dbg (sm : Bool) (s : State) : (changeSM sm s).dbg = s.dbg := by
  unfold changeSM
  split <;> rfl

@[simp] theorem changeZA_dbg (za : Bool) (s : State) : (changeZA za s).dbg = s.dbg := by
  unfold changeZA smeStateChange
  split
  · rfl
  · split <;> rfl

@[simp] theorem writeView_dbg (w : View) (v : Word) (s : State) : (writeView w v s).dbg = s.dbg := by
  cases w with
  | SVCR => exact (changeZA_dbg _ _).trans (changeSM_dbg _ s)
  | CNTP_TVAL_EL0 | CNTV_TVAL_EL0 | CNTHP_TVAL_EL2 | CNTHV_TVAL_EL2 | CNTPS_TVAL_EL1 | PMCNTENCLR_EL0 | PMOVSCLR_EL0 =>
    exact writeReg_dbg _ _ s
  | PMXEVTYPER_EL0 =>
    simp only [writeView]
    split
    · simp
    · rfl
  | _ => rfl

@[simp] theorem writeName_dbg (n : RegName) (v : Word) (s : State) : (writeName n v s).dbg = s.dbg := by
  cases n with
  | stored q => exact writeStored_dbg q v s
  | view w => exact writeView_dbg w v s
  | _ => rfl

@[simp] theorem performWrite_dbg (sel : BitVec 15) (n : RegName) (v : Word) (s : State) :
    (performWrite sel n v s).dbg = s.dbg := by
  unfold performWrite
  split
  · split <;> simp
  · simp
  · simp

/-! ### MRS and MSR -/

theorem sysTrap_agrees (el : EL) (sel : BitVec 15) (rt : BitVec 5) (read : Bool) (h : HaltedAgrees s) :
    ResAgrees (sysTrap el sel rt read s) := .ite (resAgrees_undefined h) (resAgrees_raise _ h)

theorem permissionTrap_agrees (sel : BitVec 15) (n : RegName) (rt : BitVec 5) (write : Bool) (h : HaltedAgrees s) :
    TrapAgrees (permissionTrap sel n rt write s) := by
  unfold permissionTrap
  split
  · exact trapAgrees_some (sysTrap_agrees _ _ _ _ h)
  · exact .ite (vecException_agrees _ h) trapAgrees_none
  · exact trapAgrees_none

theorem accessGate_agrees (n : RegName) (h : HaltedAgrees s) (hr : ResAgrees r) : ResAgrees (accessGate n s r) :=
  .ite (vecGate_agrees _ h hr) hr

theorem unknownReg_agrees (sel : BitVec 15) (h : HaltedAgrees s) : ResAgrees (unknownReg sel s) :=
  .ite (resAgrees_undefined h) (resAgrees_refused _)

theorem vncrLocate_agrees (write : Bool) (addr : Word) (h : HaltedAgrees s) : AccAgrees (vncrLocate write addr s) := by
  have hcontext : HaltedAgrees (vncrContext s) := h
  have hlocate := locateNth_agrees (vncrDesc write) 8 0 addr hcontext
  unfold vncrLocate locateAll
  split
  case h_1 hloc =>
    rw [hloc] at hlocate
    exact hlocate
  case h_2 u hloc =>
    rw [hloc] at hlocate
    have hback : HaltedAgrees { u with ps := s.ps } := hlocate
    exact resAgrees_raise _ hback

theorem readCcsidr_agrees (sel : BitVec 15) (second : Bool) (rt : BitVec 5) (h : HaltedAgrees s) :
    ResAgrees (readCcsidr sel second rt s) := by
  unfold readCcsidr
  split
  · exact resAgrees_of_dbg h (by simp)
  · exact .ite (resAgrees_advance h) (.ite (.ite (sysTrap_agrees _ _ _ _ h) (resAgrees_undefined h))
      (resAgrees_of_dbg h (by simp)))

theorem performRead_agrees (sel : BitVec 15) (n : RegName) (rt : BitVec 5) (h : HaltedAgrees s) :
    ResAgrees (performRead sel n rt s) := by
  have hwrite (v : Word) : ResAgrees (.next (advance (writeX rt v s))) := resAgrees_of_dbg h (by simp)
  have hrandom : ResAgrees (readRandom rt s) := resAgrees_of_dbg h (by simp)
  unfold performRead
  split
  · exact readCcsidr_agrees _ _ _ h
  · exact readCcsidr_agrees _ _ _ h
  · exact hrandom
  · exact hrandom
  · exact .ite (hwrite _) (hwrite _)
  · exact hwrite _

theorem readSys_agrees (sel : BitVec 15) (rt : BitVec 5) (h : HaltedAgrees s) : ResAgrees (readSys sel rt s) := by
  have hwrite (v : Word) {u : State} (hu : HaltedAgrees u) : ResAgrees (.next (advance (writeX rt v u))) :=
    resAgrees_of_dbg hu (by simp)
  unfold readSys
  split
  · refine .ite (resAgrees_unpredictable (permissionTrap_agrees _ _ _ _ h) _ s) ?_
    split
    · exact resAgrees_undefined h
    · exact sysTrap_agrees _ _ _ _ h
    · exact (vncrLocate_agrees _ _ h).andThen fun xs u hu => hwrite _ (agrees_readLocs xs 0 hu)
    · exact accessGate_agrees _ h (performRead_agrees _ _ _ h)
  · refine .ite (.ite (resAgrees_undefined h) (.ite (sysTrap_agrees _ _ _ _ h) (hwrite _ h))) ?_
    split
    · exact .ite (hwrite _ h) (resAgrees_undefined h)
    · exact unknownReg_agrees sel h

theorem writeSys_agrees (sel : BitVec 15) (rt : BitVec 5) (h : HaltedAgrees s) : ResAgrees (writeSys sel rt s) := by
  unfold writeSys
  split
  · refine .ite (resAgrees_unpredictable (permissionTrap_agrees _ _ _ _ h) _ s) ?_
    split
    · exact resAgrees_undefined h
    · exact sysTrap_agrees _ _ _ _ h
    · refine (vncrLocate_agrees _ _ h).andThen fun xs u hu => ?_
      have hstored := agrees_writeLocs xs (byteOrder (vncrBig s) (bytesOf 8 (readX rt s))) hu
      split <;> exact resAgrees_of_dbg hstored (by simp)
    · exact accessGate_agrees _ h (resAgrees_of_dbg h (by simp))
  · refine .ite (.ite (resAgrees_undefined h) (resAgrees_advance h)) ?_
    split
    · exact .ite (resAgrees_of_dbg h (by simp)) (resAgrees_undefined h)
    · exact unknownReg_agrees sel h

/-! ### PSTATE and branches -/

theorem daifTrap_agrees (crm : BitVec 4) (op2 : BitVec 3) (h : HaltedAgrees s) : TrapAgrees (daifTrap crm op2 s) :=
  .ite (trapAgrees_raise _ h) trapAgrees_none

theorem daifAccess_agrees (crm : BitVec 4) (op2 : BitVec 3) (h : HaltedAgrees s) (hr : ResAgrees r) :
    ResAgrees (daifAccess crm op2 s r) :=
  resAgrees_notHalted (daifTrap_agrees crm op2 h) ((daifTrap_agrees crm op2 h).getD hr) s

theorem resAgrees_branchTo (target : Word) (b : BitVec 2) (h : HaltedAgrees s) :
    ResAgrees (.next (branchTo target b s)) := resAgrees_next h

/-- A branch to an authenticated address. -/
theorem authBranch_agrees {k : PacKey} {ptr m : Word} {cont : Word → Result} (h : HaltedAgrees s)
    (hcont : ∀ a, ResAgrees (cont a)) :
    ResAgrees (needsPAuth s (notHalted (pacTrap k s) s (authCombined k ptr m s id cont))) :=
  needsPAuth_agrees h (resAgrees_notHalted (pacTrap_agrees k h) (authCombined_agrees (onFail := id) h h hcont) s)

theorem branchAuth_agrees (k : PacKey) (rn : BitVec 5) (m : Word) (h : HaltedAgrees s) :
    ResAgrees (branchAuth k rn m s) := authBranch_agrees h fun _ => resAgrees_branchTo _ _ h

theorem linkAuth_agrees (k : PacKey) (rn : BitVec 5) (m : Word) (h : HaltedAgrees s) :
    ResAgrees (linkAuth k rn m s) := authBranch_agrees h fun _ => resAgrees_branchTo _ _ (agrees_writeX _ _ h)

theorem returnAuth_agrees (k : PacKey) (h : HaltedAgrees s) : ResAgrees (returnAuth k s) :=
  authBranch_agrees h fun _ => resAgrees_branchTo _ _ h

theorem branchIf_agrees (c : Bool) (imm : BitVec 19) (h : HaltedAgrees s) : ResAgrees (branchIf c imm s) := by
  refine resAgrees_running ?_ s
  split
  · exact resAgrees_branchTo _ _ h
  · exact resAgrees_advance h

/-! ### Exceptions and returns -/

theorem execHvc_agrees (imm16 : BitVec 16) (h : HaltedAgrees s) : ResAgrees (execHvc imm16 s) :=
  .ite (resAgrees_undefined h) (resAgrees_raise _ h)

theorem execSmc_agrees (imm16 : BitVec 16) (h : HaltedAgrees s) : ResAgrees (execSmc imm16 s) :=
  .ite (resAgrees_undefined h) (resAgrees_raise _ h)

theorem execHlt_agrees (imm16 : BitVec 16) (h : HaltedAgrees s) : ResAgrees (execHlt imm16 s) :=
  .ite (resAgrees_next (agrees_halt (by decide) ..)) (resAgrees_undefined h)

theorem agrees_exceptionReturn (target v : Word) (h : HaltedAgrees s) : HaltedAgrees (exceptionReturn target v s) := by
  refine agrees_of_dbg h ?_
  simp only [exceptionReturn, brbEntered_dbg]
  split <;> rfl

theorem returnTo_agrees (target : Word) (h : HaltedAgrees s) : ResAgrees (returnTo target s) :=
  takeUnmaskedSError_agrees h (resAgrees_next (agrees_exceptionReturn _ _ h))

theorem eretTrap_agrees (iss : BitVec 25) (h : HaltedAgrees s) : TrapAgrees (eretTrap iss s) :=
  .ite (trapAgrees_raise _ h) trapAgrees_none

theorem eretGate_agrees {auth : Option Result} (iss : BitVec 25) (h : HaltedAgrees s) (ha : TrapAgrees auth)
    (hr : ResAgrees r) : ResAgrees (eretGate iss auth s r) :=
  resAgrees_notHalted ((eretTrap_agrees iss h).orElse ha)
    (.ite (resAgrees_undefined h) ((eretTrap_agrees iss h).getD hr)) s

theorem execEret_agrees (h : HaltedAgrees s) : ResAgrees (execEret s) :=
  eretGate_agrees 0 h trapAgrees_none (returnTo_agrees _ h)

theorem eretAuth_agrees (iss : BitVec 25) (k : PacKey) (h : HaltedAgrees s) :
    ResAgrees (needsPAuth s (eretGate iss (pacTrap k s) s (returnAuthenticated k s))) := by
  have hreturn : ResAgrees (returnAuthenticated k s) :=
    authCombined_agrees h h fun t =>
      .ite (takeUnmaskedSError_agrees h (resAgrees_next (agrees_exceptionReturn t (sreg s (spsrReg s.ps.el)) h)))
        (returnTo_agrees t h)
  exact needsPAuth_agrees h (eretGate_agrees iss h (pacTrap_agrees k h) hreturn)

theorem execDrps_agrees (h : HaltedAgrees s) : ResAgrees (execDrps s) := by
  have hsame : (if drpsSynchronises s then synchronizeErrors s else s) = s := ite_self s
  have hsynchronised : HaltedAgrees (syncContext s) := h
  unfold execDrps
  rw [hsame]
  exact .ite (resAgrees_undefined h)
    (resAgrees_next (agrees_updateEDSCRFields (agrees_of_dbg hsynchronised rfl)))

/-! ### Waits -/

theorem agrees_beginWait (w : Wait) (h : HaltedAgrees s) : HaltedAgrees (beginWait w s) := agrees_ite h h

theorem waitException_agrees (narrow event : Bool) (ti : BitVec 2) (reg : Option (BitVec 5)) (h : HaltedAgrees s) :
    TrapAgrees (waitException narrow event ti reg s) := by
  unfold waitException
  refine .ite (trapAgrees_raise _ h) ?_
  split
  · exact trapAgrees_some (.ite (resAgrees_raise _ h) (resAgrees_raise _ h))
  · exact trapAgrees_raise _ h
  · exact trapAgrees_none

theorem waitOrTrap_agrees {narrow event : Bool} {ti : BitVec 2} {reg : Option (BitVec 5)} (h : HaltedAgrees s)
    (hr : ResAgrees r) : ResAgrees (waitOrTrap narrow event ti reg s r) := (waitException_agrees _ _ _ _ h).getD hr

theorem wfeEffect_agrees (narrow : Bool) (h : HaltedAgrees s) : ResAgrees (wfeEffect narrow s) :=
  .ite (resAgrees_advanceOf narrow (agrees_of_dbg h rfl))
    (waitOrTrap_agrees h (resAgrees_advanceOf narrow (agrees_beginWait _ h)))

/-- A Warm reset that was requested may be taken: whatever was there before, it leaves HALTED as STATUS says. -/
theorem requestedReset_agrees (ro : SysReg → Bool) (all : List SysReg) (s : State) :
    ResAgrees (requestedReset ro all s) := .ite (resAgrees_next (agrees_takeWarmReset ..)) (resAgrees_refused _)

theorem suspend_agrees (narrow : Bool) (h : HaltedAgrees s) : ResAgrees (suspend narrow s) :=
  .ite (requestedReset_agrees ..) (resAgrees_advanceOf narrow (agrees_beginWait _ h))

theorem wfiEffect_agrees (narrow : Bool) (h : HaltedAgrees s) : ResAgrees (wfiEffect narrow s) :=
  .ite (resAgrees_advanceOf narrow h) (waitOrTrap_agrees h (suspend_agrees narrow h))

theorem execWfet_agrees (rd : BitVec 5) (h : HaltedAgrees s) : ResAgrees (execWfet rd s) :=
  .ite (resAgrees_undefined h) (.ite (resAgrees_advance (agrees_of_dbg h rfl))
    (.ite (resAgrees_advance h) (waitOrTrap_agrees h (resAgrees_advance (agrees_beginWait _ h)))))

theorem execWfit_agrees (rd : BitVec 5) (h : HaltedAgrees s) : ResAgrees (execWfit rd s) :=
  .ite (resAgrees_undefined h) (.ite (resAgrees_advance h)
    (waitOrTrap_agrees h (resAgrees_advance (agrees_beginWait _ h))))

/-! ### A32 -/

theorem ifCondOf_agrees (narrow : Bool) (cond : BitVec 4) (h : HaltedAgrees s) (hr : ResAgrees r) :
    ResAgrees (ifCondOf narrow cond s r) := .ite hr (resAgrees_advanceOf narrow h)

theorem ifCond_agrees (cond : BitVec 4) (h : HaltedAgrees s) (hr : ResAgrees r) : ResAgrees (ifCond cond s r) :=
  ifCondOf_agrees false cond h hr

@[simp] theorem writeR_dbg (n : BitVec 4) (v : Half) (s : State) : (writeR n v s).dbg = s.dbg := by
  unfold writeR
  split <;> simp

theorem a32SimdGate_agrees (h : HaltedAgrees s) (hr : ResAgrees r) : ResAgrees (a32SimdGate s r) :=
  .ite (vecGate_agrees _ h hr) (.ite (resAgrees_undefined h) (.ite (resAgrees_raise _ h) hr))

theorem vmovl_agrees (w d : BitVec 1) (imm3H : BitVec 3) (vd : BitVec 4) (m : BitVec 1) (vm : BitVec 4)
    (h : HaltedAgrees s) : ResAgrees (vmovl w d imm3H vd m vm s) :=
  .ite (resAgrees_undefined h) (a32SimdGate_agrees h (resAgrees_advance (agrees_of_dbg h rfl)))

theorem a32Move_agrees {trap : Option Result} (ht : TrapAgrees trap) (rs : List (BitVec 4)) (hr : ResAgrees r)
    (s : State) : ResAgrees (a32Move trap rs s r) := .ite (resAgrees_unpredictable ht _ s) (ht.getD hr)

theorem mrcOf_agrees {trap : Option Result} (ht : TrapAgrees trap) (rt : BitVec 4) (v : Half) (h : HaltedAgrees s) :
    ResAgrees (mrcOf trap rt v s) := by
  have hmove : ResAgrees (mrcTo rt v s) := .ite (resAgrees_of_dbg h (by simp)) (resAgrees_of_dbg h (by simp))
  exact .ite (resAgrees_unpredictable ht _ s) (ht.getD hmove)

theorem execMcrPar_agrees (cond rt : BitVec 4) (h : HaltedAgrees s) : ResAgrees (execMcrPar cond rt s) := by
  have htrap : TrapAgrees (parTrap cond rt s) := .ite (trapAgrees_raise _ h) trapAgrees_none
  have hmove (v : Half) : ResAgrees (mcrPar v s) := by
    unfold mcrPar
    dsimp only
    split
    · exact resAgrees_undefined h
    · exact resAgrees_advance (agrees_ite h h)
    · exact resAgrees_advance (agrees_ite h h)
  exact ifCond_agrees cond h (a32Move_agrees htrap _ (hmove _) s)

end

end Sys2Proof.Proofs
end

