-- ==== Sys2Proof/Proofs/HaltedMemory.lean ====
section
/-! HALTED agrees after an instruction on granules, caches, TLBs, 64 bytes at once, or with an exclusive access. -/

namespace Sys2Proof.Proofs

open Sys2Proof.Machine Sys2Proof.Safety Sys2Proof.Laws

section
variable {s t u : State} {r : Result}

/-! ### Granules -/

theorem locateGranule_agrees (d : AccDesc) (dev : OnDevice) (va : Word) (h : HaltedAgrees s) :
    LocAgrees (locateGranule d dev va s) := locateBy_agrees _ _ _ _ h

theorem granuleFaults_agrees {d : AccDesc} {dev : OnDevice} {n : Nat} {va : Word} {f : AbortKind × Word × State}
    (h : HaltedAgrees s) (hf : f ∈ granuleFaults d dev n va s) : HaltedAgrees f.2.2 := by
  induction n generalizing va with
  | zero => cases hf
  | succ n ih =>
    have hlocate := locateGranule_agrees d dev va h
    rw [granuleFaults] at hf
    split at hf
    next => exact ih hf
    next hloc =>
      rw [hloc] at hlocate
      rcases List.mem_cons.mp hf with rfl | hmem
      · exact hlocate
      · exact ih hmem

theorem locateGranules_agrees (d : AccDesc) (dev : OnDevice) (n : Nat) (va : Word) (h : HaltedAgrees s) :
    LocAgrees (locateGranules d dev n va s) := by
  have hlocate := locateSeq_agrees (fun a _ hv => locateGranule_agrees d dev a hv) 16 0 true n va h
  unfold locateGranules
  split
  case h_1 hloc => rwa [hloc] at hlocate
  case h_2 hloc => rwa [hloc] at hlocate
  case h_3 hloc =>
    rw [hloc] at hlocate
    dsimp only
    split
    next hget => exact granuleFaults_agrees h (List.mem_of_getElem? hget)
    next => exact hlocate

@[simp] theorem storeTag_dbg (x : Xlat) (v : BitVec 4) (s : State) : (storeTag x v s).dbg = s.dbg := by
  unfold storeTag
  split <;> rfl

@[simp] theorem storeTags_dbg (v : BitVec 4) (xs : List Xlat) (s : State) : (storeTags v xs s).dbg = s.dbg := by
  induction xs generalizing s with
  | nil => rfl
  | cons x xs ih => exact (ih _).trans (storeTag_dbg x v s)

@[simp] theorem storeTagList_dbg (v : Word) (i : Nat) (xs : List Xlat) (s : State) :
    (storeTagList v i xs s).dbg = s.dbg := by
  induction xs generalizing i s with
  | nil => rfl
  | cons x xs ih => exact (ih _ _).trans (storeTag_dbg x _ s)

@[simp] theorem spoilTags_dbg (xs : List Xlat) (k : Nat) (s : State) : (spoilTags xs k s).dbg = s.dbg := by
  induction xs generalizing k s with
  | nil => rfl
  | cons x xs ih =>
    rw [spoilTags, ih]
    split
    · exact storeTag_dbg x _ s
    · rfl

theorem agrees_zeroGranules (xs : List Xlat) (h : HaltedAgrees s) : HaltedAgrees (zeroGranules xs s) := by
  induction xs generalizing s with
  | nil => exact h
  | cons x xs ih => exact ih (agrees_writeLocs _ _ h)

theorem agrees_storeTags (v : BitVec 4) (xs : List Xlat) (h : HaltedAgrees s) : HaltedAgrees (storeTags v xs s) :=
  agrees_of_dbg h (by simp)

theorem agrees_storeTagList (v : Word) (i : Nat) (xs : List Xlat) (h : HaltedAgrees s) :
    HaltedAgrees (storeTagList v i xs s) := agrees_of_dbg h (by simp)

theorem agrees_zeroAndTag (v : BitVec 4) (xs : List Xlat) (h : HaltedAgrees s) : HaltedAgrees (zeroAndTag v xs s) :=
  agrees_storeTags v xs (agrees_zeroGranules xs h)

theorem agrees_partialGranules {f : List Xlat → State → State} (hf : ∀ xs v, HaltedAgrees v → HaltedAgrees (f xs v))
    (data tags : Bool) (xs ts : List Xlat) (h : HaltedAgrees s) : HaltedAgrees (partialGranules f data tags xs ts s) := by
  have hdata : HaltedAgrees
      (if data then spoilLocs (ts.flatMap fun x => (List.range 16).map x.plus) 0 (f xs s) else f xs s) :=
    agrees_ite (agrees_spoilLocs _ _ (hf xs _ h)) (hf xs _ h)
  unfold partialGranules
  exact agrees_ite (agrees_ite (agrees_of_dbg hdata (spoilTags_dbg ..)) hdata) h

/-! ### Allocation Tags -/

theorem stg_agrees (rn rt : BitVec 5) (addr : Word → Word) (writeback : Option (Word → Word)) (h : HaltedAgrees s) :
    ResAgrees (stg rn rt addr writeback s) := by
  refine .ite (resAgrees_undefined h) ((baseReg_agrees rn h).andThen fun base s1 h1 => .ite (abortStep_agrees _ _ _ h1) ?_)
  refine (toAcc_agrees _ (locateGranule_agrees _ _ _ h1)).andThen fun x s2 h2 => ?_
  cases writeback with
  | none => exact resAgrees_of_dbg h2 (by simp)
  | some f => exact resAgrees_of_dbg h2 (by simp)

theorem tagMultiple_agrees {d : AccDesc} {dev : OnDevice} {rn : BitVec 5}
    {part : Word → List Xlat → List Xlat → State → State} {far : AbortKind → Word → Word → State → Word}
    {k : Word → List Xlat → State → Result} (h : HaltedAgrees s)
    (hpart : ∀ b xs ts v, HaltedAgrees v → HaltedAgrees (part b xs ts v))
    (hk : ∀ b xs v, HaltedAgrees v → ResAgrees (k b xs v)) : ResAgrees (tagMultiple d dev rn s part far k) := by
  refine .ite (resAgrees_undefined h) ((baseReg_agrees rn h).andThen fun base s1 h1 => ?_)
  have hlocate := locateGranules_agrees d dev (tagBlock s / 16) (alignDown base (tagBlock s)) h1
  split
  case h_1 hloc =>
    rw [hloc] at hlocate
    exact hk _ _ _ hlocate
  case h_2 hloc =>
    rw [hloc] at hlocate
    exact abortStep_agrees _ _ _ (hpart _ _ _ _ hlocate)

theorem execStzgm_agrees (rn rt : BitVec 5) (h : HaltedAgrees s) : ResAgrees (execStzgm rn rt s) :=
  tagMultiple_agrees h (fun _ _ _ _ hv => agrees_partialGranules (fun xs _ => agrees_zeroAndTag _ xs) _ _ _ _ hv)
    fun _ xs _ hv => resAgrees_advance (agrees_zeroAndTag _ xs hv)

theorem execStgm_agrees (rn rt : BitVec 5) (h : HaltedAgrees s) : ResAgrees (execStgm rn rt s) :=
  tagMultiple_agrees h (fun _ _ _ _ hv => agrees_partialGranules (fun xs _ => agrees_storeTagList _ _ xs) _ _ _ _ hv)
    fun _ xs _ hv => resAgrees_advance (agrees_storeTagList _ _ xs hv)

theorem execLdgm_agrees (rn rt : BitVec 5) (h : HaltedAgrees s) : ResAgrees (execLdgm rn rt s) :=
  tagMultiple_agrees h (fun _ _ _ _ hv => agrees_ite hv (agrees_spoilReg rt rn hv))
    fun _ _ _ hv => resAgrees_advance (agrees_writeX rt _ hv)

/-! ### Blocks and caches by address -/

theorem dczException_agrees (op2 : BitVec 3) (rt : BitVec 5) (h : HaltedAgrees s) : TrapAgrees (dczException op2 rt s) :=
  .ite (trapAgrees_raise _ h) trapAgrees_none

theorem dczTrap_agrees (op2 : BitVec 3) (rt : BitVec 5) (h : HaltedAgrees s) (hr : ResAgrees r) :
    ResAgrees (dczTrap op2 rt s r) := (dczException_agrees op2 rt h).getD hr

theorem withBlock_agrees {d : AccDesc} {dev : OnDevice} {va : Word} {f : List Xlat → State → State} {tags : Bool}
    (hf : ∀ xs v, HaltedAgrees v → HaltedAgrees (f xs v)) (h : HaltedAgrees s) :
    ResAgrees (withBlock d dev va f tags s fun _ v => .next (advance v)) := by
  have hlocate := locateGranules_agrees d dev (dcBlock s / 16) (alignDown va (dcBlock s)) h
  unfold withBlock
  dsimp only
  split
  case h_1 hloc =>
    rw [hloc] at hlocate
    exact resAgrees_advance (hf _ _ hlocate)
  case h_2 hloc =>
    rw [hloc] at hlocate
    exact abortStep_agrees _ _ _ (agrees_partialGranules hf _ _ _ _ hlocate)

theorem execDcZva_agrees (rt : BitVec 5) (h : HaltedAgrees s) : ResAgrees (execDcZva rt s) :=
  dczTrap_agrees 1 rt h (withBlock_agrees (fun xs _ => agrees_zeroGranules xs) h)

theorem execDcGva_agrees (rt : BitVec 5) (h : HaltedAgrees s) : ResAgrees (execDcGva rt s) :=
  .ite (resAgrees_undefined h) (dczTrap_agrees 3 rt h (withBlock_agrees (fun xs _ => agrees_storeTags _ xs) h))

theorem execDcGzva_agrees (rt : BitVec 5) (h : HaltedAgrees s) : ResAgrees (execDcGzva rt s) :=
  .ite (resAgrees_undefined h) (dczTrap_agrees 4 rt h (withBlock_agrees (fun xs _ => agrees_zeroAndTag _ xs) h))

theorem cacheByVa_agrees (cmow : Bool) (va : Word) {k : Xlat → State → State}
    (hk : ∀ x v, HaltedAgrees v → HaltedAgrees (k x v)) (h : HaltedAgrees s) : ResAgrees (cacheByVa cmow va s k) := by
  have htranslate := translate_agrees (cacheDesc cmow) va h
  unfold cacheByVa
  split
  case h_1 hloc =>
    rw [hloc] at htranslate
    exact resAgrees_advance (agrees_ite htranslate (hk _ _ htranslate))
  case h_2 hloc =>
    rw [hloc] at htranslate
    exact .ite (abortStep_agrees _ _ _ htranslate) (resAgrees_advance htranslate)

theorem tagVa_agrees (rt : BitVec 5) {k : Xlat → State → State} (hk : ∀ x v, HaltedAgrees v → HaltedAgrees (k x v))
    (h : HaltedAgrees s) : ResAgrees (if has .MTE s then cacheByVa true (readX rt s) s k else undefined s) :=
  .ite (cacheByVa_agrees _ _ hk h) (resAgrees_undefined h)

/-! ### TLBs, predictions and address translation -/

/-- A TLBI that may be UNDEFINED, and may be a NOP. -/
theorem tlbi_agrees {c : Prop} [Decidable c] {p : TLBEntry → Bool} (h : HaltedAgrees s) :
    ResAgrees (if c then undefined s else if tlbiReserved s then .next (advance s)
      else .next (advance (tlbInvalidate p s))) :=
  .ite (resAgrees_undefined h) (.ite (resAgrees_advance h) (resAgrees_of_dbg h (by simp)))

theorem predRestrict_agrees (kind : PredKind) (v : Word) (h : HaltedAgrees s) : ResAgrees (predRestrict kind v s) :=
  resAgrees_advance (agrees_ite h h)

theorem addressTranslate_agrees (op : AtOp) (va : Word) (h : HaltedAgrees s) : ResAgrees (addressTranslate op va s) := by
  have hpar (v : Word) (t : State) : ResAgrees (.next (advance (setReg .PAR_EL1 v (atMemory t s)))) :=
    resAgrees_advance (agrees_of_dbg h rfl)
  have hmemory (t : State) : HaltedAgrees (atMemory t s) := h
  unfold addressTranslate
  split
  · exact hpar ..
  · exact .ite (abortStep_agrees _ _ _ (hmemory _)) (hpar ..)

theorem execSys_agrees (op1 : BitVec 3) (crn crm : BitVec 4) (op2 : BitVec 3) (rt : BitVec 5) (h : HaltedAgrees s) :
    ResAgrees (execSys op1 crn crm op2 rt s) := by
  unfold execSys
  split
  · exact .ite (resAgrees_undefined h) (resAgrees_refused _)
  next o _ =>
    refine .ite (resAgrees_undefined h) ?_
    match o with
    | .cleanVa => exact cacheByVa_agrees _ _ (fun _ _ hv => hv) h
    | .invalidateVa | .tagVa => exact cacheByVa_agrees _ _ (fun _ _ hv => hv) h
    | .icAll => exact resAgrees_advance (agrees_of_dbg h rfl)
    | .setWay => exact resAgrees_advance h
    | .at op => exact addressTranslate_agrees op _ h
    | .tlbi => exact resAgrees_advance (agrees_ite h h)
    | .tlbiRange op el => exact resAgrees_advance (agrees_ite h h)
    | .gptRange anyLevel => exact resAgrees_advance (agrees_of_dbg h rfl)
    | .gptAll => exact resAgrees_advance (agrees_of_dbg h rfl)

theorem execSysl_agrees (op1 : BitVec 3) (crn crm : BitVec 4) (op2 : BitVec 3) (rt : BitVec 5) (h : HaltedAgrees s) :
    ResAgrees (execSysl op1 crn crm op2 rt s) := .ite (resAgrees_undefined h) (resAgrees_of_dbg h (by simp))

/-! ### 64 bytes at once -/

theorem ls64Exception_agrees (k : Ls64) (h : HaltedAgrees s) : TrapAgrees (ls64Exception k s) := by
  unfold ls64Exception
  cases ls64Trap k s with
  | none => exact trapAgrees_none
  | some t => exact trapAgrees_raise _ h

theorem ls64Gate_agrees (k : Ls64) (rt : BitVec 5) (h : HaltedAgrees s) (hr : ResAgrees r) :
    ResAgrees (ls64Gate k rt s r) := .ite (resAgrees_undefined h) ((ls64Exception_agrees k h).getD hr)

theorem ls64Locate_agrees (d : AccDesc) (va : Word) (h : HaltedAgrees s) : LocAgrees (ls64Locate d va s) :=
  .ite h ((locateBy_agrees _ _ _ _ h).bind fun _ _ hv => hv)

@[simp] theorem writeEight_dbg (rt : BitVec 5) (bs : List Byte) (big : Bool) (s : State) :
    (writeEight rt bs big s).dbg = s.dbg := by
  unfold writeEight
  induction List.range 8 generalizing s with
  | nil => rfl
  | cons n l ih => exact (ih _).trans (writeX_dbg ..)

theorem execLd64b_agrees (rn rt : BitVec 5) (h : HaltedAgrees s) : ResAgrees (execLd64b rn rt s) :=
  ls64Gate_agrees _ rt h ((baseReg_agrees rn h).andThen fun _ _ h1 =>
    (toAcc_agrees _ (ls64Locate_agrees _ _ h1)).andThen fun xs _ h2 =>
      resAgrees_of_dbg (agrees_readLocs xs 0 h2) (by simp))

theorem storeEight_agrees {vs : List Word} {rn : BitVec 5} {k : List Xlat → State → State → Result} (h : HaltedAgrees s)
    (hk : ∀ xs v w, HaltedAgrees v → HaltedAgrees w → ResAgrees (k xs v w)) : ResAgrees (storeEight vs rn s k) :=
  (baseReg_agrees rn h).andThen fun _ _ h1 =>
    (toAcc_agrees _ (ls64Locate_agrees _ _ h1)).andThen fun xs s2 h2 => hk xs s2 _ h2 (agrees_writeLocs xs _ h2)

theorem execSt64b_agrees (rn rt : BitVec 5) (h : HaltedAgrees s) : ResAgrees (execSt64b rn rt s) :=
  ls64Gate_agrees _ rt h (storeEight_agrees h fun _ _ _ _ hw => resAgrees_advance hw)

theorem storeStatus_agrees (vs : List Word) (rs rn : BitVec 5) (h : HaltedAgrees s) :
    ResAgrees (storeStatus vs rs rn s) :=
  storeEight_agrees h fun _ _ _ hv hw => resAgrees_advance (agrees_writeX _ _ (agrees_ite hw hv))

/-! ### Exclusive accesses -/

theorem loadExclusive_agrees (rn rt : BitVec 5) (h : HaltedAgrees s) : ResAgrees (loadExclusive rn rt s) :=
  (baseReg_agrees rn h).andThen fun va _ h1 =>
    (toAcc_agrees _ (locateNth_agrees _ 8 0 va h1)).andThen fun xs _ h2 => by
      have hread := agrees_readLocs xs 0 h2
      cases xs with
      | nil => exact resAgrees_of_dbg hread (by simp)
      | cons x xs => exact resAgrees_of_dbg hread (by simp)

theorem watched_agrees {α : Type} {m : Loc α} (d : AccDesc) (n : Nat) (va : Word) (h : LocAgrees m) :
    LocAgrees (m.watched d n va) := by
  cases m with
  | ok a v => exact h
  | fault k va' v =>
    unfold Loc.watched
    dsimp only
    split
    · split <;> exact h
    · exact h

theorem exclusiveLocate_agrees (n : Nat) (rn : BitVec 5) (va : Word) (h : HaltedAgrees s) :
    AccAgrees (exclusiveLocate n rn va s) :=
  toAcc_agrees _ (.ite (m := .fault .alignment va s) h (watched_agrees _ _ _ (lookupWith_agrees _ _ _ h)))

theorem storeExclusive_agrees {w : Nat} (n : Nat) (data : BitVec w) (clash : Bool) (rs rn : BitVec 5)
    (h : HaltedAgrees s) : ResAgrees (storeExclusive n data clash rs rn s) :=
  .ite (resAgrees_unpredictable (baseException_agrees rn h) _ s) ((baseReg_agrees rn h).andThen fun va _ h1 =>
    (exclusiveLocate_agrees n rn va h1).andThen fun _ _ h2 =>
      .ite
        (AccAgrees.andThen (toAcc_agrees _ (locateBy_agrees _ _ _ _ h2)) fun _ _ h3 =>
          resAgrees_advance (agrees_writeX _ _ (agrees_of_dbg (agrees_writeLocs _ _ h3) rfl)))
        (resAgrees_of_dbg h2 (by simp)))

end

end Sys2Proof.Proofs
end

