-- ==== Sys2Proof/Proofs/HaltedInstructions.lean ====
section
/-! HALTED agrees after any instruction, and after any of the controls that trap it. -/

namespace Sys2Proof.Proofs

open Sys2Proof.Machine Sys2Proof.Safety Sys2Proof.Laws

section
variable {s t u : State} {r : Result}

/-! ### The classes without a row of their own -/

theorem atomicEffect_agrees (op : AtomicOp) (size : BitVec 2) (rs rn rt : BitVec 5) (h : HaltedAgrees s) :
    ResAgrees (atomicEffect op size rs rn rt s) :=
  (baseReg_agrees rn h).andThen fun va _ h1 =>
    (toAcc_agrees _ (locateNth_agrees _ _ 0 va h1)).andThen fun xs s2 h2 => by
      have hread := agrees_readLocs xs 0 h2
      have hstore {c : Prop} [Decidable c] (bs : List Byte) :
          HaltedAgrees (if c then writeLocs xs bs (readLocs xs 0 s2).2 else (readLocs xs 0 s2).2) :=
        agrees_ite (agrees_writeLocs xs bs hread) hread
      exact resAgrees_advance (agrees_writeX _ _ (agrees_ite (agrees_of_dbg (hstore _) (countEvent_dbg ..)) (hstore _)))

theorem ldgEffect_agrees (imm9 : BitVec 9) (rn rt : BitVec 5) (h : HaltedAgrees s) :
    ResAgrees (ldgEffect imm9 rn rt s) :=
  (baseReg_agrees rn h).andThen fun _ _ h1 =>
    (toAcc_agrees _ (locateGranule_agrees _ _ _ h1)).andThen fun _ _ h2 => resAgrees_advance (agrees_writeX _ _ h2)

@[simp] theorem writePair_dbg (rt rt2 : BitVec 4) (v : Word) (s : State) : (writePair rt rt2 v s).dbg = s.dbg := by
  simp [writePair]

@[simp] theorem countOnce_dbg (event : BitVec 16) (key : SysReg × Nat) (s : State) :
    (countOnce event key s).dbg = s.dbg := by
  unfold countOnce
  split_ifs <;> simp

@[simp] theorem writeTtbr_dbg (one : Bool) (f : Word → Word) (s : State) : (writeTtbr one f s).dbg = s.dbg := by
  unfold writeTtbr
  dsimp only
  split <;> simp

theorem mcrrTtbr_agrees (one : Bool) (rt rt2 : BitVec 4) (h : HaltedAgrees s) : ResAgrees (mcrrTtbr one rt rt2 s) :=
  a32Move_agrees trapAgrees_none _ (.ite (resAgrees_undefined h) (resAgrees_of_dbg h (by simp))) s

theorem pmuA32Trap_agrees (q : SysReg) (write : Bool) (h : HaltedAgrees s) : TrapAgrees (pmuA32Trap q write s) := by
  unfold pmuA32Trap
  split
  · exact trapAgrees_raise _ h
  · exact trapAgrees_none

theorem mcrPmcr_agrees (rt : BitVec 4) (h : HaltedAgrees s) : ResAgrees (mcrPmcr rt s) :=
  a32Move_agrees (pmuA32Trap_agrees _ _ h) _
    (resAgrees_of_dbg h (by simp [writeA32Pmcr, writePmcr, pmcrResets_dbg])) s

theorem cntvctTrap_agrees (cond rt rt2 : BitVec 4) (h : HaltedAgrees s) : TrapAgrees (cntvctTrap cond rt rt2 s) :=
  .ite (trapAgrees_some (.ite (resAgrees_undefined h) (resAgrees_raise _ h)))
    (.ite (trapAgrees_raise _ h) trapAgrees_none)

theorem mrrcCntvct_agrees (cond rt rt2 : BitVec 4) (h : HaltedAgrees s) : ResAgrees (mrrcCntvct cond rt rt2 s) :=
  a32Move_agrees (cntvctTrap_agrees _ _ _ h) _ (resAgrees_of_dbg h (by simp)) s

theorem mrrcCntvoff_agrees (rt rt2 : BitVec 4) (h : HaltedAgrees s) : ResAgrees (mrrcCntvoff rt rt2 s) :=
  a32Move_agrees trapAgrees_none _ (.ite (resAgrees_undefined h) (resAgrees_of_dbg h (by simp))) s

theorem mcrrCntvoff_agrees (rt rt2 : BitVec 4) (h : HaltedAgrees s) : ResAgrees (mcrrCntvoff rt rt2 s) :=
  a32Move_agrees trapAgrees_none _ (.ite (resAgrees_undefined h) (resAgrees_of_dbg h (by simp))) s

theorem mrcIsr_agrees (rt : BitVec 4) (h : HaltedAgrees s) : ResAgrees (mrcIsr rt s) :=
  .ite (resAgrees_undefined h) (mrcOf_agrees trapAgrees_none rt _ h)

theorem a32NamedTrap_agrees (n : A32Name) (write : Bool) (h : HaltedAgrees s) : TrapAgrees (a32NamedTrap n write s) := by
  unfold a32NamedTrap
  split
  · exact .ite (trapAgrees_raise _ h) trapAgrees_none
  · exact pmuA32Trap_agrees _ _ h
  · exact trapAgrees_none

theorem mrcNamed_agrees (n : A32Name) (rt : BitVec 4) (h : HaltedAgrees s) : ResAgrees (mrcNamed n rt s) :=
  .ite (resAgrees_undefined h) (mrcOf_agrees (a32NamedTrap_agrees _ _ h) rt _ h)

theorem a32Written_dbg {n : A32Name} {v : Half} (hwritten : a32Written n v s = some t) : t.dbg = s.dbg := by
  cases n <;> cases hwritten <;> simp

theorem mcrNamed_agrees (n : A32Name) (rt : BitVec 4) (h : HaltedAgrees s) : ResAgrees (mcrNamed n rt s) := by
  refine .ite (resAgrees_undefined h) (a32Move_agrees (a32NamedTrap_agrees _ _ h) _ ?_ s)
  split
  next hwritten => exact resAgrees_of_dbg h ((advance_dbg _).trans (a32Written_dbg hwritten))
  next => exact resAgrees_undefined h

theorem a32FpGate_agrees (h : HaltedAgrees s) (hr : ResAgrees r) : ResAgrees (a32FpGate s r) :=
  .ite (vecGate_agrees _ h hr) (.ite (resAgrees_undefined h) hr)

theorem eretA32_agrees (h : HaltedAgrees s) : ResAgrees (eretA32 s) :=
  resAgrees_running (.ite (resAgrees_undefined h)
    (.ite (returnTo_agrees _ h) (.ite (returnTo_agrees _ h) (resAgrees_refused _)))) s

theorem sveAnyException_agrees (h : HaltedAgrees s) : TrapAgrees (sveAnyException s) :=
  .ite (trapAgrees_some (resAgrees_undefined h)) (vecException_agrees _ h)

theorem fpSizeException_agrees (size : BitVec 2) {o : Option Result} (h : HaltedAgrees s) (ho : TrapAgrees o) :
    TrapAgrees (fpSizeException size o s) := .ite (trapAgrees_some (resAgrees_undefined h)) ho

theorem extraException_agrees (e : ExtraInstr) (h : HaltedAgrees s) : TrapAgrees (extraException e s) := by
  have hundefined : TrapAgrees (some (undefined s)) := trapAgrees_some (resAgrees_undefined h)
  unfold extraException
  split
  case h_1 | h_3 => exact sveAnyException_agrees h
  case h_2 | h_4 | h_5 => exact sveException_agrees _ h
  case h_6 | h_7 => exact fpSizeException_agrees _ h (sveAnyException_agrees h)
  case h_8 => exact fpSizeException_agrees _ h (.ite (sveAnyException_agrees h) hundefined)
  case h_9 => exact .ite (vecException_agrees _ h) hundefined
  case h_10 => exact vecException_agrees _ h
  case h_18 => exact .ite trapAgrees_none hundefined
  case h_19 => exact trapAgrees_none
  all_goals exact fpSizeException_agrees _ h (vecException_agrees _ h)

/-- Each class by its kind: SVE memory accesses, instructions on elements, single registers, A32 moves. -/
theorem extraEffect_agrees (e : ExtraInstr) (h : HaltedAgrees s) : ResAgrees (extraEffect e s) := by
  cases e with
  | sveLoad kind _ _ _ _ _ _ _ =>
    cases kind with
    | regular => exact sveLoadRegular_agrees _ _ _ h
    | firstFault => exact sveLoadFirstFault_agrees _ _ _ h
    | nonFault => exact sveLoadNonFault_agrees _ _ _ h
  | sveStore => exact sveStoreEffect_agrees _ _ h
  | ld1ro => exact ld1roEffect_agrees _ _ h
  | permuteQ | fsign | scalarH | frinta => exact resAgrees_advance (agrees_of_dbg h rfl)
  | svePred | sveImm => exact resAgrees_of_dbg h ((advance_dbg _).trans (svePredElems_dbg ..))
  | svePair | across =>
    exact resAgrees_of_dbg h ((advance_dbg _).trans ((countReduction_dbg ..).trans (elemFlags_dbg ..)))
  | vector => exact resAgrees_of_dbg h ((advance_dbg _).trans (writeFpElems_dbg ..))
  | pairVector | pairScalar =>
    exact resAgrees_of_dbg h ((advance_dbg _).trans ((countReduction_dbg ..).trans (writeFpElems_dbg ..)))
  | sme => exact resAgrees_refused _
  | fcvta => exact resAgrees_advance (agrees_of_dbg (agrees_writeX _ _ h) rfl)
  | orrW => exact resAgrees_advance (agrees_writeX _ _ h)
  | atomic => exact atomicEffect_agrees _ _ _ _ _ h
  | prfm => exact resAgrees_advance h
  | ldg => exact ldgEffect_agrees _ _ _ h
  | rctxA32 => exact ifCond_agrees _ h (a32Move_agrees trapAgrees_none _ (predRestrict_agrees _ _ h) s)
  | mcrrTtbr => exact ifCond_agrees _ h (mcrrTtbr_agrees _ _ _ h)
  | mrrcCntvct => exact ifCond_agrees _ h (mrrcCntvct_agrees _ _ _ h)
  | mrrcCntvoff => exact ifCond_agrees _ h (mrrcCntvoff_agrees _ _ h)
  | mcrrCntvoff => exact ifCond_agrees _ h (mcrrCntvoff_agrees _ _ h)
  | mrcIsr => exact ifCond_agrees _ h (mrcIsr_agrees _ h)
  | mrcPmcr => exact ifCond_agrees _ h (mrcOf_agrees (pmuA32Trap_agrees _ _ h) _ _ h)
  | mcrPmcr => exact ifCond_agrees _ h (mcrPmcr_agrees _ h)
  | mrcNamed => exact ifCond_agrees _ h (mrcNamed_agrees _ _ h)
  | mcrNamed => exact ifCond_agrees _ h (mcrNamed_agrees _ _ h)
  | vcvtBf16 => exact ifCond_agrees _ h (a32FpGate_agrees h (resAgrees_advance (agrees_of_dbg h rfl)))
  | vcvtBf16Vec =>
    exact .ite (resAgrees_undefined h) (a32SimdGate_agrees h (resAgrees_advance (agrees_of_dbg h rfl)))
  | wfeA32 => exact ifCondOf_agrees _ _ h (wfeEffect_agrees _ h)
  | wfiA32 => exact ifCondOf_agrees _ _ h (wfiEffect_agrees _ h)
  | eretA32 => exact ifCond_agrees _ h (eretA32_agrees h)

theorem execExtra_agrees (e : ExtraInstr) (h : HaltedAgrees s) : ResAgrees (execExtra e s) :=
  (extraException_agrees e h).getD (extraEffect_agrees e h)

/-! ### The table -/

/-- The forms that name a System register are its read and its write. -/
theorem exec_of_sysAccessOf {i : Instr} {sel : BitVec 15} {rt : BitVec 5} {write : Bool}
    (hi : sysAccessOf i = some (sel, rt, write)) (s : State) :
    exec i s = if write then writeSys sel rt s else readSys sel rt s := by
  cases i <;> cases hi <;> rfl

theorem sysAccess_agrees {i : Instr} {sel : BitVec 15} {rt : BitVec 5} {write : Bool}
    (hi : sysAccessOf i = some (sel, rt, write)) (h : HaltedAgrees s) : ResAgrees (exec i s) :=
  exec_of_sysAccessOf hi s ▸ .ite (writeSys_agrees sel rt h) (readSys_agrees sel rt h)

/-- After any instruction that goes on HALTED agrees. -/
theorem exec_agrees (i : Instr) (h : HaltedAgrees s) : ResAgrees (exec i s) := by
  cases i with
  | nop | csdb | bti | btiC | btiJ | btiJC | sb | dmb | csdbA32 | csdbT32 | sbA32 | sbT32 => exact resAgrees_advance h
  | wfe => exact wfeEffect_agrees _ h
  | wfi => exact wfiEffect_agrees _ h
  | wfet => exact execWfet_agrees _ h
  | wfit => exact execWfit_agrees _ h
  | pacia1716 | pacib1716 | paciaz | paciasp | pacibz | pacibsp | pacia | pacib | pacda | pacdb | paciza | pacizb | pacdza
  | pacdzb => exact pacInsert_agrees _ _ _ _ h
  | autia1716 | autib1716 | autiaz | autiasp | autibz | autibsp | autia | autib | autda | autdb | autiza | autizb | autdza
  | autdzb => exact pacCheck_agrees _ _ _ _ h
  | pacga => exact execPacga_agrees _ _ _ h
  | isb | clrex => exact resAgrees_of_dbg h (advance_dbg _)
  | dsb | dsbNXS => exact resAgrees_advance (agrees_ite (agrees_of_dbg h rfl) (agrees_of_dbg h rfl))
  | msrDaifSetImm | msrDaifClrImm => exact daifAccess_agrees _ _ h (resAgrees_of_dbg h (advance_dbg _))
  | msrSsbsImm | msrDitImm => exact resAgrees_running (resAgrees_of_dbg h (by simp)) s
  | msrTcoImm => exact .ite (resAgrees_undefined h) (resAgrees_running (resAgrees_of_dbg h (by simp)) s)
  | msrSpselImm => exact resAgrees_running (.ite (resAgrees_undefined h) (resAgrees_of_dbg h (by simp))) s
  | mrs | mrsRndr | mrsRndrrs | mrsCntpctEl0 | mrsCntvctEl0 | mrsCntpctssEl0 | mrsCntvctssEl0 | mrsIdAa64smfr0El1
  | mrsCcsidrEl1 | mrsIsrEl1 | mrsNzcv | mrsDaif | mrsDit | mrsRmrEl1 | mrsRmrEl2 | mrsRmrEl3 | msr | msrNzcv | msrDaif
  | msrDit | msrRmrEl1 | msrRmrEl2 | msrRmrEl3 => exact sysAccess_agrees rfl h
  | sys => exact execSys_agrees _ _ _ _ _ h
  | sysl => exact execSysl_agrees _ _ _ _ _ h
  | dcZva => exact execDcZva_agrees _ h
  | dcGva => exact execDcGva_agrees _ h
  | dcGzva => exact execDcGzva_agrees _ h
  | dcCivac | icIvau => exact cacheByVa_agrees _ _ (fun _ _ hv => agrees_of_dbg hv rfl) h
  | dcCigvac | dcCigdvac => exact tagVa_agrees _ (fun _ _ hv => agrees_of_dbg hv rfl) h
  | dcCipae | dcCigdpae | tlbiRpaos => exact .ite (resAgrees_undefined h) (resAgrees_advance (agrees_of_dbg h rfl))
  | tlbiAlle1 | tlbiAlle1nxs | tlbiRvae1 | tlbiRvaae1 | tlbiRipas2e1 => exact tlbi_agrees h
  | cfpRctx | dvpRctx | cppRctx => exact predRestrict_agrees _ _ h
  | atS1e1r => exact .ite (resAgrees_undefined h) (addressTranslate_agrees _ _ h)
  | ret | b => exact resAgrees_running (resAgrees_branchTo _ _ h) s
  | retaa | retab => exact returnAuth_agrees _ h
  | braaz | brabz | braa | brab => exact branchAuth_agrees _ _ _ h
  | blraaz | blrabz | blraa | blrab => exact linkAuth_agrees _ _ _ h
  | cbzX | cbnzX | cbzW | cbnzW | bCond => exact branchIf_agrees _ _ h
  | eret => exact execEret_agrees h
  | eretaa | eretab => exact eretAuth_agrees _ _ h
  | drps => exact execDrps_agrees h
  | svc | brk => exact resAgrees_raise _ h
  | hvc => exact execHvc_agrees _ h
  | smc => exact execSmc_agrees _ h
  | hlt imm16 => exact execHlt_agrees imm16 h
  | stgOffset | stgPost | stgPre => simp only [exec, execStgOffset, execStgPost, execStgPre, stg_agrees _ _ _ _ h]
  | stzgm => exact execStzgm_agrees _ _ h
  | stgm => exact execStgm_agrees _ _ h
  | ldgm => exact execLdgm_agrees _ _ h
  | ldra => exact execLdra_agrees _ _ _ _ _ _ h
  | ld64b => exact execLd64b_agrees _ _ h
  | st64b => exact execSt64b_agrees _ _ h
  | st64bv | st64bv0 => exact ls64Gate_agrees _ _ h (storeStatus_agrees _ _ _ h)
  | ldxr | ldaxr => exact loadExclusive_agrees _ _ h
  | stxrb | stlxrb | stxrh | stlxrh | stxrW | stlxrW | stxrX | stlxrX | stxpW | stlxpW | stxpX | stlxpX =>
    exact storeExclusive_agrees _ _ _ _ _ h
  | movzX | orrX | movzW => exact resAgrees_advance (agrees_writeX _ _ h)
  | addX | subX | addW | subW => exact resAgrees_of_dbg h ((advance_dbg _).trans (writeXSP_dbg ..))
  | subsX | subsW => exact resAgrees_advance (agrees_of_dbg (agrees_writeX _ _ h) rfl)
  | strX => exact execStrX_agrees _ _ _ h
  | ldrX => exact execLdrX_agrees _ _ _ h
  | ldrXPre => exact execLdrXPre_agrees _ _ _ h
  | movprfx => exact execMovprfx_agrees _ _ h
  | movprfxPred => exact execMovprfxPred_agrees _ _ _ _ _ h
  | fmmlaS => exact execFmmlaS_agrees _ _ _ h
  | fmmlaD => exact execFmmlaD_agrees _ _ _ h
  | fmaxS | fmaxD | fminS | fminD | fmaxnmS | fmaxnmD | fminnmS | fminnmD => exact fpScalar_agrees _ _ _ _ _ h
  | vmovlA32 | vmovlT32 => exact vmovl_agrees _ _ _ _ _ _ h
  | mrcDbgdscrint => exact ifCond_agrees _ h (mrcOf_agrees trapAgrees_none _ _ h)
  | mcrPar => exact execMcrPar_agrees _ _ h

theorem execCode_agrees (c : Code) (h : HaltedAgrees s) : ResAgrees (execCode c s) := by
  cases c with
  | base i => exact exec_agrees i h
  | extra e => exact execExtra_agrees e h

/-! ### Controls -/

theorem sysControl_agrees (sel : BitVec 15) (rt : BitVec 5) (write : Bool) (h : HaltedAgrees s) :
    TrapAgrees (sysControl sel rt write s) := by
  unfold sysControl
  split
  · exact permissionTrap_agrees _ _ _ _ h
  · exact .ite (trapAgrees_some (sysTrap_agrees _ _ _ _ h)) trapAgrees_none

theorem ownControl_agrees (i : Instr) (h : HaltedAgrees s) : TrapAgrees (ownControl i s) := by
  have hwait {c : Prop} [Decidable c] {event : Bool} {ti : BitVec 2} {reg : Option (BitVec 5)} :
      TrapAgrees (if c then none else waitException false event ti reg s) :=
    .ite trapAgrees_none (waitException_agrees _ _ _ _ h)
  have hbase (k : Ls64) (rn : BitVec 5) : TrapAgrees ((ls64Exception k s).or (baseException rn s)) :=
    (ls64Exception_agrees k h).orElse (baseException_agrees rn h)
  cases i with
  | wfe | wfi | wfet | wfit => exact hwait
  | msrDaifSetImm | msrDaifClrImm => exact daifTrap_agrees _ _ h
  | dcZva => exact dczException_agrees _ _ h
  | dcGva | dcGzva => exact .ite (dczException_agrees _ _ h) trapAgrees_none
  | pacga => exact pacgaTrap_agrees h
  | eret => exact eretTrap_agrees 0 h
  | eretaa | eretab => exact (eretTrap_agrees _ h).orElse (pacTrap_agrees _ h)
  | ldra => exact (baseException_agrees _ h).orElse (pacTrap_agrees _ h)
  | ld64b | st64b | st64bv | st64bv0 => exact hbase ..
  | movprfx | movprfxPred => exact .ite (vecException_agrees _ h) trapAgrees_none
  | fmmlaS => exact sveException_agrees false h
  | fmmlaD => exact sveException_agrees true h
  | fmaxS | fmaxD | fminS | fminD | fmaxnmS | fmaxnmD | fminnmS | fminnmD => exact vecException_agrees [.fp] h
  | _ => exact trapAgrees_none

theorem controlException_agrees (c : Code) (h : HaltedAgrees s) : TrapAgrees (controlException c s) := by
  cases c with
  | base i =>
    exact (ownControl_agrees i h).orElse ((TrapAgrees.bind fun k => pacTrap_agrees k h).orElse
      ((TrapAgrees.bind fun _ => sysControl_agrees _ _ _ h).orElse (.bind fun rn => baseException_agrees rn h)))
  | extra e => exact extraException_agrees e h

theorem pairException_agrees (c : Code) (h : HaltedAgrees s) : TrapAgrees (pairException c s) := by
  unfold pairException
  split
  · exact sveException_agrees false h
  · exact sveException_agrees true h
  · exact trapAgrees_none
  · exact extraException_agrees _ h

end

end Sys2Proof.Proofs
end

