-- ==== Sys2Proof/Proofs/HaltedStep.lean ====
section
/-! HALTED agrees after every step, of the PE or of another agent. -/

namespace Sys2Proof.Proofs

open Sys2Proof.Machine Sys2Proof.Safety Sys2Proof.Laws

section
variable {s t u : State} {r : Result}

/-! ### After a MOVPRFX -/

theorem agrees_unitState (h : HaltedAgrees s) : HaltedAgrees (unitState s) := by
  unfold unitState
  split
  · exact agrees_ite h h
  · exact h

theorem withPrefix_agrees (c : Code) (h : HaltedAgrees s) :
    ResAgrees (withPrefix c (pairException c) (controlException c) s (execCode c)) := by
  have hpair : ResAgrees (runPair (pairException c) (execCode c) s) := by
    unfold runPair
    split
    next q he => exact (pairException_agrees c (agrees_unitState h)).taken q he
    next => exact execCode_agrees c (agrees_of_dbg h rfl)
  unfold withPrefix
  split
  · exact execCode_agrees c h
  · exact .ite hpair (resAgrees_unpredictable (controlException_agrees c h) _ s)

/-! ### Fetch -/

theorem debugException_agrees (ec : BitVec 6) (h : HaltedAgrees s) : ResAgrees (debugException ec s) :=
  resAgrees_raise _ h

theorem breakpointEvent_agrees (h : HaltedAgrees s) : TrapAgrees (breakpointEvent s) := by
  have hhalts : HaltedAgrees (halt 0b000111 (unitState s).pc (unitState s)) := agrees_halt (by decide) ..
  unfold breakpointEvent
  exact .ite (.ite (trapAgrees_some (resAgrees_next hhalts))
      (.ite (trapAgrees_some (debugException_agrees _ (agrees_unitState h))) trapAgrees_none))
    (.ite (trapAgrees_raise _ h) trapAgrees_none)

theorem decodeCode_agrees (isa : ISA) (bs : List Byte) (h : HaltedAgrees s) : AccAgrees (decodeCode isa bs s) := by
  unfold decodeCode
  split
  · exact h
  · exact resAgrees_undefined h
  · split
    · exact h
    · exact .ite (m := .stop _) (n := .stop _) (resAgrees_undefined h) (resAgrees_refused _)

theorem fetchUnit_agrees (n : Nat) (va : Word) (h : HaltedAgrees s) : LocAgrees (fetchUnit n va s) :=
  (locate_agrees _ _ _ _ h).bind fun _ _ hv => hv

theorem fetchLocs_agrees (h : HaltedAgrees s) : LocAgrees (fetchLocs s) :=
  .ite ((fetchUnit_agrees _ _ h).bind fun xs v hv =>
    .ite (m := .ok xs v) hv ((fetchUnit_agrees _ _ hv).bind fun _ _ hw => hw)) (fetchUnit_agrees _ _ h)

theorem fetchInstr_agrees (h : HaltedAgrees s) : AccAgrees (fetchInstr s) := by
  refine (toAcc_agrees _ (fetchLocs_agrees h)).bind fun xs u hu => ?_
  split
  next q he => exact (breakpointEvent_agrees hu).taken q he
  next =>
    exact .ite (m := .stop _) (resAgrees_refused _) ((decodeCode_agrees _ _ hu).bind fun _ _ hv => hv)

/-! ### The step of the PE -/

theorem endSoftStep_agrees (s : State) (hr : ResAgrees r) : ResAgrees (endSoftStep s r) := by
  cases r with
  | next t =>
    have ht := hr.next t rfl
    simp only [endSoftStep]
    split
    · exact resAgrees_of_dbg ht rfl
    · exact hr
  | _ => exact hr

theorem showDebugState_agrees (hr : ResAgrees r) : ResAgrees (showDebugState r) := by
  cases r with
  | next t => exact resAgrees_next (agrees_updateEDSCRFields (hr.next t rfl))
  | _ => exact hr

theorem stepInstr_agrees (h : HaltedAgrees s) : ResAgrees (stepInstr s) := by
  have hrun : ResAgrees ((fetchInstr s).andThen fun cg v => beforeInstr cg.1 cg.2 v fun w =>
      withPrefix cg.1 (pairException cg.1) (controlException cg.1) w (execCode cg.1)) :=
    (fetchInstr_agrees h).andThen fun cg _ hv => .ite (resAgrees_raise _ hv) (withPrefix_agrees cg.1 hv)
  exact endSoftStep_agrees s (.ite (debugException_agrees _ h)
    (.ite (resAgrees_raise _ h) (.ite (resAgrees_raise _ h) hrun)))

theorem mayReset_agrees {k : State → Result} (hk : ResAgrees (k s)) : ResAgrees (mayReset s k) :=
  .ite (requestedReset_agrees ..) hk

theorem stepRun_agrees (h : HaltedAgrees s) : ResAgrees (stepRun s) := by
  unfold stepRun beforeStep
  refine mayReset_agrees ?_
  dsimp only
  split
  · exact takeInterrupt_agrees _ (agrees_of_dbg h rfl)
  · split
    next w _ => exact resAgrees_of_dbg h (by rw [waitOn_eq])
    next => exact stepInstr_agrees h

theorem stepDebug_agrees (h : HaltedAgrees s) : ResAgrees (stepDebug s) := by
  refine mayReset_agrees ?_
  dsimp only
  split
  · exact resAgrees_next h
  next w rest _ =>
    have hitr : HaltedAgrees { s with dbg := { s.dbg with itr := rest } } := h
    split
    next c _ => exact showDebugState_agrees (withPrefix_agrees c hitr)
    next => exact .ite (showDebugState_agrees (resAgrees_undefined hitr)) (resAgrees_refused _)

theorem stepPe_agrees (h : HaltedAgrees s) : ResAgrees (stepPe s) := .ite (stepDebug_agrees h) (stepRun_agrees h)

/-! ### The steps of other agents -/

theorem agrees_requestHalt (h : HaltedAgrees s) : HaltedAgrees (requestHalt s) := agrees_ite (agrees_halt (by decide) ..) h

theorem agrees_restart (h : HaltedAgrees s) : HaltedAgrees (restart s) := agrees_ite (agrees_exitDebugState s) h

theorem agrees_answered (w : Option Word) (h : HaltedAgrees s) : HaltedAgrees (answered w s) := h

theorem agrees_afterAgentRead (q : FrameReg) (sp : Space) (h : HaltedAgrees s) :
    HaltedAgrees (afterAgentRead q sp s) := by
  unfold afterAgentRead
  split
  · exact agrees_ite (agrees_afterExtRead _ h) h
  · exact h

/-- Of EDPRSR the power domain changes SPD alone. -/
theorem agrees_setCorePower (on : Bool) (h : HaltedAgrees s) : HaltedAgrees (setCorePower on s) := by
  unfold setCorePower
  dsimp only
  split
  · exact agrees_of_status h rfl (getLsbD_setBit_other _ _ (by decide))
  · split <;> exact h

theorem agrees_setInterrupts (i : Interrupts) (h : HaltedAgrees s) : HaltedAgrees (setInterrupts i s) :=
  agrees_ite (agrees_updateEDSCRFields (agrees_of_dbg h rfl)) h

theorem agrees_observerWrite (key : Nat) (b : Byte) (h : HaltedAgrees s) : HaltedAgrees (observerWrite key b s) := by
  have hbyte : HaltedAgrees (observedByte key b s) := by
    unfold observedByte
    split
    · exact agrees_writeFrameByte _ _ _ _ h
    · exact h
  exact agrees_of_dbg hbyte rfl

theorem agrees_recordException (n : Fin 32) (src tgt inf : Word) (h : HaltedAgrees s) :
    HaltedAgrees (recordException n src tgt inf s) := by
  unfold recordException
  split <;> exact h

theorem agrees_bufferWrite (access : Access) (bs : List Byte) (ptr : Word) (h : HaltedAgrees s) :
    HaltedAgrees (bufferWrite access bs ptr s).2.2 := by
  induction bs generalizing ptr s with
  | nil => exact h
  | cons b bs ih =>
    have hlocate := locate_agrees (bufferDesc access) 1 ptr false h
    rw [bufferWrite]
    split
    next hloc =>
      rw [hloc] at hlocate
      exact ih _ (agrees_writeLoc _ _ hlocate)
    next hloc =>
      rw [hloc] at hlocate
      exact hlocate

theorem agrees_writeProfile (bytes : List Byte) (h : HaltedAgrees s) : HaltedAgrees (writeProfile bytes s) :=
  agrees_ite h (agrees_of_dbg (agrees_bufferWrite .profile bytes (ireg s .PMBPTR_EL1) h) rfl)

theorem agrees_profileSample (p : SpeSample) (h : HaltedAgrees s) : HaltedAgrees (profileSample p s) := by
  unfold profileSample
  split
  · split
    · exact agrees_writeProfile _ h
    · exact h
  · exact h

theorem agrees_writeTrace (bytes : List Byte) (h : HaltedAgrees s) : HaltedAgrees (writeTrace bytes s) :=
  agrees_ite h (agrees_of_dbg (agrees_bufferWrite .trace bytes (ireg s .TRBPTR_EL1) h) rfl)

theorem agrees_countEvent (e : BitVec 16) (h : HaltedAgrees s) : HaltedAgrees (countEvent e s) :=
  agrees_of_dbg h (by simp)

theorem agrees_countStall (slot available accepts : Bool) (h : HaltedAgrees s) :
    HaltedAgrees (countStall slot available accepts s) := by
  have hbackend {c : Prop} [Decidable c] (e : BitVec 16) : HaltedAgrees (if c then countEvent e s else s) :=
    agrees_ite (agrees_countEvent e h) h
  exact agrees_ite (hbackend _) (agrees_countEvent _ (hbackend _))

/-- After an event of another agent HALTED agrees: a halt and a restart set both fields, the rest leaves them. -/
theorem agrees_agentEffect (e : AgentEvent) (h : HaltedAgrees s) : HaltedAgrees (agentEffect e s) := by
  cases e with
  | pe | itr | debugInputs | debugEvents | wakeUp | inject | captureTimestamp | error => exact h
  | haltRequest => exact agrees_requestHalt h
  | restart => exact agrees_restart h
  | extRead => exact agrees_answered _ (agrees_afterExtRead _ h)
  | extWrite => exact agrees_answered _ (agrees_extWrite _ _ h)
  | frameRead => exact agrees_answered _ (agrees_afterAgentRead _ _ h)
  | frameWrite => exact agrees_answered _ (agrees_ite (agrees_writeFrameReg _ _ h) h)
  | corePower => exact agrees_setCorePower _ h
  | interrupts => exact agrees_setInterrupts _ h
  | observerWrite => exact agrees_observerWrite _ _ h
  | branch => exact agrees_ite h h
  | exception => exact agrees_recordException _ _ _ _ h
  | profile => exact agrees_profileSample _ h
  | trace => exact agrees_writeTrace _ h
  | l2dTlb => exact agrees_countEvent _ (agrees_countEvent _ h)
  | speculated => exact agrees_of_dbg h (countReduction_dbg ..)
  | speculatedSve | snoop => exact agrees_ite (agrees_countEvent _ h) h
  | stall => exact agrees_countStall _ _ _ h
  | microarchitectural => exact agrees_ite h (agrees_countEvent _ h)
  | otherPE => exact agrees_of_dbg h (countEventWhere_dbg ..)

/-! ### The whole step -/

theorem stepBody_agrees (h : HaltedAgrees s) : ResAgrees (stepBody s) := by
  unfold stepBody
  split
  · exact stepPe_agrees h
  · exact stepPe_agrees (agrees_of_dbg h rfl)
  · exact resAgrees_next (agrees_agentEffect _ (agrees_of_dbg h rfl))

end

/-- Settles O3: what ends a step keeps the agreement (`stepBody_agrees`), and the counters are none of the debug registers. -/
theorem stepKeepsHaltedAgrees : Obligations.StepKeepsHaltedAgrees := by
  unfold Obligations.StepKeepsHaltedAgrees
  intro s t h hstep
  obtain ⟨u, hbody, htop, hafter⟩ := step_next hstep
  obtain ⟨v, hnext, heq, -, -⟩ := afterStep_next htop
  obtain rfl : v = t := by
    rw [hnext] at hafter
    exact Host.Outcome.next.inj hafter
  exact agrees_of_dbg ((stepBody_agrees h).next u hbody) (by rw [heq])

end Sys2Proof.Proofs
end

