-- ==== Sys2Proof/Proofs/CanonicalStores.lean ====
section
/-! The canonical form of memory and tags through what writes them: bytes, tags, located bytes, descriptors, granules; and through
what leaves both alone. -/

namespace Sys2Proof.Proofs

open Sys2Proof.Machine Sys2Proof.Safety Sys2Proof.Laws

section
variable {s t u : State}

/-- Memory and tags are all that the canonical form is about. -/
theorem canonical_of_store (h : Canonical s) (hmem : t.mem = s.mem) (htags : t.tags = s.tags) : Canonical t := by
  rw [Canonical, hmem, htags]
  exact h

theorem canonical_ite {c : Prop} [Decidable c] (ht : Canonical t) (hu : Canonical u) : Canonical (if c then t else u) := by
  split
  · exact ht
  · exact hu

/-! ### Bytes and tags -/

theorem canonical_writeByte (k : Nat) (b : Byte) (h : Canonical s) : Canonical (writeByte k b s) :=
  ⟨writeByte_wf k b s h.1, h.2⟩

theorem canonical_writeTag (k : Nat) (g : BitVec 4) (h : Canonical s) : Canonical (writeTag k g s) :=
  ⟨h.1, writeTag_wf k g s h.2⟩

theorem canonical_updateDescriptors (us : List DescUpdate) (h : Canonical s) : Canonical (updateDescriptors us s) := by
  refine ⟨updateDescriptors_wf us s h.1, ?_⟩
  rw [updateDescriptors_eq]
  exact h.2

theorem canonical_faultUpdates (us : List DescUpdate) (h : Canonical s) : Canonical (faultUpdates us s) :=
  canonical_updateDescriptors _ h

theorem canonical_commit (x : Xlat) (h : Canonical s) : Canonical (commit x s) := canonical_updateDescriptors _ h

/-! ### Registers and the pc -/

theorem canonical_advance (h : Canonical s) : Canonical (advance s) := canonical_of_store h (by simp) (by simp)

theorem canonical_advanceOf (narrow : Bool) (h : Canonical s) : Canonical (advanceOf narrow s) := by
  cases narrow <;> exact canonical_of_store h (by simp) (by simp)

theorem canonical_writeX (n : BitVec 5) (v : Word) (h : Canonical s) : Canonical (writeX n v s) :=
  canonical_of_store h (by simp) (by simp)

theorem canonical_writeXSP (n : BitVec 5) (v : Word) (h : Canonical s) : Canonical (writeXSP n v s) :=
  canonical_of_store h (by simp) (by simp)

theorem canonical_writeReg (q : SysReg) (v : Word) (h : Canonical s) : Canonical (writeReg q v s) := by
  rw [writeReg_eq]
  exact h

theorem canonical_writeCtl (q : CtlReg) (v : Word) (h : Canonical s) : Canonical (writeCtl q v s) :=
  canonical_of_store h (by simp) (by simp)

theorem canonical_spoilReg (rt base : BitVec 5) (h : Canonical s) : Canonical (spoilReg rt base s) :=
  canonical_ite (canonical_writeX rt _ h) h

theorem canonical_pmcrResets (v : Word) (h : Canonical s) : Canonical (pmcrResets v s) := by
  rw [pmcrResets_eq]
  exact h

theorem canonical_countEvent (e : BitVec 16) (h : Canonical s) : Canonical (countEvent e s) := by
  rw [countEvent_eq]
  exact h

theorem canonical_countReduction (k : ReduceInstr) (h : Canonical s) : Canonical (countReduction k s) := by
  rw [countReduction_eq]
  exact h

/-! ### Exceptions, Debug state, reset -/

theorem canonical_takeException (e : ExcReq) (h : Canonical s) : Canonical (takeException e s) := by
  rw [takeException_eq]
  unfold entryContext
  split <;> exact h

theorem canonical_updateEDSCRFields (h : Canonical s) : Canonical (updateEDSCRFields s) := by
  rw [updateEDSCRFields_eq]
  exact h

theorem canonical_halt (reason : BitVec 6) (ret : Word) (h : Canonical s) : Canonical (halt reason ret s) :=
  canonical_updateEDSCRFields (canonical_of_store h rfl rfl)

theorem canonical_exitDebugState (h : Canonical s) : Canonical (exitDebugState s) :=
  canonical_updateEDSCRFields (canonical_of_store h rfl rfl)

theorem canonical_takeWarmReset (ro : SysReg → Bool) (all : List SysReg) (h : Canonical s) :
    Canonical (takeWarmReset ro all s) := by
  obtain ⟨-, hmem, htags⟩ := takeWarmReset_keeps ro all s
  exact canonical_of_store h hmem htags

/-! ### Located bytes -/

theorem canonical_writeFrameByte (f : RegFrame) (off : Nat) (sp : Space) (b : Byte) (h : Canonical s) :
    Canonical (writeFrameByte f off sp b s) := by
  rw [writeFrameByte_eq]
  exact h

theorem canonical_readLocs (xs : List Xlat) (k : Nat) (h : Canonical s) : Canonical (readLocs xs k s).2 := by
  rw [readLocs_state]
  exact h

theorem canonical_writeLoc (x : Xlat) (b : Byte) (h : Canonical s) : Canonical (writeLoc x b s) := by
  refine ⟨writeLoc_wf x b s h.1, ?_⟩
  rw [writeLoc_stored]
  exact h.2

theorem canonical_writeLocs (xs : List Xlat) (bs : List Byte) (h : Canonical s) : Canonical (writeLocs xs bs s) := by
  refine ⟨writeLocs_wf xs bs s h.1, ?_⟩
  rw [writeLocs_stored]
  exact h.2

theorem canonical_spoilLocs (xs : List Xlat) (k : Nat) (h : Canonical s) : Canonical (spoilLocs xs k s) := by
  induction xs generalizing k s with
  | nil => exact h
  | cons x xs ih => exact ih _ (canonical_ite (canonical_writeLoc x _ h) h)

theorem canonical_partialWrite (xs ts : List Xlat) (bs : List Byte) (h : Canonical s) :
    Canonical (partialWrite xs ts bs s) :=
  canonical_ite (canonical_spoilLocs ts 0 (canonical_writeLocs xs bs h)) h

theorem canonical_partialRead (xs : List Xlat) (h : Canonical s) : Canonical (partialRead xs s) :=
  canonical_ite (canonical_readLocs xs 0 h) h

/-! ### Granules -/

theorem canonical_zeroGranules (xs : List Xlat) (h : Canonical s) : Canonical (zeroGranules xs s) := by
  induction xs generalizing s with
  | nil => exact h
  | cons x xs ih => exact ih (canonical_writeLocs _ _ h)

theorem canonical_storeTag (x : Xlat) (g : BitVec 4) (h : Canonical s) : Canonical (storeTag x g s) :=
  canonical_ite (canonical_writeTag _ _ h) h

theorem canonical_storeTags (g : BitVec 4) (xs : List Xlat) (h : Canonical s) : Canonical (storeTags g xs s) := by
  induction xs generalizing s with
  | nil => exact h
  | cons x xs ih => exact ih (canonical_storeTag x g h)

theorem canonical_storeTagList (v : Word) (i : Nat) (xs : List Xlat) (h : Canonical s) :
    Canonical (storeTagList v i xs s) := by
  induction xs generalizing i s with
  | nil => exact h
  | cons x xs ih => exact ih _ (canonical_storeTag x _ h)

theorem canonical_zeroAndTag (g : BitVec 4) (xs : List Xlat) (h : Canonical s) : Canonical (zeroAndTag g xs s) :=
  canonical_storeTags g xs (canonical_zeroGranules xs h)

theorem canonical_spoilTags (xs : List Xlat) (k : Nat) (h : Canonical s) : Canonical (spoilTags xs k s) := by
  induction xs generalizing k s with
  | nil => exact h
  | cons x xs ih => exact ih _ (canonical_ite (canonical_storeTag x _ h) h)

theorem canonical_partialGranules {f : List Xlat → State → State} (hf : ∀ xs v, Canonical v → Canonical (f xs v))
    (data tags : Bool) (xs ts : List Xlat) (h : Canonical s) : Canonical (partialGranules f data tags xs ts s) := by
  have hdata : Canonical
      (if data then spoilLocs (ts.flatMap fun x => (List.range 16).map x.plus) 0 (f xs s) else f xs s) :=
    canonical_ite (canonical_spoilLocs _ _ (hf xs _ h)) (hf xs _ h)
  unfold partialGranules
  exact canonical_ite (canonical_ite (canonical_spoilTags ts 0 hdata) hdata) h

/-! ### Translation -/

/-- A location, or a fault, in a canonical state. -/
def LocCanonical {α : Type} : Loc α → Prop
  | .ok _ u => Canonical u
  | .fault _ _ u => Canonical u

theorem LocCanonical.bind {α β : Type} {m : Loc α} {k : α → State → Loc β} (h : LocCanonical m)
    (hk : ∀ a u, Canonical u → LocCanonical (k a u)) : LocCanonical (m.bind k) := by
  cases m with
  | ok a u => exact hk a u h
  | fault k va u => exact h

theorem LocCanonical.ite {α : Type} {c : Prop} [Decidable c] {m n : Loc α} (hm : LocCanonical m) (hn : LocCanonical n) :
    LocCanonical (if c then m else n) := by
  split
  · exact hm
  · exact hn

theorem canonical_fillTlb (old : List TLBEntry) (e : TLBEntry) (h : Canonical s) : Canonical (fillTlb old e s) := by
  rw [fillTlb_eq]
  exact h

theorem useEntry_canonical (late : Option LateFault) (d : AccDesc) (va a : Word) (e : TLBEntry) (h : Canonical s) :
    LocCanonical (useEntry late d va a e s) := by
  have hfault (us : List DescUpdate) := canonical_faultUpdates us h
  unfold useEntry useEntry.lateFault
  exact .ite (hfault _) (.ite h (.ite h (.ite (hfault _) (.ite (hfault _) (.ite (hfault _) (.ite (hfault _) h))))))

theorem walkAccess_canonical (d : AccDesc) (va a : Word) (old : List TLBEntry) (h : Canonical s) :
    LocCanonical (walkAccess d va a old s) := by
  unfold walkAccess
  split
  case h_1 => exact h
  case h_2 => exact useEntry_canonical _ _ _ _ _ h
  case h_3 => exact useEntry_canonical _ _ _ _ _ (canonical_fillTlb _ _ h)

theorem useCached_canonical (d : AccDesc) (va a : Word) (old : List TLBEntry) (e : TLBEntry) (h : Canonical s) :
    LocCanonical (useCached d va a old e s) := by
  have huse := useEntry_canonical none d va a e h
  unfold useCached
  split
  case h_1 hok => rwa [hok] at huse
  case h_2 hfault =>
    rw [hfault] at huse
    exact .ite (walkAccess_canonical _ _ _ _ h) huse

theorem lookupIn_canonical (hits : List TLBEntry) (d : AccDesc) (va a : Word) (h : Canonical s) :
    LocCanonical (lookupIn hits d va a s) := by
  unfold lookupIn
  split
  · exact h
  · split
    · exact useCached_canonical _ _ _ _ _ h
    · split
      · exact h
      · exact useCached_canonical _ _ _ _ _ h
    · exact .ite h (walkAccess_canonical _ _ _ _ h)

theorem findWith_canonical (tlb : List TLBEntry) (d : AccDesc) (va : Word) (h : Canonical s) :
    LocCanonical (findWith tlb d va s) := .ite (.ite h h) (lookupIn_canonical _ d va _ h)

theorem lookupWith_canonical (tlb : List TLBEntry) (d : AccDesc) (va : Word) (h : Canonical s) :
    LocCanonical (lookupWith tlb d va s) := by
  refine (findWith_canonical tlb d va h).bind fun x u hu => ?_
  split
  · exact canonical_faultUpdates _ hu
  · exact hu

theorem translate_canonical (d : AccDesc) (va : Word) (h : Canonical s) : LocCanonical (translate d va s) :=
  (lookupWith_canonical s.tlb d va h).bind fun x _ hu => canonical_commit x hu

/-! ### Locating an access -/

theorem finalChecks_canonical (d : AccDesc) (n : Nat) (x : Xlat) (h : Canonical s) :
    LocCanonical (finalChecks d n x s) := by
  have hrecord {c : Prop} [Decidable c] (va : Word) : Canonical (if c then recordTagFault va s else s) :=
    canonical_ite h h
  simp only [finalChecks]
  split
  case h_1 => exact h
  case h_2 => exact .ite (hrecord _) h
  all_goals exact hrecord _

theorem checked_canonical (d : AccDesc) (n : Nat) (x : Xlat) (h : Canonical s) : LocCanonical (checked d n x s) := by
  have hchecks := finalChecks_canonical d n x h
  unfold checked
  split
  case h_1 hfinal =>
    rw [hfinal] at hchecks
    exact canonical_commit _ hchecks
  case h_2 hfinal =>
    rw [hfinal] at hchecks
    exact canonical_faultUpdates _ hchecks

theorem attempt_canonical (d : AccDesc) (n : Nat) (bad : Xlat → State → Option AbortKind) (va : Word) (h : Canonical s) :
    LocCanonical (attempt d n bad va s) := by
  refine (findWith_canonical s.tlb d va h).bind fun x u hu => ?_
  split
  · exact canonical_faultUpdates _ hu
  · exact checked_canonical _ _ _ hu

theorem locateBy_canonical (d : AccDesc) (n : Nat) (bad : Xlat → State → Option AbortKind) (va : Word)
    (h : Canonical s) : LocCanonical (locateBy d n bad va s) := by
  have hattempt := attempt_canonical d n bad va h
  have hdropped : Canonical (dropHits d va s) := h
  unfold locateBy
  split
  case h_1 hok => rwa [hok] at hattempt
  case h_2 hfault =>
    rw [hfault] at hattempt
    exact .ite (attempt_canonical d n bad va hdropped) hattempt

theorem locateSeq_canonical {f : Word → State → Loc Xlat} (hf : ∀ a v, Canonical v → LocCanonical (f a v))
    (stride : Word) (g : Nat) (first : Bool) (n : Nat) (va : Word) (h : Canonical s) :
    LocCanonical (locateSeq f stride g first n va s) := by
  induction n generalizing first va s with
  | zero => exact h
  | succ n ih =>
    rw [locateSeq]
    split
    · exact h
    · exact (hf va s h).bind fun x u hu => (ih false _ hu).bind fun xs v hv => hv

theorem locateNth_canonical (d : AccDesc) (n g : Nat) (va : Word) (h : Canonical s) :
    LocCanonical (locateNth d n g va s) :=
  .ite h (.ite (locateSeq_canonical (fun _ _ hv => locateBy_canonical _ _ _ _ hv) _ _ _ _ _ h)
    ((locateBy_canonical d n _ va h).bind fun _ _ hu => hu))

theorem granuleFaults_canonical {d : AccDesc} {dev : OnDevice} {n : Nat} {va : Word} {f : AbortKind × Word × State}
    (h : Canonical s) (hf : f ∈ granuleFaults d dev n va s) : Canonical f.2.2 := by
  induction n generalizing va with
  | zero => cases hf
  | succ n ih =>
    have hlocate : LocCanonical (locateGranule d dev va s) := locateBy_canonical _ _ _ _ h
    rw [granuleFaults] at hf
    split at hf
    next => exact ih hf
    next hloc =>
      rw [hloc] at hlocate
      rcases List.mem_cons.mp hf with rfl | hmem
      · exact hlocate
      · exact ih hmem

/-- Granules are located one after another, or the fault of one of them is reported. -/
theorem granules_canonical (d : AccDesc) (dev : OnDevice) (n : Nat) (va : Word) (h : Canonical s) :
    LocCanonical (locateGranules d dev n va s) := by
  have hlocate := locateSeq_canonical (f := locateGranule d dev) (fun _ _ hv => locateBy_canonical _ _ _ _ hv)
    16 0 true n va h
  unfold locateGranules
  split
  case h_1 hloc => rwa [hloc] at hlocate
  case h_2 hloc => rwa [hloc] at hlocate
  case h_3 hloc =>
    rw [hloc] at hlocate
    dsimp only
    split
    next hget => exact granuleFaults_canonical h (List.mem_of_getElem? hget)
    next => exact hlocate

end

end Sys2Proof.Proofs
end

