-- ==== Sys2Proof/Proofs/CanonicalResults.lean ====
section
/-! Where a computation goes on memory and tags are canonical: results, traps, exceptions, and accesses to memory. -/

namespace Sys2Proof.Proofs

open Sys2Proof.Machine Sys2Proof.Safety Sys2Proof.Laws

/-- If it goes on, the next state is canonical. -/
structure ResCanonical (r : Result) : Prop where
  next : ∀ t, r = .next t → Canonical t

/-- So is the one after a trap, where one applies. -/
structure TrapCanonical (trap : Option Result) : Prop where
  taken : ∀ r, trap = some r → ResCanonical r

/-- A computation gives a value in a canonical state, or ends so. -/
def AccCanonical {α : Type} : Acc α → Prop
  | .ok _ u => Canonical u
  | .stop r => ResCanonical r

section
variable {s t u : State} {r q : Result} {o p : Option Result}

/-! ### Results -/

theorem resCanonical_next (h : Canonical t) : ResCanonical (.next t) := ⟨by rintro _ ⟨⟩; exact h⟩

theorem resCanonical_advance (h : Canonical s) : ResCanonical (.next (advance s)) :=
  resCanonical_next (canonical_advance h)

theorem resCanonical_advanceOf (narrow : Bool) (h : Canonical s) : ResCanonical (.next (advanceOf narrow s)) :=
  resCanonical_next (canonical_advanceOf narrow h)

/-- The end of an instruction that writes one register. -/
theorem resCanonical_writeX (n : BitVec 5) (v : Word) (h : Canonical s) :
    ResCanonical (.next (advance (writeX n v s))) := resCanonical_advance (canonical_writeX n v h)

theorem resCanonical_refused (f : Refusal) : ResCanonical (.refused f) := ⟨fun _ h => by cases h⟩

theorem ResCanonical.ite {c : Prop} [Decidable c] (hr : ResCanonical r) (hq : ResCanonical q) :
    ResCanonical (if c then r else q) := by
  split
  · exact hr
  · exact hq

/-! ### Traps -/

theorem trapCanonical_none : TrapCanonical none := ⟨fun _ h => by cases h⟩

theorem trapCanonical_some (h : ResCanonical r) : TrapCanonical (some r) := ⟨by rintro _ ⟨⟩; exact h⟩

theorem TrapCanonical.ite {c : Prop} [Decidable c] (ho : TrapCanonical o) (hp : TrapCanonical p) :
    TrapCanonical (if c then o else p) := by
  split
  · exact ho
  · exact hp

/-- A trap under a condition. -/
theorem TrapCanonical.given {c : Prop} [Decidable c] (ho : TrapCanonical o) : TrapCanonical (if c then o else none) :=
  .ite ho trapCanonical_none

theorem TrapCanonical.getD (ho : TrapCanonical o) (hr : ResCanonical r) : ResCanonical (o.getD r) := by
  cases o with
  | none => exact hr
  | some q => exact ho.taken q rfl

theorem TrapCanonical.orElse (ho : TrapCanonical o) (hp : TrapCanonical p) : TrapCanonical (o.or p) := by
  cases o with
  | none => exact hp
  | some q => exact ho

theorem TrapCanonical.bind {α : Type} {a : Option α} {f : α → Option Result} (h : ∀ x, TrapCanonical (f x)) :
    TrapCanonical (a.bind f) := by
  cases a with
  | none => exact trapCanonical_none
  | some x => exact h x

theorem resCanonical_unpredictable (h : TrapCanonical o) (own : Refusal) (s : State) :
    ResCanonical (unpredictable o own s) :=
  ⟨fun t e => (h.taken _ (unpredictable_next e)).next t rfl⟩

theorem resCanonical_notHalted (h : TrapCanonical o) (hr : ResCanonical r) (s : State) :
    ResCanonical (notHalted o s r) :=
  .ite (resCanonical_unpredictable h _ s) hr

/-! ### Computations -/

theorem AccCanonical.andThen {α : Type} {m : Acc α} {k : α → State → Result} (h : AccCanonical m)
    (hk : ∀ a u, Canonical u → ResCanonical (k a u)) : ResCanonical (m.andThen k) := by
  cases m with
  | ok a u => exact hk a u h
  | stop r => exact h

theorem AccCanonical.bind {α β : Type} {m : Acc α} {k : α → State → Acc β} (h : AccCanonical m)
    (hk : ∀ a u, Canonical u → AccCanonical (k a u)) : AccCanonical (m.bind k) := by
  cases m with
  | ok a u => exact hk a u h
  | stop r => exact h

theorem AccCanonical.ite {α : Type} {c : Prop} [Decidable c] {m n : Acc α} (hm : AccCanonical m) (hn : AccCanonical n) :
    AccCanonical (if c then m else n) := by
  split
  · exact hm
  · exact hn

/-! ### Exceptions -/

theorem resCanonical_raise (e : ExcReq) (h : Canonical s) : ResCanonical (raise e s) := by
  refine ⟨fun t hraise => ?_⟩
  obtain ⟨-, rfl⟩ := raise_next hraise
  exact canonical_takeException e h

theorem resCanonical_undefined (h : Canonical s) : ResCanonical (undefined s) := resCanonical_raise _ h

theorem trapCanonical_raise (e : ExcReq) (h : Canonical s) : TrapCanonical (some (raise e s)) :=
  trapCanonical_some (resCanonical_raise e h)

/-- An instruction that is UNDEFINED under a condition. -/
theorem resCanonical_unless {c : Prop} [Decidable c] (h : Canonical s) (hr : ResCanonical r) :
    ResCanonical (if c then undefined s else r) := .ite (resCanonical_undefined h) hr

theorem takeInterrupt_canonical (k : Interrupt) (h : Canonical s) : ResCanonical (takeInterrupt k s) := by
  have htaken : Canonical (intTaken k s) := by cases k <;> exact h
  exact resCanonical_raise _ htaken

theorem takeUnmaskedSError_canonical {k : State → Result} (h : Canonical s) (hk : ResCanonical (k s)) :
    ResCanonical (takeUnmaskedSError s k) := .ite (takeInterrupt_canonical _ h) hk

theorem watchpointEvent_canonical (d : AccDesc) (n : Nat) (va : Word) (h : Canonical s) :
    ResCanonical (watchpointEvent d n va s) := by
  have hhalts : Canonical (halt 0b101011 s.pc s) := canonical_halt _ _ h
  unfold watchpointEvent
  exact .ite (resCanonical_next hhalts) (resCanonical_raise _ h)

theorem abort_canonical {α : Type} (d : AccDesc) (k : AbortKind) (va : Word) (h : Canonical s) :
    AccCanonical (abort d k va s : Acc α) := by
  unfold abort
  split
  · exact watchpointEvent_canonical _ _ _ h
  · exact takeInterrupt_canonical _ h
  · exact resCanonical_raise _ h

/-- An abort ends the step. -/
theorem abortStep_canonical (d : AccDesc) (k : AbortKind) (va : Word) (h : Canonical s) :
    ResCanonical ((abort (α := Unit) d k va s).andThen fun _ v => .next v) :=
  (abort_canonical d k va h).andThen fun _ _ hv => resCanonical_next hv

theorem toAcc_canonical {α : Type} {m : Loc α} (d : AccDesc) (h : LocCanonical m) : AccCanonical (m.toAcc d) := by
  cases m with
  | ok a u => exact h
  | fault k va u => exact abort_canonical d k va h

/-! ### Memory accesses -/

theorem memRead_canonical (d : AccDesc) (n w : Nat) (va : Word) {spoil : State → State}
    (hspoil : ∀ v, Canonical v → Canonical (spoil v)) (h : Canonical s) :
    AccCanonical (memRead d n w va spoil s) := by
  have hlocate := locateNth_canonical d n 0 va h
  unfold memRead locateAll
  split
  case h_1 hloc =>
    rw [hloc] at hlocate
    exact canonical_readLocs _ 0 hlocate
  case h_2 hloc =>
    rw [hloc] at hlocate
    exact abort_canonical _ _ _ (canonical_ite (hspoil _ (canonical_partialRead _ hlocate)) hlocate)

theorem memWrite_canonical {w : Nat} (d : AccDesc) (n : Nat) (va : Word) (v : BitVec w) (h : Canonical s) :
    AccCanonical (memWrite d n va v s) := by
  have hlocate := locateNth_canonical d n 0 va h
  unfold memWrite locateAll
  split
  case h_1 hloc =>
    rw [hloc] at hlocate
    exact canonical_writeLocs _ _ hlocate
  case h_2 hloc =>
    rw [hloc] at hlocate
    exact abort_canonical _ _ _ (canonical_partialWrite _ _ _ hlocate)

/-! ### The enables of the vector units -/

theorem vecException_canonical (us : List VecUnit) (h : Canonical s) : TrapCanonical (vecException us s) := by
  have htrap (tu : EL × VecUnit) : ResCanonical (vecTrapResult tu.1 tu.2 s) :=
    resCanonical_unless h (resCanonical_raise _ h)
  unfold vecException
  split
  · exact trapCanonical_some (resCanonical_undefined h)
  · cases vecTrap us s with
    | none => exact trapCanonical_none
    | some tu => exact trapCanonical_some (htrap tu)

theorem vecGate_canonical (us : List VecUnit) (h : Canonical s) (hr : ResCanonical r) :
    ResCanonical (vecGate us s r) := (vecException_canonical us h).getD hr

/-! ### The base register -/

theorem baseReg_canonical (n : BitVec 5) (h : Canonical s) : AccCanonical (baseReg n s) :=
  .ite (m := .stop _) (n := .ok _ s) (resCanonical_raise _ h) h

theorem baseException_canonical (n : BitVec 5) (h : Canonical s) : TrapCanonical (baseException n s) := by
  have hstop := baseReg_canonical n h
  unfold baseException
  cases hbase : baseReg n s with
  | ok v u => exact trapCanonical_none
  | stop q =>
    rw [hbase] at hstop
    exact trapCanonical_some hstop

end

end Sys2Proof.Proofs
end

