-- ==== Sys2Proof/Proofs/CanonicalVectors.lean ====
section
/-! Memory and tags are canonical after a vector, pointer authentication, load, store or SVE instruction. -/

namespace Sys2Proof.Proofs

open Sys2Proof.Machine Sys2Proof.Safety Sys2Proof.Laws

section
variable {s t u : State} {r : Result}

/-! ### Floating-point elements -/

theorem canonical_elemFlags (size : BitVec 2) (l : List (Word × Word)) (h : Canonical s) :
    Canonical (elemFlags size l s) := by
  unfold elemFlags
  induction l generalizing s with
  | nil => exact h
  | cons ab l ih => exact ih (canonical_ite h (canonical_ite h h))

theorem canonical_writeFpElems (op : FpOp) (size : BitVec 2) (l : List (Word × Word)) (zd : BitVec 5)
    (h : Canonical s) : Canonical (writeFpElems op size l zd s) :=
  canonical_elemFlags size l (canonical_of_store h rfl rfl)

theorem canonical_svePredElems (op : FpOp) (size : BitVec 2) (pg : BitVec 3) (l : List (Word × Word)) (zdn : BitVec 5)
    (h : Canonical s) : Canonical (svePredElems op size pg l zdn s) :=
  canonical_elemFlags size l (canonical_of_store h rfl rfl)

theorem sveException_canonical (long : Bool) (h : Canonical s) : TrapCanonical (sveException long s) := by
  have hundefined : TrapCanonical (some (undefined s)) := trapCanonical_some (resCanonical_undefined h)
  have hvec := vecException_canonical (sveUnits s) h
  unfold sveException
  split
  · exact hundefined
  · split
    case h_1 hsome => rwa [hsome] at hvec
    case h_2 => exact .ite (trapCanonical_raise _ h) (.given hundefined)

theorem fpScalar_canonical (w : Nat) (op : FpOp) (rm rn rd : BitVec 5) (h : Canonical s) :
    ResCanonical (fpScalar w op rm rn rd s) :=
  vecGate_canonical _ h (resCanonical_advance (canonical_of_store h rfl rfl))

theorem execMovprfx_canonical (zn zd : BitVec 5) (h : Canonical s) : ResCanonical (execMovprfx zn zd s) :=
  resCanonical_unless h (vecGate_canonical _ h
    (resCanonical_next (canonical_of_store h (advance_mem _) (advance_tags _))))

theorem execMovprfxPred_canonical (size : BitVec 2) (m : BitVec 1) (pg : BitVec 3) (zn zd : BitVec 5)
    (h : Canonical s) : ResCanonical (execMovprfxPred size m pg zn zd s) :=
  resCanonical_unless h (vecGate_canonical _ h
    (resCanonical_next (canonical_of_store h (advance_mem _) (advance_tags _))))

theorem execFmmlaS_canonical (zm zn zda : BitVec 5) (h : Canonical s) : ResCanonical (execFmmlaS zm zn zda s) :=
  (sveException_canonical false h).getD (resCanonical_advance (canonical_of_store h rfl rfl))

theorem execFmmlaD_canonical (zm zn zda : BitVec 5) (h : Canonical s) : ResCanonical (execFmmlaD zm zn zda s) :=
  (sveException_canonical true h).getD (resCanonical_advance (canonical_of_store h rfl rfl))

/-! ### Pointer authentication -/

theorem pacTrap_canonical (k : PacKey) (h : Canonical s) : TrapCanonical (pacTrap k s) :=
  .given (trapCanonical_raise _ h)

theorem pacGate_canonical (k : PacKey) (hint : Bool) (h : Canonical s) (hr : ResCanonical r) :
    ResCanonical (pacGate k hint s r) :=
  .ite (.ite (resCanonical_advance h) (resCanonical_undefined h))
    (.ite (resCanonical_advance h) (.ite (resCanonical_raise _ h) hr))

theorem pacInsert_canonical (k : PacKey) (hint : Bool) (rd : BitVec 5) (m : Word) (h : Canonical s) :
    ResCanonical (pacInsert k hint rd m s) := pacGate_canonical k hint h (resCanonical_writeX _ _ h)

theorem pacCheck_canonical (k : PacKey) (hint : Bool) (rd : BitVec 5) (m : Word) (h : Canonical s) :
    ResCanonical (pacCheck k hint rd m s) :=
  pacGate_canonical k hint h (.ite (resCanonical_raise _ h) (resCanonical_writeX _ _ h))

theorem authCombined_canonical {k : PacKey} {ptr m : Word} {onFail : State → State} {cont : Word → Result}
    (h : Canonical s) (hfail : Canonical (onFail s)) (hcont : ∀ a, ResCanonical (cont a)) :
    ResCanonical (authCombined k ptr m s onFail cont) :=
  resCanonical_unless h (.ite (hcont _)
    (.ite (resCanonical_raise _ h) (.ite (resCanonical_raise _ hfail) (hcont _))))

theorem needsPAuth_canonical (h : Canonical s) (hr : ResCanonical r) : ResCanonical (needsPAuth s r) :=
  .ite hr (resCanonical_undefined h)

theorem execPacga_canonical (rm rn rd : BitVec 5) (h : Canonical s) : ResCanonical (execPacga rm rn rd s) :=
  resCanonical_unless h (.ite (resCanonical_raise _ h) (resCanonical_writeX _ _ h))

/-! ### Loads and stores -/

theorem execStrX_canonical (imm12 : BitVec 12) (rn rt : BitVec 5) (h : Canonical s) :
    ResCanonical (execStrX imm12 rn rt s) :=
  (baseReg_canonical rn h).andThen fun _ _ hu =>
    (memWrite_canonical _ _ _ _ hu).andThen fun _ _ hv => resCanonical_advance hv

theorem execLdrX_canonical (imm12 : BitVec 12) (rn rt : BitVec 5) (h : Canonical s) :
    ResCanonical (execLdrX imm12 rn rt s) :=
  (baseReg_canonical rn h).andThen fun _ _ hu =>
    (memRead_canonical _ _ _ _ (fun _ => canonical_spoilReg rt rn) hu).andThen fun _ _ hv => resCanonical_writeX _ _ hv

theorem loadAt_canonical (d : AccDesc) (addr : Word) (writeback : Bool) (rn rt : BitVec 5) (h : Canonical s) :
    ResCanonical (loadAt d addr writeback rn rt s) :=
  (memRead_canonical _ _ _ _ (fun _ => canonical_spoilReg rt rn) h).andThen fun _ _ hu =>
    resCanonical_advance (canonical_ite (canonical_writeXSP _ _ (canonical_writeX _ _ hu)) (canonical_writeX _ _ hu))

theorem execLdrXPre_canonical (imm9 : BitVec 9) (rn rt : BitVec 5) (h : Canonical s) :
    ResCanonical (execLdrXPre imm9 rn rt s) :=
  .ite (resCanonical_unpredictable trapCanonical_none _ s)
    ((baseReg_canonical rn h).andThen fun _ _ hu => loadAt_canonical _ _ _ _ _ hu)

theorem canonical_failedLoad (d : AccDesc) (addr : Word) (h : Canonical s) : Canonical (failedLoad d addr s) := by
  have hlocate := locateNth_canonical d 8 0 addr h
  unfold failedLoad locateAll
  split
  · split
    case h_1 hloc =>
      rw [hloc] at hlocate
      exact canonical_ite (canonical_readLocs _ 0 hlocate) h
    case h_2 => exact h
  · exact h

theorem execLdra_canonical (m sbit : BitVec 1) (imm9 : BitVec 9) (w : BitVec 1) (rn rt : BitVec 5) (h : Canonical s) :
    ResCanonical (execLdra m sbit imm9 w rn rt s) :=
  resCanonical_unless h ((baseReg_canonical rn h).andThen fun _ _ hu =>
    authCombined_canonical hu (canonical_failedLoad _ _ hu) fun _ =>
      loadAt_canonical _ _ _ _ _ (canonical_ite (canonical_failedLoad _ _ hu) hu))

/-! ### SVE loads and stores -/

theorem sveBase_canonical (m : SveAccess) (h : Canonical s) : AccCanonical (m.base s) := by
  unfold SveAccess.base
  split
  · exact h
  · exact baseReg_canonical m.rn h

theorem locateList_canonical (d : AccDesc) (n more : Nat) (first : Bool) (as : List Word) (h : Canonical s) :
    LocCanonical (locateList d n more first as s) := by
  induction as generalizing first s with
  | nil => exact h
  | cons a as ih =>
    rw [locateList]
    split
    · exact h
    · exact (locateNth_canonical _ _ _ _ h).bind fun _ _ hu => (ih false hu).bind fun _ _ hv => hv

theorem canonical_readElems (xss : List (List Xlat)) (h : Canonical s) : Canonical (readElems xss s).2 := by
  induction xss generalizing s with
  | nil => exact h
  | cons xs xss ih => exact ih (canonical_readLocs xs 0 h)

theorem canonical_writeElems (bytes : Nat) (xss : List (List Xlat)) (vs : List Word) (h : Canonical s) :
    Canonical (writeElems bytes xss vs s) := by
  induction xss generalizing vs s with
  | nil => exact h
  | cons xs xss ih =>
    cases vs with
    | nil => exact h
    | cons v vs => exact ih vs (canonical_writeLocs xs _ h)

theorem canonical_spoilZ (zt : BitVec 5) (h : Canonical s) : Canonical (spoilZ zt s) := canonical_ite h h

theorem canonical_spoilFaultLoad (zt : BitVec 5) (h : Canonical s) : Canonical (spoilFaultLoad zt s) :=
  have hspoilt := canonical_spoilZ zt h
  canonical_ite hspoilt hspoilt

theorem loadElems_canonical (m : SveAccess) (whole : Nat) (es : List Nat) (others : Bool) (more : Nat)
    {spoil : State → State} (hspoil : ∀ v, Canonical v → Canonical (spoil v)) (base : Word) (h : Canonical s) :
    AccCanonical (loadElems m whole es others more spoil base s) := by
  have hlocate := locateList_canonical (m.desc false false) (sizeBytes m.msize) more true (es.map (m.addr whole base s)) h
  unfold loadElems
  dsimp only
  split
  case h_1 hloc =>
    rw [hloc] at hlocate
    exact canonical_readElems _ hlocate
  case h_2 hloc =>
    rw [hloc] at hlocate
    exact abort_canonical _ _ _ (canonical_ite (hspoil _ (canonical_partialRead _ hlocate)) hlocate)

/-- The regular loads and LD1RO: the elements loaded, then a vector written. -/
theorem loadElems_writeZ_canonical {m : SveAccess} {whole : Nat} {es : List Nat} {others : Bool} {more : Nat}
    {base : Word} {z : List (Nat × Word) → State → VReg} (zt : BitVec 5) (h : Canonical s) :
    ResCanonical ((loadElems m whole es others more (spoilZ zt) base s).andThen fun l v =>
      .next (advance (writeZ zt (z l v) v))) :=
  (loadElems_canonical m _ _ _ _ (fun _ => canonical_spoilZ zt) _ h).andThen fun _ _ hv =>
    resCanonical_advance (canonical_of_store hv rfl rfl)

theorem sveLoadRegular_canonical (m : SveAccess) (signed : Bool) (zt : BitVec 5) (h : Canonical s) :
    ResCanonical (sveLoadRegular m signed zt s) :=
  (sveBase_canonical m h).andThen fun _ _ hu => loadElems_writeZ_canonical zt hu

theorem ld1roEffect_canonical (m : SveAccess) (zt : BitVec 5) (h : Canonical s) : ResCanonical (ld1roEffect m zt s) :=
  (sveBase_canonical m h).andThen fun _ _ hu => loadElems_writeZ_canonical zt hu

theorem sveStoreEffect_canonical (m : SveAccess) (zt : BitVec 5) (h : Canonical s) :
    ResCanonical (sveStoreEffect m zt s) := by
  refine (sveBase_canonical m h).andThen fun base u hu => ?_
  have hlocate := locateList_canonical (m.desc true false) (sizeBytes m.msize) 0 true
    ((m.actives (elemCount m.esize u) u).map (m.addr (m.whole u) base u)) hu
  dsimp only
  split
  case h_1 hloc =>
    rw [hloc] at hlocate
    exact resCanonical_advance (canonical_writeElems _ _ _ hlocate)
  case h_2 hloc =>
    rw [hloc] at hlocate
    exact abortStep_canonical _ _ _ (canonical_partialWrite _ _ _ hlocate)

theorem nonFaultElem_canonical (m : SveAccess) (first : Bool) (left e : Nat) (zt : BitVec 5) (va : Word)
    (h : Canonical s) : AccCanonical (nonFaultElem m first left e zt va s) := by
  have hlocate := locateNth_canonical (m.desc false true) (sizeBytes m.msize) (accessNumber 0 left) va h
  unfold nonFaultElem
  dsimp only
  split
  · exact abort_canonical _ _ _ (canonical_spoilFaultLoad zt h)
  · split
    case h_1 hloc =>
      rw [hloc] at hlocate
      exact abort_canonical _ _ _ (canonical_spoilFaultLoad zt (canonical_partialRead _ hlocate))
    case h_2 hloc => rwa [hloc] at hlocate
    case h_3 hloc =>
      rw [hloc] at hlocate
      exact .ite (m := .ok _ _) (n := .ok _ _) h (canonical_readLocs _ 0 hlocate)

theorem nonFaultElems_canonical (m : SveAccess) (signed : Bool) (actives : List Nat) (zt : BitVec 5) (base : Word)
    (first : Bool) (es : List Nat) (ffr : PReg) (o : Bool) (h : Canonical s) :
    AccCanonical (nonFaultElems m signed actives zt base first es ffr o s) := by
  induction es generalizing ffr o s with
  | nil => exact h
  | cons e es ih =>
    rw [nonFaultElems]
    refine AccCanonical.bind (.ite (nonFaultElem_canonical _ _ _ _ _ _ h) h) fun r u hu => ?_
    exact (ih _ _ hu).bind fun _ _ hv => hv

/-- The elements after which the First-fault Register is written. -/
theorem faultLoad_canonical {m : SveAccess} {signed first : Bool} {actives es : List Nat} {zt : BitVec 5} {base : Word}
    {ffr : PReg} {o : Bool} {l : List (Nat × Word) × PReg → State → List (Nat × Word)} (h : Canonical s) :
    ResCanonical ((nonFaultElems m signed actives zt base first es ffr o s).andThen fun a v =>
      endFaultLoad m zt (l a v) a.2 v) :=
  (nonFaultElems_canonical m _ _ _ _ _ _ _ _ h).andThen fun _ _ hv =>
    resCanonical_advance (canonical_of_store hv rfl rfl)

theorem sveLoadNonFault_canonical (m : SveAccess) (signed : Bool) (zt : BitVec 5) (h : Canonical s) :
    ResCanonical (sveLoadNonFault m signed zt s) :=
  (sveBase_canonical m h).andThen fun _ _ hu => faultLoad_canonical hu

theorem sveLoadFirstFault_canonical (m : SveAccess) (signed : Bool) (zt : BitVec 5) (h : Canonical s) :
    ResCanonical (sveLoadFirstFault m signed zt s) := by
  refine (sveBase_canonical m h).andThen fun base u hu => ?_
  dsimp only
  split
  · exact resCanonical_advance (canonical_of_store hu rfl rfl)
  · exact (loadElems_canonical m _ _ _ _ (fun _ => canonical_spoilFaultLoad zt) _ hu).andThen fun _ _ hv =>
      faultLoad_canonical hv

end

end Sys2Proof.Proofs
end

