-- ==== Sys2Proof/Proofs/CanonicalRegisters.lean ====
section
/-! Memory and tags are canonical after an access to a System register, a branch, an exception return, a wait, an A32 move. -/

namespace Sys2Proof.Proofs

open Sys2Proof.Machine Sys2Proof.Safety Sys2Proof.Laws

section
variable {s t u : State} {r : Result}

/-! ### Writes by name -/

theorem canonical_writeStored (q : SysReg) (v : Word) (h : Canonical s) : Canonical (writeStored q v s) := by
  by_cases hpmcr : q = .PMCR_EL0
  · subst hpmcr
    exact canonical_writeReg _ _ (canonical_pmcrResets v h)
  · rw [writeStored_state hpmcr]
    exact h

theorem canonical_changeSM (sm : Bool) (h : Canonical s) : Canonical (changeSM sm s) := canonical_ite h h

theorem canonical_changeZA (za : Bool) (h : Canonical s) : Canonical (changeZA za s) :=
  canonical_ite h (canonical_ite (c := za = true) h h)

theorem canonical_writeView (w : View) (v : Word) (h : Canonical s) : Canonical (writeView w v s) := by
  cases w with
  | SVCR => exact canonical_changeZA _ (canonical_changeSM _ h)
  | CNTP_TVAL_EL0 | CNTV_TVAL_EL0 | CNTHP_TVAL_EL2 | CNTHV_TVAL_EL2 | CNTPS_TVAL_EL1 | PMCNTENCLR_EL0 | PMOVSCLR_EL0 =>
    exact canonical_writeReg _ _ h
  | PMXEVTYPER_EL0 =>
    simp only [writeView]
    split
    · exact canonical_writeCtl _ _ h
    · exact h
  | _ => exact h

theorem canonical_writeName (n : RegName) (v : Word) (h : Canonical s) : Canonical (writeName n v s) := by
  cases n with
  | stored q => exact canonical_writeStored q v h
  | view w => exact canonical_writeView w v h
  | _ => exact h

theorem canonical_countWrite (q : SysReg) (h : Canonical s) : Canonical (countWrite q s) := by
  rw [(countWrite_eq q s).1]
  exact h

theorem canonical_performWrite (sel : BitVec 15) (n : RegName) (v : Word) (h : Canonical s) :
    Canonical (performWrite sel n v s) := by
  unfold performWrite
  split
  · exact canonical_ite (canonical_writeReg _ _ h) (canonical_writeReg _ _ h)
  · exact canonical_countWrite _ (canonical_writeName _ _ h)
  · exact canonical_writeName _ _ h

/-! ### MRS and MSR -/

theorem sysTrap_canonical (el : EL) (sel : BitVec 15) (rt : BitVec 5) (read : Bool) (h : Canonical s) :
    ResCanonical (sysTrap el sel rt read s) := resCanonical_unless h (resCanonical_raise _ h)

theorem permissionTrap_canonical (sel : BitVec 15) (n : RegName) (rt : BitVec 5) (write : Bool) (h : Canonical s) :
    TrapCanonical (permissionTrap sel n rt write s) := by
  unfold permissionTrap
  split
  · exact trapCanonical_some (sysTrap_canonical _ _ _ _ h)
  · exact .given (vecException_canonical _ h)
  · exact trapCanonical_none

theorem accessGate_canonical (n : RegName) (h : Canonical s) (hr : ResCanonical r) : ResCanonical (accessGate n s r) :=
  .ite (vecGate_canonical _ h hr) hr

theorem unknownReg_canonical (sel : BitVec 15) (h : Canonical s) : ResCanonical (unknownReg sel s) :=
  resCanonical_unless h (resCanonical_refused _)

theorem vncrLocate_canonical (write : Bool) (addr : Word) (h : Canonical s) :
    AccCanonical (vncrLocate write addr s) := by
  have hcontext : Canonical (vncrContext s) := h
  have hlocate := locateNth_canonical (vncrDesc write) 8 0 addr hcontext
  unfold vncrLocate locateAll
  split
  case h_1 hloc =>
    rw [hloc] at hlocate
    exact hlocate
  case h_2 u hloc =>
    rw [hloc] at hlocate
    have hback : Canonical { u with ps := s.ps } := hlocate
    exact resCanonical_raise _ hback

theorem readCcsidr_canonical (sel : BitVec 15) (second : Bool) (rt : BitVec 5) (h : Canonical s) :
    ResCanonical (readCcsidr sel second rt s) := by
  unfold readCcsidr
  split
  · exact resCanonical_writeX _ _ h
  · exact .ite (resCanonical_advance h) (.ite (.ite (sysTrap_canonical _ _ _ _ h) (resCanonical_undefined h))
      (resCanonical_writeX _ _ h))

theorem performRead_canonical (sel : BitVec 15) (n : RegName) (rt : BitVec 5) (h : Canonical s) :
    ResCanonical (performRead sel n rt s) := by
  have hwrite (v : Word) : ResCanonical (.next (advance (writeX rt v s))) := resCanonical_writeX rt v h
  have hrandom : ResCanonical (readRandom rt s) :=
    resCanonical_advance (canonical_of_store (canonical_writeX rt _ h) rfl rfl)
  unfold performRead
  split
  · exact readCcsidr_canonical _ _ _ h
  · exact readCcsidr_canonical _ _ _ h
  · exact hrandom
  · exact hrandom
  · exact .ite (hwrite _) (hwrite _)
  · exact hwrite _

theorem readSys_canonical (sel : BitVec 15) (rt : BitVec 5) (h : Canonical s) : ResCanonical (readSys sel rt s) := by
  unfold readSys
  split
  · refine .ite (resCanonical_unpredictable (permissionTrap_canonical _ _ _ _ h) _ s) ?_
    split
    · exact resCanonical_undefined h
    · exact sysTrap_canonical _ _ _ _ h
    · exact (vncrLocate_canonical _ _ h).andThen fun xs u hu => resCanonical_writeX _ _ (canonical_readLocs xs 0 hu)
    · exact accessGate_canonical _ h (performRead_canonical _ _ _ h)
  · refine .ite (resCanonical_unless h (.ite (sysTrap_canonical _ _ _ _ h) (resCanonical_writeX _ _ h))) ?_
    split
    · exact .ite (resCanonical_writeX _ _ h) (resCanonical_undefined h)
    · exact unknownReg_canonical sel h

theorem writeSys_canonical (sel : BitVec 15) (rt : BitVec 5) (h : Canonical s) : ResCanonical (writeSys sel rt s) := by
  unfold writeSys
  split
  · refine .ite (resCanonical_unpredictable (permissionTrap_canonical _ _ _ _ h) _ s) ?_
    split
    · exact resCanonical_undefined h
    · exact sysTrap_canonical _ _ _ _ h
    · refine (vncrLocate_canonical _ _ h).andThen fun xs u hu => ?_
      have hstored := canonical_writeLocs xs (byteOrder (vncrBig s) (bytesOf 8 (readX rt s))) hu
      split
      · exact resCanonical_advance (canonical_countWrite _ hstored)
      · exact resCanonical_advance hstored
    · exact accessGate_canonical _ h (resCanonical_advance (canonical_performWrite _ _ _ h))
  · refine .ite (resCanonical_unless h (resCanonical_advance h)) ?_
    split
    · exact .ite (resCanonical_advance (canonical_writeName _ _ h)) (resCanonical_undefined h)
    · exact unknownReg_canonical sel h

/-! ### PSTATE and branches -/

theorem daifTrap_canonical (crm : BitVec 4) (op2 : BitVec 3) (h : Canonical s) : TrapCanonical (daifTrap crm op2 s) :=
  .given (trapCanonical_raise _ h)

theorem daifAccess_canonical (crm : BitVec 4) (op2 : BitVec 3) (h : Canonical s) (hr : ResCanonical r) :
    ResCanonical (daifAccess crm op2 s r) :=
  resCanonical_notHalted (daifTrap_canonical crm op2 h) ((daifTrap_canonical crm op2 h).getD hr) s

/-- A branch to an authenticated address. -/
theorem authBranch_canonical {k : PacKey} {ptr m : Word} {cont : Word → Result} (h : Canonical s)
    (hcont : ∀ a, ResCanonical (cont a)) :
    ResCanonical (needsPAuth s (notHalted (pacTrap k s) s (authCombined k ptr m s id cont))) :=
  needsPAuth_canonical h
    (resCanonical_notHalted (pacTrap_canonical k h) (authCombined_canonical (onFail := id) h h hcont) s)

theorem branchAuth_canonical (k : PacKey) (rn : BitVec 5) (m : Word) (h : Canonical s) :
    ResCanonical (branchAuth k rn m s) := authBranch_canonical h fun _ => resCanonical_next h

theorem linkAuth_canonical (k : PacKey) (rn : BitVec 5) (m : Word) (h : Canonical s) :
    ResCanonical (linkAuth k rn m s) := authBranch_canonical h fun _ => resCanonical_next (canonical_writeX _ _ h)

theorem returnAuth_canonical (k : PacKey) (h : Canonical s) : ResCanonical (returnAuth k s) :=
  authBranch_canonical h fun _ => resCanonical_next h

theorem branchIf_canonical (c : Bool) (imm : BitVec 19) (h : Canonical s) : ResCanonical (branchIf c imm s) := by
  refine resCanonical_notHalted trapCanonical_none ?_ s
  split
  · exact resCanonical_next h
  · exact resCanonical_advance h

/-! ### Exceptions and returns -/

theorem execHvc_canonical (imm16 : BitVec 16) (h : Canonical s) : ResCanonical (execHvc imm16 s) :=
  resCanonical_unless h (resCanonical_raise _ h)

theorem execSmc_canonical (imm16 : BitVec 16) (h : Canonical s) : ResCanonical (execSmc imm16 s) :=
  resCanonical_unless h (resCanonical_raise _ h)

theorem execHlt_canonical (imm16 : BitVec 16) (h : Canonical s) : ResCanonical (execHlt imm16 s) :=
  .ite (resCanonical_next (canonical_halt _ _ h)) (resCanonical_undefined h)

theorem canonical_exceptionReturn (target v : Word) (h : Canonical s) : Canonical (exceptionReturn target v s) := by
  have hbrb (k : BitVec 6) (b : State) {w : State} (hw : Canonical w) : Canonical (brbEntered k b w) :=
    canonical_of_store hw rfl rfl
  unfold exceptionReturn
  dsimp only
  split <;> exact hbrb _ _ h

theorem returnTo_canonical (target : Word) (h : Canonical s) : ResCanonical (returnTo target s) :=
  takeUnmaskedSError_canonical h (resCanonical_next (canonical_exceptionReturn _ _ h))

theorem eretTrap_canonical (iss : BitVec 25) (h : Canonical s) : TrapCanonical (eretTrap iss s) :=
  .given (trapCanonical_raise _ h)

theorem eretGate_canonical {auth : Option Result} (iss : BitVec 25) (h : Canonical s) (ha : TrapCanonical auth)
    (hr : ResCanonical r) : ResCanonical (eretGate iss auth s r) :=
  resCanonical_notHalted ((eretTrap_canonical iss h).orElse ha)
    (resCanonical_unless h ((eretTrap_canonical iss h).getD hr)) s

theorem execEret_canonical (h : Canonical s) : ResCanonical (execEret s) :=
  eretGate_canonical 0 h trapCanonical_none (returnTo_canonical _ h)

theorem eretAuth_canonical (iss : BitVec 25) (k : PacKey) (h : Canonical s) :
    ResCanonical (needsPAuth s (eretGate iss (pacTrap k s) s (returnAuthenticated k s))) := by
  have hreturn : ResCanonical (returnAuthenticated k s) :=
    authCombined_canonical h h fun t =>
      .ite (takeUnmaskedSError_canonical h
          (resCanonical_next (canonical_exceptionReturn t (sreg s (spsrReg s.ps.el)) h)))
        (returnTo_canonical t h)
  exact needsPAuth_canonical h (eretGate_canonical iss h (pacTrap_canonical k h) hreturn)

theorem execDrps_canonical (h : Canonical s) : ResCanonical (execDrps s) := by
  have hsame : (if drpsSynchronises s then synchronizeErrors s else s) = s := ite_self s
  have hsynchronised : Canonical (syncContext s) := h
  unfold execDrps
  rw [hsame]
  exact resCanonical_unless h
    (resCanonical_next (canonical_updateEDSCRFields (canonical_of_store hsynchronised rfl rfl)))

/-! ### Waits -/

theorem canonical_beginWait (w : Wait) (h : Canonical s) : Canonical (beginWait w s) := canonical_ite h h

theorem waitException_canonical (narrow event : Bool) (ti : BitVec 2) (reg : Option (BitVec 5)) (h : Canonical s) :
    TrapCanonical (waitException narrow event ti reg s) := by
  unfold waitException
  refine .ite (trapCanonical_raise _ h) ?_
  split
  · exact trapCanonical_some (.ite (resCanonical_raise _ h) (resCanonical_raise _ h))
  · exact trapCanonical_raise _ h
  · exact trapCanonical_none

theorem waitOrTrap_canonical {narrow event : Bool} {ti : BitVec 2} {reg : Option (BitVec 5)} (h : Canonical s)
    (hr : ResCanonical r) : ResCanonical (waitOrTrap narrow event ti reg s r) :=
  (waitException_canonical _ _ _ _ h).getD hr

theorem wfeEffect_canonical (narrow : Bool) (h : Canonical s) : ResCanonical (wfeEffect narrow s) :=
  .ite (resCanonical_advanceOf narrow (canonical_of_store h rfl rfl))
    (waitOrTrap_canonical h (resCanonical_advanceOf narrow (canonical_beginWait _ h)))

theorem requestedReset_canonical (ro : SysReg → Bool) (all : List SysReg) (h : Canonical s) :
    ResCanonical (requestedReset ro all s) :=
  .ite (resCanonical_next (canonical_takeWarmReset _ _ h)) (resCanonical_refused _)

theorem suspend_canonical (narrow : Bool) (h : Canonical s) : ResCanonical (suspend narrow s) :=
  .ite (requestedReset_canonical _ _ h) (resCanonical_advanceOf narrow (canonical_beginWait _ h))

theorem wfiEffect_canonical (narrow : Bool) (h : Canonical s) : ResCanonical (wfiEffect narrow s) :=
  .ite (resCanonical_advanceOf narrow h) (waitOrTrap_canonical h (suspend_canonical narrow h))

theorem execWfet_canonical (rd : BitVec 5) (h : Canonical s) : ResCanonical (execWfet rd s) :=
  resCanonical_unless h (.ite (resCanonical_advance (canonical_of_store h rfl rfl))
    (.ite (resCanonical_advance h) (waitOrTrap_canonical h (resCanonical_advance (canonical_beginWait _ h)))))

theorem execWfit_canonical (rd : BitVec 5) (h : Canonical s) : ResCanonical (execWfit rd s) :=
  resCanonical_unless h (.ite (resCanonical_advance h)
    (waitOrTrap_canonical h (resCanonical_advance (canonical_beginWait _ h))))

/-! ### A32 -/

theorem ifCondOf_canonical (narrow : Bool) (cond : BitVec 4) (h : Canonical s) (hr : ResCanonical r) :
    ResCanonical (ifCondOf narrow cond s r) := .ite hr (resCanonical_advanceOf narrow h)

theorem ifCond_canonical (cond : BitVec 4) (h : Canonical s) (hr : ResCanonical r) : ResCanonical (ifCond cond s r) :=
  ifCondOf_canonical false cond h hr

theorem canonical_writeR (n : BitVec 4) (v : Half) (h : Canonical s) : Canonical (writeR n v s) :=
  canonical_ite h (canonical_writeX _ _ h)

theorem a32SimdGate_canonical (h : Canonical s) (hr : ResCanonical r) : ResCanonical (a32SimdGate s r) :=
  .ite (vecGate_canonical _ h hr) (resCanonical_unless h (.ite (resCanonical_raise _ h) hr))

theorem vmovl_canonical (w d : BitVec 1) (imm3H : BitVec 3) (vd : BitVec 4) (m : BitVec 1) (vm : BitVec 4)
    (h : Canonical s) : ResCanonical (vmovl w d imm3H vd m vm s) :=
  resCanonical_unless h (a32SimdGate_canonical h (resCanonical_advance (canonical_of_store h rfl rfl)))

theorem a32Move_canonical {trap : Option Result} (ht : TrapCanonical trap) (rs : List (BitVec 4))
    (hr : ResCanonical r) (s : State) : ResCanonical (a32Move trap rs s r) :=
  .ite (resCanonical_unpredictable ht _ s) (ht.getD hr)

theorem mrcOf_canonical {trap : Option Result} (ht : TrapCanonical trap) (rt : BitVec 4) (v : Half) (h : Canonical s) :
    ResCanonical (mrcOf trap rt v s) := by
  have hmove : ResCanonical (mrcTo rt v s) :=
    .ite (resCanonical_advance (canonical_of_store h rfl rfl)) (resCanonical_advance (canonical_writeR _ _ h))
  exact .ite (resCanonical_unpredictable ht _ s) (ht.getD hmove)

theorem execMcrPar_canonical (cond rt : BitVec 4) (h : Canonical s) : ResCanonical (execMcrPar cond rt s) := by
  have htrap : TrapCanonical (parTrap cond rt s) := .given (trapCanonical_raise _ h)
  have hmove (v : Half) : ResCanonical (mcrPar v s) := by
    unfold mcrPar
    dsimp only
    split
    · exact resCanonical_undefined h
    · exact resCanonical_advance (canonical_ite h h)
    · exact resCanonical_advance (canonical_ite h h)
  exact ifCond_canonical cond h (a32Move_canonical htrap _ (hmove _) s)

end

end Sys2Proof.Proofs
end

