-- ==== Sys2Proof/Proofs/CanonicalInstructions.lean ====
section
/-! Memory and tags are canonical after any instruction, and after any of the controls that trap it. -/

namespace Sys2Proof.Proofs

open Sys2Proof.Machine Sys2Proof.Safety Sys2Proof.Laws

section
variable {s t u : State} {r : Result}

/-! ### Allocation Tags -/

theorem stg_canonical (rn rt : BitVec 5) (addr : Word → Word) (writeback : Option (Word → Word)) (h : Canonical s) :
    ResCanonical (stg rn rt addr writeback s) := by
  refine resCanonical_unless h ((baseReg_canonical rn h).andThen fun base s1 h1 =>
    .ite (abortStep_canonical _ _ _ h1) ?_)
  refine (toAcc_canonical _ (locateBy_canonical _ _ _ _ h1)).andThen fun x s2 h2 => ?_
  have htag := canonical_storeTag x (field (readXSP rt s) 56 4) h2
  cases writeback with
  | none => exact resCanonical_advance htag
  | some f => exact resCanonical_advance (canonical_writeXSP _ _ htag)

theorem tagMultiple_canonical {d : AccDesc} {dev : OnDevice} {rn : BitVec 5}
    {part : Word → List Xlat → List Xlat → State → State} {far : AbortKind → Word → Word → State → Word}
    {k : Word → List Xlat → State → Result} (h : Canonical s)
    (hpart : ∀ b xs ts v, Canonical v → Canonical (part b xs ts v))
    (hk : ∀ b xs v, Canonical v → ResCanonical (k b xs v)) : ResCanonical (tagMultiple d dev rn s part far k) := by
  refine resCanonical_unless h ((baseReg_canonical rn h).andThen fun base s1 h1 => ?_)
  have hlocate := granules_canonical d dev (tagBlock s / 16) (alignDown base (tagBlock s)) h1
  split
  case h_1 hloc =>
    rw [hloc] at hlocate
    exact hk _ _ _ hlocate
  case h_2 hloc =>
    rw [hloc] at hlocate
    exact abortStep_canonical _ _ _ (hpart _ _ _ _ hlocate)

theorem execStzgm_canonical (rn rt : BitVec 5) (h : Canonical s) : ResCanonical (execStzgm rn rt s) :=
  tagMultiple_canonical h
    (fun _ _ _ _ hv => canonical_partialGranules (fun xs _ => canonical_zeroAndTag _ xs) _ _ _ _ hv)
    fun _ xs _ hv => resCanonical_advance (canonical_zeroAndTag _ xs hv)

theorem execStgm_canonical (rn rt : BitVec 5) (h : Canonical s) : ResCanonical (execStgm rn rt s) :=
  tagMultiple_canonical h
    (fun _ _ _ _ hv => canonical_partialGranules (fun xs _ => canonical_storeTagList _ _ xs) _ _ _ _ hv)
    fun _ xs _ hv => resCanonical_advance (canonical_storeTagList _ _ xs hv)

theorem execLdgm_canonical (rn rt : BitVec 5) (h : Canonical s) : ResCanonical (execLdgm rn rt s) :=
  tagMultiple_canonical h (fun _ _ _ _ hv => canonical_ite hv (canonical_spoilReg rt rn hv))
    fun _ _ _ hv => resCanonical_writeX _ _ hv

/-! ### Blocks and caches by address -/

theorem dczException_canonical (op2 : BitVec 3) (rt : BitVec 5) (h : Canonical s) :
    TrapCanonical (dczException op2 rt s) := .given (trapCanonical_raise _ h)

theorem withBlock_canonical {op2 : BitVec 3} {rt : BitVec 5} {d : AccDesc} {dev : OnDevice} {va : Word}
    {f : List Xlat → State → State} {tags : Bool} (hf : ∀ xs v, Canonical v → Canonical (f xs v)) (h : Canonical s) :
    ResCanonical (dczTrap op2 rt s (withBlock d dev va f tags s fun _ v => .next (advance v))) := by
  have hlocate := granules_canonical d dev (dcBlock s / 16) (alignDown va (dcBlock s)) h
  refine (dczException_canonical op2 rt h).getD ?_
  unfold withBlock
  dsimp only
  split
  case h_1 hloc =>
    rw [hloc] at hlocate
    exact resCanonical_advance (hf _ _ hlocate)
  case h_2 hloc =>
    rw [hloc] at hlocate
    exact abortStep_canonical _ _ _ (canonical_partialGranules hf _ _ _ _ hlocate)

theorem cacheByVa_canonical (cmow : Bool) (va : Word) {k : Xlat → State → State}
    (hk : ∀ x v, Canonical v → Canonical (k x v)) (h : Canonical s) : ResCanonical (cacheByVa cmow va s k) := by
  have htranslate := translate_canonical (cacheDesc cmow) va h
  unfold cacheByVa
  split
  case h_1 hloc =>
    rw [hloc] at htranslate
    exact resCanonical_advance (canonical_ite htranslate (hk _ _ htranslate))
  case h_2 hloc =>
    rw [hloc] at htranslate
    exact .ite (abortStep_canonical _ _ _ htranslate) (resCanonical_advance htranslate)

/-! ### TLBs, predictions and address translation -/

/-- A TLBI that may be UNDEFINED, and may be a NOP. -/
theorem tlbi_canonical {c : Prop} [Decidable c] {p : TLBEntry → Bool} (h : Canonical s) :
    ResCanonical (if c then undefined s else if tlbiReserved s then .next (advance s)
      else .next (advance (tlbInvalidate p s))) :=
  resCanonical_unless h (.ite (resCanonical_advance h) (resCanonical_advance (canonical_of_store h rfl rfl)))

theorem predRestrict_canonical (kind : PredKind) (v : Word) (h : Canonical s) : ResCanonical (predRestrict kind v s) :=
  resCanonical_advance (canonical_ite h h)

theorem addressTranslate_canonical (op : AtOp) (va : Word) (h : Canonical s) :
    ResCanonical (addressTranslate op va s) := by
  have hcontext : Canonical (atContext op s) := h
  have htranslate : LocCanonical (atTranslate op va s) := lookupWith_canonical _ _ _ hcontext
  have hmemory {t : State} (ht : Canonical t) : Canonical (atMemory t s) := ⟨ht.1, h.2⟩
  have hpar (v : Word) {t : State} (ht : Canonical t) :
      ResCanonical (.next (advance (setReg .PAR_EL1 v (atMemory t s)))) :=
    resCanonical_advance (canonical_of_store (hmemory ht) rfl rfl)
  unfold addressTranslate
  split
  case h_1 hloc =>
    rw [hloc] at htranslate
    exact hpar _ (canonical_faultUpdates _ htranslate)
  case h_2 hloc =>
    rw [hloc] at htranslate
    exact .ite (abortStep_canonical _ _ _ h) (hpar _ htranslate)

theorem execSys_canonical (op1 : BitVec 3) (crn crm : BitVec 4) (op2 : BitVec 3) (rt : BitVec 5) (h : Canonical s) :
    ResCanonical (execSys op1 crn crm op2 rt s) := by
  unfold execSys
  split
  · exact resCanonical_unless h (resCanonical_refused _)
  next o _ =>
    refine resCanonical_unless h ?_
    match o with
    | .cleanVa | .invalidateVa | .tagVa => exact cacheByVa_canonical _ _ (fun _ _ hv => hv) h
    | .icAll | .gptRange anyLevel | .gptAll => exact resCanonical_advance (canonical_of_store h rfl rfl)
    | .setWay => exact resCanonical_advance h
    | .at op => exact addressTranslate_canonical op _ h
    | .tlbi | .tlbiRange op el => exact resCanonical_advance (canonical_ite h h)

theorem execSysl_canonical (op1 : BitVec 3) (crn crm : BitVec 4) (op2 : BitVec 3) (rt : BitVec 5) (h : Canonical s) :
    ResCanonical (execSysl op1 crn crm op2 rt s) := resCanonical_unless h (resCanonical_writeX _ _ h)

/-! ### 64 bytes at once -/

theorem ls64Exception_canonical (k : Ls64) (h : Canonical s) : TrapCanonical (ls64Exception k s) := by
  unfold ls64Exception
  cases ls64Trap k s with
  | none => exact trapCanonical_none
  | some t => exact trapCanonical_raise _ h

theorem ls64Gate_canonical (k : Ls64) (rt : BitVec 5) (h : Canonical s) (hr : ResCanonical r) :
    ResCanonical (ls64Gate k rt s r) := resCanonical_unless h ((ls64Exception_canonical k h).getD hr)

theorem ls64Locate_canonical (d : AccDesc) (va : Word) (h : Canonical s) : LocCanonical (ls64Locate d va s) :=
  .ite h ((locateBy_canonical _ _ _ _ h).bind fun _ _ hv => hv)

theorem canonical_writeEight (rt : BitVec 5) (bs : List Byte) (big : Bool) (h : Canonical s) :
    Canonical (writeEight rt bs big s) := by
  unfold writeEight
  induction List.range 8 generalizing s with
  | nil => exact h
  | cons n l ih => exact ih (canonical_writeX _ _ h)

theorem execLd64b_canonical (rn rt : BitVec 5) (h : Canonical s) : ResCanonical (execLd64b rn rt s) :=
  ls64Gate_canonical _ rt h ((baseReg_canonical rn h).andThen fun _ _ h1 =>
    (toAcc_canonical _ (ls64Locate_canonical _ _ h1)).andThen fun xs _ h2 =>
      resCanonical_advance (canonical_writeEight _ _ _ (canonical_readLocs xs 0 h2)))

theorem storeEight_canonical {vs : List Word} {rn : BitVec 5} {k : List Xlat → State → State → Result}
    (h : Canonical s) (hk : ∀ xs v w, Canonical v → Canonical w → ResCanonical (k xs v w)) :
    ResCanonical (storeEight vs rn s k) :=
  (baseReg_canonical rn h).andThen fun _ _ h1 =>
    (toAcc_canonical _ (ls64Locate_canonical _ _ h1)).andThen fun xs s2 h2 =>
      hk xs s2 _ h2 (canonical_writeLocs xs _ h2)

theorem execSt64b_canonical (rn rt : BitVec 5) (h : Canonical s) : ResCanonical (execSt64b rn rt s) :=
  ls64Gate_canonical _ rt h (storeEight_canonical h fun _ _ _ _ hw => resCanonical_advance hw)

theorem storeStatus_canonical (vs : List Word) (rs rn : BitVec 5) (h : Canonical s) :
    ResCanonical (storeStatus vs rs rn s) :=
  storeEight_canonical h fun _ _ _ hv hw => resCanonical_writeX _ _ (canonical_ite hw hv)

/-! ### Exclusive and atomic accesses -/

theorem loadExclusive_canonical (rn rt : BitVec 5) (h : Canonical s) : ResCanonical (loadExclusive rn rt s) :=
  (baseReg_canonical rn h).andThen fun va _ h1 =>
    (toAcc_canonical _ (locateNth_canonical _ 8 0 va h1)).andThen fun xs _ h2 => by
      have hread := canonical_readLocs xs 0 h2
      cases xs with
      | nil => exact resCanonical_writeX _ _ hread
      | cons x xs => exact resCanonical_writeX _ _ (canonical_of_store hread rfl rfl)

theorem watched_canonical {α : Type} {m : Loc α} (d : AccDesc) (n : Nat) (va : Word) (h : LocCanonical m) :
    LocCanonical (m.watched d n va) := by
  cases m with
  | ok a v => exact h
  | fault k va' v =>
    unfold Loc.watched
    dsimp only
    split
    · split <;> exact h
    · exact h

theorem exclusiveLocate_canonical (n : Nat) (rn : BitVec 5) (va : Word) (h : Canonical s) :
    AccCanonical (exclusiveLocate n rn va s) :=
  toAcc_canonical _ (.ite (m := .fault .alignment va s) h (watched_canonical _ _ _ (lookupWith_canonical _ _ _ h)))

theorem storeExclusive_canonical {w : Nat} (n : Nat) (data : BitVec w) (clash : Bool) (rs rn : BitVec 5)
    (h : Canonical s) : ResCanonical (storeExclusive n data clash rs rn s) :=
  .ite (resCanonical_unpredictable (baseException_canonical rn h) _ s)
    ((baseReg_canonical rn h).andThen fun va _ h1 =>
      (exclusiveLocate_canonical n rn va h1).andThen fun _ _ h2 =>
        .ite
          (AccCanonical.andThen (toAcc_canonical _ (locateBy_canonical _ _ _ _ h2)) fun _ _ h3 =>
            resCanonical_writeX _ _ (canonical_of_store (canonical_writeLocs _ _ h3) rfl rfl))
          (resCanonical_writeX _ _ (canonical_of_store (canonical_commit _ h2) rfl rfl)))

theorem atomicEffect_canonical (op : AtomicOp) (size : BitVec 2) (rs rn rt : BitVec 5) (h : Canonical s) :
    ResCanonical (atomicEffect op size rs rn rt s) :=
  (baseReg_canonical rn h).andThen fun va _ h1 =>
    (toAcc_canonical _ (locateNth_canonical _ _ 0 va h1)).andThen fun xs s2 h2 => by
      have hread := canonical_readLocs xs 0 h2
      have hstore {c : Prop} [Decidable c] (bs : List Byte) :
          Canonical (if c then writeLocs xs bs (readLocs xs 0 s2).2 else (readLocs xs 0 s2).2) :=
        canonical_ite (canonical_writeLocs xs bs hread) hread
      exact resCanonical_writeX _ _ (canonical_ite (canonical_countEvent _ (hstore _)) (hstore _))

/-! ### The classes without a row of their own -/

theorem ldgEffect_canonical (imm9 : BitVec 9) (rn rt : BitVec 5) (h : Canonical s) :
    ResCanonical (ldgEffect imm9 rn rt s) :=
  (baseReg_canonical rn h).andThen fun _ _ h1 =>
    (toAcc_canonical _ (locateBy_canonical _ _ _ _ h1)).andThen fun _ _ h2 => resCanonical_writeX _ _ h2

theorem canonical_writePair (rt rt2 : BitVec 4) (v : Word) (h : Canonical s) : Canonical (writePair rt rt2 v s) :=
  canonical_writeR _ _ (canonical_writeR _ _ h)

theorem canonical_countOnce (event : BitVec 16) (key : SysReg × Nat) (h : Canonical s) :
    Canonical (countOnce event key s) :=
  have hcount := canonical_countEvent event h
  canonical_ite (canonical_ite hcount h) hcount

theorem canonical_writeTtbr (one : Bool) (f : Word → Word) (h : Canonical s) : Canonical (writeTtbr one f s) := by
  unfold writeTtbr
  dsimp only
  split
  · exact canonical_countOnce _ _ h
  · exact canonical_countWrite _ (canonical_writeReg _ _ h)

theorem mcrrTtbr_canonical (one : Bool) (rt rt2 : BitVec 4) (h : Canonical s) : ResCanonical (mcrrTtbr one rt rt2 s) :=
  a32Move_canonical trapCanonical_none _ (resCanonical_unless h (resCanonical_advance (canonical_writeTtbr _ _ h))) s

theorem pmuA32Trap_canonical (q : SysReg) (write : Bool) (h : Canonical s) : TrapCanonical (pmuA32Trap q write s) := by
  unfold pmuA32Trap
  split
  · exact trapCanonical_raise _ h
  · exact trapCanonical_none

theorem mcrPmcr_canonical (rt : BitVec 4) (h : Canonical s) : ResCanonical (mcrPmcr rt s) :=
  a32Move_canonical (pmuA32Trap_canonical _ _ h) _
    (resCanonical_advance (canonical_writeReg _ _ (canonical_pmcrResets _ h))) s

theorem cntvctTrap_canonical (cond rt rt2 : BitVec 4) (h : Canonical s) : TrapCanonical (cntvctTrap cond rt rt2 s) :=
  .ite (trapCanonical_some (resCanonical_unless h (resCanonical_raise _ h))) (.given (trapCanonical_raise _ h))

theorem mrrcCntvct_canonical (cond rt rt2 : BitVec 4) (h : Canonical s) : ResCanonical (mrrcCntvct cond rt rt2 s) :=
  a32Move_canonical (cntvctTrap_canonical _ _ _ h) _ (resCanonical_advance (canonical_writePair _ _ _ h)) s

theorem mrrcCntvoff_canonical (rt rt2 : BitVec 4) (h : Canonical s) : ResCanonical (mrrcCntvoff rt rt2 s) :=
  a32Move_canonical trapCanonical_none _
    (resCanonical_unless h (resCanonical_advance (canonical_writePair _ _ _ h))) s

theorem mcrrCntvoff_canonical (rt rt2 : BitVec 4) (h : Canonical s) : ResCanonical (mcrrCntvoff rt rt2 s) :=
  a32Move_canonical trapCanonical_none _
    (resCanonical_unless h (resCanonical_advance (canonical_writeReg _ _ h))) s

theorem mrcIsr_canonical (rt : BitVec 4) (h : Canonical s) : ResCanonical (mrcIsr rt s) :=
  resCanonical_unless h (mrcOf_canonical trapCanonical_none rt _ h)

theorem a32NamedTrap_canonical (n : A32Name) (write : Bool) (h : Canonical s) :
    TrapCanonical (a32NamedTrap n write s) := by
  unfold a32NamedTrap
  split
  · exact .given (trapCanonical_raise _ h)
  · exact pmuA32Trap_canonical _ _ h
  · exact trapCanonical_none

theorem mrcNamed_canonical (n : A32Name) (rt : BitVec 4) (h : Canonical s) : ResCanonical (mrcNamed n rt s) :=
  resCanonical_unless h (mrcOf_canonical (a32NamedTrap_canonical _ _ h) rt _ h)

theorem a32Written_canonical {n : A32Name} {v : Half} (h : Canonical s) (hwritten : a32Written n v s = some t) :
    Canonical t := by
  cases n <;> cases hwritten
  case contextidr => exact canonical_countWrite _ (canonical_writeReg _ _ h)
  case pmccntr => exact h
  case cntkctl | fpexc => exact canonical_writeReg _ _ h
  case ttbr0 | ttbr1 => exact canonical_writeTtbr _ _ h
  all_goals exact canonical_writeCtl _ _ h

theorem mcrNamed_canonical (n : A32Name) (rt : BitVec 4) (h : Canonical s) : ResCanonical (mcrNamed n rt s) := by
  refine resCanonical_unless h (a32Move_canonical (a32NamedTrap_canonical _ _ h) _ ?_ s)
  split
  next hwritten => exact resCanonical_advance (a32Written_canonical h hwritten)
  next => exact resCanonical_undefined h

theorem a32FpGate_canonical (h : Canonical s) (hr : ResCanonical r) : ResCanonical (a32FpGate s r) :=
  .ite (vecGate_canonical _ h hr) (resCanonical_unless h hr)

theorem eretA32_canonical (h : Canonical s) : ResCanonical (eretA32 s) :=
  resCanonical_notHalted trapCanonical_none (resCanonical_unless h
    (.ite (returnTo_canonical _ h) (.ite (returnTo_canonical _ h) (resCanonical_refused _)))) s

theorem sveAnyException_canonical (h : Canonical s) : TrapCanonical (sveAnyException s) :=
  .ite (trapCanonical_some (resCanonical_undefined h)) (vecException_canonical _ h)

theorem fpSizeException_canonical (size : BitVec 2) {o : Option Result} (h : Canonical s) (ho : TrapCanonical o) :
    TrapCanonical (fpSizeException size o s) := .ite (trapCanonical_some (resCanonical_undefined h)) ho

theorem extraException_canonical (e : ExtraInstr) (h : Canonical s) : TrapCanonical (extraException e s) := by
  have hundefined : TrapCanonical (some (undefined s)) := trapCanonical_some (resCanonical_undefined h)
  unfold extraException
  split
  case h_1 | h_3 => exact sveAnyException_canonical h
  case h_2 | h_4 | h_5 => exact sveException_canonical _ h
  case h_6 | h_7 => exact fpSizeException_canonical _ h (sveAnyException_canonical h)
  case h_8 => exact fpSizeException_canonical _ h (.ite (sveAnyException_canonical h) hundefined)
  case h_9 => exact .ite (vecException_canonical _ h) hundefined
  case h_10 => exact vecException_canonical _ h
  case h_18 => exact .ite trapCanonical_none hundefined
  case h_19 => exact trapCanonical_none
  all_goals exact fpSizeException_canonical _ h (vecException_canonical _ h)

/-- Each class by its kind: SVE memory accesses, instructions on elements, single registers, A32 moves. -/
theorem extraEffect_canonical (e : ExtraInstr) (h : Canonical s) : ResCanonical (extraEffect e s) := by
  cases e with
  | sveLoad kind _ _ _ _ _ _ _ =>
    cases kind with
    | regular => exact sveLoadRegular_canonical _ _ _ h
    | firstFault => exact sveLoadFirstFault_canonical _ _ _ h
    | nonFault => exact sveLoadNonFault_canonical _ _ _ h
  | sveStore => exact sveStoreEffect_canonical _ _ h
  | ld1ro => exact ld1roEffect_canonical _ _ h
  | permuteQ | fsign | scalarH | frinta => exact resCanonical_advance (canonical_of_store h rfl rfl)
  | svePred | sveImm => exact resCanonical_advance (canonical_svePredElems _ _ _ _ _ h)
  | svePair | across =>
    exact resCanonical_advance
      (canonical_countReduction _ (canonical_elemFlags _ _ (canonical_of_store h rfl rfl)))
  | vector => exact resCanonical_advance (canonical_writeFpElems _ _ _ _ h)
  | pairVector | pairScalar =>
    exact resCanonical_advance (canonical_countReduction _ (canonical_writeFpElems _ _ _ _ h))
  | sme => exact resCanonical_refused _
  | fcvta => exact resCanonical_advance (canonical_of_store (canonical_writeX _ _ h) rfl rfl)
  | orrW => exact resCanonical_writeX _ _ h
  | atomic => exact atomicEffect_canonical _ _ _ _ _ h
  | prfm => exact resCanonical_advance h
  | ldg => exact ldgEffect_canonical _ _ _ h
  | rctxA32 => exact ifCond_canonical _ h (a32Move_canonical trapCanonical_none _ (predRestrict_canonical _ _ h) s)
  | mcrrTtbr => exact ifCond_canonical _ h (mcrrTtbr_canonical _ _ _ h)
  | mrrcCntvct => exact ifCond_canonical _ h (mrrcCntvct_canonical _ _ _ h)
  | mrrcCntvoff => exact ifCond_canonical _ h (mrrcCntvoff_canonical _ _ h)
  | mcrrCntvoff => exact ifCond_canonical _ h (mcrrCntvoff_canonical _ _ h)
  | mrcIsr => exact ifCond_canonical _ h (mrcIsr_canonical _ h)
  | mrcPmcr => exact ifCond_canonical _ h (mrcOf_canonical (pmuA32Trap_canonical _ _ h) _ _ h)
  | mcrPmcr => exact ifCond_canonical _ h (mcrPmcr_canonical _ h)
  | mrcNamed => exact ifCond_canonical _ h (mrcNamed_canonical _ _ h)
  | mcrNamed => exact ifCond_canonical _ h (mcrNamed_canonical _ _ h)
  | vcvtBf16 =>
    exact ifCond_canonical _ h (a32FpGate_canonical h (resCanonical_advance (canonical_of_store h rfl rfl)))
  | vcvtBf16Vec =>
    exact resCanonical_unless h (a32SimdGate_canonical h (resCanonical_advance (canonical_of_store h rfl rfl)))
  | wfeA32 => exact ifCondOf_canonical _ _ h (wfeEffect_canonical _ h)
  | wfiA32 => exact ifCondOf_canonical _ _ h (wfiEffect_canonical _ h)
  | eretA32 => exact ifCond_canonical _ h (eretA32_canonical h)

theorem execExtra_canonical (e : ExtraInstr) (h : Canonical s) : ResCanonical (execExtra e s) :=
  (extraException_canonical e h).getD (extraEffect_canonical e h)

/-! ### The table -/

theorem sysAccess_canonical {i : Instr} {sel : BitVec 15} {rt : BitVec 5} {write : Bool}
    (hi : sysAccessOf i = some (sel, rt, write)) (h : Canonical s) : ResCanonical (exec i s) :=
  exec_of_sysAccessOf hi s ▸ .ite (writeSys_canonical sel rt h) (readSys_canonical sel rt h)

theorem branch_canonical (target : Word) (b : BitVec 2) (h : Canonical s) :
    ResCanonical (notHalted none s (.next (branchTo target b s))) :=
  have hbranch : Canonical (branchTo target b s) := h
  resCanonical_notHalted trapCanonical_none (resCanonical_next hbranch) s

/-- After any instruction that goes on memory and tags are canonical. -/
theorem exec_canonical (i : Instr) (h : Canonical s) : ResCanonical (exec i s) := by
  have hsame {t : State} (ht : t.mem = s.mem ∧ t.tags = s.tags) : ResCanonical (.next (advance t)) :=
    resCanonical_advance (canonical_of_store h ht.1 ht.2)
  cases i with
  | nop | csdb | bti | btiC | btiJ | btiJC | sb | dmb | csdbA32 | csdbT32 | sbA32 | sbT32 => exact resCanonical_advance h
  | wfe => exact wfeEffect_canonical _ h
  | wfi => exact wfiEffect_canonical _ h
  | wfet => exact execWfet_canonical _ h
  | wfit => exact execWfit_canonical _ h
  | pacia1716 | pacib1716 | paciaz | paciasp | pacibz | pacibsp | pacia | pacib | pacda | pacdb | paciza | pacizb | pacdza
  | pacdzb => exact pacInsert_canonical _ _ _ _ h
  | autia1716 | autib1716 | autiaz | autiasp | autibz | autibsp | autia | autib | autda | autdb | autiza | autizb | autdza
  | autdzb => exact pacCheck_canonical _ _ _ _ h
  | pacga => exact execPacga_canonical _ _ _ h
  | isb | clrex => exact hsame (by simp)
  | dsb | dsbNXS => exact resCanonical_advance (canonical_ite h h)
  | msrDaifSetImm | msrDaifClrImm => exact daifAccess_canonical _ _ h (hsame ⟨rfl, rfl⟩)
  | msrSsbsImm | msrDitImm => exact resCanonical_notHalted trapCanonical_none (hsame (by simp)) s
  | msrTcoImm => exact resCanonical_unless h (resCanonical_notHalted trapCanonical_none (hsame (by simp)) s)
  | msrSpselImm => exact resCanonical_notHalted trapCanonical_none (resCanonical_unless h (hsame (by simp))) s
  | mrs | mrsRndr | mrsRndrrs | mrsCntpctEl0 | mrsCntvctEl0 | mrsCntpctssEl0 | mrsCntvctssEl0 | mrsIdAa64smfr0El1
  | mrsCcsidrEl1 | mrsIsrEl1 | mrsNzcv | mrsDaif | mrsDit | mrsRmrEl1 | mrsRmrEl2 | mrsRmrEl3 | msr | msrNzcv | msrDaif
  | msrDit | msrRmrEl1 | msrRmrEl2 | msrRmrEl3 => exact sysAccess_canonical rfl h
  | sys => exact execSys_canonical _ _ _ _ _ h
  | sysl => exact execSysl_canonical _ _ _ _ _ h
  | dcZva => exact withBlock_canonical (fun xs _ => canonical_zeroGranules xs) h
  | dcGva => exact resCanonical_unless h (withBlock_canonical (fun xs _ => canonical_storeTags _ xs) h)
  | dcGzva => exact resCanonical_unless h (withBlock_canonical (fun xs _ => canonical_zeroAndTag _ xs) h)
  | dcCivac | icIvau => exact cacheByVa_canonical _ _ (fun _ _ hv => canonical_of_store hv rfl rfl) h
  | dcCigvac | dcCigdvac =>
    exact .ite (cacheByVa_canonical _ _ (fun _ _ hv => canonical_of_store hv rfl rfl) h) (resCanonical_undefined h)
  | dcCipae | dcCigdpae | tlbiRpaos => exact resCanonical_unless h (hsame ⟨rfl, rfl⟩)
  | tlbiAlle1 | tlbiAlle1nxs | tlbiRvae1 | tlbiRvaae1 | tlbiRipas2e1 => exact tlbi_canonical h
  | cfpRctx | dvpRctx | cppRctx => exact predRestrict_canonical _ _ h
  | atS1e1r => exact resCanonical_unless h (addressTranslate_canonical _ _ h)
  | ret | b => exact branch_canonical _ _ h
  | retaa | retab => exact returnAuth_canonical _ h
  | braaz | brabz | braa | brab => exact branchAuth_canonical _ _ _ h
  | blraaz | blrabz | blraa | blrab => exact linkAuth_canonical _ _ _ h
  | cbzX | cbnzX | cbzW | cbnzW | bCond => exact branchIf_canonical _ _ h
  | eret => exact execEret_canonical h
  | eretaa | eretab => exact eretAuth_canonical _ _ h
  | drps => exact execDrps_canonical h
  | svc | brk => exact resCanonical_raise _ h
  | hvc => exact execHvc_canonical _ h
  | smc => exact execSmc_canonical _ h
  | hlt imm16 => exact execHlt_canonical imm16 h
  | stgOffset | stgPost | stgPre => simp only [exec, execStgOffset, execStgPost, execStgPre, stg_canonical _ _ _ _ h]
  | stzgm => exact execStzgm_canonical _ _ h
  | stgm => exact execStgm_canonical _ _ h
  | ldgm => exact execLdgm_canonical _ _ h
  | ldra => exact execLdra_canonical _ _ _ _ _ _ h
  | ld64b => exact execLd64b_canonical _ _ h
  | st64b => exact execSt64b_canonical _ _ h
  | st64bv | st64bv0 => exact ls64Gate_canonical _ _ h (storeStatus_canonical _ _ _ h)
  | ldxr | ldaxr => exact loadExclusive_canonical _ _ h
  | stxrb | stlxrb | stxrh | stlxrh | stxrW | stlxrW | stxrX | stlxrX | stxpW | stlxpW | stxpX | stlxpX =>
    exact storeExclusive_canonical _ _ _ _ _ h
  | movzX | orrX | movzW => exact resCanonical_writeX _ _ h
  | addX | subX | addW | subW => exact resCanonical_advance (canonical_writeXSP _ _ h)
  | subsX | subsW => exact resCanonical_advance (canonical_of_store (canonical_writeX _ _ h) rfl rfl)
  | strX => exact execStrX_canonical _ _ _ h
  | ldrX => exact execLdrX_canonical _ _ _ h
  | ldrXPre => exact execLdrXPre_canonical _ _ _ h
  | movprfx => exact execMovprfx_canonical _ _ h
  | movprfxPred => exact execMovprfxPred_canonical _ _ _ _ _ h
  | fmmlaS => exact execFmmlaS_canonical _ _ _ h
  | fmmlaD => exact execFmmlaD_canonical _ _ _ h
  | fmaxS | fmaxD | fminS | fminD | fmaxnmS | fmaxnmD | fminnmS | fminnmD => exact fpScalar_canonical _ _ _ _ _ h
  | vmovlA32 | vmovlT32 => exact vmovl_canonical _ _ _ _ _ _ h
  | mrcDbgdscrint => exact ifCond_canonical _ h (mrcOf_canonical trapCanonical_none _ _ h)
  | mcrPar => exact execMcrPar_canonical _ _ h

theorem execCode_canonical (c : Code) (h : Canonical s) : ResCanonical (execCode c s) := by
  cases c with
  | base i => exact exec_canonical i h
  | extra e => exact execExtra_canonical e h

/-! ### Controls -/

theorem sysControl_canonical (sel : BitVec 15) (rt : BitVec 5) (write : Bool) (h : Canonical s) :
    TrapCanonical (sysControl sel rt write s) := by
  unfold sysControl
  split
  · exact permissionTrap_canonical _ _ _ _ h
  · exact .given (trapCanonical_some (sysTrap_canonical _ _ _ _ h))

theorem ownControl_canonical (i : Instr) (h : Canonical s) : TrapCanonical (ownControl i s) := by
  have hwait {c : Prop} [Decidable c] {event : Bool} {ti : BitVec 2} {reg : Option (BitVec 5)} :
      TrapCanonical (if c then none else waitException false event ti reg s) :=
    .ite trapCanonical_none (waitException_canonical _ _ _ _ h)
  have hbase (k : Ls64) (rn : BitVec 5) : TrapCanonical ((ls64Exception k s).or (baseException rn s)) :=
    (ls64Exception_canonical k h).orElse (baseException_canonical rn h)
  cases i with
  | wfe | wfi | wfet | wfit => exact hwait
  | msrDaifSetImm | msrDaifClrImm => exact daifTrap_canonical _ _ h
  | dcZva => exact dczException_canonical _ _ h
  | dcGva | dcGzva => exact .given (dczException_canonical _ _ h)
  | pacga => exact .given (trapCanonical_raise _ h)
  | eret => exact eretTrap_canonical 0 h
  | eretaa | eretab => exact (eretTrap_canonical _ h).orElse (pacTrap_canonical _ h)
  | ldra => exact (baseException_canonical _ h).orElse (pacTrap_canonical _ h)
  | ld64b | st64b | st64bv | st64bv0 => exact hbase ..
  | movprfx | movprfxPred => exact .given (vecException_canonical _ h)
  | fmmlaS => exact sveException_canonical false h
  | fmmlaD => exact sveException_canonical true h
  | fmaxS | fmaxD | fminS | fminD | fmaxnmS | fmaxnmD | fminnmS | fminnmD => exact vecException_canonical [.fp] h
  | _ => exact trapCanonical_none

theorem controlException_canonical (c : Code) (h : Canonical s) : TrapCanonical (controlException c s) := by
  cases c with
  | base i =>
    exact (ownControl_canonical i h).orElse ((TrapCanonical.bind fun k => pacTrap_canonical k h).orElse
      ((TrapCanonical.bind fun _ => sysControl_canonical _ _ _ h).orElse
        (.bind fun rn => baseException_canonical rn h)))
  | extra e => exact extraException_canonical e h

theorem pairException_canonical (c : Code) (h : Canonical s) : TrapCanonical (pairException c s) := by
  unfold pairException
  split
  · exact sveException_canonical false h
  · exact sveException_canonical true h
  · exact trapCanonical_none
  · exact extraException_canonical _ h

end

end Sys2Proof.Proofs
end

