-- ==== Sys2Proof/Proofs/CanonicalStep.lean ====
section
/-! Memory and tags are canonical after every step, of the PE or of another agent. -/

namespace Sys2Proof.Proofs

open Sys2Proof.Machine Sys2Proof.Safety Sys2Proof.Laws

section
variable {s t u : State} {r : Result}

/-! ### After a MOVPRFX -/

theorem canonical_unitState (h : Canonical s) : Canonical (unitState s) := by
  unfold unitState
  split
  · exact canonical_ite h h
  · exact h

theorem withPrefix_canonical (c : Code) (h : Canonical s) :
    ResCanonical (withPrefix c (pairException c) (controlException c) s (execCode c)) := by
  have hpair : ResCanonical (runPair (pairException c) (execCode c) s) := by
    unfold runPair
    split
    next q he => exact (pairException_canonical c (canonical_unitState h)).taken q he
    next => exact execCode_canonical c (canonical_of_store h rfl rfl)
  unfold withPrefix
  split
  · exact execCode_canonical c h
  · exact .ite hpair (resCanonical_unpredictable (controlException_canonical c h) _ s)

/-! ### Fetch -/

theorem debugException_canonical (ec : BitVec 6) (h : Canonical s) : ResCanonical (debugException ec s) :=
  resCanonical_raise _ h

theorem breakpointEvent_canonical (h : Canonical s) : TrapCanonical (breakpointEvent s) := by
  have hunit := canonical_unitState h
  unfold breakpointEvent
  exact .ite (.ite (trapCanonical_some (resCanonical_next (canonical_halt _ _ hunit)))
      (.given (trapCanonical_some (debugException_canonical _ hunit))))
    (.given (trapCanonical_raise _ h))

theorem decodeCode_canonical (isa : ISA) (bs : List Byte) (h : Canonical s) : AccCanonical (decodeCode isa bs s) := by
  unfold decodeCode
  split
  · exact h
  · exact resCanonical_undefined h
  · split
    · exact h
    · exact .ite (m := .stop _) (n := .stop _) (resCanonical_undefined h) (resCanonical_refused _)

theorem fetchUnit_canonical (n : Nat) (va : Word) (h : Canonical s) : LocCanonical (fetchUnit n va s) :=
  (locateBy_canonical _ _ _ _ h).bind fun _ _ hv => hv

theorem fetchLocs_canonical (h : Canonical s) : LocCanonical (fetchLocs s) :=
  .ite ((fetchUnit_canonical _ _ h).bind fun xs v hv =>
    .ite (m := .ok xs v) hv ((fetchUnit_canonical _ _ hv).bind fun _ _ hw => hw)) (fetchUnit_canonical _ _ h)

theorem fetchInstr_canonical (h : Canonical s) : AccCanonical (fetchInstr s) := by
  refine (toAcc_canonical _ (fetchLocs_canonical h)).bind fun xs u hu => ?_
  split
  next q he => exact (breakpointEvent_canonical hu).taken q he
  next =>
    exact .ite (m := .stop _) (resCanonical_refused _) ((decodeCode_canonical _ _ hu).bind fun _ _ hv => hv)

/-! ### The step of the PE -/

theorem endSoftStep_canonical (s : State) (hr : ResCanonical r) : ResCanonical (endSoftStep s r) := by
  cases r with
  | next t =>
    have ht := hr.next t rfl
    simp only [endSoftStep]
    split
    · exact resCanonical_next (canonical_of_store ht rfl rfl)
    · exact hr
  | _ => exact hr

theorem showDebugState_canonical (hr : ResCanonical r) : ResCanonical (showDebugState r) := by
  cases r with
  | next t => exact resCanonical_next (canonical_updateEDSCRFields (hr.next t rfl))
  | _ => exact hr

theorem stepInstr_canonical (h : Canonical s) : ResCanonical (stepInstr s) := by
  have hrun : ResCanonical ((fetchInstr s).andThen fun cg v => beforeInstr cg.1 cg.2 v fun w =>
      withPrefix cg.1 (pairException cg.1) (controlException cg.1) w (execCode cg.1)) :=
    (fetchInstr_canonical h).andThen fun cg _ hv => .ite (resCanonical_raise _ hv) (withPrefix_canonical cg.1 hv)
  exact endSoftStep_canonical s (.ite (debugException_canonical _ h)
    (.ite (resCanonical_raise _ h) (.ite (resCanonical_raise _ h) hrun)))

theorem mayReset_canonical {k : State → Result} (h : Canonical s) (hk : ResCanonical (k s)) :
    ResCanonical (mayReset s k) := .ite (requestedReset_canonical _ _ h) hk

theorem stepRun_canonical (h : Canonical s) : ResCanonical (stepRun s) := by
  unfold stepRun beforeStep
  refine mayReset_canonical h ?_
  dsimp only
  split
  · exact takeInterrupt_canonical _ (canonical_of_store h rfl rfl)
  · split
    next w _ =>
      rw [waitOn_eq]
      exact resCanonical_next h
    next => exact stepInstr_canonical h

theorem stepDebug_canonical (h : Canonical s) : ResCanonical (stepDebug s) := by
  refine mayReset_canonical h ?_
  dsimp only
  split
  · exact resCanonical_next h
  next w rest _ =>
    have hitr : Canonical { s with dbg := { s.dbg with itr := rest } } := h
    split
    next c _ => exact showDebugState_canonical (withPrefix_canonical c hitr)
    next => exact .ite (showDebugState_canonical (resCanonical_undefined hitr)) (resCanonical_refused _)

theorem stepPe_canonical (h : Canonical s) : ResCanonical (stepPe s) :=
  .ite (stepDebug_canonical h) (stepRun_canonical h)

/-! ### The steps of other agents -/

theorem canonical_extWrite (r : ExtReg) (v : Word) (h : Canonical s) : Canonical (extWrite r v s) := by
  rw [extWrite_eq]
  exact h

theorem canonical_writeFrameReg (r : FrameReg) (v : Word) (h : Canonical s) : Canonical (writeFrameReg r v s) := by
  rw [writeFrameReg_eq]
  exact h

theorem canonical_afterExtRead (r : ExtReg) (h : Canonical s) : Canonical (afterExtRead r s) := by
  rw [afterExtRead_eq]
  exact h

theorem canonical_afterAgentRead (q : FrameReg) (sp : Space) (h : Canonical s) :
    Canonical (afterAgentRead q sp s) := by
  unfold afterAgentRead
  split
  · exact canonical_ite (canonical_afterExtRead _ h) h
  · exact h

theorem canonical_setCorePower (on : Bool) (h : Canonical s) : Canonical (setCorePower on s) :=
  canonical_ite h (canonical_ite h h)

theorem canonical_setInterrupts (i : Interrupts) (h : Canonical s) : Canonical (setInterrupts i s) :=
  canonical_ite (canonical_updateEDSCRFields (canonical_of_store h rfl rfl)) h

/-- Another observer writes a byte of memory or a register frame, and takes a monitor. -/
theorem canonical_observerWrite (key : Nat) (b : Byte) (h : Canonical s) : Canonical (observerWrite key b s) := by
  have hbyte : Canonical (observedByte key b s) := by
    unfold observedByte
    split
    · exact canonical_writeFrameByte _ _ _ _ h
    · exact canonical_writeByte _ _ h
  exact canonical_of_store hbyte rfl rfl

theorem canonical_recordException (n : Fin 32) (src tgt inf : Word) (h : Canonical s) :
    Canonical (recordException n src tgt inf s) := by
  unfold recordException
  split <;> exact h

theorem canonical_bufferWrite (access : Access) (bs : List Byte) (ptr : Word) (h : Canonical s) :
    Canonical (bufferWrite access bs ptr s).2.2 := by
  induction bs generalizing ptr s with
  | nil => exact h
  | cons b bs ih =>
    have hlocate : LocCanonical (locate (bufferDesc access) 1 ptr false s) := locateBy_canonical _ _ _ _ h
    rw [bufferWrite]
    split
    next hloc =>
      rw [hloc] at hlocate
      exact ih _ (canonical_writeLoc _ _ hlocate)
    next hloc =>
      rw [hloc] at hlocate
      exact hlocate

theorem canonical_writeProfile (bytes : List Byte) (h : Canonical s) : Canonical (writeProfile bytes s) :=
  canonical_ite h (canonical_of_store (canonical_bufferWrite .profile bytes (ireg s .PMBPTR_EL1) h) rfl rfl)

theorem canonical_profileSample (p : SpeSample) (h : Canonical s) : Canonical (profileSample p s) := by
  unfold profileSample
  split
  · split
    · exact canonical_writeProfile _ h
    · exact h
  · exact h

theorem canonical_writeTrace (bytes : List Byte) (h : Canonical s) : Canonical (writeTrace bytes s) :=
  canonical_ite h (canonical_of_store (canonical_bufferWrite .trace bytes (ireg s .TRBPTR_EL1) h) rfl rfl)

theorem canonical_countStall (slot available accepts : Bool) (h : Canonical s) :
    Canonical (countStall slot available accepts s) := by
  have hbackend {c : Prop} [Decidable c] (e : BitVec 16) : Canonical (if c then countEvent e s else s) :=
    canonical_ite (canonical_countEvent e h) h
  exact canonical_ite (hbackend _) (canonical_countEvent _ (hbackend _))

/-- After an event of another agent memory and tags are canonical: a byte written by an observer and the records of the buffers
reach memory, nothing else does. -/
theorem canonical_agentEffect (e : AgentEvent) (h : Canonical s) : Canonical (agentEffect e s) := by
  have hanswered (w : Option Word) {v : State} (hv : Canonical v) : Canonical (answered w v) := hv
  cases e with
  | pe | itr | debugInputs | debugEvents | wakeUp | inject | captureTimestamp | error => exact h
  | haltRequest => exact canonical_ite (canonical_halt _ _ (canonical_unitState h)) h
  | restart => exact canonical_ite (canonical_exitDebugState h) h
  | extRead => exact hanswered _ (canonical_afterExtRead _ h)
  | extWrite => exact hanswered _ (canonical_extWrite _ _ h)
  | frameRead => exact hanswered _ (canonical_afterAgentRead _ _ h)
  | frameWrite => exact hanswered _ (canonical_ite (canonical_writeFrameReg _ _ h) h)
  | corePower => exact canonical_setCorePower _ h
  | interrupts => exact canonical_setInterrupts _ h
  | observerWrite => exact canonical_observerWrite _ _ h
  | branch => exact canonical_ite h h
  | exception => exact canonical_recordException _ _ _ _ h
  | profile => exact canonical_profileSample _ h
  | trace => exact canonical_writeTrace _ h
  | l2dTlb => exact canonical_countEvent _ (canonical_countEvent _ h)
  | speculated => exact canonical_countReduction _ h
  | speculatedSve | snoop => exact canonical_ite (canonical_countEvent _ h) h
  | stall => exact canonical_countStall _ _ _ h
  | microarchitectural => exact canonical_ite h (canonical_countEvent _ h)
  | otherPE =>
    refine canonical_of_store h ?_ ?_ <;> simp only [agentEffect] <;> rw [countOther_eq]

/-! ### The whole step -/

theorem stepBody_canonical (h : Canonical s) : ResCanonical (stepBody s) := by
  unfold stepBody
  split
  · exact stepPe_canonical h
  · exact stepPe_canonical (canonical_of_store h rfl rfl)
  · exact resCanonical_next (canonical_agentEffect _ (canonical_of_store h rfl rfl))

end

/-- Settles O2: what ends a step keeps the canonical form (`stepBody_canonical`), the counters reach neither memory nor tags, and a
step that has run off the top does not go on. -/
theorem stepKeepsCanonical : Obligations.StepKeepsCanonical := by
  unfold Obligations.StepKeepsCanonical
  intro s t h hstep
  obtain ⟨u, hbody, htop, hafter⟩ := step_next hstep
  obtain ⟨v, hnext, heq, -, -⟩ := afterStep_next htop
  obtain rfl : v = t := by
    rw [hnext] at hafter
    exact Host.Outcome.next.inj hafter
  rw [heq]
  exact ⟨(stepBody_canonical h).next u hbody, htop⟩

end Sys2Proof.Proofs
end

