-- ==== Sys2Proof/Proofs/Hints.lean ====
section
/-! The hints, which do nothing but move on, and the prediction restrictions, which drop predictions. -/

namespace Sys2Proof.Proofs

open Sys2Proof.Machine Sys2Proof.Safety Sys2Proof.Laws

section
variable {i : Instr} {s : State} {k : PredKind} {v : Word} {p : Prediction}

/-- The predictions a restriction keeps: those not of its kind, or not of the level, Security state and context named. -/
theorem mem_restrictPredictions : p ∈ (restrictPredictions k v s).predictions ↔ p ∈ s.predictions ∧
    ¬(p.kind = k ∧ elNum p.el = (field v 24 2).toNat ∧ p.space = Config.rctxSpace v ∧
      Config.rctxContext v p.space p.addr = true) := by
  simp only [restrictPredictions, List.mem_filter, Bool.not_eq_true', ← Bool.not_eq_true, Bool.and_eq_true, beq_iff_eq,
    and_assoc]

/-- A prediction restriction changes the predictions alone: none where it is treated as a NOP, else those it names go. -/
theorem predRestrict_completes (hexec : exec i s = predRestrict k v s) :
    ∃ t, Completes i [] false false s { s with predictions := t.predictions } t ∧
      ∀ p, p ∈ t.predictions ↔ p ∈ s.predictions ∧ (rctxNop v s = true ∨
        ¬(p.kind = k ∧ elNum p.el = (field v 24 2).toNat ∧ p.space = Config.rctxSpace v ∧
          Config.rctxContext v p.space p.addr = true)) := by
  have hnext : exec i s = .next (advance (if rctxNop v s then s else restrictPredictions k v s)) := hexec
  by_cases hnop : rctxNop v s = true
  · rw [if_pos hnop] at hnext
    exact ⟨_, completes_made hnext (by rw [advance_predictions]) rfl rfl rfl rfl, fun p => by simp [hnop]⟩
  · rw [if_neg hnop] at hnext
    refine ⟨_, completes_made hnext (by rw [advance_predictions]; rfl) rfl rfl rfl rfl, fun p => ?_⟩
    rw [advance_predictions, mem_restrictPredictions, or_iff_right hnop]

end

/-- Settles O14: each hint is `advance` alone; the three restrictions are one function of the kind. -/
theorem hintsAreNops : Obligations.HintsAreNops := by
  intro s crm cond rt
  refine ⟨fun i hi => ?_, fun j k hjk => ?_⟩
  · have hexec : exec i s = .next (advance s) := by
      fin_cases hi <;> rfl
    exact ⟨_, completes_nop hexec _ _ _⟩
  · have hexec : exec j s = predRestrict k (readX rt s) s := by
      fin_cases hjk <;> rfl
    exact predRestrict_completes hexec

end Sys2Proof.Proofs
end

