-- ==== Sys2Proof/Proofs/TagStores.lean ====
section
/-! STG: one Allocation Tag stored, and the base written back. -/

namespace Sys2Proof.Proofs

open Sys2Proof.Machine Sys2Proof.Safety Sys2Proof.Laws

section
variable {s u : State} {rn rt : BitVec 5} {base : Word} {x : Xlat} {g : BitVec 4} {addr : Word → Word}
  {wb : Option (Word → Word)}

/-- The base register after STG: the new base in it, with writeback. -/
def writeBase (rn : BitVec 5) (wb : Option (Word → Word)) (base : Word) (s : State) : State :=
  match wb with
  | some f => writeXSP rn (f base) s
  | none => s

theorem writeXSP_eq (n : BitVec 5) (v : Word) (s : State) :
    writeXSP n v s = { s with x := (writeXSP n v s).x, sp := (writeXSP n v s).sp } := by
  unfold writeXSP
  split
  · rfl
  · rw [writeX_eq]

theorem writeBase_eq (rn : BitVec 5) (wb : Option (Word → Word)) (base : Word) (s : State) :
    writeBase rn wb base s = { s with x := (writeBase rn wb base s).x, sp := (writeBase rn wb base s).sp } := by
  cases wb with
  | none => rfl
  | some f => exact writeXSP_eq ..

theorem frame_writeBase (rn : BitVec 5) (wb : Option (Word → Word)) (base : Word) (s : State) :
    Frame (if wb.isSome then [rn] else []) (wb.isSome && rn == 31) false s (writeBase rn wb base s) := by
  cases wb with
  | none => exact frame_refl ..
  | some f => exact frame_writeXSP (List.mem_singleton.mpr rfl) (fun h => by simp [h]) ..

/-- At an address that is no multiple of 16 STG takes an Alignment fault. -/
theorem stg_misaligned (hmte : has .MTE s = true) (hbase : baseReg rn s = .ok base s)
    (hva : (addr base).toNat % 16 ≠ 0) : DataAbort alignmentStatus (addr base) s (stg rn rt addr wb s) := by
  have hexec : stg rn rt addr wb s =
      (abort (α := Unit) (tagDesc true) .alignment (addr base) s).andThen fun _ t => .next t := by
    simp [stg, hmte, hbase, hva]
  exact hexec ▸ dataAbort_alignment (d := tagDesc true) (by simp [tagDesc]) _ _

/-- With its granule located STG stores the tag, writes the base back and moves on. -/
theorem stg_located (hmte : has .MTE s = true) (hbase : baseReg rn s = .ok base s) (hva : (addr base).toNat % 16 = 0)
    (hloc : locateGranule (tagDesc true) .goesOn (addr base) s = .ok x u) :
    stg rn rt addr wb s =
      .next (advance (writeBase rn wb base (storeTag x (field (readXSP rt s) 56 4) u))) := by
  simp only [stg, hmte, hbase, hva, hloc, andThen_value, Loc.toAcc]
  rfl

theorem locateGranule_canonical {d : AccDesc} {dev : OnDevice} {va : Word} (h : locateGranule d dev va s = .ok x u)
    (hs : Canonical s) : Canonical u := by
  have hloc := locateBy_canonical d 16 (fun x _ => if isDevice x.type ∧ dev = .faults then some .alignment else none) va hs
  rwa [show locateBy _ _ _ _ _ = _ from h] at hloc

/-- What STG leaves: the frame, the tag of the granule, and the base. -/
theorem stg_completes (hs : Canonical s) (hmte : has .MTE s = true) (hbase : baseReg rn s = .ok base s)
    (hva : (addr base).toNat % 16 = 0) (hloc : locateGranule (tagDesc true) .goesOn (addr base) s = .ok x u) :
    ∃ t, stg rn rt addr wb s = .next t ∧ NextPc s t ∧
      Frame (if wb.isSome then [rn] else []) (wb.isSome && rn == 31) false { u with tags := t.tags } t ∧
      TagsStored [x] (fun _ => field (readXSP rt s) 56 4) u t ∧ ∀ f, wb = some f → readXSP rn t = f base := by
  generalize hg : field (readXSP rt s) 56 4 = g
  have hnext : stg rn rt addr wb s = .next (advance (writeBase rn wb base (storeTag x g u))) :=
    hg ▸ stg_located hmte hbase hva hloc
  have hwritten := writeBase_eq rn wb base (storeTag x g u)
  have htags : (advance (writeBase rn wb base (storeTag x g u))).tags = (storeTag x g u).tags := by
    rw [advance_tags, hwritten]
  refine ⟨_, hnext, nextPc_advance ?pc ?offTop ?halted ?nRW, ?frame,
    tagsStored_storeTags rfl (fun _ => rfl) (locateGranule_canonical hloc hs).2 htags, ?base⟩
  case pc | offTop | halted | nRW =>
    rw [hwritten, storeTag_eq, locateBy_ok hloc]
    rfl
  case frame =>
    rw [htags, ← storeTag_eq]
    exact frame_trans (frame_writeBase ..) (frame_advance ..)
  case base =>
    rintro f rfl
    exact (readXSP_advance ..).trans (readXSP_writeXSP ..)

end

/-- Settles O43: the three forms are `stg` with an address and a writeback; `stg_completes` and `stg_misaligned`. -/
theorem storeAllocationTag : Obligations.StoreAllocationTag := by
  unfold Obligations.StoreAllocationTag
  intro s u imm9 rn rt base x hs hmte hbase i va back hi
  obtain ⟨addr, wb, hexec, rfl, rfl, hback⟩ : ∃ addr wb, exec i s = stg rn rt addr wb s ∧ va = addr base ∧
      back = wb.isSome ∧ (back = true → wb = some (· + simmTag imm9)) := by
    simp only [List.mem_cons, Prod.mk.injEq, List.not_mem_nil, or_false] at hi
    rcases hi with ⟨rfl, rfl, rfl⟩ | ⟨rfl, rfl, rfl⟩ | ⟨rfl, rfl, rfl⟩
    · exact ⟨(· + simmTag imm9), none, rfl, rfl, rfl, nofun⟩
    · exact ⟨id, some (· + simmTag imm9), rfl, rfl, rfl, fun _ => rfl⟩
    · exact ⟨(· + simmTag imm9), some (· + simmTag imm9), rfl, rfl, rfl, fun _ => rfl⟩
  rw [hexec]
  refine ⟨fun hva hloc => ?_, fun hva => stg_misaligned hmte hbase hva⟩
  obtain ⟨t, hnext, hpc, hframe, htags, hwritten⟩ := stg_completes (wb := wb) hs hmte hbase hva hloc
  exact ⟨t, hnext, hpc, hframe, htags, fun h => hwritten _ (hback h)⟩

end Sys2Proof.Proofs
end

