-- ==== Sys2Proof/Proofs/LocatedAccesses.lean ====
section
/-! Locating the bytes of an access: the System registers it keeps, the descriptors it updates, and where a flat address is. -/

namespace Sys2Proof.Proofs

open Sys2Proof.Machine Sys2Proof.Safety Sys2Proof.Laws

/-! ### States that translation reads alike -/

/-- The registers that collect Tag Check Faults. -/
def tagFaultRegs : List SysReg := [.TFSR_EL1, .TFSRE0_EL1, .TFSR_EL2, .TFSR_EL3]

/-- Nothing differs of what translation reads beside memory and the TLB: parameters, PSTATE, choices, and the System registers but
those that collect Tag Check Faults. -/
structure SameView (s u : State) : Prop where
  cfg : u.cfg = s.cfg
  ps : u.ps = s.ps
  pend : u.pend = s.pend
  free : u.free = s.free
  regs : ∀ q ∉ tagFaultRegs, sreg u q = sreg s q

section
variable {s t u : State}

theorem SameView.refl (s : State) : SameView s s := ⟨rfl, rfl, rfl, rfl, fun _ _ => rfl⟩

theorem SameView.trans (h : SameView s t) (g : SameView t u) : SameView s u where
  cfg := g.cfg.trans h.cfg
  ps := g.ps.trans h.ps
  pend := g.pend.trans h.pend
  free := g.free.trans h.free
  regs q hq := (g.regs q hq).trans (h.regs q hq)

theorem tfsrReg_mem (s : State) : tfsrReg s ∈ tagFaultRegs := by
  unfold tfsrReg
  cases s.ps.el <;> decide

theorem sameView_recordTagFault (va : Word) (s : State) : SameView s (recordTagFault va s) :=
  ⟨rfl, rfl, rfl, rfl, fun _ hq => sreg_setReg_other _ _ _ _ fun h => hq (sysIdx_inj h ▸ tfsrReg_mem s)⟩

theorem sameView_updateDescriptors (us : List DescUpdate) (s : State) : SameView s (updateDescriptors us s) := by
  rw [updateDescriptors_eq]
  exact ⟨rfl, rfl, rfl, rfl, fun _ _ => rfl⟩

/-- An indirect read of another register sees the same. -/
theorem SameView.ireg_eq (h : SameView s u) {q : SysReg} (hq : q ∉ tagFaultRegs) : ireg u q = ireg s q := by
  simp only [ireg, seenIndirectly, h.regs q hq, h.pend, h.free]

theorem SameView.ibit_eq (h : SameView s u) {q : SysReg} (hq : q ∉ tagFaultRegs) (n : Nat) : ibit u q n = ibit s q n := by
  rw [ibit, h.ireg_eq hq, ibit]

theorem SameView.has_eq (h : SameView s u) (f : Feature) : has f u = has f s := by rw [has, h.cfg, has]

theorem SameView.hcr_eq (h : SameView s u) (n : Nat) : hcr u n = hcr s n := by
  have hscr (n : Nat) : ibit u .SCR_EL3 n = ibit s .SCR_EL3 n := h.ibit_eq (by decide) n
  have hbit : ibit u .HCR_EL2 n = ibit s .HCR_EL2 n := h.ibit_eq (by decide) n
  simp only [hcr, el2Enabled, hcrImplemented, h.has_eq, h.cfg, hscr, hbit]
  rfl

theorem SameView.regime_eq (h : SameView s u) : regime u = regime s := by
  simp only [regime, regimeOf, e2hTge, h.hcr_eq, h.ps]
  rfl

theorem SameView.curSpace_eq (h : SameView s u) : curSpace u = curSpace s := by
  have hscr (n : Nat) : ibit u .SCR_EL3 n = ibit s .SCR_EL3 n := h.ibit_eq (by decide) n
  simp only [curSpace, spaceAt, lowerSpace, h.has_eq, h.cfg, h.ps, hscr]

theorem sctlrOf_not_tagFault (r : Regime) : sctlrOf r ∉ tagFaultRegs := by cases r <;> decide

theorem tcrOf_not_tagFault (r : Regime) : tcrOf r ∉ tagFaultRegs := by cases r <;> decide

/-- Whether addresses are flat. -/
theorem SameView.flat_eq (h : SameView s u) (d : AccDesc) : flat d u = flat d s := by
  have hgpccr : ibit u .GPCCR_EL3 16 = ibit s .GPCCR_EL3 16 := h.ibit_eq (by decide) 16
  simp only [flat, stage1On, stage2For, stage2On, gpcOn, sctlr, h.regime_eq, h.hcr_eq, h.has_eq,
    h.ibit_eq (sctlrOf_not_tagFault _), hgpccr]

theorem SameView.tcrBit_eq (h : SameView s u) (r : Regime) (upper : Bool) (hi lo one : Nat) :
    tcrBit u r upper hi lo one = tcrBit s r upper hi lo one := by
  simp only [tcrBit, h.ibit_eq (tcrOf_not_tagFault _)]

/-- The physical address of a flat address. -/
theorem SameView.s1DisabledAddr_eq (h : SameView s u) (d : AccDesc) (va : Word) :
    s1DisabledAddr d va u = s1DisabledAddr d va s := by
  simp only [s1DisabledAddr, tbi, mtx, h.regime_eq, h.tcrBit_eq]
  rfl

/-- Its location. -/
theorem SameView.flatXlat_eq (h : SameView s u) (d : AccDesc) (va : Word) (pa : Nat) :
    flatXlat d va pa u = flatXlat d va pa s := by
  have htags : s1DisabledTags d va u = s1DisabledTags d va s := by
    simp only [s1DisabledTags, mtx, h.regime_eq, h.hcr_eq, h.tcrBit_eq]
    rfl
  simp only [flatXlat, htags, h.cfg, h.curSpace_eq, h.regime_eq, h.ireg_eq (tcrOf_not_tagFault _)]

end

/-! ### One single-copy atomic access -/

/-- What locating an access does that asks for these updates of descriptors: it makes them, and keeps what translation reads
beside; where addresses are flat there are none, and the TLB stays. -/
structure Locates (d : AccDesc) (us : List DescUpdate) (s u : State) : Prop where
  view : SameView s u
  mem : u.mem = (updateDescriptors us s).mem
  stale : u.stale = (updateDescriptors us s).stale
  flatUpdates : flat d s = true → us = []
  flatTlb : flat d s = true → u.tlb = s.tlb

/-- Where a flat address is. -/
def flatAt (d : AccDesc) (va : Word) (s : State) : Xlat := flatXlat d va (s1DisabledAddr d va s).toNat s

/-- A flat address is that of a physical byte, which is the location. -/
def FoundFlat (d : AccDesc) (va : Word) (s : State) (x : Xlat) : Prop :=
  x = flatAt d va s ∧ (s1DisabledAddr d va s).toNat < 2 ^ 52

section
variable {d : AccDesc} {n g : Nat} {va : Word} {s t u v : State} {x y : Xlat} {xs : List Xlat} {us us' : List DescUpdate}
  {bad : Xlat → State → Option AbortKind}

theorem updateDescriptors_append (us us' : List DescUpdate) (s : State) :
    updateDescriptors (us ++ us') s = updateDescriptors us' (updateDescriptors us s) := List.foldl_append ..

theorem Locates.refl (d : AccDesc) (s : State) : Locates d [] s s := ⟨.refl s, rfl, rfl, fun _ => rfl, fun _ => rfl⟩

/-- One access after another. -/
theorem Locates.trans (h : Locates d us s t) (h' : Locates d us' t u) : Locates d (us ++ us') s u := by
  obtain ⟨hmem, hstale⟩ := updateDescriptors_congr us' h.mem h.stale
  have hflat : flat d s = true → flat d t = true := (h.view.flat_eq d).trans
  exact ⟨h.view.trans h'.view, by rw [h'.mem, hmem, updateDescriptors_append],
    by rw [h'.stale, hstale, updateDescriptors_append],
    fun hs => by rw [h.flatUpdates hs, h'.flatUpdates (hflat hs), List.append_nil],
    fun hs => (h'.flatTlb (hflat hs)).trans (h.flatTlb hs)⟩

/-- Where addresses are flat, memory stays. -/
theorem Locates.flat_kept (h : Locates d us s u) (hs : flat d s = true) :
    u.mem = s.mem ∧ u.stale = s.stale ∧ u.tlb = s.tlb := by
  have hmem := h.mem
  have hstale := h.stale
  rw [h.flatUpdates hs] at hmem hstale
  exact ⟨hmem, hstale, h.flatTlb hs⟩

theorem find_foundFlat (hs : flat d s = true) (h : find d va s = .ok x u) : u = s ∧ FoundFlat d va s x := by
  rw [find, findWith, if_pos hs] at h
  split at h
  case isTrue hrange =>
    cases h
    exact ⟨rfl, rfl, hrange.2.trans_le (Nat.pow_le_pow_right (by decide) hrange.1)⟩
  case isFalse => cases h

theorem flatAt_updates (d : AccDesc) (va : Word) (s : State) : (flatAt d va s).updates = [] := by
  unfold flatAt flatXlat
  dsimp only
  split <;> rfl

/-- The checks of the final address leave the state, or record a Tag Check Fault. -/
theorem finalChecks_state (h : finalChecks d n x s = .ok y u) : u = s ∨ u = recordTagFault x.va s := by
  simp only [finalChecks] at h
  split at h
  case h_1 => cases h
  case h_2 => split at h <;> cases h
  case h_3 => cases h
  case h_4 =>
    cases h
    split
    · exact .inr rfl
    · exact .inl rfl

theorem checked_commits (h : checked d n x s = .ok y u) : y = x ∧ ∃ w, u = commit x w ∧ SameView s w ∧
    w = { s with sys := w.sys } := by
  unfold checked at h
  split at h
  case h_2 => cases h
  case h_1 z w hfinal =>
    obtain rfl := finalChecks_same hfinal
    obtain ⟨rfl, rfl⟩ : z = y ∧ commit z w = u := by simpa using h
    refine ⟨rfl, w, rfl, ?_, finalChecks_ok hfinal⟩
    rcases finalChecks_state hfinal with rfl | rfl
    · exact .refl _
    · exact sameView_recordTagFault ..

/-- An attempt that succeeds makes the updates of what it found. -/
theorem attempt_locates (h : attempt d n bad va s = .ok x u) :
    Locates d x.updates s u ∧ (flat d s = true → FoundFlat d va s x) := by
  obtain ⟨y, v, hfind, hrest⟩ := loc_bind_ok h
  split at hrest
  case h_1 => cases hrest
  case h_2 =>
    obtain ⟨rfl, w, rfl, hview, hw⟩ := checked_commits hrest
    have hv : v = { s with tlb := v.tlb, gptTlb := v.gptTlb } := findWith_ok hfind
    have hsame : SameView s v := by
      rw [hv]
      exact ⟨rfl, rfl, rfl, rfl, fun _ _ => rfl⟩
    obtain ⟨hmem, hstale⟩ := updateDescriptors_congr (s := s) (t := w) x.updates (by rw [hw, hv]) (by rw [hw, hv])
    refine ⟨⟨(hsame.trans hview).trans (sameView_updateDescriptors ..), hmem, hstale, fun hs => ?_, fun hs => ?_⟩,
      fun hs => (find_foundFlat hs hfind).2⟩
    · rw [(find_foundFlat hs hfind).2.1, flatAt_updates]
    · have htlb : v.tlb = s.tlb := by rw [(find_foundFlat hs hfind).1]
      rw [commit, updateDescriptors_eq]
      exact (congrArg State.tlb hw).trans htlb

/-- So does an access, whether or not it is made again with what a walk reads. -/
theorem locateBy_locates (h : locateBy d n bad va s = .ok x u) :
    Locates d x.updates s u ∧ (flat d s = true → FoundFlat d va s x) := by
  unfold locateBy at h
  split at h
  case h_1 hattempt =>
    cases h
    exact attempt_locates hattempt
  case h_2 k va' t _ =>
    split at h
    case isTrue hreread =>
      have hnot : ¬flat d s = true := by
        simp only [rereads, Bool.and_eq_true, Bool.not_eq_true'] at hreread
        exact Bool.eq_false_iff.mp hreread.1.1.2
      have hdrop : SameView s (dropHits d va s) := ⟨rfl, rfl, rfl, rfl, fun _ _ => rfl⟩
      obtain ⟨hloc, -⟩ := attempt_locates h
      obtain ⟨hmem, hstale⟩ := updateDescriptors_congr (s := s) (t := dropHits d va s) x.updates rfl rfl
      exact ⟨⟨hdrop.trans hloc.view, hloc.mem.trans hmem, hloc.stale.trans hstale, fun hs => absurd hs hnot,
        fun hs => absurd hs hnot⟩, fun hs => absurd hs hnot⟩
    case isFalse => cases h

/-! ### The accesses that an unaligned one is made of -/

/-- The flat locations of the bytes from an address up. -/
def flatBytes (d : AccDesc) (s : State) (n : Nat) (va : Word) : List Xlat :=
  (List.range n).map fun k => flatAt d (va + BitVec.ofNat 64 k) s

theorem add_ofNat_succ (va : Word) (k : Nat) : va + BitVec.ofNat 64 (k + 1) = va + 1 + BitVec.ofNat 64 k := by
  rw [BitVec.ofNat_add, BitVec.add_assoc, BitVec.add_comm (BitVec.ofNat 64 k)]
  rfl

theorem flatBytes_succ (d : AccDesc) (s : State) (n : Nat) (va : Word) :
    flatBytes d s (n + 1) va = flatAt d va s :: flatBytes d s n (va + 1) := by
  rw [flatBytes, List.range_succ_eq_map, List.map_cons, List.map_map, flatBytes, Function.comp_def]
  simp only [Nat.succ_eq_add_one, add_ofNat_succ]
  rw [show va + BitVec.ofNat 64 0 = va from BitVec.add_zero va]

theorem SameView.flatAt_eq (h : SameView s u) (d : AccDesc) (va : Word) : flatAt d va u = flatAt d va s := by
  rw [flatAt, h.s1DisabledAddr_eq, h.flatXlat_eq, flatAt]

theorem SameView.flatBytes_eq (h : SameView s u) (d : AccDesc) (n : Nat) (va : Word) :
    flatBytes d u n va = flatBytes d s n va := by simp only [flatBytes, h.flatAt_eq]

/-- The locations of bytes make the updates of each, one after another; where addresses are flat each is that of its own
address. -/
theorem locateEach_locates {first : Bool} (h : locateSeq (fun a t => locate d 1 a true t) 1 g first n va s = .ok xs u) :
    Locates d (xs.flatMap (·.updates)) s u ∧ (flat d s = true → xs = flatBytes d s n va ∧
      ∀ k < n, (s1DisabledAddr d (va + BitVec.ofNat 64 k) s).toNat < 2 ^ 52) := by
  induction n generalizing first va s xs with
  | zero =>
    cases h
    exact ⟨.refl .., fun _ => ⟨rfl, nofun⟩⟩
  | succ n ih =>
    rw [locateSeq] at h
    split at h
    · cases h
    · obtain ⟨x, v, hx, hrest⟩ := loc_bind_ok h
      obtain ⟨ys, w, hys, hend⟩ := loc_bind_ok hrest
      cases hend
      obtain ⟨hfirst, hfound⟩ := locateBy_locates hx
      obtain ⟨hlater, hbytes⟩ := ih hys
      refine ⟨hfirst.trans hlater, fun hs => ?_⟩
      obtain ⟨rfl, hlt⟩ := hfound hs
      obtain ⟨rfl, hlts⟩ := hbytes ((hfirst.view.flat_eq d).trans hs)
      rw [flatBytes_succ, hfirst.view.flatBytes_eq]
      refine ⟨rfl, fun k hk => ?_⟩
      cases k with
      | zero => simpa using hlt
      | succ k =>
        have := hlts k (by omega)
        rw [hfirst.view.s1DisabledAddr_eq] at this
        rwa [add_ofNat_succ]

/-- The locations of an access where addresses are flat: of each byte of an unaligned one, bytes of one location else. -/
def flatLocs (d : AccDesc) (n : Nat) (va : Word) (s : State) : List Xlat :=
  if unaligned va n then flatBytes d s n va else (List.range n).map (flatAt d va s).plus

theorem SameView.flatLocs_eq (h : SameView s u) (d : AccDesc) (n : Nat) (va : Word) :
    flatLocs d n va u = flatLocs d n va s := by
  rw [flatLocs, h.flatBytes_eq, h.flatAt_eq, flatLocs]

/-- The bytes of an aligned access have the updates of its one translation. -/
theorem accessUpdates_aligned (hn : 0 < n) (ha : unaligned va n = false) (x : Xlat) :
    accessUpdates n va ((List.range n).map x.plus) = x.updates := by
  obtain ⟨m, rfl⟩ : ∃ m, n = m + 1 := ⟨n - 1, by omega⟩
  simp [accessUpdates, ha, List.range_succ_eq_map, Xlat.plus]

/-- An access that is located makes the updates that its translations ask for. -/
theorem locateAll_locates (h : locateAll d n va s = .ok xs u) :
    ∃ us, Locates d us s u ∧ (0 < n → us = accessUpdates n va xs) := by
  unfold locateAll locateNth at h
  split at h
  · cases h
  · split at h
    case isTrue ha => exact ⟨_, (locateEach_locates h).1, fun _ => by rw [accessUpdates, if_pos ha]⟩
    case isFalse ha =>
      obtain ⟨x, v, hx, hend⟩ := loc_bind_ok h
      cases hend
      exact ⟨_, (locateBy_locates hx).1, fun hn => (accessUpdates_aligned hn (Bool.eq_false_iff.mpr ha) x).symm⟩

end

/-- Settles O52: what is located makes its updates and keeps the rest, `locateAll_locates`. -/
theorem locatingAnAccess : Obligations.LocatingAnAccess := by
  unfold Obligations.LocatingAnAccess
  intro d n va s u xs h
  obtain ⟨us, hloc, hus⟩ := locateAll_locates h
  refine ⟨locateAll_length h, locateAll_ok h, fun q h1 h0 h2 h3 => hloc.view.regs q (by simp [tagFaultRegs, *]),
    fun hn => hus hn ▸ ⟨hloc.mem, hloc.stale⟩, fun hs => ?_, hloc.flat_kept⟩
  have hcanonical := locateNth_canonical d n 0 va hs
  rwa [show locateNth d n 0 va s = _ from h] at hcanonical

end Sys2Proof.Proofs
end

