-- ==== Sys2Proof/Proofs/StoreLoad.lean ====
section
/-! Eight bytes stored at a flat address and loaded again: the same locations, which are bytes of their own, and the value of the
bytes. -/

namespace Sys2Proof.Proofs

open Sys2Proof.Machine Sys2Proof.Safety Sys2Proof.Laws

/-! ### Values and their bytes -/

/-- A bit of a value is one of the byte at its place. -/
theorem getLsbD_ofBytes (w : Nat) (bs : List Byte) (j : Nat) :
    (ofBytes w bs).getLsbD j = (decide (j < w) && (bs.getD (j / 8) 0).getLsbD (j % 8)) := by
  induction bs generalizing j with
  | nil => simp [ofBytes]
  | cons b bs ih =>
    simp only [ofBytes, BitVec.getLsbD_or, BitVec.getLsbD_setWidth, BitVec.getLsbD_shiftLeft, ih]
    by_cases hj : j < 8
    · simp [hj, Nat.div_eq_of_lt hj, Nat.mod_eq_of_lt hj]
    · have hdiv : j / 8 = (j - 8) / 8 + 1 := by omega
      have hmod : j % 8 = (j - 8) % 8 := by omega
      rw [BitVec.getLsbD_of_ge b j (Nat.le_of_not_lt hj), hdiv, hmod, List.getD_cons_succ]
      by_cases hw : j < w
      · simp [hj, hw, show j - 8 < w by omega]
      · simp [hw]

/-- A value whose bits are all among its bytes is put together from them again. -/
theorem ofBytes_bytesOf {w n : Nat} (h : w ≤ 8 * n) (v : BitVec w) : ofBytes w (bytesOf n v) = v := by
  ext j hj
  rw [← BitVec.getLsbD_eq_getElem, getLsbD_ofBytes, ← BitVec.getLsbD_eq_getElem]
  have hbyte : (bytesOf n v).getD (j / 8) 0 = v.extractLsb' (8 * (j / 8)) 8 := by
    simp [bytesOf, show j / 8 < n by omega]
  rw [hbyte, BitVec.getLsbD_extractLsb', Nat.div_add_mod]
  simp [hj, Nat.mod_lt]

theorem byteOrder_byteOrder (big : Bool) (bs : List Byte) : byteOrder big (byteOrder big bs) = bs := by
  cases big <;> simp [byteOrder]

/-! ### Flat locations -/

section
variable {d : AccDesc} {n k : Nat} {va : Word} {s t u : State} {xs : List Xlat}

/-- Neither the top byte nor the tag of an address counts in its low 52 bits. -/
theorem s1DisabledAddr_low (d : AccDesc) (va : Word) (s : State) :
    (s1DisabledAddr d va s).toNat % 2 ^ 52 = va.toNat % 2 ^ 52 := by
  have hlow : (s1DisabledAddr d va s).setWidth 52 = va.setWidth 52 := by
    ext j hj
    rw [BitVec.getElem_setWidth, BitVec.getElem_setWidth, s1DisabledAddr]
    split
    · simp [getLsbD_maskOf, show j < 56 by omega, show j < 64 by omega]
    · split
      · rw [getLsbD_copyBits, if_neg (by omega)]
      · rfl
  simpa using congrArg BitVec.toNat hlow

theorem flatAt_key (d : AccDesc) (va : Word) (s : State) :
    (flatAt d va s).key = physKey (curSpace s) (s1DisabledAddr d va s).toNat := by
  unfold flatAt flatXlat Xlat.key
  dsimp only
  split <;> rfl

/-- The flat locations of no more bytes than an address space has are different bytes. -/
theorem flatBytes_nodup (hn : n ≤ 2 ^ 52) (h : ∀ k < n, (s1DisabledAddr d (va + BitVec.ofNat 64 k) s).toNat < 2 ^ 52) :
    ((flatBytes d s n va).map Xlat.key).Nodup := by
  rw [flatBytes, List.map_map]
  refine List.Nodup.map_on (fun j hj k hk hkey => ?_) List.nodup_range
  rw [List.mem_range] at hj hk
  have hlow (k : Nat) (hk : k < n) : (flatAt d (va + BitVec.ofNat 64 k) s).key =
      spaceNum (curSpace s) * 2 ^ 52 + (va.toNat + k) % 2 ^ 52 := by
    rw [flatAt_key, physKey, ← Nat.mod_eq_of_lt (h k hk), s1DisabledAddr_low, BitVec.toNat_add, BitVec.toNat_ofNat]
    omega
  rw [Function.comp, Function.comp, hlow j hj, hlow k hk] at hkey
  omega

theorem plusBytes_nodup (x : Xlat) (n : Nat) : (((List.range n).map x.plus).map Xlat.key).Nodup := by
  rw [List.map_map]
  refine List.Nodup.map_on (fun j _ k _ hkey => ?_) List.nodup_range
  rw [Function.comp, Function.comp, plus_key, plus_key] at hkey
  omega

/-- Where addresses are flat, the locations of an access are those of its address, and different bytes. -/
theorem locateAll_flat (hs : flat d s = true) (hn : n ≤ 2 ^ 52) (h : locateAll d n va s = .ok xs u) :
    xs = flatLocs d n va s ∧ (xs.map Xlat.key).Nodup := by
  unfold locateAll locateNth at h
  split at h
  · cases h
  · rw [flatLocs]
    split at h
    case isTrue ha =>
      obtain ⟨rfl, hlt⟩ := (locateEach_locates h).2 hs
      exact ⟨(if_pos ha).symm, flatBytes_nodup hn hlt⟩
    case isFalse ha =>
      obtain ⟨x, v, hx, hend⟩ := loc_bind_ok h
      cases hend
      obtain ⟨rfl, -⟩ := (locateBy_locates hx).2 hs
      exact ⟨(if_neg ha).symm, plusBytes_nodup ..⟩

/-- A load of data is translated where a store is. -/
theorem flat_load (m r : BitVec 5) (s : State) : flat (dataDesc false m) s = flat (dataDesc true r) s := rfl

theorem flatLocs_load (m r : BitVec 5) (n : Nat) (va : Word) (s : State) :
    flatLocs (dataDesc false m) n va s = flatLocs (dataDesc true r) n va s := rfl

/-- A store to ordinary memory keeps what translation reads beside memory. -/
theorem sameView_writeLocs (h : ∀ x ∈ xs, ordinary x = true) (bs : List Byte) (s : State) :
    SameView s (writeLocs xs bs s) := by
  rw [writeLocs_ordinary h]
  exact ⟨rfl, rfl, rfl, rfl, fun _ _ => rfl⟩

theorem SameView.bigEndian_eq (h : SameView s u) : bigEndian u = bigEndian s := by
  rw [bigEndian, h.cfg, h.ps, bigEndian]

end

/-- Settles O53: the load has the locations of the store, `locateAll_flat`, and reads the bytes that were written. -/
theorem storeThenLoad : Obligations.StoreThenLoad := by
  unfold Obligations.StoreThenLoad
  intro s t t' v m n va w w' xs f hs hflat hloc hordinary hwrite hread
  obtain ⟨xs', v', hloc', rfl⟩ := memWrite_ok hwrite
  obtain ⟨rfl, rfl⟩ : xs = xs' ∧ v = v' := by simpa using hloc.symm.trans hloc'
  obtain ⟨ys, u, hload, rfl, -⟩ := memRead_ok hread
  generalize hbs : byteOrder (bigEndian v) (bytesOf 8 w) = bs at hload
  obtain ⟨us, hstored, -⟩ := locateAll_locates hloc
  obtain ⟨us', hloaded, -⟩ := locateAll_locates hload
  have hview : SameView s (writeLocs xs bs v) := hstored.view.trans (sameView_writeLocs hordinary bs v)
  have hflat' : flat (dataDesc false m) (writeLocs xs bs v) = true := ((hview.flat_eq _).trans (flat_load m n s)).trans hflat
  obtain ⟨hxs, hnodup⟩ := locateAll_flat hflat (by decide) hloc
  obtain ⟨hys, -⟩ := locateAll_flat hflat' (by decide) hload
  obtain rfl : ys = xs := by rw [hys, hview.flatLocs_eq, flatLocs_load m n, hxs]
  have hmem : u.mem = (writeLocs ys bs v).mem := (hloaded.flat_kept hflat').1
  have hlength : bs.length = ys.length := by rw [← hbs, byteOrder_length, bytesOf_length, locateAll_length hloc]
  have hbytes : (readLocs ys 0 u).1 = bs := by
    rw [readLocs_ordinary hordinary]
    simp only [readByte, hmem]
    exact readByte_writeLocs_same hordinary hnodup hlength (locateAll_wf hloc hs.1)
  have horder : bigEndian u = bigEndian v :=
    hloaded.view.bigEndian_eq.trans (sameView_writeLocs hordinary bs v).bigEndian_eq
  rw [hbytes, horder, ← hbs, byteOrder_byteOrder, ofBytes_bytesOf (by decide)]

end Sys2Proof.Proofs
end
